-- ==== Sys2Proof/Word.lean ====
section
/-! DEFINITION. Words, bytes and the sparse table type that the whole model uses (R2 to R4). -/

namespace Sys2Proof

/-- An 8-bit byte. -/
abbrev Byte := BitVec 8
/-- A 16-bit word. -/
abbrev U16 := BitVec 16
/-- A 32-bit word. -/
abbrev U32 := BitVec 32
/-- A 64-bit word. -/
abbrev U64 := BitVec 64

/-- Sparse data by key, in one canonical form: keys strictly rising, no entry equal to the value
an unlisted key reads as (that value is given at each use). -/
abbrev Table (α : Type) := List (Nat × α)

/-- A string of bytes in address order. -/
abbrev Bytes := List Byte

end Sys2Proof
end

