-- ==== Sys2Proof/Config.lean ====
section
/-! DEFINITION. What an implementation fixes (fused identities) and the free values: constants with
no body, so that no proof can see what they are. -/

namespace Sys2Proof

/-- Serial number, fused (R472, R508). -/
opaque Config.serial : U64
/-- Die revisions, fused (R472). -/
opaque Config.dieRev : U32
/-- MAC address of each train-line port, fused (R386). -/
opaque Config.mac : Nat → BitVec 48
/-- Check bits of a 32-bit word. R439 gives the code's properties, not its matrix (log 6). -/
opaque Config.eccEncode : U32 → BitVec 7
/-- The duty of a phase (0 U, 1 V, 2 W) of an axis in a current period, counted from the start of the time base, that follows from a
DC link of 0 V (R212, R216, log 5). -/
opaque Config.dutyAtZero : Nat → Nat → Nat → BitVec 16
/-- What a 64-bit intermediate holds for a value beyond its range (R220, R263, log 5). -/
opaque Config.beyond64 : Int → BitVec 64
/-- What a signed 16-bit bin of a baseline holds for a value beyond its range (R237, log 5). -/
opaque Config.beyond16 : Int → BitVec 16
/-- The car flags, among those that both masks of a SET_CAR_FLAG name, that a tick leaves set (R147, log 5). -/
opaque Config.carFlags : Nat → BitVec 8
/-- Bytes drawn from the physical noise source (R457) and nonces (R365), the n-th draw (log 5). -/
opaque Config.noise : Nat → Bytes
/-- Any value that the spec leaves open, the n-th draw (log 5). -/
opaque Config.freeValue : Nat → U64

end Sys2Proof
end

