-- ==== Sys2Proof/Machine/Types.lean ====
section
/-! DEFINITION. The names and the pieces of data that commands carry and that State is made of. -/

namespace Sys2Proof

/-- The eight modes (R35). -/
inductive Mode where
  | selftest | safeTalk | provision | shadow | service | workshop | parked | lockout
  deriving DecidableEq, Repr

/-- The five reset kinds (R60). -/
inductive ResetKind where
  | por | bor | pin | soft | parked
  deriving DecidableEq, Repr

/-- The two Sapphire islands (R271). -/
inductive Isl where
  | a | b
  deriving DecidableEq, Repr

/-- Life-cycle states (R59, R457). -/
inductive LifeCycle where
  | blank | provisioned | field | returned | scrapped
  deriving DecidableEq, Repr

/-- Roles (R355). -/
inductive Role where
  | none | active | standby | solo
  deriving DecidableEq, Repr

/-- Flow states (R78, R100). -/
inductive FlowState where
  | disabled | enabled | suspended | error
  deriving DecidableEq, Repr

/-- Axis states (R196). -/
inductive AxisState where
  | off | clearing | on
  deriving DecidableEq, Repr

/-- Pair states (R278). -/
inductive PairState where
  | unsafeSt | safe | partialSt | fault
  deriving DecidableEq, Repr

/-- Bank power states (R446, R453). -/
inductive BankPower where
  | off | retention | on
  deriving DecidableEq, Repr

/-- Field-group states (R348, R349, R354). -/
inductive GroupState where
  | normal | low | missing | notUsed
  deriving DecidableEq, Repr

/-- Clock monitors of R18 whose fault is a CLOCK_FAULT. -/
inductive ClockSource where
  | refclk | pll | safeB | safeA | field
  deriving DecidableEq, Repr

/-- Tamper sources (R462, R468). -/
inductive TamperSource where
  | mesh | temperature | vsup | clock | light
  deriving DecidableEq, Repr

/-- Ramps of R170. -/
inductive Ramp where
  | none | dec | decStop
  deriving DecidableEq, Repr

/-- What a master follows: a planned coordinate, a lead leaf (R177) or one axis (R179). -/
inductive MasterKind where
  | planned | leadL | leadR | manual
  deriving DecidableEq, Repr

/-- The classification of an up frame at the cut-off (R207). -/
inductive UpClass where
  | valid | invalid | seqErr | late | absent
  deriving DecidableEq, Repr

/-- Data that the host's memory answers; `none` is a host read failure (R75). -/
abbrev HostRead := Option Bytes

/-- A sparse byte image: unlisted bytes below `len` read as 0 (R482, R143, R184, R180). -/
structure Image where
  len : Nat := 0
  mem : Table Byte := []
  deriving DecidableEq, Repr

/-- One fetched descriptor with what its authorisation and data reads answer (R105, R108). -/
structure Fetched where
  desc : Bytes
  auth : HostRead := none
  data : HostRead := none
  deriving DecidableEq, Repr

/-- A received up frame: its bytes as they came, code violations seen, whether it was late for the cut-off (R204, R207), and
the cycles of SAFE_B's clock from its latest safety tick to the frame (R13, R289). -/
structure UpRx where
  bytes : Bytes
  codeOk : Bool := true
  late : Bool := false
  cyclesB : Nat := 0
  deriving DecidableEq, Repr

/-- What the read-back comparators of one safety output show at a safety tick (R297 to R299). -/
structure PadIn where
  out : Fin 16
  hMv : Nat
  lMv : Nat
  lHigh : Bool
  twinClosed : Bool := false
  deriving DecidableEq, Repr

/-- The role input of an island at a safety tick: the complete low pulses that ended within 0.75 ms, in µs, newest first,
and whether a low period longer than 250 µs has begun since the latest of 40 µs to 250 µs (R358). -/
structure RoleIn where
  pulses : List Nat := []
  longLow : Bool := false
  deriving DecidableEq, Repr

/-- What the read-backs show during a dark test (R298, R300). -/
structure DarkRead where
  waited : Bool          -- both pads energised for 1 ms before the test
  left : Bool            -- the pad (or the current) left its level within 300 µs to 400 µs
  others : List (Fin 16) -- other closed outputs whose pads did not stay energised
  back : Bool            -- the pad (or the current) was back 100 µs after the reclose
  twinHolds : List (Fin 16) := [] -- outputs that the twin holds closed (R300)
  deriving DecidableEq, Repr

/-- What the field die measures at one raw sample (R337, R340, R346, R348). -/
structure RawIn where
  ua : Table Nat := []      -- input currents, µA
  padMv : Table Nat := []   -- output pads, mV
  limit : Table Bool := []  -- channels in current limit
  hot : Table Bool := []    -- switches at their shutdown temperature
  vfMv : Table Nat := []    -- group supplies, mV
  groupMa : Table Nat := [] -- group output currents, mA
  deriving DecidableEq, Repr

/-- The header of a twin message as received (R366); `ok` is the CRC and LEN check. -/
structure TwinHdr where
  lane : Fin 2 := 0
  ok : Bool := true
  unitId : Nat := 0
  role : Role := .none
  unsynced : Bool := false
  mode : Mode := .selftest
  epoch : U16 := 0
  mseq : U32 := 0
  tick : Nat := 0
  deriving DecidableEq, Repr

/-- HELLO payload (R367). -/
structure Hello where
  serial : U64 := 0
  dieRev : U32 := 0
  linkPort : Nat := 0
  step : Nat := 0
  cfgHash : Bytes := []
  progHash : Bytes := []
  dirHash : Bytes := []
  deriving DecidableEq, Repr

/-- One AXIS entry of the input frame (R369). -/
structure InAxis where
  idc : Int := 0
  vdc : Nat := 0
  vdcMin : Nat := 0
  meanI : Nat := 0
  drawn : Nat := 0
  regen : Nat := 0
  temp : Int := 0
  deriving DecidableEq, Repr

/-- One OPS entry of the input frame (R369). -/
structure InOp where
  opcode : Nat
  operands : Bytes
  imgSeq : U32 := 0
  deriving DecidableEq, Repr

/-- A fault reaching the fault manager: code, portal (255 the device), axis, pair or output (R316). -/
structure FaultRec where
  code : Nat
  portal : Nat
  object : Nat
  deriving DecidableEq, Repr

/-- The INPUT message of a tick (R369). -/
structure InputFrame where
  cv : Table (BitVec 128) := []   -- bits 0-47, 104-111, 120, 121 of each channel
  field : Table Nat := []         -- UIO states, coded as in R354
  groups : Table Nat := []
  te : BitVec 12 := 0
  nonvalid : BitVec 36 := 0
  axis : Table InAxis := []
  ops : List InOp := []
  faults : List FaultRec := []
  lockout : Bool := false
  deriving DecidableEq, Repr

/-- A PAGE piece (R367). -/
structure PagePiece where
  page : Nat
  table : Nat
  offset : Nat
  data : Bytes
  last : Bool            -- the piece completes the page
  deriving DecidableEq, Repr

/-- An IMAGE piece (R367): kind 1 configuration, 2 program, 3 directory. Where it completes a directory, `tables` is what
the receiver's reads of the resident tables answer (R185, R379). -/
structure ImagePiece where
  kind : Nat
  channel : Nat
  total : Nat
  offset : Nat
  data : Bytes
  tables : Table Bytes := []
  deriving DecidableEq, Repr

/-- A train-line frame after the PHY (R386). -/
structure TrainFrame where
  dstMac : BitVec 48
  vid : Option Nat       -- the 802.1Q tag, if any
  supported : Bool       -- PHY, IPv4 and UDP layers: uses only features of R386
  udpPd : Bool           -- IPv4 UDP to port 17224
  srcIp : Nat
  dstIp : Nat
  payload : Bytes
  deriving DecidableEq, Repr

/-- Who sends an ARP request or an echo request: the 802.1Q tag of its frame, if any, and its address (R386). -/
structure TrainPeer where
  vid : Option Nat
  ip : Nat
  deriving DecidableEq, Repr

/-- An echo request: the address that it is sent to, and its data (R386). -/
structure EchoData where
  dst : Nat
  data : Bytes
  deriving DecidableEq, Repr

/-- The interval since the valid sample frame before lies outside 250 µs ±2 %, as each island times it (R18). -/
structure OffTimes where
  a : Bool
  b : Bool
  deriving DecidableEq, Repr

/-! ### Pieces of state that a snapshot carries (R372) -/

/-- A channel timer (R142): the tick it is due at, and its expiry bit. -/
structure TimerSt where
  due : Option Nat := none
  exp : Bool := false
  deriving DecidableEq, Repr

/-- A channel counter (R142, R135). -/
structure CounterSt where
  value : Nat := 0
  limit : Nat := 65535
  deriving DecidableEq, Repr

/-- A program action (R146). -/
structure Action where
  op : Nat
  arg8 : Nat
  arg16 : Nat
  a : Nat
  b : Nat
  group : Option (Nat × Nat) := none
  deriving DecidableEq, Repr

/-- One sequencer channel (R129 to R152). -/
structure ChannelSt where
  state : Nat := 0
  first : Bool := true
  timers : Table TimerSt := []
  counters : Table CounterSt := []
  hf : BitVec 16 := 0
  stopReq : Bool := false
  stopAt : Option Nat := none
  quickAt : Option Nat := none
  motion : Nat := 9
  obstacle : Bool := false
  camTable : Option Nat := none
  camPre : Option Nat := none
  camMove : Option Nat := none
  camSlow : Option Nat := none
  camFault : Bool := false
  camRefused : Bool := false
  grant : Bool := false
  grantSlow : Bool := false
  moveDone : Bool := false
  queued : List Action := []
  cv : BitVec 128 := 0
  deriving DecidableEq, Repr

/-- A request to Topaz (R246). -/
structure MoveReq where
  cls : Nat
  table : Nat
  slow : Nat
  entry : Nat
  pset : Nat
  slowOk : Bool := true   -- the slow variant has not been refused (R175)
  manual : Option (Nat × Int × Nat) := none
  execAt : Nat
  age : Option Nat := none
  waited : Nat := 0
  overdue : Bool := false
  gatherDone : Bool := false
  group : Option (Nat × Nat) := none
  slot : Option Nat := none
  decided : Bool := false
  takeAt : Option Nat := none
  deriving DecidableEq, Repr

/-- A grant (R167, R248): the request, the table granted, whether it is GRANT_SLOW, the stretch in 1/256. -/
structure GrantSt where
  req : MoveReq
  table : Nat
  slow : Bool
  k : Nat
  deriving DecidableEq, Repr

/-- A motion segment (R164): number, duration in ns, jerk in 2^-32 master unit per s³. -/
structure Seg where
  no : Nat
  dur : Nat
  jerk : Int
  deriving DecidableEq, Repr

/-- A portal's virtual master (R158 to R179). Positions, velocities, accelerations in 2^-32. -/
structure MasterSt where
  run : Bool := false
  kind : MasterKind := .planned
  table : Nat := 0
  cls : Nat := 3
  entry : Nat := 0
  k : Nat := 256
  v : Nat := 0
  a : Nat := 0
  d : Nat := 0
  j : Nat := 0
  segs : List Seg := []
  tau : Nat := 0
  ms : Int := 0
  vs : Int := 0
  accs : Int := 0
  m : Int := 0
  vel : Int := 0
  acc : Int := 0
  mN : Int := 0
  velN : Int := 0
  mEnd : Int := 0
  m0 : Int := 0
  off : Table Int := []
  braking : Ramp := .none
  stopped : Bool := false
  live : Bool := false
  atEnd : Bool := false
  startTick : Nat := 0
  closeAx : Nat := 0
  manAxis : Nat := 0
  manDir : Int := 1
  manFrom : Int := 0
  slot : Option Nat := none
  waiting : Option MoveReq := none
  granted : Option GrantSt := none
  hold : Nat := 0
  ev : Nat := 0
  deriving DecidableEq, Repr

/-- The fields of a VALID up frame that later steps use (R204). -/
structure UpData where
  iu : Int := 0
  iv : Int := 0
  vdc : Nat := 0
  idc : Int := 0
  enc : U32 := 0
  hall : Nat := 0
  li : Nat := 0
  temp : Int := 0
  status : Nat := 0
  trip : Nat := 0
  hash : Nat := 0
  deriving DecidableEq, Repr

/-- Loop state of one axis (R196 to R220), the part that a snapshot carries. -/
structure AxisSt where
  st : AxisState := .off
  clearSeq : Option Nat := none
  encRef : U32 := 0
  refWait : Bool := false
  referenced : Bool := false
  encZero : U32 := 0
  aligned : Bool := false
  hallOn : Option Nat := none
  seen : Bool := false
  up : UpData := {}
  encL : U32 := 0
  encB : U32 := 0
  intD : Int := 0
  intQ : Int := 0
  intV : Int := 0
  x : Int := 0
  xPrev : Int := 0
  vHist : List Int := []
  p0 : UpData := {}
  p0Iq : Int := 0
  sp : Int := 0
  spN : Int := 0
  vff : Int := 0
  vffN : Int := 0
  hasSp : Bool := false
  satur : Bool := false
  atLim : Nat := 0
  dutyU : Nat := 32768
  dutyV : Nat := 32768
  dutyW : Nat := 32768
  stallCnt : Nat := 0
  stall : Bool := false
  ipCnt : Nat := 0
  inPos : Bool := false
  feCnt : Nat := 0
  iSum : Nat := 0
  eDrawn : Nat := 0
  eRegen : Nat := 0
  vdcMin : Option Nat := none
  deriving DecidableEq, Repr

/-- Obstacle estimator state of one portal (R226 to R242). -/
structure ObstSt where
  force : Bool := false
  stall : Bool := false
  stallDue : Option Nat := none
  drawn : Bool := false
  energy : Bool := false
  blank : Bool := false
  blankTo : Option Nat := none
  limOpen : Option Nat := none
  limClose : Option Nat := none
  forceCnt : Table Nat := []
  energyCnt : Nat := 0
  winOpen : Option Nat := none
  lockAt : Option Nat := none
  drawnCnt : Nat := 0
  liCnt : Table Nat := []
  liCand : Table Bool := []
  liVal : Table Bool := []
  wire : Table Bool := []
  armed : BitVec 2 := 0
  cycles : Nat := 0
  opSlot : Option Nat := none
  learned : Table Nat := []
  discarded : Table Nat := []
  accSum : Table Int := []
  accCnt : Table Nat := []
  lockSum : Nat := 0
  lockCnt : Nat := 0
  mvDir : Option Nat := none
  mvClean : Bool := false
  mvK1 : Bool := false
  mvDone : Bool := false
  mvSum : Table Int := []
  mvCnt : Table Nat := []
  lastF : Table Int := []
  deriving DecidableEq, Repr

/-- Measurements of a door cycle (R410, R411). -/
structure CycleSt where
  begun : Bool := false
  beginTick : Nat := 0
  openTick : Option Nat := none
  closeTick : Option Nat := none
  peakForce : Int := 0
  reversals : Nat := 0
  peakTemp : Int := 0
  energy : Nat := 0
  regen : Nat := 0
  minVdc : Option Nat := none
  flags : BitVec 16 := 0
  lastTick : Nat := 0
  deriving DecidableEq, Repr

/-- Thermal state of one axis (R263, R264). -/
structure ThermSt where
  init : Bool := false
  tm : Int := 0
  warnM : Bool := false
  critM : Bool := false
  warnS : Bool := false
  critS : Bool := false
  deriving DecidableEq, Repr

/-- Topaz (R246 to R267). -/
structure TopazSt where
  committed : Table Nat := []
  lastK : Table Nat := []
  therm : Table ThermSt := []
  heatWarn : BitVec 12 := 0
  heatCrit : BitVec 12 := 0
  iMeas : Int := 0
  overCnt : Nat := 0
  overload : Bool := false
  lowCnt : Table Nat := []
  supplyLow : BitVec 12 := 0
  lastStart : Table Nat := []
  wasOn : BitVec 12 := 0
  closedHolders : List Nat := []
  deriving DecidableEq, Repr

/-- One cache page (R187). -/
structure PageSt where
  state : Nat := 0        -- 0 FREE, 1 LOADING, 2 VALID, 3 resident
  table : Nat := 0
  pinned : Bool := false
  lastUse : Nat := 0
  data : Image := {}
  deriving DecidableEq, Repr

/-- Degraded operation of one portal, in MRAM (R322, R324). -/
structure DegSt where
  on : Bool := false
  cause : Nat := 0
  ms : Nat := 0
  cycles : Nat := 0
  isoReq : Bool := false
  isoMs : Nat := 0
  failed : Bool := false
  deriving DecidableEq, Repr

/-- A lock-out latch record (R318). -/
structure LatchSt where
  set : Bool := false
  cause : Nat := 0
  stamp : U64 := 0
  deriving DecidableEq, Repr

/-- What an island's result crossing last delivered to SEQ (R272). -/
structure IslOut where
  results : BitVec 72 := 0
  faulted : BitVec 72 := 0
  closed : BitVec 16 := 0
  stops : BitVec 12 := 0
  removed : BitVec 12 := 0
  release : BitVec 12 := 0
  loop : BitVec 12 := 0
  moving : BitVec 12 := 0
  latches : BitVec 12 := 0
  dev : Bool := false
  isolated : BitVec 12 := 0
  wskey : Bool := false
  present : Bool := false
  lost : Bool := false
  lockClaim : Bool := false
  deriving DecidableEq, Repr

/-- What an operation ends with (R110). -/
structure DoneSt where
  status : Nat
  detail : Nat := 0
  r0 : Nat := 0
  r1 : Nat := 0
  stamp : U64 := 0
  epoch : U16 := 0
  order : Nat := 0
  deriving DecidableEq, Repr

/-- One operation slot (R95). -/
structure SlotSt where
  flow : Nat := 0
  gen : Nat := 0
  sqIndex : U16 := 0
  fEpoch : Nat := 0
  desc : Bytes := []
  crcBad : Bool := false
  data : HostRead := none
  started : Bool := false
  mask : BitVec 13 := 0
  blocked : BitVec 12 := 0
  ended : Table Nat := []
  reached : BitVec 12 := 0
  visible : Nat := 0
  deadline : Option Nat := none
  done : Option DoneSt := none
  deriving DecidableEq, Repr

/-- An output forced by FIELD_FORCE (R353). -/
structure ForceSt where
  value : Bool
  ticks : Nat
  slot : Nat
  deriving DecidableEq, Repr

/-- The claiming unit's state at a FRAME (R372), in the sections of its layout. -/
structure Snapshot where
  tick : Nat := 0
  now : Nat := 0
  base : Bool := false
  dieRev : U32 := 0
  channels : Table ChannelSt := []
  carFlags : BitVec 8 := 0
  masters : Table MasterSt := []
  axes : Table AxisSt := []
  obst : Table ObstSt := []
  topaz : TopazSt := {}
  latches : Table LatchSt := []
  isolated : BitVec 12 := 0
  degraded : Table DegSt := []
  cycles : Table CycleSt := []
  curves : Table Int := []
  valid : Table Bool := []
  lBase : Table Nat := []
  pages : Table PageSt := []
  forces : Table (Option ForceSt) := []
  carry : Table SlotSt := []
  carSlot : Option Nat := none
  deriving DecidableEq, Repr

end Sys2Proof
end

