-- ==== Sys2Proof/Syntax.lean ====
section
/-! DEFINITION. The commands: one constructor per row of the table of operations and events, with the
operands that the row's rule needs from outside the block. Each docstring names the row's rule. -/

namespace Sys2Proof

/-- A command of the block. -/
inductive Instr where
  -- power, resets and clocks
  /-- R60; `mesh`: the lid mesh tests open or shorted at this power-up (R462). -/
  | porReset (mesh : Bool)
  /-- R68; VHOLD in 10 mV. -/
  | pfail (vhold : Nat)
  /-- R68. -/
  | flushComplete
  /-- R60, R34. -/
  | borReset
  /-- R66. -/
  | pinReset
  /-- R474; the value written. -/
  | sysReset (value : U32)
  /-- R45. -/
  | internalResetRelease
  /-- R46; the failure code of the physical tests or 0, the SRAM rows that fail the march of step 2 as bank × 1 024 + row,
  duration in µs. -/
  | selftestStep (fail : Nat) (rows : List Nat) (us : Nat)
  /-- R47. -/
  | stTimeout
  /-- R34; VHOLD in 10 mV. -/
  | vholdLow (vhold : Nat)
  /-- R67. -/
  | vholdCharged
  /-- R17. -/
  | refclkFail
  /-- R18. -/
  | clockFault (src : ClockSource)
  /-- R18; measured frequency in Hz. -/
  | aonClock (hz : Nat)
  /-- R18. -/
  | fieldFramesMissing (i : Isl)
  /-- R53. -/
  | fieldLinkLost (i : Isl)
  /-- R53. -/
  | mramFault
  /-- R276. -/
  | safeDisagree
  /-- R64. -/
  | aonMsAdvance
  /-- R69; the doorbell word read. -/
  | parkedDoorbellPoll (word : Option U32)
  /-- R343; the WAKE inputs' currents in µA. -/
  | wakeInputSample (ua : Table Nat)
  /-- R343; the frame's CRC is good. -/
  | wakeFrame (crcOk : Bool)
  /-- R69; which line, 1 or 2. -/
  | parkedRoleInChange (second : Bool)
  -- the tick and what it detects
  /-- R130. -/
  | seqTick
  /-- R142. -/
  | timerExpiry (ch : Fin 13) (k : Fin 4)
  /-- R256. -/
  | overdue (p : Fin 12)
  /-- R258. -/
  | gatherExpiry (g : Fin 8)
  /-- R260. -/
  | supplyOver
  /-- R261. -/
  | supplyLow (p : Fin 12)
  /-- R230. -/
  | obstForce (p : Fin 12)
  /-- R232. -/
  | obstEnergy (p : Fin 12)
  /-- R219. -/
  | stall (x : Fin 36)
  /-- R236. -/
  | obstDrawn (p : Fin 12)
  /-- R178. -/
  | inPosition (x : Fin 36)
  /-- R239; direction 0 open, 1 close. -/
  | baselineLearned (p : Fin 12) (close : Bool)
  /-- R240. -/
  | learnAbort (p : Fin 12) (close : Bool)
  /-- R324. -/
  | degradedExpiry (p : Fin 12)
  /-- R324. -/
  | isolateFail (p : Fin 12)
  -- axis links
  /-- R200. -/
  | currentPeriod
  /-- R204. -/
  | upFrame (x : Fin 36) (rx : UpRx)
  /-- R207. -/
  | upFrameCutoff
  /-- R209. -/
  | upLost (x : Fin 36)
  /-- R209. -/
  | hallInvalid (x : Fin 36)
  /-- R209. -/
  | hallEncDisagree (x : Fin 36)
  /-- R209. -/
  | bridgeDrop (x : Fin 36)
  /-- R209. -/
  | following (x : Fin 36)
  -- Sapphire
  /-- R278; the pads and the role input as this island reads them. -/
  | safetyTick (i : Isl) (pads : List PadIn) (role : RoleIn)
  /-- R278. -/
  | pairDisc (i : Isl) (pair : Fin 72)
  /-- R292. -/
  | torqueRemoval (i : Isl) (p : Fin 12)
  /-- R292. -/
  | stopTmax (i : Isl) (p : Fin 12)
  /-- R293. -/
  | overspeed (i : Isl) (x : Fin 36)
  /-- R293. -/
  | speedXchk (x : Fin 36)
  /-- R42. -/
  | workshopKeyReturn
  /-- R298. -/
  | darkTest (i : Isl) (out : Fin 16) (rd : DarkRead)
  /-- R297. -/
  | soLsStuck (out : Fin 16)
  /-- R299. -/
  | soExt (i : Isl) (out : Fin 16)
  /-- R301. -/
  | vsoLow
  /-- R301. -/
  | vsoRecovery
  /-- R301. -/
  | soOverload (i : Isl) (out : Fin 16)
  /-- R326. -/
  | resetStuck (i : Isl)
  /-- R331. -/
  | lockoutResetTimeout (i : Isl)
  /-- R451; words found with one bit in error, words found uncorrectable. -/
  | safeMemScrub (i : Isl) (corrected : List Nat) (bad : List Nat)
  /-- R357. -/
  | roleClaimPulse (i : Isl)
  /-- R358. -/
  | roleLineFault
  -- twins
  /-- R382. -/
  | plannedSwap
  /-- R365. -/
  | twinLinkUp
  /-- R365. -/
  | twinLaneDown (lane : Fin 2)
  /-- R365; nonce 16 B and answer 8 B. -/
  | auth (h : TwinHdr) (nonce answer : Bytes)
  /-- R367. -/
  | hello (h : TwinHdr) (m : Hello)
  /-- R367. -/
  | selftestHello
  /-- R28; t1, t4 of the previous exchange, and the stamp t2 taken on arrival. -/
  | sync (h : TwinHdr) (t1 t4 t2 : Nat)
  /-- R28; t3, and the stamp t4 taken on arrival. -/
  | delay (h : TwinHdr) (t3 t4 : Nat)
  /-- R369; the payload. -/
  | input (h : TwinHdr) (payload : Bytes)
  /-- R368. -/
  | inputLate
  /-- R373. -/
  | snapshot (h : TwinHdr) (m : Snapshot)
  /-- R194. -/
  | page (h : TwinHdr) (m : PagePiece)
  /-- R379. -/
  | image (h : TwinHdr) (m : ImagePiece)
  /-- R378. -/
  | resyncReq (h : TwinHdr)
  /-- R382; the last claimed tick. -/
  | relinquish (h : TwinHdr) (last : Nat)
  /-- R375. -/
  | linkLost
  /-- R375. -/
  | hashDiverge
  /-- R26. -/
  | frame
  -- the field die
  /-- R340. -/
  | rawSample (m : RawIn)
  /-- R349. -/
  | fieldLow (g : Fin 9)
  /-- R350. -/
  | fieldMissing (g : Fin 9)
  /-- R349. -/
  | fieldOk (g : Fin 9)
  /-- R346. -/
  | shortGnd (u : Fin 144)
  /-- R346. -/
  | shortGndClear (u : Fin 144)
  /-- R346. -/
  | extDrive (u : Fin 144)
  /-- R341. -/
  | sampleInstant
  /-- R286. -/
  | stopWord (crcOk : Bool)
  /-- R341; the CRC is good at SAFE_A, at SAFE_B, at the logic die; what each island times. -/
  | sampleFrame (okA okB okL : Bool) (offTime : OffTimes)
  /-- R345. -/
  | commandFrame (crcOk : Bool)
  /-- R351. -/
  | logicSilence
  /-- R352. -/
  | fieldDieReset
  /-- R352. -/
  | fieldDieSupplyLoss
  /-- R352. -/
  | fieldDieRestart
  -- train line
  /-- R396. -/
  | telegramPublish
  /-- R397. -/
  | unitFailedTelegram
  /-- R399. -/
  | trainFrameReceived (port : Fin 2) (f : TrainFrame)
  /-- R400. -/
  | telegramVerify
  /-- R401. -/
  | trainSubTimeout (sub : Fin 48)
  /-- R386; the address asked for, the asker. -/
  | arpRequest (port : Fin 2) (ip : Nat) (asker : TrainPeer)
  /-- R386; the destinations that answered. -/
  | arpRefresh (port : Fin 2) (answers : List Nat)
  /-- R386; the sender, the request. -/
  | icmpEcho (port : Fin 2) (src : TrainPeer) (data : EchoData)
  -- recorder and memory
  /-- R425. -/
  | recordWrite
  /-- R427. -/
  | fifoDrainSuppressed
  /-- R439. -/
  | eccWriteBack (bank : Fin 24) (portB : Bool)
  /-- R448; the row or spare row fails its march. -/
  | opalRegionTest (bad : Bool)
  -- security
  /-- R462. -/
  | tamperDetect (src : TamperSource)
  /-- R455. -/
  | onyxWiped
  /-- R466; after the 10 s, rather than because no portal is in motion. -/
  | tamperLockout (late : Bool)
  -- set-up registers
  /-- R469; byte offset, value, byte enables. -/
  | bar0Write (off : BitVec 16) (value : U32) (be : BitVec 4)
  /-- R473. -/
  | sysLock (value : U32)
  /-- R476; upper half, value. -/
  | hpFlowTableBase (hi : Bool) (value : U32)
  /-- R476. -/
  | hpDbBase (hi : Bool) (value : U32)
  /-- R476. -/
  | hpMirrorBase (hi : Bool) (value : U32)
  /-- R476. -/
  | hpHbAddr (hi : Bool) (value : U32)
  /-- R476. -/
  | cpLibBase (hi : Bool) (value : U32)
  /-- R477. -/
  | hpPollNormal (value : U32)
  /-- R477. -/
  | hpHbTimeout (value : U32)
  /-- R78. -/
  | load (flow : Fin 256)
  /-- R78. -/
  | disable (flow : Fin 256)
  /-- R78; the 64-byte entry and the doorbell word. -/
  | flowEntryRead (flow : Fin 256) (entry : HostRead) (db : Option U32)
  /-- R443. -/
  | bar2Read (off : BitVec 18)
  /-- R443. -/
  | bar2Write (off : BitVec 18) (value : U32) (be : BitVec 4)
  /-- R76. -/
  | pcieLinkEvent (linkDown : Bool)
  /-- R90. -/
  | doorbellPollUrgent
  /-- R90. -/
  | doorbellPollNormal
  /-- R92; the block's 64 bytes. -/
  | doorbellData (block : Fin 16) (data : HostRead)
  /-- R111; the descriptors of the oldest scheduled fetch. -/
  | descriptorFetch (items : Option (List Fetched))
  /-- R85. -/
  | completionWrite
  /-- R103. -/
  | heartbeatRead (word : Option U32)
  /-- R103. -/
  | hostLost
  -- operations, by operation slot
  /-- R115. -/
  | echo (slot : Fin 512)
  /-- R116. -/
  | portalRequest (slot : Fin 512)
  /-- R117. -/
  | portalStop (slot : Fin 512)
  /-- R118. -/
  | carRequest (slot : Fin 512)
  /-- R118. -/
  | setFlags (slot : Fin 512)
  /-- R116. -/
  | requestTimeout (slot : Fin 512)
  /-- R486. -/
  | loadConfig (slot : Fin 512)
  /-- R489. -/
  | loadProgram (slot : Fin 512)
  /-- R185; what reading each resident table answers. -/
  | camDirectory (slot : Fin 512) (tables : Table Bytes)
  /-- R192. -/
  | camPrefetch (slot : Fin 512)
  /-- R192. -/
  | camPin (slot : Fin 512)
  /-- R192. -/
  | camUnpin (slot : Fin 512)
  /-- R190. -/
  | pageIn (data : HostRead)
  /-- R190. -/
  | pageInRetry
  /-- R436. -/
  | journalRead (slot : Fin 512)
  /-- R435. -/
  | statsRead (slot : Fin 512)
  /-- R408. -/
  | timeAnnotate (slot : Fin 512)
  /-- R179. -/
  | manualMove (slot : Fin 512)
  /-- R238. -/
  | learnBaseline (slot : Fin 512)
  /-- R353. -/
  | fieldForce (slot : Fin 512)
  /-- R353. -/
  | forceDurationEnd (u : Fin 144)
  /-- R330. -/
  | lockoutReset (slot : Fin 512)
  /-- R42. -/
  | roleRequest (slot : Fin 512)
  /-- R460. -/
  | keyInstall (slot : Fin 512)
  /-- R457. -/
  | lifecycleAdvance (slot : Fin 512)
  /-- R461. -/
  | certRead (slot : Fin 512)
  /-- R120; the physical verdict of step 6 on line (0 passed). -/
  | selftestRun (slot : Fin 512)
  /-- R120. -/
  | deferredSoftReset
  /-- R115. -/
  | diagRead (slot : Fin 512)
  -- service port
  /-- R58; the frame as received. -/
  | getStatus (frame : Bytes)
  /-- R58. -/
  | getIdent (frame : Bytes)
  /-- R58. -/
  | getSelftest (frame : Bytes)
  /-- R58. -/
  | getEvents (frame : Bytes)
  /-- R58. -/
  | getCycles (frame : Bytes)
  /-- R58. -/
  | getPortal (frame : Bytes)
  /-- R58. -/
  | setRate (frame : Bytes)
  /-- R57, R58; the milliseconds until the bus has been idle for 5 ms, where the next frame does not come before. -/
  | unsolicitedStatus (wait : Option Nat)
  -- the rest
  /-- R75; which read timed out. -/
  | completionTimeout (req : Fin 6) (arg : Nat)
  /-- R76. -/
  | busMasterEnable
  /-- R224. -/
  | receiverLock (x : Fin 36)
  /-- R224. -/
  | receiverLockLoss (x : Fin 36)
  /-- R365. -/
  | twinLaneUp (lane : Fin 2)
  /-- R355. -/
  | helloTimeout
  /-- R58. -/
  | nak (frame : Bytes)
  /-- R470. -/
  | loReadLatch (off : BitVec 16)
  /-- R386. -/
  | phyLinkChange (port : Fin 2) (up duplex : Bool)
  deriving DecidableEq, Repr

end Sys2Proof
end

