-- ==== Sys2Proof/Machine/Table.lean ====
section
/-! DEFINITION. Reading and writing a sparse table, with the laws that every later proof about a table uses:
a table keeps its keys strictly rising and lists no entry equal to its default. -/

namespace Sys2Proof.Machine

/-- The value at key `k`; an unlisted key reads as `d`. -/
def tget {α : Type} (d : α) : Table α → Nat → α
  | [], _ => d
  | (i, v) :: r, k => if i = k then v else tget d r k

/-- List `v` at key `k`, in its place. -/
def tput {α : Type} : Table α → Nat → α → Table α
  | [], k, v => [(k, v)]
  | (i, w) :: r, k, v =>
    if k < i then (k, v) :: (i, w) :: r
    else if k = i then (k, v) :: r
    else (i, w) :: tput r k v

/-- Unlist key `k`. -/
def tdel {α : Type} : Table α → Nat → Table α
  | [], _ => []
  | (i, w) :: r, k => if i = k then tdel r k else (i, w) :: tdel r k

/-- Write `v` at key `k`: a value equal to the default is unlisted. -/
def tset {α : Type} [DecidableEq α] (d : α) (t : Table α) (k : Nat) (v : α) : Table α :=
  if v = d then tdel t k else tput t k v

/-- Update the value at key `k`. -/
def tmod {α : Type} [DecidableEq α] (d : α) (t : Table α) (k : Nat) (f : α → α) : Table α :=
  tset d t k (f (tget d t k))

/-- Keys above `n` only, strictly rising, no default entry. -/
def tokFrom {α : Type} [DecidableEq α] (d : α) : Nat → Table α → Bool
  | _, [] => true
  | n, (i, v) :: r => decide (n ≤ i) && decide (v ≠ d) && tokFrom d (i + 1) r

/-- The canonical form. -/
def tok {α : Type} [DecidableEq α] (d : α) (t : Table α) : Bool := tokFrom d 0 t

/-- The table of `f 0` to `f (n - 1)`. -/
def tmake {α : Type} [DecidableEq α] (d : α) (n : Nat) (f : Nat → α) : Table α :=
  ((List.range n).map fun k => (k, f k)).filter fun e => decide (e.2 ≠ d)

/-- Whether a key is listed with value true. -/
abbrev tbit (t : Table Bool) (k : Nat) : Bool := tget false t k

@[simp] theorem tget_nil {α : Type} (d : α) (k : Nat) : tget d [] k = d := rfl

theorem tget_put {α : Type} (d : α) (t : Table α) (k j : Nat) (v : α) :
    tget d (tput t k v) j = if k = j then v else tget d t j := by
  induction t with
  | nil => simp [tput, tget]
  | cons e r ih =>
    obtain ⟨i, w⟩ := e
    by_cases h1 : k < i
    · simp [tput, h1, tget]
    · by_cases h2 : k = i
      · subst h2
        simp only [tput, Nat.lt_irrefl, if_false, if_true, tget]
        split <;> rfl
      · simp only [tput, h1, h2, if_false, tget, ih]
        by_cases h3 : i = j
        · subst h3; simp [h2]
        · simp [h3]

theorem tget_del {α : Type} (d : α) (t : Table α) (k j : Nat) :
    tget d (tdel t k) j = if k = j then d else tget d t j := by
  induction t with
  | nil => simp [tdel]
  | cons e r ih =>
    obtain ⟨i, w⟩ := e
    by_cases h1 : i = k
    · subst h1
      simp only [tdel, if_true, ih, tget]
      split <;> simp
    · simp only [tdel, h1, if_false, tget, ih]
      by_cases h3 : i = j
      · subst h3; simp [Ne.symm h1]
      · simp [h3]

/-- Read after write, at the same key and at every other. -/
@[simp] theorem tget_tset {α : Type} [DecidableEq α] (d : α) (t : Table α) (k j : Nat) (v : α) :
    tget d (tset d t k v) j = if k = j then v else tget d t j := by
  unfold tset
  split
  · rename_i h; subst h; exact tget_del _ _ _ _
  · exact tget_put _ _ _ _ _

theorem tget_tset_same {α : Type} [DecidableEq α] (d : α) (t : Table α) (k : Nat) (v : α) :
    tget d (tset d t k v) k = v := by simp

theorem tget_tset_other {α : Type} [DecidableEq α] (d : α) (t : Table α) (k j : Nat) (v : α)
    (h : k ≠ j) : tget d (tset d t k v) j = tget d t j := by simp [h]

theorem tokFrom_mono {α : Type} [DecidableEq α] (d : α) (t : Table α) (m n : Nat) (h : m ≤ n)
    (w : tokFrom d n t = true) : tokFrom d m t = true := by
  cases t with
  | nil => rfl
  | cons e r =>
    obtain ⟨i, v⟩ := e
    simp only [tokFrom, Bool.and_eq_true, decide_eq_true_eq] at w ⊢
    exact ⟨⟨Nat.le_trans h w.1.1, w.1.2⟩, w.2⟩

theorem tokFrom_put {α : Type} [DecidableEq α] (d : α) (t : Table α) (n k : Nat) (v : α)
    (hk : n ≤ k) (hv : v ≠ d) (w : tokFrom d n t = true) : tokFrom d n (tput t k v) = true := by
  induction t generalizing n with
  | nil => simp [tput, tokFrom, hk, hv]
  | cons e r ih =>
    obtain ⟨i, x⟩ := e
    simp only [tokFrom, Bool.and_eq_true, decide_eq_true_eq] at w
    by_cases h1 : k < i
    · simp [tput, h1, tokFrom, hk, hv, w.1.2, w.2, Nat.succ_le_of_lt h1]
    · by_cases h2 : k = i
      · subst h2; simp [tput, tokFrom, hk, hv, w.2]
      · have : i + 1 ≤ k := by omega
        simp [tput, h1, h2, tokFrom, w.1.1, w.1.2, ih (i + 1) this w.2]

theorem tokFrom_del {α : Type} [DecidableEq α] (d : α) (t : Table α) (n k : Nat)
    (w : tokFrom d n t = true) : tokFrom d n (tdel t k) = true := by
  induction t generalizing n with
  | nil => rfl
  | cons e r ih =>
    obtain ⟨i, x⟩ := e
    simp only [tokFrom, Bool.and_eq_true, decide_eq_true_eq] at w
    by_cases h1 : i = k
    · subst h1
      simp only [tdel, if_true]
      exact tokFrom_mono d _ n (i + 1) (by omega) (ih (i + 1) w.2)
    · simp [tdel, h1, tokFrom, w.1.1, w.1.2, ih (i + 1) w.2]

/-- A write keeps the canonical form. -/
theorem tok_tset {α : Type} [DecidableEq α] (d : α) (t : Table α) (k : Nat) (v : α)
    (w : tok d t = true) : tok d (tset d t k v) = true := by
  unfold tset
  split
  · exact tokFrom_del d t 0 k w
  · rename_i h; exact tokFrom_put d t 0 k v (Nat.zero_le _) h w

end Sys2Proof.Machine
end

