-- ==== Sys2Proof/Machine/Operands.lean ====
section
/-! DEFINITION. Byte and bit codecs (R2 to R4), sparse images, and small arithmetic that several rules share. -/

namespace Sys2Proof.Machine

/-- Byte `i` of a byte string as a number; past its end, 0. -/
def byteAt (b : Bytes) (i : Nat) : Nat := (b.getD i 0).toNat

/-- Little-endian number of a byte string (R2). -/
def leNat : Bytes → Nat
  | [] => 0
  | x :: r => x.toNat + 256 * leNat r

/-- Big-endian number of a byte string (R2, first exception). -/
def beNat (b : Bytes) : Nat := leNat b.reverse

/-- `n` little-endian bytes of a number. -/
def toLe (n v : Nat) : Bytes :=
  match n with
  | 0 => []
  | m + 1 => BitVec.ofNat 8 v :: toLe m (v / 256)

/-- `n` big-endian bytes of a number. -/
def toBe (n v : Nat) : Bytes := (toLe n v).reverse

/-- `n` bytes of a byte string from offset `o`; bytes past its end are 0. -/
def slice (b : Bytes) (o n : Nat) : Bytes :=
  let s := (b.drop o).take n
  s ++ List.replicate (n - s.length) 0

/-- `n`-byte little-endian field at offset `o`. -/
def field (b : Bytes) (o n : Nat) : Nat := leNat (slice b o n)

/-- `n` bytes with their first ones given. -/
def padTo (n : Nat) (b : Bytes) : Bytes := slice b 0 n

/-- Two's complement of an `n`-bit number (R4). -/
def signed (n v : Nat) : Int := if v % 2 ^ n < 2 ^ (n - 1) then (v % 2 ^ n : Nat) else (v % 2 ^ n : Nat) - (2 ^ n : Nat)

/-- Two's complement of an integer in `n` bits (R4). -/
def unsigned (n : Nat) (i : Int) : Nat := (i % (2 ^ n : Nat)).toNat

/-- Bits [hi:lo] of a number (R3). -/
def bitsOf (v hi lo : Nat) : Nat := v / 2 ^ lo % 2 ^ (hi + 1 - lo)

/-- Bit `k` of a number (R3). -/
def bitOf (v k : Nat) : Bool := v.testBit k

/-- 1 or 0 (R6). -/
def b2n (b : Bool) : Nat := if b then 1 else 0

/-- A bit set placed in a vector. -/
def setBit {n : Nat} (v : BitVec n) (k : Nat) (b : Bool) : BitVec n :=
  if b then v ||| BitVec.ofNat n (2 ^ k) else v &&& ~~~ BitVec.ofNat n (2 ^ k)

/-- The vector with bit `k` equal to `f k`, for `k` below `n`. -/
def bitsBy (n : Nat) (f : Nat → Bool) : BitVec n :=
  BitVec.ofNat n ((List.range n).foldl (fun a k => a + b2n (f k) * 2 ^ k) 0)

/-- The number whose bit `k` is `f k`, for `k` below `n`. -/
def natBy (n : Nat) (f : Nat → Bool) : Nat :=
  (List.range n).foldl (fun a k => a + b2n (f k) * 2 ^ k) 0

/-- Saturating addition. -/
def satAdd (max a b : Nat) : Nat := min max (a + b)

/-- A number held inside a range. -/
def clampI (lo hi x : Int) : Int := max lo (min hi x)

/-- Rounding to the nearest, ties away from zero, of `a / b` with `b` positive. -/
def roundDiv (a : Int) (b : Nat) : Int :=
  if a < 0 then -(((-a) * 2 + b) / (2 * b)) else (a * 2 + b) / (2 * b)

/-- A 64-bit intermediate (R220, R263): a value beyond its range is left open (log 5). -/
def fit64 (i : Int) : Int := if -(2 ^ 63) ≤ i && i < 2 ^ 63 then i else (Config.beyond64 i).toInt

/-- Largest `r` with `r² ≤ n`, by bisection on the bits below `2^k`. -/
def isqrtAux (n : Nat) : Nat → Nat → Nat
  | 0, r => r
  | k + 1, r => if (r + 2 ^ k) ^ 2 ≤ n then isqrtAux n k (r + 2 ^ k) else isqrtAux n k r

/-- Integer square root. -/
def isqrt (n : Nat) : Nat := isqrtAux n (n.log2 / 2 + 1) 0

/-- Keys strictly rising from a start, dense bytes of a sparse table. -/
def denseFrom : Table Byte → Nat → Nat → Bytes
  | _, _, 0 => []
  | [], o, n + 1 => 0 :: denseFrom [] (o + 1) n
  | (k, v) :: r, o, n + 1 =>
    if k = o then v :: denseFrom r (o + 1) n else 0 :: denseFrom ((k, v) :: r) (o + 1) n

/-- `n` bytes of an image from offset `o`. -/
def imgSlice (m : Image) (o n : Nat) : Bytes := denseFrom (m.mem.dropWhile (·.1 < o)) o n

/-- All bytes of an image. -/
def imgBytes (m : Image) : Bytes := imgSlice m 0 m.len

/-- Little-endian field of `n` bytes at offset `o` of an image; unlisted bytes read as 0. -/
def imgN (m : Image) (o n : Nat) : Nat := leNat (imgSlice m o n)

/-- Byte of an image. -/
def img8 (m : Image) (o : Nat) : Nat := (tget 0 m.mem o).toNat
/-- 16-bit field of an image. -/
def img16 (m : Image) (o : Nat) : Nat := img8 m o + 256 * img8 m (o + 1)
/-- 32-bit field of an image. -/
def img32 (m : Image) (o : Nat) : Nat := img16 m o + 65536 * img16 m (o + 2)
/-- Signed byte of an image. -/
def imgI8 (m : Image) (o : Nat) : Int := signed 8 (img8 m o)
/-- Signed 16-bit field of an image. -/
def imgI16 (m : Image) (o : Nat) : Int := signed 16 (img16 m o)
/-- Signed 32-bit field of an image. -/
def imgI32 (m : Image) (o : Nat) : Int := signed 32 (img32 m o)

/-- Sparse entries of a byte string from a start address. -/
def sparseFrom : Nat → Bytes → Table Byte
  | _, [] => []
  | o, x :: r => if x = 0 then sparseFrom (o + 1) r else (o, x) :: sparseFrom (o + 1) r

/-- The image of a byte string. -/
def imgOf (b : Bytes) : Image := { len := b.length, mem := sparseFrom 0 b }

/-- A part of an image as an image of its own (a configuration section, R484). -/
def imgPart (m : Image) (o n : Nat) : Image := imgOf (imgSlice m o n)

/-- Every byte of a range is 0 (a reserved field, R5). -/
def imgZero (m : Image) (o n : Nat) : Bool := m.mem.all fun e => decide (e.1 < o) || decide (o + n ≤ e.1)

/-- Every byte of a list is 0. -/
def allZero (b : Bytes) : Bool := b.all (· == 0)

theorem toLe_length (n v : Nat) : (toLe n v).length = n := by
  induction n generalizing v with
  | zero => rfl
  | succ m ih => simp [toLe, ih]

theorem leNat_toLe (n v : Nat) : leNat (toLe n v) = v % 256 ^ n := by
  induction n generalizing v with
  | zero => simp [toLe, leNat, Nat.mod_one]
  | succ m ih =>
    have h := Nat.mod_mul (a := 256) (b := 256 ^ m) (x := v)
    simp only [toLe, leNat, ih, BitVec.toNat_ofNat]
    rw [Nat.mul_comm 256 (256 ^ m), ← Nat.pow_succ] at h
    rw [h]

end Sys2Proof.Machine
end

