-- ==== Sys2Proof/Machine/State.lean ====
section
/-! DEFINITION. The state of one JD-3612, everything the spec gives it, in groups that are updated apart:
the fuses, Onyx, the recorder's stores, the field die, the two Sapphire islands and the rest of the logic
die (`Core`). The docstring of a field reads: width or type | rule | reset value. -/

namespace Sys2Proof.Machine

/-- Why a command has no meaning. -/
inductive Refusal where
  /-- Raised by an arm of `exec` for a row that has no meaning yet; safe. No arm raises it now. -/
  | notModelled (mnemonic : String)
  deriving DecidableEq, Repr

/-- Why the machine stops. -/
inductive Fault where
  /-- Raised by no meaning: every command completes, also on operands that `WellFormed` excludes. Kept so that a
  stop would have a name; safe. -/
  | illFormed
  deriving DecidableEq, Repr

/-- A detection whose condition has been met and whose step has not been taken (log 3). -/
inductive Due where
  | timer (ch k : Nat)
  | overdue (p : Nat)
  | gather (p : Nat)
  | supplyOver (i : Int)
  | supplyLow (p : Nat)
  | force (p x : Nat) (excess : Int)
  | energy (p : Nat) (mj : Int)
  | drawn (p : Nat) (x : Nat) (ms : Nat)
  | stall (x : Nat)
  | inPos (x : Nat)
  | baseline (p : Nat) (close : Bool)
  | learnAbort (p : Nat) (close : Bool)
  | degraded (p : Nat)
  | isolateFail (p : Nat)
  | axisFault (code x : Nat)
  | requestTimeout (slot : Nat)
  | forceEnd (u : Nat)
  | hostLost
  | subTimeout (sub : Nat)
  | hashDiverge
  deriving DecidableEq, Repr

/-- A detection of an island, not yet taken (log 3). -/
inductive IslDue where
  | pairDisc (pair : Nat)
  | torque (p : Nat)
  | tmax (p : Nat)
  | overspeed (x : Nat)
  | xchk (x : Nat)
  | lsStuck (out : Nat)
  | ext (out : Nat)
  | resetStuck
  | lockoutTimeout
  | framesMissing
  | linkLost
  | disagree
  deriving DecidableEq, Repr

/-- A detection of the field die, not yet taken (log 3). -/
inductive DieDue where
  | low (g : Nat)
  | missing (g : Nat)
  | ok (g : Nat)
  | shortGnd (u : Nat)
  | clear (u : Nat)
  | ext (u : Nat)
  | silence
  deriving DecidableEq, Repr

/-- What the block has sent out of itself. -/
inductive Output where
  | hostWrite (addr : Nat) (bytes : Bytes)
  | hostRead (addr len : Nat)
  | bar (value : U32)
  /-- Request Retry Status to a BAR0 read (R51). -/
  | barRetry
  | downFrame (axis : Nat) (payload : Bytes)
  | idle (axis : Nat)
  | rolePulse (line us : Nat)
  | twinBytes (type : Nat) (message : Bytes)
  | twinSnapshot (header : Bytes) (m : Snapshot)
  /-- Frames of the train line carry the VID of their port, 0 for untagged (R386). -/
  | telegram (port vid comId dest pcp : Nat) (payload : Bytes)
  | arp (port vid ip : Nat)
  | echoReply (port vid dest : Nat) (data : Bytes)
  | service (frame : Bytes)
  deriving DecidableEq, Repr

/-! ### Groups outside the core -/

/-- One-time-programmable fuses (R454). -/
structure Fuses where
  /-- 1 bit | R456 | 0 (R508) -/
  fused : Bool := false
  /-- 32 B | R456 | empty, reads as 0 (R461) -/
  hash : Bytes := []
  deriving DecidableEq, Repr

/-- Onyx, the secure key bank (R454, R455). A key that is the empty list is an all-zero slot. -/
structure OnyxSt where
  /-- 32 B | R454 | empty (R508) -/
  identity : Bytes := []
  /-- 16 × 32 B | R454, R460 | empty (R508) -/
  train : Table Bytes := []
  /-- 32 B | R454, R460 | empty (R508) -/
  twin : Bytes := []
  /-- marker | R455 | clear (R508) -/
  wipePending : Bool := false
  /-- cause of the wipe in progress | R468 | 0 -/
  wipeCause : Nat := 0
  deriving DecidableEq, Repr

/-- The recorder's stores in MRAM and their write indices (R404 to R418). -/
structure Stores where
  /-- 2^27 slots of 32 B | R404 | every slot 0xFF (R406) -/
  journal : Table Bytes := []
  /-- 2^24 slots of 32 B | R404 | every slot 0xFF (R406) -/
  events : Table Bytes := []
  /-- 32 768 units of 32 B | R404 | every unit 0xFF (R406) -/
  checks : Table Bytes := []
  /-- slot index | R405 | 0 (R508) -/
  wJ : Nat := 0
  /-- slot index | R405 | 0 (R508) -/
  wE : Nat := 0
  /-- unit index | R405 | 0 (R508) -/
  wC : Nat := 0
  /-- committed copies of wJ, wE, wC | R429 | 0 -/
  committed : Nat × Nat × Nat := (0, 0, 0)
  /-- the older of the two alternating copies | R429 | 0 -/
  older : Nat × Nat × Nat := (0, 0, 0)
  /-- count of the newer copy | R429 | 0 -/
  commits : Nat := 0
  /-- 24 B, the chain before the next block; empty stands for C_-1 | R417 | empty -/
  chainJ : Bytes := []
  /-- 24 B | R417 | empty -/
  chainE : Bytes := []
  /-- a reset has occurred since the block's first record | R416 | false -/
  rstJ : Bool := false
  /-- as rstJ | R416 | false -/
  rstE : Bool := false
  deriving DecidableEq, Repr

/-- One input of the field die (R340). -/
structure InputSt where
  lastRaw : Nat := 0
  cand : Option Nat := none
  n : Nat := 0
  filt : Option Nat := none
  deriving DecidableEq, Repr

/-- One output set of the field die, by its first channel (R344 to R346). -/
structure OutSt where
  live : Bool := false   -- a command frame with RUN 1 has come since its entry was loaded (R336, R352)
  on : Bool := false
  offFor : Nat := 0
  limCnt : Nat := 0
  short : Bool := false
  shortFor : Nat := 0
  extCnt : Nat := 0
  extClr : Nat := 0
  ext : Bool := false
  pad : Bool := false
  deriving DecidableEq, Repr

/-- One supply group of the field die (R348, R349). -/
structure GroupSt where
  state : GroupState := .notUsed
  sup : Bool := false
  cLow : Nat := 0
  cMiss : Nat := 0
  cOk : Nat := 0
  vf : Nat := 0
  ma : Nat := 0
  above : Nat := 0
  deriving DecidableEq, Repr

/-- A stop word or sample frame as the die sends it (R341). -/
structure DieFrame where
  seq : Nat := 0
  configured : Bool := false
  states : Table Nat := []
  groups : Table Nat := []
  back : Table Nat := []
  deriving DecidableEq, Repr

/-- The field die (R334 to R352). -/
structure DieSt where
  /-- reset input asserted | R352 | asserted (POR drives it, R352) -/
  held : Bool := true
  /-- no group supply above 12.0 V | R352 | false -/
  noSupply : Bool := false
  /-- loaded field section and the STOP and EGRESS contacts | R336, R341 | none (R352) -/
  section_ : Option Image := none
  /-- contacts of the stop word, in order | R341 | none -/
  stopList : List Nat := []
  /-- 144 inputs | R340 | no filtered value (R340, R352) -/
  inputs : Table InputSt := []
  /-- output sets | R344 | off (R352) -/
  outs : Table OutSt := []
  /-- 9 groups | R348 | not supervised (R348) -/
  groups : Table GroupSt := []
  /-- 1 bit | R345 | 0 (DESIGN CHOICE, log 2) -/
  run : Bool := false
  /-- command image, 144 bits | R345 | 0 (R345 row 5) -/
  image : BitVec 144 := 0
  /-- the command frame on its way | R345 | none -/
  cmd : Option (Bool × BitVec 144) := none
  /-- raw samples since the last valid command frame | R351 | 0 -/
  silence : Nat := 0
  /-- row 2 of R345 in force | R351 | true (off until RUN 1, R352) -/
  silent : Bool := true
  /-- the timeout has passed since the last valid command frame, or none has come | R351, R354 | true (no frame yet) -/
  expired : Bool := true
  /-- PARKED sampling | R343 | false -/
  parked : Bool := false
  /-- previous 20 ms sample of each WAKE input | R343 | 0 -/
  wakePrev : Table Nat := []
  /-- the wake frame on its way | R343 | none -/
  wake : Option (List Nat) := none
  /-- sample instants since the restart | R341 | 0 -/
  instants : Nat := 0
  /-- 8-bit sequence count | R341 | 0 (DESIGN CHOICE, log 2) -/
  seq : Nat := 0
  /-- the stop word on its way | R341 | none -/
  stopW : Option DieFrame := none
  /-- the sample frame on its way | R341 | none -/
  sampleF : Option DieFrame := none
  /-- command frames discarded, 32 bits | R354 | 0 -/
  badCmd : U32 := 0
  /-- logic-silence timeouts, 32 bits | R354 | 0 -/
  silences : U32 := 0
  /-- detections not yet taken (model) | log 3 | none -/
  due : List DieDue := []
  deriving DecidableEq, Repr

/-- A safety pair in an island (R278). -/
structure PairSt where
  st : PairState := .unsafeSt
  n : Nat := 0
  deriving DecidableEq, Repr

/-- A controlled safe stop in an island (R288 to R292). -/
structure StopSt where
  active : Bool := false
  startTick : Nat := 0
  envTick : Nat := 0
  restarted : Bool := false
  v0 : Table Nat := []
  removed : Bool := false
  cause : Nat := 0
  deriving DecidableEq, Repr

/-- An axis as an island's own deframer sees it (R211, R289). -/
structure SpeedSt where
  frames : List (Nat × U32) := []   -- (sequence count unwrapped, ENC), newest first
  status : Nat := 0                 -- STATUS of the latest valid frame
  hall : Option Nat := none
  tLast : Option Nat := none        -- the last two Hall transitions, in cycles of the island's clock
  tPrev : Option Nat := none
  missed : Nat := 3
  got : Bool := false
  speed : Option Nat := none
  had : Bool := false
  above : Nat := 0
  deriving DecidableEq, Repr

/-- A press of the reset button in an island (R326, R327). -/
structure PressSt where
  safeFor : Nat := 0
  tick : Option Nat := none
  okStart : Bool := false
  sawUnsafe : Bool := false
  faulted : Bool := false
  stuck : Bool := false
  verdict : Option (Nat × Bool × Bool) := none   -- release tick, valid, workshop key active
  acted : Bool := false
  deriving DecidableEq, Repr

/-- The cross-check word (R274), the parts that R275 adopts or R276 compares. -/
structure XWord where
  results : BitVec 72 := 0
  faults : BitVec 72 := 0
  close : BitVec 16 := 0
  stops : BitVec 12 := 0
  removed : BitVec 12 := 0
  causes : Table Nat := []
  outFaults : Table Nat := []
  breach : BitVec 12 := 0
  overspd : BitVec 12 := 0
  dev : Bool := false
  latches : BitVec 12 := 0
  isolated : BitVec 12 := 0
  copies : Table LatchSt := []
  devCopy : LatchSt := {}
  deriving DecidableEq, Repr

/-- One Sapphire island (R271 to R302, R326 to R331, R357, R358, R451). -/
structure IslSt where
  /-- safety ticks of the island's own clock | R13 | 0 -/
  tick : Nat := 0
  /-- time base as the island last read it, to stamp its latches | R13, R25, R318 | 0 -/
  now : U64 := 0
  /-- safety section read in step 5 | R273 | none (R273) -/
  params : Option Image := none
  /-- latest sample frame and the ticks since | R277 | none -/
  frame : Option DieFrame := none
  /-- a frame arrived since the last tick | R18 | false -/
  fresh : Bool := false
  /-- consecutive safety ticks without a valid frame | R18 | 0 -/
  noFrame : Nat := 0
  /-- consecutive sample intervals out of ±2 % | R18 | 0 -/
  offTime : Nat := 0
  /-- every pair evaluates unsafe, switches open | R18 | false -/
  blind : Bool := false
  /-- a hold-up flush or RST_N holds every switch open | R66, R68 | false -/
  heldOpen : Bool := false
  /-- 72 pairs | R278 | unsafe (R278) -/
  pairs : Table PairSt := []
  /-- results of the pairs at the latest safety tick | R278, R285 | 0 (R278) -/
  lastRes : BitVec 72 := 0
  /-- stops of 12 portals | R288 | none -/
  stops : Table StopSt := []
  /-- portals whose torque an overspeed removed | R293, R296 | 0 -/
  overspd : BitVec 12 := 0
  /-- portals with an envelope breach | R290 | 0 -/
  breach : BitVec 12 := 0
  /-- 36 axes | R289 | no speed (R289) -/
  axes : Table SpeedSt := []
  /-- links on which the unit transmits, from SEQ | R289 | none -/
  txOn : BitVec 36 := 0
  /-- safety ticks for which every monitored axis of a portal has been below V_ZERO | R292 | 0 -/
  slow : Table Nat := []
  /-- speed cross-check counts | R293 | 0 -/
  xchk : Table Nat := []
  /-- own switches closed, 16 | R296 | open (R51, R64) -/
  closed : BitVec 16 := 0
  /-- high side waiting for its low side, closing tick + 1 | R297 | none -/
  closing : Table Nat := []
  /-- latched output faults, codes of R317 | R296, R302 | none -/
  outFault : Table Nat := []
  /-- pads above 16 V with both switches open | R299 | 0 -/
  extCnt : Table Nat := []
  /-- VSO low | R301 | false -/
  vsoLow : Bool := false
  /-- dark tests done in the cycle | R298 | 0 -/
  dark : Table Nat := []
  /-- outputs whose dark test is due in the running cycle | R298 | 0 -/
  darkDue : BitVec 16 := 0
  /-- private MRAM: device latch copy | R271, R318 | clear (R508), kept (R64) -/
  dev : LatchSt := {}
  /-- private MRAM: portal latch copies | R271, R318 | clear (R508), kept (R64) -/
  latches : Table LatchSt := []
  /-- private MRAM: ISOLATED copies | R319 | 0 (R508), kept (R64) -/
  isolated : BitVec 12 := 0
  /-- reset button | R326 | never released (R326) -/
  press : PressSt := {}
  /-- clear masks of LOCKOUT_RESET and the tick they came | R330, R331 | none -/
  clear : Option (BitVec 12 × BitVec 12 × Nat) := none
  /-- motion code of each portal from SEQ | R272 | 0 (DESIGN CHOICE, log 2) -/
  motion : Table Nat := []
  /-- portals with every axis OFF, from SEQ | R272 | all (every axis is OFF after reset, R196) -/
  axesOff : BitVec 12 := 0xFFF
  /-- the LOCKOUT entry has arrived | R288, R319 | false -/
  lockout : Bool := false
  /-- the device latch that the LOCKOUT entry carries | R272, R319 | clear -/
  inDev : LatchSt := {}
  /-- SAFE_STOP actions waiting for the next safety tick | R272 | 0 -/
  inStop : BitVec 12 := 0
  /-- DEC_STOP switch points waiting for the next safety tick | R272 | 0 -/
  inSwitch : BitVec 12 := 0
  /-- portal latches set by the fault manager, waiting | R319 | 0 -/
  inLatch : BitVec 12 := 0
  /-- the records of those latches | R318, R319 | none -/
  inCopy : Table LatchSt := []
  /-- ISOLATED flags set, waiting | R319 | 0 -/
  inIso : BitVec 12 := 0
  /-- portals on which a MANUAL_MOVE runs, from SEQ | R288 | 0 -/
  manual : BitVec 12 := 0
  /-- mode as last received | R296 | SELFTEST -/
  mode : Mode := .selftest
  /-- close requests of the 16 switches | R274 | 0 (R51) -/
  request : BitVec 16 := 0
  /-- own cross-check word of the tick before | R276 | none -/
  word : XWord := {}
  /-- the other island's word as last taken | R275 | none -/
  seen : XWord := {}
  /-- items that disagreed in the latest comparison, by number | R276 | none -/
  disagree : List Nat := []
  /-- stops sending cross-check words | R451 | false -/
  mute : Bool := false
  /-- the role line is present | R358 | false -/
  present : Bool := false
  /-- role line: ticks claiming, ticks not | R358 | 0 -/
  claimFor : Nat := 0
  /-- as claimFor | R358 | 0 -/
  lostFor : Nat := 0
  /-- the latest pulse was a lock-out claim | R358 | false -/
  lockClaim : Bool := false
  /-- corrected and uncorrectable reads of the private memory, last word | R453 | 0 -/
  memCorr : U32 := 0
  /-- as memCorr | R453 | 0 -/
  memBad : U32 := 0
  /-- word index of the last corrected read | R453 | 0 -/
  memLast : U32 := 0
  /-- ticks since the last crossing from SEQ | R357 | 0 -/
  seqAge : Nat := 0
  /-- detections not yet taken (model) | log 3 | none -/
  due : List IslDue := []
  deriving DecidableEq, Repr

/-! ### Groups of the core -/

/-- A running hold-up flush (R68): the reset that follows, or the entry into PARKED. -/
structure FlushSt where
  kind : ResetKind
  toParked : Bool := false
  deriving DecidableEq, Repr

/-- Modes, self-test, resets, service port (R35 to R70). -/
structure SysSt where
  /-- mode | R35 | SELFTEST (R472) -/
  mode : Mode := .selftest
  /-- held in reset until the internal reset release | R45 | true -/
  inReset : Bool := true
  /-- cause of the last entry into SAFE_TALK or LOCKOUT, 8 bits | R37 | 0 (R472) -/
  cause : Nat := 0
  /-- kind of the last reset | R60 | POR -/
  resetKind : ResetKind := .por
  /-- code of the mode before the last reset, 0 at the first power-up | R36 | 0 (log 8) -/
  oldMode : Nat := 0
  /-- running hold-up flush | R68 | none -/
  flush : Option FlushSt := none
  /-- transmission stopped by a flush | R66, R68 | false -/
  txOff : Bool := false
  /-- VHOLD-charged flag | R67 | 0 (R67) -/
  vholdCharged : Bool := false
  /-- PLLs run from FBOSC | R17 | false -/
  fbosc : Bool := false
  /-- self-test step in progress, 0 none | R46 | 0 -/
  stStep : Nat := 0
  /-- per step: result, code, ms | R48 | 0, not run (R48) -/
  stRes : Table (Nat × Nat × Nat) := []
  /-- last step passed | R48, R472 | 0 (R472) -/
  stLast : Nat := 0
  /-- FAIL_CODE | R472 | 0 (R472) -/
  stFail : Nat := 0
  /-- rows repaired in step 2 | R48 | 0 -/
  stRows : Nat := 0
  /-- duration in ms of the last completed self-test | R48, R472 | 0 (R472) -/
  stDur : Nat := 0
  /-- microseconds of the self-test so far | R48 | 0 -/
  stUs : Nat := 0
  /-- less than 25 ms may have passed since the internal reset release | R51, R469 | false -/
  early : Bool := false
  /-- stamp at the end of the self-test | R48 | 0 -/
  stStamp : U64 := 0
  /-- stamp of the latest on-line run | R48 | 0 (R48) -/
  stOnline : U64 := 0
  /-- check code recorded with ST_PROG_STRUCT | R154 | 0 -/
  stCheck : Nat := 0
  /-- this self-test follows PARKED | R49 | false -/
  scrub : Bool := false
  /-- a SOFT reset is due 10 ms after a completion | R120 | false -/
  deferred : Bool := false
  /-- HOST_LOST | R103, R104 | 1 (R472) -/
  hostLost : Bool := true
  /-- tamper alarm pending | R464 | 0 -/
  tamperAlarm : Bool := false
  /-- an erase has been detected and LOCKOUT not yet entered | R466 | false -/
  erased : Bool := false
  /-- ticks since that erase | R466 | 0 -/
  eraseAge : Nat := 0
  /-- ONYX_WIPED records still to write, their causes | R455 | none -/
  wipedRec : List Nat := []
  /-- device fault that leads to LOCKOUT at this tick | R38, R40 | none -/
  wantLockout : Option Nat := none
  /-- the workshop key was released | R42 | false -/
  wsRelease : Bool := false
  /-- service rate code | R55 | 0, 115 200 bit/s (R55) -/
  svcRate : Nat := 0
  /-- SEQ of unsolicited frames | R56 | 0 (R56) -/
  svcSeq : Nat := 0
  /-- an unsolicited frame waits for the bus: milliseconds until it may leave | R57 | none -/
  svcWait : Option Nat := none
  /-- low half of the flow 0 doorbell word at entry into PARKED, if known | R69 | none -/
  parkDb : Option Nat := none
  /-- commanded states at entry into PARKED | R64, R69, R345 | 0 -/
  parkImage : BitVec 144 := 0
  /-- a wake event while the flush of the entry into PARKED runs | R69, R70 | false -/
  wake : Bool := false
  deriving DecidableEq, Repr

/-- An island's reader of the time base (R25): the upper part [63:19] that it holds, its latest sample of [18:3]. -/
structure ReaderSt where
  upper : Nat := 0
  low : Nat := 0
  deriving DecidableEq, Repr

/-- The time base (R24 to R31). -/
structure TbSt where
  /-- the count runs | R24 | false -/
  running : Bool := false
  /-- 64 bits, ns | R24 | 0 (R24) -/
  count : U64 := 0
  /-- the readers of the 14 islands, in the order of R11 | R25 | not enabled: 0 (R25, DESIGN CHOICE, log 2) -/
  readers : Table ReaderSt := []
  /-- index of the next TICK | R26 | 0 -/
  tick : Nat := 0
  /-- index of the next CP strobe, 4N + k | R26, R199 | 0 -/
  cp : Nat := 0
  /-- index of the next FRAME | R26 | 0 -/
  frame : Nat := 0
  /-- the last 8 offsets, newest first | R28 | none -/
  offs : List Int := []
  /-- averaged offset | R28 | 0 -/
  avg : Int := 0
  /-- consecutive exchanges over 20 ns | R31 | 0 -/
  drift : Nat := 0
  /-- direction of the slewing | R29 | 0 -/
  slew : Int := 0
  /-- t1 and t2 of the exchange in progress | R28 | none -/
  t12 : Option (Nat × Nat) := none
  /-- t3 of the last reply | R28 | 0 -/
  t3 : Nat := 0
  /-- t4 that the active will return, 0 without one | R28 | 0 -/
  t4 : Nat := 0
  deriving DecidableEq, Repr

/-- What MRAM keeps in its configuration and statistics areas (R64, R404). -/
structure NvSt where
  /-- life-cycle state | R457 | BLANK (R508) -/
  lc : LifeCycle := .blank
  /-- device lock-out latch | R318 | clear (R508) -/
  dev : LatchSt := {}
  /-- portal lock-out latches | R318 | clear (R508) -/
  latches : Table LatchSt := []
  /-- ISOLATED flags | R325 | 0 (R508) -/
  isolated : BitVec 12 := 0
  /-- degraded counts and causes | R322 | none (DESIGN CHOICE, log 2) -/
  degraded : Table DegSt := []
  /-- reference curves, at portal × 1536 + direction × 768 + axis × 256 + bin | R237 | 0 (log 2) -/
  curveR : Table Int := []
  /-- adapted curves | R237 | 0 (log 2) -/
  curveB : Table Int := []
  /-- VALID of portal × 2 + direction | R237 | 0 (log 2) -/
  valid : Table Bool := []
  /-- cycles learned, as valid | R237 | 0 (log 2) -/
  learned : Table Nat := []
  /-- learned lock time L_BASE + 1 in ms, 0 invalid | R237, R239 | 0 (log 2) -/
  lBase : Table Nat := []
  /-- 42 bits | R407 | 0 (R508) -/
  opMs : Nat := 0
  /-- 22 bits | R64, R407 | 0 at manufacture, 1 after the first POR (R64, R508) -/
  cycles : Nat := 0
  /-- last role epoch, 16 bits | R363 | 0 (R508) -/
  epoch : U16 := 0
  /-- last accepted authorisation count | R109 | 0 (R109) -/
  auth : U32 := 0
  /-- stored configuration image | R481 | none (R508) -/
  cfg : Option Image := none
  /-- stored programs | R489 | none (R508) -/
  progs : Table Image := []
  /-- stored library directory | R185 | none (R508) -/
  dir : Option Image := none
  /-- stored resident tables | R185, R186 | none (R508) -/
  resident : Table Image := []
  /-- service address | R57 | 0x01 (R57) -/
  svcAddr : Nat := 1
  /-- authority keys 0 to 3, 64 B | R454 | empty (R508) -/
  authKeys : Table Bytes := []
  /-- identity certificate | R454 | none (R508) -/
  cert : Bytes := []
  /-- identity public key, 64 B | R454 | none (R508) -/
  pub : Bytes := []
  /-- latest annotation: UTC, operating ms | R408 | none (R408) -/
  annot : Option (Nat × Nat) := none
  /-- repair maps, spare row + 1 at bank × 1024 + row | R449 | none (DESIGN CHOICE, log 2) -/
  repair : Table Nat := []
  /-- spare rows marked unusable at bank × 8 + spare | R449 | none (log 2) -/
  spareBad : Table Bool := []
  /-- statistics words at portal × 1280 + word | R433, R434 | R434 -/
  stats : Table Nat := []
  /-- R379: images were sent to the standby since its reset | R379 | false -/
  hadImages : Bool := false
  deriving DecidableEq, Repr

/-- A record in the staging FIFO (R425). -/
structure Staged where
  cycle : Bool
  sev : Nat
  code : Nat
  bytes : Bytes
  slot : Option Nat := none
  deriving DecidableEq, Repr

/-- A count of suppressed records with the first and last operating ms (R415, R422). -/
structure SupprSt where
  count : Nat := 0
  firstMs : Nat := 0
  lastMs : Nat := 0
  deriving DecidableEq, Repr

/-- The recorder before its stores (R420 to R427, R435). -/
structure RecSt where
  /-- staging FIFO, oldest first | R425 | empty -/
  fifo : List Staged := []
  /-- units taken from each code's bucket | R420 | 0 (R420) -/
  used : Table Nat := []
  /-- refusals | R420 | 0 (R420) -/
  refused : Table SupprSt := []
  /-- FIFO drops | R426 | 0 (DESIGN CHOICE, log 2) -/
  drops : Table SupprSt := []
  /-- only safety-class records are admitted | R68 | false -/
  powerFail : Bool := false
  /-- working copy of the statistics, as MRAM at reset | R435 | MRAM -/
  stats : Table Nat := []
  /-- recorder has failed: no record is written | R36 | false -/
  failed : Bool := false
  /-- the event log has stopped: event records are dropped without a count | R431 | false -/
  stoppedE : Bool := false
  deriving DecidableEq, Repr

/-- BAR0 set-up registers and the PCI Express link (R72, R470 to R478). -/
structure BarSt where
  /-- 64 bits | R475 | 0 (R475) -/
  flowTable : U64 := 0
  /-- 64 bits | R475 | 0 (R475) -/
  db : U64 := 0
  /-- 64 bits | R475 | 0 (R475) -/
  mirror : U64 := 0
  /-- 64 bits | R475 | 0 (R475) -/
  hb : U64 := 0
  /-- 64 bits | R475 | 0 (R475) -/
  lib : U64 := 0
  /-- held _LO value of each 64-bit register, by offset | R470 | 0 (DESIGN CHOICE, log 2) -/
  held : Table U32 := []
  /-- latched upper half of each read-only register, by offset of _HI | R470 | none, reads as current -/
  latched : Table (Option U32) := []
  /-- 10 bits | R477 | 10 (R477) -/
  poll : Nat := 10
  /-- 14 bits | R477 | 1 000 (R477) -/
  timeout : Nat := 1000
  /-- set-up lock | R473 | 0 (R473) -/
  lock : Bool := false
  /-- MEM_DIAG_SEL | R444 | 0 (R444) -/
  diagSel : Nat := 0
  /-- Bus Master Enable | R76 | 0 (PCI Express, PRESUMED, log 2) -/
  bme : Bool := false
  /-- link up | R76 | false (DESIGN CHOICE, log 2) -/
  linkUp : Bool := false
  /-- link speed code of R102 | R72, R102 | 0, link down -/
  speed : Nat := 0
  /-- link width | R72, R102 | 0, link down -/
  width : Nat := 0
  /-- Max Payload Size in effect | R72 | 128 (PCI Express, PRESUMED, log 31) -/
  mps : Nat := 128
  /-- Max Read Request Size in effect | R72 | 512 (PCI Express, PRESUMED, log 31) -/
  mrrs : Nat := 512
  /-- base address of BAR0 with BAR1 | R73 | 0 (PCI Express, PRESUMED, log 31) -/
  base0 : U64 := 0
  /-- base address of BAR2 with BAR3 | R73 | 0 (PCI Express, PRESUMED, log 31) -/
  base2 : U64 := 0
  deriving DecidableEq, Repr

/-- One flow (R77 to R83). -/
structure FlowSt where
  state : FlowState := .disabled
  cause : Nat := 0
  sqBase : Nat := 0
  cqBase : Nat := 0
  sqSize : Nat := 0
  cqSize : Nat := 0
  cls : Nat := 0
  quota : Nat := 0
  epoch : Nat := 0
  st : U16 := 0
  sh : U16 := 0
  ct : U16 := 0
  ch : U16 := 0
  gen : Nat := 0
  fails : Nat := 0
  cmd : Nat := 0
  deriving DecidableEq, Repr

/-- Host port and operation engine (R72 to R126). -/
structure HostSt where
  /-- 256 flows | R78 | DISABLED (R64) -/
  flows : Table FlowSt := []
  /-- 512 operation slots, by slot number | R95 | free (R64) -/
  slots : Table (Option SlotSt) := []
  /-- scheduled fetches: flow, index, count | R92 | none -/
  fetchQ : List (Nat × U16 × Nat) := []
  /-- a round of fetches waits for an urgent completion | R92, R97 | false -/
  fetchDue : Bool := false
  /-- flows whose fetch failed since the latest doorbell data | R92, R93 | none -/
  skip : List Nat := []
  /-- flow served last in each class | R92 | 0 (DESIGN CHOICE, log 2) -/
  last : Table Nat := []
  /-- operations finished, for the order of R85 | R85 | 0 -/
  finished : Nat := 0
  /-- counters of DIAG_READ item 0x01, by offset | R102 | 0 (R102) -/
  counters : Table U32 := []
  /-- SEQ_BEGIN of the next mirror | R101 | 0 (DESIGN CHOICE, log 2) -/
  mirrorSeq : U32 := 0
  /-- heartbeat reference | R103, R476 | none -/
  hbRef : Option U32 := none
  /-- FRAMEs since the word changed | R103 | 0 -/
  hbSame : Nat := 0
  /-- operating second + 1 of the last DB_READ_FAIL of each block | R91 | 0 -/
  dbFail : Table Nat := []
  deriving DecidableEq, Repr

/-- A LOCKOUT_RESET in progress (R330): the masks, its slot, the portals that had something to clear, and whether the
masks have still to be applied. -/
structure ClearSt where
  pm : BitVec 12
  im : BitVec 12
  slot : Nat
  was : BitVec 12 := 0
  fresh : Bool := true
  wasIso : BitVec 12 := 0
  deriving DecidableEq, Repr

/-- Sequencer, fault manager and what they hand over (R127 to R154, R316 to R325). -/
structure SeqSt where
  /-- ticks stepped, the clock of every count in ticks | R8 | 0 -/
  now : Nat := 0
  /-- 13 channels | R129 | state 0 (R135) -/
  channels : Table ChannelSt := []
  /-- CF0 to CF7 | R135 | 0 (R135) -/
  carFlags : BitVec 8 := 0
  /-- CAR_REQUEST in flight | R118 | none -/
  carSlot : Option Nat := none
  /-- commanded output states | R345 | 0 (R345) -/
  out : BitVec 144 := 0
  /-- forced output sets, by first channel | R353 | none -/
  forces : Table (Option ForceSt) := []
  /-- door cycles | R410 | none begun -/
  cycles : Table CycleSt := []
  /-- 12 masters | R158 | at rest (R64) -/
  masters : Table MasterSt := []
  /-- 36 axes, the loop part | R196 | OFF (R196) -/
  axes : Table AxisSt := []
  /-- obstacle estimator | R226 | clear -/
  obst : Table ObstSt := []
  /-- Topaz | R250 | 0 (R250) -/
  topaz : TopazSt := {}
  /-- Topaz has still to evaluate the tick, once its period-0 frames are in | R247, R260 | false -/
  evalDue : Bool := false
  /-- what the tick before has measured on each axis | R263, R369 | 0 -/
  lastAx : Table InAxis := []
  /-- faults on their way to the fault manager | R316 | none -/
  faultQ : List FaultRec := []
  /-- torque-enable outputs reported closed, for the frames of this tick and of the next | R198, R371 | 0 -/
  te : BitVec 12 := 0
  /-- as te, for the next tick | R198, R371 | 0 -/
  teNext : BitVec 12 := 0
  /-- to the islands: latches set, ISOLATED set | R319 | 0 -/
  setLatch : BitVec 12 := 0
  /-- as setLatch | R319 | 0 -/
  setIso : BitVec 12 := 0
  /-- to the islands: SAFE_STOP actions | R272 | 0 -/
  safeStop : BitVec 12 := 0
  /-- to the islands: DEC_STOP switch points | R272 | 0 -/
  switchPt : BitVec 12 := 0
  /-- LOCKOUT_RESET in progress | R330 | none -/
  clearReq : Option ClearSt := none
  /-- channels to restart in state 0 | R332 | 0 -/
  restart : BitVec 13 := 0
  /-- portals whose takeover stop ends with a restart | R381 | 0 -/
  coast : BitVec 12 := 0
  /-- the brakings of their axes, by axis | R381 | none -/
  coastAx : Table MasterSt := []
  /-- PARK executed in this tick | R43 | false -/
  park : Bool := false
  /-- detections not yet taken (model) | log 3 | none -/
  due : List Due := []
  deriving DecidableEq, Repr

/-- Link counters and state of one axis link (R207 to R213, R223). -/
structure LinkSt where
  locked : Bool := false
  en : Bool := false
  rx : Option UpRx := none
  cls : UpClass := .absent
  sent : Option (Nat × Bytes) := none
  muted : Bool := false
  mutedIn : Bool := false
  unmute : Bool := false
  nonValid : Nat := 0
  nvTick : Bool := false
  hallBad : Nat := 0
  hallDis : Nat := 0
  drop : Nat := 0
  fault : Nat := 0
  raised : BitVec 8 := 0
  mismTick : Bool := false
  mismFrame : Bool := false
  mismFrames : Nat := 0
  cValid : U32 := 0
  cInvalid : U32 := 0
  cLate : U32 := 0
  cSeq : U32 := 0
  cHash : U32 := 0
  cUsed : U32 := 0
  cOther : Nat := 0
  cTrip : Nat := 0
  lastTrip : Nat := 0
  deriving DecidableEq, Repr

/-- Cam cache and pager (R187 to R192). -/
structure CamSt where
  /-- 64 pages | R187 | FREE (R64) -/
  pages : Table PageSt := []
  /-- waiting page-ins: table, host slot | R188 | none -/
  queue : List (Nat × Option Nat) := []
  /-- the page-in in progress: table, page, attempts, address | R190 | none -/
  cur : Option (Nat × Nat × Nat × Nat) := none
  /-- the page-in waits for its retry | R190 | false -/
  retry : Bool := false
  /-- host operations waiting for a table: slot, table | R192 | none -/
  waits : List (Nat × Nat) := []
  /-- tables whose page-in has failed since the latest TICK | R148, R191 | none -/
  failed : List Nat := []
  deriving DecidableEq, Repr

/-- The logic die's view of the field die (R286, R341, R352). -/
structure FldSt where
  /-- latest stop word | R286 | none: every contact counts as not safe (R286) -/
  stopW : Option DieFrame := none
  /-- latest sample frame | R341 | none -/
  frame : Option DieFrame := none
  /-- a section has been loaded since the reset | R18, R352 | false -/
  loaded : Bool := false
  /-- frames discarded | R354 | 0 (R354) -/
  bad : U32 := 0
  /-- states already reported in the open-wire band | R317 | none -/
  wire : Table Bool := []
  deriving DecidableEq, Repr

/-- Twin link and role manager (R355 to R385). -/
structure TwinSt where
  /-- role | R355 | none -/
  role : Role := .none
  /-- the standby is synchronised | R355 | false -/
  synced : Bool := false
  /-- last UNSYNCED cause | R375 | 0 -/
  cause : Nat := 0
  /-- UNSYNCED entries, saturating | R385 | 0 (R385) -/
  entries : Nat := 0
  /-- FRAMEs since the last cause of R375 | R377 | 0 -/
  quiet : Nat := 0
  /-- lanes up | R365 | down -/
  lanes : BitVec 2 := 0
  /-- own nonce of the AUTH exchange | R365 | none -/
  nonce : Bytes := []
  /-- the twin's nonce | R365 | none -/
  nonceT : Bytes := []
  /-- the twin's answer verified | R365 | false -/
  authed : Bool := false
  /-- MSEQ of the next message of each TYPE | R366 | 0 (R366) -/
  txSeq : Table U32 := []
  /-- the latest 64 MSEQ of each TYPE received | R365 | none -/
  rxSeq : Table (List U32) := []
  /-- the twin's serial number, from its HELLO | R365 | none -/
  serialT : Option U64 := none
  /-- the twin's answer, not yet verified | R365 | none -/
  answerT : Bytes := []
  /-- own answer has been sent | R365 | false -/
  answered : Bool := false
  /-- ticks since a valid message | R362, R375 | 8 -/
  age : Nat := 8
  /-- ticks since a HELLO reporting STANDBY | R355 | 16 -/
  helloAge : Nat := 16
  /-- ticks since any HELLO | R360 | 16 -/
  anyHello : Nat := 16
  /-- the twin's latest HELLO | R367 | none -/
  peer : Option (TwinHdr × Hello) := none
  /-- latest valid epoch of the twin | R363 | none -/
  epoch : Option U16 := none
  /-- the latest valid message was RELINQUISH, its last tick | R362 | none -/
  relinq : Option Nat := none
  /-- latest INPUT and its tick | R369 | none -/
  input : Option (Nat × InputFrame) := none
  /-- retained INPUT messages | R374 | none -/
  kept : List (Nat × InputFrame) := []
  /-- messages and datasets of the tick still to leave, once its evaluation is done | R368, R396 | false -/
  sendDue : Bool := false
  /-- claiming side: INPUT of the tick but for its AXIS part, until it leaves | R368, R369 | none -/
  txInput : Option InputFrame := none
  /-- claiming side: the snapshot of a FRAME and its MSEQ, until it leaves after INPUT | R368 | none -/
  txSnap : Option (U32 × Snapshot) := none
  /-- claiming side: HELLO of a FRAME, until it leaves after the snapshot | R368 | false -/
  txHello : Bool := false
  /-- claiming side: pieces of PAGE and IMAGE that wait: TYPE, MSEQ, payload | R368 | none -/
  txPieces : List (Nat × U32 × Bytes) := []
  /-- the snapshot received, until it is handled | R373 | none -/
  snapIn : Option Snapshot := none
  /-- a word of the snapshot buffers could not be read: the next snapshot is not sent, or counts as bad | R440 | false -/
  snapBad : Bool := false
  /-- own state image at F | R373 | none -/
  image : Option Snapshot := none
  /-- links that were muted at any time in the millisecond before that image | R373 | 0 -/
  leftOut : BitVec 36 := 0
  /-- latest snapshot applied, for R126 | R126 | none -/
  lastSnap : Option Snapshot := none
  /-- consecutive bad snapshots | R373 | 0 -/
  badSnaps : Nat := 0
  /-- held silent by a bad snapshot | R373, R394 | false -/
  silent : Bool := false
  /-- resynchronisation: 0 none, 1 requested, 2 base applied; on the claiming side 1 while one runs | R378 | 0 -/
  resync : Nat := 0
  /-- claiming side: send a base snapshot at the next FRAME | R378 | false -/
  base : Bool := false
  /-- a partly received page: page, table, data | R194 | none -/
  pageBuf : Option (Nat × Nat × Bytes) := none
  /-- a partly received image | R379 | none -/
  imgBuf : Option (Nat × Nat × Bytes) := none
  /-- images stored since this reset | R379 | false -/
  imgSeen : Bool := false
  /-- images sent to the standby since its reset | R379 | false -/
  imgSent : Bool := false
  /-- the planned swap in progress: ticks left, its slot | R382 | none -/
  swap : Option (Nat × Nat) := none
  /-- safety ticks with one role line present and the other lost | R358 | 0 -/
  lineFault : Nat := 0
  /-- the line fault has been recorded: the twin's claim counts as present | R358 | false -/
  lineRec : Bool := false
  /-- the latest valid message was RELINQUISH or the HELLO of a unit that claims nothing | R362 | false -/
  gone : Bool := false
  /-- ticks of a conflict in WORKSHOP | R361 | 0 -/
  conflict : Nat := 0
  /-- portals whose stop in that conflict has not removed torque | R361 | 0 -/
  confStop : BitVec 12 := 0
  /-- retained VALID up frames: period index, axis, bytes, newest first | R374 | none -/
  keptUp : List (Nat × Nat × Bytes) := []
  /-- operations carried to the standby in this tick | R369 | none -/
  carry : List InOp := []
  /-- faults carried to the standby in this tick | R369 | none -/
  carryF : List FaultRec := []
  /-- link counters of DIAG_READ item 0x06, by offset | R385 | 0 (R385) -/
  counters : Table U32 := []
  deriving DecidableEq, Repr

/-- One train-line port (R386, R399, R402). -/
structure PortSt where
  linkUp : Bool := false
  duplex : Bool := false
  arp : List Nat := []
  icmp : Nat := 10
  spent : Nat := 0
  prio : List TrainFrame := []
  norm : List TrainFrame := []
  counters : Table U32 := []
  deriving DecidableEq, Repr

/-- One subscription (R398 to R402). -/
structure SubSt where
  state : Nat := 0
  epoch : U16 := 0
  seq : U32 := 0
  stamp : U64 := 0
  data : Bytes := []
  accepted : U32 := 0
  empty : Bool := true
  wEpoch : U16 := 0
  high : U32 := 0
  seen : List U32 := []
  age : Nat := 0
  budget : Nat := 400
  deriving DecidableEq, Repr

/-- Train-line ports (R386 to R403). -/
structure TrainSt where
  /-- two ports | R386 | link down, counters 0 (R402) -/
  ports : Table PortSt := []
  /-- 48 subscriptions | R401 | empty (R401) -/
  subs : Table SubSt := []
  /-- due datasets: entry, SEQ, data | R396 | none -/
  due : List (Nat × Nat × Bytes) := []
  /-- FRAMEs since the last unit-failed telegram | R397 | 0 -/
  ufMs : Nat := 0
  /-- milliseconds in the current second of the rate limits | R386, R399 | 0 -/
  ms : Nat := 0
  deriving DecidableEq, Repr

/-- One SRAM bank (R437 to R453). -/
structure BankSt where
  power : BankPower := .on
  words : Table U32 := []        -- data, by word index
  checks : Table Nat := []       -- stored check bits XOR the code's, by word index
  wb : List (Nat × Bool) := []   -- words waiting for write-back, with their port, true for B
  corrected : U32 := 0
  bad : U32 := 0
  lastCorr : U32 := 0
  lastBad : U32 := 0
  tested : U32 := 0
  failed : Nat := 0
  hot : Table Nat := []          -- corrected reads of a word in this sweep
  noSpare : Table Bool := []
  deriving DecidableEq, Repr

/-- Memory system and Opal (R437 to R453). -/
structure MemSt where
  /-- 24 banks | R437 | On, words 0 with valid check bits (R446; words DESIGN CHOICE, log 2) -/
  banks : Table BankSt := []
  /-- Opal's place: bank, row 0 to 1031 | R447 | bank 0, row 0 (DESIGN CHOICE, log 2) -/
  opal : Nat × Nat := (0, 0)
  /-- rows brought forward: bank, row | R450 | none -/
  forward : List (Nat × Nat) := []
  deriving DecidableEq, Repr

/-- The images in effect (R481, R487, R489). -/
structure RunSt where
  /-- configuration image in effect | R481 | none (R508) -/
  cfg : Option Image := none
  /-- programs in effect | R489 | none (R508) -/
  progs : Table Image := []
  /-- directory in effect | R185 | none (R508) -/
  dir : Option Image := none
  deriving DecidableEq, Repr

/-- The logic die but for the groups kept apart. -/
structure Core where
  sys : SysSt := {}
  tb : TbSt := {}
  nv : NvSt := {}
  run : RunSt := {}
  recd : RecSt := {}
  bar : BarSt := {}
  host : HostSt := {}
  seq : SeqSt := {}
  links : Table LinkSt := []
  cam : CamSt := {}
  fld : FldSt := {}
  twin : TwinSt := {}
  train : TrainSt := {}
  mem : MemSt := {}
  /-- results of SAFE_A as last received | R272 | none: pairs not safe, switches open -/
  crossA : IslOut := {}
  /-- results of SAFE_B as last received | R272 | as crossA -/
  crossB : IslOut := {}
  /-- everything the block has sent, newest first (model) | log 4 | none -/
  out : List Output := []
  /-- draws from the free values so far (model) | log 5 | 0 -/
  free : Nat := 0
  deriving DecidableEq, Repr

/-- The machine. -/
structure State where
  /-- commands that wait, first in, first out (model) | log 1 | empty -/
  pending : List Instr := []
  fuse : Fuses := {}
  onyx : OnyxSt := {}
  store : Stores := {}
  die : DieSt := {}
  isa : IslSt := {}
  isb : IslSt := {}
  core : Core := {}
  deriving DecidableEq, Repr

/-- Right after the first power-on reset of a unit that has left manufacture (R508): held in reset,
before the internal reset release. -/
def State.reset : State :=
  { core := { nv := { cycles := 1 } } }

end Sys2Proof.Machine
end

