-- ==== Sys2Proof/Machine/Sections.lean ====
section
/-! DEFINITION. The configuration image by its fields (R482 to R485), and the fields of the sequencer section
(R141) and of programs (R143 to R146). Each accessor takes the image that its rule names. -/

namespace Sys2Proof.Machine

/-- Configuration image in effect; every field of a missing image reads 0. -/
def cfgOf (c : Core) : Image := c.run.cfg.getD {}

/-- Stored configuration image (R487). -/
def storedOf (c : Core) : Image := c.nv.cfg.getD {}

/-! Offsets of the sections (R484) -/

/-- System section. -/
def secSys : Nat := 832
/-- Channel block n of the sequencer section (R141). -/
def secSeq (n : Nat) : Nat := 896 + 128 * n
/-- Motion section. -/
def secMot : Nat := 2560
/-- Axis control section. -/
def secAxis : Nat := 14848
/-- Obstacle section. -/
def secObst : Nat := 17216
/-- Topaz section. -/
def secTopaz : Nat := 18752
/-- Safety section. -/
def secSafe : Nat := 19584
/-- Fault section. -/
def secFault : Nat := 21824
/-- Field section. -/
def secField : Nat := 21888
/-- Twin section. -/
def secTwin : Nat := 23104
/-- Train-line section. -/
def secTrain : Nat := 23168
/-- Recorder section. -/
def secRec : Nat := 25280
/-- Tamper section. -/
def secTamper : Nat := 27328

/-! Sequencer section (R141) -/

/-- UIO of INj in channel n, 255 unmapped. -/
def inUio (m : Image) (n j : Nat) : Nat := img8 m (secSeq n + 2 * j)
/-- INVERT of INj. -/
def inInv (m : Image) (n j : Nat) : Bool := bitOf (img8 m (secSeq n + 2 * j + 1)) 0
/-- Safety pair of SPj, 255 unmapped. -/
def pairMap (m : Image) (n j : Nat) : Nat := img8 m (secSeq n + 64 + j)
/-- Channel n owns UIO u. -/
def ownsUio (m : Image) (n u : Nat) : Bool := bitOf (img8 m (secSeq n + 80 + u / 8)) (u % 8)
/-- Axes that a channel block names, bits L, R, S. -/
def axesOf (m : Image) (n : Nat) : Nat := img8 m (secSeq n + 98) % 8
/-- Axis x is named by its portal's block (R7). -/
def axisConf (m : Image) (x : Nat) : Bool := bitOf (axesOf m (x / 3)) (x % 3)
/-- The configured axes of a portal. -/
def portalAxes (m : Image) (p : Nat) : List Nat := ([0, 1, 2].map (3 * p + ·)).filter (axisConf m)

/-! Programs (R143 to R146) -/

/-- Program in effect of a channel; length 0 when there is none. -/
def progOf (c : Core) (n : Nat) : Image := tget {} c.run.progs n
/-- STATE_COUNT. -/
def prStates (g : Image) : Nat := img16 g 8
/-- TRANS_COUNT. -/
def prTrans (g : Image) : Nat := img16 g 10
/-- ACTION_COUNT. -/
def prActs (g : Image) : Nat := img16 g 12
/-- Address of state s. -/
def prState (g : Image) (s : Nat) : Nat := img32 g 32 + 16 * s
/-- Address of transition t. -/
def prTran (g : Image) (t : Nat) : Nat := img32 g 36 + 16 * t
/-- Action a (R146). -/
def prAct (g : Image) (a : Nat) : Action :=
  let o := img32 g 40 + 16 * a
  { op := img8 g o, arg8 := img8 g (o + 1), arg16 := img16 g (o + 2), a := img32 g (o + 4), b := img32 g (o + 8) }
/-- `n` actions from `a`, in table order. -/
def prActsFrom (g : Image) (a n : Nat) : List Action := (List.range n).map fun i => prAct g (a + i)
/-- MOTION_CODE of state s. -/
def prMotion (g : Image) (s : Nat) : Nat := img8 g (prState g s + 7)
/-- Entry actions of state s. -/
def prEntry (g : Image) (s : Nat) : List Action :=
  prActsFrom g (img16 g (prState g s + 4)) (img8 g (prState g s + 6))

/-! Who is configured, and what a portal reports -/

/-- A channel is configured (R128). -/
def chanConf (c : Core) (n : Nat) : Bool :=
  decide (0 < (progOf c n).len) && (n == 12 || decide (0 < axesOf (cfgOf c) n))

/-- Channels step (R127). -/
def stepsIn (m : Mode) : Bool := m == .shadow || m == .service || m == .workshop

/-- Motion code that a portal reports (R127, R153). -/
def motionOf (c : Core) (p : Nat) : Nat :=
  if chanConf c p then if stepsIn c.sys.mode then (tget {} c.seq.channels p).motion else 9 else 0

/-- Motion codes of a portal that moves: UNLOCKING, OPENING, CLOSING, REVERSING, STOPPING. -/
def movingCode (m : Nat) : Bool := m == 3 || m == 4 || m == 6 || m == 7 || m == 8

/-- Some portal has a moving motion code (R42, R61). -/
def anyMoving (c : Core) : Bool := (List.range 12).any fun p => movingCode (motionOf c p)

/-- An erase leads to LOCKOUT for one of its two reasons: 10 s, that is 80 000 ticks, are over, or no portal moves (R466). -/
def eraseRipe (late : Bool) (c : Core) : Bool :=
  c.sys.erased && stepsIn c.sys.mode && if late then decide (80000 ≤ c.sys.eraseAge) else !anyMoving c

/-- An erase leads to LOCKOUT now (R466). -/
def eraseDue (c : Core) : Bool := eraseRipe false c || eraseRipe true c

/-- Bit `p` of a portal mask. -/
def pbit {n : Nat} (v : BitVec n) (p : Nat) : Bool := v.getLsbD p

/-- The portal lock-out latch counts as set (R318). -/
def lockedOut (c : Core) (p : Nat) : Bool :=
  (tget {} c.nv.latches p).set || pbit c.crossA.latches p || pbit c.crossB.latches p

/-- The device lock-out latch counts as set (R318). -/
def devLatched (c : Core) : Bool := c.nv.dev.set || c.crossA.dev || c.crossB.dev

/-- The portal is ISOLATED (R325). -/
def isolatedAt (c : Core) (p : Nat) : Bool := pbit c.nv.isolated p

/-- The portals that are LOCKED_OUT or ISOLATED (R320, R325). -/
def blockedPortals (c : Core) : BitVec 12 := bitsBy 12 fun p => lockedOut c p || isolatedAt c p

/-- The unit is UNSYNCED: in SHADOW and not synchronised (R355). -/
def unsynced (c : Core) : Bool := c.sys.mode == .shadow && !c.twin.synced

/-- The unit is ACTIVE in a synchronised pair, or a synchronised STANDBY (R355). -/
def inPair (c : Core) : Bool := c.twin.synced

end Sys2Proof.Machine
end

