-- ==== Sys2Proof/Machine/FieldDie.lean ====
section
/-! DEFINITION. The field die by itself: its section, its filters, its supplies and its output sets
(R334 to R352). -/

namespace Sys2Proof.Machine

/-! Field section, read from an image that starts at its header (R335) -/

/-- Entry of channel u. -/
def fEntry (u : Nat) : Nat := 64 + 8 * u
/-- MODE. -/
def fMode (m : Image) (u : Nat) : Nat := img8 m (fEntry u)
/-- ATTR bit: 0 WB, 1 SHARED, 2 WAKE, 3 CO_DRIVE. -/
def fAttr (m : Image) (u k : Nat) : Bool := bitOf (img8 m (fEntry u + 1)) k
/-- FILTER. -/
def fFilter (m : Image) (u : Nat) : Nat := img8 m (fEntry u + 2)
/-- SAFE. -/
def fSafe (m : Image) (u : Nat) : Nat := img8 m (fEntry u + 3)
/-- WIDTH. -/
def fWidth (m : Image) (u : Nat) : Nat := img8 m (fEntry u + 4)
/-- Group g (from 0) is in use. -/
def fUsed (m : Image) (g : Nat) : Bool := bitOf (img16 m 2) g
/-- The first channel of the output set that contains u (R344). -/
def setLead (m : Image) (u : Nat) : Nat :=
  if fMode m u = 3 then
    let a := u / 2 * 2
    if fMode m a = 2 then a else u / 4 * 4
  else u
/-- Group of a channel, from 0 (R334). -/
def groupOf (u : Nat) : Nat := u / 16

/-- The section that the die uses; an empty one where none is loaded. -/
def dieSec (d : DieSt) : Image := d.section_.getD {}

/-- The die samples and drives. -/
def dieRuns (d : DieSt) : Bool := !d.held && !d.noSupply

/-! Output sets (R345, rows 1, 2 and the command image) -/

/-- What a set drives: nothing until a command frame with RUN 1 has come since its entry was loaded (R336, R352). -/
def setValue (d : DieSt) (u : Nat) : Bool :=
  let o := tget {} d.outs u
  if !o.live || (tget {} d.groups (groupOf u)).state == .missing || o.short then false
  else if d.silent || !d.run then
    (match fSafe (dieSec d) u with
      | 1 => true
      | 2 => o.on
      | _ => false)
  else d.image.getLsbD u

/-- One set takes the value it drives; a set that turns off starts its off time. -/
def driveSet (d : DieSt) (u : Nat) : DieSt :=
  let o := tget {} d.outs u
  let v := setValue d u
  { d with outs := tset {} d.outs u { o with on := v, offFor := if o.on && !v then 0 else o.offFor } }

/-- First channels of the output sets of a section. -/
def setsOf (m : Image) : List Nat := (List.range 144).filter fun u => fMode m u == 2

/-- Every set takes the value it drives; a die held in reset drives none (R345, R352). -/
def drive (d : DieSt) : DieSt :=
  if dieRuns d then (setsOf (dieSec d)).foldl driveSet d else { d with outs := [] }

/-- RUN 0 at once (R52). -/
def dieRunOff (d : DieSt) : DieSt := drive { d with run := false, cmd := none }

/-! Raw samples (R337, R340, R346, R348, R349) -/

/-- Band of an input current in µA: 0, 1, 2 open wire, none in the hold band (R337). -/
def bandOf (wb shared : Bool) (ua : Nat) : Option Nat :=
  let a := if shared then 2 * ua else ua
  if a < 400 then some (if wb then 2 else 0)
  else if a < 1800 then some 0
  else if a ≤ 2200 then none
  else some 1

/-- One raw sample through the filter (R340). -/
def filterStep (f : Nat) (band : Option Nat) (i : InputSt) : InputSt :=
  let r := band.getD i.lastRaw
  let n := if i.cand = some r then i.n + 1 else 1
  { lastRaw := r, cand := some r, n := min n f, filt := if f ≤ n then some r else i.filt }

/-- State of a channel as the frames code it: 0, 1, 2 open wire, 3 (R341, R354). -/
def chanState (d : DieSt) (u : Nat) : Nat :=
  if fMode (dieSec d) u == 1 && (tget {} d.groups (groupOf u)).state != .missing then
    (tget {} d.inputs u).filt.getD 3
  else 3

/-- One raw sample of a group supply (R348, R349); the counts are of consecutive samples. -/
def groupSample (used : Bool) (mv ma : Nat) (g : GroupSt) : GroupSt :=
  if !used then { vf := mv, ma := ma }
  else if !g.sup then
    { state := if 16800 ≤ mv then .normal else if 12000 ≤ mv then .low else .missing, sup := true, vf := mv, ma := ma }
  else
    { g with
      vf := mv
      ma := ma
      cLow := if mv < 16800 then g.cLow + 1 else 0
      cMiss := if mv < 12000 then g.cMiss + 1 else 0
      cOk := if 18000 < mv then g.cOk + 1 else 0
      above := if 4000 < ma then g.above + 1 else 0 }

/-- The change of state that a group's counts have completed (R349). -/
def groupDue (k : Nat) (g : GroupSt) : Option DieDue :=
  if (g.state == .normal || g.state == .low) && 40 ≤ g.cMiss then some (.missing k)
  else if g.state == .normal && 200 ≤ g.cLow then some (.low k)
  else if (g.state == .low || g.state == .missing) && 4000 ≤ g.cOk then some (.ok k)
  else none

/-- Channels of a set. -/
def setChans (m : Image) (u : Nat) : List Nat := (List.range (fWidth m u)).map (u + ·)

/-- One raw sample of one channel of an output set (R346). -/
def outSample (m : RawIn) (lead : OutSt) (u : Nat) (o : OutSt) : OutSt :=
  let high := decide (12000 < tget 0 m.padMv u)
  { o with
    pad := high
    limCnt := if lead.on && tbit m.limit u then o.limCnt + 1 else 0
    extCnt := if !lead.on && high then o.extCnt + 1 else 0 }

/-- One raw sample of a set: its channels, then its own times. -/
def setSample (m : RawIn) (d : DieSt) (u : Nat) : DieSt :=
  let s := dieSec d
  let lead := tget {} d.outs u
  let d := (setChans s u).foldl (fun d v => { d with outs := tmod {} d.outs v (outSample m lead v) }) d
  let anyPad := (setChans s u).any fun v => decide (12000 ≤ tget 0 m.padMv v)
  { d with outs := tmod {} d.outs u fun o =>
      { o with
        offFor := if o.on then 0 else min 40 (o.offFor + 1)
        shortFor := if o.short then o.shortFor + 1 else 0
        extClr := if anyPad then 0 else min 20 (o.extClr + 1)
        ext := o.ext && !(!anyPad && 20 ≤ o.extClr + 1) } }

/-- What a set's counts have completed (R346). -/
def setDue (m : RawIn) (d : DieSt) (u : Nat) : List DieDue :=
  let s := dieSec d
  let o := tget {} d.outs u
  let chans := (setChans s u).map fun v => (v, tget {} d.outs v)
  let limited := chans.any fun e => 200 ≤ e.2.limCnt || (o.on && tbit m.hot e.1)
  let driven := !o.on && 40 ≤ o.offFor && chans.any fun e => 20 ≤ e.2.extCnt
  (if !o.short && limited then [DieDue.shortGnd u] else [])
    ++ (if !o.ext && driven then [DieDue.ext u] else [])
    ++ (if o.short && 40000 ≤ o.shortFor && !d.image.getLsbD u then [DieDue.clear u] else [])

/-- The highest-numbered set of a group that is on (R346). -/
def topSet (d : DieSt) (g : Nat) : Option Nat :=
  ((setsOf (dieSec d)).filter fun u => groupOf u == g && (tget {} d.outs u).on).getLast?

/-- The group overcurrent turns one set off at 5 ms and again every 1 ms (R346). -/
def overDue (d : DieSt) (g : Nat) : List DieDue :=
  let n := (tget {} d.groups g).above
  if 200 ≤ n && (n - 200) % 40 = 0 then ((topSet d g).map DieDue.shortGnd).toList else []

/-- One raw sample of the whole die: inputs, supplies, sets; what they complete is due, each once (R340, R346, R349, R351). The sets of
a group that is in FIELD_MISSING from its first supervised sample turn off (R348, R350). -/
def rawStep (m : RawIn) (old : DieSt) : DieSt :=
  let s := dieSec old
  let d := { old with
    inputs := (List.range 144).foldl (fun t u =>
      if fMode s u = 1 then
        tmod {} t u (filterStep (10 * fFilter s u) (bandOf (fAttr s u 0) (fAttr s u 1) (tget 0 m.ua u)))
      else t) old.inputs
    groups := (List.range 9).foldl (fun t g =>
      tmod {} t g (groupSample (fUsed s g) (tget 0 m.vfMv g) (tget 0 m.groupMa g))) old.groups
    silence := old.silence + 1 }
  let d := if (List.range 9).any fun g => !(tget {} old.groups g).sup && (tget {} d.groups g).state == .missing then drive d else d
  let d := (setsOf s).foldl (setSample m) d
  let due := (List.range 9).filterMap (fun g => groupDue g (tget {} d.groups g))
    ++ (setsOf s).flatMap (setDue m d) ++ (List.range 9).flatMap (overDue d)
    ++ (if !d.expired && d.section_.isSome && 40 * img8 s 0 ≤ d.silence then [DieDue.silence] else [])
  { d with due := (d.due ++ due).eraseDups }

/-! Loading a section (R336) -/

/-- The entry of channel u is unchanged. -/
def sameEntry (a b : Image) (u : Nat) : Bool := imgSlice a (fEntry u) 8 == imgSlice b (fEntry u) 8

/-- The logic die loads a field section; unchanged channels keep their state, and a set whose entry changes starts off (R336, R348). -/
def loadSection (sec : Image) (stops : List Nat) (d : DieSt) : DieSt :=
  if dieRuns d then
    match d.section_ with
    | some old =>
      drive { d with
        section_ := some sec
        stopList := stops
        inputs := d.inputs.filter fun e => sameEntry old sec e.1
        outs := d.outs.filter fun e => sameEntry old sec e.1
        groups := d.groups.filter fun e => fUsed sec e.1 && fUsed old e.1 }
    | none => { d with section_ := some sec, stopList := stops }
  else d

/-- The die as it restarts, unconfigured (R352). -/
def dieRestart (d : DieSt) : DieSt := { noSupply := d.noSupply, held := d.held }

/-! Frames (R341) -/

/-- A frame of the die: state 3 is the value of an unlisted channel. -/
def dieFrame (d : DieSt) (us : List Nat) : DieFrame where
  seq := d.seq
  configured := d.section_.isSome
  states := us.foldl (fun t u => tset 3 t u (chanState d u)) []
  groups := (List.range 9).foldl (fun t g => tset 0 t g (match (tget {} d.groups g).state with
    | .normal => 0
    | .low => 1
    | .missing => 2
    | .notUsed => 3)) []
  back := us.foldl (fun t u =>
    let o := tget {} d.outs (setLead (dieSec d) u)
    let v := tget {} d.outs u
    if 2 ≤ fMode (dieSec d) u then tset 0 t u (b2n o.on + 2 * b2n v.pad + 4 * b2n o.short + 8 * b2n o.ext) else t) []

/-- State of a channel in a frame. -/
def stateIn (f : DieFrame) (u : Nat) : Nat := tget 3 f.states u

end Sys2Proof.Machine
end

