-- ==== Sys2Proof/Machine/Crypto.lean ====
section
/-! DEFINITION. The checksums, hashes and signatures that the rules name: CRC-16 (R56, R202, R205),
CRC-32C (R409), SHA-256, HMAC-SHA-256 (R365, R392) and ECDSA P-256 (R108, R154, R482). -/

namespace Sys2Proof.Machine

/-- One bit of a non-reflected 16-bit CRC. -/
def crc16Bit (poly c : Nat) : Nat :=
  if c.testBit 15 then (c * 2 % 65536) ^^^ poly else c * 2 % 65536

/-- One byte of a non-reflected 16-bit CRC. -/
def crc16Byte (poly c : Nat) (b : Byte) : Nat :=
  (List.range 8).foldl (fun a _ => crc16Bit poly a) (c ^^^ (b.toNat * 256))

/-- CRC-16, polynomial 0x1021, initial value 0xFFFF (R56, R202). -/
def crc16 (b : Bytes) : Nat := b.foldl (crc16Byte 0x1021) 0xFFFF

/-- CRC-16, polynomial 0x8BB7, initial value 0 (R205). -/
def hash16 (b : Bytes) : Nat := b.foldl (crc16Byte 0x8BB7) 0

/-- One bit of the reflected CRC-32C. -/
def crc32cBit (c : Nat) : Nat := if c % 2 = 1 then (c / 2) ^^^ 0x82F63B78 else c / 2

/-- One byte of the reflected CRC-32C. -/
def crc32cByte (c : Nat) (b : Byte) : Nat :=
  (List.range 8).foldl (fun a _ => crc32cBit a) (c ^^^ b.toNat)

/-- CRC-32C (R409). -/
def crc32c (b : Bytes) : Nat := (b.foldl crc32cByte 0xFFFFFFFF) ^^^ 0xFFFFFFFF

/-- The round constants of SHA-256. -/
def shaK : List U32 :=
  [0x428a2f98, 0x71374491, 0xb5c0fbcf, 0xe9b5dba5, 0x3956c25b, 0x59f111f1, 0x923f82a4, 0xab1c5ed5] ++
  [0xd807aa98, 0x12835b01, 0x243185be, 0x550c7dc3, 0x72be5d74, 0x80deb1fe, 0x9bdc06a7, 0xc19bf174] ++
  [0xe49b69c1, 0xefbe4786, 0x0fc19dc6, 0x240ca1cc, 0x2de92c6f, 0x4a7484aa, 0x5cb0a9dc, 0x76f988da] ++
  [0x983e5152, 0xa831c66d, 0xb00327c8, 0xbf597fc7, 0xc6e00bf3, 0xd5a79147, 0x06ca6351, 0x14292967] ++
  [0x27b70a85, 0x2e1b2138, 0x4d2c6dfc, 0x53380d13, 0x650a7354, 0x766a0abb, 0x81c2c92e, 0x92722c85] ++
  [0xa2bfe8a1, 0xa81a664b, 0xc24b8b70, 0xc76c51a3, 0xd192e819, 0xd6990624, 0xf40e3585, 0x106aa070] ++
  [0x19a4c116, 0x1e376c08, 0x2748774c, 0x34b0bcb5, 0x391c0cb3, 0x4ed8aa4a, 0x5b9cca4f, 0x682e6ff3] ++
  [0x748f82ee, 0x78a5636f, 0x84c87814, 0x8cc70208, 0x90befffa, 0xa4506ceb, 0xbef9a3f7, 0xc67178f2]

/-- Message schedule word 16 and later, from the last sixteen words (newest first). -/
def shaNext (w : List U32) : U32 :=
  let a := w.getD 14 0
  let b := w.getD 1 0
  w.getD 15 0 + (a.rotateRight 7 ^^^ a.rotateRight 18 ^^^ a >>> 3) + w.getD 6 0
    + (b.rotateRight 17 ^^^ b.rotateRight 19 ^^^ b >>> 10)

/-- The working variables. -/
structure Sha where
  a : U32
  b : U32
  c : U32
  d : U32
  e : U32
  f : U32
  g : U32
  h : U32
  deriving DecidableEq, Repr

/-- One round. -/
def shaRound (s : Sha) (k w : U32) : Sha :=
  let t1 := s.h + (s.e.rotateRight 6 ^^^ s.e.rotateRight 11 ^^^ s.e.rotateRight 25)
    + ((s.e &&& s.f) ^^^ (~~~ s.e &&& s.g)) + k + w
  let t2 := (s.a.rotateRight 2 ^^^ s.a.rotateRight 13 ^^^ s.a.rotateRight 22)
    + ((s.a &&& s.b) ^^^ (s.a &&& s.c) ^^^ (s.b &&& s.c))
  ⟨t1 + t2, s.a, s.b, s.c, s.d + t1, s.e, s.f, s.g⟩

/-- The rounds over the constants; `w` holds the words still to come, `l` the last sixteen. -/
def shaRounds : List U32 → List U32 → List U32 → Sha → Sha
  | [], _, _, s => s
  | k :: ks, x :: w, l, s => shaRounds ks w ((x :: l).take 16) (shaRound s k x)
  | k :: ks, [], l, s =>
    let x := shaNext l
    shaRounds ks [] ((x :: l).take 16) (shaRound s k x)

/-- The sixteen big-endian words of a block. -/
def shaWords (b : Bytes) : List U32 :=
  (List.range 16).map fun i => BitVec.ofNat 32 (beNat (slice b (4 * i) 4))

/-- One 64-byte block. -/
def shaBlock (s : Sha) (b : Bytes) : Sha :=
  let t := shaRounds shaK (shaWords b) [] s
  ⟨s.a + t.a, s.b + t.b, s.c + t.c, s.d + t.d, s.e + t.e, s.f + t.f, s.g + t.g, s.h + t.h⟩

/-- `n` blocks of a padded message. -/
def shaBlocks : Nat → Bytes → Sha → Sha
  | 0, _, s => s
  | n + 1, b, s => shaBlocks n (b.drop 64) (shaBlock s (b.take 64))

/-- SHA-256, 32 bytes. -/
def sha256 (m : Bytes) : Bytes :=
  let p := m ++ [0x80] ++ List.replicate ((119 - m.length % 64) % 64) 0 ++ toBe 8 (8 * m.length)
  let s := shaBlocks (p.length / 64) p
    ⟨0x6a09e667, 0xbb67ae85, 0x3c6ef372, 0xa54ff53a, 0x510e527f, 0x9b05688c, 0x1f83d9ab, 0x5be0cd19⟩
  [s.a, s.b, s.c, s.d, s.e, s.f, s.g, s.h].flatMap fun x => toBe 4 x.toNat

/-- HMAC-SHA-256 with a key of at most 64 bytes. -/
def hmac (key m : Bytes) : Bytes :=
  let k := padTo 64 key
  sha256 (k.map (· ^^^ 0x5c) ++ sha256 (k.map (· ^^^ 0x36) ++ m))

/-! P-256 -/

/-- Field prime. -/
def p256P : Nat := 0xffffffff00000001000000000000000000000000ffffffffffffffffffffffff
/-- Group order. -/
def p256N : Nat := 0xffffffff00000000ffffffffffffffffbce6faada7179e84f3b9cac2fc632551
/-- Curve coefficient b. -/
def p256B : Nat := 0x5ac635d8aa3a93e7b3ebbd55769886bc651d06b0cc53b0f63bce3c3e27d2604b
/-- Base point. -/
def p256G : Nat × Nat :=
  (0x6b17d1f2e12c4247f8bce6e563a440f277037d812deb33a0f4a13945d898c296,
   0x4fe342e2fe1a7f9b8ee7eb4a7c0f9e162bce33576b315ececbb6406837bf51f5)

/-- `b ^ e` modulo `m`, over the low `k` bits of `e`. -/
def powMod (m : Nat) : Nat → Nat → Nat → Nat
  | 0, _, _ => 1 % m
  | k + 1, b, e =>
    let r := powMod m k (b * b % m) (e / 2)
    if e % 2 = 1 then r * b % m else r

/-- Inverse modulo a 256-bit prime. -/
def invMod (m a : Nat) : Nat := powMod m 256 (a % m) (m - 2)

/-- Sum of two points of the curve; `none` is the point at infinity. -/
def ecAdd : Option (Nat × Nat) → Option (Nat × Nat) → Option (Nat × Nat)
  | none, q => q
  | p, none => p
  | some (x1, y1), some (x2, y2) =>
    let p := p256P
    if x1 = x2 ∧ (y1 + y2) % p = 0 then none
    else
      let l := if x1 = x2 then (3 * x1 * x1 + (p - 3)) * invMod p (2 * y1) % p
        else (y2 + p - y1) * invMod p (x2 + p - x1) % p
      let x := (l * l + 2 * p - x1 - x2) % p
      some (x, (l * (x1 + p - x) + p - y1) % p)

/-- `k` times a point, over the low `n` bits of `k`. -/
def ecMul : Nat → Nat → Option (Nat × Nat) → Option (Nat × Nat)
  | 0, _, _ => none
  | n + 1, k, q =>
    let r := ecMul n (k / 2) (ecAdd q q)
    if k % 2 = 1 then ecAdd q r else r

/-- A point lies on the curve. -/
def onCurve (x y : Nat) : Bool :=
  decide (x < p256P) && decide (y < p256P) &&
    y * y % p256P == (x * x * x + (p256P - 3) * x + p256B) % p256P

/-- ECDSA P-256 verification of a hash: key X then Y, signature r then s, little-endian (R108, R454). -/
def ecdsaVerify (key hash sig : Bytes) : Bool :=
  let x := field key 0 32
  let y := field key 32 32
  let r := field sig 0 32
  let s := field sig 32 32
  let w := invMod p256N s
  onCurve x y && decide (0 < r ∧ r < p256N ∧ 0 < s ∧ s < p256N) &&
    (match ecAdd (ecMul 256 (beNat hash * w % p256N) (some p256G)) (ecMul 256 (r * w % p256N) (some (x, y))) with
      | some (px, _) => px % p256N == r
      | none => false)

/-- ECDSA P-256 signature of a hash with a private key and a nonce drawn from the noise source. -/
def ecdsaSign (priv hash nonce : Bytes) : Bytes :=
  let k := leNat nonce % (p256N - 1) + 1
  let r := match ecMul 256 k (some p256G) with
    | some (x, _) => x % p256N
    | none => 0
  let s := invMod p256N k * (beNat hash + r * leNat priv) % p256N
  toLe 32 r ++ toLe 32 s

/-- The public key of a private key, X then Y. -/
def ecPublic (priv : Bytes) : Bytes :=
  match ecMul 256 (leNat priv) (some p256G) with
  | some (x, y) => toLe 32 x ++ toLe 32 y
  | none => List.replicate 64 0

end Sys2Proof.Machine
end

