-- ==== Sys2Proof/Machine/Records.lean ====
section
/-! DEFINITION. Stamps, event and cycle records on their way into the staging FIFO, and the statistics words
(R407 to R435). -/

namespace Sys2Proof.Machine

/-- What the block sends (log 4). -/
def emit (o : Output) (c : Core) : Core := { c with out := o :: c.out }

/-- The next free value, and the core that has drawn it (log 5). -/
def draw (c : Core) : U64 × Core := (Config.freeValue c.free, { c with free := c.free + 1 })

/-- Bytes of the noise source, and the core that has drawn them (log 5). -/
def drawNoise (c : Core) : Bytes × Core := (Config.noise c.free, { c with free := c.free + 1 })

/-- The record stamp (R407). -/
def stampOf (c : Core) : Nat := c.nv.cycles * 2 ^ 42 + c.nv.opMs % 2 ^ 42

/-- Codes that are not rate limited (R421). -/
def codeFree (code : Nat) : Bool := code == 0x001 || code == 0x002 || code == 0x0B0 || code == 0x0B1

/-- Severity of the codes assigned by the controller (R415, R452, the tamper table). -/
def codeSev (code : Nat) : Option Nat :=
  if [0x001, 0x002, 0x074, 0x0C1, 0x0C2, 0x0C4, 0x0C5, 0x0D5].contains code then some 4
  else if [0x005, 0x011, 0x041, 0x042, 0x043, 0x050, 0x051, 0x061, 0x063, 0x070, 0x071, 0x072, 0x081, 0x083,
      0x084, 0x090, 0x091, 0x093, 0x094, 0x0B2, 0x0C0, 0x0D1, 0x0D3].contains code then some 3
  else if [0x003, 0x004, 0x006, 0x010, 0x023, 0x030, 0x040, 0x053, 0x060, 0x062, 0x073, 0x080, 0x092, 0x0A0,
      0x0B0, 0x0B1, 0x0B3, 0x0C3, 0x0D2].contains code then some 2
  else if [0x012, 0x020, 0x021, 0x022, 0x052, 0x082, 0x095, 0x0A1, 0x0D0, 0x0D4].contains code then some 1
  else none

/-- Severity of a record's code (R414, R423). -/
def sevOf (c : Core) (code : Nat) : Nat :=
  if code < 0x100 then (codeSev code).getD 0
  else bitsOf (img16 (cfgOf c) (secRec + 2 * code)) 14 12

/-- RATE of a code (R423). -/
def rateOf (c : Core) (code : Nat) : Nat :=
  match c.run.cfg with
  | none => 255
  | some m => img8 m (secRec + 2 * code)

/-- BURST of a code (R423). -/
def burstOf (c : Core) (code : Nat) : Nat :=
  match c.run.cfg with
  | none => 15
  | some m => bitsOf (img16 m (secRec + 2 * code)) 11 8

/-- The level of a code's bucket in units (R420). -/
def levelOf (c : Core) (code : Nat) : Nat := burstOf c code * 60000 - tget 0 c.recd.used code

/-- One more suppression (R415, R422). -/
def countSuppr (ms : Nat) (x : SupprSt) : SupprSt :=
  { count := x.count + 1, firstMs := if x.count = 0 then ms else x.firstMs, lastMs := ms }

/-! Statistics words (R433, R434), by portal × 1280 + word -/

/-- Value of a statistics word at manufacture (R434). -/
def statDefault (k : Nat) : Nat :=
  let w := k % 1280
  if w < 1024 then 0
  else
    let e := (w - 1024) / 4
    let maxi := e < 8 || (16 ≤ e && e < 40 && ((e - 16) % 8 < 4 || (e - 16) % 8 == 5))
    let mini := (8 ≤ e && e < 16) || (16 ≤ e && e < 40 && (e - 16) % 8 == 4)
    if w % 4 = 0 then (if maxi then 0x80000000 else if mini then 0x7FFFFFFF else 0)
    else if w % 4 = 1 then 0xFFFFFFFF else 0

/-- A word of the working copy, stored as its difference from the value at manufacture. -/
def statGet (t : Table Nat) (k : Nat) : Nat := tget 0 t k ^^^ statDefault k

/-- Write a word of the working copy. -/
def statSet (t : Table Nat) (k v : Nat) : Table Nat := tset 0 t k (v ^^^ statDefault k)

/-- One saturating increment of a statistics word. -/
def statInc (p w : Nat) (c : Core) : Core :=
  { c with recd.stats := statSet c.recd.stats (p * 1280 + w) (satAdd 0xFFFFFFFF (statGet c.recd.stats (p * 1280 + w)) 1) }

/-- One more in bin `j` of histogram `h` (R433). -/
def histAdd (p h j : Nat) (c : Core) : Core := statInc p (64 * h + min j 63) c

/-- One more in total or count entry `e`, with the stamp of the update (R434). -/
def totalAdd (p e : Nat) (c : Core) : Core :=
  let c := statInc p (1024 + 4 * e) c
  let k := p * 1280 + 1024 + 4 * e
  let s := stampOf c
  { c with recd.stats := statSet (statSet c.recd.stats (k + 2) (s % 2 ^ 32)) (k + 3) (s / 2 ^ 32) }

/-- Write entry `e` with the current stamp and the journal slot that set it. -/
def entrySet (p e : Nat) (v : Int) (slot : Nat) (c : Core) : Core :=
  let k := p * 1280 + 1024 + 4 * e
  let s := stampOf c
  { c with recd.stats := statSet (statSet (statSet (statSet c.recd.stats k (unsigned 32 v)) (k + 1) slot)
      (k + 2) (s % 2 ^ 32)) (k + 3) (s / 2 ^ 32) }

/-- A new maximum, if it is one (R434). -/
def entryMax (p e : Nat) (v : Int) (slot : Nat) (c : Core) : Core :=
  if signed 32 (statGet c.recd.stats (p * 1280 + 1024 + 4 * e)) < v then entrySet p e v slot c else c

/-- A new minimum, if it is one (R434). -/
def entryMin (p e : Nat) (v : Int) (slot : Nat) (c : Core) : Core :=
  if v < signed 32 (statGet c.recd.stats (p * 1280 + 1024 + 4 * e)) then entrySet p e v slot c else c

/-! The staging FIFO (R425, R426) -/

/-- Lowest severity queued. -/
def lowestSev (l : List Staged) : Nat := l.foldl (fun a r => min a r.sev) 5

/-- Remove the newest record of severity `v`; the list is oldest first. -/
def dropNewest (v : Nat) (l : List Staged) : List Staged :=
  (l.reverse.eraseP fun r => r.sev == v).reverse

/-- The newest record of severity `v`. -/
def newestOf (v : Nat) (l : List Staged) : Option Staged := l.reverse.find? fun r => r.sev == v

/-- Count a record that the FIFO lost (R426). -/
def countLost (r : Staged) (c : Core) : Core :=
  if r.cycle then totalAdd (byteAt r.bytes 8) 61 c
  else { c with recd.drops := tmod {} c.recd.drops r.code (countSuppr c.nv.opMs) }

/-- Stage a record, displace a lower one for it, or drop it (R425, R426, R68). -/
def stage (r : Staged) (c : Core) : Core :=
  let f := c.recd.fifo
  if c.recd.powerFail && r.sev < 4 then countLost r c
  else if f.length < (if r.sev < 4 then 248 else 256) then { c with recd.fifo := f ++ [r] }
  else
    let v := lowestSev f
    if v < r.sev then
      let c' := match newestOf v f with
        | some x => countLost x c
        | none => c
      { c' with recd.fifo := dropNewest v f ++ [r] }
    else countLost r c

/-- The 32 bytes of an event record (R413, R409). -/
def eventBytes (stamp code src sev : Nat) (ps : List Nat) : Bytes :=
  let b := toLe 8 stamp ++ toLe 2 code ++ toLe 1 src ++ toLe 1 sev
    ++ toLe 4 (ps.getD 0 0) ++ toLe 4 (ps.getD 1 0) ++ toLe 4 (ps.getD 2 0) ++ toLe 4 (ps.getD 3 0)
  b ++ toLe 4 (crc32c b)

/-- Stage an event record that its bucket has admitted. -/
def stageEvent (code src sev : Nat) (ps : List Nat) (slot : Option Nat) (c : Core) : Core :=
  stage { cycle := false, sev, code, bytes := eventBytes (stampOf c) code src sev ps, slot } c

/-- An event record of a given severity: the bucket first, then the FIFO (R420, R421). A failed recorder
writes none (R36), and a stopped event log takes none (R431). -/
def eventAt (sev code src : Nat) (ps : List Nat) (c : Core) (slot : Option Nat := none) : Core :=
  if c.recd.failed || c.recd.stoppedE then c
  else if codeFree code then stageEvent code src sev ps slot c
  else if 60000 ≤ levelOf c code then
    stageEvent code src sev ps slot { c with recd.used := tset 0 c.recd.used code (tget 0 c.recd.used code + 60000) }
  else { c with recd.refused := tmod {} c.recd.refused code (countSuppr c.nv.opMs) }

/-- An event record with the severity of its code. -/
def event (code src : Nat) (ps : List Nat) (c : Core) : Core := eventAt (sevOf c code) code src ps c

/-- Buckets refilled at a FRAME (R420). -/
def refill (c : Core) : Core :=
  { c with recd.used := c.recd.used.filterMap fun e =>
      let u := e.2 - rateOf c e.1
      if u = 0 then none else some (e.1, u) }

/-- A new BURST takes effect: the level stays, and is cut at the new burst (R420, R119). -/
def rebaseBuckets (old : Core) (c : Core) : Core :=
  { c with recd.used := tmake 0 1024 fun code => burstOf c code * 60000 - min (levelOf old code) (burstOf c code * 60000) }

end Sys2Proof.Machine
end

