-- ==== Sys2Proof/Machine/Opcodes.lean ====
section
/-! DEFINITION. The host's opcodes: the table of R114, the operands of R115 with their ranges, and how an
operation ends (R110, R122). -/

namespace Sys2Proof.Machine

/-- Kind of an opcode (R113). -/
inductive OpKind where
  | actuate | modify | read
  deriving DecidableEq, Repr

/-- Direction of an opcode's data (R113). -/
inductive OpData where
  | none | reads | writes
  deriving DecidableEq, Repr

/-- A row of R114. -/
structure OpInfo where
  modes : List Mode
  kind : OpKind
  data : OpData := .none
  auth : Bool := false
  deriving DecidableEq, Repr

/-- The opcode table (R114). ROLE_REQUEST and KEY_INSTALL are authenticated as `opAuth` says. -/
def opInfo (op : Nat) : Option OpInfo :=
  let all : List Mode := [.safeTalk, .provision, .shadow, .service, .workshop, .lockout]
  let sw : List Mode := [.service, .workshop]
  let psw : List Mode := [.provision, .service, .workshop]
  match op with
  | 0x01 => some { modes := all, kind := .read }
  | 0x10 | 0x11 | 0x12 | 0x18 => some { modes := sw, kind := .actuate }
  | 0x20 | 0x21 => some { modes := psw, kind := .modify, data := .reads }
  | 0x22 => some { modes := sw, kind := .modify, data := .reads }
  | 0x23 | 0x24 | 0x25 | 0x40 => some { modes := sw, kind := .modify }
  | 0x30 | 0x31 | 0x7F => some { modes := all, kind := .read, data := .writes }
  | 0x32 => some { modes := [.provision, .shadow, .service, .workshop, .lockout], kind := .read }
  | 0x38 | 0x48 => some { modes := [.workshop], kind := .actuate }
  | 0x50 => some { modes := [.workshop], kind := .actuate, auth := true }
  | 0x58 => some { modes := sw, kind := .actuate }
  | 0x60 => some { modes := [.provision, .workshop], kind := .modify, data := .reads }
  | 0x61 => some { modes := [.provision, .workshop], kind := .modify, auth := true }
  | 0x62 => some { modes := [.provision, .shadow, .service, .workshop, .lockout], kind := .read, data := .writes }
  | 0x70 => some { modes := [.shadow, .service, .workshop, .lockout], kind := .read }
  | _ => none

/-- A descriptor must be authenticated (R114): LOCKOUT_RESET and LIFECYCLE_ADVANCE always, ROLE_REQUEST with
target WORKSHOP, KEY_INSTALL in WORKSHOP. -/
def opAuth (mode : Mode) (d : Bytes) : Bool :=
  match byteAt d 0 with
  | 0x50 | 0x61 => true
  | 0x58 => byteAt d 8 == 2
  | 0x60 => mode == .workshop
  | _ => false

/-- The descriptor may carry AUTH (R108, R114): an authenticated opcode, in some mode or for some target. -/
def opMayAuth (mode : Mode) (d : Bytes) : Bool := opAuth mode d

/-- Offsets from 8 to 39 that an operand of the opcode occupies (R115). -/
def opOccupied (op : Nat) : List Nat :=
  match op with
  | 0x01 | 0x32 => [8, 9, 10, 11, 12, 13, 14, 15]
  | 0x10 => [8, 9, 10, 11, 12, 13]
  | 0x11 => [8, 9, 10]
  | 0x12 => [8, 12, 13]
  | 0x18 => [8, 9, 10, 11, 12, 13]
  | 0x21 | 0x60 | 0x61 | 0x70 | 0x7F | 0x58 => [8]
  | 0x23 | 0x24 | 0x25 => [8, 9]
  | 0x30 => [8, 12, 13, 14, 15, 16, 17, 18, 19]
  | 0x31 => [8, 9]
  | 0x38 => [8, 9, 12, 13, 14, 15, 16, 17]
  | 0x40 => [8, 9, 10]
  | 0x48 => [8, 9, 10, 11]
  | 0x50 => [8, 9, 10, 11]
  | _ => []

/-- The reserved bytes of the descriptor are 0 (R5, R105, R115). -/
def descReserved (d : Bytes) : Bool :=
  byteAt d 1 < 4 && (List.range 32).all fun i =>
    (opOccupied (byteAt d 0)).contains (8 + i) || byteAt d (8 + i) == 0

/-- The slots of KEY_INSTALL (R460). -/
def keySlot (n : Nat) : Bool := n == 1 || (16 ≤ n && n ≤ 31) || (32 ≤ n && n ≤ 35) || n == 48

/-- Offset of the first operand out of the range of R115 or R460, if any. -/
def opRange (d : Bytes) : Option Nat :=
  let f (o n : Nat) := field d o n
  let chk (l : List (Nat × Bool)) : Option Nat := (l.find? fun e => !e.2).map (·.1)
  match byteAt d 0 with
  | 0x10 => chk [(8, f 8 2 < 4096), (10, 1 ≤ f 10 1 && f 10 1 ≤ 4), (11, f 11 1 < 8 || f 11 1 == 255),
      (12, f 12 2 ≤ 6000)]
  | 0x11 => chk [(8, f 8 2 < 4096), (10, f 10 1 == 1 || f 10 1 == 2)]
  | 0x12 => chk [(8, f 8 1 ≤ 14), (12, f 12 2 ≤ 6000)]
  | 0x18 => chk [(8, f 8 2 < 8192), (10, (f 10 2) &&& 0x800F == 0), (12, (f 12 2) &&& 0x800F == 0 && (f 10 2) &&& (f 12 2) == 0)]
  | 0x21 => chk [(8, f 8 1 ≤ 12)]
  | 0x23 | 0x24 | 0x25 => chk [(8, f 8 2 < 4096)]
  | 0x30 => chk [(8, f 8 1 ≤ 2), (16, f 16 4 ≤ 1048576)]
  | 0x31 => chk [(8, f 8 1 < 12), (9, f 9 1 < 2)]
  | 0x38 => chk [(8, f 8 1 < 36), (9, f 9 1 == 1 || f 9 1 == 2), (16, 1 ≤ f 16 2 && f 16 2 ≤ 1000)]
  | 0x40 => chk [(8, f 8 1 < 12), (9, f 9 1 < 4), (10, 1 ≤ f 10 1 && f 10 1 ≤ 64)]
  | 0x48 => chk [(8, f 8 1 < 144), (9, f 9 1 ≤ 2), (10, 1 ≤ f 10 2 && f 10 2 ≤ 36000)]
  | 0x50 => chk [(8, f 8 2 < 4096), (10, f 10 2 < 4096)]
  | 0x58 => chk [(8, 1 ≤ f 8 1 && f 8 1 ≤ 3)]
  | 0x60 => chk [(8, keySlot (f 8 1))]
  | 0x61 => chk [(8, f 8 1 ≤ 4)]
  | 0x70 => chk [(8, f 8 1 ≤ 1)]
  | 0x7F => chk [(8, 1 ≤ f 8 1 && f 8 1 ≤ 7)]
  | _ => none

/-- Portals that a descriptor addresses (R111), as a mask of 12 bits. STATS_READ only reads what is stored of its portal and
addresses none (DESIGN CHOICE, log 32). -/
def opPortals (d : Bytes) : Nat :=
  match byteAt d 0 with
  | 0x10 | 0x11 => field d 8 2
  | 0x18 => field d 8 2 % 4096
  | 0x38 => 2 ^ (byteAt d 8 / 3)
  | 0x40 => 2 ^ byteAt d 8
  | 0x50 => field d 8 2 ||| field d 10 2
  | _ => 0

/-- DATA_LEN. -/
def opLen (d : Bytes) : Nat := field d 48 4
/-- DATA_ADDR. -/
def opAddr (d : Bytes) : Nat := field d 40 8

/-- Bytes of a DIAG_READ item (R48, R102, R223, R354, R385, R402, R453). -/
def diagSize (item : Nat) : Nat :=
  match item with
  | 1 => 64
  | 2 => 192
  | 3 => 1152
  | 4 => 64
  | 5 => 800
  | 6 => 64
  | 7 => 69248
  | _ => 0

/-- The length rule of R115 holds. -/
def opLenOk (d : Bytes) : Bool :=
  let n := opLen d
  match byteAt d 0 with
  | 0x20 => n ≤ 2 ^ 26
  | 0x21 => n ≤ 2 ^ 19
  | 0x22 => n ≤ 2 ^ 20
  | 0x30 => if field d 16 4 = 0 then n == 0 else n == 0 || 32 * field d 16 4 ≤ n
  | 0x31 => n == 0 || (if byteAt d 9 = 0 then 4096 else 1024) ≤ n
  | 0x60 =>
    let k := byteAt d 8
    if k == 1 then 64 ≤ n && n ≤ 832 else if 32 ≤ k && k ≤ 35 then n == 64 else if keySlot k then n == 32 else true
  | 0x62 => n == 0 || 1024 ≤ n
  | 0x7F => n == 0 || diagSize (byteAt d 8) ≤ n
  | _ => true

/-! Slots and their ends -/

/-- The operation in a slot. -/
def slotAt (c : Core) (k : Nat) : Option SlotSt := tget none c.host.slots k

/-- Write a slot. -/
def setSlot (k : Nat) (x : Option SlotSt) (c : Core) : Core :=
  { c with host.slots := tset none c.host.slots k x }

/-- The operation in a slot ends (R110): its status, detail and results, stamped now. A slot that is free or
has ended already keeps what it has. Slots from 512 up hold what a standby executes for its active: they end
without a completion (R112, log 16). -/
def finish (k st detail r0 r1 : Nat) (c : Core) : Core :=
  match slotAt c k with
  | some x =>
    if x.done.isSome then c
    else if 512 ≤ k then setSlot k none c
    else
      let t := BitVec.ofNat 64 (stampOf c)
      let e : DoneSt := ⟨st, detail, r0, r1, t, c.nv.epoch, c.host.finished⟩
      setSlot k (some { x with done := some e }) { c with host.finished := c.host.finished + 1 }
  | none => c

/-- The operation in a slot runs: opcode `op` was dispatched and has not ended. -/
def running (c : Core) (k op : Nat) : Bool :=
  match slotAt c k with
  | some x => x.done.isNone && byteAt x.desc 0 == op
  | none => false

/-- Slots from 512 up are those of an active's operations on its standby. -/
def carriedSlot (c : Core) : Nat := ((List.range 1024).map (512 + ·)).find? (fun k => (slotAt c k).isNone) |>.getD 1536

/-- The slots whose operation runs, in slot order. -/
def liveSlots (c : Core) : List (Nat × SlotSt) :=
  c.host.slots.filterMap fun e => match e.2 with
    | some x => if x.done.isNone then some (e.1, x) else none
    | none => none

/-- The opcode of a slot's operation; 0 for BAD_DESCRIPTOR (R110). -/
def slotOp (x : SlotSt) : Nat := byteAt x.desc 0

end Sys2Proof.Machine
end

