-- ==== Sys2Proof/Machine/Ops.lean ====
section
/-! DEFINITION. The operations that commands share: codes, parts of operations, faults, mode changes, resets,
the hold-up flush, and the entries into SAFE_TALK and LOCKOUT. -/

namespace Sys2Proof.Machine

/-! ### Codes -/

/-- Mode codes (R35). -/
def modeCode : Mode → Nat
  | .selftest => 1
  | .safeTalk => 2
  | .provision => 3
  | .shadow => 4
  | .service => 5
  | .workshop => 6
  | .parked => 7
  | .lockout => 8

/-- Reset kind codes (R60). -/
def resetCode : ResetKind → Nat
  | .por => 1
  | .bor => 2
  | .pin => 3
  | .soft => 4
  | .parked => 5

/-- Rank of a requested reset, lower first (R62). -/
def resetRank (k : ResetKind) : Nat := resetCode k

/-- Life-cycle codes (R59). -/
def lcCode : LifeCycle → Nat
  | .blank => 0
  | .provisioned => 1
  | .field => 2
  | .returned => 3
  | .scrapped => 4

/-- Life-cycle state of a code (R59). -/
def lcOf : Nat → LifeCycle
  | 0 => .blank
  | 1 => .provisioned
  | 2 => .field
  | 3 => .returned
  | _ => .scrapped

/-- Role codes (R355). -/
def roleCode : Role → Nat
  | .none => 0
  | .active => 1
  | .standby => 2
  | .solo => 3

/-- The role that a mode implies, with a twin that has reported STANDBY or without (R355). -/
def roleIn (m : Mode) (twinStandby : Bool) : Role :=
  match m with
  | .service | .workshop => if twinStandby then .active else .solo
  | .lockout => .solo
  | .shadow => .standby
  | _ => .none

/-- The twin has reported role STANDBY in a HELLO within the last 2 ms, that is 16 ticks (R355). -/
def twinStandby (c : Core) : Bool := decide (c.twin.helloAge < 16)

/-- A standby that takes its inputs from its active: a synchronised one (R371), and one that has applied a base
snapshot and follows the active until the first snapshot compares equal (R378, log 18). -/
def standbyIn (c : Core) : Bool := c.sys.mode == .shadow && (c.twin.synced || c.twin.resync == 2)

/-- The role follows the mode (R355). -/
def setRole (c : Core) : Core := { c with twin.role := roleIn c.sys.mode (twinStandby c) }

/-- The unit holds the claim (R355). -/
def claiming (c : Core) : Bool := c.twin.role == .active || c.twin.role == .solo

/-- `e` is lower than `f` (R364). -/
def epochLower (e f : U16) : Bool := let d := (f - e).toNat; 1 ≤ d && d ≤ 32767

/-- The unit takes a new role epoch (R363). -/
def takeEpoch (c : Core) : Core :=
  let own := c.nv.epoch
  let twin := c.twin.epoch.getD own
  let m := (if epochLower own twin then twin else own) + 1
  { c with nv.epoch := if m = 0 then 1 else m }

/-! ### The time base (R24 to R26) -/

/-- The count and its readers take a value (R25): the upper part is loaded as at enabling. -/
def loadCount (v : Nat) (c : Core) : Core :=
  { c with
    tb.count := BitVec.ofNat 64 v
    tb.readers := tmake {} 14 fun _ => { upper := v / 2 ^ 19, low := v / 8 % 2 ^ 16 } }

/-- A reader follows the count from `old` to `new`: it samples at least once every 262 µs, so it sees each fall of the low
part, and steps its upper part each time (R25). -/
def followCount (old new : Nat) (r : ReaderSt) : ReaderSt :=
  { upper := r.upper + (new / 2 ^ 19 - old / 2 ^ 19), low := new / 8 % 2 ^ 16 }

/-- The count reaches the instant `ns` of a strobe (R24, R26): it never runs backwards. -/
def countTo (ns : Nat) (c : Core) : Core :=
  let old := c.tb.count.toNat
  if old < ns && ns < 2 ^ 64 then
    { c with
      tb.count := BitVec.ofNat 64 ns
      tb.readers := tmake {} 14 fun i => followCount old ns (tget {} c.tb.readers i) }
  else c

/-- The time base as island `i` of R11 reads it (R25). -/
def readTb (i : Nat) (c : Core) : Nat :=
  let r := tget {} c.tb.readers i
  r.upper * 2 ^ 19 + r.low * 8

/-- Islands of R11 that read the time base, in the order of its table. -/
def islHost : Nat := 0
def islSafeA : Nat := 5
def islSafeB : Nat := 6
def islMot : Nat := 3
def islTwin : Nat := 8

/-- Index of the tick that runs (R8, R26). -/
def tickNow (c : Core) : Nat := c.tb.count.toNat / 125000

/-- The time base starts (R24, R52); its readers are enabled (R25). -/
def startCount (c : Core) : Core :=
  if c.tb.running then c else loadCount c.tb.count.toNat { c with tb.running := true }

/-- A unit that is no standby disciplines nothing, and an exchange does not outlive its roles (R27, R380, log 18);
synchronised is a state of a standby only (R355). -/
def endDiscipline (m : Mode) (c : Core) : Core :=
  if m = .shadow then { c with tb.t4 := 0 }
  else
    { c with
      tb := { c.tb with offs := [], avg := 0, drift := 0, slew := 0, t12 := none, t3 := 0 }
      twin.synced := false }

/-! ### Messages to the twin (R356, R365, R366) -/

/-- PAIRED of the twin section; a unit without an image has no twin (R356). -/
def paired (c : Core) : Bool := c.run.cfg.any fun m => img8 m (secTwin + 1) == 1

/-- UNIT_ID (R356). -/
def unitId (c : Core) : Nat := img8 (cfgOf c) secTwin

/-- The next MSEQ of a TYPE (R366). -/
def nextMseq (type : Nat) (c : Core) : U32 × Core :=
  let q := tget 0 c.twin.txSeq type
  (q, { c with twin.txSeq := tset 0 c.twin.txSeq type (q + 1) })

/-- SENDER (R366). -/
def senderByte (c : Core) : Nat :=
  unitId c % 2 + 2 * roleCode c.twin.role + 8 * b2n (unsynced c) + 16 * modeCode c.sys.mode

/-- The 24-byte header of a message with `len` bytes of payload (R366). -/
def twinHeader (c : Core) (type : Nat) (mseq : U32) (len : Nat) : Bytes :=
  toLe 1 type ++ toLe 1 (senderByte c) ++ toLe 2 c.nv.epoch.toNat ++ toLe 4 mseq.toNat
    ++ toLe 8 (tickNow c) ++ toLe 4 len ++ toLe 4 0

/-- A message with its header and CRC (R366). -/
def twinMessage (c : Core) (type : Nat) (mseq : U32) (payload : Bytes) : Bytes :=
  let b := twinHeader c type mseq payload.length ++ payload
  b ++ toLe 4 (crc32c b)

/-- The twin link can carry messages: the unit is paired, a lane is up, and no flush has stopped transmission
(R356, R365, R66). -/
def twinUp (c : Core) : Bool := paired c && c.twin.lanes != 0 && !c.sys.txOff && !c.sys.inReset

/-- Send a message whose payload is bytes; both lanes carry it (R365). -/
def twinSend (type : Nat) (payload : Bytes) (c : Core) : Core :=
  if twinUp c then
    let (q, c') := nextMseq type c
    emit (.twinBytes type (twinMessage c type q payload)) c'
  else c

/-- A claiming unit that stops claiming names its last claimed tick, where time permits (R367). -/
def relinquish (c : Core) : Core := if claiming c then twinSend 0x15 (toLe 8 (c.tb.tick - 1)) c else c

/-- A piece of PAGE or IMAGE takes its MSEQ and waits for its turn in the schedule (R366, R368). -/
def twinQueue (type : Nat) (payload : Bytes) (c : Core) : Core :=
  if twinUp c then
    let (q, c') := nextMseq type c
    { c' with twin.txPieces := c'.twin.txPieces ++ [(type, q, payload)] }
  else c

/-! ### Parts of an operation (R116, R123) -/

/-- Status order of R123. -/
def partOrder : List Nat := [0x23, 0x42, 0x41, 0x30, 0x40, 0x01]

/-- The first part, in portal order, that ended with a status; parts hold status × 256 + detail. -/
def partWith (t : Table Nat) (st : Nat) : Option (Nat × Nat) :=
  (t.find? fun e => e.2 / 256 == st).map fun e => (e.1, e.2 % 256)

/-- Status and detail of an operation from its parts (R122, R123). -/
def partsStatus (t : Table Nat) : Nat × Nat :=
  match partOrder.filterMap fun st => (partWith t st).map fun e => (st, e) with
  | [] => (0, 0)
  | (st, (p, d)) :: _ => (st, if st == 0x23 || st == 0x42 then p else d)

/-- Mask of the parts that ended otherwise. -/
def endedMask (t : Table Nat) : Nat := t.foldl (fun a e => a + 2 ^ e.1) 0

/-- Every part has ended. -/
def partsDone (x : SlotSt) : Bool :=
  (List.range 12).all fun p => !pbit x.mask p || pbit x.reached p || (x.ended.any fun e => e.1 == p)

/-- Complete an operation whose parts have all ended (R123); PORTAL_STOP reports only the portals at rest. -/
def closeParts (k : Nat) (c : Core) : Core :=
  match slotAt c k with
  | some x =>
    if x.done.isNone && x.started && partsDone x then
      let s := partsStatus x.ended
      finish k s.1 s.2 x.reached.toNat (if slotOp x = 0x11 then 0 else endedMask x.ended) c
    else c
  | none => c

/-- A part of the operation in slot `k` has not ended. -/
def partOpen (x : SlotSt) (p : Nat) : Bool :=
  x.started && x.done.isNone && pbit x.mask p && !pbit x.reached p && !(x.ended.any fun e => e.1 == p)

/-- End portal `p`'s part of the operation in slot `k`. -/
def endPart (k p st detail : Nat) (c : Core) : Core :=
  match slotAt c k with
  | some x =>
    if partOpen x p then
      closeParts k (setSlot k (some { x with ended := tput x.ended p (st * 256 + detail) }) c)
    else c
  | none => c

/-- Portal `p`'s part has reached its target. -/
def reachPart (k p : Nat) (c : Core) : Core :=
  match slotAt c k with
  | some x =>
    if partOpen x p then closeParts k (setSlot k (some { x with reached := setBit x.reached p true }) c)
    else c
  | none => c

/-- End every open part of the operation in slot `k`, or the operation itself where it has no parts. -/
def endAll (k st detail : Nat) (c : Core) : Core :=
  match slotAt c k with
  | some x =>
    if (slotOp x == 0x10 || slotOp x == 0x11) && x.started then
      (List.range 12).foldl (fun c p => endPart k p st detail c) c
    else finish k st detail 0 0 c
  | none => c

/-- An accepted operation of kind A or M, and TIME_ANNOTATE, reaches the standby through the input frame of
this tick (R112, R114). -/
def carryOp (d : Bytes) (c : Core) : Core :=
  let op := byteAt d 0
  let kind := (opInfo op).map OpInfo.kind
  if c.twin.role == .active && (kind == some .actuate || kind == some .modify || op == 0x32) then
    let q := if op == 0x20 || op == 0x21 || op == 0x22 then tget 0 c.twin.txSeq 0x13 else 0
    { c with twin.carry := c.twin.carry ++ [{ opcode := op, operands := slice d 8 32, imgSeq := q }] }
  else c

/-- An earlier operation of the same flow has not been dispatched (R94). -/
def earlierWaits (c : Core) (x : SlotSt) : Bool :=
  (liveSlots c).any fun e => e.2.flow == x.flow && e.2.gen == x.gen && !e.2.started && epochLower e.2.sqIndex x.sqIndex

/-- While the twin is in SHADOW, at most 32 operations are taken for one tick (R370); TIME_ANNOTATE, which OPS carries too, is
one of them (R369, log 18). -/
def heldBack (c : Core) (op : Nat) : Bool :=
  let kind := (opInfo op).map OpInfo.kind
  c.twin.role == .active && (kind == some .actuate || kind == some .modify || op == 0x32) && decide (32 ≤ c.twin.carry.length)

/-- The start of the operation in a slot, once, in SQ index order (R94): opcode `op` was accepted there, has not
started and has not ended. Its descriptor, and the core in which it has started. -/
def opening (k op : Nat) (c : Core) : Option (Bytes × Core) :=
  match slotAt c k with
  | some x =>
    if running c k op && !x.started && !earlierWaits c x && !heldBack c op then
      some (x.desc, carryOp x.desc (setSlot k (some { x with started := true, visible := c.seq.now + 1 }) c))
    else none
  | none => none

/-- Start an operation whose effect lies in the core. -/
def startOp (k op : Nat) (f : Bytes → Core → Core) (c : Core) : Core :=
  match opening k op c with
  | some (d, c') => f d c'
  | none => c

/-- Start an operation whose effect reaches other groups of the state. -/
def startOpS (k op : Nat) (f : Bytes → State → State) (s : State) : State :=
  match opening k op s.core with
  | some (d, c) => f d { s with core := c }
  | none => s

/-- The data that an operation has read (R113). -/
def opRead (c : Core) (k : Nat) : HostRead :=
  match slotAt c k with
  | some x => x.data
  | none => none

/-- The host port issues requests (R76). -/
def portUp (c : Core) : Bool := c.bar.bme && c.bar.linkUp && !c.sys.inReset

/-- The pieces of at most 4 KiB into which a transfer is cut (R98). -/
def bulkPieces (addr : Nat) (b : Bytes) : List (Nat × Bytes) :=
  (List.range ((b.length + 4095) / 4096)).map fun i => (addr + 4096 * i, (b.drop (4096 * i)).take 4096)

/-- A write to host memory, piece by piece (R98); none leaves while the port issues no requests (R76). -/
def hostWrite (addr : Nat) (b : Bytes) (c : Core) : Core :=
  if portUp c then (bulkPieces addr b).foldl (fun c e => emit (.hostWrite e.1 e.2) c) c else c

/-- The longest read request: 512 B, or the programmed Max Read Request Size where that is smaller (R72). -/
def readMax (c : Core) : Nat := min 512 c.bar.mrrs

/-- The read requests of a transfer of rank 7, none longer than permitted; a piece of 4 KiB holds a whole number of them
(R72, R98). -/
def hostReads (addr len : Nat) (c : Core) : Core :=
  let n := max 1 (readMax c)
  (List.range ((len + n - 1) / n)).foldl (fun c i => emit (.hostRead (addr + n * i) (min n (len - n * i))) c) c

/-- Host data of the length that was asked for; any other answer is a host read failure (R75, log 9). -/
def ofLength (n : Nat) (d : HostRead) : HostRead := d.filter fun b => b.length == n

/-- Count in DIAG_READ item 0x01 at an offset (R102). -/
def hpCount (off : Nat) (c : Core) : Core :=
  { c with host.counters := tmod 0 c.host.counters off (· + 1) }

/-- Host flags of a channel. -/
def setHf (n bit : Nat) (b : Bool) (c : Core) : Core :=
  let h := tget {} c.seq.channels n
  { c with seq.channels := tset {} c.seq.channels n { h with hf := setBit h.hf bit b } }

/-- Some open PORTAL_REQUEST part holds host flag `bit` of portal `p` (R116). -/
def flagHeld (c : Core) (p bit : Nat) : Bool :=
  (liveSlots c).any fun e => slotOp e.2 == 0x10 && partOpen e.2 p && decide (e.2.visible ≤ c.seq.now + 1)
    && byteAt e.2.desc 10 == bit + 1

/-- Clear the request flags of a portal that no open part holds (R116). -/
def dropFlags (p : Nat) (c : Core) : Core :=
  (List.range 4).foldl (fun c b => if flagHeld c p b then c else setHf p b false c) c

/-! ### Faults (R315 to R322) -/

/-- A fault on its way to the fault manager. -/
def raise (code portal object : Nat) (c : Core) : Core :=
  { c with seq.faultQ := c.seq.faultQ ++ [{ code, portal, object }] }

/-- Fault classes (R315). -/
inductive FClass where
  | report | degraded | lockedOut | lockout
  deriving DecidableEq, Repr

/-- Class of a fault (R317); portal 255 stands for no portal. -/
def faultClass (f : FaultRec) : FClass :=
  if [0x101, 0x103, 0x104, 0x105, 0x107, 0x202, 0x203, 0x205, 0x401].contains f.code then .lockedOut
  else if [0x102, 0x106, 0x204, 0x206, 0x301].contains f.code then .degraded
  else if [0x201, 0x302, 0x303].contains f.code then (if f.portal < 12 then .degraded else .report)
  else if 0x207 ≤ f.code && f.code ≤ 0x20C then (if f.object < 4 then .lockout else .lockedOut)
  else if f.code == 0x405 then .lockout
  else .report

/-- The fault manager sets a portal lock-out latch: the first cause stands (R318, R319). -/
def setPortalLatch (p code : Nat) (c : Core) : Core :=
  let l := tget {} c.nv.latches p
  let c := { c with seq.setLatch := setBit c.seq.setLatch p true }
  if l.set then c
  else { c with nv.latches := tset {} c.nv.latches p ⟨true, code, BitVec.ofNat 64 (stampOf c)⟩ }

/-- The device lock-out latch is set: the first cause stands (R318). -/
def setDevLatch (code : Nat) (c : Core) : Core :=
  if c.nv.dev.set then c else { c with nv.dev := ⟨true, code, BitVec.ofNat 64 (stampOf c)⟩ }

/-- The first DEGRADED fault of a portal that is neither DEGRADED nor LOCKED_OUT (R316, R322). -/
def setDegraded (p code : Nat) (c : Core) : Core :=
  if (tget {} c.nv.degraded p).on || lockedOut c p then c
  else { c with nv.degraded := tset {} c.nv.degraded p { on := true, cause := code } }

/-- The FAULT record of a fault (R316). -/
def recordFault (f : FaultRec) (c : Core) : Core :=
  let sev := match faultClass f with
    | .lockedOut | .lockout => 4
    | _ => 3
  eventAt sev 0x070 0x03 [f.code + f.portal * 65536, f.object] c

/-- The effect of a fault's class (R315, R316). -/
def applyClass (f : FaultRec) (c : Core) : Core :=
  match faultClass f with
  | .report => c
  | .degraded => if f.portal < 12 then setDegraded f.portal f.code c else c
  | .lockedOut => if f.portal < 12 then setPortalLatch f.portal f.code c else c
  | .lockout =>
    let c := setDevLatch f.code c
    if f.code == 0x405 then c
    else if stepsIn c.sys.mode then { c with sys.wantLockout := some (c.sys.wantLockout.getD f.code) } else c

/-- The fault manager applies one fault: its record, then its class (R316). -/
def applyFault (f : FaultRec) (c : Core) : Core := applyClass f (recordFault f c)

/-- A reset has been triggered: its flush runs, and no other transition is taken (R40). -/
def resetting (c : Core) : Bool := c.sys.flush.any fun f => !f.toParked

/-! ### Bank power by mode (R446) -/

/-- Power of a bank in a mode. -/
def bankPower (m : Mode) (b : Nat) : BankPower :=
  match m with
  | .safeTalk => if b < 18 then .off else .on
  | .parked => if b = 19 then .on else .retention
  | _ => .on

/-- A bank takes its state; a bank that goes Off loses its contents. -/
def setBankPower (p : BankPower) (b : BankSt) : BankSt :=
  if p = .off then { b with power := .off, words := [], checks := [], wb := [], hot := [] } else { b with power := p }

/-- Every bank takes the state of the mode. -/
def powerBanks (m : Mode) (c : Core) : Core :=
  { c with mem.banks := (List.range 24).foldl (fun t b => tmod {} t b (setBankPower (bankPower m b))) c.mem.banks }

/-! ### Mode changes (R36 to R40, R124) -/

/-- An operation may go on in a mode (R114, R124). -/
def opGoesOn (m : Mode) (op : Nat) : Bool :=
  match opInfo op with
  | some i => i.modes.contains m
  | none => true

/-- The operation of opcode `op` in a slot still runs. -/
def stillRuns (c : Core) (op : Nat) (k : Option Nat) : Option Nat := k.filter fun j => running c j op

/-- What has been waiting for an operation that has ended forgets it. -/
def forgetEnded (c : Core) : Core :=
  { c with
    seq.carSlot := stillRuns c 0x12 c.seq.carSlot
    seq.forces := c.seq.forces.filter fun e => e.2.any fun f => running c f.slot 0x48
    seq.masters := (List.range 12).foldl (fun t p => tmod {} t p fun m =>
      { m with
        slot := stillRuns c 0x38 m.slot
        waiting := m.waiting.filter fun r => r.manual.isNone || (stillRuns c 0x38 r.slot).isSome
        granted := m.granted.filter fun g => g.req.manual.isNone || (stillRuns c 0x38 g.req.slot).isSome }) c.seq.masters
    seq.obst := (List.range 12).foldl (fun t p => tmod {} t p fun o =>
      { o with armed := if (stillRuns c 0x40 o.opSlot).isSome then o.armed else 0, opSlot := stillRuns c 0x40 o.opSlot }) c.seq.obst
    cam.waits := c.cam.waits.filter fun e => running c e.1 0x23 || running c e.1 0x24 }

/-- The slot of a LOCKOUT_RESET whose masks the islands hold: after the return to SERVICE on the key's release it ends as the
islands answer, within 10 safety ticks (R331). -/
def clearSlot (c : Core) : Option Nat := if c.sys.mode == .service then c.seq.clearReq.map (·.slot) else none

/-- Operations not permitted in the new mode end with PREEMPTED and the new mode code (R124); a forced output returns
to its owner with its operation (R353). -/
def preempt (c : Core) : Core :=
  let k := clearSlot c
  let c := forgetEnded ((liveSlots c).foldl (fun c e =>
    if opGoesOn c.sys.mode (slotOp e.2) || k == some e.1 then c else endAll e.1 0x40 (modeCode c.sys.mode) c) c)
  { c with seq.clearReq := if c.sys.mode == .service || c.sys.mode == .workshop then c.seq.clearReq else none }

/-- A mode change: its record (R36), its cause (R37), the role (R355), the banks (R446), and the operations
that end with it (R124). -/
def changeMode (m : Mode) (cause kind p1 : Nat) (c : Core) : Core :=
  let old := if kind = 0 then modeCode c.sys.mode else c.sys.oldMode
  let c := event 0x001 0x00 [old + modeCode m * 256 + cause * 65536 + kind * 2 ^ 24, p1] c
  let keep := m == .safeTalk || m == .lockout
  let c := { c with sys.mode := m, sys.cause := if keep then cause else c.sys.cause }
  preempt (powerBanks m (setRole (endDiscipline m c)))

/-! ### Resets (R60 to R64) -/

/-- The kinds that lose the set-up registers and count a power cycle (R64). -/
def hardReset (k : ResetKind) : Bool := k == .por || k == .bor || k == .pin

/-- The cam cache at a PARKED exit keeps its resident pages (R64); page state 3. -/
def keepResident (t : Table PageSt) : Table PageSt := t.filter fun e => e.2.state == 3

/-- What a bank keeps at a PARKED exit: its words, as they were stored (R64, R453). -/
def keepBank (b : BankSt) : BankSt := { words := b.words, checks := b.checks }

/-- What R242 names for portal `p` in an image: KF, M_EFF, STROKE, CPS, DIR and the obstacle block. -/
def baselineKey (m : Image) (p : Nat) : Bytes :=
  imgSlice m (secObst + 128 * p) 128 ++ ([0, 1, 2].flatMap fun a =>
    let o := secAxis + 64 + 64 * (3 * p + a)
    imgSlice m (o + 48) 2 ++ imgSlice m (o + 8) 4 ++ [BitVec.ofNat 8 (img8 m (o + 1) % 2)]
      ++ imgSlice m (secMot + 1024 * p + 528 + 32 * a) 4)

/-- An image takes effect: the baselines of a portal for which it changes what R242 names are no longer valid. -/
def keepBaselines (old new : Option Image) (c : Core) : Core :=
  let same := (List.range 12).filter fun p => baselineKey (old.getD {}) p == baselineKey (new.getD {}) p
  { c with nv.valid := c.nv.valid.filter fun e => same.contains (e.1 / 2) }

/-- The causes of the ONYX_WIPED records that a reset finds staged: they are written at the next mode entry (R455). -/
def stagedWipes (c : Core) : List Nat :=
  (c.recd.fifo.filter fun r => !r.cycle && r.code == 0x0C2).map fun r => field r.bytes 12 4

/-- The tamper-alarm flag after a reset: it stays while an ALARM source is active, which no command tells: a free value (R464,
log 21). -/
def alarmHeld (c : Core) : Bool × Core :=
  if c.sys.tamperAlarm then let d := draw c; (d.1.getLsbD 0, d.2) else (false, c)

/-- What the logic die keeps across a reset (R64): at PARKED the SRAM banks, with the records still staged. The stored images become the images in effect (R481). -/
def resetCore (k : ResetKind) (c : Core) : Core :=
  let valid := if c.nv.cfg == c.run.cfg then c.nv.valid else (keepBaselines c.run.cfg c.nv.cfg c).nv.valid
  { sys := {
      cause := if hardReset k then 0 else c.sys.cause
      resetKind := k
      oldMode := if c.sys.inReset then c.sys.oldMode else modeCode c.sys.mode
      inReset := true
      vholdCharged := c.sys.vholdCharged && (k != .por && k != .bor)
      tamperAlarm := (alarmHeld c).1
      wipedRec := c.sys.wipedRec ++ if k == .parked then [] else stagedWipes c
      scrub := k == .parked }
    nv := { c.nv with valid, cycles := if hardReset k then min 0x3FFFFE (c.nv.cycles + 1) else c.nv.cycles }
    run := { cfg := c.nv.cfg, progs := c.nv.progs, dir := c.nv.dir }
    recd := { stats := c.nv.stats, fifo := if k == .parked then c.recd.fifo else [] }
    bar := if hardReset k then {} else c.bar
    cam := if k == .parked then { pages := keepResident c.cam.pages } else {}
    mem := if k == .parked then { banks := c.mem.banks.map fun e => (e.1, keepBank e.2) } else {}
    out := c.out
    free := (alarmHeld c).2.free }

/-- What an island keeps across a reset: its private MRAM (R64, R271). -/
def resetIsl (i : IslSt) : IslSt := { dev := i.dev, latches := i.latches, isolated := i.isolated }

/-- A reset occurs within the blocks being filled (R416). -/
def markReset (t : Stores) : Stores :=
  { t with rstJ := t.rstJ || decide (t.wJ % 128 ≠ 0), rstE := t.rstE || decide (t.wE % 128 ≠ 0) }

/-- The field die across a reset (R65, R352): its reset input follows POR, BOR and PIN; at a PARKED exit it leaves PARKED. -/
def resetDie (k : ResetKind) (d : DieSt) : DieSt :=
  if hardReset k then { noSupply := d.noSupply } else { d with parked := false, wake := none, wakePrev := [], badCmd := 0, silences := 0 }

/-- The state after a reset of a kind, held in reset (R64, R65). -/
def resetTo (k : ResetKind) (s : State) : State :=
  { s with
    store := markReset s.store
    die := resetDie k s.die
    isa := resetIsl s.isa
    isb := resetIsl s.isb
    core := resetCore k s.core }

/-- The higher-ranked of two requested resets (R62). -/
def higherReset (a b : ResetKind) : ResetKind := if resetRank b < resetRank a then b else a

/-- Every switch of an island opens at once and stays open (R66, R68). -/
def holdOpen (i : IslSt) : IslSt := { i with heldOpen := true, closed := 0, closing := [] }

/-- The hold-up flush starts, or a running one takes the higher-ranked kind (R62, R68): transmission stops, the
safety outputs open, no descriptor is fetched, a POWER_FAIL record takes its entry and only safety-class
records follow it. -/
def startFlush (k : ResetKind) (toParked : Bool) (vhold : Option Nat) (s : State) : State :=
  match s.core.sys.flush with
  | some f =>
    { s with core.sys.flush := some { kind := higherReset f.kind k, toParked := f.toParked && higherReset f.kind k == .parked } }
  | none =>
    let (v, c) := match vhold with
      | some v => (v, s.core)
      | none => let d := draw s.core; (d.1.toNat % 65536, d.2)
    let c := relinquish c
    let c := event 0x002 0x00 [v] { c with sys.flush := some { kind := k, toParked }, sys.txOff := true }
    { s with isa := holdOpen s.isa, isb := holdOpen s.isb, core := { c with recd.powerFail := true } }

/-! ### LOCKOUT, and what SAFE_TALK shares with it (R44, R52, R53) -/

/-- Every switch of an island opens as its mode changes to SAFE_TALK. -/
def islSafeTalk (i : IslSt) : IslSt := { i with mode := .safeTalk, closed := 0, closing := [] }

/-- Every axis is OFF with zero duty. -/
def axesAllOff (c : Core) : Core :=
  { c with seq.axes := (List.range 36).foldl (fun t x => tmod {} t x fun a =>
      { a with st := .off, dutyU := 32768, dutyV := 32768, dutyW := 32768 }) c.seq.axes }

/-- The core's part of the entry into LOCKOUT (R44): the mode change; a unit that did not hold the claim takes
it with a new epoch (R361, R363). -/
def lockoutCore (cause p1 : Nat) (c : Core) : Core :=
  let was := claiming c
  let c := changeMode .lockout cause 0 p1 { c with twin.synced := false, sys.wsRelease := false, sys.wantLockout := none, sys.erased := false, sys.eraseAge := 0 }
  if was then c else takeEpoch c

/-- The unit enters LOCKOUT; the islands learn of it, and of the device latch where a fault set it, through the crossing from
SEQ (R44, R272, R319). -/
def enterLockout (cause p1 : Nat) (s : State) : State :=
  if resetting s.core then s
  else { s with
    isa := { s.isa with lockout := true, inDev := s.core.nv.dev, mode := .lockout }
    isb := { s.isb with lockout := true, inDev := s.core.nv.dev, mode := .lockout }
    core := lockoutCore cause p1 s.core }

end Sys2Proof.Machine
end

