-- ==== Sys2Proof/Machine/Flags.lean ====
section
/-! DEFINITION. The portal status word (R152) and the status payloads built from it (R59, R100). -/

namespace Sys2Proof.Machine

/-- A MANUAL_MOVE runs on an axis of the portal (R150). -/
def manualAt (c : Core) (p : Nat) : Bool :=
  let m := tget {} c.seq.masters p
  m.run && m.kind == .manual

/-- A START_MOVE of the portal waits for its page, which the cache does not hold (R148, R152). -/
def camWaitAt (c : Core) (p : Nat) : Bool :=
  match (tget {} c.seq.masters p).waiting with
  | some r => r.manual.isNone && r.age.isNone && !(c.cam.pages.any fun e => (e.2.state == 2 || e.2.state == 3) && e.2.table == r.table)
  | none => false

/-- The portal is DEGRADED (R322). -/
def degradedAt (c : Core) (p : Nat) : Bool := (tget {} c.nv.degraded p).on

/-- The portal status word (R152). -/
def statusWord (c : Core) (p : Nat) : Nat :=
  motionOf c p + b2n (degradedAt c p) * 2 ^ 8 + b2n (isolatedAt c p) * 2 ^ 9 + b2n (lockedOut c p) * 2 ^ 10
    + b2n (tget {} c.seq.channels p).obstacle * 2 ^ 11 + b2n (manualAt c p) * 2 ^ 12 + b2n (camWaitAt c p) * 2 ^ 13
    + b2n (pbit c.seq.topaz.heatWarn p || pbit c.seq.topaz.heatCrit p) * 2 ^ 14 + b2n (unsynced c) * 2 ^ 15

/-- The 24 bytes of the portal status words of P0 to P11. -/
def statusWords (c : Core) : Bytes := ((List.range 12).map fun p => toLe 2 (statusWord c p)).flatten

/-- The status payload of the service port (R59). -/
def statusPayload (c : Core) : Bytes :=
  toLe 1 (modeCode c.sys.mode) ++ toLe 1 c.sys.cause ++ toLe 1 (lcCode c.nv.lc) ++ toLe 1 (roleCode c.twin.role)
    ++ toLe 1 (resetCode c.sys.resetKind) ++ toLe 1 c.sys.stLast ++ [0, 0] ++ toLe 8 (stampOf c) ++ statusWords c
    ++ toLe 4 (b2n c.sys.vholdCharged + 2 * b2n (devLatched c) + 4 * b2n c.sys.hostLost + 8 * b2n (unsynced c)
      + 16 * b2n c.sys.tamperAlarm)

/-- Lock group of a portal, if any (R269). -/
def lockGroup (m : Image) (p : Nat) : Option Nat :=
  let g := img8 m (secTopaz + 64 + 64 * p)
  if bitOf g 3 then some (g % 8) else none

/-! ### Frames of the service port (R56, R57) -/

/-- A frame of the service port, with its CRC (R56). -/
def svcFrame (addr type seq : Nat) (payload : Bytes) : Bytes :=
  let b := toLe 1 addr ++ toLe 1 type ++ toLe 1 seq ++ toLe 2 payload.length ++ payload
  [0xA5] ++ b ++ toLe 2 (crc16 b)

/-- The unsolicited status frame; it counts its own SEQ. -/
def sendStatus (c : Core) : Core :=
  emit (.service (svcFrame c.nv.svcAddr 0x01 c.sys.svcSeq (statusPayload c)))
    { c with sys.svcSeq := (c.sys.svcSeq + 1) % 256, sys.svcWait := none }

/-- A millisecond of the service port: a frame that waits leaves once the bus has been idle for 5 ms (R57). -/
def svcMs (c : Core) : Core :=
  match c.sys.svcWait with
  | some (n + 1) => if n = 0 then sendStatus c else { c with sys.svcWait := some n }
  | _ => c

end Sys2Proof.Machine
end

