-- ==== Sys2Proof/Machine/TwinTx.lean ====
section
/-! DEFINITION. What a unit sends to its twin (R356, R366 to R369, R372), and how a load completes in a pair (R119). -/

namespace Sys2Proof.Machine

/-! ### INPUT (R369) -/

/-- Numbers of 2 bits, packed from the least significant end. -/
def pack2 (n : Nat) (t : Table Nat) : Nat := (List.range n).foldl (fun a k => a + tget 0 t k % 4 * 4 ^ k) 0

/-- The numbers of a packed field. -/
def unpack2 (n v : Nat) : Table Nat := tmake 0 n fun k => v / 4 ^ k % 4

/-- CV_EXT of one channel. -/
def cvBytes (v : BitVec 128) : Bytes := toLe 6 v.toNat ++ toLe 1 (v.toNat / 2 ^ 104) ++ toLe 1 (v.toNat / 2 ^ 120 % 4)

/-- The bits of CV_EXT at an offset. -/
def cvFrom (b : Bytes) (o : Nat) : BitVec 128 :=
  BitVec.ofNat 128 (field b o 6 + byteAt b (o + 6) * 2 ^ 104 + byteAt b (o + 7) % 4 * 2 ^ 120)

/-- An AXIS entry. -/
def inAxisBytes (a : InAxis) : Bytes :=
  toLe 2 (unsigned 16 a.idc) ++ toLe 2 a.vdc ++ toLe 2 a.vdcMin ++ toLe 2 a.meanI ++ toLe 4 a.drawn ++ toLe 4 a.regen
    ++ toLe 1 (unsigned 8 a.temp) ++ [0, 0, 0]

/-- The AXIS entry at an offset. -/
def inAxisFrom (b : Bytes) (o : Nat) : InAxis where
  idc := signed 16 (field b o 2)
  vdc := field b (o + 2) 2
  vdcMin := field b (o + 4) 2
  meanI := field b (o + 6) 2
  drawn := field b (o + 8) 4
  regen := field b (o + 12) 4
  temp := signed 8 (byteAt b (o + 16))

/-- An OPS entry with its place in the delivery order. -/
def inOpBytes (o : InOp) (order : Nat) : Bytes :=
  toLe 1 o.opcode ++ toLe 1 order ++ [0, 0] ++ padTo 32 o.operands ++ toLe 4 o.imgSeq.toNat

/-- The OPS entry at an offset. -/
def inOpFrom (b : Bytes) (o : Nat) : InOp :=
  { opcode := byteAt b o, operands := slice b (o + 4) 32, imgSeq := BitVec.ofNat 32 (field b (o + 36) 4) }

/-- The payload of INPUT (R369). -/
def inputBytes (f : InputFrame) : Bytes :=
  let ops := f.ops.take 32
  let faults := f.faults.take 16
  ((List.range 13).flatMap fun n => cvBytes (tget 0 f.cv n)) ++ toLe 36 (pack2 144 f.field) ++ toLe 4 (pack2 9 f.groups)
    ++ toLe 2 f.te.toNat ++ [0, 0] ++ toLe 8 f.nonvalid.toNat ++ ((List.range 36).flatMap fun x => inAxisBytes (tget {} f.axis x))
    ++ toLe 1 ops.length ++ toLe 1 faults.length ++ toLe 2 (b2n f.lockout)
    ++ padTo 1280 (ops.zipIdx.flatMap fun e => inOpBytes e.1 e.2)
    ++ padTo 64 (faults.flatMap fun e => toLe 2 e.code ++ toLe 1 e.portal ++ toLe 1 e.object)

/-- Bytes of the payload of INPUT. -/
def inputLen : Nat := 2224

/-- What a payload of INPUT says; its operations in delivery order (R369, R371). -/
def inputFrom (b : Bytes) : InputFrame where
  cv := tmake 0 13 fun n => cvFrom b (8 * n)
  field := unpack2 144 (field b 104 36)
  groups := unpack2 9 (field b 140 4)
  te := BitVec.ofNat 12 (field b 144 2)
  nonvalid := BitVec.ofNat 36 (field b 148 8)
  axis := tmake {} 36 fun x => inAxisFrom b (156 + 20 * x)
  ops := (List.range 32).filterMap fun i =>
    ((List.range (min 32 (byteAt b 876))).find? fun k => byteAt b (881 + 40 * k) == i).map fun k => inOpFrom b (880 + 40 * k)
  faults := (List.range (min 16 (byteAt b 877))).map fun k =>
    { code := field b (2160 + 4 * k) 2, portal := byteAt b (2162 + 4 * k), object := byteAt b (2163 + 4 * k) }
  lockout := bitOf (byteAt b 878) 0

/-! ### SNAPSHOT (R372) -/

/-- Bytes of the payload of SNAPSHOT. -/
def snapLen : Nat := 46992

/-- The sections of the payload: offset and size. The coding inside each belongs to the die revision (R372); the model carries
their content as the fields of `Snapshot` (log 18). -/
def snapSections : List (Nat × Nat) :=
  [(0, 64), (64, 832), (896, 1536), (2432, 2304), (4736, 38400), (43136, 2048), (45184, 256), (45440, 1024), (46464, 528)]

/-! ### HELLO (R367) -/

/-- First 8 bytes of the SHA-256 of an image. -/
def hash8 (m : Option Image) : Bytes :=
  match m with
  | some m => (sha256 (imgBytes m)).take 8
  | none => List.replicate 8 0

/-- First 8 bytes of the SHA-256 of the 13 running programs in channel order. -/
def progHash8 (c : Core) : Bytes := (sha256 ((List.range 13).flatMap fun n => imgBytes (progOf c n))).take 8

/-- The unit's HELLO (R367). -/
def helloOf (c : Core) : Hello where
  serial := Config.serial
  dieRev := Config.dieRev
  linkPort := img8 (cfgOf c) secAxis
  step := c.sys.stStep
  cfgHash := hash8 c.run.cfg
  progHash := progHash8 c
  dirHash := hash8 c.run.dir

/-- HELLO goes out. -/
def sendHello (c : Core) : Core :=
  let m := helloOf c
  twinSend 0x01 (toLe 8 m.serial.toNat ++ toLe 4 m.dieRev.toNat ++ toLe 1 m.linkPort ++ toLe 1 m.step ++ [0, 0]
    ++ m.cfgHash ++ m.progHash ++ m.dirHash) c

/-! ### Pieces (R367, R368) -/

/-- A transfer cut into pieces of at most 4 096 bytes: offset and data (R367). -/
def piecesFrom : Nat → Nat → Bytes → List (Nat × Bytes)
  | 0, _, _ => []
  | n + 1, o, b => if b.isEmpty then [] else (o, b.take 4096) :: piecesFrom n (o + 4096) (b.drop 4096)

/-- Pieces of a transfer. -/
def pieces (b : Bytes) : List (Nat × Bytes) := piecesFrom (b.length / 4096 + 1) 0 b

/-- A verified page goes to the standby with its page number (R194, R367). -/
def sendPage (page table : Nat) (b : Bytes) (c : Core) : Core :=
  (pieces b).foldl (fun c e =>
    twinQueue 0x12 (toLe 1 page ++ [0, 0, 0] ++ toLe 2 table ++ [0, 0] ++ toLe 4 e.1 ++ e.2) c) c

/-- An image goes to the standby (R119, R367, R379): kind 1 configuration, 2 program, 3 directory. -/
def sendImage (kind chan : Nat) (b : Bytes) (c : Core) : Core :=
  (pieces b).foldl (fun c e =>
    twinQueue 0x13 (toLe 1 kind ++ toLe 1 chan ++ [0, 0] ++ toLe 4 b.length ++ toLe 4 e.1 ++ e.2) c) c

/-- The unit is ACTIVE and its twin reports a synchronised STANDBY (R355, R366). -/
def standbySynced (c : Core) : Bool :=
  c.twin.role == .active && (c.twin.peer.any fun h => h.1.role == .standby && !h.1.unsynced)

/-- The standby holds the active's pages, or is receiving them (R194, R378). -/
def standbyFollows (c : Core) : Bool := standbySynced c || (claiming c && c.twin.resync != 0)

/-- Pieces that a tick other than that of a FRAME has room for: of 4 KiB each, from 17 µs to 120 µs (R365, R368, log 18). -/
def piecesPerTick : Nat := 15

/-- The pieces of a tick go out in their order (R368); PAGE pieces are counted (R385). -/
def sendPieces (c : Core) : Core :=
  if twinUp c then
    (c.twin.txPieces.take piecesPerTick).foldl (fun c e =>
      let c := if e.1 = 0x12 then { c with twin.counters := tmod 0 c.twin.counters 24 (· + 1) } else c
      emit (.twinBytes e.1 (twinMessage c e.1 e.2.1 e.2.2)) c) { c with twin.txPieces := c.twin.txPieces.drop piecesPerTick }
  else c

/-- A load has been stored: in a pair the standby stores it too, or the operation completes with OK_PARTIAL (R119). -/
def loadDone (k kind chan : Nat) (b : Bytes) (r0 r1 : Nat) (c : Core) : Core :=
  if !paired c then finish k 0x00 0 r0 r1 c
  else if standbySynced c then finish k 0x00 0 r0 r1 (sendImage kind chan b c)
  else finish k 0x01 0x01 r0 r1 c

end Sys2Proof.Machine
end

