-- ==== Sys2Proof/Machine/Cams.lean ====
section
/-! DEFINITION. Cam tables, the library directory, the cam cache and its pager (R180 to R194). -/

namespace Sys2Proof.Machine

/-! ### Cam tables (R180, R181) -/

/-- A point of a cam table; tracks are 0 leaf L, 1 leaf R, 2 step. -/
structure CamPt where
  m : Nat
  pos : List Int
  slope : List Int
  ev : Nat
  deriving DecidableEq, Repr

/-- A point from its 24 bytes (R181). -/
def camPt (b : Bytes) : CamPt where
  m := field b 0 4
  pos := [(field b 4 2 : Nat), (field b 8 2 : Nat), (field b 12 2 : Nat)]
  slope := [signed 16 (field b 6 2), signed 16 (field b 10 2), signed 16 (field b 14 2)]
  ev := byteAt b 16

/-- The first `n` points of a byte string. -/
def camPtsFrom : Nat → Bytes → List CamPt
  | 0, _ => []
  | n + 1, b => camPt (b.take 24) :: camPtsFrom n (b.drop 24)

/-- POINT_COUNT. -/
def camCount (t : Image) : Nat := img16 t 8
/-- TRACKS names track `a`, or the event track for 3. -/
def camTrack (t : Image) (a : Nat) : Bool := bitOf (img8 t 10) a
/-- Track `a` is cubic. -/
def camCubic (t : Image) (a : Nat) : Bool := bitOf (img8 t 11) a
/-- MASTER. -/
def camMaster (t : Image) : Nat := img8 t 12
/-- JOIN_TRACK. -/
def camJoin (t : Image) : Nat := img8 t 13
/-- M_END. -/
def camEnd (t : Image) : Nat := img32 t 16
/-- JOIN_BLEND. -/
def camBlend (t : Image) : Nat := img32 t 20
/-- PEAK_I. -/
def camPeak (t : Image) : Nat := img16 t 24
/-- HOLD_I. -/
def camHold (t : Image) : Nat := img16 t 26
/-- The points of a table. -/
def camPts (t : Image) : List CamPt := camPtsFrom (camCount t) (imgSlice t 64 (24 * camCount t))

/-- A property of each pair of neighbours. -/
def allPairs (f : CamPt → CamPt → Bool) : List CamPt → Bool
  | p :: q :: r => f p q && allPairs f (q :: r)
  | _ => true

/-- Track value and slope of a point. -/
def posOf (p : CamPt) (a : Nat) : Int := p.pos.getD a 0
/-- Stored slope of a point, in 1/256. -/
def slopeOf (p : CamPt) (a : Nat) : Int := p.slope.getD a 0

/-- A slope in a cubic interval of rise `P` over `h` keeps it monotonic (R183). -/
def slopeOk (P d : Int) (h : Nat) : Bool :=
  if P = 0 then d == 0
  else if 0 < P then decide (0 ≤ d) && decide (d * h ≤ 768 * P)
  else decide (d ≤ 0) && decide (768 * P ≤ d * h)

/-- The join track is monotonic (R183). -/
def joinOk (t : Image) (pts : List CamPt) (a : Nat) : Bool :=
  (allPairs (fun p q => decide (posOf p a ≤ posOf q a)) pts || allPairs (fun p q => decide (posOf q a ≤ posOf p a)) pts)
    && (!camCubic t a || allPairs (fun p q =>
      slopeOk (posOf q a - posOf p a) (slopeOf p a) (q.m - p.m) && slopeOk (posOf q a - posOf p a) (slopeOf q a) (q.m - p.m)) pts)

/-- The reserved bytes and unnamed fields of a point are 0 (R181). -/
def ptOk (t : Image) (b : Bytes) : Bool :=
  allZero (slice b 17 7) && byteAt b 16 < 64 && (camTrack t 3 || byteAt b 16 == 0) &&
    [0, 1, 2].all fun a =>
      (camTrack t a || allZero (slice b (4 + 4 * a) 4)) && (camCubic t a || field b (6 + 4 * a) 2 == 0)

/-- Every point of a byte string. -/
def ptsOk (t : Image) : Nat → Bytes → Bool
  | 0, _ => true
  | n + 1, b => ptOk t (b.take 24) && ptsOk t n (b.drop 24)

/-- The structure of a table: the reason code of R191 that refuses it, if any (R180, R181, R183). -/
def camReason (t : Image) (id : Nat) : Option Nat :=
  let n := camCount t
  let pts := camPts t
  let j := camJoin t
  if img32 t 0 ≠ 0x4D41434A || img16 t 4 ≠ 1 || img16 t 6 ≠ id then some 4
  else if n < 2 || 1362 < n || t.len ≠ 64 + 24 * n then some 5
  else if camEnd t < 1 || 16777215 < camEnd t || (pts.head?.map CamPt.m) ≠ some 0 || (pts.getLast?.map CamPt.m) ≠ some (camEnd t)
      || !allPairs (fun p q => decide (p.m < q.m)) pts then some 6
  else if 15 < img8 t 10 || 7 < img8 t 11 || 2 < camMaster t || !imgZero t 14 2 || camEnd t < camBlend t || 15 < img8 t 32
      || !imgZero t 33 31 || !([0, 1, 2].all fun a => camTrack t a || !camCubic t a)
      || !ptsOk t n (imgSlice t 64 (24 * n)) then some 7
  else if j = 255 then none
  else if 2 < j || !camTrack t j || !joinOk t pts j then some 8
  else none

/-! ### The directory (R184) -/

/-- Offset of entry `n`. -/
def dirEntry (n : Nat) : Nat := 64 + 48 * n
/-- PRESENT. -/
def dirPresent (d : Image) (n : Nat) : Bool := bitOf (img8 d (dirEntry n + 6)) 0
/-- RESIDENT. -/
def dirResident (d : Image) (n : Nat) : Bool := bitOf (img8 d (dirEntry n + 6)) 1
/-- LENGTH. -/
def dirLen (d : Image) (n : Nat) : Nat := img16 d (dirEntry n + 4)
/-- HASH. -/
def dirHash (d : Image) (n : Nat) : Bytes := imgSlice d (dirEntry n + 8) 32
/-- Resident tables, ascending. -/
def dirResidents (d : Image) : List Nat := (List.range 4096).filter fun n => dirPresent d n && dirResident d n

/-- A table's data passes page-in against its entry: `none`, or the reason (R190). -/
def pageReason (d : Image) (id : Nat) (b : Bytes) : Option Nat :=
  if sha256 b ≠ dirHash d id then some 3 else camReason (imgOf b) id

/-! ### The cache (R187, R189) -/

/-- The page that holds a table, resident or VALID. -/
def pageOf (c : Core) (id : Nat) : Option Nat :=
  (c.cam.pages.find? fun e => (e.2.state == 2 || e.2.state == 3) && e.2.table == id).map (·.1)

/-- The data of a table in the cache. -/
def camData (c : Core) (id : Nat) : Option Image := (pageOf c id).map fun k => (tget {} c.cam.pages k).data

/-- A table is in use by a portal channel or its running master (R187). -/
def inUseBy (c : Core) (p id : Nat) : Bool :=
  let h := tget {} c.seq.channels p
  let m := tget {} c.seq.masters p
  h.camPre == some id || h.camMove == some id || h.camSlow == some id || (m.run && m.kind != .manual && m.table == id)

/-- A table is in use (R187). -/
def camInUse (c : Core) (id : Nat) : Bool := (List.range 12).any fun p => inUseBy c p id

/-- The victim of a page-in (R189). -/
def victim (c : Core) : Option Nat :=
  match (List.range 64).find? fun k => (tget {} c.cam.pages k).state == 0 with
  | some k => some k
  | none =>
    let ok := (List.range 64).filter fun k =>
      let g := tget {} c.cam.pages k
      g.state == 2 && !g.pinned && !camInUse c g.table
    ok.foldl (fun a k => match a with
      | none => some k
      | some j => if (tget {} c.cam.pages k).lastUse < (tget {} c.cam.pages j).lastUse then some k else a) none

/-- Write a page. -/
def setPage (k : Nat) (g : PageSt) (c : Core) : Core := { c with cam.pages := tset {} c.cam.pages k g }

/-- A use of the page of a table stamps it (R189). -/
def touch (id : Nat) (c : Core) : Core :=
  match pageOf c id with
  | some k => setPage k { tget {} c.cam.pages k with lastUse := readTb islMot c } c
  | none => c

/-- Every page in use takes its stamp at a TICK (R189). -/
def touchAll (c : Core) : Core :=
  { c with cam.pages := c.cam.pages.map fun e =>
      if camInUse c e.2.table then (e.1, { e.2 with lastUse := readTb islMot c }) else e }

/-- Pinned pages. -/
def pins (c : Core) : Nat := (c.cam.pages.filter fun e => e.2.pinned).length

/-! ### Host operations on a page (R192) -/

/-- CAM_PREFETCH or CAM_PIN finds its table in the cache. -/
def camHit (k page : Nat) (pin : Bool) (c : Core) : Core :=
  let g := tget {} c.cam.pages page
  if pin && g.state ≠ 3 && !g.pinned then
    if 7 ≤ pins c then finish k 0x12 0x28 0 (pins c) c
    else
      let c := setPage page { g with pinned := true } c
      finish k 0x00 0 page (pins c) c
  else finish k 0x00 0 page (pins c) c

/-- Status and detail of an operation whose page-in failed (R191). -/
def camStatus (reason : Nat) : Nat × Nat :=
  if reason = 2 then (0x32, 0) else if reason = 3 then (0x31, 3) else (0x30, reason)

/-- Operations that wait for a table complete with its page. -/
def camServe (id page : Nat) (c : Core) : Core :=
  let l := c.cam.waits.filter fun e => e.2 == id
  l.foldl (fun c e => match slotAt c e.1 with
    | some x => camHit e.1 page (slotOp x == 0x24) c
    | none => c) { c with cam.waits := c.cam.waits.filter fun e => e.2 != id }

/-! ### Page-ins (R188, R190, R191) -/

/-- The page of the page-in in progress is FREE again, and none is in progress (R191). -/
def camDrop (c : Core) : Core :=
  match c.cam.cur with
  | some (_, page, _, _) => { c with cam := { c.cam with pages := tset {} c.cam.pages page {}, cur := none, retry := false } }
  | none => c

/-- A channel names a table with its latest PREFETCH or START_MOVE (R136); a refusal under R175 stands until it is another one. -/
def nameTable (id : Nat) (h : ChannelSt) : ChannelSt :=
  let kept := h.camRefused && h.camTable == some id
  { h with camTable := some id, camRefused := kept, camFault := kept }

/-- A table has been supplied: CAM_FAULT ends in the channels that it is named by (R136, R191), unless R175 refused it. -/
def camSupplied (id : Nat) (c : Core) : Core :=
  { c with seq.channels := (List.range 12).foldl (fun t p => tmod {} t p fun h =>
      if h.camTable = some id && !h.camRefused then { h with camFault := false } else h) c.seq.channels }

/-- A START_MOVE whose table fails page-in sets CAM_FAULT and starts nothing (R148). -/
def camRefuse (p id : Nat) (c : Core) : Core :=
  { c with
    seq.channels := tmod {} c.seq.channels p fun h => if h.camTable = some id then { h with camFault := true } else h
    seq.masters := tmod {} c.seq.masters p fun m =>
      { m with waiting := m.waiting.filter fun r => r.manual.isSome || r.age.isSome || r.table != id } }

/-- A page-in failed: the operations that waited for it end, the channels that named the table learn of it at their TICK, and nothing
that waited for it asks again (R148, R191). -/
def camTell (id reason : Nat) (c : Core) : Core :=
  let c := { c with cam := { c.cam with queue := c.cam.queue.filter (fun e => e.1 != id), failed := c.cam.failed ++ [id] } }
  let slow := (List.range 12).any fun p =>
    let h := tget {} c.seq.channels p
    h.camSlow == some id && h.camMove != some id
  let c := if slow then event 0x030 0x04 [id, reason] c else c
  let st := camStatus reason
  let l := c.cam.waits.filter fun e => e.2 == id
  l.foldl (fun c e => finish e.1 st.1 st.2 0 (pins c) c) { c with cam.waits := c.cam.waits.filter fun e => e.2 != id }

/-- The channels learn of the page-ins that have failed (R148, R191). -/
def camVerdicts (c : Core) : Core :=
  (c.cam.failed.filter fun id => (pageOf c id).isNone).foldl (fun c id => (List.range 12).foldl (fun c p => camRefuse p id c) c) { c with cam.failed := [] }

/-- A page-in of a table fails with a reason (R191). -/
def camFail (id reason : Nat) (c : Core) : Core := camTell id reason (camDrop c)

/-- The next waiting request: the sequencer's first, then the host's (R188). -/
def nextPageIn (c : Core) : Option (Nat × Option Nat) :=
  match c.cam.queue.find? fun e => e.2.isNone with
  | some e => some e
  | none => c.cam.queue.head?

/-- Start a page-in: it fails at once without a directory entry or access to the host; otherwise it takes its
page and reads (R189, R190, R191). -/
def startPageIn (id : Nat) (c : Core) : Core :=
  match c.run.dir with
  | none => camFail id 1 c
  | some d =>
    if !dirPresent d id then camFail id 1 c
    else if !portUp c || c.bar.lib = 0 then camFail id 2 c
    else match victim c with
      | none => c
      | some page =>
        let a := c.bar.lib.toNat + img32 d (dirEntry id)
        hostReads a (dirLen d id)
          { setPage page { state := 1, table := id } c with cam.cur := some (id, page, 1, a) }

/-- One waiting request is taken; a synchronised standby pages nothing for itself (R194). -/
def pagerStep (c : Core) : Core :=
  if c.cam.cur.isSome then c
  else match nextPageIn c with
    | none => c
    | some (id, k) =>
      let c := { c with cam.queue := c.cam.queue.erase (id, k) }
      match pageOf c id with
      | some page => camServe id page (touch id c)
      | none => startPageIn id c

/-- The pager serves requests until one is in progress or none waits (R188). -/
def pagerRun (c : Core) : Core := (List.range (c.cam.queue.length + 1)).foldl (fun c _ => pagerStep c) c

/-- A request for a table: a hit stamps its page, a page that is LOADING is joined, any other table waits (R188). A synchronised
standby pages nothing, and keeps the request for the time when it pages for itself (R194). -/
def pageRequest (id : Nat) (slot : Option Nat) (c : Core) : Core :=
  match pageOf c id with
  | some page =>
    let c := touch id c
    if slot.isSome then camServe id page c else c
  | none =>
    if (c.cam.cur.any fun e => e.1 == id) || c.cam.queue.contains (id, slot) then c
    else
      let c := { c with cam.queue := c.cam.queue ++ [(id, slot)] }
      if standbyIn c then c else pagerRun c

/-- The page-in in progress reads again, or fails after three attempts (R190). -/
def readFailed (c : Core) : Core :=
  match c.cam.cur with
  | some (id, page, n, a) =>
    let c := hpCount 36 c
    if 3 ≤ n then pagerRun (camFail id 2 c) else { c with cam.cur := some (id, page, n, a), cam.retry := true }
  | none => c

/-- The data of the page-in in progress arrives: verified, or refused with its reason (R190, R191). An ACTIVE unit
sends a verified page to its standby (R194). -/
def pageData (b : Bytes) (c : Core) : Core :=
  match c.cam.cur, c.run.dir with
  | some (id, page, _, _), some d =>
    match pageReason d id b with
    | some r => pagerRun (camFail id r c)
    | none =>
      let g : PageSt := { state := 2, table := id, lastUse := readTb islMot c, data := imgOf b }
      let c := camSupplied id (setPage page g { c with cam.cur := none, cam.retry := false })
      let c := if standbyFollows c then sendPage page id b c else c
      pagerRun (camServe id page c)
  | _, _ => c

/-- The page-in in progress awaits `b` bytes. -/
def pageLen (c : Core) (b : Bytes) : Bool :=
  match c.cam.cur, c.run.dir with
  | some (id, _, _, _), some d => b.length == dirLen d id
  | _, _ => true

/-- PAGE_IN (R190): the answer to the pager's read; no answer comes while a retry is waited for. Data of another length are a host
read failure (R75, log 9). -/
def execPageIn (data : HostRead) (s : State) : Host.Outcome State Fault Refusal :=
  .next (if s.core.cam.retry || s.core.cam.cur.isNone then s
    else match data.filter (pageLen s.core) with
      | none => { s with core := readFailed s.core }
      | some b => { s with core := pageData b s.core })

/-- The pager reads again, at least 1 ms after the failure (R190). -/
def pageRetry (c : Core) : Core :=
  match c.cam.cur with
  | some (id, page, n, a) =>
    if !c.cam.retry then c
    else
      let c := { c with cam.cur := some (id, page, n + 1, a), cam.retry := false }
      if portUp c then hostReads a (dirLen (c.run.dir.getD {}) id) c else readFailed c
  | none => c

/-- PAGE_IN_RETRY (R190). -/
def execPageInRetry (s : State) : Host.Outcome State Fault Refusal := .next { s with core := pageRetry s.core }

/-- CAM_PREFETCH and CAM_PIN wait for their table's page (R192). -/
def camWant (k : Nat) (d : Bytes) (c : Core) : Core :=
  let id := field d 8 2
  if slotOp { desc := d } = 0x24 && 7 ≤ pins c && !((pageOf c id).any fun g => (tget {} c.cam.pages g).pinned || (tget {} c.cam.pages g).state == 3) then
    finish k 0x12 0x28 0 (pins c) c
  else pageRequest id (some k) { c with cam.waits := c.cam.waits ++ [(k, id)] }

/-- CAM_PREFETCH (R192). -/
def execCamPrefetch (slot : Fin 512) (s : State) : Host.Outcome State Fault Refusal :=
  .next { s with core := startOp slot 0x23 (camWant slot) s.core }

/-- CAM_PIN (R192). -/
def execCamPin (slot : Fin 512) (s : State) : Host.Outcome State Fault Refusal :=
  .next { s with core := startOp slot 0x24 (camWant slot) s.core }

/-- CAM_UNPIN (R192); the page of a table that the cache does not hold is left open: a free value (log 5). -/
def camUnpin (k : Nat) (d : Bytes) (c : Core) : Core :=
  match pageOf c (field d 8 2) with
  | some page =>
    let c := setPage page { tget {} c.cam.pages page with pinned := false } c
    finish k 0x00 0 page (pins c) c
  | none =>
    let (v, c) := draw c
    finish k 0x00 0 (v.toNat % 2 ^ 32) (pins c) c

/-- CAM_UNPIN (R192). -/
def execCamUnpin (slot : Fin 512) (s : State) : Host.Outcome State Fault Refusal :=
  .next { s with core := startOp slot 0x25 (camUnpin slot) s.core }

/-! ### CAM_DIRECTORY (R185, R186) -/

/-- A signature of an image by the authority key it names (R184, R482, R143). -/
def signedBy (c : Core) (m : Image) (key off : Nat) : Bool :=
  let k := tget [] c.nv.authKeys key
  key < 4 && !k.isEmpty && ecdsaVerify k (sha256 (imgSlice m 0 off)) (imgSlice m off 64)

/-- Entries and header are as R184 requires (check 0x22). -/
def dirForm (m : Image) : Bool :=
  imgZero m 7 1 && imgZero m 14 50 && ((List.range 4096).filter (dirPresent m)).length == img16 m 12 &&
    (List.range 4096).all fun n =>
      let o := dirEntry n
      imgZero m (o + 7) 1 && imgZero m (o + 40) 8 && img8 m (o + 6) < 4 &&
        (if dirPresent m n then img32 m o % 64 == 0 && 112 ≤ dirLen m n && dirLen m n ≤ 32752
         else imgZero m o 6 && imgZero m (o + 8) 32)

/-- Table IDs that a program names (check 0x10). -/
def progTables (g : Image) : List Nat :=
  (prActsFrom g 0 (prActs g)).flatMap fun a =>
    if a.op = 0x10 then [a.arg16] else if a.op = 0x11 then [a.arg16, a.a % 4096] else []

/-- Every table that the stored programs name is in a directory (check 0x10 of R154). -/
def tablesIn (c : Core) (m : Image) : Bool := c.nv.progs.all fun e => (progTables e.2).all (dirPresent m)

/-- The checks of R185 but 0x25: none, or status and detail. -/
def dirCheck (c : Core) (m : Image) : Option (Nat × Nat) :=
  let res := (List.range 4096).filter (dirResident m)
  if img32 m 0 ≠ 0x5244434A || img16 m 4 ≠ 1 then some (0x12, 0x20)
  else if m.len ≠ 196736 then some (0x12, 0x21)
  else if !signedBy c m (img8 m 6) 196672 then some (0x31, 2)
  else if !dirForm m then some (0x12, 0x22)
  else if 8 < res.length || !res.all (dirPresent m) then some (0x12, 0x23)
  else if c.nv.dir.any fun d => decide (img32 m 8 < img32 d 8) then some (0x12, 0x24)
  else none

/-- Resident tables take pages 0 upwards (R186). -/
def residentPages (tables : Table Image) : Table PageSt :=
  tables.zipIdx.map fun e => (e.2, { state := 3, table := e.1.1, data := e.1.2 })

/-- A directory and its resident tables are stored; they take effect at once where none was stored (R185). -/
def dirStore (m : Image) (tables : Table Image) (c : Core) : Core :=
  let first := c.nv.dir.isNone
  let c := { c with nv.dir := some m, nv.resident := tables }
  if first then { c with run.dir := some m, cam.pages := residentPages tables } else c

/-- CAM_DIRECTORY (R185): `tables` is what reading each resident table answers; nothing for a failed read. -/
def dirDeliver (k : Nat) (tables : Table Bytes) (d : Bytes) (c : Core) : Core :=
  if opLen d = 0 then finish k 0x00 0 0 0 c
  else match opRead c k with
    | none => finish k 0x32 0 0 0 (hpCount 36 c)
    | some b =>
      let m := imgOf b
      match dirCheck c m with
      | some (st, dt) => finish k st dt 0 0 c
      | none =>
        let ids := dirResidents m
        let read (id : Nat) : Bytes := tget [] tables id
        let c := if c.bar.lib == 0 || !portUp c then c
          else (ids.filter fun id => (read id).length != dirLen m id).foldl (fun c _ => hpCount 36 c) c
        if ids.any (fun id => c.bar.lib == 0 || !portUp c || (read id).length != dirLen m id
            || (pageReason m id (read id)).isSome) then finish k 0x12 0x25 0 0 c
        else if !tablesIn c m then finish k 0x12 0x10 0 0 c
        else loadDone k 3 0 b (img16 m 12) (img32 m 8) (dirStore m (ids.map fun id => (id, imgOf (read id))) c)

/-- CAM_DIRECTORY (R185). -/
def execCamDirectory (slot : Fin 512) (tables : Table Bytes) (s : State) : Host.Outcome State Fault Refusal :=
  .next { s with core := startOp slot 0x22 (dirDeliver slot tables) s.core }

end Sys2Proof.Machine
end

