-- ==== Sys2Proof/Machine/Profile.lean ====
section
/-! DEFINITION. The profile generator (R158 to R179): the motion section, the seven-segment profile, braking,
track values and the join search. Master values, velocities, accelerations and jerks are in units of 2^-32;
durations are in ns; track values and setpoints are in 1/256 stroke unit. -/

namespace Sys2Proof.Machine

/-! ### The motion section (R160 to R162) -/

/-- Portal block of the motion section. -/
def motBlk (p : Nat) : Nat := secMot + 1024 * p
/-- Field at offset `o` of profile set `s` of a portal. -/
def psetF (m : Image) (p s o : Nat) : Nat := img32 m (motBlk p + 32 * s + o)
/-- D_STOP. -/
def dStop (m : Image) (p : Nat) : Nat := img32 m (motBlk p + 512)
/-- J_STOP. -/
def jStop (m : Image) (p : Nat) : Nat := img32 m (motBlk p + 516)
/-- Axis block of axis `x`. -/
def motAxis (x : Nat) : Nat := motBlk (x / 3) + 528 + 32 * (x % 3)
/-- STROKE. -/
def strokeOf (m : Image) (x : Nat) : Nat := img32 m (motAxis x)
/-- SL_MIN in 1/256 stroke unit. -/
def slMin (m : Image) (x : Nat) : Int := 256 * imgI32 m (motAxis x + 4)
/-- SL_MAX in 1/256 stroke unit. -/
def slMax (m : Image) (x : Nat) : Int := 256 * imgI32 m (motAxis x + 8)

/-! ### Kinematics (R165) -/

/-- Coordinate, velocity and acceleration of a master. -/
structure Kin where
  m : Int
  v : Int
  a : Int
  deriving DecidableEq, Repr

/-- The state `t` ns into a segment of jerk `j`, each value rounded half away from zero (R165). -/
def kinAt (k : Kin) (j : Int) (t : Nat) : Kin where
  m := roundDiv (k.m * (6 * 10 ^ 27) + k.v * t * (6 * 10 ^ 18) + k.a * t ^ 2 * (3 * 10 ^ 9) + j * t ^ 3) (6 * 10 ^ 27)
  v := roundDiv (k.v * (2 * 10 ^ 18) + k.a * t * (2 * 10 ^ 9) + j * t ^ 2) (2 * 10 ^ 18)
  a := roundDiv (k.a * 10 ^ 9 + j * t) (10 ^ 9)

/-- Pass the segments that end within `t` ns: what remains, the state at its start, the time in it. -/
def crossSegs : List Seg → Kin → Nat → List Seg × Kin × Nat
  | [], k, t => ([], k, t)
  | g :: r, k, t => if g.dur ≤ t then crossSegs r (kinAt k g.jerk g.dur) (t - g.dur) else (g :: r, k, t)

/-- Time left in a plan, in ns. -/
def planLeft (l : List Seg) (t : Nat) : Nat := (l.foldl (fun a g => a + g.dur) 0) - t

/-- The quotient `n / d` of seconds in whole ns. -/
def nsOf (n d : Nat) : Nat := (2 * n * 10 ^ 9 + d) / (2 * d)
/-- The root of `n / d` seconds in whole ns. -/
def nsRoot (n d : Nat) : Nat := (isqrt (4 * n * 10 ^ 18 / d) + 1) / 2

/-- A change of velocity by `dv` under limit `l` and jerk `j`: the outer and the middle duration in ns, and the
whole time in 2^-48 s (R164). -/
structure Phase where
  t1 : Nat
  t2 : Nat
  tot : Nat
  deriving DecidableEq, Repr

/-- The phase of a velocity change (R164): the peak is `min l (√(j·dv))`. -/
def phaseOf (l j dv : Nat) : Phase :=
  if dv = 0 then ⟨0, 0, 0⟩
  else if l * l ≤ j * dv then ⟨nsOf l j, nsOf (dv * j - l * l) (l * j), dv * 2 ^ 48 / l + l * 2 ^ 48 / j⟩
  else ⟨nsRoot dv j, 0, 2 * isqrt (dv * 2 ^ 96 / j)⟩

/-- The velocity phase from `v0` to `vc` (R164). -/
def phaseU (a d j v0 vc : Nat) : Phase := if v0 ≤ vc then phaseOf a j (vc - v0) else phaseOf d j (v0 - vc)

/-- `S_U + S_W` at cruise `vc`, in 2^-81 master unit. -/
def pathLen (a d j v0 vc : Nat) : Nat := (v0 + vc) * (phaseU a d j v0 vc).tot + vc * (phaseOf d j vc).tot

/-- 24 steps of bisection for the largest `n` with cruise `V·n/2^24` (R164). -/
def bisectV (v a d j v0 s : Nat) : Nat → Nat → Nat
  | 0, n => n
  | i + 1, n =>
    let n' := n + 2 ^ i
    if pathLen a d j v0 (v * n' / 2 ^ 24) ≤ s * 2 ^ 49 then bisectV v a d j v0 s i n' else bisectV v a d j v0 s i n

/-- The cruise velocity over a path of `s`; none when even 0 does not satisfy R164. -/
def cruiseOf (v a d j v0 s : Nat) : Option Nat :=
  if pathLen a d j v0 v ≤ s * 2 ^ 49 then some v
  else
    let n := bisectV v a d j v0 s 24 0
    if n = 0 && !decide (pathLen a d j v0 0 ≤ s * 2 ^ 49) then none else some (v * n / 2 ^ 24)

/-- The seven segments of a move over `s` from velocity `v0` with no acceleration (R164). -/
def planMove (v a d j v0 s : Nat) : Option (List Seg) :=
  (cruiseOf v a d j v0 s).map fun vc =>
    let u := phaseU a d j v0 vc
    let w := phaseOf d j vc
    let up : Int := if v0 ≤ vc then j else -(j : Int)
    let rest := s * 2 ^ 49 - pathLen a d j v0 vc
    let cr := if vc = 0 then 0 else nsOf rest (2 ^ 49 * vc)
    ([⟨1, u.t1, up⟩, ⟨2, u.t2, 0⟩, ⟨3, u.t1, -up⟩, ⟨4, cr, 0⟩,
      ⟨5, w.t1, -(j : Int)⟩, ⟨6, w.t2, 0⟩, ⟨7, w.t1, j⟩] : List Seg).filter fun g => g.dur != 0

/-- Segments 5 to 7 of a braking from velocity `v` with acceleration `a` (R169); the peak is kept in 2^-52. -/
def planBrake (v a : Int) (d j : Nat) : List Seg :=
  let x := (2 * j * v + a * a).toNat
  let aq := if 2 * d * d ≤ x then d * 2 ^ 20 else isqrt (x * 2 ^ 39)
  let t5 := nsOf (a * 2 ^ 20 + aq).toNat (j * 2 ^ 20)
  let t6 := if aq = 0 then 0 else nsOf ((x : Int) * 2 ^ 40 - 2 * aq * aq).toNat (2 * j * aq * 2 ^ 20)
  let t7 := nsOf aq (j * 2 ^ 20)
  ([⟨5, t5, -(j : Int)⟩, ⟨6, t6, 0⟩, ⟨7, t7, j⟩] : List Seg).filter fun g => g.dur != 0

/-! ### Tracks (R182) -/

/-- The interval of a table that holds a coordinate in 2^-32, and `s` in 2^-32; at M_END the last one with s = 1. -/
def camInterval : List CamPt → Int → Option (CamPt × CamPt × Int)
  | p :: q :: r, m =>
    if m < q.m * 2 ^ 32 || r.isEmpty then
      let h : Int := ((q.m - p.m : Nat) : Int)
      some (p, q, min (2 ^ 32) (max 0 ((m - p.m * 2 ^ 32) / h)))
    else camInterval (q :: r) m
  | _, _ => none

/-- The parts of a cubic track's interval: rise, and `h·d` at both ends in 1/256. -/
structure Cubic where
  p0 : Int
  p1 : Int
  d0 : Int
  d1 : Int
  h : Nat

/-- Track `a` in an interval; a linear track has its secant as both slopes, which gives the same value. -/
def cubicOf (p q : CamPt) (a : Nat) : Cubic :=
  { p0 := posOf p a, p1 := posOf q a, d0 := ((q.m - p.m : Nat) : Int) * slopeOf p a, d1 := ((q.m - p.m : Nat) : Int) * slopeOf q a, h := q.m - p.m }

/-- Track value at `s` of an interval, 1/256 stroke unit (R182). -/
def trackIn (cubic : Bool) (p q : CamPt) (a : Nat) (s : Int) : Int :=
  let c := cubicOf p q a
  let w : Int := 2 ^ 32
  if cubic then
    roundDiv (256 * (2 * s ^ 3 - 3 * s ^ 2 * w + w ^ 3) * c.p0 + (s ^ 3 - 2 * s ^ 2 * w + s * w ^ 2) * c.d0
      + 256 * (-2 * s ^ 3 + 3 * s ^ 2 * w) * c.p1 + (s ^ 3 - s ^ 2 * w) * c.d1) (2 ^ 96)
  else roundDiv (256 * (c.p0 * w + s * (c.p1 - c.p0))) (2 ^ 32)

/-- Slope at `s`, in stroke units per master unit times `256·2^64·h` (R166). -/
def slopeIn (cubic : Bool) (p q : CamPt) (a : Nat) (s : Int) : Int :=
  let c := cubicOf p q a
  let w : Int := 2 ^ 32
  if cubic then
    256 * (6 * s ^ 2 - 6 * s * w) * (c.p0 - c.p1) + (3 * s ^ 2 - 4 * s * w + w ^ 2) * c.d0 + (3 * s ^ 2 - 2 * s * w) * c.d1
  else 256 * w ^ 2 * (c.p1 - c.p0)

/-- Second derivative at `s`, times `256·2^32·h²`. -/
def curveIn (cubic : Bool) (p q : CamPt) (a : Nat) (s : Int) : Int :=
  let c := cubicOf p q a
  let w : Int := 2 ^ 32
  if cubic then
    256 * (12 * s - 6 * w) * (c.p0 - c.p1) + (6 * s - 4 * w) * c.d0 + (6 * s - 2 * w) * c.d1
  else 0

/-- Track value of table `t` at coordinate `m` (R182). -/
def trackAt (t : Image) (a : Nat) (m : Int) : Int :=
  match camInterval (camPts t) m with
  | some (p, q, s) => trackIn (camCubic t a) p q a s
  | none => 0

/-- Slope of track `a` at `m`: numerator and denominator, in stroke units per master unit (R166). -/
def slopeAt (t : Image) (a : Nat) (m : Int) : Int × Nat :=
  match camInterval (camPts t) m with
  | some (p, q, s) => (slopeIn (camCubic t a) p q a s, 256 * 2 ^ 64 * (q.m - p.m))
  | none => (0, 1)

/-- Velocity of track `a` in 1/256 stroke unit per s, at master velocity `v` (R166). -/
def trackVel (t : Image) (a : Nat) (m v : Int) : Int :=
  let s := slopeAt t a m
  roundDiv (s.1 * v * 256) (s.2 * 2 ^ 32)

/-- Acceleration of track `a` in 2^-32 stroke unit per s², at a master state (R172). -/
def trackAcc (t : Image) (a : Nat) (k : Kin) : Int :=
  match camInterval (camPts t) k.m with
  | some (p, q, s) =>
    let h := q.m - p.m
    roundDiv (slopeIn (camCubic t a) p q a s * k.a * h * 2 ^ 32 + curveIn (camCubic t a) p q a s * k.v ^ 2 * 2 ^ 32)
      (256 * 2 ^ 96 * h ^ 2)
  | none => 0

/-- Event bits at a coordinate; those of the last point at M_END (R182). -/
def eventsAt (t : Image) (m : Int) : Nat :=
  if camEnd t * 2 ^ 32 ≤ m then ((camPts t).getLast?.map CamPt.ev).getD 0
  else match camInterval (camPts t) m with
    | some (p, _, _) => p.ev
    | none => 0

/-! ### The join search (R176) -/

/-- The unrounded value of track `a` at `s` lies at or below `x` (1/256 stroke unit) for a rising track, at or above it
for a falling one. -/
def notPast (cubic : Bool) (p q : CamPt) (a : Nat) (x s : Int) : Bool :=
  let c := cubicOf p q a
  let w : Int := 2 ^ 32
  let v := if cubic then
      256 * (2 * s ^ 3 - 3 * s ^ 2 * w + w ^ 3) * c.p0 + (s ^ 3 - 2 * s ^ 2 * w + s * w ^ 2) * c.d0
        + 256 * (-2 * s ^ 3 + 3 * s ^ 2 * w) * c.p1 + (s ^ 3 - s ^ 2 * w) * c.d1
    else 256 * (c.p0 * w + s * (c.p1 - c.p0)) * w ^ 2
  if c.p0 ≤ c.p1 then decide (v ≤ x * w ^ 3) else decide (x * w ^ 3 ≤ v)

/-- 32 steps of bisection over `s`, the lower bound. -/
def bisectS (cubic : Bool) (p q : CamPt) (a : Nat) (x : Int) : Nat → Int → Int
  | 0, s => s
  | i + 1, s => if notPast cubic p q a x (s + 2 ^ i) then bisectS cubic p q a x i (s + 2 ^ i) else bisectS cubic p q a x i s

/-- The coordinate in an interval, rounded down to 2^-32; exactly its upper end where that has the value (R176). On a plateau it is
the start of a linear interval and the end of a cubic one (DESIGN CHOICE, log 32). -/
def joinIn (cubic : Bool) (p q : CamPt) (a : Nat) (x : Int) : Int :=
  let h : Int := ((q.m - p.m : Nat) : Int)
  let rise := posOf q a - posOf p a
  if cubic then p.m * 2 ^ 32 + (if notPast cubic p q a x (2 ^ 32) then 2 ^ 32 else bisectS cubic p q a x 32 0) * h
  else if rise = 0 then p.m * 2 ^ 32
  else p.m * 2 ^ 32 + (x - 256 * posOf p a) * h * 2 ^ 32 * rise.sign / (256 * rise * rise.sign)

/-- The first interval whose values bracket `x` (of several, the first one: DESIGN CHOICE, log 32). -/
def joinFind (t : Image) (a : Nat) (x : Int) : List CamPt → Option Int
  | p :: q :: r =>
    let lo := 256 * min (posOf p a) (posOf q a)
    let hi := 256 * max (posOf p a) (posOf q a)
    if lo ≤ x && x ≤ hi then some (joinIn (camCubic t a) p q a x) else joinFind t a x (q :: r)
  | _ => none

/-- The join coordinate of `x` on track `a`; beyond the range, the end whose value lies nearer (R176), and 0 where both are equally
near (DESIGN CHOICE, log 32). -/
def joinAt (t : Image) (a : Nat) (x : Int) : Int :=
  match joinFind t a x (camPts t) with
  | some m => m
  | none =>
    let p0 := 256 * ((camPts t).head?.map (posOf · a)).getD 0
    let p1 := 256 * ((camPts t).getLast?.map (posOf · a)).getD 0
    if (x - p0).natAbs ≤ (x - p1).natAbs then 0 else camEnd t * 2 ^ 32

end Sys2Proof.Machine
end

