-- ==== Sys2Proof/Machine/Axis.lean ====
section
/-! DEFINITION. Axis links and loops (R195 to R224): what each link carries in a current period, how up frames are
classified, axis faults, commutation, the position, velocity and current loops, and DIAG_READ item 0x03. Positions are
in 1/256 stroke unit, velocities in 1/256 stroke unit per s, currents in mA, voltages in mV. -/

namespace Sys2Proof.Machine

/-! ### The axis control section (R221) -/

/-- Axis block of axis `x`. -/
def axBlk (x : Nat) : Nat := secAxis + 64 + 64 * x
/-- MOTOR. -/
def motorOf (m : Image) (x : Nat) : Nat := img8 m (axBlk x)
/-- DC axis. -/
def isDc (m : Image) (x : Nat) : Bool := motorOf m x == 2
/-- DIR. -/
def dirBit (m : Image) (x : Nat) : Bool := bitOf (img8 m (axBlk x + 1)) 0
/-- EDIR. -/
def edirBit (m : Image) (x : Nat) : Bool := bitOf (img8 m (axBlk x + 1)) 1
/-- POLE_PAIRS. -/
def polePairs (m : Image) (x : Nat) : Nat := img8 m (axBlk x + 2)
/-- ENC_CPR; a division by it takes at least 1. -/
def encCpr (m : Image) (x : Nat) : Nat := max 1 (img32 m (axBlk x + 4))
/-- CPS; a division by it takes at least 1. -/
def cpsOf (m : Image) (x : Nat) : Nat := max 1 (img32 m (axBlk x + 8))
/-- HALL_SECTOR of Hall state `h`. -/
def hallSector (m : Image) (x h : Nat) : Nat := img8 m (axBlk x + 12 + h)
/-- KF. -/
def kfOf (m : Image) (x : Nat) : Nat := img16 m (axBlk x + 48)

/-- Axis `x` of the core. -/
def axAt (c : Core) (x : Nat) : AxisSt := tget {} c.seq.axes x
/-- Update axis `x`. -/
def modAx (x : Nat) (f : AxisSt → AxisSt) (c : Core) : Core := { c with seq.axes := tmod {} c.seq.axes x f }
/-- Link `x` of the core. -/
def linkAt (c : Core) (x : Nat) : LinkSt := tget {} c.links x
/-- Update link `x`. -/
def modLink (x : Nat) (f : LinkSt → LinkSt) (c : Core) : Core := { c with links := tmod {} c.links x f }

/-! ### Transmission (R196 to R203) -/

/-- What a link carries. -/
inductive Carries where
  | nothing | idle | frames
  deriving DecidableEq, Repr

/-- What link `x` carries (R197); transmission stops during a flush (R66, R68). -/
def carries (c : Core) (x : Nat) : Carries :=
  if c.sys.inReset || c.sys.txOff || c.sys.mode == .selftest || c.sys.mode == .safeTalk || c.sys.mode == .parked then .nothing
  else if !axisConf (cfgOf c) x then .idle
  else if unsynced c || (linkAt c x).muted then .idle
  else .frames

/-- The links on which the unit transmits frames. -/
def txLinks (c : Core) : BitVec 36 := bitsBy 36 fun x => carries c x == .frames

/-- Payload and CRC of the down frame of axis `x` (R198, R203). -/
def downFrame (c : Core) (x seq : Nat) : Bytes :=
  let m := cfgOf c
  let a := axAt c x
  let dc := isDc m x
  let mode := match a.st with
    | .off => 0
    | .clearing => 2
    | .on => 1
  let te := a.st == .on && pbit c.seq.te (x / 3)
  let du := if a.st = .on then a.dutyU else 32768
  let dv := if a.st = .on then a.dutyV else 32768
  let dw := if dc then 0 else if a.st = .on then a.dutyW else 32768
  let b := toLe 2 seq ++ toLe 1 (mode + 4 * b2n dc + 8 * b2n te) ++ toLe 2 du ++ toLe 2 dv ++ toLe 2 dw
  b ++ toLe 2 (crc16 b)

/-- One link at the CP strobe: its frame goes out, or idle characters. A link that has just been enabled carries only
K28.5 for its first period (R224). -/
def sendLink (k seq x : Nat) (c : Core) : Core :=
  let c := if k = 0 && (linkAt c x).unmute then modLink x (fun l => { l with muted := false, unmute := false }) c else c
  match carries c x with
  | .nothing => modLink x (fun l => { l with en := false, rx := none, sent := none }) c
  | .idle => emit (.idle x) (modLink x (fun l => { l with en := true, rx := none, sent := none }) c)
  | .frames =>
    if (linkAt c x).en then
      let b := downFrame c x seq
      emit (.downFrame x b) (modLink x (fun l => { l with rx := none, sent := some (seq, b) }) c)
    else emit (.idle x) (modLink x (fun l => { l with en := true, rx := none, sent := none }) c)

/-- The time-base value of strobe CP `n`: the first multiple of 8 that reaches n × 31 250 (R26). -/
def cpAt (n : Nat) : Nat := (n * 31250 + 7) / 8 * 8

/-- The CP strobe of the next current period (R26, R199, R200). -/
def cpStrobe (c : Core) : Core :=
  let c := countTo (cpAt c.tb.cp) c
  let c := (List.range 36).foldl (fun c x => sendLink (c.tb.cp % 4) (c.tb.cp % 65536) x c) c
  { c with tb.cp := c.tb.cp + 1 }

/-- A period passes in an island's deframers: a period without a valid frame counts as missed (R289). -/
def ageDeframers (i : IslSt) : IslSt :=
  { i with
    axes := tmake {} 36 fun x =>
      let v := tget {} i.axes x
      { v with missed := if v.got then 0 else min 3 (v.missed + 1), got := false } }

/-- CURRENT_PERIOD (R200): no strobe exists until the time base runs. -/
def execCurrentPeriod (s : State) : Host.Outcome State Fault Refusal :=
  .next (if s.core.sys.inReset || !s.core.tb.running || s.core.sys.mode = .parked then s
    else { s with core := cpStrobe s.core, isa := ageDeframers s.isa, isb := ageDeframers s.isb })

/-! ### Reception (R201, R204, R207, R211) -/

/-- The fields of an up frame (R204). -/
def upData (b : Bytes) : UpData where
  iu := signed 16 (field b 2 2)
  iv := signed 16 (field b 4 2)
  vdc := field b 6 2
  idc := signed 16 (field b 8 2)
  enc := BitVec.ofNat 32 (field b 10 4)
  hall := byteAt b 14 % 8
  li := byteAt b 14 / 16
  temp := signed 8 (byteAt b 15)
  status := byteAt b 16
  trip := byteAt b 17 % 16
  hash := field b 18 2

/-- A received frame is valid: 22 bytes, no code violation and a good CRC (R201, R202, R204, R206). -/
def rxOk (rx : UpRx) : Bool := rx.codeOk && rx.bytes.length == 22 && field rx.bytes 20 2 == crc16 (rx.bytes.take 20)

/-- The unwrapped sequence number of a frame, next to the latest one (R289). -/
def unwrapSeq (last : Option Nat) (seq : Nat) : Nat :=
  match last with
  | none => 65536 + seq
  | some l => ((l : Int) + signed 16 (unsigned 16 ((seq : Int) - (l : Int)))).toNat

/-- A valid up frame in an island's deframer: STATUS, the encoder counts of the last 33 sequence numbers, and the times of the
last two Hall transitions in cycles of SAFE_B's clock (R13, R211, R289). -/
def deframe (x : Nat) (b : Bytes) (cycles : Nat) (i : IslSt) : IslSt :=
  let u := upData b
  { i with axes := tmod {} i.axes x fun v =>
      let n := unwrapSeq (v.frames.head?.map (·.1)) (field b 0 2)
      let newer := match v.frames.head? with
        | some f => decide (f.1 < n)
        | none => true
      let turn := match v.hall with
        | some h => h != u.hall
        | none => false
      { v with
        frames := if newer then ((n, u.enc) :: v.frames).take 33 else v.frames
        status := if newer then u.status else v.status
        hall := some u.hall
        tPrev := if turn then v.tLast else v.tPrev
        tLast := if turn then some (18000 * i.tick + min 17999 cycles) else v.tLast
        got := true } }

/-- UP_FRAME (R204, R211). -/
def execUpFrame (x : Fin 36) (rx : UpRx) (s : State) : Host.Outcome State Fault Refusal :=
  .next (if s.core.sys.inReset || s.core.sys.mode = .parked then s
    else
      let ok := rxOk rx && (linkAt s.core x).locked
      let s := { s with core := modLink x (fun l => { l with rx := some rx }) s.core }
      if ok then { s with isa := deframe x rx.bytes rx.cyclesB s.isa, isb := deframe x rx.bytes rx.cyclesB s.isb } else s)

/-- The classification of a link's up frame at the cut-off (R207); frames are invalid without lock (R224). -/
def classify (l : LinkSt) : UpClass :=
  match l.rx with
  | none => .absent
  | some rx =>
    if !l.locked || !rxOk rx then .invalid
    else if l.sent.map (·.1) ≠ some (field rx.bytes 0 2) then .seqErr
    else if rx.late then .late
    else .valid

/-- Codes of AXIS_LINK_ERR (R415). -/
def classCode : UpClass → Nat
  | .valid => 0
  | .invalid => 1
  | .seqErr => 2
  | .late => 3
  | .absent => 4

/-- A fault of axis `x` (R209): its record, its place in AXIS_FAULT if it is the first, and the fault manager. -/
def axisFault (code x : Nat) (c : Core) : Core :=
  let c := event 0x041 0x05 [code, x] c
  let c := modLink x (fun l => { l with fault := if l.fault = 0 then code else l.fault }) c
  let c := totalAdd (x / 3) (22 + 8 * (x % 3)) c
  raise (0x100 + code) (x / 3) x c

/-- A detection of axis `x` is due (log 3). -/
def dueFault (code x : Nat) (c : Core) : Core := { c with seq.due := c.seq.due ++ [.axisFault code x] }

/-- A link is muted from the next period (R213). -/
def muteLink (x : Nat) (c : Core) : Core :=
  modLink x (fun l => { l with muted := true, mutedIn := true, unmute := false }) c

/-- A VALID up frame is compared with the unit's own frame of that SEQ (R205, R213). -/
def compareFrames (x : Nat) (u : UpData) (sent : Nat × Bytes) (c : Core) : Core :=
  let other := bitsOf u.status 2 1
  if other = 1 || (other = 0 && u.hash ≠ hash16 (sent.2.take 9)) then
    let c := event 0x042 0x05 [x, sent.1] c
    let c := raise 0x404 255 x c
    let c := modLink x (fun l => { l with cHash := l.cHash + 1, mismTick := true, mismFrame := true }) c
    if standbyIn c then muteLink x c else c
  else if 2 ≤ other then modLink x (fun l => { l with cOther := satAdd 65535 l.cOther 1 }) c
  else c

/-- A fault of axis `x` whose condition holds (`on`) is raised when the condition begins, and again where it outlasts the TORQUE_ON
that cleared AXIS_FAULT (R209, log 13). -/
def raiseOnce (on : Bool) (code x : Nat) (f : Core → Core) (c : Core) : Core :=
  let was := (linkAt c x).raised.getLsbD code
  let c := if on = was then c else modLink x (fun l => { l with raised := setBit l.raised code on }) c
  if on && !was then f c else c

/-- The trip checks of a VALID frame (R209). -/
def checkTrip (x : Nat) (u : UpData) (seq : Nat) (c : Core) : Core :=
  let a := axAt c x
  let c := if u.trip ≠ 0 && a.up.trip = 0 then
      totalAdd (x / 3) (23 + 8 * (x % 3)) (modLink x (fun l => { l with cTrip := satAdd 65535 l.cTrip 1, lastTrip := u.trip }) c)
    else c
  let later := match a.clearSeq with
    | some q => let d := (seq + 65536 - q) % 65536; decide (1 ≤ d) && decide (d ≤ 32767)
    | none => false
  if later then
    let c := modAx x (fun a => { a with clearSeq := none }) c
    if u.trip ≠ 0 then axisFault 3 x c else c
  else raiseOnce (u.trip != 0 && a.st == .on) 2 x (axisFault 2 x) c

/-- A run of `n` is complete at this frame. -/
def runDue (n k code x : Nat) (c : Core) : Core := raiseOnce (decide (n ≤ k)) code x (dueFault code x) c

/-! ### Commutation (R214, R215) -/

/-- A position from an encoder count (R214). -/
def posOfEnc (m : Image) (x : Nat) (enc ref : U32) : Int :=
  let p := roundDiv (signed 32 (enc - ref).toNat * 2 ^ 24) (cpsOf m x)
  if dirBit m x then -p else p

/-- The measured position of an axis from its latest feedback (R175, R214). -/
def posNow (c : Core) (x : Nat) : Int := posOfEnc (cfgOf c) x (axAt c x).encL (axAt c x).encRef

/-- The electrical angle of a count from ENC_ZERO, 1/65 536 turn, unreduced (R215). -/
def angleOf (m : Image) (x : Nat) (d : Int) : Int :=
  let d := if edirBit m x then -d else d
  roundDiv (d * polePairs m x * 65536) (encCpr m x)

/-- θe of an axis (R215). -/
def thetaOf (m : Image) (x : Nat) (a : AxisSt) : Nat :=
  if a.aligned then (angleOf m x (signed 32 (a.encL - a.encZero).toNat) % 65536).toNat
  else 256 * hallSector m x a.up.hall

/-- The midpoint of the shorter arc between two angles (R215). -/
def arcMid (a b : Nat) : Nat := ((a : Int) + (signed 16 (unsigned 16 ((b : Int) - a))) / 2 + 65536).toNat % 65536

/-- ENC_ZERO for which the count `enc` shows the angle `mid` (R215). -/
def encZeroFor (m : Image) (x : Nat) (enc : U32) (mid : Nat) : U32 :=
  let n := roundDiv ((mid : Int) * encCpr m x) (max 1 (polePairs m x * 65536))
  enc - BitVec.ofNat 32 (unsigned 32 (if edirBit m x then -n else n))

/-- Hall states 1 to 6 name a sector. -/
def hallOk (h : Nat) : Bool := h != 0 && h != 7

/-- Alignment at the first change of Hall state after the axis became ON (R215). -/
def align (x : Nat) (u : UpData) (c : Core) : Core :=
  let m := cfgOf c
  let a := axAt c x
  if isDc m x || a.st ≠ .on || !hallOk u.hall then c
  else match a.hallOn with
    | some h =>
      if h ≠ u.hall && !a.aligned then
        let mid := arcMid (256 * hallSector m x h) (256 * hallSector m x u.hall)
        modAx x (fun a => { a with hallOn := some u.hall, aligned := true, encZero := encZeroFor m x u.enc mid }) c
      else modAx x (fun a => { a with hallOn := some u.hall }) c
    | none => modAx x (fun a => { a with hallOn := some u.hall }) c

/-- The Hall checks of a VALID frame (R209 codes 4 and 5). -/
def checkHall (x : Nat) (u : UpData) (c : Core) : Core :=
  let m := cfgOf c
  if isDc m x then c
  else
    let l := linkAt c x
    let a := axAt c x
    let bad := !hallOk u.hall
    let off := (signed 16 (unsigned 16 ((thetaOf m x a : Int) - 256 * hallSector m x u.hall))).natAbs
    let dis := a.aligned && !bad && decide (10923 < off)
    let nb := if bad then l.hallBad + 1 else 0
    let nd := if dis then l.hallDis + 1 else 0
    runDue 8 nd 5 x (runDue 8 nb 4 x (modLink x (fun l => { l with hallBad := nb, hallDis := nd }) c))

/-- BRIDGE_DROP (R209 code 7). -/
def checkBridge (x : Nat) (u : UpData) (sent : Bytes) (c : Core) : Core :=
  let run := byteAt sent 2 % 4 == 1 && bitOf (byteAt sent 2) 3
  let n := if run && !bitOf u.status 4 && bitOf u.status 3 && u.trip == 0 then (linkAt c x).drop + 1 else 0
  runDue 2 n 7 x (modLink x (fun l => { l with drop := n }) c)

/-- Extremes of axis `x`, entry `n` of its eight (R434); no journal slot has set them. -/
def axMax (x n : Nat) (v : Int) (c : Core) : Core := entryMax (x / 3) (16 + 8 * (x % 3) + n) v 0xFFFFFFFF c

/-- Stage extremes of a VALID frame (R434): temperature, voltage, current. -/
def stageExtremes (x : Nat) (u : UpData) (c : Core) : Core :=
  axMax x 1 u.temp (axMax x 5 u.idc (entryMin (x / 3) (20 + 8 * (x % 3)) u.vdc 0xFFFFFFFF c))

/-- A VALID up frame of axis `x` (R207 to R215). A unit that does not transmit on the link (`own` false) follows the
stage as its twin drives it: it counts nothing and compares nothing. -/
def validFrame (own : Bool) (x : Nat) (b : Bytes) (sent : Nat × Bytes) (c : Core) : Core :=
  let u := upData b
  let port := img8 (cfgOf c) secAxis
  let c := modLink x (fun l => { l with
    nonValid := 0
    cValid := if own then l.cValid + 1 else l.cValid
    cUsed := if own && bitOf u.status 0 == decide (port = 1) then l.cUsed + 1 else l.cUsed }) c
  let c := stageExtremes x u (checkTrip x u sent.1 c)
  let c := modAx x (fun a =>
    { a with
      up := u
      encB := if a.seen then a.encL else u.enc
      encL := u.enc
      seen := true
      vdcMin := some (min (a.vdcMin.getD u.vdc) u.vdc)
      encRef := if a.refWait then u.enc else a.encRef
      referenced := a.referenced || a.refWait
      refWait := false }) c
  let c := checkBridge x u sent.2 (checkHall x u (align x u c))
  if own then compareFrames x u sent c else c

/-- A non-VALID up frame of axis `x` (R207 to R209, R213). -/
def badFrame (x : Nat) (k : UpClass) (c : Core) : Core :=
  let c := event 0x040 0x05 [x, classCode k] c
  let c := modLink x (fun l => { l with
    nonValid := l.nonValid + 1
    nvTick := true
    cInvalid := if k = .invalid then l.cInvalid + 1 else l.cInvalid
    cLate := if k = .late || k = .absent then l.cLate + 1 else l.cLate
    cSeq := if k = .seqErr then l.cSeq + 1 else l.cSeq }) c
  let c := modAx x (fun a => { a with encL := a.encL + (a.encL - a.encB), encB := a.encL }) c
  let c := runDue 3 (linkAt c x).nonValid 1 x c
  if standbyIn c then muteLink x c else c

/-! ### The loops (R216 to R220) -/

/-- √3 in 2^-30 (R220). -/
def sqrt3 : Nat := isqrt (3 * 2 ^ 60)

/-- π in 2^-96. -/
def piQ : Nat := 248902613312231085230521944622

/-- The sum of `n` terms of the sine series from term `k` of value `t`, in 2^-96; `x2` is the square of the angle. -/
def sineTerms (x2 : Nat) : Nat → Nat → Nat → Int
  | 0, _, _ => 0
  | n + 1, k, t => (t : Int) - sineTerms x2 n (k + 1) (t * x2 / 2 ^ 96 / ((2 * k + 2) * (2 * k + 3)))

/-- Sine of `n` / 4 096 turn in the first quarter, to the nearest 2^-30 (log 7). -/
def sineQuarter (n : Nat) : Int :=
  let x := piQ * n / 2048
  (sineTerms (x * x / 2 ^ 96) 20 0 x + 2 ^ 65) / 2 ^ 66

/-- Entry `n` of the 4 096-entry sine table, in 2^-30 (R220, log 7). -/
def sineEntry (n : Nat) : Int :=
  let q := n % 1024
  match n / 1024 % 4 with
  | 0 => sineQuarter q
  | 1 => sineQuarter (1024 - q)
  | 2 => -sineQuarter q
  | _ => -sineQuarter (1024 - q)

/-- Sine of an angle in 1/65 536 turn, in 2^-30 (R220). -/
def sinOf (t : Nat) : Int := sineEntry (t % 65536 / 16)
/-- Cosine, a quarter turn ahead. -/
def cosOf (t : Nat) : Int := sinOf (t + 16384)

/-- The limits of i_ref towards closed and towards open (R218). -/
def curLimits (c : Core) (x : Nat) : Int × Int :=
  let m := cfgOf c
  let ms := tget {} c.seq.masters (x / 3)
  let mx := img16 m (axBlk x + 40)
  let lim (o : Nat) : Int := min mx (img16 m (axBlk x + o))
  if ms.run && ms.kind == .manual && ms.manAxis == x then (-lim 46, lim 46)
  else if bitOf ms.closeAx (x % 3) then (-lim 44, lim 42)
  else (-lim 42, lim 42)

/-- v_meas of an axis (R217). -/
def vMeas (a : AxisSt) : Int := (a.x - a.xPrev) * 8000

/-- The current reference for the duties of period `j` (1 to 4, 4 being period 0 of the next tick), with the
velocity error of that period (R217); an axis without a setpoint holds its position. -/
def curRef (c : Core) (x j : Nat) : Int × Int :=
  let m := cfgOf c
  let a := axAt c x
  let p := if a.hasSp then a.sp + roundDiv ((a.spN - a.sp) * j) 4 else a.x
  let vf := if a.hasSp then a.vff + roundDiv ((a.vffN - a.vff) * j) 4 else 0
  let ev := vf + roundDiv ((img16 m (axBlk x + 36) : Int) * (p - a.x)) 256 - vMeas a
  let aff := if a.hasSp then (a.vffN - a.vff) * 8000 else 0
  let pv := fit64 ((img32 m (axBlk x + 28) : Int) * ev)
  let pa := fit64 ((img16 m (axBlk x + 38) : Int) * aff)
  (roundDiv (pv * 256 + a.intV * 1000 + pa) 65536000, ev)

/-- The q-axis current of a PMSM axis, or the armature current (R216, R229, R263), in mA: `(i_d, i_q)`. -/
def currents (m : Image) (x : Nat) (a : AxisSt) : Int × Int :=
  if isDc m x then (0, a.up.iu)
  else
    let t := thetaOf m x a
    let be := roundDiv ((a.up.iu + 2 * a.up.iv) * 2 ^ 30) sqrt3
    (roundDiv (a.up.iu * cosOf t + be * sinOf t) (2 ^ 30), roundDiv (be * cosOf t - a.up.iu * sinOf t) (2 ^ 30))

/-- A PI step (R216): the output within ±`lim`, and the integral after it. `hold` keeps the integral. -/
def piStep (m : Image) (x : Nat) (e int lim : Int) (hold : Bool) : Int × Int :=
  let u := roundDiv ((img16 m (axBlk x + 20) : Int) * e) 1000 + int
  let out := clampI (-lim) lim u
  let wind := (decide (lim ≤ u) && decide (0 < e)) || (decide (u ≤ -lim) && decide (e < 0))
  (out, if hold || wind then int else int + roundDiv ((img32 m (axBlk x + 24) : Int) * e) 32000)

/-- A duty within 0 to 65 535. -/
def duty (d : Int) : Nat := (clampI 0 65535 d).toNat

/-- The three phase voltages at angle `t`, with the offset of R216 step 4. -/
def phases (t : Nat) (ud uq : Int) : Int × Int × Int :=
  let al := roundDiv (ud * cosOf t - uq * sinOf t) (2 ^ 30)
  let be := roundDiv (ud * sinOf t + uq * cosOf t) (2 ^ 30)
  let h := roundDiv (be * sqrt3) (2 ^ 31)
  let v := roundDiv (-al) 2 + h
  let w := roundDiv (-al) 2 - h
  let off := roundDiv (-(max al (max v w) + min al (min v w))) 2
  (al + off, v + off, w + off)

/-- The duties of the next period (R216); the arithmetic goes on while the axis is not ON, when its frames carry none of it (R210).
A DC link of 0 V leaves them open: free values that both twins share (R212, log 5). -/
def currentLoop (x : Nat) (iref : Int) (valid : Bool) (c : Core) : Core :=
  let m := cfgOf c
  let a := axAt c x
  let vdc : Nat := 10 * a.up.vdc
  let i := currents m x a
  let free (k : Nat) : Nat := (Config.dutyAtZero x c.tb.cp k).toNat
  if vdc = 0 then
    modAx x (fun a => { a with dutyU := free 0, dutyV := free 1, dutyW := if isDc m x then 0 else free 2 }) c
  else if isDc m x then
    let (u, q) := piStep m x (iref - i.2) a.intQ vdc (!valid)
    modAx x (fun a => { a with
      intQ := q
      dutyU := duty (32768 + roundDiv (u * 32768) vdc)
      dutyV := duty (32768 - roundDiv (u * 32768) vdc)
      dutyW := 0 }) c
  else
    let vm := roundDiv ((vdc : Int) * 2 ^ 30) sqrt3
    let (ud, d) := piStep m x (-i.1) a.intD vm (!valid)
    let lq : Int := isqrt (vm * vm - ud * ud).toNat
    let (uq, q) := piStep m x (iref - i.2) a.intQ lq (!valid)
    let lead := angleOf m x (3 * signed 32 (a.encL - a.encB).toNat)
    let t := (((thetaOf m x a : Int) + roundDiv lead 2) % 65536).toNat
    let (pu, pv, pw) := phases t ud uq
    modAx x (fun a => { a with
      intD := d
      intQ := q
      dutyU := duty (32768 + roundDiv (pu * 65536) vdc)
      dutyV := duty (32768 + roundDiv (pv * 65536) vdc)
      dutyW := duty (32768 + roundDiv (pw * 65536) vdc) }) c

/-- Period 0 of a tick: x of the tick, its history, and the following error (R209, R214, R217). -/
def periodZero (x : Nat) (c : Core) : Core :=
  let m := cfgOf c
  let c := modAx x (fun a =>
    let n := posOfEnc m x a.encL a.encRef
    let a := { a with xPrev := if a.vHist = [] then n else a.x, x := n, p0 := a.up }
    { a with p0Iq := (currents m x a).2, vHist := (vMeas a :: a.vHist).take 9, atLim := 0 }) c
  let a := axAt c x
  let above := a.st = .on && a.hasSp && decide (256 * (img16 m (axBlk x + 54) : Int) < (a.sp - a.x).natAbs)
  let n := if above then a.feCnt + 1 else 0
  runDue (img8 m (axBlk x + 53)) n 6 x (modAx x (fun a => { a with feCnt := n }) c)

/-- The integrators are held at 0: the axis is not ON, or its latest VALID frame shows BRIDGE_ON 0 (R210). -/
def intsHeld (a : AxisSt) : Bool := a.st != .on || !bitOf a.up.status 4

/-- The three integrators of axis `x` at 0 where R210 holds them there. -/
def holdInts (x : Nat) (c : Core) : Core :=
  modAx x (fun a => if intsHeld a then { a with intD := 0, intQ := 0, intV := 0 } else a) c

/-- The loops of axis `x` in period `k`, for the duties of the next period (R210, R216 to R218). -/
def loopStep (k x : Nat) (valid : Bool) (c : Core) : Core :=
  let m := cfgOf c
  let c := holdInts x c
  let lim := curLimits c x
  let (r, ev) := curRef c x (k + 1)
  let iref := clampI lim.1 lim.2 r
  let a := axAt c x
  let iv := if k = 0 && valid then
      clampI (lim.1 * 65536) (lim.2 * 65536) (a.intV + roundDiv (fit64 ((img32 m (axBlk x + 32) : Int) * ev)) 31250) else a.intV
  let c := modAx x (fun a => { a with intV := iv, atLim := a.atLim + b2n (iref == lim.1 || iref == lim.2) }) c
  holdInts x (currentLoop x iref valid (axMax x 3 iref.natAbs c))

/-- The end of a tick's feedback: STALL (R219) and the in-position window at the next TICK, which counts at rest and in motion
alike (R178). -/
def tickEnd (x : Nat) (c : Core) : Core :=
  let m := cfgOf c
  let a := axAt c x
  let slow := decide ((roundDiv (vMeas a) 256).natAbs < img16 m (axBlk x + 50))
  let n := if a.atLim = 4 && slow then min (a.stallCnt + 1) 256 else 0
  let near := a.hasSp && decide ((posNow c x - a.spN).natAbs ≤ 256 * img16 m (motAxis x + 12))
  let q := if near then min (a.ipCnt + 1) 256 else 0
  let c := modAx x (fun a => { a with
    stallCnt := n
    stall := a.stall && n != 0
    ipCnt := q
    inPos := a.inPos && q != 0 }) c
  let c := if a.hasSp then axMax x 0 (roundDiv (a.sp - a.x).natAbs 256) c else c
  let d1 := if n = img8 m (axBlk x + 52) && n ≠ 0 then [Due.stall x] else []
  let d2 := if q = img8 m (motAxis x + 14) && q ≠ 0 then [Due.inPos x] else []
  { c with seq.due := c.seq.due ++ d1 ++ d2 }

/-- Energies and the mean current of the tick (R262, R263); energies in 1/3 200 µJ. -/
def account (x : Nat) (c : Core) : Core :=
  let m := cfgOf c
  modAx x (fun a => { a with
    iSum := a.iSum + (if a.st = .on then (currents m x a).2.natAbs else 0)
    eDrawn := a.eDrawn + a.up.vdc * a.up.idc.toNat
    eRegen := a.eRegen + a.up.vdc * (-a.up.idc).toNat }) c

/-- CLEARING lasts one current period (R196); its frame, here or from the twin alone, carries the SEQ of the period (R199). -/
def clearingEnds (x : Nat) (c : Core) : Core :=
  modAx x (fun a => if a.st = .clearing then { a with st := .on, clearSeq := some ((c.tb.cp - 1) % 65536), hallOn := none } else a) c

/-- The cut-off of axis `x` in period `k` (R207 to R219). -/
def cutoffAxis (k x : Nat) (c : Core) : Core :=
  let l := linkAt c x
  let cls := classify l
  let c := modLink x (fun l => { l with cls := cls }) c
  let c := match l.sent, l.rx, cls with
    | some sent, some rx, .valid => validFrame true x rx.bytes sent c
    | some _, _, _ => badFrame x cls c
    | none, some rx, _ =>
      let seq := field rx.bytes 0 2
      if rxOk rx && l.locked && !rx.late then validFrame false x rx.bytes (seq, downFrame c x seq) c else c
    | none, none, _ => c
  let valid := decide (cls = .valid) || (l.sent.isNone && l.locked && (l.rx.any fun r => rxOk r && !r.late))
  let c := if k = 0 then periodZero x c else c
  let c := loopStep k x valid (account x c)
  clearingEnds x (if k = 3 then tickEnd x c else c)

/-- Four links with a mismatch in one tick (R375 code 6). -/
def manyMismatches (c : Core) : Core :=
  let n := ((List.range 36).filter fun x => (linkAt c x).mismTick).length
  if standbyIn c && 4 ≤ n && !c.seq.due.contains .hashDiverge then { c with seq.due := c.seq.due ++ [.hashDiverge] } else c

/-- The cut-off of a period on every named axis (R207). -/
def cutoffAxes (c : Core) : Core :=
  manyMismatches (((List.range 36).filter (axisConf (cfgOf c))).foldl (fun c x => cutoffAxis ((c.tb.cp + 3) % 4) x c) c)

/-- An axis fault that is due is taken (R209). -/
def takeAxisFault (code x : Nat) (s : State) : State :=
  if s.core.seq.due.contains (.axisFault code x) then
    { s with core := axisFault code x { s.core with seq.due := s.core.seq.due.erase (.axisFault code x) } }
  else s

/-- UP_LOST (R209). -/
def execUpLost (x : Fin 36) (s : State) : Host.Outcome State Fault Refusal := .next (takeAxisFault 1 x s)
/-- HALL_INVALID (R209). -/
def execHallInvalid (x : Fin 36) (s : State) : Host.Outcome State Fault Refusal := .next (takeAxisFault 4 x s)
/-- HALL_ENC_DISAGREE (R209). -/
def execHallEncDisagree (x : Fin 36) (s : State) : Host.Outcome State Fault Refusal := .next (takeAxisFault 5 x s)
/-- FOLLOWING (R209). -/
def execFollowing (x : Fin 36) (s : State) : Host.Outcome State Fault Refusal := .next (takeAxisFault 6 x s)
/-- BRIDGE_DROP (R209). -/
def execBridgeDrop (x : Fin 36) (s : State) : Host.Outcome State Fault Refusal := .next (takeAxisFault 7 x s)

/-- An axis comes into position (R178). -/
def takeInPos (x : Nat) (c : Core) : Core :=
  if c.seq.due.contains (.inPos x) then modAx x (fun a => { a with inPos := true }) { c with seq.due := c.seq.due.erase (.inPos x) }
  else c

/-- IN_POSITION (R178). -/
def execInPosition (x : Fin 36) (s : State) : Host.Outcome State Fault Refusal := .next { s with core := takeInPos x s.core }

/-- An axis stalls (R219). -/
def takeStall (x : Nat) (c : Core) : Core :=
  if c.seq.due.contains (.stall x) then modAx x (fun a => { a with stall := true }) { c with seq.due := c.seq.due.erase (.stall x) }
  else c

/-- STALL (R219). -/
def execStall (x : Fin 36) (s : State) : Host.Outcome State Fault Refusal := .next { s with core := takeStall x s.core }

/-- RECEIVER_LOCK (R224): 16 consecutive K28.5 characters. -/
def execReceiverLock (x : Fin 36) (s : State) : Host.Outcome State Fault Refusal :=
  .next (if s.core.sys.inReset then s else { s with core := modLink x (fun l => { l with locked := true }) s.core })

/-- RECEIVER_LOCK_LOSS (R224): 4 code violations within 16 characters. -/
def execReceiverLockLoss (x : Fin 36) (s : State) : Host.Outcome State Fault Refusal :=
  .next (if s.core.sys.inReset then s else { s with core := modLink x (fun l => { l with locked := false }) s.core })

/-! ### DIAG_READ item 0x03 (R223) -/

/-- Axis state code (R223). -/
def axisCode : AxisState → Nat
  | .off => 0
  | .clearing => 1
  | .on => 2

/-- The 32 bytes of link `x`. -/
def diagLink (c : Core) (x : Nat) : Bytes :=
  let l := linkAt c x
  toLe 4 l.cValid.toNat ++ toLe 4 l.cInvalid.toNat ++ toLe 4 l.cLate.toNat ++ toLe 4 l.cSeq.toNat ++ toLe 4 l.cHash.toNat
    ++ toLe 4 l.cUsed.toNat ++ toLe 2 l.cOther ++ toLe 2 l.cTrip ++ toLe 1 l.lastTrip ++ toLe 1 l.fault
    ++ toLe 1 (axisCode (axAt c x).st + 4 * b2n l.muted) ++ [0]

/-- Item 0x03 (R223). -/
def diagLinks (c : Core) : Bytes := ((List.range 36).map (diagLink c)).flatten

end Sys2Proof.Machine
end

