-- ==== Sys2Proof/Machine/Bar0.lean ====
section
/-! DEFINITION. The set-up registers of BAR0 (R469 to R479), and the flow commands that are written there. -/

namespace Sys2Proof.Machine

/-! ### Flows (R78 to R80) -/

/-- Flow `n`. -/
def flowAt (c : Core) (n : Nat) : FlowSt := tget {} c.host.flows n

/-- Write flow `n`. -/
def setFlow (n : Nat) (f : FlowSt) (c : Core) : Core := { c with host.flows := tset {} c.host.flows n f }

/-- A flow goes into ERROR with a cause; its indices and ring stay (R78, R83). -/
def flowError (n cause : Nat) (c : Core) : Core := setFlow n { flowAt c n with state := .error, cause } c

/-- A flow is disabled: completions of its operations will be discarded, and its fetches are given up (R80). -/
def disableFlow (n : Nat) (c : Core) : Core :=
  let f := flowAt c n
  { setFlow n { f with state := .disabled, cause := 0, gen := f.gen + 1, fails := 0, cmd := f.cmd % 4 } c with
    host.fetchQ := c.host.fetchQ.filter fun e => e.1 != n }

/-- Every flow that is not DISABLED is disabled (R76, R476). -/
def disableAll (c : Core) : Core :=
  (List.range 256).foldl (fun c n =>
    if (flowAt c n).state ≠ .disabled || 4 ≤ (flowAt c n).cmd then disableFlow n c else c) c

/-- HP_FLOW_CMD: one pending command for each flow, the last one written (R478). -/
def flowCmd (value : U32) (c : Core) : Core :=
  let n := value.toNat % 256
  let cmd := value.toNat / 256 % 4
  if cmd = 1 || cmd = 2 then
    let f := flowAt c n
    setFlow n { f with cmd := f.cmd / 4 * 4 + cmd } c
  else c

/-- Pending commands start in ascending flow number, outside SELFTEST (R79, R478). -/
def cmdStarts (c : Core) (n cmd : Nat) : Bool :=
  !c.sys.inReset && c.sys.mode != .selftest && (flowAt c n).cmd % 4 == cmd &&
    (List.range n).all fun i => (flowAt c i).cmd % 4 == 0

/-- The reads of a LOAD: the table entry, and the flow's doorbell word (R78). -/
def loadReads (n : Nat) (c : Core) : Core :=
  emit (.hostRead (c.bar.db.toNat + 4 * n) 4) (emit (.hostRead (c.bar.flowTable.toNat + 64 * n) 64) c)

/-- A LOAD starts: the flow is disabled first; without both bases it goes into ERROR, cause 10 (R80, R479). Its reads wait until
the port issues requests (R76). -/
def loadFlow (n : Nat) (c : Core) : Core :=
  if cmdStarts c n 1 then
    let c := disableFlow n c
    let f := flowAt c n
    if c.bar.flowTable = 0 || c.bar.db = 0 then setFlow n { f with state := .error, cause := 10, cmd := 0 } c
    else
      let c := setFlow n { f with cmd := 4 } c
      if portUp c then loadReads n c else c
  else c

/-- LOAD (R78). -/
def execLoad (flow : Fin 256) (s : State) : Host.Outcome State Fault Refusal := .next { s with core := loadFlow flow s.core }

/-- A DISABLE starts: the flow is DISABLED at once (R78). -/
def disableCmd (n : Nat) (c : Core) : Core :=
  if cmdStarts c n 2 then
    let c := disableFlow n c
    setFlow n { flowAt c n with cmd := 0 } c
  else c

/-- DISABLE (R78). -/
def execDisable (flow : Fin 256) (s : State) : Host.Outcome State Fault Refusal := .next { s with core := disableCmd flow s.core }

/-- A ring size is permitted (R77). -/
def ringSize (n : Nat) : Bool := n == 0 || (List.range 9).any fun i => n == 2 ^ (i + 4)

/-- What a flow table entry and the doorbell word make of the flow (R78). -/
def flowFrom (n : Nat) (f : FlowSt) (entry : HostRead) (db : Option U32) : FlowSt :=
  let err (k : Nat) : FlowSt := { f with state := .error, cause := k, sqSize := 0, cqSize := 0 }
  match entry with
  | none => err 6
  | some e =>
    let sq := field e 16 2
    let cq := field e 18 2
    let cls := byteAt e 20
    let g : FlowSt := { f with
      sqBase := field e 0 8, cqBase := field e 8 8, sqSize := sq, cqSize := cq, cls, quota := byteAt e 21
      epoch := byteAt e 22, st := 0, sh := 0, ct := 0, ch := 0, cause := 0, fails := 0 }
    if field e 60 4 ≠ crc32c (slice e 0 60) || !allZero (slice e 23 37) then err 1
    else if !ringSize sq || !ringSize cq then err 2
    else if (cls = 0) != decide (n < 8) || 3 < cls then err 3
    else if g.sqBase % 64 ≠ 0 || g.cqBase % 32 ≠ 0 then err 4
    else if sq = 0 || cq = 0 then { g with state := .disabled }
    else if db ≠ some 0 then err (if db.isNone then 6 else 5)
    else if g.quota = 0 then { g with state := .suspended }
    else { g with state := .enabled }

/-- FLOW_ENTRY_READ (R78): the entry and the doorbell word of a flow that is being loaded. -/
def execFlowEntryRead (flow : Fin 256) (entry : HostRead) (db : Option U32) (s : State) : Host.Outcome State Fault Refusal :=
  let f := flowAt s.core flow
  .next (if 4 ≤ f.cmd then
      { s with core := setFlow flow (flowFrom flow { f with cmd := f.cmd % 4 } (ofLength 64 entry) db) s.core }
    else s)

/-! ### Registers -/

/-- An access to BAR0 finds whether 25 ms have passed since the internal reset release (R51, R469): not in the first self-test
step, which ends within 5 ms (R46); yes once the steps that have ended took as long; between the two no command tells, and it is
a free value (log 23). -/
def portSettles (c : Core) : Core :=
  if !c.sys.early || c.sys.stStep = 1 then c
  else if 25000 ≤ c.sys.stUs then { c with sys.early := false }
  else
    let d := draw c
    { d.2 with sys.early := d.1.getLsbD 0 }

/-- Writes reach the registers (R52, R469): not in reset, not in SAFE_TALK, and not before 25 ms have passed. -/
def barOpen (c : Core) : Bool := !c.sys.inReset && c.sys.mode != .safeTalk && !c.sys.early

/-- Number of low bits of an address register that read as 0 (R475). -/
def addrAlign (off : Nat) : Nat := if off = 0x108 then 6 else if off = 0x118 then 2 else 12

/-- The committed value of an address register. -/
def addrReg (b : BarSt) (off : Nat) : U64 :=
  match off with
  | 0x100 => b.flowTable
  | 0x108 => b.db
  | 0x110 => b.mirror
  | 0x118 => b.hb
  | 0x130 => b.lib
  | _ => 0

/-- A committed write to an address register acts (R476). -/
def commitAddr (off : Nat) (v : U64) (c : Core) : Core :=
  match off with
  | 0x100 => disableAll { c with bar.flowTable := v }
  | 0x108 => disableAll { c with bar.db := v }
  | 0x110 => { c with bar.mirror := v }
  | 0x118 => { c with bar.hb := v, host.hbRef := none }
  | 0x130 => { c with bar.lib := v }
  | _ => c

/-- A write to half of an address register: _LO is held, _HI commits both (R470); the lock refuses both (R473). -/
def writeAddr (off : Nat) (hi : Bool) (value : U32) (c : Core) : Core :=
  if c.bar.lock || !barOpen c then c
  else if hi then
    let v := value.toNat * 2 ^ 32 + (tget 0 c.bar.held off).toNat
    commitAddr off (BitVec.ofNat 64 (v / 2 ^ addrAlign off * 2 ^ addrAlign off)) c
  else { c with bar.held := tset 0 c.bar.held off value }

/-- HP_FLOW_TABLE_BASE (R475, R476). -/
def execHpFlowTableBase (hi : Bool) (value : U32) (s : State) : Host.Outcome State Fault Refusal :=
  .next { s with core := writeAddr 0x100 hi value (portSettles s.core) }

/-- HP_DB_BASE (R475, R476). -/
def execHpDbBase (hi : Bool) (value : U32) (s : State) : Host.Outcome State Fault Refusal :=
  .next { s with core := writeAddr 0x108 hi value (portSettles s.core) }

/-- HP_MIRROR_BASE (R475, R476). -/
def execHpMirrorBase (hi : Bool) (value : U32) (s : State) : Host.Outcome State Fault Refusal :=
  .next { s with core := writeAddr 0x110 hi value (portSettles s.core) }

/-- HP_HB_ADDR (R475, R476). -/
def execHpHbAddr (hi : Bool) (value : U32) (s : State) : Host.Outcome State Fault Refusal :=
  .next { s with core := writeAddr 0x118 hi value (portSettles s.core) }

/-- CP_LIB_BASE (R475, R476). -/
def execCpLibBase (hi : Bool) (value : U32) (s : State) : Host.Outcome State Fault Refusal :=
  .next { s with core := writeAddr 0x130 hi value (portSettles s.core) }

/-- SYS_LOCK: bit 0 sets the lock (R473). -/
def writeLock (value : U32) (c : Core) : Core :=
  if barOpen c && value.getLsbD 0 then { c with bar.lock := true } else c

/-- SYS_LOCK (R473). -/
def execSysLock (value : U32) (s : State) : Host.Outcome State Fault Refusal := .next
  { s with core := writeLock value (portSettles s.core) }

/-- HP_POLL_NORMAL: a PERIOD out of range changes nothing (R477). -/
def writePoll (value : U32) (c : Core) : Core :=
  let v := value.toNat % 1024
  if barOpen c && 1 ≤ v && v ≤ 1000 then { c with bar.poll := v } else c

/-- HP_POLL_NORMAL (R477). -/
def execHpPollNormal (value : U32) (s : State) : Host.Outcome State Fault Refusal := .next
  { s with core := writePoll value (portSettles s.core) }

/-- HP_HB_TIMEOUT: a TIMEOUT out of range changes nothing; the lock refuses it (R473, R477). -/
def writeTimeout (value : U32) (c : Core) : Core :=
  let v := value.toNat % 16384
  if barOpen c && !c.bar.lock && 10 ≤ v && v ≤ 10000 then { c with bar.timeout := v } else c

/-- HP_HB_TIMEOUT (R477). -/
def execHpHbTimeout (value : U32) (s : State) : Host.Outcome State Fault Refusal :=
  .next { s with core := writeTimeout value (portSettles s.core) }

/-- A soft-reset request (R61, R474, R54): refused with a record while a portal of an ACTIVE or SOLO unit moves. -/
def softReset (s : State) : State :=
  if s.core.sys.mode = .safeTalk || s.core.sys.inReset then s
  else if claiming s.core && anyMoving s.core then { s with core := event 0x004 0x00 [] s.core }
  else startFlush .soft false none s

/-- SYS_RESET: only the key 0x5AA5 requests a reset (R474). -/
def writeReset (value : U32) (s : State) : State :=
  if barOpen s.core && value == 0x5AA5 then softReset s else s

/-- SYS_RESET (R474). -/
def execSysReset (value : U32) (s : State) : Host.Outcome State Fault Refusal := .next
  (writeReset value { s with core := portSettles s.core })

/-- A write of all four bytes to a register of the map; any other offset ignores it (R469, R471). -/
def barWrite (off : Nat) (value : U32) (s : State) : State :=
  let f (g : Core → Core) : State := { s with core := g s.core }
  match off with
  | 0x040 => f (writeLock value)
  | 0x044 => writeReset value s
  | 0x100 => f (writeAddr 0x100 false value)
  | 0x104 => f (writeAddr 0x100 true value)
  | 0x108 => f (writeAddr 0x108 false value)
  | 0x10C => f (writeAddr 0x108 true value)
  | 0x110 => f (writeAddr 0x110 false value)
  | 0x114 => f (writeAddr 0x110 true value)
  | 0x118 => f (writeAddr 0x118 false value)
  | 0x11C => f (writeAddr 0x118 true value)
  | 0x120 => f (writePoll value)
  | 0x124 => f (writeTimeout value)
  | 0x128 => if barOpen s.core then f (flowCmd value) else s
  | 0x130 => f (writeAddr 0x130 false value)
  | 0x134 => f (writeAddr 0x130 true value)
  | 0x140 => if barOpen s.core then f (fun c => { c with bar.diagSel := value.toNat % 128 }) else s
  | _ => s

/-- BAR0_WRITE (R469): byte enables that do not cover the register leave it. -/
def execBar0Write (off : BitVec 16) (value : U32) (be : BitVec 4) (s : State) : Host.Outcome State Fault Refusal :=
  .next (if be == 0xF then barWrite off.toNat value { s with core := portSettles s.core } else s)

/-! ### The configuration space of the endpoint (R72, R73) -/

/-- The 32-bit word at an offset of the configuration header, as far as R72 and R73 fix it: the IDs, Bus Master Enable, the class
code, the two 64-bit BARs that are not prefetchable, the subsystem IDs, and Interrupt Pin 0. BAR4, BAR5 and the expansion ROM
read as 0. No command of the table reads or writes it but through Bus Master Enable (log 31). -/
def configWord (b : BarSt) (off : Nat) : Nat :=
  match off with
  | 0x00 => 0x36121F8A
  | 0x04 => 4 * b2n b.bme
  | 0x08 => 0x08800000
  | 0x10 => b.base0.toNat % 2 ^ 32 / 2 ^ 16 * 2 ^ 16 + 4
  | 0x14 => b.base0.toNat / 2 ^ 32
  | 0x18 => b.base2.toNat % 2 ^ 32 / 2 ^ 18 * 2 ^ 18 + 4
  | 0x1C => b.base2.toNat / 2 ^ 32
  | 0x2C => 0x36121F8A
  | _ => 0

/-! ### Reads (R470 to R472) -/

/-- First 8 bytes of the SHA-256 of an image, first byte lowest; 0 for none (R472). -/
def imageHash (m : Option Image) : Nat :=
  match m with
  | some m => field (sha256 (imgBytes m)) 0 8
  | none => 0

/-- SYS_STATUS (R472). -/
def sysStatus (c : Core) : Nat :=
  modeCode c.sys.mode + roleCode c.twin.role * 2 ^ 8 + b2n (unsynced c) * 2 ^ 10 + b2n c.sys.hostLost * 2 ^ 11
    + lcCode c.nv.lc * 2 ^ 12 + b2n (devLatched c) * 2 ^ 15 + c.sys.cause % 256 * 2 ^ 16 + resetCode c.sys.resetKind * 2 ^ 24

/-- SYS_SELFTEST (R472). -/
def sysSelftest (c : Core) : Nat :=
  c.sys.stLast % 16 + c.sys.stFail % 256 * 2 ^ 8 + min c.sys.stDur 65535 * 2 ^ 16

/-- The 64-bit value of a read-only register by the offset of its _LO (R472). -/
def roReg (c : Core) (off : Nat) : Option Nat :=
  match off with
  | 0x08 => some Config.serial.toNat
  | 0x18 => some (stampOf c)
  | 0x20 => some (readTb islHost c)
  | 0x28 => some (imageHash c.run.cfg)
  | 0x30 => some (imageHash c.nv.cfg)
  | _ => none

/-- A read of a BAR0 offset (R469 to R472); a write-only field reads as 0. -/
def barRead (c : Core) (off : Nat) : Nat :=
  match off with
  | 0x000 => 0x3612
  | 0x004 => Config.dieRev.toNat
  | 0x010 => sysStatus c
  | 0x014 => sysSelftest c
  | 0x040 => b2n c.bar.lock
  | 0x120 => c.bar.poll
  | 0x124 => c.bar.timeout
  | 0x140 => c.bar.diagSel
  | _ =>
    let base := off / 8 * 8
    let v := match roReg c base with
      | some v => v
      | none => (addrReg c.bar base).toNat
    if off % 8 = 0 then v % 2 ^ 32
    else if off % 8 = 4 then
      match tget none c.bar.latched off with
      | some h => h.toNat
      | none => v / 2 ^ 32
    else 0

/-- A read of a BAR0 offset that the port answers (R470): the _LO half of a read-only 64-bit register latches the whole value. -/
def loRead (o : Nat) (c : Core) : Core :=
  let c := match roReg c o with
    | some v => { c with bar.latched := tset none c.bar.latched (o + 4) (some (BitVec.ofNat 32 (v / 2 ^ 32))) }
    | none => c
  emit (.bar (BitVec.ofNat 32 (barRead c o))) c

/-- LO_READ_LATCH (R470). Before the port answers reads, it returns Request Retry Status (R51). -/
def execLoReadLatch (off : BitVec 16) (s : State) : Host.Outcome State Fault Refusal :=
  let c := portSettles s.core
  .next (if s.core.sys.inReset then s else { s with core := if c.sys.early then emit .barRetry c else loRead off.toNat c })

end Sys2Proof.Machine
end

