-- ==== Sys2Proof/Machine/Entry.lean ====
section
/-! DEFINITION. Mode entry (R39), and the entry into SAFE_TALK (R52, R53), which is one from SELFTEST only. -/

namespace Sys2Proof.Machine

/-- What every mode entry does: the queued flow commands start (R79), HOST_LOST is asserted (R104), and the records of wipes
that could not write one are written (R455). -/
def modeEntry (c : Core) : Core :=
  let c := (List.range 256).foldl (fun c n => disableCmd n (loadFlow n c)) { c with sys.hostLost := true }
  { c.sys.wipedRec.foldl (fun c k => event 0x0C2 0x0F [k] c) c with sys.wipedRec := [] }

/-- The core's part of the entry into SAFE_TALK (R52, R53): no torque, no commanded outputs, no forces, no reset that waits for
its turn (R54). The time base runs, also where the self-test had not started it, and the ports transmit again that PARKED had
silenced (R52, log 23). -/
def safeTalkCore (cause : Nat) (c : Core) : Core :=
  let c := changeMode .safeTalk cause 0 0 c
  let c := axesAllOff c
  startCount { c with seq.out := 0, seq.forces := [], sys.wantLockout := none, sys.svcWait := none, sys.stStep := 0,
                      sys.deferred := false, sys.txOff := c.sys.txOff && c.sys.flush.isSome }

/-- The unit enters SAFE_TALK with a cause, from any mode but SAFE_TALK (R38, R52), unless a reset has been triggered (R40); from
SELFTEST this is a mode entry (R39). -/
def enterSafeTalk (cause : Nat) (s : State) : State :=
  if s.core.sys.mode = .safeTalk || s.core.sys.inReset || resetting s.core then s
  else
    let c := safeTalkCore cause (relinquish s.core)
    { s with
      isa := islSafeTalk s.isa
      isb := islSafeTalk s.isb
      die := dieRunOff { s.die with parked := false }
      core := if s.core.sys.mode = .selftest then modeEntry c else c }

end Sys2Proof.Machine
end

