-- ==== Sys2Proof/Machine/Memory.lean ====
section
/-! DEFINITION. The SRAM banks, the SECDED code, BAR2 and Opal (R437 to R450, R452, R453). A word is named by its
index in its bank, whatever row of the array carries it after repair (R449). -/

namespace Sys2Proof.Machine

/-! ### One word (R439, R443) -/

/-- What a checked read of a word delivers (R439). -/
inductive ReadKind where
  | clean | corrected | bad
  deriving DecidableEq, Repr

/-- Check bits that differ from the code's by one bit, or by the column of one data bit (R439). -/
def flipOf (delta : Nat) : Option (Option Nat) :=
  if (List.range 7).any fun i => delta == 2 ^ i then some none
  else ((List.range 32).find? fun i =>
      delta == (Config.eccEncode (BitVec.ofNat 32 (2 ^ i)) ^^^ Config.eccEncode 0).toNat).map some

/-- The checked read of raw data whose stored check bits differ from the code's by `delta`. -/
def eccRead (raw : U32) (delta : Nat) : U32 × ReadKind :=
  if delta = 0 then (raw, .clean)
  else match flipOf delta with
    | some none => (raw, .corrected)
    | some (some i) => (raw ^^^ BitVec.ofNat 32 (2 ^ i), .corrected)
    | none => (raw, .bad)

/-- Word `w` of a bank, read with its check. -/
def bankRead (b : BankSt) (w : Nat) : U32 × ReadKind := eccRead (tget 0 b.words w) (tget 0 b.checks w)

/-- Word `w` of a bank, written with fresh check bits. -/
def bankWrite (w : Nat) (v : U32) (b : BankSt) : BankSt :=
  { b with words := tset 0 b.words w v, checks := tset 0 b.checks w 0 }

/-- The mask of a write's byte enables (R443). -/
def beMask (be : BitVec 4) : U32 :=
  bitsBy 32 fun i => be.getLsbD (i / 8)

/-- A write through one of the first three views of R443. -/
def viewWrite (view : Nat) (old v : U32) (m : U32) : U32 :=
  match view with
  | 1 => old ||| (v &&& m)
  | 2 => old &&& ~~~(v &&& m)
  | _ => (old &&& ~~~m) ||| (v &&& m)

/-! ### Reads that are counted and recorded (R440, R452, R453) -/

/-- Replace bank `n`. -/
def setBank (n : Nat) (b : BankSt) (c : Core) : Core := { c with mem.banks := tset {} c.mem.banks n b }

/-- Bank `n`. -/
def bankAt (c : Core) (n : Nat) : BankSt := tget {} c.mem.banks n

/-- A corrected read: the counters, the event, the write-back on the port of the read, and the row that comes forward at the
third of one sweep (R439, R450, R452). -/
def noteCorrected (n w q : Nat) (portB : Bool) (c : Core) : Core :=
  let b := bankAt c n
  let h := tget 0 b.hot w + 1
  let b := { b with
    corrected := b.corrected + 1
    lastCorr := BitVec.ofNat 32 w
    hot := tset 0 b.hot w h
    wb := if b.wb.length < 8 && !(b.wb.any fun e => e.1 == w) then b.wb ++ [(w, portB)] else b.wb }
  let c := event 0x0D0 0x0E [n, w, q] (setBank n b c)
  if h = 3 then { c with mem.forward := c.mem.forward ++ [(n, w / 64)] } else c

/-- An uncorrectable read: the counters and the event (R452). -/
def noteBad (n w q : Nat) (c : Core) : Core :=
  let b := bankAt c n
  event 0x0D1 0x0E [n, w, q] (setBank n { b with bad := b.bad + 1, lastBad := BitVec.ofNat 32 w } c)

/-- An uncorrectable word of the snapshot buffers (R440): the snapshot that they hold is not sent, or counts as missing, which is
bad (R373); where they hold none, it is the next one. -/
def badSnapWord (c : Core) : Core :=
  if c.twin.txSnap.isSome || c.twin.snapIn.isSome then { c with twin.txSnap := none, twin.snapIn := none }
  else { c with twin.snapBad := true }

/-- An uncorrectable word of the staging FIFO (R440): the entry that it belongs to is discarded and counted. The spec does not lay
the entries out over the words: which one it is, is a free value (log 21). -/
def badStaged (c : Core) : Core :=
  let d := draw c
  let i := d.1.toNat % max 1 c.recd.fifo.length
  match c.recd.fifo[i]? with
  | some r => countLost r { d.2 with recd.fifo := c.recd.fifo.eraseIdx i }
  | none => c

/-- An uncorrectable word of the operation engine (R440): the operation concerned completes with INTERNAL, or the flow of one that
cannot be identified goes into ERROR with cause 9, or nothing lies in the word. The spec does not lay operations and flows out
over the words: which case holds, and for which of them, is a free value (log 21). -/
def badOpWord (c : Core) : Core :=
  let d := draw c
  let v := d.1.toNat / 3
  match d.1.toNat % 3 with
  | 0 =>
    match (liveSlots c)[v % max 1 (liveSlots c).length]? with
    | some e => finish e.1 0xFF 0 0 0 d.2
    | none => d.2
  | 1 => if (flowAt c (v % 256)).state = .enabled then flowError (v % 256) 9 d.2 else d.2
  | _ => d.2

/-- The effect of an uncorrectable read, whatever the requestor (R440): banks 0 to 15 lead to SAFE_TALK. -/
def badEffect (n : Nat) (s : State) : State :=
  if n < 16 then enterSafeTalk 0x81 s
  else { s with core := if n < 18 then badSnapWord s.core else if n = 18 then badStaged s.core else badOpWord s.core }

/-- Count, record and act on the kind of a read by requestor `q`, on port B or on port A. -/
def noteRead (n w q : Nat) (portB : Bool) (k : ReadKind) (s : State) : State :=
  match k with
  | .clean => s
  | .corrected => { s with core := noteCorrected n w q portB s.core }
  | .bad => badEffect n { s with core := noteBad n w q s.core }

/-! ### The reads of the other requestors (R437, R438) -/

/-- The words of banks `lo` to `hi` − 1 that are not clean, in banks that serve accesses. -/
def foulWords (lo hi : Nat) (c : Core) : List (Nat × Nat) :=
  (c.mem.banks.filter fun e => decide (lo ≤ e.1 ∧ e.1 < hi) && e.2.power == .on).flatMap fun e =>
    e.2.checks.map fun w => (e.1, w.1)

/-- The requestor on port A of a bank, by its code of R452 (R438). -/
def portUser (n : Nat) : Nat :=
  if n < 8 then 0 else if n < 11 then 1 else if n < 16 then 0 else if n < 18 then 2 else if n = 18 then 3 else 5

/-- A requestor may read one word that is not clean: the spec does not lay its data out over the words, so whether it reads this
one now is a free value (R439, R440, log 21). -/
def userRead (s : State) (e : Nat × Nat) : State :=
  let d := draw s.core
  let s := { s with core := d.2 }
  if d.1.getLsbD 0 then noteRead e.1 e.2 (portUser e.1) false (bankRead (bankAt s.core e.1) e.2).2 s else s

/-- What the requestors of banks `lo` to `hi` − 1 read in one of their periods. -/
def userReads (lo hi : Nat) (s : State) : State := (foulWords lo hi s.core).foldl userRead s

/-! ### BAR2 (R74, R443 to R445) -/

/-- BAR2 is open, on an existing bank (R74, R444). -/
def bar2Open (c : Core) : Bool := c.sys.mode == .workshop && !c.sys.inReset && c.bar.diagSel % 32 < 24

/-- Bank and word that a BAR2 offset selects (R444, R445). -/
def bar2Word (c : Core) (off : BitVec 18) : Nat × Nat :=
  (c.bar.diagSel % 32, c.bar.diagSel / 32 % 4 * 16384 + off.toNat / 4 % 16384)

/-- BAR2_READ: views 0 to 2 give the checked word, view 3 its stored check bits (R443). -/
def bar2Read (off : BitVec 18) (s : State) : State :=
  if !bar2Open s.core then
    { s with core := emit (.bar 0xFFFFFFFF) (hpCount 28 s.core) }
  else
    let (n, w) := bar2Word s.core off
    let b := bankAt s.core n
    if off.toNat / 65536 = 3 then
      let raw := tget 0 b.words w
      { s with core := emit (.bar (BitVec.ofNat 32 ((Config.eccEncode raw).toNat ^^^ tget 0 b.checks w))) s.core }
    else
      let r := bankRead b w
      noteRead n w 5 true r.2 { s with core := emit (.bar r.1) s.core }

/-- BAR2_READ (R443). -/
def execBar2Read (off : BitVec 18) (s : State) : Host.Outcome State Fault Refusal := .next (bar2Read off s)

/-- BAR2_WRITE (R443): a plain write of a whole word writes it; every other write of views 0 to 2 is a checked
read-modify-write; view 3 writes the check bits. -/
def bar2Write (off : BitVec 18) (v : U32) (be : BitVec 4) (s : State) : State :=
  if !bar2Open s.core then { s with core := hpCount 28 s.core }
  else
    let (n, w) := bar2Word s.core off
    let b := bankAt s.core n
    let view := off.toNat / 65536
    if view = 3 then
      let raw := tget 0 b.words w
      let m := if be.getLsbD 0 then v.toNat % 128 else (Config.eccEncode raw).toNat ^^^ tget 0 b.checks w
      { s with core := setBank n { b with checks := tset 0 b.checks w ((Config.eccEncode raw).toNat ^^^ m) } s.core }
    else if view = 0 && be == 0xF then { s with core := setBank n (bankWrite w v b) s.core }
    else if be == 0 && view = 0 then s
    else
      let r := bankRead b w
      let s := noteRead n w 5 true r.2 s
      { s with core := setBank n (bankWrite w (viewWrite view r.1 v (beMask be)) (bankAt s.core n)) s.core }

/-- BAR2_WRITE (R443). -/
def execBar2Write (off : BitVec 18) (value : U32) (be : BitVec 4) (s : State) : Host.Outcome State Fault Refusal :=
  .next (bar2Write off value be s)

/-- The oldest write-back of a port of a bank takes an idle cycle of that port (R439). -/
def writeBack (n : Nat) (portB : Bool) (c : Core) : Core :=
  let b := bankAt c n
  match b.wb.find? fun e => e.2 == portB with
  | some e =>
    if b.power ≠ .on then c
    else
      let r := bankRead b e.1
      let b := { b with wb := b.wb.erase e }
      if r.2 = .bad then setBank n b c else setBank n (bankWrite e.1 r.1 b) c
  | none => c

/-- ECC_WRITE_BACK (R439). -/
def execEccWriteBack (bank : Fin 24) (portB : Bool) (s : State) : Host.Outcome State Fault Refusal :=
  .next { s with core := writeBack bank portB s.core }

/-! ### Opal (R447 to R450) -/

/-- Modes in which Opal runs (R447). -/
def opalRuns (m : Mode) : Bool :=
  m == .shadow || m == .service || m == .workshop || m == .lockout || m == .provision

/-- Spare row `i` of bank `n` carries a repaired row (R449). -/
def spareUsed (c : Core) (n i : Nat) : Bool := (List.range 1024).any fun r => tget 0 c.nv.repair (n * 1024 + r) == i + 1

/-- The spare row that a repair takes: the lowest that is not in use and not marked unusable (R449). -/
def freeSpare (c : Core) (n : Nat) : Option Nat :=
  (List.range 8).find? fun i => !spareUsed c n i && !tbit c.nv.spareBad (n * 8 + i)

/-- The region after one, in sweep order: 1 024 rows, then the spare rows that are not in use (R447). -/
def opalNext (c : Core) (p : Nat × Nat) : Nat × Nat :=
  let step (p : Nat × Nat) : Nat × Nat := if p.2 + 1 < 1032 then (p.1, p.2 + 1) else ((p.1 + 1) % 24, 0)
  let skip (p : Nat × Nat) : Nat × Nat := if 1024 ≤ p.2 && spareUsed c p.1 (p.2 - 1024) then step p else p
  (List.range 9).foldl (fun p _ => skip p) (step p)

/-- The save reads and the restore of a row (R448): every word that was not clean is read with its check and
written back with fresh check bits. -/
def opalRow (n row : Nat) (s : State) : State :=
  let ws := ((bankAt s.core n).checks.map (·.1)).filter fun w => w / 64 == row
  ws.foldl (fun s w =>
    let r := bankRead (bankAt s.core n) w
    let s := noteRead n w 6 true r.2 s
    { s with core := setBank n (bankWrite w r.1 (bankAt s.core n)) s.core }) s

/-- A row that fails its march is repaired, or stays in service for want of a spare row (R449). -/
def opalFail (n row : Nat) (c : Core) : Core :=
  let b := bankAt c n
  let c := setBank n { b with failed := (b.failed + 1) % 65536 } c
  if 1024 ≤ row then { c with nv.spareBad := tset false c.nv.spareBad (n * 8 + (row - 1024)) true }
  else
    let old := tget 0 c.nv.repair (n * 1024 + row)
    let c := if old = 0 then c else { c with nv.spareBad := tset false c.nv.spareBad (n * 8 + (old - 1)) true }
    match freeSpare c n with
    | some i => event 0x0D2 0x0E [n, row, i] { c with nv.repair := tset 0 c.nv.repair (n * 1024 + row) (i + 1) }
    | none =>
      let b := bankAt c n
      if tbit b.noSpare row then c
      else event 0x0D3 0x0E [n, row] (setBank n { b with noSpare := tset false b.noSpare row true } c)

/-- The region that the slot tests: a row brought forward, or the next of the sweep (R450). -/
def opalTake (c : Core) : (Nat × Nat) × Core :=
  match c.mem.forward with
  | p :: rest => (p, { c with mem.forward := rest })
  | [] =>
    let p := c.mem.opal
    let q := opalNext c p
    let c := { c with mem.opal := q }
    let wrap := q.1 = 0 && q.2 = 0
    (p, if wrap then { c with mem.banks := (List.range 24).foldl (fun t n => tmod {} t n fun b => { b with hot := [] }) c.mem.banks } else c)

/-- One region test (R448). -/
def opalTest (bad : Bool) (s : State) : State :=
  if !opalRuns s.core.sys.mode || s.core.sys.inReset then s
  else
    let (p, c) := opalTake s.core
    let b := bankAt c p.1
    if b.power ≠ .on then { s with core := c }
    else
      let c := setBank p.1 { b with tested := b.tested + 1 } c
      let s := if p.2 < 1024 then opalRow p.1 p.2 { s with core := c } else { s with core := c }
      if bad then { s with core := opalFail p.1 p.2 s.core } else s

/-- OPAL_REGION_TEST (R448). -/
def execOpalRegionTest (bad : Bool) (s : State) : Host.Outcome State Fault Refusal := .next (opalTest bad s)

/-! ### DIAG_READ item 0x05 (R453) -/

/-- Spare rows of a bank in use, from the repair map. -/
def sparesUsed (c : Core) (n : Nat) : Nat := ((List.range 8).filter fun i => spareUsed c n i).length

/-- A bank entry. -/
def bankEntry (c : Core) (n : Nat) : Bytes :=
  let b := bankAt c n
  let st := match b.power with
    | .off => 0
    | .retention => 1
    | .on => 2
  toLe 4 b.corrected.toNat ++ toLe 4 b.bad.toNat ++ toLe 4 b.lastCorr.toNat ++ toLe 4 b.lastBad.toNat
    ++ toLe 4 b.tested.toNat ++ toLe 2 b.failed ++ toLe 1 (sparesUsed c n) ++ toLe 1 st ++ List.replicate 8 0

/-- A safety-memory entry. -/
def islEntry (i : IslSt) : Bytes :=
  toLe 4 i.memCorr.toNat ++ toLe 4 i.memBad.toNat ++ toLe 4 i.memLast.toNat ++ toLe 4 0

/-- The item. -/
def diagMemory (s : State) : Bytes :=
  ((List.range 24).map (bankEntry s.core)).flatten ++ islEntry s.isa ++ islEntry s.isb

end Sys2Proof.Machine
end

