-- ==== Sys2Proof/Machine/Host.lean ====
section
/-! DEFINITION. The host port: polling, descriptor fetch with its checks, completions, the status mirror and the
heartbeat (R72 to R111). -/

namespace Sys2Proof.Machine

/-! ### The link (R76) -/

/-- A hot reset, a link-down or the clearing of Bus Master Enable, which D3hot does too (R72, R76). PRESUMED from PCI Express
(log 31): a hot reset or a link-down clears Bus Master Enable as well. -/
def linkEvent (down : Bool) (c : Core) : Core :=
  let c := { c with bar.bme := false, bar.linkUp := c.bar.linkUp && !down }
  disableAll (if down then { c with bar.speed := 0, bar.width := 0 } else c)

/-- PCIE_LINK_EVENT (R76). -/
def execPcieLinkEvent (linkDown : Bool) (s : State) : Host.Outcome State Fault Refusal :=
  .next { s with core := linkEvent linkDown s.core }

/-- The link trains to a speed and a width, and the host programs the Max Payload Size and the Max Read Request Size, within the
values that R72 permits: free values, held until the link goes down (R102, log 5). -/
def linkTrained (c : Core) : Core :=
  let d := draw c
  let v := d.1.toNat
  let b := d.2.bar
  { d.2 with bar := { b with linkUp := true, speed := 1 + v % 3, width := 1 + v / 4 % 2, mps := 128 * (1 + v / 8 % 2),
                             mrrs := 128 * 2 ^ (v / 16 % 6) } }

/-- BUS_MASTER_ENABLE: the host sets the bit over a link that is up; no other command of the table brings the link up, so this one
trains it first (R76; DESIGN CHOICE, log 32). LOADs that waited for the port read now (R78). -/
def busMasterEnable (c : Core) : Core :=
  let c := if c.bar.linkUp then c else linkTrained c
  let c := { c with bar.bme := true }
  (List.range 256).foldl (fun c n => if 4 ≤ (flowAt c n).cmd then loadReads n c else c) c

/-- BUS_MASTER_ENABLE (R76). -/
def execBusMasterEnable (s : State) : Host.Outcome State Fault Refusal :=
  .next (if s.core.sys.inReset || s.core.bar.bme then s else { s with core := busMasterEnable s.core })

/-! ### Slots and service (R92, R95, R96) -/

/-- Flows are served in a mode (R51, R113). -/
def serves (m : Mode) : Bool := m != .selftest && m != .parked

/-- A flow that is polled and fetched: ENABLED or SUSPENDED. -/
def flowOn (f : FlowSt) : Bool := f.state == .enabled || f.state == .suspended

/-- Slots that a flow's operations hold; what a standby executes for its active holds none of the 512 (R95, R112). -/
def slotsOf (c : Core) (n : Nat) : Nat :=
  (c.host.slots.filter fun e => match e.2 with
    | some x => decide (e.1 < 512) && x.flow == n
    | none => false).length

/-- A slot that the flow may use (R95): a reserved one first for an urgent flow. -/
def freeSlot (c : Core) (n : Nat) : Option Nat :=
  let free (l : List Nat) : Option Nat := l.find? fun k => (slotAt c k).isNone
  let common := (List.range 480).map (· + 32)
  if n < 8 then (match free (List.range 32) with
    | some k => some k
    | none => free common)
  else free common

/-- Free slots that the flow may use. -/
def freeCount (c : Core) (n : Nat) : Nat :=
  ((if n < 8 then List.range 512 else (List.range 480).map (· + 32)).filter fun k => (slotAt c k).isNone).length

/-- Descriptors that the flow may take now: waiting, within QUOTA and the free slots; at most 8 (R92). -/
def mayTake (c : Core) (n : Nat) : Nat :=
  let f := flowAt c n
  if !flowOn f then 0
  else
    let quota := if f.state = .suspended then 8 else f.quota - slotsOf c n
    min 8 (min (f.st - f.sh).toNat (min quota (freeCount c n)))

/-- A flow can be served: a flow whose fetch failed waits for the next doorbell data (R92, R93; DESIGN CHOICE, log 32). -/
def servable (c : Core) (n : Nat) : Bool := decide (0 < mayTake c n) && !c.host.skip.contains n

/-- The flow that is served next (R92): the lowest urgent flow, then HIGH, NORMAL and BULK, round-robin. -/
def nextFlow (c : Core) : Option Nat :=
  let ok (n : Nat) : Bool := servable c n
  let inClass (k : Nat) : Option Nat :=
    let start := max 7 (tget 0 c.host.last k) - 7
    ((List.range 248).map fun i => 8 + (start + i) % 248).find? fun n => (flowAt c n).cls == k && ok n
  match (List.range 8).find? ok with
  | some n => some n
  | none => match inClass 1 with
    | some n => some n
    | none => match inClass 2 with
      | some n => some n
      | none => inClass 3

/-- Descriptors that one read may fetch from ring index `i` on: it crosses neither the end of the ring nor a 4 KiB boundary, and is
no longer than `most` bytes (R72, R92). -/
def fetchRoom (f : FlowSt) (most : Nat) (i : U16) : Nat :=
  let k := i.toNat % f.sqSize
  max 1 (min (min (f.sqSize - k) ((4096 - (f.sqBase + 64 * k) % 4096) / 64)) (most / 64))

/-- The reads of one service of flow `n` for `count` descriptors from index `i` on; at most as many as the first number (R92). -/
def splitFetch (f : FlowSt) (n most : Nat) : Nat → U16 → Nat → List (Nat × U16 × Nat)
  | 0, _, _ => []
  | k + 1, i, count =>
    if count = 0 then []
    else
      let m := min count (fetchRoom f most i)
      (n, i, m) :: splitFetch f n most k (i + BitVec.ofNat 16 m) (count - m)

/-- The read of the oldest scheduled fetch goes out (R102). -/
def issueFetch (c : Core) : Core :=
  match c.host.fetchQ with
  | (n, i, k) :: _ =>
    let f := flowAt c n
    let c := hpCount 8 c
    if portUp c then emit (.hostRead (f.sqBase + 64 * (i.toNat % f.sqSize)) (64 * k)) c else c
  | [] => c

/-! The completions that wait (R85, R97). -/

/-- Finished operations, by slot. -/
def finished (c : Core) : List (Nat × SlotSt × DoneSt) :=
  c.host.slots.filterMap fun e => match e.2 with
    | some x => x.done.map fun d => (e.1, x, d)
    | none => none

/-- The flow has been disabled or loaded since the operation was fetched (R80). -/
def stale (c : Core) (x : SlotSt) : Bool := (flowAt c x.flow).gen != x.gen

/-- A free completion entry (R83, R85). -/
def entryFree (f : FlowSt) : Bool := decide ((f.ct - f.ch).toNat < f.cqSize)

/-- The completion that goes next: urgent flows first, then in the order in which operations finished (R85, R97). -/
def nextCompletion (c : Core) : Option (Nat × SlotSt × DoneSt) :=
  let l := (finished c).filter fun e => !stale c e.2.1 && entryFree (flowAt c e.2.1.flow)
  let best (l : List (Nat × SlotSt × DoneSt)) : Option (Nat × SlotSt × DoneSt) :=
    l.foldl (fun a e => match a with
      | none => some e
      | some b => if e.2.2.order < b.2.2.order then some e else a) none
  match best (l.filter fun e => e.2.1.flow < 8) with
  | some e => some e
  | none => best l

/-- A completion of an urgent flow can be written: it goes before any fetch of flows 8 to 255 (R97). -/
def urgentWaits (c : Core) : Bool := (nextCompletion c).any fun e => decide (e.2.1.flow < 8)

/-- Schedule the next service where none is in progress (R92). No fetch starts in a flush (R68), and none of flows 8 to 255 before
an urgent completion that can be written (R97). DESIGN CHOICE (log 32): one service is outstanding at a time. -/
def schedule (c : Core) : Core :=
  if !c.host.fetchQ.isEmpty || !portUp c || !serves c.sys.mode || c.sys.flush.isSome then c
  else match nextFlow c with
    | some n =>
      if 8 ≤ n && urgentWaits c then { c with host.fetchDue := true }
      else
        let f := flowAt c n
        let c := { c with
          host.fetchQ := splitFetch f n (readMax c) 8 f.sh (mayTake c n)
          host.last := if n < 8 then c.host.last else tset 0 c.host.last f.cls n }
        issueFetch c
    | none => { c with host.fetchDue := false }

/-! ### Doorbells (R83, R88 to R91) -/

/-- A block holds a flow that is polled (R90). -/
def blockOn (c : Core) (b : Nat) : Bool := (List.range 16).any fun i => flowOn (flowAt c (16 * b + i))

/-- The read of a doorbell block (R90, R102). -/
def pollBlock (b : Nat) (c : Core) : Core :=
  if blockOn c b && portUp c && serves c.sys.mode then
    emit (.hostRead (c.bar.db.toNat + 64 * b) 64) (hpCount 0 c)
  else c

/-- DOORBELL_POLL_URGENT (R90). -/
def execDoorbellPollUrgent (s : State) : Host.Outcome State Fault Refusal := .next { s with core := pollBlock 0 s.core }

/-- DOORBELL_POLL_NORMAL (R90). -/
def execDoorbellPollNormal (s : State) : Host.Outcome State Fault Refusal :=
  .next { s with core := (List.range 15).foldl (fun c b => pollBlock (b + 1) c) s.core }

/-- A doorbell word reaches its flow, or is an index error (R83, R88). -/
def takeDoorbell (n : Nat) (w : Nat) (c : Core) : Core :=
  let f := flowAt c n
  if !flowOn f then c
  else
    let st := BitVec.ofNat 16 w
    let ch := BitVec.ofNat 16 (w / 65536)
    if f.sqSize < (st - f.sh).toNat || f.cqSize < (f.ct - ch).toNat then
      { flowError n 7 c with host.fetchQ := c.host.fetchQ.filter fun e => e.1 != n }
    else setFlow n { f with st, ch } c

/-- A doorbell read fails (R91): counted, and recorded at most once per block per second. -/
def doorbellFails (b : Nat) (c : Core) : Core :=
  let c := hpCount 4 c
  let last := tget 0 c.host.dbFail b
  if last = 0 || last + 999 ≤ c.nv.opMs then
    event 0x010 0x01 [b] { c with host.dbFail := tset 0 c.host.dbFail b (c.nv.opMs + 1) }
  else c

/-- DOORBELL_DATA (R92): the block's words, then the fetches they call for. -/
def execDoorbellData (block : Fin 16) (data : HostRead) (s : State) : Host.Outcome State Fault Refusal :=
  .next (if !serves s.core.sys.mode || s.core.sys.inReset then s
    else { s with core := match ofLength 64 data with
      | none => doorbellFails block s.core
      | some d =>
        let c := (List.range 16).foldl (fun c i => takeDoorbell (16 * block.val + i) (field d (4 * i) 4) c) s.core
        schedule { c with host.skip := [] } })

/-! ### The checks of a descriptor (R106 to R111, R121) -/

/-- What the checks make of a descriptor. -/
inductive Verdict where
  | accept
  | reject (status detail : Nat)
  deriving DecidableEq, Repr

/-- The first check that fails decides (R111). -/
def firstFail : List (Bool × Nat × Nat) → Verdict
  | [] => .accept
  | (ok, st, d) :: r => if ok then firstFail r else .reject st d

/-- The descriptor's AUTH bit. -/
def authBit (d : Bytes) : Bool := bitOf (byteAt d 1) 1

/-- DESC_HASH (R108). -/
def descHash (d data : Bytes) : Bytes := sha256 (slice d 0 4 ++ slice d 8 32 ++ slice d 48 4 ++ data)

/-- The opcode reads data. -/
def opReads (op : Nat) : Bool := (opInfo op).any fun i => i.data == .reads

/-- An authorisation block is valid (R108, R109). -/
def authValid (c : Core) (d b data : Bytes) : Bool :=
  let key := tget [] c.nv.authKeys (byteAt b 2)
  field b 0 2 == 1 && byteAt b 2 < 4 && byteAt b 3 == 0 && field b 4 4 == c.nv.cycles && field b 8 8 == Config.serial.toNat
    && c.nv.opMs ≤ field b 16 8 && c.nv.auth.toNat < field b 24 4 && field b 28 4 == 0
    && !key.isEmpty && ecdsaVerify key (sha256 (slice b 0 64)) (slice b 64 64)
    && slice b 32 32 == descHash d data

/-- The authorisation check (R108, R109): its verdict, and the AUTH_COUNT that a valid block leaves. -/
def authCheck (c : Core) (x : Fetched) : Verdict × Option U32 :=
  let d := x.desc
  if opAuth c.sys.mode d then
    if !authBit d then (.reject 0x31 4, none)
    else if field d 52 8 % 64 ≠ 0 then (.reject 0x12 52, none)
    else match x.auth, (if opReads (byteAt d 0) then x.data else some []) with
      | some b, some data =>
        if authValid c d b data then (.accept, some (BitVec.ofNat 32 (field b 24 4))) else (.reject 0x31 4, none)
      | _, _ => (.reject 0x32 0, none)
  else if authBit d then (.reject 0x12 1, none)
  else (.accept, none)

/-- DATA_ADDR, DATA_LEN and the length rule (R106, R115). -/
def dataCheck (d : Bytes) : Verdict :=
  match (opInfo (byteAt d 0)).map OpInfo.data with
  | some OpData.none | none => if opAddr d = 0 && opLen d = 0 then .accept else .reject 0x13 0
  | _ =>
    if opAddr d % 64 ≠ 0 then .reject 0x12 40
    else if opLenOk d then .accept else .reject 0x13 0

/-- Every addressed portal and axis is configured, and a LOCK_GROUP holds every addressed portal (R111, R116). -/
def operandCheck (c : Core) (d : Bytes) : Verdict :=
  let m := cfgOf c
  match opRange d with
  | some o => .reject 0x12 o
  | none =>
    let ps := (List.range 12).filter fun p => bitOf (opPortals d) p
    if ps.any fun p => !chanConf c p then
      .reject 0x12 (if byteAt d 0 = 0x50 && !(List.range 12).any fun p => bitOf (field d 8 2) p && !chanConf c p then 10 else 8)
    else if byteAt d 0 = 0x38 && !axisConf m (byteAt d 8) then .reject 0x12 8
    else if byteAt d 0 = 0x10 && byteAt d 11 ≠ 255 && ps.any fun p => lockGroup m p != some (byteAt d 11) then .reject 0x12 11
    else .accept

/-- The lowest addressed portal that is LOCKED_OUT or ISOLATED (R111). -/
def lockedPortal (c : Core) (d : Bytes) : Option Nat :=
  if byteAt d 0 = 0x11 || byteAt d 0 = 0x50 then none
  else (List.range 12).find? fun p => bitOf (opPortals d) p && (lockedOut c p || isolatedAt c p)

/-- The exclusive group of R121. -/
def exclusive (op : Nat) : Bool := op == 0x20 || op == 0x21 || op == 0x22 || op == 0x60 || op == 0x61

/-- An operation in flight conflicts (R121). -/
def conflicts (c : Core) (d : Bytes) : Bool :=
  let op := byteAt d 0
  (liveSlots c).any fun e =>
    let o := slotOp e.2
    (exclusive op && exclusive o) || (op == 0x58 && o == 0x58) || (op == 0x40 && o == 0x40 && byteAt e.2.desc 8 == byteAt d 8)

/-- The checks of R111 up to the authorisation. -/
def checkFirst (c : Core) (d : Bytes) : Verdict :=
  let op := byteAt d 0
  let info := opInfo op
  let modeOk := info.any fun i => i.modes.contains c.sys.mode
  let kind := info.map OpInfo.kind
  firstFail [
    (field d 60 4 == crc32c (slice d 0 60), 0x10, 0),
    (((List.range 6).all fun i => !bitOf (byteAt d 1) (i + 2)) && (info.isNone || descReserved d)
      && authBit d == decide (field d 52 8 ≠ 0), 0x10, 0),
    (info.isSome, 0x11, 0),
    (!bitOf (byteAt d 1) 0 || field d 2 2 == c.nv.epoch.toNat, 0x21, 0),
    (c.sys.mode != .shadow || kind == some .read, 0x20, 0),
    (modeOk && !(c.sys.erased && kind == some .actuate && op != 0x11), 0x22, modeCode c.sys.mode)]

/-- The checks of R111 after the authorisation. -/
def checkLast (c : Core) (n : Nat) (d : Bytes) : Verdict :=
  match operandCheck c d with
  | .reject a b => .reject a b
  | .accept => match lockedPortal c d with
    | some p => .reject 0x23 p
    | none => firstFail [((flowAt c n).quota != 0, 0x50, 1), (!conflicts c d, 0x50, 2)]

/-- All the checks of R111, and the AUTH_COUNT that a valid block leaves. -/
def checkDesc (c : Core) (n : Nat) (x : Fetched) : Verdict × Option U32 :=
  match checkFirst c x.desc with
  | .reject a b => (.reject a b, none)
  | .accept => match dataCheck x.desc with
    | .reject a b => (.reject a b, none)
    | .accept =>
      let r := authCheck c x
      match r.1 with
      | .reject a b => (.reject a b, none)
      | .accept => (checkLast c n x.desc, r.2)

/-- The portals that an operation holds (R116, R117). -/
def heldMask (d : Bytes) : BitVec 13 :=
  if byteAt d 0 = 0x10 || byteAt d 0 = 0x11 then BitVec.ofNat 13 (opPortals d) else 0

/-- One fetched descriptor takes a slot and is accepted, or completes at once (R94, R95, R111). -/
def takeDesc (n : Nat) (x : Fetched) (c : Core) : Core :=
  let f := flowAt c n
  match freeSlot c n with
  | none => c
  | some k =>
    let crcBad := field x.desc 60 4 ≠ crc32c (slice x.desc 0 60)
    let y : SlotSt := {
      flow := n, gen := f.gen, sqIndex := f.sh, fEpoch := f.epoch, desc := x.desc, crcBad
      data := x.data, mask := heldMask x.desc, blocked := blockedPortals c }
    let (v, auth) := checkDesc c n x
    let c := setFlow n { f with sh := f.sh + 1, fails := 0 } c
    let c := { c with nv.auth := auth.getD c.nv.auth }
    match v with
    | .accept => setSlot k (some y) c
    | .reject st d =>
      let c := finish k st d 0 0 (setSlot k (some { y with crcBad := decide (st = 0x10) }) c)
      if st = 0x10 then hpCount 24 c else if st = 0x32 then hpCount 36 c else c

/-- The remaining reads of a service go on, unless an urgent flow or an urgent completion comes first (R92, R97), or a flush has
begun (R68). -/
def afterFetch (rest : List (Nat × U16 × Nat)) (c : Core) : Core :=
  let urgent := ((List.range 8).any (servable c)) || urgentWaits c
  match rest with
  | (n, _, _) :: _ =>
    if (urgent && 8 ≤ n) || c.sys.flush.isSome then schedule { c with host.fetchQ := [] }
    else issueFetch { c with host.fetchQ := rest }
  | [] => schedule { c with host.fetchQ := [] }

/-- A fetch fails (R93): Sh stays; the third failure on the same descriptors is ERROR, cause 8. The other flows are served as
before (R92); this one waits for the next doorbell data (DESIGN CHOICE, log 32). -/
def fetchFails (n : Nat) (c : Core) : Core :=
  let c := hpCount 12 { c with host.fetchQ := [], host.skip := n :: c.host.skip }
  let f := flowAt c n
  schedule (if 3 ≤ f.fails + 1 then flowError n 8 (setFlow n { f with fails := 0 } c) else setFlow n { f with fails := f.fails + 1 } c)

/-- The answer to the oldest scheduled fetch. -/
def takeFetch (items : Option (List Fetched)) (c : Core) : Core :=
  match c.host.fetchQ with
  | [] => c
  | (n, _, k) :: rest =>
    match items with
    | none => fetchFails n c
    | some l => if l.length = k then afterFetch rest (l.foldl (fun c x => takeDesc n x c) c) else c

/-- A fetch answers with whole descriptors, or has failed; so has the read of an authorisation block (R75, R105, R108, log 9). -/
def wholeFetch (items : Option (List Fetched)) : Option (List Fetched) :=
  (items.filter fun l => l.all fun x => x.desc.length == 64).map fun l =>
    l.map fun x => { x with auth := ofLength 128 x.auth }

/-- DESCRIPTOR_FETCH (R111). -/
def execDescriptorFetch (items : Option (List Fetched)) (s : State) : Host.Outcome State Fault Refusal :=
  .next (if s.core.sys.inReset then s else { s with core := takeFetch (wholeFetch items) s.core })

/-! ### Completions (R80, R85, R86, R110) -/

/-- The completion of an operation, written at CQ tail index `ct` into a ring of `size` entries (R86, R110). -/
def completionBytes (x : SlotSt) (e : DoneSt) (sh ct : U16) (size : Nat) : Bytes :=
  slice x.desc 4 4 ++ toLe 2 x.sqIndex.toNat ++ toLe 1 x.fEpoch ++ toLe 1 e.status
    ++ toLe 1 (if x.crcBad then 0 else byteAt x.desc 0) ++ toLe 1 e.detail ++ toLe 2 e.epoch.toNat
    ++ toLe 4 e.r0 ++ toLe 4 e.r1 ++ toLe 8 e.stamp.toNat ++ toLe 2 sh.toNat ++ [0]
    ++ toLe 1 (if bitOf ct.toNat size.log2 then 0 else 128)

/-- Completions of disabled or reloaded flows are discarded and counted (R80). -/
def discardStale (c : Core) : Core :=
  (finished c).foldl (fun c e => if stale c e.2.1 then hpCount 20 (setSlot e.1 none c) else c) c

/-- One completion is written and its slot released (R85, R86, R95). -/
def writeCompletion (c : Core) : Core :=
  let c := discardStale c
  if !portUp c || c.sys.flush.isSome then c
  else match nextCompletion c with
    | some (k, x, e) =>
      let f := flowAt c x.flow
      let b := completionBytes x e f.sh f.ct f.cqSize
      let c := hostWrite (f.cqBase + 32 * (f.ct.toNat % f.cqSize)) b (hpCount 16 c)
      setSlot k none (setFlow x.flow { f with ct := f.ct + 1 } c)
    | none => c

/-- A round of fetches that an urgent completion had held up goes on (R97). -/
def resumeFetch (c : Core) : Core := if c.host.fetchDue && !urgentWaits c then schedule c else c

/-- COMPLETION_WRITE (R85). -/
def execCompletionWrite (s : State) : Host.Outcome State Fault Refusal :=
  .next (if s.core.sys.inReset then s else { s with core := resumeFetch (writeCompletion s.core) })

/-! ### The status mirror (R100, R101) -/

/-- Flow state code with the cause of ERROR (R100). -/
def flowCode (f : FlowSt) : Nat :=
  match f.state with
  | .disabled => 0
  | .enabled => 1
  | .suspended => 2
  | .error => 3 + 16 * f.cause

/-- The mirror's 4 096 bytes. -/
def mirrorBytes (c : Core) : Bytes :=
  let seq := toLe 4 c.host.mirrorSeq.toNat
  let used := (c.host.slots.filter fun e => e.1 < 512).length
  let res := (c.host.slots.filter fun e => e.1 < 32).length
  let cnt (o : Nat) : Bytes := toLe 4 (tget 0 c.host.counters o).toNat
  let flags := b2n c.sys.hostLost + 2 * b2n (unsynced c) + 4 * b2n c.sys.vholdCharged + 8 * b2n (devLatched c)
    + 16 * b2n c.sys.tamperAlarm + 32 * b2n (c.sys.mode == .workshop)
  padTo 4092 (
    seq ++ toLe 1 (modeCode c.sys.mode) ++ toLe 1 (roleCode c.twin.role) ++ toLe 2 c.nv.epoch.toNat
    ++ toLe 8 (readTb islHost c) ++ toLe 8 (stampOf c) ++ toLe 1 (resetCode c.sys.resetKind) ++ toLe 1 (lcCode c.nv.lc)
    ++ toLe 1 c.sys.cause ++ [0] ++ toLe 4 flags ++ statusWords c ++ List.replicate 8 0
    ++ toLe 2 used ++ toLe 2 res ++ cnt 4 ++ cnt 24 ++ cnt 20 ++ List.replicate 48 0
    ++ ((List.range 256).map fun n => toLe 2 (flowAt c n).sh.toNat).flatten
    ++ ((List.range 256).map fun n => toLe 1 (flowCode (flowAt c n))).flatten
    ++ ((List.range 256).map fun n => toLe 1 (slotsOf c n)).flatten) ++ seq

/-- The mirror is written (R100, R101). -/
def writeMirror (c : Core) : Core :=
  if c.bar.mirror = 0 || !portUp c then c
  else
    let c := hpCount 56 c
    { emit (.hostWrite c.bar.mirror.toNat (mirrorBytes c)) c with host.mirrorSeq := c.host.mirrorSeq + 1 }

/-! ### The heartbeat (R103, R104) -/

/-- The heartbeat read and its supervision at a FRAME (R103); in PARKED there is none (R104). -/
def heartbeatFrame (c : Core) : Core :=
  if c.sys.mode = .parked then c
  else
    let n := c.host.hbSame + 1
    let c := { c with
      host.hbSame := n
      seq.due := if c.bar.timeout ≤ n && !c.sys.hostLost && !c.seq.due.contains .hostLost then c.seq.due ++ [.hostLost] else c.seq.due }
    if c.bar.hb ≠ 0 && portUp c then emit (.hostRead c.bar.hb.toNat 4) c else c

/-- The heartbeat word as read: a first read sets the reference, a change ends HOST_LOST (R103, R476). -/
def heartbeat (w : Option U32) (c : Core) : Core :=
  match w with
  | none => hpCount 32 c
  | some v => match c.host.hbRef with
    | none => { c with host.hbRef := some v }
    | some r =>
      if v = r then c
      else
        let c := { c with host.hbRef := some v, host.hbSame := 0, seq.due := c.seq.due.filter (· != Due.hostLost) }
        if c.sys.hostLost then event 0x012 0x01 [] { c with sys.hostLost := false } else c

/-- HEARTBEAT_READ (R103). -/
def execHeartbeatRead (word : Option U32) (s : State) : Host.Outcome State Fault Refusal :=
  .next (if s.core.sys.inReset || s.core.sys.mode == .selftest || s.core.sys.mode == .parked || s.core.bar.hb == 0 then s
    else { s with core := heartbeat word s.core })

/-- HOST_LOST is asserted and recorded (R103). -/
def takeHostLost (c : Core) : Core :=
  if c.sys.hostLost then c else event 0x011 0x01 [] { c with sys.hostLost := true }

/-- HOST_LOST (R103). -/
def execHostLost (s : State) : Host.Outcome State Fault Refusal :=
  .next (if s.core.seq.due.contains .hostLost then
      { s with core := takeHostLost { s.core with seq.due := s.core.seq.due.erase .hostLost } }
    else s)

/-! ### DIAG_READ item 0x01 (R102) -/

/-- What the link trained to and the host programmed (R72, R102). -/
def linkBytes (b : BarSt) : Bytes := toLe 1 b.speed ++ toLe 1 b.width ++ toLe 2 b.mps ++ toLe 2 b.mrrs ++ [0, 0]

/-- The errors that the link has reported through AER since the counters were last read: no command of the table brings one, so
their number is a free value (R72, R102, log 31). -/
def aerCount (c : Core) : Core :=
  let d := draw c
  let add (off : Nat) (v : U32) (t : Table U32) : Table U32 := tmod 0 t off (· + v)
  { d.2 with host.counters := add 44 (BitVec.ofNat 32 (d.1.toNat / 2 ^ 32)) (add 40 (BitVec.ofNat 32 d.1.toNat) d.2.host.counters) }

/-- The item. -/
def diagHost (c : Core) : Bytes × Core :=
  let c := aerCount c
  let cnt (o : Nat) : Bytes := toLe 4 (tget 0 c.host.counters o).toNat
  (((List.range 12).map fun i => cnt (4 * i)).flatten ++ linkBytes c.bar ++ cnt 56 ++ toLe 4 0, c)

end Sys2Proof.Machine
end

