-- ==== Sys2Proof/Machine/Field.lean ====
section
/-! DEFINITION. The commands of the field die (R336 to R353) and of its frames at the logic die and the islands. -/

namespace Sys2Proof.Machine

/-- Channel block that owns a UIO (R141); 255 for none. -/
def ownerOf (m : Image) (u : Nat) : Nat := ((List.range 13).find? fun n => ownsUio m n u).getD 255

/-- The portal that a fault of an output set goes to (R317): the owning portal, or none. -/
def ownerPortal (c : Core) (u : Nat) : Nat := let n := ownerOf (cfgOf c) u; if n < 12 then n else 255

/-- The logic die records and passes on what the die declares, unless it is held in reset. -/
def fromDie (f : Core → Core) (c : Core) : Core := if c.sys.inReset then c else f c

/-- A group enters FIELD_LOW (R349, R350). -/
def groupLow (g : Nat) (s : State) : State :=
  { s with
    die := { s.die with groups := tmod {} s.die.groups g fun x => { x with state := .low } }
    core := fromDie (fun c => raise 0x304 255 255 (event 0x080 0x0A [g + 1] c)) s.core }

/-- A group enters FIELD_MISSING: its sets turn off (R349, R350). -/
def groupMissing (g : Nat) (s : State) : State :=
  { s with
    die := drive { s.die with groups := tmod {} s.die.groups g fun x => { x with state := .missing } }
    core := fromDie (fun c => raise 0x305 255 255 (event 0x081 0x0A [g + 1] c)) s.core }

/-- A group returns to NORMAL: after FIELD_MISSING its input filters restart and its sets drive again (R350). -/
def groupOk (g : Nat) (s : State) : State :=
  let was := (tget {} s.die.groups g).state == .missing
  { s with
    die := drive { s.die with
      groups := tmod {} s.die.groups g fun x => { x with state := .normal }
      inputs := if was then s.die.inputs.filter fun e => groupOf e.1 != g else s.die.inputs }
    core := fromDie (event 0x082 0x0A [g + 1]) s.core }

/-- A set latches SHORT_GND and turns off (R346, R317). -/
def latchShort (u : Nat) (s : State) : State :=
  { s with
    die := driveSet { s.die with outs := tmod {} s.die.outs u fun o => { o with short := true, shortFor := 0 } } u
    core := fromDie (fun c => raise 0x302 (ownerPortal c u) u (event 0x083 0x0A [u] c)) s.core }

/-- SHORT_GND clears (R346). -/
def clearShort (u : Nat) (s : State) : State :=
  { s with die := driveSet { s.die with outs := tmod {} s.die.outs u fun o => { o with short := false, shortFor := 0 } } u }

/-- EXT_DRIVE: with CO_DRIVE only the read-back flag is set (R346, R317). -/
def flagExt (u : Nat) (s : State) : State :=
  let co := fAttr (dieSec s.die) u 3
  { s with
    die := { s.die with outs := tmod {} s.die.outs u fun o => { o with ext := true, extClr := 0 } }
    core := if co then s.core
      else fromDie (fun c => raise 0x303 (ownerPortal c u) u (event 0x084 0x0A [u] c)) s.core }

/-- The logic-silence timeout passes: every set takes its safe value (R351). -/
def silenceDie (s : State) : State :=
  { s with die := drive { s.die with silent := true, expired := true, silences := s.die.silences + 1 } }

/-- The effect of a detection of the die. -/
def takeDie (x : DieDue) (s : State) : State :=
  match x with
  | .low g => groupLow g s
  | .missing g => groupMissing g s
  | .ok g => groupOk g s
  | .shortGnd u => latchShort u s
  | .clear u => clearShort u s
  | .ext u => flagExt u s
  | .silence => silenceDie s

/-- A detection that is due is taken; any other changes nothing (log 3). -/
def takeDieDue (x : DieDue) (s : State) : State :=
  if s.die.due.contains x then takeDie x { s with die := { s.die with due := s.die.due.erase x } } else s

/-- Every detection that is due is taken, oldest first (log 3). -/
def settleDie (s : State) : State :=
  s.die.due.foldl (fun s x => takeDie x s) { s with die := { s.die with due := [] } }

/-- A raw sample of the die (R337, R340, R346, R348). -/
def execRawSample (m : RawIn) (s : State) : Host.Outcome State Fault Refusal :=
  let s := settleDie s
  .next (if dieRuns s.die && !s.die.parked then { s with die := rawStep m s.die } else s)

/-- FIELD_LOW (R349). -/
def execFieldLow (g : Fin 9) (s : State) : Host.Outcome State Fault Refusal := .next (takeDieDue (.low g) s)

/-- FIELD_MISSING (R349, R350). -/
def execFieldMissing (g : Fin 9) (s : State) : Host.Outcome State Fault Refusal := .next (takeDieDue (.missing g) s)

/-- FIELD_OK (R349, R350). -/
def execFieldOk (g : Fin 9) (s : State) : Host.Outcome State Fault Refusal := .next (takeDieDue (.ok g) s)

/-- SHORT_GND (R346). -/
def execShortGnd (u : Fin 144) (s : State) : Host.Outcome State Fault Refusal := .next (takeDieDue (.shortGnd u) s)

/-- SHORT_GND clears (R346). -/
def execShortGndClear (u : Fin 144) (s : State) : Host.Outcome State Fault Refusal := .next (takeDieDue (.clear u) s)

/-- EXT_DRIVE (R346). -/
def execExtDrive (u : Fin 144) (s : State) : Host.Outcome State Fault Refusal := .next (takeDieDue (.ext u) s)

/-- The logic-silence timeout (R351). -/
def execLogicSilence (s : State) : Host.Outcome State Fault Refusal := .next (takeDieDue .silence s)

/-- A sample instant: a stop word, and at every second instant a sample frame (R341). -/
def instantDie (d : DieSt) : DieSt :=
  let d := { d with instants := d.instants + 1, stopW := some (dieFrame d d.stopList), seq := (d.seq + 1) % 256 }
  if d.instants % 2 = 0 then { d with sampleF := some (dieFrame d (List.range 144)), seq := (d.seq + 1) % 256 } else d

/-- A sample instant of the die (R341); none while it is held or in PARKED (R343, R352). -/
def execSampleInstant (s : State) : Host.Outcome State Fault Refusal :=
  let s := settleDie s
  .next (if dieRuns s.die && !s.die.parked then { s with die := instantDie s.die } else s)

/-- A stop word arrives at SEQ and MOT, or is discarded and counted (R286, R341, R354). -/
def takeStopWord (ok : Bool) (f : DieFrame) (c : Core) : Core :=
  if ok then { c with fld.stopW := some f } else { c with fld.bad := c.fld.bad + 1 }

/-- STOP_WORD (R286). -/
def execStopWord (crcOk : Bool) (s : State) : Host.Outcome State Fault Refusal :=
  .next (match s.die.stopW with
    | some f => { s with die := { s.die with stopW := none }, core := fromDie (takeStopWord crcOk f) s.core }
    | none => s)

/-- A sample frame at an island (R18): a bad CRC, or an unconfigured die after a section was loaded, counts as
missing; two intervals out of ±2 % make every pair unsafe. -/
def islFrame (ok offTime loaded : Bool) (f : DieFrame) (i : IslSt) : IslSt :=
  if ok && (f.configured || !loaded) then
    let n := if offTime then i.offTime + 1 else 0
    { i with frame := some f, fresh := true, offTime := n, blind := i.blind || decide (2 ≤ n) }
  else i

/-- A sample frame at the logic die (R341, R354). -/
def takeSampleFrame (ok : Bool) (f : DieFrame) (c : Core) : Core :=
  if ok then { c with fld.frame := some f } else { c with fld.bad := c.fld.bad + 1 }

/-- The FIELD oscillator is at fault once an island has timed two intervals in a row out of 250 µs ±2 %: its pairs evaluate as
unsafe, then the unit enters SAFE_TALK (R18). -/
def fieldClock (s : State) : State :=
  if 2 ≤ s.isa.offTime || 2 ≤ s.isb.offTime then enterSafeTalk 0x80 s else s

/-- SAMPLE_FRAME (R341): each receiver checks for itself, and times its own valid frames (R18). -/
def execSampleFrame (okA okB okL : Bool) (offTime : OffTimes) (s : State) : Host.Outcome State Fault Refusal :=
  .next (match s.die.sampleF with
    | some f =>
      if s.core.sys.inReset then { s with die := { s.die with sampleF := none } }
      else
        fieldClock
          { s with
            die := { s.die with sampleF := none }
            isa := islFrame okA offTime.a s.core.fld.loaded f s.isa
            isb := islFrame okB offTime.b s.core.fld.loaded f s.isb
            core := takeSampleFrame okL f s.core }
    | none => s)

/-- A command frame with RUN 1: every set of the section may drive from now on (R336, R352). -/
def liveSets (d : DieSt) : DieSt :=
  { d with outs := (setsOf (dieSec d)).foldl (fun t u => tmod {} t u fun o => { o with live := true }) d.outs }

/-- A command frame at the die (R345, R351): a bad CRC leaves the previous image. -/
def dieCommand (ok : Bool) (f : Bool × BitVec 144) (d : DieSt) : DieSt :=
  if ok then
    let d := if f.1 then liveSets d else d
    drive { d with run := f.1, image := f.2, silence := 0, silent := d.silent && !f.1, expired := false,
                   due := d.due.filter (· != .silence) }
  else { d with badCmd := d.badCmd + 1 }

/-- COMMAND_FRAME (R345); in PARKED the frame of every 20 ms carries RUN 1 and what was commanded at the entry (R64, R69). -/
def execCommandFrame (crcOk : Bool) (s : State) : Host.Outcome State Fault Refusal :=
  let s := settleDie s
  let f := match s.die.cmd with
    | some f => some f
    | none => if s.core.sys.mode = .parked && !s.core.sys.inReset then some (true, s.core.sys.parkImage) else none
  .next (match f with
    | some f => if dieRuns s.die then { s with die := dieCommand crcOk f { s.die with cmd := none } } else s
    | none => s)

/-- The die's reset input is asserted: outputs off, section discarded (R352). -/
def execFieldDieReset (s : State) : Host.Outcome State Fault Refusal :=
  .next { s with die := { noSupply := s.die.noSupply } }

/-- No VFg is above 12.0 V (R352). -/
def execFieldDieSupplyLoss (s : State) : Host.Outcome State Fault Refusal :=
  .next { s with die := { held := s.die.held, noSupply := true } }

/-- The reset input is released or a supply returns: the die restarts unconfigured (R352). While RST_N or a
POR or BOR still holds the logic die, the input stays asserted. -/
def execFieldDieRestart (s : State) : Host.Outcome State Fault Refusal :=
  .next (if s.die.held || s.die.noSupply then
      { s with die := { held := s.die.held && s.core.sys.inReset, noSupply := false } }
    else s)

/-- A raw 20 ms sample of the WAKE inputs (R343): two consecutive samples at 1 send a wake frame. -/
def wakeStep (ua : Table Nat) (d : DieSt) : DieSt :=
  let m := dieSec d
  let ws := (List.range 144).filter fun u => fMode m u == 1 && fAttr m u 2
  let raw (u : Nat) : Nat := (bandOf (fAttr m u 0) (fAttr m u 1) (tget 0 ua u)).getD (tget 0 d.wakePrev u)
  let up := ws.filter fun u => raw u == 1 && tget 0 d.wakePrev u == 1
  { d with
    wakePrev := ws.foldl (fun t u => tset 0 t u (raw u)) d.wakePrev
    wake := if up.isEmpty then d.wake else some up
    silence := d.silence + 800
    due := if !d.expired && 4000 ≤ d.silence + 800 && !d.due.contains .silence then d.due ++ [.silence] else d.due }

/-- WAKE_INPUT_SAMPLE (R343). -/
def execWakeInputSample (ua : Table Nat) (s : State) : Host.Outcome State Fault Refusal :=
  let s := settleDie s
  .next (if dieRuns s.die && s.die.parked then { s with die := wakeStep ua s.die } else s)

/-- A wake event leaves PARKED and leads to SELFTEST with cause WAKE (R69, R70): at once, or as soon as the flush of the entry is
complete. -/
def parkedExit (s : State) : State :=
  if s.core.sys.mode = .parked && !s.core.sys.inReset then
    if s.core.sys.flush.isNone then resetTo .parked s else { s with core.sys.wake := true }
  else s

/-- WAKE_FRAME (R343, R70): the die repeats the frame until the logic die leaves PARKED. -/
def execWakeFrame (crcOk : Bool) (s : State) : Host.Outcome State Fault Refusal :=
  .next (if crcOk && s.die.wake.isSome then parkedExit { s with die := { s.die with wake := none } } else s)

/-! ### Forced outputs (R353) -/

/-- The end of a force: its operation completes with the read-back, and the set returns to its owner. -/
def endForce (u st detail r0 : Nat) (c : Core) : Core :=
  match tget none c.seq.forces u with
  | some f => finish f.slot st detail r0 0 { c with seq.forces := tset none c.seq.forces u none }
  | none => c

/-- Read-back of a set in the latest sample frame (R353). -/
def readBack (c : Core) (u : Nat) : Nat :=
  match c.fld.frame with
  | some f =>
    let b := tget 0 f.back u
    b2n (bitOf b 1) + 2 * b2n (bitOf b 2) + 4 * b2n (bitOf b 3) + 8 * b2n (tget 0 f.groups (groupOf u) == 2)
  | none => 0

/-- FIELD_FORCE is delivered (R353): only a channel entry with MODE 2 can be forced; VALUE 2 releases; a later
force supersedes an earlier one. DURATION is in 100 ms, 800 ticks. -/
def forceDeliver (k : Nat) (d : Bytes) (c : Core) : Core :=
  let u := byteAt d 8
  let v := byteAt d 9
  if fMode (imgPart (cfgOf c) secField 1216) u ≠ 2 then finish k 0x12 8 0 0 c
  else if v = 2 then finish k 0x00 0 (readBack c u) 0 (endForce u 0x00 0 (readBack c u) c)
  else
    let c := endForce u 0x40 0 0 c
    { c with seq.forces := tset none c.seq.forces u (some ⟨v == 1, 800 * field d 10 2, k⟩) }

/-- FIELD_FORCE (R353). -/
def execFieldForce (slot : Fin 512) (s : State) : Host.Outcome State Fault Refusal :=
  .next { s with core := startOp slot 0x48 (forceDeliver slot) s.core }

/-- A force that has run its DURATION ends with OK and the read-back (R353). -/
def takeForceEnd (u : Nat) (c : Core) : Core :=
  match tget none c.seq.forces u with
  | some f => if f.ticks = 0 then endForce u 0x00 0 (readBack c u) c else c
  | none => c

/-- FORCE_DURATION_END (R353). -/
def execForceDurationEnd (u : Fin 144) (s : State) : Host.Outcome State Fault Refusal :=
  .next (if s.core.seq.due.contains (.forceEnd u) then
      { s with core := takeForceEnd u { s.core with seq.due := s.core.seq.due.erase (.forceEnd u) } }
    else s)

/-- One tick of the forces: a force that has run its DURATION is due to end. -/
def forcesTick (c : Core) : Core :=
  (List.range 144).foldl (fun c u =>
    match tget none c.seq.forces u with
    | some f =>
      if f.ticks = 1 then
        { c with
          seq.forces := tset none c.seq.forces u (some { f with ticks := 0 })
          seq.due := c.seq.due ++ [.forceEnd u] }
      else { c with seq.forces := tset none c.seq.forces u (some { f with ticks := f.ticks - 1 }) }
    | none => c) c

/-- The command image (R345, rows 3 to 6). -/
def commandImage (c : Core) : BitVec 144 :=
  let m := imgPart (cfgOf c) secField 1216
  bitsBy 144 fun u =>
    if fMode m u ≠ 2 then false
    else if unsynced c && fAttr m u 3 then false
    else match tget none c.seq.forces u with
      | some f => f.value
      | none => decide (ownerOf (cfgOf c) u < 13) && c.seq.out.getLsbD u

/-- RUN is 1 in SERVICE, SHADOW, WORKSHOP and PARKED (R345). -/
def runBit (m : Mode) : Bool := stepsIn m || m == .parked

end Sys2Proof.Machine
end

