-- ==== Sys2Proof/Machine/Obstacle.lean ====
section
/-! DEFINITION. The obstacle estimator (R226 to R244): force, energy and stall tests, edges and curtains, the
drawn-through check, baselines and their learning. Forces are in 0.1 N. -/

namespace Sys2Proof.Machine

/-! ### The obstacle section (R243) -/

/-- Field of `n` bytes at offset `o` of a portal's block. -/
def obN (m : Image) (p o n : Nat) : Nat := imgN m (secObst + 128 * p + o) n
/-- The configured leaf axes of a portal. -/
def leafAxes (m : Image) (p : Nat) : List Nat := (portalAxes m p).filter fun x => x % 3 < 2
/-- M_EFF of axis `x`. -/
def mEff (m : Image) (x : Nat) : Nat := obN m (x / 3) (16 + 2 * (x % 3)) 2

/-- Estimator state of a portal. -/
def obAt (c : Core) (p : Nat) : ObstSt := tget {} c.seq.obst p
/-- Update the estimator of a portal. -/
def modOb (p : Nat) (f : ObstSt → ObstSt) (c : Core) : Core := { c with seq.obst := tmod {} c.seq.obst p f }
/-- Master of a portal. -/
def msAt (c : Core) (p : Nat) : MasterSt := tget {} c.seq.masters p
/-- Update the master of a portal. -/
def modMs (p : Nat) (f : MasterSt → MasterSt) (c : Core) : Core := { c with seq.masters := tmod {} c.seq.masters p f }
/-- Channel. -/
def chAt (c : Core) (n : Nat) : ChannelSt := tget {} c.seq.channels n
/-- Update a channel. -/
def modCh (n : Nat) (f : ChannelSt → ChannelSt) (c : Core) : Core := { c with seq.channels := tmod {} c.seq.channels n f }

/-- The running master was started with CLASS CLOSE. -/
def closing (c : Core) (p : Nat) : Bool := (msAt c p).run && (msAt c p).kind != .manual && (msAt c p).cls == 1

/-! ### Baselines (R237) -/

/-- Place of a bin: portal, direction (1 close), axis 0 to 2, bin. -/
def binKey (p d a b : Nat) : Nat := p * 1536 + d * 768 + a * 256 + b
/-- A direction's baseline is valid. -/
def baseValid (c : Core) (p d : Nat) : Bool := tbit c.nv.valid (p * 2 + d)
/-- The bin of a position (R229). -/
def binOf (x : Int) : Nat := (clampI 0 255 (x / 65536)).toNat

/-! ### OBSTACLE events (R228) -/

/-- A latched bit goes to 1: its event, and the total of OBSTACLE events (R434). -/
def obstEvent (p bit axis : Nat) (p1 : Int) (c : Core) : Core :=
  totalAdd p 63 (event 0x050 0x06 [bit + 256 * axis, unsigned 32 p1] c)

/-! ### Force and energy (R229 to R232) -/

/-- d of an axis: +1 towards open, −1 towards closed, 0 when the test does not apply (R226, R229). -/
def dirOf (a : AxisSt) : Int := if a.st = .on then a.vff.sign else 0

/-- F_net of axis `x` for direction `d` from the period-0 feedback of the tick (R229). -/
def netForce (c : Core) (x : Nat) (d : Int) : Int :=
  let m := cfgOf c
  let a := axAt c x
  let drv := roundDiv (d * kfOf m x * a.p0Iq) 10000
  let acc := roundDiv ((a.vHist.getD 0 0 - a.vHist.getD 8 0) * 1000) 256
  let fa := roundDiv ((mEff m x : Int) * acc * strokeOf m x) 65536000000
  drv - d * fa

/-- B of an axis at its position for direction `d` (R229); 0 without a valid baseline (R228). -/
def baseAt (c : Core) (x d : Nat) : Int :=
  if baseValid c (x / 3) d then tget 0 c.nv.curveB (binKey (x / 3) d (x % 3) (binOf (axAt c x).x)) else 0

/-- The force limit of a direction (R231). -/
def forceLimit (c : Core) (p d : Nat) : Nat :=
  let o := obAt c p
  if d = 0 then o.limOpen.getD (obN (cfgOf c) p 0 2) else o.limClose.getD (obN (cfgOf c) p 2 2)

/-- SET_FORCE (R147, R231): 0 means the default, a value above the maximum saturates. -/
def setForce (p d v : Nat) (c : Core) : Core :=
  let m := cfgOf c
  let v := min (if v = 0 then obN m p (2 * d) 2 else v) (obN m p (4 + 2 * d) 2)
  modOb p (fun o => if d = 0 then { o with limOpen := some v } else { o with limClose := some v }) c

/-- The latest estimate of F_net of an axis, in every tick in which its setpoint moves, blanked or not (R228, R229). -/
def latestForce (p x : Nat) (c : Core) : Core :=
  let d := (axAt c x).vff.sign
  if d = 0 then c
  else
    let f := netForce c x d
    modOb p (fun o => { o with lastF := tset 0 o.lastF (x % 3) f }) c

/-- The force test of one axis for the tick that ends (R230), with the samples of a learning or adapting move
(R238, R241) and the peak of the cycle (R245's section on reversal). -/
def forceAxis (p x : Nat) (c : Core) : Core :=
  let c := latestForce p x c
  let m := cfgOf c
  let a := axAt c x
  let o := obAt c p
  let d := dirOf a
  if d = 0 || o.blank then modOb p (fun o => { o with forceCnt := tset 0 o.forceCnt (x % 3) 0 }) c
  else
    let dir := if d < 0 then 1 else 0
    let f := netForce c x d
    let ex := f - baseAt c x dir
    let above := (baseValid c p dir && (msAt c p).kind != .manual && decide ((forceLimit c p dir : Int) < ex))
      || decide ((obN m p 8 2 : Int) < f)
    let n := if above then tget 0 o.forceCnt (x % 3) + 1 else 0
    let bin := (x % 3) * 256 + binOf a.x
    let learn := o.mvDir.isSome && !o.mvDone
    let c := modOb p (fun o => { o with
      forceCnt := tset 0 o.forceCnt (x % 3) (min n 64)
      mvSum := if learn then tmod 0 o.mvSum bin (· + f) else o.mvSum
      mvCnt := if learn then tmod 0 o.mvCnt bin (· + 1) else o.mvCnt }) c
    let c := if closing c p && x % 3 < 2 then
        { c with seq.cycles := tmod {} c.seq.cycles p fun y => { y with peakForce := max y.peakForce f } } else c
    let waits := c.seq.due.any fun e => match e with
      | .force q _ _ => q == p
      | _ => false
    if obN m p 10 1 ≤ n && !o.force && !waits then { c with seq.due := c.seq.due ++ [.force p x ex] } else c

/-- The closing energy of a portal in mJ (R232). -/
def closingEnergy (c : Core) (p : Nat) : Int :=
  let m := cfgOf c
  let s : Int := (leafAxes m p).foldl (fun t x =>
    t + (mEff m x : Int) * (roundDiv (vMeas (axAt c x)) 256) ^ 2 * (strokeOf m x : Int) ^ 2) 0
  roundDiv s (2 * 65536 ^ 2 * 10 ^ 9)

/-- The energy test of the tick that ends (R232). -/
def energyTest (p : Nat) (c : Core) : Core :=
  let m := cfgOf c
  let o := obAt c p
  if !closing c p || (msAt c p).vel = 0 || o.blank then modOb p (fun o => { o with energyCnt := 0 }) c
  else
    let e := closingEnergy c p
    let n := if (obN m p 12 2 : Int) < e then o.energyCnt + 1 else 0
    let c := modOb p (fun o => { o with energyCnt := min n 64 }) c
    let waits := c.seq.due.any fun d => match d with
      | .energy q _ => q == p
      | _ => false
    if obN m p 14 1 ≤ n && !o.energy && !waits then { c with seq.due := c.seq.due ++ [.energy p e] } else c

/-- The estimates of the tick that ends, for every portal (R230, R232). -/
def estimates (c : Core) : Core :=
  (List.range 12).foldl (fun c p =>
    energyTest p ((portalAxes (cfgOf c) p).foldl (fun c x => forceAxis p x c) c)) c

/-- The latched bits of a portal read 0 in the next condition vector: they are blanked, or a START_MOVE takes effect at the next TICK
(R227). -/
def blanked (c : Core) (p : Nat) : Bool :=
  (obAt c p).blank || ((chAt c p).queued.any (fun a => a.op == 0x11) && !(chAt c p).queued.any fun a => a.op == 0x12)

/-- OBST_FORCE is set, unless a START_MOVE has blanked it meanwhile (R227, R228, R230, R433). -/
def takeForce (p x : Nat) (ex : Int) (c : Core) : Core :=
  if blanked c p || (obAt c p).force then c
  else histAdd p 10 (ex.toNat / 50) (obstEvent p 64 x ex (modOb p (fun o => { o with force := true }) c))

/-- OBST_FORCE (R230). -/
def execObstForce (p : Fin 12) (s : State) : Host.Outcome State Fault Refusal :=
  .next (match s.core.seq.due.findSome? fun d => match d with
      | .force q x e => if q = p then some (x, e) else none
      | _ => none with
    | some (x, e) => { s with core := takeForce p x e { s.core with seq.due := s.core.seq.due.erase (.force p x e) } }
    | none => s)

/-- OBST_ENERGY is set (R228, R232). -/
def takeEnergy (p : Nat) (e : Int) (c : Core) : Core :=
  if blanked c p || (obAt c p).energy then c
  else obstEvent p 69 0xFF e (modOb p (fun o => { o with energy := true }) c)

/-- OBST_ENERGY (R232). -/
def execObstEnergy (p : Fin 12) (s : State) : Host.Outcome State Fault Refusal :=
  .next (match s.core.seq.due.findSome? fun d => match d with
      | .energy q e => if q = p then some e else none
      | _ => none with
    | some e => { s with core := takeEnergy p e { s.core with seq.due := s.core.seq.due.erase (.energy p e) } }
    | none => s)

/-- What the condition vector of this tick means for OBST_STALL in the next one (R226, R233). -/
def stallTest (p : Nat) (c : Core) : Core :=
  let o := obAt c p
  let on := closing c p && !(chAt c p).moveDone && !o.blank && !o.stall
  let x := if on then (portalAxes (cfgOf c) p).find? fun x => (axAt c x).stall else none
  modOb p (fun o => { o with stallDue := x }) c

/-- OBST_STALL is set for this condition vector, unless a START_MOVE has just taken effect (R227, R228, R233). -/
def stallSet (p : Nat) (c : Core) : Core :=
  let o := obAt c p
  match o.stallDue with
  | some x =>
    let c := modOb p (fun o => { o with stallDue := none }) c
    if o.blank then c else obstEvent p 67 x (tget 0 o.lastF (x % 3)) (modOb p (fun o => { o with stall := true }) c)
  | none => c

/-! ### Edges and curtains (R234, R235) -/

/-- State of a channel as the sequencer sees it; a synchronised standby takes the active's (R235, R371). -/
def fieldState (c : Core) (u : Nat) : Nat :=
  if standbyIn c then
    match c.twin.input with
    | some (_, f) => tget 0 f.field u
    | none => 3
  else match c.fld.frame with
    | some f => stateIn f u
    | none => 3

/-- Source code of source `i` (0 to 3 edges, 4 to 7 curtains) of a portal. -/
def sourceOf (m : Image) (p i : Nat) : Nat := obN m p (28 + i) 1

/-- A source is actuated or interrupted (R234). -/
def sourceOn (c : Core) (p i : Nat) : Bool :=
  let s := sourceOf (cfgOf c) p i
  let pol := bitOf (obN (cfgOf c) p 27 1) i
  if s < 144 then
    let v := fieldState c s
    if 2 ≤ v then true else decide (v = b2n pol)
  else if s < 156 then
    let x := 3 * p + (s - 144) / 4
    (linkAt c x).fault == 1 || tbit (obAt c p).liVal (s - 144) == pol
  else false

/-- The edges of a portal are masked (R234). -/
def edgesMasked (c : Core) (p : Nat) : Bool :=
  let l := leafAxes (cfgOf c) p
  !l.isEmpty && l.all fun x => decide (posNow c x ≤ 256 * (obN (cfgOf c) p 24 2 : Int))

/-- OBST_EDGE (R226). -/
def edgeBit (c : Core) (p : Nat) : Bool := !edgesMasked c p && [0, 1, 2, 3].any (sourceOn c p)
/-- OBST_CURTAIN (R226). -/
def curtainBit (c : Core) (p : Nat) : Bool := [4, 5, 6, 7].any (sourceOn c p)

/-- EDGE_WIRE once per change into the open-wire band (R228). -/
def edgeWires (c : Core) : Core :=
  (List.range 96).foldl (fun c k =>
    let s := sourceOf (cfgOf c) (k / 8) (k % 8)
    let wire := axesOf (cfgOf c) (k / 8) ≠ 0 && decide (s < 144) && fieldState c s == 2
    let was := tbit (obAt c (k / 8)).wire (k % 8)
    let c := modOb (k / 8) (fun o => { o with wire := tset false o.wire (k % 8) wire }) c
    if wire && !was then event 0x051 0x06 [k / 8, s] c else c) c

/-- The local inputs of axis `x` after a VALID frame, filtered over LI_FILT frames (R234). -/
def localInputs (x : Nat) (c : Core) : Core :=
  let n := obN (cfgOf c) (x / 3) 26 1
  let li := (axAt c x).up.li
  [0, 1, 2, 3].foldl (fun c l =>
    let k := 4 * (x % 3) + l
    modOb (x / 3) (fun o =>
      let v := bitOf li l
      let q := if tbit o.liCand k == v then tget 0 o.liCnt k + 1 else 1
      { o with
        liCand := tset false o.liCand k v
        liCnt := tset 0 o.liCnt k (min q 256)
        liVal := if n ≤ q then tset false o.liVal k v else o.liVal }) c) c

/-! ### The drawn-through check (R236) -/

/-- The lock limit in ms (R236, R242). -/
def lockLimit (c : Core) (p : Nat) : Nat :=
  let m := cfgOf c
  let l := tget 0 c.nv.lBase p
  let mx := obN m p 42 2
  if baseValid c p 1 && l ≠ 0 then min (l - 1 + obN m p 40 2) mx else mx

/-- The conditions of R236 for the condition vector of the next tick, from the feedback up to this one; the ticks with a leaf above
DRAWN_POS count whether the lock window is open or not. -/
def drawnTest (p : Nat) (c : Core) : Core :=
  let m := cfgOf c
  let o := obAt c p
  let far := (leafAxes m p).find? fun x => decide (256 * (obN m p 38 2 : Int) < (axAt c x).x)
  let n := if far.isSome then o.drawnCnt + 1 else 0
  let c := modOb p (fun o => { o with drawnCnt := min n 256 }) c
  match o.winOpen with
  | none => c
  | some t =>
    let late := obN m p 36 1 != 255 && o.lockAt.isNone && decide (lockLimit c p * 1000 < (c.seq.now + 1 - t) * 125)
    let ms := (c.seq.now + 1 - t) / 8
    let waits := c.seq.due.any fun d => match d with
      | .drawn q _ _ => q == p
      | _ => false
    if o.drawn || o.blank || waits then c
    else match far with
      | some x =>
        if obN m p 37 1 ≤ n then { c with seq.due := c.seq.due ++ [.drawn p x ms] }
        else if late then { c with seq.due := c.seq.due ++ [.drawn p 0xFF ms] } else c
      | none => if late then { c with seq.due := c.seq.due ++ [.drawn p 0xFF ms] } else c

/-- OBST_DRAWN is set (R228, R236). -/
def takeDrawn (p x ms : Nat) (c : Core) : Core :=
  if blanked c p || (obAt c p).drawn then c
  else obstEvent p 68 (if x = 0xFF then 0xFF else x) ms (modOb p (fun o => { o with drawn := true }) c)

/-- OBST_DRAWN (R236). -/
def execObstDrawn (p : Fin 12) (s : State) : Host.Outcome State Fault Refusal :=
  .next (match s.core.seq.due.findSome? fun d => match d with
      | .drawn q x ms => if q = p then some (x, ms) else none
      | _ => none with
    | some (x, ms) => { s with core := takeDrawn p x ms { s.core with seq.due := s.core.seq.due.erase (.drawn p x ms) } }
    | none => s)

/-! ### Moves as learning and clean moves (R238 to R241) -/

/-- Learning is armed for a direction: the operation still runs (R238, R240). -/
def armedFor (c : Core) (p d : Nat) : Bool :=
  match (obAt c p).opSlot with
  | some k => running c k 0x40 && pbit (obAt c p).armed d
  | none => false

/-- A portal's master starts from a START_MOVE: what R238 asks of it. -/
def moveBegins (p cls entry k : Nat) (slow : Bool) (c : Core) : Core :=
  modOb p (fun o => { o with
    mvDir := if cls = 2 then some 0 else if cls = 1 then some 1 else none
    mvClean := decide (entry = 0) && !slow
    mvK1 := decide (k = 256)
    mvDone := false
    mvSum := []
    mvCnt := [] }) c

/-- A signed 16-bit value of a curve (R237); a value beyond its range is left open (log 5). -/
def curveVal (v : Int) : Int := if -32768 ≤ v && v < 32768 then v else (Config.beyond16 v).toInt

/-- Adaptation of one bin (R237, R241): the new value, and whether it was clamped. -/
def adaptBin (r b mean : Int) (sh drift : Nat) : Int × Bool :=
  let v := b + (mean - b).tdiv (2 ^ sh)
  let w := clampI (r - drift) (r + drift) v
  (curveVal w, w != v)

/-- BASELINE_ADAPT (R241). -/
def adapt (p d : Nat) (c : Core) : Core :=
  let m := cfgOf c
  let o := obAt c p
  let sh := obN m p 15 1
  if sh = 0 || degradedAt c p then c
  else
    let (c, cl) := o.mvCnt.foldl (fun (r : Core × Bool) e =>
      let key := binKey p d 0 0 + e.1
      let mean := roundDiv (tget 0 o.mvSum e.1) e.2
      let (v, k) := adaptBin (tget 0 r.1.nv.curveR key) (tget 0 r.1.nv.curveB key) mean sh (obN m p 22 2)
      ({ r.1 with nv.curveB := tset 0 r.1.nv.curveB key v }, r.2 || k)) (c, false)
    if cl then raise 0x402 255 0xFF (event 0x053 0x06 [p, d] c) else c

/-- A learning cycle is counted, or the move is discarded (R238 to R240). -/
def learnMove (p d : Nat) (ok : Bool) (c : Core) : Core :=
  let o := obAt c p
  if ok then
    let n := tget 0 o.learned d + 1
    let lock := if d = 1 then o.lockAt.bind fun k => o.winOpen.map fun t => (k - t) / 8 else none
    let c := modOb p (fun o => { o with
      learned := tset 0 o.learned d n
      discarded := tset 0 o.discarded d 0
      accSum := o.mvSum.foldl (fun t e => tmod 0 t (768 * d + e.1) (· + e.2)) o.accSum
      accCnt := o.mvCnt.foldl (fun t e => tmod 0 t (768 * d + e.1) (· + e.2)) o.accCnt
      lockSum := o.lockSum + lock.getD 0
      lockCnt := o.lockCnt + b2n lock.isSome }) c
    if n = o.cycles then { c with seq.due := c.seq.due ++ [.baseline p (d == 1)] } else c
  else
    let n := tget 0 o.discarded d + 1
    let c := modOb p (fun o => { o with discarded := tset 0 o.discarded d n }) c
    if n = 8 then { c with seq.due := c.seq.due ++ [.learnAbort p (d == 1)] } else c

/-- A move is judged: an opening at MOVE_DONE, a closing when its lock window closes, any other when the next
START_MOVE takes effect (R238, R241). -/
def judgeMove (p : Nat) (reached : Bool) (c : Core) : Core :=
  let o := obAt c p
  match o.mvDir with
  | none => c
  | some d =>
    let clean := reached && o.mvClean
    let c := if armedFor c p d then learnMove p d (clean && o.mvK1) c
      else if clean then adapt p d c else c
    modOb p (fun o => { o with mvDir := none, mvSum := [], mvCnt := [] }) c

/-- The estimator takes a condition vector (R236, R238): the lock window opens, the lock time ends, a bit of 64 to
69 spoils a move, and an opening is judged at MOVE_DONE. -/
def watchVector (p : Nat) (any : Bool) (c : Core) : Core :=
  let h := chAt c p
  let m := cfgOf c
  let c := if any then modOb p (fun o => { o with mvClean := false }) c else c
  let c := if h.moveDone then modOb p (fun o => { o with mvDone := o.mvDir.isSome }) c else c
  let c := if h.moveDone && (msAt c p).cls = 1 && (obAt c p).winOpen.isNone then
      modOb p (fun o => { o with winOpen := some c.seq.now, lockAt := none }) c else c
  let sp := obN m p 36 1
  let c := if (obAt c p).winOpen.isSome && (obAt c p).lockAt.isNone && sp < 16 && h.cv.getLsbD (32 + sp) then
      modOb p (fun o => { o with lockAt := some c.seq.now }) c else c
  if h.moveDone && (obAt c p).mvDir = some 0 then judgeMove p true c else c

/-- A START_MOVE takes effect (R226, R227, R236): the move before it is judged, the lock window closes, the latched
bits clear, and blanking begins. -/
def startMoveBlanks (p : Nat) (c : Core) : Core :=
  let c := judgeMove p (obAt c p).winOpen.isSome c
  modOb p (fun o => { o with
    force := false, stall := false, stallDue := none, drawn := false, energy := false
    blank := true, blankTo := none
    winOpen := none, forceCnt := [], energyCnt := 0 }) c

/-- Blanking ends (R227): F_BLANK ticks after the master's start, or when its request has ended without a start. -/
def blankEnds (p : Nat) (c : Core) : Core :=
  let o := obAt c p
  let ms := msAt c p
  match o.blankTo with
  | some t => if t ≤ c.seq.now then modOb p (fun o => { o with blank := false, blankTo := none }) c else c
  | none =>
    let none_ := match ms.waiting with
      | some r => r.manual.isSome
      | none => ms.granted.isNone
    if o.blank && none_ then modOb p (fun o => { o with blank := false }) c else c

/-! ### Learning operations (R238 to R240) -/

/-- Means of the visited bins of one axis, ascending (R239). -/
def visited (o : ObstSt) (d a : Nat) : List (Nat × Int) :=
  (List.range 256).filterMap fun b =>
    let n := tget 0 o.accCnt (768 * d + 256 * a + b)
    if n = 0 then none else some (b, roundDiv (tget 0 o.accSum (768 * d + 256 * a + b)) n)

/-- The value of a bin from the visited ones (R239). -/
def fillBin (l : List (Nat × Int)) (b : Nat) : Int :=
  match (l.filter fun e => e.1 ≤ b).getLast?, l.find? fun e => decide (b ≤ e.1) with
  | some (i, v), some (j, w) => if i = j then v else v + roundDiv ((w - v) * ((b - i : Nat) : Int)) (j - i)
  | some (_, v), none => v
  | none, some (_, w) => w
  | none, none => 0

/-- The baseline of one axis is written (R239); an axis without a visited bin keeps its curves. -/
def writeCurve (p d a : Nat) (c : Core) : Core :=
  let l := visited (obAt c p) d a
  if l.isEmpty then c
  else (List.range 256).foldl (fun c b =>
    let v := curveVal (fillBin l b)
    let k := binKey p d a b
    { c with nv.curveR := tset 0 c.nv.curveR k v, nv.curveB := tset 0 c.nv.curveB k v }) c

/-- BASELINE_LEARNED (R239): the record of a direction is written; the operation completes when every named direction
is done. -/
def takeBaseline (p d : Nat) (c : Core) : Core :=
  if !armedFor c p d then c
  else
    let o := obAt c p
    let n := tget 0 o.learned d
    let c := [0, 1, 2].foldl (fun c a => writeCurve p d a c) c
    let lock := if o.lockCnt = 0 then 0 else (roundDiv o.lockSum o.lockCnt).toNat + 1
    let c := { c with
      nv.lBase := if d = 1 then tset 0 c.nv.lBase p lock else c.nv.lBase
      nv.valid := tset false c.nv.valid (p * 2 + d) true
      nv.learned := tset 0 c.nv.learned (p * 2 + d) n }
    let c := event 0x052 0x06 [p, d, n] c
    let c := modOb p (fun o => { o with armed := setBit o.armed d false }) c
    if (obAt c p).armed = 0 then
      finish (o.opSlot.getD 0) 0x00 0 (tget 0 o.learned 0 + tget 0 o.learned 1) 0 (modOb p (fun o => { o with opSlot := none }) c)
    else c

/-- BASELINE_LEARNED (R239). -/
def execBaselineLearned (p : Fin 12) (close : Bool) (s : State) : Host.Outcome State Fault Refusal :=
  .next (if s.core.seq.due.contains (.baseline p close) then
      { s with core := takeBaseline p (b2n close) { s.core with seq.due := s.core.seq.due.erase (.baseline p close) } }
    else s)

/-- Eight consecutive discards end the operation (R240). -/
def takeLearnAbort (p d : Nat) (c : Core) : Core :=
  if !armedFor c p d then c
  else finish ((obAt c p).opSlot.getD 0) 0x42 p 0 0 (modOb p (fun o => { o with armed := 0, opSlot := none }) c)

/-- LEARN_ABORT (R240). -/
def execLearnAbort (p : Fin 12) (close : Bool) (s : State) : Host.Outcome State Fault Refusal :=
  .next (if s.core.seq.due.contains (.learnAbort p close) then
      { s with core := takeLearnAbort p (b2n close) { s.core with seq.due := s.core.seq.due.erase (.learnAbort p close) } }
    else s)

/-- LEARN_BASELINE arms learning (R238); with no direction named it is done at once. A move under way in a direction that it names is
no learning cycle (log 26). -/
def learnDeliver (k : Nat) (d : Bytes) (c : Core) : Core :=
  let p := byteAt d 8
  let dirs := BitVec.ofNat 2 (byteAt d 9)
  if dirs = 0 then finish k 0x00 0 0 0 c
  else modOb p (fun o => { o with
    armed := dirs, cycles := byteAt d 10, opSlot := some k, learned := [], discarded := []
    accSum := [], accCnt := [], lockSum := 0, lockCnt := 0, mvDir := o.mvDir.filter fun e => !pbit dirs e }) c

/-- LEARN_BASELINE (R238). -/
def execLearnBaseline (slot : Fin 512) (s : State) : Host.Outcome State Fault Refusal :=
  .next { s with core := startOp slot 0x40 (learnDeliver slot) s.core }

end Sys2Proof.Machine
end

