-- ==== Sys2Proof/Machine/Topaz.lean ====
section
/-! DEFINITION. Topaz (R246 to R270): the measured supply, heat, committed values, and the evaluation of the waiting
requests. Supply currents are in 0.1 A, stretches in 1/256, temperatures in 2^-32 °C. -/

namespace Sys2Proof.Machine

/-! ### The Topaz section (R268, R269) -/

/-- 16-bit header field. -/
def tz16 (c : Core) (o : Nat) : Nat := img16 (cfgOf c) (secTopaz + o)
/-- Byte of the header. -/
def tz8 (c : Core) (o : Nat) : Nat := img8 (cfgOf c) (secTopaz + o)
/-- MAN_I of a portal. -/
def manI (c : Core) (p : Nat) : Nat := img16 (cfgOf c) (secTopaz + 64 + 64 * p + 2)
/-- Thermal block of axis `x`. -/
def thermBlk (x : Nat) : Nat := secTopaz + 64 + 64 * (x / 3) + 4 + 16 * (x % 3)

/-- Update Topaz. -/
def modTz (f : TopazSt → TopazSt) (c : Core) : Core := { c with seq.topaz := f c.seq.topaz }

/-- Committed value of a portal (R250). -/
def committed (c : Core) (p : Nat) : Nat := tget 0 c.seq.topaz.committed p
/-- Set a committed value. -/
def setCommitted (p v : Nat) (c : Core) : Core := modTz (fun t => { t with committed := tset 0 t.committed p v }) c

/-! ### Feedback of a tick, own or from the active (R267, R369) -/

/-- At a TICK, what the four periods of the tick before have measured on each axis (R263, R369). -/
def latchTick (c : Core) : Core :=
  { c with seq.lastAx := tmake {} 36 fun x =>
      let a := axAt c x
      { vdcMin := a.vdcMin.getD 65535, meanI := (roundDiv a.iSum 4).toNat, drawn := (roundDiv a.eDrawn 3200).toNat
        regen := (roundDiv a.eRegen 3200).toNat } }

/-- Feedback of axis `x` for Topaz and the cycle record: the unit's own (period 0 of the tick, and what the tick before has measured),
or the active's in a synchronised standby. -/
def axisIn (c : Core) (x : Nat) : InAxis :=
  if standbyIn c then
    match c.twin.input with
    | some (_, f) => tget {} f.axis x
    | none => {}
  else
    let a := axAt c x
    { tget {} c.seq.lastAx x with idc := a.p0.idc, vdc := a.p0.vdc, temp := a.up.temp }

/-- I_MEAS (R260). -/
def iMeas (c : Core) : Int :=
  let s : Int := ((List.range 36).filter (axisConf (cfgOf c))).foldl (fun t x => t + max 0 (axisIn c x).idc) 0
  tz16 c 4 + roundDiv s 100

/-- The measured supply of a tick (R260, R261): the counts, the ends of an overload and of SUPPLY_LOW, and the
detections that are due. -/
def supplyFeedback (c : Core) : Core :=
  let i := iMeas c
  let n := if (tz16 c 0 : Int) < i then c.seq.topaz.overCnt + 1 else 0
  let c := modTz (fun t => { t with
    iMeas := i
    overCnt := min n 256
    overload := t.overload && decide ((tz16 c 0 : Int) - tz16 c 2 < i) }) c
  let c := if n = tz8 c 21 && n ≠ 0 && !c.seq.topaz.overload then { c with seq.due := c.seq.due ++ [.supplyOver i] } else c
  (List.range 12).foldl (fun c p =>
    let l := portalAxes (cfgOf c) p
    let low := tz16 c 22 ≠ 0 && l.any fun x => decide ((axisIn c x).vdc < tz16 c 22)
    let q := if low then tget 0 c.seq.topaz.lowCnt p + 1 else 0
    let c := modTz (fun t => { t with
      lowCnt := tset 0 t.lowCnt p (min q 256)
      supplyLow := if low then t.supplyLow else setBit t.supplyLow p false }) c
    if q = tz8 c 24 && q ≠ 0 then { c with seq.due := c.seq.due ++ [.supplyLow p] } else c) c

/-- A supply overload is in force: its condition has been met, whether or not its record has been written (R260, log 3). -/
def overloaded (c : Core) : Bool :=
  c.seq.topaz.overload || c.seq.due.any fun d => match d with
    | .supplyOver _ => true
    | _ => false

/-- A supply overload begins (R260). -/
def takeSupplyOver (i : Int) (c : Core) : Core :=
  event 0x061 0x07 [unsigned 32 i] (modTz (fun t => { t with overload := true }) c)

/-- SUPPLY_OVER (R260). -/
def execSupplyOver (s : State) : Host.Outcome State Fault Refusal :=
  .next (match s.core.seq.due.findSome? fun d => match d with
      | .supplyOver i => some i
      | _ => none with
    | some i => { s with core := takeSupplyOver i { s.core with seq.due := s.core.seq.due.erase (.supplyOver i) } }
    | none => s)

/-- SUPPLY_LOW of a portal becomes 1 (R261). -/
def takeSupplyLow (p : Nat) (c : Core) : Core := modTz (fun t => { t with supplyLow := setBit t.supplyLow p true }) c

/-- SUPPLY_LOW (R261). -/
def execSupplyLow (p : Fin 12) (s : State) : Host.Outcome State Fault Refusal :=
  .next (if s.core.seq.due.contains (.supplyLow p) then
      { s with core := takeSupplyLow p { s.core with seq.due := s.core.seq.due.erase (.supplyLow p) } }
    else s)

/-! ### Heat (R263, R264) -/

/-- A level with its hysteresis (R264). -/
def level (on : Bool) (v thr hyst : Int) : Bool := if on then decide (thr - hyst ≤ v) else decide (thr ≤ v)

/-- One tick of the thermal model of axis `x` (R263, R264). Its first VALID frame shows in the smallest VDC of the tick before, in
both units alike (log 18). -/
def thermAxis (x : Nat) (c : Core) : Core :=
  let m := cfgOf c
  let b := thermBlk x
  let f := axisIn c x
  let w : Int := 2 ^ 32
  let ic : Nat := max 1 (img16 m b)
  let amb := f.temp * w
  let h := tz8 c 25
  let tau : Nat := max 1 (800 * img16 m (b + 2))
  let c := modTz (fun t => { t with therm := tmod {} t.therm x fun q =>
      if q.init then
        let target := fit64 (roundDiv (amb * ic ^ 2 + img8 m (b + 4) * w * f.meanI ^ 2) (ic ^ 2))
        { q with tm := fit64 (roundDiv (q.tm * tau + (target - q.tm)) tau) }
      else if f.vdcMin = 65535 then q
      else { q with init := true, tm := amb + img8 m (b + 4) * w } }) c
  let q := tget {} c.seq.topaz.therm x
  if !q.init then c
  else
    let c := modTz (fun t => { t with therm := tset {} t.therm x { q with
      warnM := level q.warnM q.tm (img8 m (b + 5) * w) (h * w)
      critM := level q.critM q.tm (img8 m (b + 6) * w) (h * w)
      warnS := level q.warnS f.temp (img8 m (b + 7)) h
      critS := level q.critS f.temp (img8 m (b + 8)) h } }) c
    axMax x 2 (q.tm / w) c

/-- An axis is at a warning or critical level; before its first VALID frame it counts as at warning (R263). -/
def axisWarm (c : Core) (x : Nat) : Bool :=
  let q := tget {} c.seq.topaz.therm x
  !q.init || q.warnM || q.critM || q.warnS || q.critS
/-- An axis is at a critical level. -/
def axisCrit (c : Core) (x : Nat) : Bool :=
  let q := tget {} c.seq.topaz.therm x
  q.critM || q.critS

/-- THERMAL_UPDATE and the portal levels (R263, R264). -/
def thermalTick (c : Core) : Core :=
  let c := ((List.range 36).filter (axisConf (cfgOf c))).foldl (fun c x => thermAxis x c) c
  (List.range 12).foldl (fun c p =>
    let l := portalAxes (cfgOf c) p
    let w := l.find? (axisWarm c)
    let k := l.find? (axisCrit c)
    let c := match w with
      | some x => if pbit c.seq.topaz.heatWarn p then c else event 0x062 0x07 [p, x] c
      | none => c
    let c := match k with
      | some x => if pbit c.seq.topaz.heatCrit p then c else event 0x063 0x07 [p, x] c
      | none => c
    modTz (fun t => { t with heatWarn := setBit t.heatWarn p w.isSome, heatCrit := setBit t.heatCrit p k.isSome }) c) c

/-! ### Requests and predictions (R249 to R252, R265) -/

/-- A portal is thermally held for a class (R265). -/
def thermHeld (c : Core) (p cls : Nat) : Bool := pbit c.seq.topaz.heatCrit p && (cls == 2 || cls == 3)

/-- k_cap of a request (R265). -/
def kCap (c : Core) (p cls : Nat) : Nat :=
  if pbit c.seq.topaz.heatCrit p && cls = 1 then tz16 c 14
  else if pbit c.seq.topaz.heatWarn p || pbit c.seq.topaz.heatCrit p then tz16 c 12
  else 256

/-- P(k) of a table (R251). -/
def predicted (t : Image) (entry k : Nat) : Nat :=
  let k := if camMaster t ≠ 0 || entry = 2 then 256 else k
  camHold t + (((camPeak t : Int) - camHold t).toNat * k + 255) / 256

/-- P(k) of a request with a candidate table. -/
def predictedReq (c : Core) (p : Nat) (r : MoveReq) (table k : Nat) : Nat :=
  if r.manual.isSome then manI c p else predicted ((camData c table).getD {}) r.entry k

/-- The sum of BASE_I and the committed values of the portals outside a group, with the grants of this evaluation. -/
def loadOutside (c : Core) (done : List (Nat × Nat)) (g : List Nat) : Nat :=
  tz16 c 4 + (((List.range 12).filter fun p => !g.contains p).map fun p =>
    match done.find? fun e => e.1 == p with
    | some e => e.2
    | none => committed c p).sum

/-- The running master is at rest at the next TICK (R174). -/
def restNext (c : Core) (p : Nat) : Bool :=
  let m := msAt c p
  !m.run || ((m.kind == .planned || m.kind == .manual) && decide (planLeft m.segs m.tau ≤ 125000))

/-- A request is startable (R174). -/
def startable (c : Core) (p : Nat) (r : MoveReq) : Bool :=
  (r.manual.isSome || (pageOf c r.table).isSome) &&
    (restNext c p || match r.takeAt with
      | some t => decide (t ≤ (c.seq.now + 1) * 125000)
      | none => false)

/-- The waiting request of a portal that Topaz has evaluated. -/
def waitingAt (c : Core) (p : Nat) : Option MoveReq :=
  match (msAt c p).waiting with
  | some r => if r.age.isSome then some r else none
  | none => none

/-- A group is staggered (R259). -/
def staggered (c : Core) (g : Nat) : Bool := bitOf (tz8 c 20) g

/-- The holder still holds a portal. -/
def holderHolds (c : Core) (k p : Nat) : Bool :=
  match slotAt c k with
  | some x => partOpen x p
  | none => false

/-- An entry of the waiting order (R248, R258). -/
structure Entry where
  members : List (Nat × MoveReq)
  rank : Nat
  age : Nat
  deriving DecidableEq, Repr

/-- Rank of a request in the waiting order. -/
def rankOf (above : Bool) (cls : Nat) : Nat := if above then 0 else cls

/-- The members of a locked entry: same holder, same class (R258). -/
def lockedMembers (c : Core) (g k cls : Nat) : List (Nat × MoveReq) :=
  (List.range 12).filterMap fun p => (waitingAt c p).bind fun r =>
    if r.group = some (g, k) && r.cls = cls then some (p, r) else none

/-- The entry that a waiting request belongs to; a locked entry stands at its lowest member. -/
def entryAt (c : Core) (p : Nat) : Option Entry :=
  (waitingAt c p).bind fun r =>
    if r.cls = 0 then none
    else match r.group with
      | some (g, k) =>
        if staggered c g then some ⟨[(p, r)], rankOf r.overdue r.cls, r.age.getD 0⟩
        else
          let l := lockedMembers c g k r.cls
          if l.head?.map (·.1) = some p then
            some ⟨l, rankOf (l.any fun e => e.2.overdue) r.cls, l.foldl (fun a e => min a (e.2.age.getD a)) (r.age.getD 0)⟩
          else none
      | none => some ⟨[(p, r)], rankOf r.overdue r.cls, r.age.getD 0⟩

/-- The order of two entries: rank, age, lowest portal. -/
def entryBefore (a b : Entry) : Bool :=
  let p (e : Entry) : Nat := (e.members.head?.map (·.1)).getD 0
  decide (a.rank < b.rank) || (a.rank == b.rank && (decide (a.age < b.age) || (a.age == b.age && decide (p a ≤ p b))))

/-- Insert an entry in order. -/
def insertEntry (e : Entry) : List Entry → List Entry
  | [] => [e]
  | f :: r => if entryBefore e f then e :: f :: r else f :: insertEntry e r

/-- The waiting order (R248). -/
def waitingOrder (c : Core) : List Entry :=
  (List.range 12).foldl (fun l p => match entryAt c p with
    | some e => insertEntry e l
    | none => l) []

/-- A staggered member may go (R259). -/
def staggerOk (c : Core) (p g k : Nat) : Bool :=
  (List.range p).all (fun q => match waitingAt c q with
    | some r => r.group != some (g, k)
    | none => true) &&
    match tget 0 c.seq.topaz.lastStart k with
    | 0 => true
    | t => decide (t + tz16 c 18 ≤ c.seq.now + 1)

/-- The lock-group conditions of an entry (R258, R259). -/
def entryGroupOk (c : Core) (e : Entry) : Bool :=
  match e.members with
  | [] => false
  | (p, r) :: _ => match r.group with
    | none => true
    | some (g, k) =>
      if staggered c g then staggerOk c p g k
      else e.members.any (fun m => m.2.gatherDone) ||
        (List.range 12).all fun q => !holderHolds c k q || (waitingAt c q).isSome

/-- An entry is eligible (R249). -/
def eligible (c : Core) (e : Entry) : Bool :=
  !overloaded c && entryGroupOk c e &&
    e.members.all fun m => startable c m.1 m.2 && !thermHeld c m.1 m.2.cls

/-- The candidate table of an overdue member, and whether it is the slow variant (R175, R256). -/
def candidate (c : Core) (r : MoveReq) (above : Bool) : Nat × Bool :=
  if above && r.manual.isNone && r.slowOk && (pageOf c r.slow).isSome then (r.slow, true) else (r.table, false)

/-! ### Grants (R250 to R256) -/

/-- A grant is made to a portal: its master starts at the next TICK (R148, R167); histograms 11 and 12 (R433). -/
def grantTo (p : Nat) (r : MoveReq) (table : Nat) (slow : Bool) (k : Nat) (c : Core) : Core :=
  let c := modMs p (fun m => { m with waiting := none, granted := some ⟨r, table, slow, k⟩ }) c
  let c := modTz (fun t => { t with
    lastK := tset 0 t.lastK p k
    lastStart := match r.group with
      | some (_, h) => tset 0 t.lastStart h (c.seq.now + 1)
      | none => t.lastStart }) c
  if r.manual.isSome then c
  else histAdd p 11 ((c.seq.now - r.age.getD c.seq.now) / 80) (histAdd p 12 ((256 - k) / 3) c)

/-- Every reversal that is startable is granted (R248 step 3, R254). -/
def grantReversals (c : Core) : Core × List (Nat × Nat) :=
  (List.range 12).foldl (fun (r : Core × List (Nat × Nat)) p =>
    match waitingAt r.1 p with
    | some q =>
      if q.cls = 0 && startable r.1 p q then
        let k := match tget 0 r.1.seq.topaz.lastK p with
          | 0 => 256
          | k => k
        let pk := predictedReq r.1 p q q.table k
        let done := r.2 ++ [(p, pk)]
        let sum := loadOutside r.1 done []
        let c := grantTo p q q.table false k r.1
        (if tz16 c 0 < sum then event 0x060 0x07 [sum] c else c, done)
      else r
    | none => r) (c, [])

/-- The predictions of an entry at stretch `k`. -/
def entryLoad (c : Core) (e : Entry) (k : Nat) : List (Nat × Nat) :=
  e.members.map fun m => (m.1, predictedReq c m.1 m.2 (candidate c m.2 (e.rank == 0)).1 (if m.2.manual.isSome then 256 else k))

/-- The first stretch at which an entry fits (R251, R252, R256). -/
def fitAt (c : Core) (done : List (Nat × Nat)) (e : Entry) : Option Nat :=
  let cap := e.members.foldl (fun a m => min a (kCap c m.1 m.2.cls)) 256
  let ks := if e.rank = 0 then cap :: [192, 128, 64].filter (fun k => decide (k < cap)) else [cap]
  let out := loadOutside c done (e.members.map (·.1))
  ks.find? fun k => decide ((out + ((entryLoad c e k).map (·.2)).sum : Nat) + (tz16 c 2 : Int) ≤ tz16 c 0)

/-- Grant an entry whole. -/
def grantEntry (e : Entry) (k : Nat) (c : Core) : Core :=
  e.members.foldl (fun c m =>
    let t := candidate c m.2 (e.rank == 0)
    grantTo m.1 m.2 t.1 t.2 (if m.2.manual.isSome then 256 else k) c) c

/-- Step 4 of R248: the other eligible entries in order, until one does not fit. -/
def grantOthers : List Entry → Core → List (Nat × Nat) → Core
  | [], c, _ => c
  | e :: r, c, done =>
    if !eligible c e then grantOthers r c done
    else match fitAt c done e with
      | some k => grantOthers r (grantEntry e k c) (done ++ entryLoad c e k)
      | none => c

/-! ### The evaluation of a tick (R247, R248) -/

/-- A STOP_MOVE executed in this tick withdraws the portal's waiting request, and a START_MOVE replaces it; an operation that waits
so ends, STOPPED or PREEMPTED (R246, R247, log 27). -/
def withdraw (p : Nat) (c : Core) : Core :=
  let h := chAt c p
  let stop := h.queued.any fun a => a.op == 0x12
  if !stop && !h.queued.any (fun a => a.op == 0x11) then c
  else
    let c := match (msAt c p).waiting.bind MoveReq.slot with
      | some k => if stop then endAll k 0x41 0x01 c else endAll k 0x40 0 c
      | none => c
    modMs p (fun m => { m with waiting := none }) c

/-- A request is first evaluated in the tick in which its page is there (R148), on its own once the group of its holder is closed
(R258); an ENTRY 1 request whose table has no join track is refused, and such a slow variant counts as failed (R175). -/
def firstLook (p : Nat) (c : Core) : Core :=
  match (msAt c p).waiting with
  | none => c
  | some r =>
    if r.manual.isSome then modMs p (fun m => { m with waiting := some { r with age := some (r.age.getD c.seq.now) } }) c
    else match camData c r.table with
      | none => c
      | some t =>
        if r.entry = 1 && camJoin t = 255 then
          modCh p (fun h => { h with camFault := true, camRefused := true }) (modMs p (fun m => { m with waiting := none }) c)
        else
          let badSlow := r.entry = 1 && r.slowOk && (camData c r.slow).any fun u => camJoin u == 255
          let c := if badSlow then event 0x030 0x04 [r.slow, 8] c else c
          let late := r.age.isNone && r.group.any fun e => c.seq.topaz.closedHolders.contains e.2
          modMs p (fun m => { m with waiting := some { r with
            age := some (r.age.getD c.seq.now), slowOk := r.slowOk && !badSlow, group := if late then none else r.group } }) c

/-- The maximum wait of a class in ticks, 0 for none (R256, R268). -/
def maxWait (c : Core) (cls : Nat) : Nat :=
  if cls = 1 then tz16 c 6 else if cls = 2 then tz16 c 8 else if cls = 3 then tz16 c 10 else 0

/-- A request waits one more tick (R256); ticks of heat and of an overload do not count. -/
def waitOn (p : Nat) (c : Core) : Core :=
  match waitingAt c p with
  | none => c
  | some r =>
    if thermHeld c p r.cls || overloaded c then c
    else
      let n := r.waited + 1
      let w := maxWait c r.cls
      let c := modMs p (fun m => { m with waiting := some { r with waited := n } }) c
      if n = w && w ≠ 0 && r.manual.isNone then { c with seq.due := c.seq.due ++ [.overdue p] } else c

/-- The gathering of a locked group has lasted GATHER ticks at the next evaluation (R258). -/
def gatherOver (c : Core) (g : Nat) : Bool :=
  !staggered c g && (List.range 12).any fun p => match waitingAt c p with
    | some r => (r.group.any fun e => e.1 == g) && !r.gatherDone && decide (r.age.getD c.seq.now + tz16 c 16 ≤ c.seq.now + 1)
    | none => false

/-- Holders that no longer run are forgotten. -/
def forgetHolders (c : Core) : Core :=
  modTz (fun t => { t with
    closedHolders := t.closedHolders.filter fun k => running c k 0x10
    lastStart := t.lastStart.filter fun e => running c e.1 0x10 }) c

/-- A portal's axes have all gone OFF (R250). -/
def axesGoOff (c : Core) : Core :=
  (List.range 12).foldl (fun c p =>
    let on := (portalAxes (cfgOf c) p).any fun x => (axAt c x).st != .off
    let c := if pbit c.seq.topaz.wasOn p && !on then setCommitted p 0 c else c
    modTz (fun t => { t with wasOn := setBit t.wasOn p on }) c) c

/-- Where the gathering of a locked entry is over, the members present form it, and its holder's group is closed (R258). -/
def closeGroup (p : Nat) (c : Core) : Core :=
  match waitingAt c p with
  | some r => match r.group with
    | some (g, k) =>
      if (lockedMembers c g k r.cls).any (fun e => e.2.gatherDone) then
        modTz (fun t => { t with closedHolders := if t.closedHolders.contains k then t.closedHolders else k :: t.closedHolders })
          (modMs p (fun m => { m with waiting := some { r with gatherDone := true } }) c)
      else c
    | none => c
  | none => c

/-- TOPAZ_EVALUATION (R248): withdrawals, the measured supply, heat, and the grants. -/
def topazTick (c : Core) : Core :=
  let c := (List.range 12).foldl (fun c p => withdraw p c) c
  let c := thermalTick (forgetHolders (supplyFeedback c))
  let c := (List.range 12).foldl (fun c p => firstLook p c) c
  let c := (List.range 12).foldl (fun c p => closeGroup p c) c
  let (c, done) := grantReversals c
  let c := grantOthers (waitingOrder c) c done
  let c := (List.range 12).foldl (fun c p => waitOn p c) c
  (List.range 8).foldl (fun c g => if gatherOver c g then { c with seq.due := c.seq.due ++ [.gather g] } else c) c

/-- A request becomes overdue (R256), unless another one has replaced it. -/
def takeOverdue (p : Nat) (c : Core) : Core :=
  modMs p (fun m => { m with waiting := m.waiting.map fun r =>
    { r with overdue := r.overdue || (r.manual.isNone && maxWait c r.cls != 0 && decide (maxWait c r.cls ≤ r.waited)) } }) c

/-- OVERDUE (R256). -/
def execOverdue (p : Fin 12) (s : State) : Host.Outcome State Fault Refusal :=
  .next (if s.core.seq.due.contains (.overdue p) then
      { s with core := takeOverdue p { s.core with seq.due := s.core.seq.due.erase (.overdue p) } }
    else s)

/-- The gathering of a locked group is over (R258). -/
def takeGather (g : Nat) (c : Core) : Core :=
  (List.range 12).foldl (fun c p => match waitingAt c p with
    | some r => match r.group with
      | some (g', k) =>
        if g' = g && (List.range 12).any (fun q => match waitingAt c q with
            | some r' => r'.group == some (g, k) && r'.cls == r.cls && decide (r'.age.getD c.seq.now + tz16 c 16 ≤ c.seq.now + 1)
            | none => false) then
          modMs p (fun m => { m with waiting := some { r with gatherDone := true } }) c
        else c
      | none => c
    | none => c) c

/-- GATHER_EXPIRY (R258). -/
def execGatherExpiry (g : Fin 8) (s : State) : Host.Outcome State Fault Refusal :=
  .next (if s.core.seq.due.contains (.gather g) then
      { s with core := takeGather g { s.core with seq.due := s.core.seq.due.erase (.gather g) } }
    else s)

/-! ### The cut-off of a period (R207, R234, R236) -/

/-- A standby retains its valid up frames for 16 ticks, 64 periods (R374). -/
def keepUp (c : Core) : Core :=
  if c.sys.mode = .shadow then
    let q := c.tb.cp - 1
    let now := (List.range 36).filterMap fun x => match (linkAt c x).rx with
      | some rx => if (linkAt c x).locked && rxOk rx && !rx.late then some (q, x, rx.bytes) else none
      | none => none
    { c with twin.keptUp := now ++ c.twin.keptUp.filter fun e => decide (q < e.1 + 64) }
  else c

/-- UP_FRAME_CUTOFF: every axis, then the local inputs; with period 3 the drawn-through check. -/
def cutoff (c : Core) : Core :=
  let m := cfgOf c
  let k := (c.tb.cp + 3) % 4
  let c := cutoffAxes (keepUp c)
  let c := ((List.range 36).filter (axisConf m)).foldl (fun c x =>
    if (linkAt c x).cls = .valid then localInputs x c else c) c
  if k = 3 then (List.range 12).foldl (fun c p => drawnTest p c) c
  else c

end Sys2Proof.Machine
end

