-- ==== Sys2Proof/Machine/Master.lean ====
section
/-! DEFINITION. The virtual masters as the ticks move them (R165 to R179): setpoints, braking and escalation, the
decision of R171, starts from rest, takeovers, and manual moves. -/

namespace Sys2Proof.Machine

/-- The state of a master at the present TICK. -/
def kinOf (m : MasterSt) : Kin := ⟨m.m, m.vel, m.acc⟩

/-- What a plan gives `t` ns after its first segment's start: none when it has ended (R165). -/
def planAt (m : MasterSt) (t : Nat) : Option (List Seg × Kin × Nat × Kin) :=
  match crossSegs m.segs ⟨m.ms, m.vs, m.accs⟩ t with
  | ([], _, _) => none
  | (g :: r, k, t) => let e := kinAt k g.jerk t; some (g :: r, k, t, ⟨min e.m m.mEnd, e.v, e.a⟩)

/-- Where a plan rests: at M_END, or where its braking leaves it (R165). -/
def restOf (m : MasterSt) : Int :=
  match m.braking with
  | .none => m.mEnd
  | _ => min (crossSegs m.segs ⟨m.ms, m.vs, m.accs⟩ (planLeft m.segs 0)).2.1.m m.mEnd

/-- A master comes to rest; one that has kept its plan to M_END is at its end (R165, R178). -/
def comeToRest (m : MasterSt) : MasterSt :=
  { m with run := false, segs := [], tau := 0, m := restOf m, vel := 0, acc := 0, atEnd := m.braking == .none, braking := .none }

/-- The measured position of a leaf as a master coordinate (R177). -/
def leadAt (c : Core) (p a : Nat) (mEnd : Int) : Int := clampI 0 mEnd (posNow c (3 * p + a) * 2 ^ 24)

/-- A master reaches the present TICK (R165, R166, R177). -/
def advance (c : Core) (p : Nat) (m : MasterSt) : MasterSt :=
  if !m.run then m
  else
    let lead (a : Nat) : MasterSt :=
      let x := leadAt c p a m.mEnd
      if x = m.mEnd then { m with m := x, vel := 0, run := false, atEnd := true }
      else { m with m := x, vel := (x - m.m) * 8000 }
    match m.kind with
    | .leadL => lead 0
    | .leadR => lead 1
    | _ => match planAt m (m.tau + 125000) with
      | none => comeToRest m
      | some (l, k, t, e) =>
        { m with segs := l, ms := k.m, vs := k.v, accs := k.a, tau := t, m := e.m, vel := e.v, acc := e.a }

/-- The master value and velocity of the next TICK, for the setpoints between the ticks (R166). -/
def predict (m : MasterSt) : MasterSt :=
  if !m.run || m.kind == .leadL || m.kind == .leadR then { m with mN := m.m, velN := 0 }
  else match planAt m (m.tau + 125000) with
    | none => { m with mN := restOf m, velN := 0 }
    | some (_, _, _, e) => { m with mN := e.m, velN := e.v }

/-! ### Setpoints (R166, R173, R175, R179) -/

/-- The offset that is left at a coordinate (R175). -/
def offAt (t : Image) (m : MasterSt) (a : Nat) (x : Int) : Int :=
  let o := tget 0 m.off a
  let jb : Int := camBlend t * 2 ^ 32
  if m.entry = 2 then o
  else if jb = 0 then 0
  else roundDiv (o * max 0 (jb - (x - m.m0))) jb.toNat

/-- The setpoint of track `a` at a master coordinate, before the limits (R175). -/
def rawSp (t : Image) (m : MasterSt) (a : Nat) (x : Int) : Int := trackAt t a x + offAt t m a x

/-- A setpoint within the soft limits; a reference search has none (R173, R175). -/
def limitSp (c : Core) (m : MasterSt) (x : Nat) (v : Int) : Int :=
  if m.entry = 2 then v else clampI (slMin (cfgOf c) x) (slMax (cfgOf c) x) v

/-- The lead leaf of a master is not driven by its track (R177). -/
def drives (t : Image) (m : MasterSt) (a : Nat) : Bool :=
  camTrack t a && !(m.kind == .leadL && a == 0) && !(m.kind == .leadR && a == 1)

/-- The setpoint of an axis that nothing drives: the one it held, or its measured position (R175). -/
def holdSp (c : Core) (x : Nat) : Core :=
  let n := posNow c x
  modAx x (fun a => if a.hasSp then { a with spN := a.sp, vff := 0, vffN := 0 }
    else { a with hasSp := true, sp := n, spN := n, vff := 0, vffN := 0 }) c

/-- The setpoint of a manual move at its coordinate (R179). -/
def manualSp (m : MasterSt) (x : Int) : Int := m.manFrom + m.manDir * roundDiv x (2 ^ 24)

/-- An axis takes its setpoints of this TICK and of the next (R166). -/
def putSp (c : Core) (m : MasterSt) (x : Nat) (v vN f fN : Int) : Core :=
  let s := limitSp c m x v
  modAx x (fun a => { a with hasSp := true, sp := s, spN := limitSp c m x vN, vff := f, vffN := fN, satur := s != v }) c

/-- The setpoints of a portal's axes from its master (R166, R175, R179), and the event track at its value (R178). -/
def setpoints (p : Nat) (c : Core) : Core :=
  let m := msAt c p
  match m.kind with
  | .manual =>
    (portalAxes (cfgOf c) p).foldl (fun c x =>
      if x = m.manAxis then
        putSp c m x (manualSp m m.m) (manualSp m m.mN) (m.manDir * roundDiv m.vel (2 ^ 24)) (m.manDir * roundDiv m.velN (2 ^ 24))
      else holdSp c x) c
  | _ => match camData c m.table with
    | none => (portalAxes (cfgOf c) p).foldl (fun c x => holdSp c x) c
    | some t =>
      let c := modMs p (fun m => { m with ev := if camTrack t 3 then eventsAt t m.m else 0 }) c
      (portalAxes (cfgOf c) p).foldl (fun c x =>
        let a := x % 3
        if drives t m a then
          putSp c m x (rawSp t m a m.m) (rawSp t m a m.mN) (trackVel t a m.m m.vel) (trackVel t a m.mN m.velN)
        else holdSp c x) c

/-- What the offset of track `a` adds to its setpoint velocity and acceleration while it blends out, as numerators over
`256 · JOIN_BLEND` (R175). -/
def blendRate (t : Image) (m : MasterSt) (a : Nat) : Int × Int :=
  let o := tget 0 m.off a
  if m.entry = 2 || camBlend t = 0 || decide (camBlend t * 2 ^ 32 ≤ m.m - m.m0) then (0, 0) else (-(o * m.vel), -(o * m.acc))

/-- The velocity and the acceleration of the setpoint of axis `3p + a` at this TICK, in 2^-32 stroke unit per s and per s² (R171,
R172): those of its track with its offset; an axis that is not driven, or is held at a limit, does not move. -/
def spRate (c : Core) (p a : Nat) : Int × Int :=
  let m := msAt c p
  let x := 3 * p + a
  if !m.run || (axAt c x).satur then (0, 0)
  else match m.kind with
  | .manual => if m.manAxis = x then (m.manDir * m.vel, m.manDir * m.acc) else (0, 0)
  | _ => match camData c m.table with
    | none => (0, 0)
    | some t =>
      if !drives t m a then (0, 0)
      else
        let s := slopeAt t a m.m
        let b := blendRate t m a
        let n := 256 * max 1 (camBlend t)
        (roundDiv (s.1 * m.vel * n + b.1 * s.2) (s.2 * n), trackAcc t a (kinOf m) + roundDiv b.2 n)

/-! ### Braking (R168 to R173) -/

/-- Number of the running segment. -/
def segNo (m : MasterSt) : Nat := (m.segs.head?.map Seg.no).getD 7

/-- A plan of segments from the present state. -/
def replan (l : List Seg) (m : MasterSt) : MasterSt :=
  { m with segs := l, tau := 0, ms := m.m, vs := m.vel, accs := m.acc }

/-- The braking of a master on a ramp (R169). -/
def brakePlan (c : Core) (p : Nat) (r : Ramp) (m : MasterSt) : MasterSt :=
  let (d, j) := if r == .decStop then (dStop (cfgOf c) p * 2 ^ 32, jStop (cfgOf c) p * 2 ^ 32) else (m.d, m.j)
  let b := { replan (planBrake m.vel m.acc d j) m with braking := r, live := false }
  if b.segs.isEmpty then comeToRest b else b

/-- The path of a braking leaves the soft limits of some axis (R173). -/
def pathBreaks (c : Core) (p : Nat) (m : MasterSt) : Bool :=
  let cfg := cfgOf c
  let rest := restOf m
  let out (x : Nat) (v : Int) : Bool := decide (v < slMin cfg x) || decide (slMax cfg x < v)
  if m.entry = 2 then false
  else match m.kind with
    | .manual => out m.manAxis (manualSp m rest)
    | _ => match camData c m.table with
      | none => false
      | some t =>
        let at_ := rest :: ((camPts t).map fun q => ((q.m : Int) * 2 ^ 32)).filter fun x => decide (m.m < x) && decide (x < rest)
        (portalAxes cfg p).any fun x => drives t m (x % 3) && at_.any fun y => out x (rawSp t m (x % 3) y)

/-- A DEC_STOP switch point is reported to the islands (R170). -/
def switchPoint (p : Nat) (c : Core) : Core := { c with seq.switchPt := setBit c.seq.switchPt p true }

/-- DEC_STOP is selected: braking starts, or a DEC ramp escalates; a ramp is never made shallower (R170). A lead master
ends where it is. -/
def brakeStop (p : Nat) (c : Core) : Core :=
  let m := msAt c p
  if !m.run then modMs p (fun m => { m with live := false }) c
  else if m.kind == .leadL || m.kind == .leadR then modMs p (fun m => { m with run := false, vel := 0, live := false }) c
  else if m.braking == .decStop then c
  else switchPoint p (modMs p (brakePlan c p .decStop) c)

/-- DEC is selected: segments 5 to 7 continue; a braking path outside the soft limits uses DEC_STOP (R169, R173). -/
def brakeDec (p : Nat) (c : Core) : Core :=
  let m := msAt c p
  if !m.run then c
  else if m.kind == .leadL || m.kind == .leadR then modMs p (fun m => { m with run := false, vel := 0, live := false }) c
  else if m.braking != .none || 5 ≤ segNo m then c
  else
    let b := brakePlan c p .dec m
    if pathBreaks c p b then brakeStop p c else modMs p (fun _ => b) c

/-- STOP_MOVE takes effect (R149, R170, R246): the waiting request is gone, MOVE_DONE is cleared, and the master brakes; one whose
segments 5 to 7 go on to M_END is still done there (R169, R178). -/
def stopMove (p ramp : Nat) (c : Core) : Core :=
  let c := modCh p (fun h => { h with grant := false, grantSlow := false, moveDone := false }) c
  let c := match (msAt c p).waiting, (msAt c p).granted with
    | some r, _ => match r.slot with
      | some k => endAll k 0x41 0x01 c
      | none => c
    | none, some g => match g.req.slot with
      | some k => endAll k 0x41 0x01 c
      | none => c
    | none, none => c
  let c := match (msAt c p).run, (msAt c p).slot with
    | true, some k => modMs p (fun m => { m with slot := none }) (endAll k 0x41 0x01 c)
    | _, _ => c
  let c := modMs p (fun m => { m with waiting := none, granted := none, live := m.live && m.run, stopped := true }) c
  if ramp = 2 || (chAt c p).cv.getLsbD 106 then brakeStop p c else brakeDec p c

/-- The causes of DEC_STOP that a condition vector shows (R170): SAFE_STOP, or STOP_REQ after a STOP_MOVE on DEC. -/
def vectorBrakes (p : Nat) (c : Core) : Core :=
  let h := chAt c p
  let m := msAt c p
  if !m.run then c
  else if h.cv.getLsbD 108 then
    let c := match m.slot with
      | some k => modMs p (fun m => { m with slot := none }) (endAll k 0x41 0x02 c)
      | none => c
    brakeStop p c
  else if m.stopped && h.cv.getLsbD 106 then brakeStop p c
  else c

/-! ### A new request beside a running master (R171) -/

/-- The axis and the direction that a request asks for, and whether the running master moves that way (R171). -/
def sameWay (c : Core) (p : Nat) (r : MoveReq) : Bool :=
  match r.manual with
  | some (x, target, _) =>
    let m := msAt c p
    let d := (256 * target - posNow c x).sign
    m.kind == .manual && m.manAxis == x && d != 0 && (spRate c p (x % 3)).1.sign == d
  | none => match camData c r.table with
    | none => false
    | some t =>
      let j := camJoin t
      let x := 3 * p + j
      let s := (slopeAt t j (joinAt t j (posNow c x))).1.sign
      s != 0 && (spRate c p j).1.sign == s

/-- The decision of R171, made once: at the first TICK at which the table that it needs is there. -/
def decideMove (p : Nat) (c : Core) : Core :=
  match (msAt c p).waiting with
  | none => c
  | some r =>
    let needs := r.manual.isNone && r.entry = 1
    if r.decided || (needs && (pageOf c r.table).isNone) then c
    else
      let m := msAt c p
      let join := (needs && (camData c r.table).any fun t => camJoin t != 255) || r.manual.isSome
      let same := join && m.run && sameWay c p r && m.braking == .none && (m.kind == .planned || m.kind == .manual)
      let take := if same && segNo m ≤ 4 then
          some (c.seq.now * 125000 + ((m.segs.head?.map Seg.dur).getD 0 - m.tau)) else none
      let c := modMs p (fun m => { m with waiting := some { r with decided := true, takeAt := take } }) c
      if !m.run || same || (needs && !join) then c else brakeDec p c

/-- START_MOVE takes effect at a TICK (R148, R171, R187, R227): requests to the pager and to Topaz, cleared bits,
blanking, and the decision of R171. -/
def startMove (p : Nat) (a : Action) (c : Core) : Core :=
  let table := a.arg16
  let slow := a.a % 4096
  let entry := bitsOf a.b 1 0
  let group := match a.group with
    | some (g, k) => if c.seq.topaz.closedHolders.contains k then none else some (g, k)
    | none => none
  let r : MoveReq := { cls := a.arg8, table, slow, entry, pset := bitsOf a.b 11 8, execAt := c.seq.now, group }
  let c := startMoveBlanks p c
  let c := modCh p (fun h => { nameTable table h with
    camMove := some table, camSlow := some slow, grant := false, grantSlow := false, moveDone := false }) c
  let c := if a.arg8 = 0 then
      totalAdd p 62 { c with seq.cycles := tmod {} c.seq.cycles p fun y => { y with reversals := min 255 (y.reversals + 1) } } else c
  let c := match (msAt c p).waiting.bind MoveReq.slot with
    | some k => endAll k 0x40 0 c
    | none => c
  let c := modMs p (fun m => { m with waiting := some r, granted := none, live := false }) c
  pageRequest slow none (pageRequest table none (decideMove p c))

/-! ### Starts (R167, R172, R174 to R177) -/

/-- The captured parameters of a move (R161, R167, R175). -/
structure Params where
  v : Nat
  a : Nat
  d : Nat
  j : Nat

/-- The parameters of a START_MOVE at stretch `k`; the cap of ENTRY 2 is stretched with V (DESIGN CHOICE, log 32). -/
def captured (c : Core) (p : Nat) (r : MoveReq) (k : Nat) : Params :=
  let f (o : Nat) : Nat := psetF (cfgOf c) p r.pset o
  let v := if r.entry = 2 then min (f 0) (f 16) else f 0
  ⟨v * k * 2 ^ 24, f 4 * k ^ 2 * 2 ^ 16, f 8 * k ^ 2 * 2 ^ 16, f 12 * k ^ 3 * 2 ^ 8⟩

/-- The workshop parameters of an axis (R179): SPEED is in 0.1 %. -/
def workshop (c : Core) (x speed : Nat) : Params :=
  let f (o : Nat) : Nat := img32 (cfgOf c) (motAxis x + o)
  ⟨f 16 * 2 ^ 32 * speed / 1000, f 20 * 2 ^ 32, f 20 * 2 ^ 32, f 24 * 2 ^ 32⟩

/-- A master takes a plan at the present TICK; an empty plan is complete at once. -/
def takePlan (l : List Seg) (v a : Int) (m : MasterSt) : MasterSt :=
  let m := { m with segs := l, tau := 0, ms := m.m, vs := v, accs := a, vel := v, acc := a, braking := .none, run := true }
  if l.isEmpty then comeToRest m else m

/-- What a start leaves behind whichever way it was made (R148, R218, R227, R238, R250). MOVE_DONE ends also when a MANUAL_MOVE
starts, since the master is then no longer at M_END (DESIGN CHOICE, log 32). -/
def started (p : Nat) (g : GrantSt) (c : Core) : Core :=
  let r := g.req
  match r.manual with
  | some (x, _, _) =>
    setCommitted p (manI c p) (modMs p (fun m => { m with
      granted := none, closeAx := m.closeAx &&& (7 - 2 ^ (x % 3)), startTick := c.seq.now, stopped := false, live := false }) c)
  | none =>
    let t := (camData c g.table).getD {}
    let c := setCommitted p (predicted t r.entry g.k) c
    let c := modMs p (fun m => { m with
      granted := none, closeAx := if r.cls = 1 then 7 else 0, startTick := c.seq.now, stopped := false, live := true
      hold := camHold t }) c
    let c := if r.cls = 1 then
        { c with seq.cycles := tmod {} c.seq.cycles p fun y =>
          { y with closeTick := if y.begun then some (y.closeTick.getD c.seq.now) else y.closeTick } } else c
    let c := moveBegins p r.cls r.entry g.k g.slow c
    touch g.table (modOb p (fun o => { o with blankTo := some (c.seq.now + obN (cfgOf c) p 11 1) }) c)

/-- A master that follows leaf `a` takes its value from there (R177); it may be complete at once. -/
def leadStart (c : Core) (p a : Nat) (m : MasterSt) : MasterSt :=
  let x := leadAt c p a m.mEnd
  { m with run := decide (x ≠ m.mEnd), atEnd := decide (x = m.mEnd), m := x, segs := [], vel := 0, acc := 0, braking := .none }

/-- The kind of master that a table's MASTER names (R177). -/
def masterOf (t : Image) : MasterKind := if camMaster t = 1 then .leadL else if camMaster t = 2 then .leadR else .planned

/-- A master starts from rest (R164, R175, R177, R179). -/
def startRest (p : Nat) (g : GrantSt) (c : Core) : Core :=
  let r := g.req
  match r.manual with
  | some (x, target, speed) =>
    let n := posNow c x
    let w := workshop c x speed
    let d := 256 * target - n
    let s : Int := d.natAbs * 2 ^ 24
    let m0 := msAt c p
    let m : MasterSt := { m0 with
      kind := .manual, cls := 3, entry := 0, k := 256, v := w.v, a := w.a, d := w.d, j := w.j, m := 0, m0 := 0, mEnd := s
      off := [], manAxis := x, manDir := if d < 0 then -1 else 1, manFrom := n, slot := r.slot, atEnd := false }
    started p g (modMs p (fun _ => takePlan ((planMove w.v w.a w.d w.j 0 s.toNat).getD []) 0 0 m) c)
  | none => match camData c g.table with
    | none => c
    | some t =>
      let w := captured c p r g.k
      let mE : Int := camEnd t * 2 ^ 32
      let m0 : Int := if r.entry = 1 && camJoin t < 3 then joinAt t (camJoin t) (posNow c (3 * p + camJoin t)) else 0
      let kind := masterOf t
      let off := (portalAxes (cfgOf c) p).foldl (fun o x =>
        if camTrack t (x % 3) then tset 0 o (x % 3) (posNow c x - trackAt t (x % 3) m0) else o) ([] : Table Int)
      let old := msAt c p
      let m : MasterSt := { old with
        kind, table := g.table, cls := r.cls, entry := r.entry, k := g.k, v := w.v, a := w.a, d := w.d, j := w.j
        m := m0, m0, mEnd := mE, off, atEnd := false, slot := none }
      let m := match kind with
        | .leadL => leadStart c p 0 m
        | .leadR => leadStart c p 1 m
        | _ => takePlan ((planMove w.v w.a w.d w.j 0 (mE - m0).toNat).getD []) 0 0 m
      started p g (modMs p (fun _ => m) c)

/-- The plan of a takeover (R172): the acceleration returns to zero at jerk J, then R164; none where it cannot be. -/
def takeoverPlan (w : Params) (mE m0 v a : Int) : Option (List Seg) :=
  if v < 0 then none
  else
    let t := nsOf a.natAbs w.j
    let jerk : Int := if 0 < a then -(w.j : Int) else w.j
    let e := if t = 0 then ⟨m0, v, a⟩ else kinAt ⟨m0, v, a⟩ jerk t
    if e.v < 0 || mE < e.m then none
    else (planMove w.v w.a w.d w.j e.v.toNat (mE - e.m).toNat).map fun l => if t = 0 then l else ⟨1, t, jerk⟩ :: l

/-- A takeover at the present TICK, from the setpoints already taken for it (R172); a table with a lead master needs no plan (R177). -/
def takeover (p : Nat) (g : GrantSt) (c : Core) : Core :=
  let r := g.req
  match r.manual with
  | some (x, target, speed) =>
    let old := msAt c p
    let w := workshop c x speed
    let sp := (axAt c x).sp
    let s : Int := (256 * target - sp) * old.manDir * 2 ^ 24
    match takeoverPlan w s 0 old.vel old.acc with
    | none => brakeDec p c
    | some l =>
      let m : MasterSt := { old with v := w.v, a := w.a, d := w.d, j := w.j, m := 0, m0 := 0, mEnd := s, manFrom := sp, slot := r.slot, atEnd := false }
      started p g (modMs p (fun _ => takePlan l old.vel old.acc m) c)
  | none => match camData c g.table with
    | none => c
    | some t =>
      let j := camJoin t
      let x := 3 * p + j
      let old := msAt c p
      let w := captured c p r g.k
      let mE : Int := camEnd t * 2 ^ 32
      let m0 := joinAt t j (posNow c x)
      let sg := slopeAt t j m0
      let (vAx, aAx) := spRate c p j
      let div (y : Int) : Int := roundDiv (y * sg.2 * sg.1.sign) sg.1.natAbs
      let off := (portalAxes (cfgOf c) p).foldl (fun o y =>
        if camTrack t (y % 3) then tset 0 o (y % 3) ((axAt c y).sp - trackAt t (y % 3) m0) else o) ([] : Table Int)
      let m : MasterSt := { old with
        kind := masterOf t, table := g.table, cls := r.cls, entry := r.entry, k := g.k, v := w.v, a := w.a, d := w.d, j := w.j
        m := m0, m0, mEnd := mE, off, atEnd := false, slot := none }
      match m.kind with
      | .leadL => started p g (modMs p (fun _ => leadStart c p 0 m) c)
      | .leadR => started p g (modMs p (fun _ => leadStart c p 1 m) c)
      | _ => match if sg.1 = 0 then none else takeoverPlan w mE m0 (div vAx) (div aAx) with
        | none => brakeDec p c
        | some l => started p g (modMs p (fun _ => takePlan l (div vAx) (div aAx) m) c)

/-- The grant of a portal at the present TICK (R148, R172, R174): GRANT or GRANT_SLOW becomes visible; the master
starts from rest or takes over; a takeover that cannot be made waits for rest. -/
def useGrant (p : Nat) (c : Core) : Core :=
  match (msAt c p).granted with
  | none => c
  | some g =>
    let c := if g.req.manual.isSome then c
      else
        let c := modCh p (fun h => { h with grant := !g.slow, grantSlow := g.slow }) c
        if g.slow then { c with seq.cycles := tmod {} c.seq.cycles p fun y => { y with flags := setBit y.flags 2 true } } else c
    let m := msAt c p
    if !m.run then startRest p g c
    else match g.req.takeAt with
      | some t => if t ≤ c.seq.now * 125000 && m.braking == .none then takeover p g c else c
      | none => c

/-! ### One TICK of one master -/

/-- A manual move ends (R115, R250): its operation completes with the final position in stroke units. -/
def manualEnds (p : Nat) (m : MasterSt) (c : Core) : Core :=
  let c := setCommitted p 0 c
  match m.slot with
  | some k => modMs p (fun m => { m with slot := none }) (finish k 0x00 0 (unsigned 32 (roundDiv (posNow c m.manAxis) 256)) 0 c)
  | none => c

/-- A master at the present TICK: its value, its setpoints, and what coming to rest brings (R165, R250). -/
def masterTick (p : Nat) (c : Core) : Core :=
  let old := msAt c p
  if !old.run then c
  else
    let c := modMs p (advance c p) c
    let m := msAt c p
    let c := setpoints p (modMs p predict c)
    if m.run then c
    else if m.kind == .manual then manualEnds p m c
    else setCommitted p m.hold c

/-- A master after the starts and brakings of the TICK: its value of the next TICK and its setpoints. -/
def masterAfter (p : Nat) (before : MasterSt) (c : Core) : Core :=
  if msAt c p = before then c
  else
    let c := setpoints p (modMs p predict c)
    let m := msAt c p
    if m.run || !before.run && before.startTick = m.startTick then c
    else if m.kind == .manual then manualEnds p m c
    else setCommitted p m.hold c

/-! ### MANUAL_MOVE (R124, R179, R266) -/

/-- MANUAL_MOVE is delivered: an earlier one for the axis is pre-empted, the target is clamped to the soft limits, and
the request replaces the portal's waiting one (R246); a START_MOVE that has its grant still starts (R148). A relative target counts from the measured position at delivery, and is rounded to a
whole stroke unit (DESIGN CHOICE, log 32). -/
def manualDeliver (k : Nat) (d : Bytes) (c : Core) : Core :=
  let x := byteAt d 8
  let p := x / 3
  let n := posNow c x
  let t0 := signed 32 (field d 12 4)
  let raw : Int := if byteAt d 9 = 1 then 256 * t0 else n + 256 * t0
  let target := roundDiv (clampI (slMin (cfgOf c) x) (slMax (cfgOf c) x) raw) 256
  let m := msAt c p
  let ends (s : Option Nat) (c : Core) : Core := match s with
    | some j => if j = k then c else endAll j 0x40 0 c
    | none => c
  let c := ends m.slot c
  let c := ends (m.waiting.bind MoveReq.slot) c
  let c := ends (m.granted.bind fun g => g.req.slot) c
  let r : MoveReq := { cls := 3, table := 0, slow := 0, entry := 0, pset := 0, manual := some (x, target, field d 16 2), execAt := c.seq.now, slot := some k }
  modMs p (fun m => { m with waiting := some r, granted := m.granted.filter (fun g => g.req.manual.isNone), slot := none }) c

/-- MANUAL_MOVE (R179). -/
def execManualMove (slot : Fin 512) (s : State) : Host.Outcome State Fault Refusal :=
  .next { s with core := startOp slot 0x38 (manualDeliver slot) s.core }

end Sys2Proof.Machine
end

