-- ==== Sys2Proof/Machine/Sapphire.lean ====
section
/-! DEFINITION. The two Sapphire islands (R271 to R302, R326 to R331, R357, R358, R451): the safety tick and the
commands that carry out what a tick has detected. -/

namespace Sys2Proof.Machine

/-! ### The safety section (R281, R282, R295, R303), read from its header -/

/-- Pair entry q. -/
def sfPair (q : Nat) : Nat := 64 + 16 * q
/-- Output entry n. -/
def sfOut (n : Nat) : Nat := 1216 + 16 * n
/-- Portal block p. -/
def sfPort (p : Nat) : Nat := 1472 + 64 * p
/-- The pair entry is used. -/
def pairUsed (m : Image) (q : Nat) : Bool := decide (m.len ≠ 0) && img8 m (sfPair q) < 144 && img8 m (sfPair q + 1) < 144
/-- ROLE of a pair; 255 for an unused entry. -/
def pairRole (m : Image) (q : Nat) : Nat := if pairUsed m q then img8 m (sfPair q + 3) else 255
/-- PORTALS of a pair names portal p, or the car for p = 12. -/
def pairNames (m : Image) (q p : Nat) : Bool := bitOf (img16 m (sfPair q + 6)) p
/-- A STOP or EGRESS pair. -/
def pairStops (m : Image) (q : Nat) : Bool := pairRole m q == 1 || pairRole m q == 2
/-- Pairs of the section. -/
def pairsOf (m : Image) : List Nat := (List.range 72).filter (pairUsed m)
/-- FUNC of an output. -/
def outFunc (m : Image) (n : Nat) : Nat := img8 m (sfOut n)
/-- TWIN_PAR of an output. -/
def outTwinPar (m : Image) (n : Nat) : Bool := bitOf (img8 m (sfOut n + 1)) 0
/-- Axis x is monitored (MON_AXES). -/
def monAxis (m : Image) (x : Nat) : Bool := bitOf (img8 m (sfPort (x / 3) + 2)) (x % 3)
/-- Monitored axes of a portal. -/
def monAxes (m : Image) (p : Nat) : List Nat := ([0, 1, 2].map (3 * p + ·)).filter (monAxis m)
/-- V_ZERO. -/
def vZero (m : Image) (p : Nat) : Nat := img32 m (sfPort p + 20)
/-- The STOP and EGRESS contacts of the stop word, in ascending pair number, A before B (R341). -/
def stopContacts (m : Image) : List Nat :=
  ((pairsOf m).filter (pairStops m)).flatMap fun q => [img8 m (sfPair q), img8 m (sfPair q + 1)]

/-- Parameters of an island; an empty section where it has read none. -/
def islSec (i : IslSt) : Image := i.params.getD {}

/-! ### Pairs (R277, R278) -/

/-- Contact `u` is safe at `level` in the island's latest frame (R277). -/
def contactSafe (i : IslSt) (u level : Nat) : Bool :=
  match i.frame with
  | some f => !i.blind && stateIn f u == level
  | none => false

/-- One evaluation of a pair (R278); the pair is due to fault when its count exceeds DISC. -/
def pairStep (a b : Bool) (disc : Nat) (p : PairSt) : PairSt × Bool :=
  match p.st with
  | .fault => (if !a && !b then { p with st := .unsafeSt } else p, false)
  | .partialSt =>
    if disc < p.n + 1 then ({ p with n := p.n + 1 }, true)
    else if a && b then ({ p with st := .safe, n := p.n + 1 }, false)
    else if !a && !b then ({ p with st := .unsafeSt, n := p.n + 1 }, false)
    else ({ p with n := p.n + 1 }, false)
  | _ =>
    if a && b then ({ p with st := .safe }, false)
    else if !a && !b then ({ p with st := .unsafeSt }, false)
    else ({ p with st := .partialSt, n := 0 }, false)

/-- A pair with its contacts read from the latest frame (R277, R278); while the island is blind it evaluates as unsafe (R18). -/
def pairNext (i : IslSt) (q : Nat) : PairSt × Bool :=
  let m := islSec i
  let o := sfPair q
  let lv := img8 m (o + 2)
  if i.blind then ({ st := .unsafeSt }, false)
  else pairStep (contactSafe i (img8 m o) (lv % 2)) (contactSafe i (img8 m (o + 1)) (lv / 2 % 2)) (img16 m (o + 4))
    (tget {} i.pairs q)

/-- One pair in a safety tick. -/
def pairEval (i : IslSt) (q : Nat) : IslSt :=
  let r := pairNext i q
  { i with
    pairs := tset {} i.pairs q r.1
    due := if r.2 then i.due ++ [.pairDisc q] else i.due }

/-- Every configured pair once (R278). -/
def pairsStep (i : IslSt) : IslSt := (pairsOf (islSec i)).foldl pairEval i

/-- Result of a pair (R278). -/
def pairResult (i : IslSt) (q : Nat) : Bool := (tget {} i.pairs q).st == .safe

/-- A STOP or EGRESS pair naming portal p is in demand (R285). -/
def inDemand (i : IslSt) (p : Nat) : Bool :=
  (pairsOf (islSec i)).any fun q => pairStops (islSec i) q && pairNames (islSec i) q p && !pairResult i q

/-- A STOP or EGRESS pair naming portal p comes into demand in this safety tick, whatever any other pair does (R288). -/
def newDemand (i : IslSt) (p : Nat) : Bool :=
  (pairsOf (islSec i)).any fun q =>
    pairStops (islSec i) q && pairNames (islSec i) q p && !pairResult i q && i.lastRes.getLsbD q

/-! ### Speeds (R289) -/

/-- |a − b| of two 32-bit counts, as the nearer way round. -/
def encDelta (a b : U32) : Nat := (signed 32 (a - b).toNat).natAbs

/-- v_A of an axis in stroke units per s (R289). -/
def speedA (m : Image) (x : Nat) (v : SpeedSt) : Option Nat :=
  match v.frames with
  | [] => none
  | (s, e) :: r =>
    match (r.filter fun f => f.1 < s && s ≤ f.1 + 32).getLast? with
    | some (s', e') => some (encDelta e e' * 65536 * 32000 / (max 1 (img32 m (sfPort (x / 3) + 32 + 4 * (x % 3))) * (s - s')))
    | none => none

/-- SAFE_B's cycles to a moment: 18 000 to each of its safety ticks (R13). -/
def cycleB (tick extra : Nat) : Nat := 18000 * tick + min 17999 extra

/-- v_B of an axis; times are in cycles of SAFE_B's own 72 MHz clock (R13, R289). -/
def speedB (m : Image) (x now : Nat) (v : SpeedSt) : Option Nat :=
  let h := img16 m (sfPort (x / 3) + 44 + 2 * (x % 3))
  if !v.had && v.hall.isNone then none
  else match v.tLast, v.tPrev with
    | none, _ => some 0
    | some l, none => some (h * 72000000 / max 1 (now - l))
    | some l, some q => some (h * 72000000 / max 1 (max (l - q) (now - l)))

/-- The speed that an island measures; none after 3 current periods without a valid frame (R289). -/
def speedOf (k : Isl) (i : IslSt) (x : Nat) : Option Nat :=
  let v := tget {} i.axes x
  if 3 ≤ v.missed then none
  else match k with
    | .a => speedA (islSec i) x v
    | .b => speedB (islSec i) x (cycleB i.tick 0) v

/-- Measured speed of an axis at the latest safety tick. -/
def spd (i : IslSt) (x : Nat) : Option Nat := (tget {} i.axes x).speed

/-- A monitored axis of portal p moves faster than V_ZERO (R44). -/
def moves (i : IslSt) (p : Nat) : Bool :=
  (monAxes (islSec i) p).any fun x => match spd i x with
    | some v => vZero (islSec i) p < v
    | none => false

/-- Every monitored axis of portal p has a speed below V_ZERO (R284, R292). -/
def allSlow (i : IslSt) (p : Nat) : Bool :=
  (monAxes (islSec i) p).all fun x => match spd i x with
    | some v => v < vZero (islSec i) p
    | none => false

/-! ### What an island holds about a portal -/

/-- The island's copy of a portal latch becomes the record `l`; the first one stands (R318, R319). -/
def islCopy (p : Nat) (l : LatchSt) (i : IslSt) : IslSt :=
  if (tget {} i.latches p).set then i else { i with latches := tset {} i.latches p { l with set := true } }

/-- The island sets its copy of a portal latch, with the cause and its record stamp (R318, R319). -/
def islLatch (p code : Nat) (i : IslSt) : IslSt := islCopy p { set := true, cause := code, stamp := i.now } i

/-- The island's copy of the device latch becomes the record `l`; the first one stands (R318, R319). -/
def islDevCopy (l : LatchSt) (i : IslSt) : IslSt := if i.dev.set then i else { i with dev := { l with set := true } }

/-- The island sets its copy of the device latch, with the cause and its record stamp (R318, R319). -/
def islDevLatch (code : Nat) (i : IslSt) : IslSt := islDevCopy { set := true, cause := code, stamp := i.now } i

/-- The latch copies as a mask. -/
def latchMask (i : IslSt) : BitVec 12 := bitsBy 12 fun p => (tget {} i.latches p).set

/-- The release of a portal (R283). -/
def releaseOf (i : IslSt) (p : Nat) : Bool :=
  let m := islSec i
  let rs := (pairsOf m).filter fun q => pairRole m q == 3 && pairNames m q p
  !rs.isEmpty && rs.all (pairResult i) && !(tget {} i.latches p).set && !pbit i.isolated p && stepsIn i.mode

/-- The loop contribution of a portal (R284, R285). -/
def loopOf (i : IslSt) (p : Nat) : Bool :=
  let m := islSec i
  let egress := (pairsOf m).any fun q => pairRole m q == 2 && pairNames m q p && !pairResult i q
  !(tget {} i.latches p).set && outFunc m (4 + p) == 3 && pairResult i (img8 m (sfPort p)) && pairResult i (img8 m (sfPort p + 1))
    && !egress && tget 0 i.motion p == 1 && allSlow i p

/-- A controlled safe stop starts; one in progress stands (R288, R290). -/
def startStop (p cause : Nat) (i : IslSt) : IslSt :=
  if (tget {} i.stops p).active then i
  else
    let v0 := (monAxes (islSec i) p).foldl (fun t x => tset 0 t x ((spd i x).getD 0)) []
    let st : StopSt := { active := true, startTick := i.tick, envTick := i.tick, v0, cause }
    { i with stops := tset {} i.stops p st }

/-- The switch of an output opens at once. -/
def openSwitch (n : Nat) (i : IslSt) : IslSt := { i with closed := setBit i.closed n false, closing := tset 0 i.closing n 0 }

/-- Torque is removed from a portal in its stop: the switch of its torque-enable output opens at once (R292, R302). -/
def removeTorque (p : Nat) (i : IslSt) : IslSt :=
  if (tget {} i.stops p).active then
    openSwitch (4 + p) { i with stops := tmod {} i.stops p fun s => { s with removed := true } }
  else i

/-- v_lim at `t` ticks from the start of the envelope, in 1/4000 stroke unit per s (R290). -/
def envelope (m : Image) (p v0 t : Nat) : Int :=
  let vt : Int := img32 m (sfPort p + 16)
  let td := img16 m (sfPort p + 8)
  if t < td then 4000 * (v0 + vt)
  else max (4000 * vt) (4000 * (v0 + vt) - img32 m (sfPort p + 4) * (t - td : Nat))

/-! ### The output conditions (R296) -/

/-- The condition of an output's FUNC (R296). -/
def outCond (i : IslSt) (n : Nat) : Bool :=
  let m := islSec i
  match outFunc m n with
  | 1 => (List.range 12).all fun p => !bitOf (img16 m (sfOut n + 2)) p || loopOf i p
  | 2 =>
    let rp := (List.range 72).filter fun q => bitOf (img8 m (sfOut n + 4 + q / 8)) (q % 8)
    !rp.isEmpty && rp.all (pairResult i)
  | 3 =>
    let p := n - 4
    !(tget {} i.latches p).set && !pbit i.isolated p && !(tget {} i.stops p).removed && !pbit i.overspd p
      && (i.closed.getLsbD n || !inDemand i p)
  | _ => false

/-- In LOCKOUT only a torque-enable output stays closed, while its stop has not removed torque (R296). -/
def lockoutHolds (i : IslSt) (n : Nat) : Bool :=
  outFunc (islSec i) n == 3 && i.closed.getLsbD n && (tget {} i.stops (n - 4)).active && !(tget {} i.stops (n - 4)).removed

/-- The island requests its switch closed (R296). -/
def wantsClosed (i : IslSt) (n : Nat) : Bool :=
  i.params.isSome && !i.blind && !i.heldOpen && !i.vsoLow && tget 0 i.outFault n == 0 && !i.mute &&
    (if stepsIn i.mode then outCond i n else i.mode == .lockout && lockoutHolds i n)

/-- Latch an output fault and open the switch at once (R302). -/
def latchOut (n code : Nat) (i : IslSt) : IslSt :=
  openSwitch n { i with outFault := if tget 0 i.outFault n = 0 then tset 0 i.outFault n code else i.outFault }

/-- The latch that an output fault sets: the portal's on SO(4 + n), the device's on SO0 to SO3 (R317, R319). -/
def outLatch (n code : Nat) (i : IslSt) : IslSt := if n < 4 then islDevLatch code i else islLatch (n - 4) code i

/-- Clear a portal's latch copy, with what the latched fault holds open (R327 to R330). -/
def islClear (p : Nat) (i : IslSt) : IslSt :=
  { i with
    latches := tset {} i.latches p {}
    overspd := setBit i.overspd p false
    breach := setBit i.breach p false
    outFault := tset 0 i.outFault (4 + p) 0 }

/-! ### The cross-check word (R274 to R276) -/

/-- The island's cross-check word. -/
def wordOf (i : IslSt) : XWord where
  results := bitsBy 72 (pairResult i)
  faults := bitsBy 72 fun q => (tget {} i.pairs q).st == .fault
  close := i.request
  stops := bitsBy 12 fun p => (tget {} i.stops p).active
  removed := bitsBy 12 fun p => (tget {} i.stops p).removed
  causes := (List.range 12).foldl (fun t p => tset 0 t p (tget {} i.stops p).cause) []
  outFaults := i.outFault
  breach := i.breach
  overspd := i.overspd
  dev := i.dev.set
  latches := latchMask i
  isolated := i.isolated
  copies := i.latches
  devCopy := i.dev

/-- A pair fault that the other island's word newly shows is adopted (R275). -/
def adoptPair (w old : XWord) (i : IslSt) (q : Nat) : IslSt :=
  if w.faults.getLsbD q && !old.faults.getLsbD q then
    { i with pairs := tmod {} i.pairs q fun x => { x with st := .fault } } else i

/-- What the other island's word newly shows about a portal is adopted: a stop, removed torque, a breach, an overspeed, a latch
(R275, R292, R319). -/
def adoptPortal (w old : XWord) (i : IslSt) (p : Nat) : IslSt :=
  let i := if pbit w.stops p && !pbit old.stops p then startStop p (tget 0 w.causes p) i else i
  let i := if pbit w.removed p && !pbit old.removed p then removeTorque p i else i
  let i := if pbit w.breach p && !pbit old.breach p then { i with breach := setBit i.breach p true } else i
  let i := if pbit w.overspd p && !pbit old.overspd p then { i with overspd := setBit i.overspd p true } else i
  if pbit w.latches p && !pbit old.latches p then islCopy p { tget {} w.copies p with stamp := i.now } i else i

/-- An output fault that the other island's word newly shows is adopted (R275). -/
def adoptOutput (w old : XWord) (i : IslSt) (n : Nat) : IslSt :=
  if tget 0 w.outFaults n ≠ 0 && tget 0 old.outFaults n = 0 then latchOut n (tget 0 w.outFaults n) i else i

/-- Adopt the opening decisions that the other island's word newly shows (R275, R292, R319). -/
def adopt (w : XWord) (i : IslSt) : IslSt :=
  let old := i.seen
  let i := (List.range 72).foldl (adoptPair w old) i
  let i := (List.range 12).foldl (adoptPortal w old) i
  let i := (List.range 16).foldl (adoptOutput w old) i
  { (if w.dev && !old.dev then islDevCopy { w.devCopy with stamp := i.now } i else i) with seen := w }

/-- Own bits that match neither the other island's latest word nor the word before it, numbered from `base` (R276). -/
def diffBits {n : Nat} (base : Nat) (own w prev : BitVec n) : List Nat :=
  ((List.range n).filter ((own ^^^ w) &&& (own ^^^ prev)).getLsbD).map (base + ·)

/-- Own entries that match neither the other island's latest word nor the word before it, numbered from `base` (R276). -/
def diffTab (base n : Nat) (own w prev : Table Nat) : List Nat :=
  ((List.range n).filter fun k => tget 0 own k != tget 0 w k && tget 0 own k != tget 0 prev k).map (base + ·)

/-- The items of the word, but the speeds, that disagree (R276); the numbers only tell the items apart. -/
def diffItems (o w p : XWord) : List Nat :=
  diffBits 0 o.results w.results p.results ++ diffBits 72 o.faults w.faults p.faults
    ++ diffBits 144 o.close w.close p.close ++ diffBits 160 o.stops w.stops p.stops
    ++ diffBits 172 o.removed w.removed p.removed ++ diffTab 184 12 o.causes w.causes p.causes
    ++ diffTab 196 16 o.outFaults w.outFaults p.outFaults ++ diffBits 212 o.latches w.latches p.latches
    ++ diffBits 224 o.isolated w.isolated p.isolated
    ++ (if o.dev != w.dev && o.dev != p.dev then [236] else [])

/-- What an island finds in its comparison: an absent word disagrees as a whole (R276, R451). -/
def compareWords (i o : IslSt) : List Nat :=
  if o.mute then [237] else if o.tick = 0 then [] else diffItems (wordOf i) (wordOf o) o.word

/-! ### The parts of a safety tick, in order -/

/-- A report of an island to the fault manager. -/
structure Report where
  code : Nat
  portal : Nat
  object : Nat
  deriving DecidableEq, Repr

/-- Frames since the last tick (R18). -/
def tickFrames (i : IslSt) : IslSt :=
  let n := if i.fresh then 0 else i.noFrame + 1
  { i with
    tick := i.tick + 1
    seqAge := i.seqAge + 1
    fresh := false
    noFrame := n
    blind := if i.fresh then decide (2 ≤ i.offTime) else i.blind
    due := i.due ++ (if i.mode = .parked then [] else
      (if n = 2 then [IslDue.framesMissing] else []) ++ (if n = 4 then [IslDue.linkLost] else [])) }

/-- The speed of one axis, and FEEDBACK_LOST: reported where the unit transmits and the island had a speed (R289). -/
def speedStep (k : Isl) (r : IslSt × List Report) (x : Nat) : IslSt × List Report :=
  let i := r.1
  let v := speedOf k i x
  let a := tget {} i.axes x
  let lost := a.speed.isSome && v.isNone && i.txOn.getLsbD x
  let i := { i with axes := tset {} i.axes x { a with speed := v, had := a.had || v.isSome } }
  if lost then (islLatch (x / 3) 0x202 i, r.2 ++ [⟨0x202, x / 3, x⟩]) else (i, r.2)

/-- Speeds of the monitored axes (R289). -/
def tickSpeeds (k : Isl) (i : IslSt) : IslSt × List Report :=
  ((List.range 36).filter (monAxis (islSec i))).foldl (speedStep k) (i, [])

/-- The copies named by a pair of masks are cleared (R328, R330). -/
def clearCopies (pm im : BitVec 12) (i : IslSt) : IslSt :=
  let i := (List.range 12).foldl (fun i p => if pbit pm p then islClear p i else i) i
  { i with isolated := i.isolated &&& ~~~ im, clear := none }

/-- The masks of LOCKOUT_RESET act while the key is active; an island that has not cleared in 10 ticks gives up (R330, R331). -/
def tickClear (wskey : Bool) (i : IslSt) : IslSt :=
  match i.clear with
  | some (pm, im, t0) =>
    if wskey then clearCopies pm im i
    else if t0 + 10 ≤ i.tick && !i.due.contains .lockoutTimeout then { i with due := i.due ++ [.lockoutTimeout] } else i
  | none => i

/-- Masks from SEQ: clearing before setting (R319, R328, R330). -/
def tickMasks (wskey : Bool) (i : IslSt) : IslSt :=
  let i := tickClear wskey i
  let m := i.inLatch
  let i := (List.range 12).foldl (fun i p => if pbit m p then islCopy p (tget {} i.inCopy p) i else i) i
  { i with isolated := i.isolated ||| i.inIso, inLatch := 0, inCopy := [], inIso := 0 }

/-- Causes of a stop of one portal (R288): a pair comes into demand, a SAFE_STOP action, the LOCKOUT entry on a moving portal,
the release of the workshop key on a portal with a MANUAL_MOVE. The LOCKOUT entry opens the torque-enable output of a portal
that does not move (R288, R296). -/
def startCauses (keyReleased : Bool) (i : IslSt) (p : Nat) : IslSt :=
  let i := if newDemand i p then startStop p 1 i else i
  let i := if pbit i.inStop p then startStop p 2 i else i
  let i := if !i.lockout then i else if moves i p then startStop p 3 i else openSwitch (4 + p) i
  if keyReleased && pbit i.manual p then startStop p 4 i else i

/-- Stops that start in this tick (R288). -/
def tickStarts (keyReleased : Bool) (i : IslSt) : IslSt :=
  let i := (List.range 12).foldl (startCauses keyReleased) i
  { (if i.inDev.set then islDevCopy i.inDev i else i) with inStop := 0, lockout := false, inDev := {} }

/-- A DEC_STOP switch point within t_d restarts the envelope of a portal's stop once (R291). -/
def switchStep (i : IslSt) (p : Nat) : IslSt :=
  let m := islSec i
  let s := tget {} i.stops p
  if pbit i.inSwitch p && s.active && !s.restarted && i.tick ≤ s.startTick + img16 m (sfPort p + 8) then
    let v0 := (monAxes m p).foldl (fun t x => tset 0 t x ((spd i x).getD 0)) []
    { i with stops := tset {} i.stops p { s with restarted := true, envTick := i.tick, v0 } }
  else i

/-- The switch points of the tick (R291). -/
def tickSwitch (i : IslSt) : IslSt := { (List.range 12).foldl switchStep i with inSwitch := 0 }

/-- The stop of one portal: no speed, the envelope, the T_ZERO and T_MAX counts, and the end (R289 to R292). -/
def stopStep (r : IslSt × List Report) (p : Nat) : IslSt × List Report :=
  let i := r.1
  let m := islSec i
  let s := tget {} i.stops p
  if !s.active then r
  else if s.removed then
    (if pbit i.axesOff p && !inDemand i p then { i with stops := (tdel i.stops p) } else i, r.2)
  else
    let blind := (monAxes m p).any fun x => (spd i x).isNone
    let above := (monAxes m p).find? fun x => match spd i x with
      | some v => envelope m p (tget 0 s.v0 x) (i.tick - s.envTick) < 4000 * v
      | none => false
    match above with
    | some _ =>
      (islLatch p 0x203 (removeTorque p { i with breach := setBit i.breach p true }), r.2 ++ [⟨0x203, p, 255⟩])
    | none =>
      if blind then (removeTorque p i, r.2)
      else
        let due := (if img16 m (sfPort p + 10) ≤ tget 0 i.slow p then [IslDue.torque p] else [])
          ++ (if img16 m (sfPort p + 12) ≤ i.tick - s.startTick then [IslDue.tmax p] else [])
        ({ i with due := i.due ++ due.filter fun d => !i.due.contains d }, r.2)

/-- The ticks for which the monitored axes of each portal have been below V_ZERO, in a stop or not (R292). -/
def slowTicks (i : IslSt) : IslSt :=
  { i with slow := tmake 0 12 fun p => if allSlow i p then min 4000 (tget 0 i.slow p + 1) else 0 }

/-- Stops in progress (R289 to R292). -/
def tickStops (i : IslSt) : IslSt × List Report := (List.range 12).foldl stopStep (slowTicks i, [])

/-- One axis outside a stop: overspeed, and the speed cross-check with the other island, v_A being SAFE_A's (R293). An overspeed
that lasts is detected again once it has been cleared (R328). -/
def overStep (k : Isl) (o : IslSt) (i : IslSt) (x : Nat) : IslSt :=
  let m := islSec i
  let p := x / 3
  let a := tget {} i.axes x
  let lim := if i.mode = .workshop then img32 m (sfPort p + 28) else img32 m (sfPort p + 24)
  let free := !(tget ({} : StopSt) i.stops p).active
  let fast := match a.speed with
    | some v => decide (lim < v) && free
    | none => false
  let n := if fast then a.above + 1 else 0
  let wide : Bool := match a.speed, spd o x with
    | some v, some w => free && decide (vZero m p < v ∨ vZero m p < w) &&
        decide (img16 m (sfPort p + 50) * 4 + (if k == .a then v else w) < 4 * ((v : Int) - w).natAbs)
    | _, _ => false
  let c := if wide then tget 0 i.xchk x + 1 else 0
  { i with
    axes := tset {} i.axes x { a with above := min n 4 }
    xchk := tset 0 i.xchk x (min c 40)
    due := i.due ++ (if 4 ≤ n && !pbit i.overspd p && !i.due.contains (.overspeed x) then [.overspeed x] else [])
      ++ (if c = 40 && tget 0 i.xchk x = 39 then [.xchk x] else []) }

/-- Overspeed and the cross-check of every monitored axis (R293). -/
def tickOver (k : Isl) (o : IslSt) (i : IslSt) : IslSt := ((List.range 36).filter (monAxis (islSec i))).foldl (overStep k o) i

/-- One switch and its pads in a tick: it opens at once, it closes in order, and its pads are watched (R296, R297, R299). -/
def outStep (k : Isl) (pads : List PadIn) (o : IslSt) (n : Nat) (i : IslSt) : IslSt :=
  let pad := (pads.find? fun q => q.out.val == n).getD { out := 0, hMv := 0, lMv := 0, lHigh := false }
  let want := i.request.getLsbD n
  let was := i.closed.getLsbD n
  let now := want && (was || k == .a || pad.lHigh)
  let wait := tget 0 i.closing n
  let wait' := if !now then 0 else if !was then 1 else if wait = 0 || 12000 < pad.lMv then 0 else wait + 1
  let bothOpen := !now && !o.closed.getLsbD n
  let high := bothOpen && (16000 < pad.hMv || 16000 < pad.lMv) && !(outTwinPar (islSec i) n && pad.twinClosed)
  let e := if high then tget 0 i.extCnt n + 1 else 0
  { i with
    closed := setBit i.closed n now
    closing := tset 0 i.closing n (if k == .a then min wait' 3 else 0)
    extCnt := tset 0 i.extCnt n (min e 2)
    due := i.due ++ (if k == .a && wait' = 3 then [.lsStuck n] else [])
      ++ (if 2 ≤ e && tget 0 i.outFault n = 0 && !i.due.contains (.ext n) then [.ext n] else []) }

/-- The switches: the requests, then each switch (R296). -/
def tickOutputs (k : Isl) (pads : List PadIn) (o : IslSt) (i : IslSt) : IslSt :=
  (List.range 16).foldl (fun i n => outStep k pads o n i) { i with request := bitsBy 16 (wantsClosed i) }

/-- The reset button (R326): the press is timed from the tick at which the pair leaves its safe state. -/
def tickPress (wskey : Bool) (i : IslSt) : IslSt :=
  let q := img8 (islSec i) 0
  if q = 255 || i.params.isNone then i
  else
    let st : PairState := (tget {} i.pairs q).st
    let safe := st == PairState.safe
    let fault := st == PairState.fault || i.due.contains (.pairDisc q)
    let x := i.press
    match x.tick with
    | none =>
      if safe then { i with press := { x with safeFor := min 4000 (x.safeFor + 1) } }
      else if i.lastRes.getLsbD q then
        let y : PressSt := { tick := some 0, okStart := decide (4000 ≤ x.safeFor), sawUnsafe := st == PairState.unsafeSt }
        { i with press := { y with faulted := fault, verdict := x.verdict, acted := x.acted } }
      else { i with press := { x with safeFor := 0 } }
    | some t =>
      if safe then
        let ok := x.okStart && x.sawUnsafe && !x.faulted && !x.stuck && 800 ≤ t + 1 && t + 1 ≤ 20000
        { i with press := { safeFor := 1, verdict := some (i.tick, ok, wskey) } }
      else
        let y := { x with tick := some (t + 1), sawUnsafe := x.sawUnsafe || st == PairState.unsafeSt }
        { i with
          press := { y with faulted := x.faulted || fault, stuck := x.stuck || decide (20001 ≤ t + 1) }
          due := if t + 1 = 20001 then i.due ++ [.resetStuck] else i.due }

/-- The role line (R358): present from its second claiming tick in a row until its second one that does not claim. -/
def tickRole (r : RoleIn) (i : IslSt) : IslSt :=
  let ok := !r.longLow && r.pulses.any fun us => 40 ≤ us && us ≤ 250
  let yes := if ok then min 2 (i.claimFor + 1) else 0
  let no := if ok then 0 else min 2 (i.lostFor + 1)
  { i with
    claimFor := yes
    lostFor := no
    present := decide (no < 2) && (i.present || decide (2 ≤ yes))
    lockClaim := ok && r.pulses.head?.any fun us => 160 ≤ us && us ≤ 250 }

/-- The outputs whose offset in SAFE_A's or SAFE_B's dark-test cycle this safety tick reaches (R298, R13); the cycle counts the
island's own ticks of 0.25 ms. -/
def tickDark (k : Isl) (i : IslSt) : IslSt :=
  let d := img16 (islSec i) 2
  { i with darkDue := i.darkDue ||| bitsBy 16 fun n =>
      decide (0 < d) && i.tick % (4 * d) == ((n * d + 3) / 4 + (if k == .a then 0 else 2 * d)) % (4 * d) }

/-- What the island reports to SEQ (R272). -/
def islOut (i : IslSt) : IslOut where
  results := bitsBy 72 (pairResult i)
  faulted := bitsBy 72 fun q => (tget {} i.pairs q).st == .fault
  closed := i.closed
  stops := bitsBy 12 fun p => (tget {} i.stops p).active
  removed := bitsBy 12 fun p => (tget {} i.stops p).removed
  release := bitsBy 12 (releaseOf i)
  loop := bitsBy 12 (loopOf i)
  moving := bitsBy 12 (moves i)
  latches := latchMask i
  dev := i.dev.set
  isolated := i.isolated
  wskey := pairResult i (img8 (islSec i) 1)
  present := i.present
  lost := decide (2 ≤ i.lostFor)
  lockClaim := i.lockClaim

/-! ### What an island hands to the core -/

/-- A report reaches the fault manager. -/
def sendReport (r : Report) (c : Core) : Core := raise r.code r.portal r.object c

/-- The island's results reach SEQ. -/
def setCross (k : Isl) (w : IslOut) (c : Core) : Core :=
  match k with
  | .a => { c with crossA := w }
  | .b => { c with crossB := w }

/-- The workshop key is released (R42, R124): every MANUAL_MOVE and FIELD_FORCE ends with STOPPED, and the unit
will return to SERVICE. -/
def keyReleased (c : Core) : Core :=
  if c.sys.mode = .workshop then
    let c := (liveSlots c).foldl (fun c e =>
      if slotOp e.2 = 0x38 then endAll e.1 0x41 0x03 c else c) { c with sys.wsRelease := true }
    (List.range 144).foldl (fun c u => endForce u 0x41 0x03 0 c) c
  else c

/-- One line present and the other lost, counted in SAFE_A's ticks (R358). -/
def roleLines (c : Core) : Core :=
  let odd := (c.crossA.present && c.crossB.lost) || (c.crossB.present && c.crossA.lost)
  { c with twin.lineFault := if odd then min 8 (c.twin.lineFault + 1) else 0, twin.lineRec := c.twin.lineRec && odd }

/-- The fault manager after both islands have acted on a valid press (R327, R467). -/
def pressActs (keyless : Bool) (both : Bool) (c : Core) : Core :=
  let clearP (c : Core) : Core := (List.range 12).foldl (fun c p =>
    if lockedOut c p then
      event 0x074 0x03 [p]
        { c with
          nv.latches := tset {} c.nv.latches p {}
          crossA.latches := setBit c.crossA.latches p false
          crossB.latches := setBit c.crossB.latches p false }
    else c) c
  if c.sys.mode = .lockout then
    let c := clearP c
    let c := if devLatched c then
        event 0x074 0x03 [0xFF] { c with nv.dev := {}, crossA.dev := false, crossB.dev := false } else c
    if keyless && both then
      event 0x0C4 0x0F [lcCode c.nv.lc, lcCode .returned, 2] { c with nv.lc := .returned }
    else c
  else if stepsIn c.sys.mode then clearP c
  else c

/-! ### One island with its neighbour -/

/-- The island named. -/
def islAt (k : Isl) (s : State) : IslSt :=
  match k with
  | .a => s.isa
  | .b => s.isb

/-- The other island. -/
def otherIsl : Isl → Isl
  | .a => .b
  | .b => .a

/-- Replace an island. -/
def setIsl (k : Isl) (i : IslSt) (s : State) : State :=
  match k with
  | .a => { s with isa := i }
  | .b => { s with isb := i }

/-- Island number in records (R415, R452). -/
def islNo : Isl → Nat
  | .a => 0
  | .b => 1

/-- SOURCE of an island's records (R414). -/
def islSource : Isl → Nat
  | .a => 8
  | .b => 9

/-- The time base as an island reads it (R13, R25). -/
def islNow (k : Isl) (c : Core) : U64 :=
  BitVec.ofNat 64 (readTb (match k with | .a => islSafeA | .b => islSafeB) c)

/-- Portals of a pair's fault (R317). -/
def pairPortals (c : Core) (q : Nat) : List Nat :=
  let cfg := cfgOf c
  let m := imgPart cfg secSafe 2240
  if pairRole m q = 6 || pairRole m q = 7 then []
  else (List.range 12).filter fun p =>
    if pairRole m q = 1 && pairNames m q 12 then chanConf c p
    else pairNames m q p || (List.range 16).any fun j => pairMap cfg p j == q

/-- PAIR_DISC: the pair faults; a fault that the other island has already reported is not reported again (R278, R317). -/
def takePairDisc (k : Isl) (q : Nat) (s : State) : State :=
  let i := islAt k s
  let seen := (tget {} (islAt (otherIsl k) s).pairs q).st == .fault
  let s := setIsl k { i with pairs := tmod {} i.pairs q fun x => { x with st := .fault } } s
  if seen then s
  else match pairPortals s.core q with
    | [] => { s with core := raise 0x201 255 q s.core }
    | ps => { s with core := ps.foldl (fun c p => raise 0x201 p q c) s.core }

/-- An output fault: the latch, the switch, the latch copies and the report (R302, R317, R319). -/
def takeOutFault (k : Isl) (n code : Nat) (s : State) : State :=
  let i := islAt k s
  let seen := tget 0 (islAt (otherIsl k) s).outFault n ≠ 0 || tget 0 i.outFault n ≠ 0
  let s := setIsl k (outLatch n code (latchOut n code i)) s
  if seen then s else { s with core := raise code (if n < 4 then 255 else n - 4) n s.core }

/-- The effect of an island's detection. -/
def takeIsl (k : Isl) (d : IslDue) (s : State) : State :=
  let i := islAt k s
  match d with
  | .pairDisc q => takePairDisc k q s
  | .torque p => setIsl k (removeTorque p i) s
  | .tmax p =>
    if (tget {} i.stops p).active && !(tget {} i.stops p).removed then
      let s := setIsl k (removeTorque p i) s
      if pbit (wordOf (islAt (otherIsl k) s)).removed p then s else { s with core := raise 0x204 p 255 s.core }
    else s
  | .overspeed x =>
    let p := x / 3
    let s' := setIsl k (islLatch p 0x205 (openSwitch (4 + p) { i with overspd := setBit i.overspd p true })) s
    if pbit (islAt (otherIsl k) s).overspd p then s' else { s' with core := raise 0x205 p x s'.core }
  | .xchk x =>
    if 40 ≤ tget 0 (islAt (otherIsl k) s).xchk x then s else { s with core := raise 0x206 (x / 3) x s.core }
  | .lsStuck n => takeOutFault k n 0x208 s
  | .ext n => takeOutFault k n 0x20A s
  | .resetStuck => { s with core := event 0x071 (islSource k) [islNo k] s.core }
  | .lockoutTimeout =>
    let s := setIsl k { i with clear := none } s
    match s.core.seq.clearReq with
    | some r => { s with core := finish r.slot 0x40 0 0 0 { s.core with seq.clearReq := none } }
    | none => s
  | .framesMissing => setIsl k { i with blind := true, closed := 0, closing := [], pairs := [] } s
  | .linkLost => enterSafeTalk 0x83 s
  | .disagree => enterSafeTalk 0x82 s

/-- An island's detection that is due is taken; any other changes nothing (log 3). -/
def takeIslDue (k : Isl) (d : IslDue) (s : State) : State :=
  let i := islAt k s
  if i.due.contains d then takeIsl k d (setIsl k { i with due := i.due.erase d, now := islNow k s.core } s) else s

/-- Every detection of an island that is due is taken, oldest first (log 3). -/
def settleIsl (k : Isl) (s : State) : State :=
  (islAt k s).due.foldl (fun s d => takeIsl k d s) (setIsl k { islAt k s with due := [], now := islNow k s.core } s)

/-- What an island clears when it acts on a valid press (R327): in LOCKOUT every copy and every output fault, otherwise the
copies of the portals that are locked out. -/
def pressClear (i : IslSt) : IslSt :=
  if i.mode = .lockout then
    { (List.range 12).foldl (fun i p => islClear p i) i with dev := {}, outFault := [], latches := [] }
  else if stepsIn i.mode then (List.range 12).foldl (fun i p => if (tget {} i.latches p).set then islClear p i else i) i
  else i

/-- The verdicts on a release (R327), at the start of a safety tick, so that clearing comes before setting (R328): both valid
within 8 ticks and no portal moving, and the island clears its copies; the fault manager follows when both islands have
acted. -/
def actPress (k : Isl) (s : State) : State :=
  let i := islAt k s
  let o := islAt (otherIsl k) s
  match i.press.verdict with
  | none => s
  | some (t, ok, key) =>
    if i.press.acted then
      if t + 8 ≤ i.tick then setIsl k { i with press := { i.press with verdict := none, acted := false } } s else s
    else
      let done (i : IslSt) : IslSt := { i with press := { i.press with acted := true } }
      match o.press.verdict with
      | some (_, ok', key') =>
        if ok && ok' then
          let moving := (List.range 12).any fun p => movingCode (tget 0 i.motion p)
          if moving then
            let s := setIsl k (done i) s
            if o.press.acted then s else { s with core := event 0x073 0x03 [] s.core }
          else
            let s := setIsl k (done (pressClear i)) s
            if o.press.acted then
              let c := pressActs s.onyx.identity.isEmpty (key && key') s.core
              let s := { s with core := c }
              if i.mode = .lockout then startFlush .soft false none s else s
            else s
        else
          let s := setIsl k (done i) s
          if (ok || ok') && !o.press.acted then { s with core := event 0x072 0x03 [] s.core } else s
      | none =>
        if t + 7 ≤ i.tick then
          let s := setIsl k { i with press := { i.press with verdict := none } } s
          if ok then { s with core := event 0x072 0x03 [] s.core } else s
        else s

/-- One LOCKOUT_CLEARED record for each portal whose latch or whose ISOLATED flag was set and is now clear (R330). -/
def clearRecords (was wasIso : BitVec 12) (c : Core) : Core :=
  (List.range 12).foldl (fun c p =>
    if (pbit was p && !lockedOut c p) || (pbit wasIso p && !isolatedAt c p) then event 0x074 0x03 [p] c else c) c

/-- LOCKOUT_RESET completes once both islands report their copies clear (R330). -/
def clearDone (s : State) : State :=
  match s.core.seq.clearReq with
  | some r =>
    if !r.fresh && s.isa.clear.isNone && s.isb.clear.isNone then
      { s with core := finish r.slot 0x00 0 (r.pm.toNat + r.im.toNat * 65536) 0 (clearRecords r.was r.wasIso { s.core with seq.clearReq := none }) }
    else s
  | none => s

/-- What an island evaluates in its safety tick, from itself before the tick and the other island `o`: the island, its
reports, and whether the workshop key is released (R278, R288 to R299, R326, R358). -/
def islEval (k : Isl) (pads : List PadIn) (role : RoleIn) (before o : IslSt) : IslSt × List Report × Bool :=
  let i := pairsStep (tickFrames before)
  let wskey := pairResult i (img8 (islSec i) 1)
  let keyRel := i.lastRes.getLsbD (img8 (islSec i) 1) && !wskey && img8 (islSec i) 1 ≠ 255
  let v := tickSpeeds k (tickMasks wskey i)
  let i := if o.mute || o.tick = 0 then v.1 else adopt (wordOf o) v.1
  let w := tickStops (tickSwitch (tickStarts keyRel i))
  let i := tickDark k (tickRole role (tickPress wskey (tickOutputs k pads o (tickOver k o w.1))))
  let l := compareWords i o
  let twice := l.any i.disagree.contains && !i.due.contains .disagree
  ({ i with word := wordOf before, lastRes := bitsBy 72 (pairResult i), disagree := l,
            due := if twice then i.due ++ [.disagree] else i.due }, v.2 ++ w.2, keyRel)

/-- What the core takes from an island's tick: the reports, the results, the key's release, and with SAFE_A's tick the role
lines. -/
def islTell (k : Isl) (e : IslSt × List Report × Bool) (c : Core) : Core :=
  let c := e.2.1.foldl (fun c r => sendReport r c) c
  let c := setCross k (islOut e.1) c
  let c := if e.2.2 then keyReleased c else c
  if k == .a then roleLines c else c

/-- The body of a safety tick of one island. -/
def islTick (k : Isl) (pads : List PadIn) (role : RoleIn) (s : State) : State :=
  let s := actPress k s
  let e := islEval k pads role (islAt k s) (islAt (otherIsl k) s)
  clearDone (setIsl k e.1 { s with core := islTell k e s.core })

/-- SAFETY_TICK (R278). A logic die held in reset has no safety ticks. -/
def execSafetyTick (k : Isl) (pads : List PadIn) (role : RoleIn) (s : State) : Host.Outcome State Fault Refusal :=
  .next (if s.core.sys.inReset then s else islTick k pads role (settleIsl k s))

/-- PAIR_DISC (R278). -/
def execPairDisc (k : Isl) (q : Fin 72) (s : State) : Host.Outcome State Fault Refusal := .next (takeIslDue k (.pairDisc q) s)

/-- Torque removal after T_ZERO (R292). -/
def execTorqueRemoval (k : Isl) (p : Fin 12) (s : State) : Host.Outcome State Fault Refusal := .next (takeIslDue k (.torque p) s)

/-- STOP_TMAX (R292). -/
def execStopTmax (k : Isl) (p : Fin 12) (s : State) : Host.Outcome State Fault Refusal := .next (takeIslDue k (.tmax p) s)

/-- OVERSPEED (R293). -/
def execOverspeed (k : Isl) (x : Fin 36) (s : State) : Host.Outcome State Fault Refusal := .next (takeIslDue k (.overspeed x) s)

/-- SPEED_XCHK (R293), found by either island. -/
def execSpeedXchk (x : Fin 36) (s : State) : Host.Outcome State Fault Refusal :=
  .next (if s.isa.due.contains (.xchk x) then takeIslDue .a (.xchk x) s else takeIslDue .b (.xchk x) s)

/-- SO_LS_STUCK: SAFE_A opens and latches (R297). -/
def execSoLsStuck (n : Fin 16) (s : State) : Host.Outcome State Fault Refusal := .next (takeIslDue .a (.lsStuck n) s)

/-- SO_EXT (R299). -/
def execSoExt (k : Isl) (n : Fin 16) (s : State) : Host.Outcome State Fault Refusal := .next (takeIslDue k (.ext n) s)

/-- RESET_STUCK (R326). -/
def execResetStuck (k : Isl) (s : State) : Host.Outcome State Fault Refusal := .next (takeIslDue k .resetStuck s)

/-- An island has not cleared its copies in 10 safety ticks (R331). -/
def execLockoutResetTimeout (k : Isl) (s : State) : Host.Outcome State Fault Refusal := .next (takeIslDue k .lockoutTimeout s)

/-- Two safety ticks without a valid sample frame (R18). -/
def execFieldFramesMissing (k : Isl) (s : State) : Host.Outcome State Fault Refusal := .next (takeIslDue k .framesMissing s)

/-- Four safety ticks without a valid sample frame (R53). -/
def execFieldLinkLost (k : Isl) (s : State) : Host.Outcome State Fault Refusal := .next (takeIslDue k .linkLost s)

/-- SAFE_DISAGREE (R276, R53), found by either island. -/
def execSafeDisagree (s : State) : Host.Outcome State Fault Refusal :=
  .next (if s.isa.due.contains .disagree then takeIslDue .a .disagree s else takeIslDue .b .disagree s)

/-- The return from WORKSHOP after the key's release, once no MANUAL_MOVE runs (R42). -/
def keyReturn (c : Core) : Core :=
  if c.sys.wsRelease && c.sys.mode == .workshop && !resetting c && (List.range 12).all fun p =>
      !((tget {} c.seq.masters p).kind == .manual && (tget {} c.seq.masters p).run) then
    changeMode .service 0x96 0 0 { c with sys.wsRelease := false }
  else c

/-- WORKSHOP_KEY_RETURN (R42). -/
def execWorkshopKeyReturn (s : State) : Host.Outcome State Fault Refusal := .next { s with core := keyReturn s.core }

/-- The other closed outputs that a dark test of output `n` shows crossed with it: between outputs with TWIN_PAR only where the
twin holds both open (R298, R300). -/
def crossed (n : Nat) (rd : DarkRead) (i : IslSt) : List Nat :=
  let m := islSec i
  (rd.others.map Fin.val).filter fun o => o != n && i.closed.getLsbD o &&
    !(outTwinPar m n && outTwinPar m o && (rd.twinHolds.any fun h => h.val == n || h.val == o))

/-- A dark test of one switch (R298, R300): once in each cycle from its offset on, only of a closed switch, after 1 ms of
energised pads, with VSO not low (R301). A stuck switch, or one that is open after the reclose, and a cross are each reported. -/
def darkTest (k : Isl) (n : Nat) (rd : DarkRead) (s : State) : State :=
  let i := islAt k s
  if !i.darkDue.getLsbD n || !i.closed.getLsbD n || !rd.waited || i.vsoLow then s
  else
    let l := crossed n rd i
    let s := setIsl k { i with darkDue := setBit i.darkDue n false, dark := tset 0 i.dark n (tget 0 i.dark n + 1),
                               now := islNow k s.core } s
    let s := if !rd.left then takeOutFault k n (if k == .a then 0x207 else 0x208) s
      else if !rd.back then takeOutFault k n 0x20B s
      else s
    if l.isEmpty then s else l.foldl (fun s o => takeOutFault k o 0x209 s) (takeOutFault k n 0x209 s)

/-- DARK_TEST (R298). -/
def execDarkTest (k : Isl) (n : Fin 16) (rd : DarkRead) (s : State) : Host.Outcome State Fault Refusal := .next (darkTest k n rd s)

/-- VSO below 16.0 V for 1 ms: both islands open every switch (R301). -/
def execVsoLow (s : State) : Host.Outcome State Fault Refusal :=
  .next (if s.isa.vsoLow then s
    else
      { s with
        isa := { s.isa with vsoLow := true, closed := 0, closing := [] }
        isb := { s.isb with vsoLow := true, closed := 0, closing := [] }
        core := raise 0x20D 255 255 s.core })

/-- VSO above 18.0 V for 100 ms (R301). -/
def execVsoRecovery (s : State) : Host.Outcome State Fault Refusal :=
  .next { s with isa := { s.isa with vsoLow := false }, isb := { s.isb with vsoLow := false } }

/-- A switch in current limit for 5 ms turns itself off (R301). -/
def execSoOverload (k : Isl) (n : Fin 16) (s : State) : Host.Outcome State Fault Refusal :=
  .next (if (islAt k s).closed.getLsbD n then takeOutFault k n 0x20C (setIsl k { islAt k s with now := islNow k s.core } s) else s)

/-- An island reads and corrects its private memory (R451, R453). -/
def execSafeMemScrub (k : Isl) (corrected bad : List Nat) (s : State) : Host.Outcome State Fault Refusal :=
  let i := islAt k s
  let i := corrected.foldl (fun i w =>
    { i with memCorr := i.memCorr + 1, memLast := BitVec.ofNat 32 w }) i
  let i := if bad.isEmpty then i
    else { i with memBad := i.memBad + BitVec.ofNat 32 bad.length, mute := true, closed := 0, closing := [] }
  let c := corrected.foldl (fun c w => event 0x0D4 (islSource k) [islNo k, w] c) s.core
  let c := bad.foldl (fun c w => event 0x0D5 (islSource k) [islNo k, w] c) c
  .next (setIsl k i { s with core := c })

/-- A claiming island pulses its role line (R357): 100 µs, or 200 µs in LOCKOUT. -/
def execRoleClaimPulse (k : Isl) (s : State) : Host.Outcome State Fault Refusal :=
  .next (if claiming s.core && (islAt k s).seqAge ≤ 2 && !s.core.sys.txOff && !s.core.sys.inReset then
      { s with core := emit (.rolePulse (islNo k + 1) (if s.core.sys.mode = .lockout then 200 else 100)) s.core }
    else s)

/-- One role line present and the other lost for 8 safety ticks (R358). -/
def roleLineFault (c : Core) : Core :=
  if paired c && 8 ≤ c.twin.lineFault && !c.twin.lineRec then
    event 0x090 0x0B [if c.crossA.lost then 1 else 2] { c with twin.lineRec := true }
  else c

/-- ROLE_LINE_FAULT (R358). -/
def execRoleLineFault (s : State) : Host.Outcome State Fault Refusal := .next { s with core := roleLineFault s.core }

end Sys2Proof.Machine
end

