-- ==== Sys2Proof/Machine/Vector.lean ====
section
/-! DEFINITION. The condition vector of a channel (R136 to R140, R178, R286, R287). -/

namespace Sys2Proof.Machine

/-- The safety section of the image in effect; none without an image. -/
def safeSec (c : Core) : Image :=
  match c.run.cfg with
  | some m => imgPart m secSafe 2240
  | none => {}

/-- The torque-enable output of a portal is reported closed (R198, R371): by both islands, or to a synchronised standby
by its active. -/
def teReport (c : Core) : BitVec 12 :=
  if standbyIn c then
    match c.twin.input with
    | some (_, f) => f.te
    | none => 0
  else bitsBy 12 fun p => c.crossA.closed.getLsbD (4 + p) && c.crossB.closed.getLsbD (4 + p)

/-! ### Field inputs and pairs (R138, R139) -/

/-- The value of a field input that a map entry names (R138). -/
def inBit (c : Core) (n j : Nat) : Bool :=
  let m := cfgOf c
  let u := inUio m n j
  if u = 255 then false
  else match (match c.fld.frame with
    | some f => stateIn f u
    | none => 3) with
    | 0 => inInv m n j
    | 1 => !inInv m n j
    | _ => false

/-- The result of a pair in both islands (R139). -/
def pairBit (c : Core) (q : Nat) : Bool := c.crossA.results.getLsbD q && c.crossB.results.getLsbD q

/-- Both islands show a pair safe where SPj maps one. -/
def spBit (c : Core) (n j : Nat) : Bool :=
  let q := pairMap (cfgOf c) n j
  decide (q < 72) && pairBit c q

/-! ### Stops (R286, R287) -/

/-- Some contact of a pair is not safe in the latest stop word (R286). -/
def wordUnsafe (c : Core) (m : Image) (q : Nat) : Bool :=
  match c.fld.stopW with
  | none => true
  | some f =>
    let lv := img8 m (sfPair q + 2)
    stateIn f (img8 m (sfPair q)) != lv % 2 || stateIn f (img8 m (sfPair q + 1)) != lv / 2 % 2

/-- A STOP pair naming a portal, or the car for 12, asks for a stop (R286, R287). -/
def stopAsked (c : Core) (m : Image) (p : Nat) : Bool :=
  (pairsOf m).any fun q => pairRole m q == 1 && pairNames m q p && (wordUnsafe c m q || !pairBit c q)

/-- A STOP or EGRESS pair naming a portal is not safe in the stop word (R286). -/
def wordStops (c : Core) (m : Image) (p : Nat) : Bool :=
  (pairsOf m).any fun q => pairStops m q && pairNames m q p && wordUnsafe c m q

/-- SAFE_STOP of a portal (R286). -/
def safeStopBit (c : Core) (m : Image) (p : Nat) : Bool := wordStops c m p || pbit c.crossA.stops p || pbit c.crossB.stops p

/-! ### Bits of a portal channel (R136) -/

/-- LIMIT of an axis (R178). -/
def limitBit (c : Core) (x : Nat) : Bool :=
  let n := posNow c x
  (axAt c x).satur || decide (n < slMin (cfgOf c) x) || decide (slMax (cfgOf c) x < n)

/-- CAM_READY (R136). -/
def camReady (c : Core) (n : Nat) : Bool :=
  let h := chAt c n
  !h.camRefused && (h.camTable.bind (pageOf c)).isSome

/-- The event bits at the master value (R178, R182); a MANUAL_MOVE has no event track. -/
def eventBits (c : Core) (p : Nat) : Nat := if (msAt c p).kind == .manual then 0 else (msAt c p).ev

/-- A START_MOVE waits for Topaz, from the tick after Topaz first evaluates it (R148). -/
def grantWait (c : Core) (p : Nat) : Bool :=
  match (msAt c p).waiting with
  | some r => r.manual.isNone && r.age.any fun a => decide (a < c.seq.now)
  | none => false

/-- ISOLATE_REQ of a portal (R324). -/
def isoReqBit (c : Core) (p : Nat) : Bool := (tget {} c.nv.degraded p).isoReq && !isolatedAt c p

/-- Bits 48 to 71 and 96 to 127 of a portal channel. -/
def portalBit (c : Core) (m : Image) (p k : Nat) : Bool :=
  let h := chAt c p
  let ms := msAt c p
  let o := obAt c p
  let cfg := cfgOf c
  let ax (a : Nat) : Nat := 3 * p + a
  let named (a : Nat) : Bool := axisConf cfg (ax a)
  let l := portalAxes cfg p
  if k < 51 then !named (k - 48) || ((axAt c (ax (k - 48))).inPos && !ms.run)
  else if k < 54 then named (k - 51) && (axAt c (ax (k - 51))).stall
  else if k < 57 then named (k - 54) && limitBit c (ax (k - 54))
  else match k with
    | 57 => h.moveDone
    | 58 => ms.vel != 0
    | 59 => l.any fun x => (linkAt c x).fault != 0
    | 60 => l.all (fun x => (axAt c x).st == .on) && pbit c.seq.teNext p
    | 61 => l.all fun x => (axAt c x).referenced
    | 64 => o.force
    | 65 => edgeBit c p
    | 66 => curtainBit c p
    | 67 => o.stall
    | 68 => o.drawn
    | 69 => o.energy
    | 70 => o.force || edgeBit c p || curtainBit c p || o.stall || o.drawn || o.energy
    | 71 => baseValid c p 0 && baseValid c p 1
    | 96 => h.grant
    | 97 => h.grantSlow
    | 98 => pbit c.seq.topaz.heatWarn p
    | 99 => pbit c.seq.topaz.heatCrit p
    | 100 => grantWait c p
    | 101 => pbit c.seq.topaz.supplyLow p
    | 104 => pbit c.crossA.release p && pbit c.crossB.release p
    | 105 => pbit c.crossA.loop p && pbit c.crossB.loop p
    | 106 => stopAsked c m p || h.stopReq
    | 107 => degradedAt c p
    | 108 => safeStopBit c m p
    | 109 => c.sys.hostLost
    | 110 => isoReqBit c p
    | 111 => lockedOut c p
    | 120 => camReady c p
    | 121 => h.camFault
    | _ => if 122 ≤ k then bitOf (eventBits c p) (k - 122) else false

/-! ### Bits of the car channel (R137, R287) -/

/-- Outputs of a function in the safety section. -/
def outsOf (m : Image) (f : Nat) : List Nat := if m.len = 0 then [] else (List.range 16).filter fun n => outFunc m n == f

/-- Both switches of an output are closed. -/
def outClosed (c : Core) (n : Nat) : Bool := c.crossA.closed.getLsbD n && c.crossB.closed.getLsbD n

/-- Every configured portal reports CLOSED_LOCKED or TORQUE_OFF (R43, R137). -/
def allAtRest (c : Core) : Bool :=
  (List.range 12).all fun p => !chanConf c p || motionOf c p == 1 || motionOf c p == 9

/-- Bits 48 to 71 and 96 to 127 of channel 12. -/
def carBit (c : Core) (m : Image) (k : Nat) : Bool :=
  let some_ (f : Nat → Bool) : Bool := (List.range 12).any f
  if k < 60 then motionOf c (k - 48) == 1
  else match k with
    | 60 => some_ fun p => (chAt c p).obstacle
    | 61 => anyMoving c
    | 62 => some_ (degradedAt c)
    | 63 => allAtRest c
    | 98 => some_ fun p => pbit c.seq.topaz.heatWarn p
    | 99 => some_ fun p => pbit c.seq.topaz.heatCrit p
    | 101 => some_ fun p => pbit c.seq.topaz.supplyLow p
    | 104 => (outsOf m 2).any (outClosed c)
    | 105 => !(outsOf m 1).isEmpty && (outsOf m 1).all (outClosed c)
    | 106 => stopAsked c m 12
    | 109 => c.sys.hostLost
    | _ => false

/-! ### The vector -/

/-- Bit `k` of the vector of channel `n`, from the unit's own sources. -/
def cvBit (c : Core) (m : Image) (n k : Nat) : Bool :=
  let h := chAt c n
  if k < 32 then inBit c n k
  else if k < 48 then spBit c n (k - 32)
  else if 72 ≤ k && k < 76 then (tget {} h.timers (k - 72)).exp
  else if 76 ≤ k && k < 80 then decide ((tget {} h.counters (k - 76)).limit ≤ (tget {} h.counters (k - 76)).value)
  else if 80 ≤ k && k < 96 then h.hf.getLsbD (k - 80)
  else if 112 ≤ k && k < 120 then c.seq.carFlags.getLsbD (k - 112)
  else if n = 12 then carBit c m k
  else portalBit c m n k

/-- The bits that CV_EXT carries (R369). -/
def extMask : BitVec 128 := bitsBy 128 fun k => k < 48 || (104 ≤ k && k < 112) || k == 120 || k == 121

/-- CV of a channel: a synchronised standby takes the bits of CV_EXT from its active (R371). -/
def vectorOf (c : Core) (m : Image) (n : Nat) : BitVec 128 :=
  let own := bitsBy 128 (cvBit c m n)
  if standbyIn c then
    match c.twin.input with
    | some (_, f) => (own &&& ~~~ extMask) ||| (tget 0 f.cv n &&& extMask)
    | none => own
  else own

/-- The channels that step (R127, R128). -/
def stepping (c : Core) : List Nat := if stepsIn c.sys.mode then (List.range 13).filter (chanConf c) else []

end Sys2Proof.Machine
end

