-- ==== Sys2Proof/Machine/Cycle.lean ====
section
/-! DEFINITION. Door cycles: the measurements from CYCLE_BEGIN on, the cycle record, and the statistics that it
updates (R262, R410 to R412, R433, R434). -/

namespace Sys2Proof.Machine

/-- Measurements of a portal's door cycle. -/
def cyAt (c : Core) (p : Nat) : CycleSt := tget {} c.seq.cycles p
/-- Update them. -/
def modCy (p : Nat) (f : CycleSt → CycleSt) (c : Core) : Core := { c with seq.cycles := tmod {} c.seq.cycles p f }

/-- The measurements of the tick that ends (R262): energies in µJ, the smallest DC-link voltage, the temperatures. -/
def cycleFeed (p : Nat) (c : Core) : Core :=
  (portalAxes (cfgOf c) p).foldl (fun c x =>
    let a := axisIn c x
    let t := tget {} c.seq.topaz.therm x
    modCy p (fun y => { y with
      energy := y.energy + a.drawn
      regen := y.regen + a.regen
      minVdc := if a.vdcMin = 65535 then y.minVdc else some (min (y.minVdc.getD a.vdcMin) a.vdcMin)
      peakTemp := if t.init then max y.peakTemp (t.tm / 2 ^ 32) else y.peakTemp }) c) c

/-- The flags of a tick (R411). -/
def cycleFlags (p : Nat) (c : Core) : Core :=
  let heat := pbit c.seq.topaz.heatWarn p || pbit c.seq.topaz.heatCrit p
  let on (b : Bool) (k : Nat) (v : BitVec 16) : BitVec 16 := if b then setBit v k true else v
  modCy p (fun y => { y with
    flags := on c.sys.hostLost 1 (on heat 3 (on ((chAt c p).cv.getLsbD 108) 4
      (on (chAt c p).obstacle 5 (on (manualAt c p) 8 y.flags)))) }) c

/-- The end of a tick: the first one that reports OPEN (R410). -/
def cycleEnd (p : Nat) (c : Core) : Core :=
  if motionOf c p = 5 && (cyAt c p).begun && (cyAt c p).openTick.isNone then
    modCy p (fun y => { y with openTick := some c.seq.now }) c
  else c

/-- CYCLE_BEGIN (R410, R433): the measurements restart. -/
def cycleBegin (p : Nat) (c : Core) : Core :=
  let last := (cyAt c p).lastTick
  let c := if last = 0 then c else histAdd p 13 ((c.seq.now - last) / 480000) c
  modCy p (fun _ => { begun := true, beginTick := c.seq.now, lastTick := last }) c

/-- Ticks in whole milliseconds, saturating (R410). -/
def tickMs (n : Nat) : Nat := min 65535 (n / 8)

/-- The values of a cycle record, in the order of its first histograms: OPEN_MS, CLOSE_MS, PEAK_FORCE, REVERSALS,
PEAK_TEMP, ENERGY, MIN_VDC, LOCK_MS (R410, R433). -/
def cycleValues (c : Core) (p : Nat) : List Nat :=
  let y := cyAt c p
  let o := obAt c p
  let ms (b : Option Nat) (f : Nat → Nat) : Nat := if y.begun then (b.map f).getD 0 else 0
  [ms y.openTick fun t => tickMs (t - y.beginTick), ms y.closeTick fun t => tickMs (c.seq.now - t),
    (clampI 0 65535 y.peakForce).toNat, y.reversals, (clampI 0 255 y.peakTemp).toNat,
    min 65535 (roundDiv y.energy 1000000).toNat, y.minVdc.getD 65535,
    match o.winOpen, o.lockAt with
    | some t, some k => tickMs (k - t)
    | _, _ => 65535]

/-- The 32 bytes of a cycle record (R409 to R411). -/
def cycleBytes (c : Core) (p outcome final : Nat) : Bytes :=
  let y := cyAt c p
  let v (i : Nat) : Nat := (cycleValues c p).getD i 0
  let flags := y.flags.toNat + b2n (degradedAt c p) + 64 * b2n (unsynced c) + 128 * b2n (!y.begun)
  let b := toLe 8 (stampOf c) ++ toLe 1 p ++ toLe 1 outcome ++ toLe 2 flags ++ toLe 2 (v 0) ++ toLe 2 (v 1) ++ toLe 2 (v 2)
    ++ toLe 1 (v 3) ++ toLe 1 (v 4) ++ toLe 2 (v 5) ++ toLe 2 (v 6) ++ toLe 2 (v 7) ++ toLe 1 final ++ [0]
  b ++ toLe 4 (crc32c b)

/-- Bin width of each of the first eight histograms (R433). -/
def binWidths : List Nat := [100, 100, 50, 1, 4, 10, 50, 10]

/-- The entry of the extremes for a value of `cycleValues` (R434). -/
def extremeOf (i : Nat) : Nat := if i = 6 then 7 else if i = 7 then 6 else i

/-- The statistics of a cycle record (R433, R434). -/
def cycleStats (p outcome final : Nat) (c : Core) : Core :=
  let vs := cycleValues c p
  let regen := (roundDiv (cyAt c p).regen 1000000).toNat
  let c := (List.range 8).foldl (fun c i =>
    let v := vs.getD i 0
    let c := histAdd p i (v / binWidths.getD i 1) c
    if i = 7 && v = 65535 then c
    else entryMin p (8 + extremeOf i) v 0xFFFFFFFF (entryMax p (extremeOf i) v 0xFFFFFFFF c)) c
  totalAdd p 60 (histAdd p 8 outcome (histAdd p 9 (regen / 10) (histAdd p 14 final c)))

/-- One more cycle of a DEGRADED portal (R322, R325). -/
def degradedCycle (p : Nat) (c : Core) : Core :=
  if degradedAt c p && !isolatedAt c p then
    { c with nv.degraded := tmod {} c.nv.degraded p fun d => { d with cycles := satAdd 65535 d.cycles 1 } }
  else c

/-- CYCLE_RECORD (R410, R322): the record, the statistics, and the end of the measurements. -/
def cycleRecord (p outcome final : Nat) (c : Core) : Core :=
  let b := cycleBytes c p outcome final
  let c := degradedCycle p (cycleStats p outcome final c)
  modCy p (fun _ => { lastTick := c.seq.now }) (stage { cycle := true, sev := 4, code := 0, bytes := b } c)

end Sys2Proof.Machine
end

