-- ==== Sys2Proof/Machine/Requests.lean ====
section
/-! DEFINITION. The operations that reach the sequencer as host flags (R115 to R118, R123 to R125). A delivery is
a function of the slot and the descriptor, so that a standby executes it too (R112). -/

namespace Sys2Proof.Machine

/-- Portals of a mask, in portal order. -/
def portalsOf (m : Nat) : List Nat := (List.range 12).filter fun p => bitOf m p

/-- ECHO returns its operands (R115). -/
def echoDeliver (k : Nat) (d : Bytes) (c : Core) : Core := finish k 0x00 0 (field d 8 4) (field d 12 4) c

/-- ECHO (R115). -/
def execEcho (slot : Fin 512) (s : State) : Host.Outcome State Fault Refusal :=
  .next { s with core := startOp slot 0x01 (echoDeliver slot) s.core }

/-- Deadline of a TIMEOUT in 100 ms, 800 ticks each; 0 means none (R115). -/
def deadlineOf (c : Core) (t : Nat) : Option Nat := if t = 0 then none else some (c.seq.now + 800 * t)

/-- Set the deadline of a slot. -/
def setDeadline (k t : Nat) (c : Core) : Core :=
  match slotAt c k with
  | some x => setSlot k (some { x with deadline := deadlineOf c t }) c
  | none => c

/-- The parts of other PORTAL_REQUESTs that hold a portal end (R124). -/
def endOthers (k p st detail : Nat) (c : Core) : Core :=
  (liveSlots c).foldl (fun c e => if e.1 ≠ k && slotOp e.2 = 0x10 then endPart e.1 p st detail c else c) c

/-- Write a channel. -/
def setChan (n : Nat) (h : ChannelSt) (c : Core) : Core := { c with seq.channels := tset {} c.seq.channels n h }

/-- PORTAL_REQUEST reaches one portal (R116, R117, R124, R125). -/
def requestPortal (k req p : Nat) (c : Core) : Core :=
  let c := endOthers k p 0x40 0 c
  let h := tget {} c.seq.channels p
  if h.stopAt = some c.seq.now then dropFlags p (endPart k p 0x41 0x01 c)
  else
    let quickAt := if h.stopReq then some c.seq.now else none
    dropFlags p (setHf p (req - 1) true (setChan p { h with hf := setBit h.hf 15 false, stopReq := false, stopAt := none, quickAt } c))

/-- PORTAL_REQUEST is delivered (R116). -/
def requestDeliver (k : Nat) (d : Bytes) (c : Core) : Core :=
  let c := setDeadline k (field d 12 2) c
  closeParts k ((portalsOf (field d 8 2)).foldl (fun c p => requestPortal k (byteAt d 10) p c) c)

/-- PORTAL_REQUEST (R116). -/
def execPortalRequest (slot : Fin 512) (s : State) : Host.Outcome State Fault Refusal :=
  .next { s with core := startOp slot 0x10 (requestDeliver slot) s.core }

/-- PORTAL_STOP reaches one portal: HF15, with QUICK also STOP_REQ, which is never withdrawn by RAMP, nor by a request of the same
tick (R117, R124, R125). -/
def stopPortal (k : Nat) (quick : Bool) (p : Nat) (c : Core) : Core :=
  let c := endOthers k p 0x41 0x01 c
  let h := tget {} c.seq.channels p
  let held := h.stopReq || h.quickAt == some c.seq.now
  dropFlags p (setChan p { h with hf := setBit h.hf 15 true, stopReq := held || quick, stopAt := some c.seq.now } c)

/-- PORTAL_STOP is delivered (R117). -/
def stopDeliver (k : Nat) (d : Bytes) (c : Core) : Core :=
  closeParts k ((portalsOf (field d 8 2)).foldl (fun c p => stopPortal k (byteAt d 10 == 2) p c) c)

/-- PORTAL_STOP (R117). -/
def execPortalStop (slot : Fin 512) (s : State) : Host.Outcome State Fault Refusal :=
  .next { s with core := startOp slot 0x11 (stopDeliver slot) s.core }

/-- The CAR_REQUEST in flight ends, and its flag is cleared (R118). -/
def endCar (st detail r0 : Nat) (c : Core) : Core :=
  match c.seq.carSlot with
  | some k =>
    let code := match slotAt c k with
      | some x => byteAt x.desc 8
      | none => 0
    finish k st detail r0 0 (setHf 12 code false { c with seq.carSlot := none })
  | none => c

/-- CAR_REQUEST is delivered: it supersedes an earlier one and asserts HF[CODE] in channel 12 (R118, R124). -/
def carDeliver (k : Nat) (d : Bytes) (c : Core) : Core :=
  let c := endCar 0x40 0 0 c
  setHf 12 (byteAt d 8) true (setDeadline k (field d 12 2) { c with seq.carSlot := some k })

/-- CAR_REQUEST (R118). -/
def execCarRequest (slot : Fin 512) (s : State) : Host.Outcome State Fault Refusal :=
  .next { s with core := startOp slot 0x12 (carDeliver slot) s.core }

/-- SET_FLAGS writes HF4 to HF14 of the addressed channels (R118). -/
def flagsDeliver (k : Nat) (d : Bytes) (c : Core) : Core :=
  let on := BitVec.ofNat 16 (field d 10 2)
  let off := BitVec.ofNat 16 (field d 12 2)
  let c := ((List.range 13).filter fun n => bitOf (field d 8 2) n).foldl (fun c n =>
    let h := tget {} c.seq.channels n
    setChan n { h with hf := (h.hf ||| on) &&& ~~~off } c) c
  finish k 0x00 0 (field d 8 2) 0 c

/-- SET_FLAGS (R118). -/
def execSetFlags (slot : Fin 512) (s : State) : Host.Outcome State Fault Refusal :=
  .next { s with core := startOp slot 0x18 (flagsDeliver slot) s.core }

/-- A TIMEOUT passes (R116, R118, R122): the parts that have not ended end, and so does a CAR_REQUEST. -/
def timeoutSlot (k : Nat) (c : Core) : Core :=
  match slotAt c k with
  | some x =>
    if !(x.deadline.any fun t => decide (t ≤ c.seq.now)) then c
    else
    let c := setSlot k (some { x with deadline := none }) c
    if slotOp x = 0x12 then (if c.seq.carSlot = some k then endCar 0x01 0x03 0 c else c)
    else
      let ps := (List.range 12).filter (partOpen x)
      ps.foldl (fun c p => dropFlags p c) (ps.foldl (fun c p => endPart k p 0x01 0x03 c) c)
  | none => c

/-- REQUEST_TIMEOUT (R116), where the deadline has passed. -/
def execRequestTimeout (slot : Fin 512) (s : State) : Host.Outcome State Fault Refusal :=
  .next (if s.core.seq.due.contains (.requestTimeout slot) then
      { s with core := timeoutSlot slot { s.core with seq.due := s.core.seq.due.erase (.requestTimeout slot) } }
    else s)

end Sys2Proof.Machine
end

