-- ==== Sys2Proof/Machine/Train.lean ====
section
/-! DEFINITION. The two train-line ports: publishing and receiving door telegrams, their queues and counters
(R386 to R403). -/

namespace Sys2Proof.Machine

/-! ### The train-line section (R388 to R390) -/

/-- Bytes of a field of the section. -/
def tlN (m : Image) (o n : Nat) : Nat := imgN m (secTrain + o) n
/-- An IPv4 address of the section, first byte of the dotted notation most significant. -/
def tlIp (m : Image) (o : Nat) : Nat := beNat (imgSlice m (secTrain + o) 4)
/-- Publish entry e. -/
def pubE (e : Nat) : Nat := 64 + 32 * e
/-- Subscribe entry s. -/
def subE (s : Nat) : Nat := 576 + 32 * s
/-- Used publish entries, in ascending DATASET_ID (R396). -/
def pubsOf (m : Image) : List Nat :=
  let l := (List.range 16).filter fun e => tlN m (pubE e) 4 ≠ 0
  l.foldl (fun r e =>
    (r.filter fun f => decide (tlN m (pubE f + 8) 2 ≤ tlN m (pubE e + 8) 2)) ++ [e]
      ++ r.filter fun f => decide (tlN m (pubE e + 8) 2 < tlN m (pubE f + 8) 2)) []

/-- Port. -/
def portAt (c : Core) (p : Nat) : PortSt := tget {} c.train.ports p
/-- Update a port. -/
def modPort (p : Nat) (f : PortSt → PortSt) (c : Core) : Core := { c with train.ports := tmod {} c.train.ports p f }
/-- Count in a port's block at an offset (R402). -/
def tlCount (p off : Nat) (c : Core) : Core := modPort p (fun x => { x with counters := tmod 0 x.counters off (· + 1) }) c
/-- Subscription. -/
def subAt (c : Core) (s : Nat) : SubSt := tget {} c.train.subs s
/-- Update a subscription. -/
def modSub (s : Nat) (f : SubSt → SubSt) (c : Core) : Core := { c with train.subs := tmod {} c.train.subs s f }

/-! ### Telegrams (R386, R387, R392) -/

/-- One bit of the reflected CRC-32 of IEEE 802.3 (log 11). -/
def crc32Bit (c : Nat) : Nat := if c % 2 = 1 then (c / 2) ^^^ 0xEDB88320 else c / 2
/-- One byte of it. -/
def crc32Byte (c : Nat) (b : Byte) : Nat := (List.range 8).foldl (fun c _ => crc32Bit c) (c ^^^ b.toNat)
/-- The frame check of IEC 61375-2-3 (log 11). -/
def crc32 (b : Bytes) : Nat := (b.foldl crc32Byte 0xFFFFFFFF) ^^^ 0xFFFFFFFF

/-- The process-data header (R387). -/
def pdHeader (seq comId len : Nat) : Bytes :=
  let b := toBe 4 seq ++ toBe 2 0x0100 ++ toBe 2 0x5064 ++ toBe 4 comId ++ toBe 4 0 ++ toBe 4 0 ++ toBe 4 len
    ++ toBe 4 0 ++ toBe 4 0 ++ toBe 4 0
  b ++ toLe 4 (crc32 b)

/-- A door telegram's payload; without a key it has KEY_SLOT 0xFF and TAG 0 (R392, R403). -/
def telegram (key : Bytes) (slot failed srcId dataset epoch seq comId : Nat) (data : Bytes) : Bytes :=
  let b := toLe 2 1 ++ toLe 1 failed ++ toLe 1 (if key.isEmpty then 0xFF else slot) ++ toLe 2 srcId ++ toLe 2 dataset
    ++ toLe 2 epoch ++ toLe 2 data.length ++ toLe 4 seq ++ data
  pdHeader seq comId (24 + data.length) ++ b ++ (if key.isEmpty then List.replicate 8 0 else (hmac key b).take 8)

/-- The key of a slot, empty when it holds none. -/
def trainKey (s : State) (slot : Nat) : Bytes := tget [] s.onyx.train slot

/-! ### Publishing (R393 to R397) -/

/-- The unit publishes its datasets (R394). -/
def publishes (c : Core) : Bool :=
  match c.sys.mode with
  | .service | .workshop | .lockout => !c.sys.txOff
  | .shadow => c.twin.synced && !c.twin.silent && !c.sys.txOff
  | _ => false

/-- DOOR_STATUS (R393). -/
def doorStatus (c : Core) : Bytes :=
  let bit (k : Nat) : Nat := natBy 12 fun p => (chAt c p).cv.getLsbD k
  let car (k : Nat) : Nat := b2n ((chAt c 12).cv.getLsbD k)
  statusWords c ++ toLe 2 (bit 104) ++ toLe 2 (bit 105) ++ toLe 2 (bit 106) ++ toLe 1 (car 104 + 2 * car 105 + 4 * car 106)
    ++ toLe 1 c.seq.carFlags.toNat

/-- The datasets due in the running tick, the one before the next TICK (R396). -/
def publishDue (c : Core) : Core :=
  if !publishes c then c
  else
    let m := cfgOf c
    let l := (pubsOf m).filterMap fun e =>
      let cyc := tlN m (pubE e + 10) 2
      let off := tlN m (pubE e + 12) 2
      if cyc ≠ 0 && (c.tb.tick - 1) % cyc = off then some (e, (c.tb.tick - 1 - off) / cyc % 2 ^ 32, doorStatus c) else none
    { c with train.due := c.train.due ++ l }

/-- A unicast address. -/
def unicast (ip : Nat) : Bool := ip / 2 ^ 28 != 14
/-- An address on the link of a port (R386). -/
def onLink (m : Image) (p ip : Nat) : Bool :=
  let k := 32 - tlN m (8 + p) 1
  tlIp m (4 * p) / 2 ^ k == ip / 2 ^ k

/-- VID of a port, 0 for untagged (R386, R388). -/
def tlVid (m : Image) (p : Nat) : Nat := tlN m (10 + 2 * p) 2

/-- One telegram leaves on one port, if the link is up and the destination is resolved; for another one on the link the port
asks by ARP (R386). -/
def sendOn (p comId dest pcp : Nat) (b : Bytes) (c : Core) : Core :=
  if !(portAt c p).linkUp then c
  else if !unicast dest || ((portAt c p).arp.contains dest && onLink (cfgOf c) p dest) then
    emit (.telegram p (tlVid (cfgOf c) p) comId dest pcp b) (tlCount p 4 c)
  else tlCount p 32 (if onLink (cfgOf c) p dest then emit (.arp p (tlVid (cfgOf c) p) dest) (tlCount p 4 c) else c)

/-- A due dataset leaves on its ports. -/
def sendDue (s : State) (e : Nat × Nat × Bytes) : State :=
  let c := s.core
  let m := cfgOf c
  let o := pubE e.1
  let slot := tlN m (o + 15) 1
  let b := telegram (trainKey s slot) slot 0 (tlN m 14 2) (tlN m (o + 8) 2) c.nv.epoch.toNat e.2.1 (tlN m o 4) e.2.2
  { s with core := (List.range 2).foldl (fun c p =>
      if bitOf (tlN m (o + 17) 1) p then sendOn p (tlN m o 4) (tlIp m (o + 4)) (tlN m (o + 16) 1) b c else c) c }

/-- TELEGRAM_PUBLISH (R396): every due dataset leaves, in ascending DATASET_ID. -/
def execTelegramPublish (s : State) : Host.Outcome State Fault Refusal :=
  .next (if s.core.sys.inReset then s
    else
      let l := s.core.train.due
      let s := { s with core := { s.core with train.due := [] } }
      if publishes s.core then l.foldl sendDue s else s)

/-- The unit-failed telegram (R397). -/
def unitFailed (s : State) : State :=
  let c := s.core
  let m := cfgOf c
  let slot := tlN m 28 1
  let data := toLe 8 Config.serial.toNat ++ toLe 1 (modeCode c.sys.mode) ++ toLe 1 c.sys.cause ++ toLe 1 (unitId c) ++ [0]
    ++ toLe 8 (stampOf c)
  let b := telegram (trainKey s slot) slot 1 (tlN m 14 2) (0xFFFE + unitId c) c.nv.epoch.toNat (c.nv.opMs / 1000) (tlN m 20 4) data
  let c := { c with train.ufMs := c.train.ufMs - 1000 }
  { s with core := (List.range 2).foldl (fun c p => sendOn p (tlN m 20 4) (tlIp m 24) (tlN m 29 1) b c) c }

/-- UNIT_FAILED_TELEGRAM (R397): every 1 000 ms in SAFE_TALK. -/
def execUnitFailedTelegram (s : State) : Host.Outcome State Fault Refusal :=
  .next (if s.core.sys.mode = .safeTalk && !s.core.sys.inReset && !s.core.sys.txOff && 1000 ≤ s.core.train.ufMs && tlN (cfgOf s.core) 20 4 ≠ 0 then
      unitFailed s else s)

/-! ### Reception (R386, R398 to R401) -/

/-- The ports are served in a mode (R51, R52, R394), until a flush stops transmission (R66, R68). -/
def trainOn (c : Core) : Bool :=
  !c.sys.inReset && !c.sys.txOff && c.sys.mode != .selftest && c.sys.mode != .parked

/-- The used subscription with a comId. -/
def subFor (m : Image) (comId : Nat) : Option Nat :=
  if comId = 0 then none else (List.range 48).find? fun s => tlN m (subE s) 4 == comId

/-- The tag of a frame suits the port's VID (R386). -/
def vidOk (m : Image) (p : Nat) (vid : Option Nat) : Bool :=
  let v := tlVid m p
  match vid with
  | none => v == 0 || bitOf (tlN m 19 1) 0
  | some x => v != 0 && x == v

/-- The multicast MAC address of an IPv4 group (PRESUMED: RFC 1112, log 11). -/
def groupMac (ip : Nat) : BitVec 48 := BitVec.ofNat 48 (0x01005E000000 + ip % 2 ^ 23)

/-- The GROUPs of the used subscriptions (R390). -/
def groupsOf (m : Image) : List Nat :=
  (((List.range 48).filter fun s => tlN m (subE s) 4 ≠ 0).map fun s => tlIp m (subE s + 20)).filter (· ≠ 0)

/-- The MAC filter of a port (R386): its own address, broadcast, and the subscribed groups. -/
def macOk (m : Image) (p : Nat) (mac : BitVec 48) : Bool :=
  mac == Config.mac p || mac == 0xFFFFFFFFFFFF || (groupsOf m).any fun g => groupMac g == mac

/-- The IPv4 addresses that a port receives on: its own and the subscribed groups (R386, R390). -/
def ipOk (m : Image) (p ip : Nat) : Bool := ip == tlIp m (4 * p) || (groupsOf m).contains ip

/-- A frame for the normal queue: storm control, then the queue's depth, then what becomes of it (R399). -/
def normalIn (p : Nat) (f : Core → Core) (c : Core) : Core :=
  let x := portAt c p
  if tlN (cfgOf c) 18 1 * 1000 < x.spent + 1000 then tlCount p 8 c
  else
    let c := modPort p (fun x => { x with spent := x.spent + 1000 }) c
    if 16 ≤ x.norm.length then tlCount p 12 c else f c

/-- A frame into the normal queue (R399). -/
def normalFrame (p : Nat) (f : TrainFrame) (c : Core) : Core :=
  normalIn p (modPort p fun x => { x with norm := x.norm ++ [f] }) c

/-- A frame into the priority queue (R399). -/
def priorityFrame (p s : Nat) (f : TrainFrame) (c : Core) : Core :=
  if (subAt c s).budget = 0 then tlCount p 8 c
  else
    let c := modSub s (fun x => { x with budget := x.budget - 1 }) c
    if 32 ≤ (portAt c p).prio.length then tlCount p 12 c else modPort p (fun x => { x with prio := x.prio ++ [f] }) c

/-- A frame uses only supported features: also its tag, and in process data msgType 'Pd' (R386). -/
def frameOk (m : Image) (p : Nat) (f : TrainFrame) : Bool :=
  f.supported && vidOk m p f.vid && (!f.udpPd || beNat (slice f.payload 6 2) == 0x5064)

/-- A frame from a PHY (R386, R399). -/
def receiveFrame (p : Nat) (f : TrainFrame) (c : Core) : Core :=
  let m := cfgOf c
  if !trainOn c || !(portAt c p).linkUp || !macOk m p f.dstMac then c
  else
    let c := tlCount p 0 c
    if !frameOk m p f then tlCount p 16 c
    else match (if f.udpPd && ipOk m p f.dstIp && c.sys.mode != .safeTalk then subFor m (beNat (slice f.payload 8 4)) else none) with
      | some s => priorityFrame p s f c
      | none => normalFrame p f c

/-- TRAIN_FRAME_RECEIVED (R399). -/
def execTrainFrameReceived (port : Fin 2) (f : TrainFrame) (s : State) : Host.Outcome State Fault Refusal :=
  .next { s with core := receiveFrame port f s.core }

/-- The verdict of a window (R398): accept and the window after it, stale, or duplicate. -/
inductive WinResult where
  | accept (w : SubSt)
  | stale
  | duplicate
  deriving DecidableEq, Repr

/-- The duplicate discard (R398). -/
def window (w : SubSt) (epoch : U16) (seq : U32) : WinResult :=
  if w.empty || epochLower w.wEpoch epoch then .accept { w with empty := false, wEpoch := epoch, high := seq, seen := [seq] }
  else if epochLower epoch w.wEpoch then .stale
  else
    let d := (seq - w.high).toNat
    if 1 ≤ d && d < 2147483648 then
      .accept { w with high := seq, seen := (w.seen.filter fun s => (seq - s).toNat ≤ 31) ++ [seq] }
    else if (w.high - seq).toNat ≤ 31 && !w.seen.contains seq then .accept { w with seen := w.seen ++ [seq] }
    else .duplicate

/-- PD header as reception checks it, SDL_VERSION, and a length that the data fit in (R387, R400). -/
def pdOk (b : Bytes) : Bool :=
  let f (o n : Nat) : Nat := beNat (slice b o n)
  let n := field b 50 2
  64 ≤ b.length && field b 36 4 == crc32 (slice b 0 36) && f 6 2 == 0x5064 && f 4 1 == 1 && field b 40 2 == 1
    && n ≤ 1408 && 64 + n ≤ b.length

/-- The entry's values (R400). -/
def entryOk (m : Image) (s : Nat) (f : TrainFrame) : Bool :=
  let o := subE s
  let b := f.payload
  (tlIp m (o + 4) == 0 || tlIp m (o + 4) == f.srcIp) && tlN m (o + 8) 2 == field b 44 2 && tlN m (o + 10) 2 == field b 46 2
    && tlN m (o + 16) 1 == byteAt b 43 && decide (field b 50 2 ≤ tlN m (o + 14) 2)

/-- A telegram is accepted (R400, R401). -/
def acceptTelegram (s : Nat) (w : SubSt) (b : Bytes) (c : Core) : Core :=
  let was := (subAt c s).state
  let n := field b 50 2
  let c := modSub s (fun _ => { w with
    state := 2, epoch := BitVec.ofNat 16 (field b 48 2), seq := BitVec.ofNat 32 (field b 52 4)
    stamp := BitVec.ofNat 64 (stampOf c), data := slice b 56 n, accepted := w.accepted + 1, age := 0 })
    { c with seq.due := c.seq.due.filter (· != Due.subTimeout s) }
  if was = 3 then event 0x0A1 0x0C [s] c else c

/-- One telegram of the priority queue through the checks of R400. -/
def verify (p : Nat) (f : TrainFrame) (s : State) : State :=
  let c := s.core
  let m := cfgOf c
  let b := f.payload
  match subFor m (beNat (slice b 8 4)) with
  | none => s
  | some k =>
    if !pdOk b || !entryOk m k f then { s with core := tlCount p 16 c }
    else
      let key := trainKey s (byteAt b 43)
      let n := field b 50 2
      if key.isEmpty then s
      else if slice b (56 + n) 8 ≠ (hmac key (slice b 40 (16 + n))).take 8 then { s with core := tlCount p 20 c }
      else match window (subAt c k) (BitVec.ofNat 16 (field b 48 2)) (BitVec.ofNat 32 (field b 52 4)) with
        | .accept w => { s with core := acceptTelegram k w b c }
        | .stale => { s with core := tlCount p 24 c }
        | .duplicate => { s with core := tlCount p 28 c }

/-- The verifier serves one frame: the priority queues first, port 0 before port 1; a frame of a normal queue that no
other step answers is dropped (R399). -/
def serveQueues (s : State) : State :=
  let take (p : Nat) : Option (TrainFrame × State) := match (portAt s.core p).prio with
    | f :: r => some (f, { s with core := modPort p (fun x => { x with prio := r }) s.core })
    | [] => none
  match take 0, take 1 with
  | some (f, s'), _ => verify 0 f s'
  | none, some (f, s') => verify 1 f s'
  | none, none =>
    { s with core :=
      if (portAt s.core 0).norm.isEmpty then modPort 1 (fun x => { x with norm := x.norm.drop 1 }) s.core
      else modPort 0 (fun x => { x with norm := x.norm.drop 1 }) s.core }

/-- TELEGRAM_VERIFY (R400). -/
def execTelegramVerify (s : State) : Host.Outcome State Fault Refusal :=
  .next (if trainOn s.core && s.core.sys.mode != .safeTalk then serveQueues s else s)

/-- A subscription times out (R401). -/
def takeSubTimeout (s : Nat) (c : Core) : Core :=
  event 0x0A0 0x0C [s] (modSub s (fun x => { x with state := 3 }) c)

/-- TRAIN_SUB_TIMEOUT (R401). -/
def execTrainSubTimeout (sub : Fin 48) (s : State) : Host.Outcome State Fault Refusal :=
  .next (if s.core.seq.due.contains (.subTimeout sub) then
      { s with core := takeSubTimeout sub { s.core with seq.due := s.core.seq.due.erase (.subTimeout sub) } }
    else s)

/-- One millisecond of the ports: buckets, budgets, ages, and the time of the unit-failed telegram (R386, R397, R399,
R401). -/
def trainMs (c : Core) : Core :=
  let m := cfgOf c
  let sec := decide (c.train.ms = 999)
  let c := (List.range 2).foldl (fun c p => modPort p (fun x =>
    { x with spent := x.spent - tlN m 16 2, icmp := if sec then 10 else x.icmp }) c) c
  let c := { c with
    train.ms := if sec then 0 else c.train.ms + 1
    train.ufMs := if c.sys.mode = .safeTalk then c.train.ufMs + 1 else 0 }
  if c.sys.mode = .safeTalk then c
  else (List.range 48).foldl (fun c s =>
    if tlN m (subE s) 4 = 0 then c
    else
      let x := subAt c s
      let n := x.age + 1
      let lim := tlN m (subE s + 12) 2
      let c := modSub s (fun x => { x with age := min n 10001, budget := if sec then 400 else x.budget }) c
      if n = lim && x.state ≠ 3 then { c with seq.due := c.seq.due ++ [.subTimeout s] } else c) c

/-! ### ARP, ICMP and the PHY (R386) -/

/-- A frame that passes the MAC filter and that the normal queue answers: counted, its tag checked, and under storm control (R386,
R399). -/
def answered (p : Nat) (vid : Option Nat) (f : Core → Core) (c : Core) : Core :=
  if !trainOn c || !(portAt c p).linkUp then c
  else
    let m := cfgOf c
    let c := tlCount p 0 c
    if vidOk m p vid then normalIn p f c else tlCount p 16 c

/-- A port with an image answers an ARP request for its own address. -/
def arpReply (p ip asker : Nat) (c : Core) : Core :=
  if c.run.cfg.isSome && ip == tlIp (cfgOf c) (4 * p) then emit (.arp p (tlVid (cfgOf c) p) asker) (tlCount p 4 c) else c

/-- ARP_REQUEST: the port answers for its own address. -/
def execArpRequest (port : Fin 2) (ip : Nat) (asker : TrainPeer) (s : State) : Host.Outcome State Fault Refusal :=
  .next { s with core := answered port asker.vid (arpReply port ip asker.ip) s.core }

/-- Unicast destinations that a port sends to, at most 64. -/
def destsOf (m : Image) (p : Nat) : List Nat :=
  let l := ((pubsOf m).filter fun e => bitOf (tlN m (pubE e + 17) 1) p).map fun e => tlIp m (pubE e + 4)
  let l := if tlN m 20 4 = 0 then l else l ++ [tlIp m 24]
  (l.filter fun d => unicast d && onLink m p d).eraseDups

/-- ARP_REFRESH: the port asks for its destinations and keeps those that answered. -/
def arpRefresh (p : Nat) (answers : List Nat) (c : Core) : Core :=
  let l := destsOf (cfgOf c) p
  let c := l.foldl (fun c d => emit (.arp p (tlVid (cfgOf c) p) d) (tlCount p 4 c)) c
  modPort p (fun x => { x with arp := l.filter answers.contains }) c

/-- ARP_REFRESH (R386). -/
def execArpRefresh (port : Fin 2) (answers : List Nat) (s : State) : Host.Outcome State Fault Refusal :=
  .next (if trainOn s.core && (portAt s.core port).linkUp && s.core.run.cfg.isSome then
      { s with core := arpRefresh port answers s.core } else s)

/-- A port with an image answers an echo request to its own address from an address on its link, at most 10 in a second. -/
def echoBack (p src dst : Nat) (data : Bytes) (c : Core) : Core :=
  let m := cfgOf c
  if c.run.cfg.isSome && dst == tlIp m (4 * p) && onLink m p src && (portAt c p).icmp != 0 then
    emit (.echoReply p (tlVid m p) src data) (tlCount p 4 (modPort p (fun x => { x with icmp := x.icmp - 1 }) c))
  else c

/-- ICMP_ECHO (R386). -/
def execIcmpEcho (port : Fin 2) (src : TrainPeer) (data : EchoData) (s : State) : Host.Outcome State Fault Refusal :=
  .next { s with core := answered port src.vid (echoBack port src.ip data.dst data.data) s.core }

/-- PHY_LINK_CHANGE (R386); in PARKED the PHYs are powered down (R394). -/
def execPhyLinkChange (port : Fin 2) (up duplex : Bool) (s : State) : Host.Outcome State Fault Refusal :=
  .next (if s.core.sys.inReset || s.core.sys.mode = .parked then s
    else { s with core := modPort port (fun x => { x with linkUp := up, duplex := up && duplex }) s.core })

/-! ### DIAG_READ item 0x07 (R402) -/

/-- A port block. -/
def diagPort (c : Core) (p : Nat) : Bytes :=
  let x := portAt c p
  ((List.range 9).map fun i => toLe 4 (tget 0 x.counters (4 * i)).toNat).flatten ++ toBe 6 (Config.mac p).toNat
    ++ toLe 1 (b2n x.linkUp + 2 * b2n x.duplex) ++ List.replicate 21 0

/-- A subscription block. -/
def diagSub (s : State) (k : Nat) : Bytes :=
  let m := cfgOf s.core
  let x := subAt s.core k
  let st := if tlN m (subE k) 4 = 0 then 0
    else if (trainKey s (tlN m (subE k + 16) 1)).isEmpty then 4
    else if x.state = 0 then 1 else x.state
  toLe 1 st ++ [0] ++ toLe 2 x.epoch.toNat ++ toLe 4 x.seq.toNat ++ toLe 8 x.stamp.toNat ++ toLe 2 x.data.length ++ [0, 0]
    ++ toLe 4 x.accepted.toNat ++ List.replicate 8 0 ++ padTo 1408 x.data

/-- Item 0x07. -/
def diagTrain (s : State) : Bytes :=
  diagPort s.core 0 ++ diagPort s.core 1 ++ ((List.range 48).map (diagSub s)).flatten

end Sys2Proof.Machine
end

