-- ==== Sys2Proof/Machine/Roles.lean ====
section
/-! DEFINITION. The role manager (R355 to R364, R375, R376, R380 to R382): synchronised and UNSYNCED, claims and their
ranks, takeover, yield, the conflict in WORKSHOP, and the planned swap. -/

namespace Sys2Proof.Machine

/-! ### Host flags and carried operations of a unit whose role changes -/

/-- Host flags as the last snapshot has them; without one they stay (R126, R376). -/
def snapFlags (c : Core) : Core :=
  match c.twin.lastSnap with
  | some m => { c with seq.channels := (List.range 13).foldl (fun t n =>
      tmod {} t n fun h => { h with hf := (tget {} m.channels n).hf }) c.seq.channels }
  | none => c

/-- What the standby executed for its active is dropped with the pairing: no operation is in flight on the unit (R126). -/
def dropCarried (c : Core) : Core :=
  forgetEnded { c with
    host.slots := c.host.slots.filter fun e => decide (e.1 < 512)
    seq.clearReq := c.seq.clearReq.filter fun r => decide (r.slot < 512) }

/-! ### UNSYNCED (R355, R375, R376) -/

/-- The unit becomes UNSYNCED with a cause of R375. -/
def unsyncNow (cause : Nat) (c : Core) : Core :=
  let c := event 0x094 0x0B [cause] c
  dropCarried (snapFlags { c with
    twin.synced := false
    twin.cause := cause
    twin.entries := satAdd 65535 c.twin.entries 1
    twin.quiet := 0
    twin.resync := 0
    twin.badSnaps := 0
    twin.silent := false })

/-- A cause of R375 arises in a standby; one that is UNSYNCED already starts its waiting time again (R377, R378). -/
def unsyncCause (cause : Nat) (c : Core) : Core :=
  if c.sys.mode != .shadow then c
  else if c.twin.synced then unsyncNow cause c
  else { c with twin.quiet := 0, twin.resync := 0 }

/-- The unit enters SHADOW, UNSYNCED with a cause (R360, R361). -/
def enterUnsynced (cause : Nat) (c : Core) : Core := unsyncNow cause { c with twin.synced := true }

/-- A bad snapshot (R373): every link is muted and the train line is silent until a good one; the third in a row is
SNAPSHOT_BAD. -/
def badSnapshot (c : Core) : Core :=
  let c := { c with twin.counters := tmod 0 c.twin.counters 12 (· + 1), twin.badSnaps := c.twin.badSnaps + 1, twin.silent := true }
  let c := ((List.range 36).filter (axisConf (cfgOf c))).foldl (fun c x => muteLink x c) c
  if 3 ≤ c.twin.badSnaps then unsyncCause 3 { c with twin.badSnaps := 0 } else c

/-- A snapshot that has not come by the TICK after its FRAME is bad (R373). -/
def snapshotMissing (c : Core) : Core :=
  match c.twin.image with
  | some m =>
    if m.tick < c.tb.tick then
      let c := { c with twin.image := none, twin.snapBad := false }
      if standbyIn c then badSnapshot c else c
    else c
  | none => c

/-- A page that the active's input frame shows as ready has not arrived (R194). -/
def pageMissing (c : Core) : Bool :=
  standbyIn c && (c.twin.input.any fun e => e.1 == c.tb.tick && (List.range 12).any fun n =>
    (tget 0 e.2.cv n).getLsbD 120 && (match (chAt c n).camTable with
      | some t => (pageOf c t).isNone
      | none => false))

/-- The page-ins that have failed as the tick's vectors show them (R148, R191): a standby learns of them from its active's input
frame (R194). -/
def camFaults (c : Core) : Core :=
  if !standbyIn c then camVerdicts c
  else match c.twin.input with
  | some (_, f) => (List.range 12).foldl (fun c p =>
      match (chAt c p).camTable with
      | some id => if (tget 0 f.cv p).getLsbD 121 then
          camRefuse p id { c with cam.queue := c.cam.queue.filter fun e => e.1 != id } else c
      | none => c) c
  | none => c

/-- PAGE_SYNC (R194, R375); a unit that pages for itself takes up the requests that have waited (R188, R194). -/
def pageSync (c : Core) : Core :=
  if pageMissing c then unsyncCause 5 c
  else if standbyIn c then c
  else pagerRun c

/-- LINK_LOST (R375): no valid message for 1 ms, that is 8 ticks. It ends a resynchronisation, and the 10 ms of R377 begin
after it (R378). -/
def linkLost (c : Core) : Core := if 8 ≤ c.twin.age then unsyncCause 1 c else c

/-- LINK_LOST (R375). -/
def execLinkLost (s : State) : Host.Outcome State Fault Refusal :=
  .next (if s.core.sys.inReset then s else { s with core := linkLost s.core })

/-- HASH_DIVERGE (R375), where its condition has been met. -/
def execHashDiverge (s : State) : Host.Outcome State Fault Refusal :=
  .next (if s.core.seq.due.contains .hashDiverge then
      { s with core := unsyncCause 6 { s.core with seq.due := s.core.seq.due.erase .hashDiverge } }
    else s)

/-- HELLO_TIMEOUT (R355): ACTIVE becomes SOLO once the twin's last HELLO as STANDBY is 2 ms old. -/
def execHelloTimeout (s : State) : Host.Outcome State Fault Refusal :=
  .next (if s.core.sys.inReset then s else { s with core := setRole s.core })

/-! ### Claims (R357 to R362) -/

/-- The twin's claim is present on both lines; a role line fault counts it as present (R358, R361). -/
def claimBoth (c : Core) : Bool := (c.crossA.present && c.crossB.present) || c.twin.lineRec

/-- The twin's claim is present on either line (R360). -/
def claimAny (c : Core) : Bool := c.crossA.present || c.crossB.present || c.twin.lineRec

/-- Rank of a claim by its mode (R361). -/
def claimRank (m : Mode) : Nat :=
  match m with
  | .lockout => 3
  | .workshop => 2
  | _ => 1

/-- Rank of the twin's claim: LOCKOUT from the role lines, WORKSHOP from its HELLO. -/
def twinRank (c : Core) : Nat :=
  if c.crossA.lockClaim || c.crossB.lockClaim then 3
  else if c.twin.anyHello < 16 && c.twin.peer.any fun h => h.1.mode == .workshop then 2 else 1

/-- The twin's claim is there and ranks higher (R361). -/
def outranked (c : Core) : Bool :=
  paired c && claimBoth c &&
    (decide (claimRank c.sys.mode < twinRank c) || (claimRank c.sys.mode == twinRank c && unitId c == 1))

/-- The conditions of a takeover (R362). -/
def takeoverReady (c : Core) : Bool :=
  c.sys.mode == .shadow && paired c && c.crossA.lost && c.crossB.lost && (decide (8 ≤ c.twin.age) || c.twin.gone)

/-- Either island measures a speed above V_ZERO in the portal (R44, R381). -/
def movesAt (c : Core) (p : Nat) : Bool := pbit c.crossA.moving p || pbit c.crossB.moving p

/-- Both islands have removed torque from the portal. -/
def torqueGone (c : Core) (p : Nat) : Bool := pbit c.crossA.removed p && pbit c.crossB.removed p

/-- An axis is OFF with zero duty (R196). -/
def axisOff (x : Nat) (c : Core) : Core :=
  modAx x (fun a => { a with st := .off, dutyU := 32768, dutyV := 32768, dutyW := 32768 }) c

/-- Every named axis of a portal is OFF, and its master rests. -/
def portalOff (p : Nat) (c : Core) : Core :=
  modMs p (fun m => { m with run := false, vel := 0, acc := 0, live := false, waiting := none, granted := none })
    ((portalAxes (cfgOf c) p).foldl (fun c x => axisOff x c) c)

/-! ### Takeover (R362, R380, R381) -/

/-- The braking of an axis from its measured position and speed (R381). -/
def coastMaster (c : Core) (x : Nat) : MasterSt :=
  let v := vMeas (axAt c x)
  let sp : Int := v.natAbs * 2 ^ 24
  let m : MasterSt := {
    run := true, kind := .manual, entry := 2, mEnd := 2 ^ 64, manAxis := x, manDir := if v < 0 then -1 else 1
    manFrom := posNow c x, vel := sp }
  { replan (planBrake sp 0 (dStop (cfgOf c) (x / 3) * 2 ^ 32) (jStop (cfgOf c) (x / 3) * 2 ^ 32)) m with braking := .decStop }

/-- The setpoints of a braking axis. -/
def coastSp (x : Nat) (m : MasterSt) (c : Core) : Core :=
  putSp c m x (manualSp m m.m) (manualSp m m.mN) (m.manDir * roundDiv m.vel (2 ^ 24)) (m.manDir * roundDiv m.velN (2 ^ 24))

/-- A portal in motion at the takeover of an UNSYNCED standby: a controlled safe stop, its axes to ON through CLEARING, and
each axis on its braking (R381). -/
def coastPortal (p : Nat) (c : Core) : Core :=
  let c := { c with
    seq.safeStop := setBit c.seq.safeStop p true
    seq.coast := setBit c.seq.coast p true
    seq.masters := tset {} c.seq.masters p {} }
  let c := modCh p (fun h => { h with queued := [] }) c
  (portalAxes (cfgOf c) p).foldl (fun c x =>
    let m := predict (coastMaster c x)
    coastSp x m (modAx x (fun a => { a with st := .clearing, hallOn := none })
      { c with seq.coastAx := tset {} c.seq.coastAx x m })) c

/-- Any other channel at that takeover: its axes OFF, and state 0 at the next tick. -/
def restartChannel (n : Nat) (c : Core) : Core :=
  let c := modCh n (fun h => { h with queued := [] }) { c with seq.restart := setBit c.seq.restart n true }
  if n < 12 then { portalOff n c with seq.masters := tset {} c.seq.masters n {} } else c

/-- The takeover (R362, R380, R381). -/
def takeOver (cause : Nat) (c : Core) : Core :=
  let was := c.twin.synced
  let c := takeEpoch (changeMode .service cause 0 0 { c with twin.synced := false, twin.resync := 0 })
  let c := dropCarried (snapFlags c)
  let c := { c with twin.lastSnap := none, twin.image := none, twin.relinq := none, twin.silent := false, links := c.links.map fun e =>
    (e.1, { e.2 with muted := false, mutedIn := false, unmute := false }) }
  if was then c
  else (stepping c).foldl (fun c n => if n < 12 && movesAt c n then coastPortal n c else restartChannel n c) c

/-- The stops of a takeover in each tick: an axis brakes; torque removed by both islands sets the axes OFF; with the end of
the stop the channel restarts in state 0 (R381). -/
def coastTick (c : Core) : Core :=
  let c := c.seq.coastAx.foldl (fun c e =>
    let x := e.1
    let m := predict (advance c (x / 3) e.2)
    coastSp x m { c with seq.coastAx := tset {} c.seq.coastAx x m }) c
  (List.range 12).foldl (fun c p =>
    if !pbit c.seq.coast p then c
    else
      let own := c.seq.coastAx.any fun e => e.1 / 3 == p
      if own then
        if torqueGone c p then { portalOff p c with seq.coastAx := c.seq.coastAx.filter fun e => e.1 / 3 != p } else c
      else if pbit c.crossA.stops p || pbit c.crossB.stops p then c
      else { c with seq.coast := setBit c.seq.coast p false, seq.restart := setBit c.seq.restart p true }) c

/-! ### Yield and conflict (R361) -/

/-- A SERVICE unit makes the decision against itself: SHADOW, UNSYNCED with cause YIELD. -/
def yield (c : Core) : Core := enterUnsynced 7 (changeMode .shadow 0x94 0 0 c)

/-- A WORKSHOP unit stops every portal in motion and holds every axis OFF while the claim is present; ROLE_CONFLICT once
per second. -/
def conflictTick (c : Core) : Core :=
  if c.sys.mode == .workshop && outranked c then
    let first := c.twin.conflict = 0
    let c := if c.twin.conflict % 8000 = 0 then event 0x091 0x0B [] c else c
    let go := bitsBy 12 fun p => movesAt c p || (msAt c p).vel != 0
    let c := { c with
      twin.conflict := c.twin.conflict + 1
      twin.confStop := if first then go else c.twin.confStop
      seq.safeStop := if first then c.seq.safeStop ||| go else c.seq.safeStop }
    (List.range 12).foldl (fun c p =>
      if pbit c.twin.confStop p then
        if torqueGone c p then portalOff p { c with twin.confStop := setBit c.twin.confStop p false } else c
      else portalOff p c) c
  else { c with twin.conflict := 0, twin.confStop := 0 }

/-! ### The planned swap (R382) -/

/-- The former active enters SHADOW, synchronised at once, and adopts the new epoch. -/
def swapOut (slot : Nat) (c : Core) : Core :=
  let c := takeEpoch c
  let e := c.nv.epoch
  let c := finish slot 0x00 0 e.toNat 4 { c with twin.swap := none }
  let c := changeMode .shadow 0x93 0 0 { c with twin.synced := true }
  { c with twin.carry := [], twin.carryF := [], twin.badSnaps := 0, twin.resync := 0, twin.quiet := 0, twin.input := none }

/-- The swap is due: on the active when its last claimed tick has passed, on the standby at the tick after the one that
RELINQUISH names. -/
def swapDue (c : Core) : Bool :=
  match c.twin.swap with
  | some (n, _) => n == 0 && c.sys.mode == .service
  | none => c.sys.mode == .shadow && c.twin.synced && c.twin.relinq == some (c.tb.tick - 1) && c.tb.tick != 0

/-- The swap takes place. -/
def swapNow (c : Core) : Core :=
  match c.twin.swap with
  | some (_, k) => swapOut k c
  | none => takeOver 0x93 c

/-- PLANNED_SWAP (R382). -/
def execPlannedSwap (s : State) : Host.Outcome State Fault Refusal :=
  .next (if !s.core.sys.inReset && !resetting s.core && swapDue s.core then { s with core := swapNow s.core } else s)

/-! ### ROLE_REQUEST (R42, R382) -/

/-- The workshop-key pair is active in both islands. -/
def keyActive (c : Core) : Bool := c.crossA.wskey && c.crossB.wskey

/-- ROLE_REQUEST is executed (R42, R115, R382); once a reset has been triggered it is lost with it (R40, R63). -/
def roleDeliver (k : Nat) (d : Bytes) (c : Core) : Core :=
  let wrong := finish k 0x22 (modeCode c.sys.mode) 0 0 c
  if resetting c then c
  else match byteAt d 8 with
  | 1 =>
    let c := if c.sys.mode == .workshop then changeMode .service 0x97 0 0 { c with sys.wsRelease := false } else c
    finish k 0x00 0 c.nv.epoch.toNat (modeCode c.sys.mode) c
  | 2 =>
    if c.sys.mode == .service && keyActive c && !anyMoving c then
      let c := changeMode .workshop 0x95 0 0 c
      finish k 0x00 0 c.nv.epoch.toNat (modeCode c.sys.mode) c
    else wrong
  | _ =>
    if c.sys.mode == .service && standbySynced c then
      { twinSend 0x15 (toLe 8 (c.tb.tick + 7)) c with twin.swap := some (8, k) }
    else wrong

/-- ROLE_REQUEST (R42). -/
def execRoleRequest (slot : Fin 512) (s : State) : Host.Outcome State Fault Refusal :=
  .next { s with core := startOp slot 0x58 (roleDeliver slot) s.core }

end Sys2Proof.Machine
end

