-- ==== Sys2Proof/Machine/Sequencer.lean ====
section
/-! DEFINITION. What one channel does in a tick: conditions, transitions and actions (R129 to R151), the taking of the
core's detections (log 3), the fault manager's tick (R316 to R325), and LOCKOUT_RESET (R329 to R332). -/

namespace Sys2Proof.Machine

/-! ### Detections of the core (log 3) -/

/-- A timer expires (R142): it is the one that was started for this tick. -/
def timerExpires (n k : Nat) (c : Core) : Core :=
  let f (t : TimerSt) : TimerSt := if t.due = some (c.seq.now + 1) then { due := none, exp := true } else t
  modCh n (fun h => { h with timers := tmod {} h.timers k f }) c

/-- TIMER_EXPIRY (R142). -/
def execTimerExpiry (ch : Fin 13) (k : Fin 4) (s : State) : Host.Outcome State Fault Refusal :=
  .next (if s.core.seq.due.contains (.timer ch k) then
      { s with core := timerExpires ch k { s.core with seq.due := s.core.seq.due.erase (.timer ch k) } }
    else s)

/-- The degraded limits of a portal expire: ISOLATE_REQ (R324). -/
def takeDegraded (p : Nat) (c : Core) : Core :=
  { c with nv.degraded := tmod {} c.nv.degraded p fun d => { d with isoReq := d.on } }

/-- DEGRADED_EXPIRY (R324). -/
def execDegradedExpiry (p : Fin 12) (s : State) : Host.Outcome State Fault Refusal :=
  .next (if s.core.seq.due.contains (.degraded p) then
      { s with core := takeDegraded p { s.core with seq.due := s.core.seq.due.erase (.degraded p) } }
    else s)

/-- The program has not isolated its portal in ISO_GRACE (R324). -/
def takeIsolateFail (p : Nat) (c : Core) : Core :=
  raise 0x401 p 255 { c with nv.degraded := tmod {} c.nv.degraded p fun d => { d with failed := true } }

/-- ISOLATE_FAIL (R324). -/
def execIsolateFail (p : Fin 12) (s : State) : Host.Outcome State Fault Refusal :=
  .next (if s.core.seq.due.contains (.isolateFail p) then
      { s with core := takeIsolateFail p { s.core with seq.due := s.core.seq.due.erase (.isolateFail p) } }
    else s)

/-- The effect of a detection of the core. -/
def takeDue (d : Due) (c : Core) : Core :=
  match d with
  | .timer n k => timerExpires n k c
  | .overdue p => takeOverdue p c
  | .gather g => takeGather g c
  | .supplyOver i => takeSupplyOver i c
  | .supplyLow p => takeSupplyLow p c
  | .force p x e => takeForce p x e c
  | .energy p e => takeEnergy p e c
  | .drawn p x ms => takeDrawn p x ms c
  | .stall x => modAx x (fun a => { a with stall := true }) c
  | .inPos x => modAx x (fun a => { a with inPos := true }) c
  | .baseline p close => takeBaseline p (b2n close) c
  | .learnAbort p close => takeLearnAbort p (b2n close) c
  | .degraded p => takeDegraded p c
  | .isolateFail p => takeIsolateFail p c
  | .axisFault code x => axisFault code x c
  | .requestTimeout k => timeoutSlot k c
  | .forceEnd u => takeForceEnd u c
  | .hostLost => takeHostLost c
  | .subTimeout s => takeSubTimeout s c
  | .hashDiverge => unsyncCause 6 c

/-- Detections of a FRAME wait for the next FRAME; every other one is taken by the next TICK. -/
def ofFrame : Due → Bool
  | .hostLost | .subTimeout _ => true
  | _ => false

/-- Every detection that is due by the next TICK is taken, oldest first. -/
def settleTick (c : Core) : Core :=
  (c.seq.due.filter fun d => !ofFrame d).foldl (fun c d => takeDue d c) { c with seq.due := c.seq.due.filter ofFrame }

/-- Every detection that is due by the next FRAME is taken, oldest first. -/
def settleFrame (c : Core) : Core :=
  (c.seq.due.filter ofFrame).foldl (fun c d => takeDue d c) { c with seq.due := c.seq.due.filter fun d => !ofFrame d }

/-! ### Conditions (R131, R145) -/

/-- A term of a transition. -/
def termTrue (v : BitVec 128) (t : Nat) : Bool := v.getLsbD (t % 128) != bitOf t 7

/-- The condition of transition `t`. -/
def tranTrue (g : Image) (v : BitVec 128) (t : Nat) : Bool :=
  let o := prTran g t
  let terms := (List.range (img8 g (o + 1))).map fun i => termTrue v (img8 g (o + 4 + i))
  if terms.isEmpty then true else if img8 g (o + 2) = 0 then terms.all id else terms.any id

/-- Transitions of state `s`, in table order. -/
def tranOf (g : Image) (s : Nat) : List Nat :=
  (List.range (img8 g (prState g s + 2))).map fun i => img16 g (prState g s) + i

/-- What a channel does in a tick: its next state, and the actions that it executes (R131, R132, R135). -/
def channelStep (g : Image) (h : ChannelSt) : Nat × List Action :=
  if h.first then (0, prEntry g 0)
  else match (tranOf g h.state).find? (tranTrue g h.cv) with
    | none => (h.state, [])
    | some t =>
      let o := prTran g t
      (img8 g o, prActsFrom g (img16 g (o + 10)) (img8 g (o + 12)) ++ prEntry g (img8 g o))

/-! ### Actions at their tick (R142, R147 to R151) -/

/-- The operation and the lock group of a START_MOVE (R257). -/
def groupAt (c : Core) (p cls : Nat) : Option (Nat × Nat) :=
  if cls = 0 then none
  else (liveSlots c).findSome? fun e =>
    if slotOp e.2 == 0x10 && partOpen e.2 p && byteAt e.2.desc 11 != 255 then some (byteAt e.2.desc 11, e.1) else none

/-- START_MOVE (R148, R150): ignored beside a MANUAL_MOVE, or without a reference for ENTRY 1; else it takes effect
at the next TICK. -/
def actStart (n : Nat) (a : Action) (c : Core) : Core :=
  if manualAt c n then event 0x022 0x03 [n] c
  else if bitsOf a.b 1 0 = 1 && !(chAt c n).cv.getLsbD 61 then event 0x023 0x03 [n] c
  else modCh n (fun h => { h with queued := h.queued ++ [{ a with group := groupAt c n a.arg8 }] }) c

/-- ABORT ends the portal's part of every PORTAL_REQUEST that holds it (R151, R123). -/
def abortPart (p : Nat) (c : Core) : Core :=
  let l := (liveSlots c).filter fun e => slotOp e.2 == 0x10 && partOpen e.2 p
  if l.isEmpty then c else dropFlags p (l.foldl (fun c e => endPart e.1 p 0x42 p c) c)

/-- REPORT (R151, R118). -/
def actReport (n : Nat) (a : Action) (c : Core) : Core :=
  if n = 12 then endCar 0x00 0 a.arg16 c
  else
    let c := if bitOf a.arg8 0 then modCh n (fun h => { h with obstacle := true }) c else c
    let c := if bitOf a.arg8 1 then modCh n (fun h => { h with obstacle := false }) c else c
    if bitOf a.arg8 2 then abortPart n c else c

/-- SET_CAR_FLAG (R147); a flag that both masks name is left open: a free value (log 5). -/
def actCarFlags (a : Action) (c : Core) : Core :=
  let on := BitVec.ofNat 8 a.arg8
  let off := BitVec.ofNat 8 a.arg16
  let v := (c.seq.carFlags ||| on) &&& ~~~off
  if on &&& off = 0 then { c with seq.carFlags := v }
  else { c with seq.carFlags := v ||| (Config.carFlags c.seq.now &&& on &&& off) }

/-- ISOLATE (R325). -/
def actIsolate (n : Nat) (c : Core) : Core :=
  { c with nv.isolated := setBit c.nv.isolated n true, seq.setIso := setBit c.seq.setIso n true }

/-- An action of channel `n` at the tick that executes it; those that act on the data paths wait for the next
TICK (R133). -/
def executeAction (n : Nat) (c : Core) (a : Action) : Core :=
  let k := a.arg8
  match a.op with
  | 0x01 => modCh n (fun h => { h with timers := tset {} h.timers k { due := some (c.seq.now + a.a), exp := false } }) c
  | 0x02 => modCh n (fun h => { h with timers := tset {} h.timers k {} }) c
  | 0x03 => modCh n (fun h => { h with counters := tset {} h.counters k { value := a.arg16, limit := a.a } }) c
  | 0x04 => modCh n (fun h => { h with counters := tmod {} h.counters k fun q => { q with value := satAdd 65535 q.value 1 } }) c
  | 0x11 => actStart n a c
  | 0x30 => eventAt (sevOf c a.arg16) a.arg16 (0x10 + n) [a.a, a.b] c
  | 0x31 => cycleBegin n c
  | 0x32 => cycleRecord n a.arg8 (motionOf c n) c
  | 0x38 => actReport n a c
  | 0x40 => actCarFlags a c
  | 0x41 => { c with seq.park := true }
  | 0x48 => actIsolate n c
  | _ => modCh n (fun h => { h with queued := h.queued ++ [a] }) c

/-- One channel in one tick (R131, R132, R135). -/
def runChannel (n : Nat) (c : Core) : Core :=
  let g := progOf c n
  let r := channelStep g (chAt c n)
  let c := modCh n (fun h => { h with state := r.1, first := false, motion := prMotion g r.1 }) c
  r.2.foldl (executeAction n) c

/-- Channels whose restart is due start again in state 0 (R135, R332, R381). -/
def restartChannels (c : Core) : Core :=
  let r := c.seq.restart
  let c := (List.range 13).foldl (fun c n =>
    if pbit r n then modCh n (fun h => { h with state := 0, first := true, timers := [], counters := [] }) c else c) c
  { c with seq.restart := 0, seq.carFlags := if pbit r 12 then 0 else c.seq.carFlags }

/-! ### Actions at the next TICK (R133, R134) -/

/-- TORQUE_ON (R150, R196, R209): without effect while the torque-enable output is open, or while the claim of a higher-ranked twin holds
every axis OFF (R361). -/
def torqueOn (x : Nat) (c : Core) : Core :=
  if !pbit c.seq.teNext (x / 3) || c.twin.conflict ≠ 0 then c
  else
    let trip := (axAt c x).up.trip ≠ 0
    modLink x (fun l => { l with fault := 0, raised := 0 }) (modAx x (fun a =>
      if trip then { a with st := .clearing, hallOn := none }
      else if a.st = .on then a else { a with st := .on, hallOn := none }) c)

/-- The axes of a mask in a portal. -/
def axesIn (p mask : Nat) : List Nat := ([0, 1, 2].filter (bitOf mask)).map (3 * p + ·)

/-- OUT_SET (R147). -/
def outSet (a : Action) (c : Core) : Core :=
  { c with seq.out := (c.seq.out ||| BitVec.ofNat 144 (a.a * 2 ^ (32 * a.arg8))) &&& ~~~BitVec.ofNat 144 (a.b * 2 ^ (32 * a.arg8)) }

/-- PREFETCH (R147, R187). -/
def prefetch (p table : Nat) (c : Core) : Core :=
  pageRequest table none (modCh p (fun h => { nameTable table h with camPre := some table }) c)

/-- One action other than a move takes effect in a portal channel. -/
def applyAction (p : Nat) (c : Core) (a : Action) : Core :=
  match a.op with
  | 0x10 => prefetch p a.arg16 c
  | 0x13 => (axesIn p a.arg8).foldl (fun c x => torqueOn x c) c
  | 0x14 => (axesIn p a.arg8).foldl (fun c x => axisOff x c) c
  | 0x15 => (axesIn p a.arg8).foldl (fun c x => modAx x (fun y => { y with refWait := true }) c) c
  | 0x16 => { c with seq.safeStop := setBit c.seq.safeStop p true }
  | 0x20 => outSet a c
  | 0x21 => setForce p a.arg8 a.arg16 c
  | _ => c

/-- The actions of a portal channel in execution order; a START_MOVE beside a STOP_MOVE (`stop`) or before another one has no
effect (R134). -/
def applyInOrder (p : Nat) (stop : Bool) : List Action → Core → Core
  | [], c => c
  | a :: r, c => applyInOrder p stop r
      (if a.op = 0x11 then (if stop || r.any (fun b => b.op == 0x11) then c else startMove p a c) else applyAction p c a)

/-- The actions of a portal channel take effect (R133, R134): a STOP_MOVE prevails over every START_MOVE, on the steepest
of the ramps; else the last START_MOVE counts. -/
def applyActions (p : Nat) (c : Core) : Core :=
  let l := (chAt c p).queued
  let stops := l.filter fun a => a.op == 0x12
  let c := applyInOrder p (!stops.isEmpty) l (modCh p (fun h => { h with queued := [] }) c)
  if stops.isEmpty then c else stopMove p (if stops.any fun a => a.arg8 == 2 then 2 else 1) c

/-- The actions of the car channel take effect. -/
def applyCar (c : Core) : Core :=
  (chAt c 12).queued.foldl (fun c a => if a.op = 0x20 then outSet a c else c) (modCh 12 (fun h => { h with queued := [] }) c)

/-! ### Operations that wait for portals (R116, R117, R124) -/

/-- Targets of PORTAL_REQUEST (R116). -/
def targetOf (req : Nat) : Nat :=
  match req with
  | 1 => 5
  | 2 => 1
  | 3 => 2
  | _ => 10

/-- Motion codes of a portal at rest (R117). -/
def restCode (m : Nat) : Bool := m == 5 || m == 1 || m == 2 || m == 10 || m == 9 || m == 0

/-- The parts of an operation that the tick's motion codes end. -/
def partsReached (c : Core) (e : Nat × SlotSt) : Core :=
  let open_ := (List.range 12).filter (partOpen e.2)
  if slotOp e.2 = 0x10 then
    if e.2.visible < c.seq.now then
      open_.foldl (fun c p =>
        if motionOf c p = targetOf (byteAt e.2.desc 10) then dropFlags p (reachPart e.1 p c) else c) c
    else c
  else if slotOp e.2 = 0x11 then
    if e.2.visible ≤ c.seq.now && open_.all fun p => restCode (motionOf c p) then open_.foldl (fun c p => reachPart e.1 p c) c
    else c
  else c

/-- A TIMEOUT that has run is due (R115). -/
def timeoutsDue (c : Core) : Core :=
  (liveSlots c).foldl (fun c e =>
    if e.2.deadline.any (fun t => decide (t ≤ c.seq.now)) && !c.seq.due.contains (.requestTimeout e.1) then
      { c with seq.due := c.seq.due ++ [.requestTimeout e.1] } else c) c

/-- A slot whose portals were LOCKED_OUT or ISOLATED at its acceptance remembers those that still are. -/
def keepBlocked (c : Core) : Core :=
  (liveSlots c).foldl (fun c e => setSlot e.1 (some { e.2 with blocked := e.2.blocked &&& blockedPortals c }) c) c

/-- A portal is LOCKED_OUT or ISOLATED: what addresses it ends (R124). A PORTAL_STOP ends where the portal has become so since its
acceptance; one that came to such a portal goes on (R111, R320, log 14). -/
def lockedParts (c : Core) : Core :=
  let c := keepBlocked c
  forgetEnded ((List.range 12).foldl (fun c p =>
    if !lockedOut c p && !isolatedAt c p then c
    else
      let l := liveSlots c
      let held := l.any fun e => slotOp e.2 == 0x10 && partOpen e.2 p
      let c := l.foldl (fun c e =>
        match slotOp e.2 with
        | 0x10 => endPart e.1 p 0x23 p c
        | 0x11 => if pbit e.2.blocked p then c else endPart e.1 p 0x23 p c
        | 0x38 => if byteAt e.2.desc 8 / 3 = p && e.2.started then endAll e.1 0x23 p c else c
        | 0x40 => if byteAt e.2.desc 8 = p && e.2.started then endAll e.1 0x23 p c else c
        | _ => c) c
      if held then dropFlags p c else c) c)

/-- A safety stop of a portal ends the parts that address it (R124). -/
def safetyStops (p : Nat) (c : Core) : Core :=
  let l := (liveSlots c).filter fun e => (slotOp e.2 == 0x10 || slotOp e.2 == 0x11) && partOpen e.2 p
  if l.isEmpty then c else dropFlags p (l.foldl (fun c e => endPart e.1 p 0x41 0x02 c) c)

/-! ### The fault manager (R315 to R325) -/

/-- The portals that map or use a UIO (R317). -/
def wirePortals (c : Core) (u : Nat) : List Nat :=
  let m := cfgOf c
  (List.range 12).filter fun p => (List.range 32).any (fun j => inUio m p j == u) || (List.range 8).any fun i => sourceOf m p i == u

/-- WIRE_OPEN: a UIO in use enters the open-wire band (R317); the fault applies in the same tick (R316). -/
def wireTick (c : Core) : Core :=
  if !stepsIn c.sys.mode then c
  else (List.range 144).foldl (fun c u =>
    let on := match c.fld.frame with
      | some f => stateIn f u == 2
      | none => false
    let was := tbit c.fld.wire u
    let c := { c with fld.wire := tset false c.fld.wire u on }
    if on && !was then
      match wirePortals c u with
      | [] => if (List.range 32).any fun j => inUio (cfgOf c) 12 j == u then raise 0x301 255 u c else c
      | ps => ps.foldl (fun c p => raise 0x301 p u c) c
    else c) c

/-- The faults that reach the fault manager by a TICK (R316). In a synchronised standby its own detections are recorded
and only those of class LOCKOUT apply, beside the active's (R361, R371); an ACTIVE unit carries its faults (R369). -/
def faultTick (c : Core) : Core :=
  let l := c.seq.faultQ
  let c := { c with seq.faultQ := [] }
  if standbyIn c then
    let c := l.foldl (fun c f => let c := recordFault f c; if faultClass f = .lockout then applyClass f c else c) c
    match c.twin.input with
    | some (_, f) => f.faults.foldl (fun c f => if faultClass f = .lockout then c else applyClass f c) c
    | none => c
  else
    let c := { c with twin.carryF := l.take 16 }
    l.foldl (fun c f => applyFault f c) c

/-- The degraded limits of a portal (R324). -/
def degradedTick (p : Nat) (c : Core) : Core :=
  let m := cfgOf c
  let d := tget {} c.nv.degraded p
  let above := decide (60000 * img16 m secFault ≤ d.ms) || decide (img16 m (secFault + 2) ≤ d.cycles)
  let late := d.isoReq && !isolatedAt c p && !d.failed && decide (1000 * img16 m (secFault + 4) ≤ d.isoMs)
  let c := if d.on && !d.isoReq && above && !isolatedAt c p then { c with seq.due := c.seq.due ++ [.degraded p] } else c
  if d.on && late then { c with seq.due := c.seq.due ++ [.isolateFail p] } else c

/-! ### LOCKOUT_RESET (R329 to R332) -/

/-- A named portal makes the operation fail with DETAIL 8 or 10 (R330). -/
def clearBad (c : Core) (pm im : Nat) : Option Nat :=
  let m := imgPart (cfgOf c) secSafe 2240
  let named := (List.range 12).filter fun p => bitOf pm p || bitOf im p
  if named.any fun p => !chanConf c p || movingCode (motionOf c p) || manualAt c p then some 8
  else if ((List.range 12).filter (bitOf im)).any fun p =>
      (portalAxes (cfgOf c) p).any (fun x => (linkAt c x).fault != 0) ||
        (pairsOf m).any fun q => (pairPortals c q).contains p && (c.crossA.faulted.getLsbD q || c.crossB.faulted.getLsbD q) then some 10
  else none

/-- LOCKOUT_RESET is delivered (R330). -/
def clearDeliver (k : Nat) (d : Bytes) (c : Core) : Core :=
  let pm := field d 8 2
  let im := field d 10 2
  match clearBad c pm im with
  | some e => finish k 0x12 e 0 0 c
  | none => { c with seq.clearReq := some { pm := BitVec.ofNat 12 pm, im := BitVec.ofNat 12 im, slot := k } }

/-- LOCKOUT_RESET (R330). -/
def execLockoutReset (slot : Fin 512) (s : State) : Host.Outcome State Fault Refusal :=
  .next { s with core := startOp slot 0x50 (clearDeliver slot) s.core }

/-- The fault manager clears its own records in the tick after delivery, and restarts the channels whose ISOLATED flag it
clears (R330, R332). -/
def clearTick (c : Core) : Core :=
  match c.seq.clearReq with
  | some r =>
    if !r.fresh then c
    else
      let was := bitsBy 12 fun p => pbit r.pm p && lockedOut c p
      let wasIso := bitsBy 12 fun p => pbit r.im p && isolatedAt c p
      let again := bitsBy 13 fun p => decide (p < 12) && pbit r.im p && isolatedAt c p
      { c with
        nv.latches := c.nv.latches.filter fun e => !pbit r.pm e.1
        nv.isolated := c.nv.isolated &&& ~~~ r.im
        nv.degraded := c.nv.degraded.filter fun e => !pbit r.im e.1
        seq.restart := c.seq.restart ||| again
        seq.clearReq := some { r with fresh := false, was, wasIso } }
  | none => c

end Sys2Proof.Machine
end

