-- ==== Sys2Proof/Machine/Images.lean ====
section
/-! DEFINITION. LOAD_CONFIG and LOAD_PROGRAM: the checks of every section (R141, R163, R222, R244, R270, R304, R321,
R336, R356, R391, R424, R463, R482 to R486), the checks of a program (R143 to R147, R154 to R156), and how an image is
stored and takes effect (R481, R487, R489). -/

namespace Sys2Proof.Machine

/-- The code of the first check that fails. -/
def firstCode : List (Bool × Nat) → Option Nat
  | [] => none
  | (ok, code) :: r => if ok then firstCode r else some code

/-- `lo ≤ v ≤ hi`. -/
def inR (lo hi v : Nat) : Bool := lo ≤ v && v ≤ hi
/-- A signed value in a range. -/
def inRI (lo hi v : Int) : Bool := decide (lo ≤ v) && decide (v ≤ hi)

/-- The 12 portals. -/
def portals12 : List Nat := List.range 12
/-- A portal whose channel block names an axis; this is what "configured" means at load (log 17). -/
def portalIn (m : Image) (p : Nat) : Bool := decide (0 < axesOf m p)

/-! ### The channel blocks (R141) -/

/-- Blocks that own a UIO. -/
def owners (m : Image) (u : Nat) : List Nat := (List.range 13).filter fun n => ownsUio m n u

/-- The field section of an image, from its header. -/
def fieldSec (m : Image) : Image := imgPart m secField 1216

/-- Map entries, pair map and reserved fields of a block in range (R141, R5). -/
def blockOk (m : Image) (n : Nat) : Bool :=
  let o := secSeq n
  ((List.range 32).all fun j => (img8 m (o + 2 * j) < 144 || img8 m (o + 2 * j) == 255) && img8 m (o + 2 * j + 1) < 2)
    && ((List.range 16).all fun j => img8 m (o + 64 + j) < 72 || img8 m (o + 64 + j) == 255)
    && img8 m (o + 98) < (if n = 12 then 1 else 8) && imgZero m (o + 99) 29

/-- The sequencer section: 0x0E (R141). -/
def seqCheck (m : Image) : Option Nat :=
  let f := fieldSec m
  firstCode [((List.range 144).all (fun u => (owners m u).length ≤ 1 && ((owners m u).isEmpty || 2 ≤ fMode f u))
    && (List.range 13).all (blockOk m), 0x0E)]

/-! ### The motion section (R160 to R163) -/

/-- A profile set in range (R161). -/
def psetOk (m : Image) (p s : Nat) : Bool :=
  let f := psetF m p s
  inR 1 16777215 (f 0) && inR 1 2147483647 (f 4) && inR 1 2147483647 (f 8) && inR 1 2147483647 (f 12)
    && inR 1 (f 0) (f 16) && imgZero m (motBlk p + 32 * s + 20) 12

/-- The axis block of the motion section in range (R162). -/
def motAxisOk (m : Image) (x : Nat) : Bool :=
  let o := motAxis x
  inR 1000 500000 (img32 m o) && inRI (-65536) 131071 (imgI32 m (o + 4)) && inRI (-65536) 131071 (imgI32 m (o + 8))
    && decide (imgI32 m (o + 4) < imgI32 m (o + 8)) && inR 1 4096 (img16 m (o + 12)) && inR 1 255 (img8 m (o + 14))
    && imgZero m (o + 15) 1 && inR 1 16777215 (img32 m (o + 16)) && inR 1 2147483647 (img32 m (o + 20))
    && inR 1 2147483647 (img32 m (o + 24)) && imgZero m (o + 28) 4

/-- The motion section (R163). -/
def motCheck (m : Image) : Option Nat :=
  let ps := portals12.filter (portalIn m)
  firstCode [
    (ps.all fun p => (List.range 16).all (psetOk m p) && imgZero m (motBlk p + 520) 8 && imgZero m (motBlk p + 624) 400, 0x30),
    (ps.all fun p => (List.range 16).all fun s => psetF m p s 8 ≤ dStop m p && psetF m p s 12 ≤ jStop m p, 0x31),
    ((List.range 36).all fun x => !axisConf m x || motAxisOk m x, 0x32),
    ((portals12.all fun p => portalIn m p || imgZero m (motBlk p) 1024)
      && (List.range 36).all fun x => axisConf m x || imgZero m (motAxis x) 32, 0x33)]

/-! ### The axis control section (R221, R222) -/

/-- The fields that depend on the motor kind. -/
def motorOk (m : Image) (x : Nat) : Bool :=
  let o := axBlk x
  match motorOf m x with
  | 1 => inR 1 32 (img8 m (o + 2)) && inR 16 1048576 (img32 m (o + 4)) && img8 m (o + 12) == 0 && img8 m (o + 19) == 0
  | 2 => img8 m (o + 2) == 0 && img32 m (o + 4) == 0 && imgZero m (o + 12) 8
  | _ => false

/-- An axis block in range. -/
def axBlkOk (m : Image) (x : Nat) : Bool :=
  let o := axBlk x
  motorOk m x && img8 m (o + 1) < 4 && imgZero m (o + 3) 1 && inR 1000 100000000 (img32 m (o + 8))
    && inR 1 65535 (img16 m (o + 20)) && imgZero m (o + 22) 2 && img32 m (o + 24) ≤ 10000000
    && inR 100 32000 (img16 m (o + 40)) && inR 1 255 (img8 m (o + 52)) && inR 1 255 (img8 m (o + 53))
    && inR 1 65535 (img16 m (o + 54)) && imgZero m (o + 56) 8

/-- The axis control section (R222). -/
def axCheck (m : Image) : Option Nat :=
  let xs := (List.range 36).filter (axisConf m)
  firstCode [
    (img8 m secAxis ≤ 1 && imgZero m (secAxis + 1) 63, 0x38),
    (xs.all (axBlkOk m), 0x39),
    (xs.all fun x => [42, 44, 46].all fun o => inR 1 (img16 m (axBlk x + 40)) (img16 m (axBlk x + o)), 0x3A),
    ((List.range 36).all fun x => axisConf m x || imgZero m (axBlk x) 64, 0x3B)]

/-! ### The obstacle section (R243, R244) -/

/-- Source codes of a portal's block. -/
def obSources (m : Image) (p : Nat) : List Nat := (List.range 8).map fun i => obN m p (28 + i) 1

/-- A portal block in range. -/
def obBlkOk (m : Image) (p : Nat) : Bool :=
  let f := obN m p
  inR 1 65535 (f 4 2) && inR 1 65535 (f 6 2) && inR 1 (f 4 2) (f 0 2) && inR 1 (f 6 2) (f 2 2) && inR 1 65535 (f 8 2)
    && inR 1 64 (f 10 1) && inR 1 65535 (f 12 2) && inR 1 64 (f 14 1) && f 15 1 ≤ 8
    && ([0, 1, 2].all fun a => decide (f (16 + 2 * a) 2 ≠ 0) == axisConf m (3 * p + a))
    && inR 1 255 (f 26 1) && ((obSources m p).all fun s => s < 0x9C || s == 255) && (f 36 1 < 16 || f 36 1 == 255)
    && inR 1 255 (f 37 1) && inR 1 65535 (f 38 2) && inR 1 5000 (f 40 2) && inR 1 10000 (f 42 2)
    && imgZero m (secObst + 128 * p + 44) 84

/-- A source code names what it must (R234, R244). -/
def sourceOk (m f : Image) (p s : Nat) : Bool :=
  if s < 0x90 then fMode f s == 1 else if s < 0x9C then axisConf m (3 * p + (s - 0x90) / 4) else true

/-- The obstacle section (R244). -/
def obCheck (m : Image) : Option Nat :=
  let ps := portals12.filter (portalIn m)
  let f := fieldSec m
  firstCode [
    (ps.all (obBlkOk m), 0x40),
    (ps.all fun p => (obSources m p).all (sourceOk m f p), 0x41),
    (ps.all fun p => obN m p 36 1 == 255 || pairMap m p (obN m p 36 1) != 255, 0x42),
    (portals12.all fun p => portalIn m p || imgZero m (secObst + 128 * p) 128, 0x43)]

/-! ### The Topaz section (R268 to R270) -/

/-- The header in range. -/
def tzHeadOk (m : Image) : Bool :=
  let w (o : Nat) := img16 m (secTopaz + o)
  let b (o : Nat) := img8 m (secTopaz + o)
  w 0 ≤ 2500 && w 2 ≤ w 0 && w 2 + w 4 ≤ w 0 && inR 64 256 (w 12) && inR 64 (w 12) (w 14) && inR 1 8000 (w 16)
    && w 18 ≤ 8000 && inR 1 255 (b 21) && inR 1 255 (b 24) && inR 1 20 (b 25) && imgZero m (secTopaz + 26) 38

/-- A thermal block: zero for an unnamed axis, in range for a named one. -/
def thermOk (m : Image) (x : Nat) : Bool :=
  let o := thermBlk x
  if axisConf m x then
    inR 1 32000 (img16 m o) && inR 1 36000 (img16 m (o + 2)) && inR 1 200 (img8 m (o + 4)) && img8 m (o + 5) ≤ 250
      && decide (img8 m (o + 5) < img8 m (o + 6)) && img8 m (o + 7) ≤ 250 && decide (img8 m (o + 7) < img8 m (o + 8))
      && imgZero m (o + 9) 7
  else imgZero m o 16

/-- The Topaz section (R270). -/
def tzCheck (m : Image) : Option Nat :=
  let blk (p : Nat) := secTopaz + 64 + 64 * p
  let ps := portals12.filter (portalIn m)
  firstCode [
    (tzHeadOk m, 0x48),
    (ps.all fun p => [0, 1, 2].all (fun a => thermOk m (3 * p + a)) && imgZero m (blk p + 1) 1
      && imgZero m (blk p + 52) 12, 0x49),
    (portals12.all fun p => img8 m (blk p) < 16 && (bitOf (img8 m (blk p)) 3 || img8 m (blk p) == 0), 0x4A),
    (portals12.all fun p => portalIn m p || imgZero m (blk p) 64, 0x4B)]

/-! ### The safety section (R281, R282, R295, R303, R304) -/

/-- Some pair of role `r` is `q`, or `q` is 0xFF. -/
def pairOr (s : Image) (q r : Nat) : Bool := q == 255 || (q < 72 && pairRole s q == r)

/-- A mask names configured portals only. -/
def onlyConf (m : Image) (v : Nat) : Bool := portals12.all fun p => !bitOf v p || portalIn m p

/-- A used pair entry (R304, 0x51), or an unused one as R282 states. -/
def pairOk (m f s : Image) (q : Nat) : Bool :=
  let o := sfPair q
  let a := img8 s o
  let b := img8 s (o + 1)
  let pm := img16 s (o + 6)
  if a = 255 && b = 255 then imgZero s (o + 2) 14
  else
    a < 144 && b < 144 && a != b && fMode f a == 1 && fMode f b == 1 && fFilter f a == fFilter f b
      && img8 s (o + 2) < 4 && img8 s (o + 3) ≤ 7 && img16 s (o + 4) ≤ 2000 && imgZero s (o + 8) 8
      && (if inR 1 3 (img8 s (o + 3)) then pm < 8192 && onlyConf m pm else pm == 0)

/-- A portal block (R303, R304, 0x53): every field in its range, HSTEP of each axis too (R509). -/
def sfPortOk (m s : Image) (p : Nat) : Bool :=
  let o := sfPort p
  pairRole s (img8 s o) == 4 && img8 s o < 72 && pairRole s (img8 s (o + 1)) == 5 && img8 s (o + 1) < 72
    && img8 s (o + 2) == axesOf m p && imgZero s (o + 3) 1 && inR 1 2147483647 (img32 s (o + 4)) && img16 s (o + 8) ≤ 4000
    && inR 1 4000 (img16 s (o + 10)) && inR 1 40000 (img16 s (o + 12)) && imgZero s (o + 14) 2
    && img32 s (o + 16) ≤ 16777215 && inR 1 16777215 (img32 s (o + 20)) && inR 1 16777215 (img32 s (o + 24))
    && inR 1 (img32 s (o + 24)) (img32 s (o + 28))
    && ([0, 1, 2].all fun a => img32 s (o + 32 + 4 * a) == img32 m (axBlk (3 * p + a) + 8)
      && 1 ≤ img16 s (o + 44 + 2 * a))
    && imgZero s (o + 52) 12

/-- An output entry (R304, 0x54). -/
def sfOutOk (m s : Image) (n : Nat) : Bool :=
  let o := sfOut n
  let fn := img8 s o
  (if n < 4 then fn ≤ 2 else fn == (if portalIn m (n - 4) then 3 else 0))
    && img8 s (o + 1) < 2 && img16 s (o + 2) < 4096 && imgZero s (o + 13) 3
    && (fn != 1 || (img16 s (o + 2) != 0 && onlyConf m (img16 s (o + 2))))
    && (List.range 72).all fun q => !bitOf (img8 s (o + 4 + q / 8)) (q % 8) || pairRole s q == 3

/-- The safety section (R304). -/
def sfCheck (m : Image) : Option Nat :=
  let s := imgPart m secSafe 2240
  let f := fieldSec m
  let count (r : Nat) := ((pairsOf s).filter fun q => pairRole s q == r).length
  firstCode [
    (pairOr s (img8 s 0) 6 && pairOr s (img8 s 1) 7 && inR 50 5000 (img16 s 2) && imgZero s 4 60, 0x50),
    ((List.range 72).all (pairOk m f s), 0x51),
    (count 1 + count 2 ≤ 16 && count 6 ≤ 1 && count 7 ≤ 1, 0x52),
    (portals12.all fun p => !portalIn m p || sfPortOk m s p, 0x53),
    ((List.range 16).all (sfOutOk m s), 0x54),
    ((portals12.all fun p => portalIn m p || imgZero s (sfPort p) 64)
      && (List.range 16).all fun n => outFunc s n != 0 || imgZero s (sfOut n) 16, 0x55)]

/-! ### The fault, field, twin, train-line, recorder and tamper sections -/

/-- The fault section (R321). -/
def faultCheck (m : Image) : Option Nat :=
  firstCode [
    (inR 1 1440 (img16 m secFault) && inR 1 65535 (img16 m (secFault + 2)) && inR 10 600 (img16 m (secFault + 4)), 0x58),
    (imgZero m (secFault + 6) 58, 0x59)]

/-- A channel entry in range for its mode (R335, R336). -/
def fEntryOk (f : Image) (u : Nat) : Bool :=
  let o := fEntry u
  let attr := img8 f (o + 1)
  imgZero f (o + 5) 3 &&
    (match fMode f u with
      | 0 => imgZero f o 8
      | 1 => attr < 8 && inR 1 80 (fFilter f u) && fSafe f u == 0 && fWidth f u == 0
      | 2 => (attr == 0 || attr == 8) && fFilter f u == 0 && fSafe f u ≤ 2 && [1, 2, 4].contains (fWidth f u)
      | 3 => (attr == 0 || attr == 8) && fFilter f u == 0 && fSafe f u ≤ 2 && fWidth f u == 0
      | _ => false)

/-- Two members of a set carry the same ATTR and SAFE and the same owner (R336). -/
def sameMember (m f : Image) (u v : Nat) : Bool :=
  img8 f (fEntry u + 1) == img8 f (fEntry v + 1) && fSafe f u == fSafe f v && owners m u == owners m v

/-- The set that a channel leads, and the set that a member belongs to (R344, R336). -/
def setOk (m f : Image) (u : Nat) : Bool :=
  match fMode f u with
  | 2 => u % fWidth f u == 0 && (List.range (fWidth f u - 1)).all fun i => fMode f (u + i + 1) == 3 && sameMember m f u (u + i + 1)
  | 3 => (List.range 3).any fun i => decide (i + 1 ≤ u) && fMode f (u - (i + 1)) == 2 && decide (i + 1 < fWidth f (u - (i + 1)))
  | _ => true

/-- The field section (R336). -/
def fieldCheck (m : Image) : Option Nat :=
  let f := fieldSec m
  let s := imgPart m secSafe 2240
  firstCode [
    (inR 2 100 (img8 f 0) && imgZero f 1 1 && img16 f 2 < 512 && imgZero f 4 60, 0x60),
    ((List.range 144).all (fEntryOk f), 0x61),
    ((List.range 144).all (setOk m f), 0x62),
    ((List.range 144).all fun u => fUsed f (groupOf u) || fMode f u == 0, 0x63),
    ((pairsOf s).all fun q => [0, 1].all fun i =>
      let u := img8 s (sfPair q + i)
      fMode f u == 1 && fAttr f u 0, 0x64)]

/-- The twin section (R356). -/
def twinCheck (m : Image) : Option Nat :=
  firstCode [(img8 m secTwin ≤ 1 && img8 m (secTwin + 1) ≤ 1 && imgZero m (secTwin + 2) 62, 0x68)]

/-- A used publish entry in range (R389). -/
def pubOk (m : Image) (e : Nat) : Bool :=
  let o := pubE e
  tlN m (o + 8) 2 ≤ 0xFFFD && inR 80 8000 (tlN m (o + 10) 2) && decide (tlN m (o + 12) 2 < tlN m (o + 10) 2)
    && tlN m (o + 14) 1 == 1 && tlN m (o + 15) 1 ≤ 15 && tlN m (o + 16) 1 ≤ 7 && inR 1 3 (tlN m (o + 17) 1)
    && imgZero m (secTrain + o + 18) 14

/-- A used subscribe entry in range (R390). -/
def subOk (m : Image) (e : Nat) : Bool :=
  let o := 576 + 32 * e
  inR 20 10000 (tlN m (o + 12) 2) && tlN m (o + 14) 2 ≤ 1408 && tlN m (o + 16) 1 ≤ 15 && imgZero m (secTrain + o + 17) 3
    && imgZero m (secTrain + o + 24) 8

/-- The train-line section (R391). -/
def trainCheck (m : Image) : Option Nat :=
  let f (o n : Nat) := tlN m o n
  let pubs := (List.range 16).filter fun e => tlN m (pubE e) 4 != 0
  let subs := (List.range 48).filter fun e => tlN m (576 + 32 * e) 4 != 0
  firstCode [
    (inR 8 30 (f 8 1) && inR 8 30 (f 9 1) && f 10 2 ≤ 4094 && f 12 2 ≤ 4094 && inR 1 65535 (f 14 2) && inR 100 20000 (f 16 2)
      && inR 1 255 (f 18 1) && f 19 1 ≤ 1 && f 28 1 ≤ 15 && f 29 1 ≤ 7 && imgZero m (secTrain + 30) 34, 0x70),
    ((pubs.all (pubOk m)) && (pubs.all fun e => pubs.all fun g => e == g || f (pubE e + 8) 2 != f (pubE g + 8) 2), 0x71),
    ((subs.all (subOk m)) && (subs.all fun e => subs.all fun g => e == g || f (576 + 32 * e) 4 != f (576 + 32 * g) 4), 0x72),
    (((List.range 16).all fun e => pubs.contains e || imgZero m (secTrain + pubE e) 32)
      && (List.range 48).all fun e => subs.contains e || imgZero m (secTrain + 576 + 32 * e) 32, 0x73)]

/-- The recorder section (R423, R424). -/
def recCheck (m : Image) : Option Nat :=
  let w (c : Nat) := img16 m (secRec + 2 * c)
  firstCode [
    ((List.range 1024).all fun c => w c < 32768 && (!(c < 256 && (codeFree c || (codeSev c).isNone)) || w c == 0), 0x78),
    ((List.range 1024).all fun c => bitsOf (w c) 14 12 ≤ (if c < 256 then 0 else 3), 0x79)]

/-- The tamper section (R463). -/
def tamperCheck (m : Image) : Option Nat := firstCode [(img8 m secTamper < 16 && imgZero m (secTamper + 1) 63, 0x80)]

/-! ### Programs (R143 to R147, R154, R155) -/

/-- Masks of the assigned bits of ARG8, ARG16, ARG32A and ARG32B (R146, R147); an opcode outside R147 has none. -/
def argMasks (op : Nat) : Nat × Nat × Nat × Nat :=
  match op with
  | 0x01 => (0xFF, 0, 0xFFFFFFFF, 0)
  | 0x02 | 0x04 => (0xFF, 0, 0, 0)
  | 0x03 => (0xFF, 0xFFFF, 0xFFFFFFFF, 0)
  | 0x10 => (0, 0xFFFF, 0, 0)
  | 0x11 => (0xFF, 0xFFFF, 0xFFF, 0xF03)
  | 0x12 | 0x32 => (0xFF, 0, 0, 0)
  | 0x13 | 0x14 | 0x15 => (7, 0, 0, 0)
  | 0x20 => (0xFF, 0, 0xFFFFFFFF, 0xFFFFFFFF)
  | 0x21 => (0xFF, 0xFFFF, 0, 0)
  | 0x30 => (0, 0xFFFF, 0xFFFFFFFF, 0xFFFFFFFF)
  | 0x38 => (7, 0xFFFF, 0, 0)
  | 0x40 => (0xFF, 0xFF, 0, 0)
  | _ => (0, 0, 0, 0)

/-- No unassigned bit of an action is set. -/
def argsAssigned (a : Action) : Bool :=
  let k := argMasks a.op
  a.arg8 &&& k.1 == a.arg8 && a.arg16 &&& k.2.1 == a.arg16 && a.a &&& k.2.2.1 == a.a && a.b &&& k.2.2.2 == a.b

/-- The opcode is in R147 and its arguments are in range (check 0x0B, R412). -/
def argsInRange (a : Action) : Bool :=
  match a.op with
  | 0x01 => a.arg8 ≤ 3 && inR 1 16777215 a.a
  | 0x02 | 0x04 => a.arg8 ≤ 3
  | 0x03 => a.arg8 ≤ 3 && a.a ≤ 65535
  | 0x10 => a.arg16 ≤ 4095
  | 0x11 => a.arg8 ≤ 3 && a.arg16 ≤ 4095 && a.b % 4 ≤ 2
  | 0x12 => inR 1 2 a.arg8
  | 0x20 => a.arg8 ≤ 4 && a.a &&& a.b == 0
  | 0x21 => a.arg8 ≤ 1
  | 0x30 => a.arg16 ≤ 1023
  | 0x32 => inR 1 63 a.arg8
  | 0x13 | 0x14 | 0x15 | 0x16 | 0x31 | 0x38 | 0x40 | 0x41 | 0x48 => true
  | _ => false

/-- A P action, and a C action (R147). -/
def portalOnly (op : Nat) : Bool := [0x10, 0x11, 0x12, 0x13, 0x14, 0x15, 0x16, 0x21, 0x31, 0x32, 0x48].contains op
/-- A C action. -/
def carOnly (op : Nat) : Bool := op == 0x40 || op == 0x41

/-- FIRST_TRANS and N_TRANS of a state. -/
def stTrans (g : Image) (s : Nat) : Nat × Nat := (img16 g (prState g s), img8 g (prState g s + 2))
/-- ENTRY_ACT and N_ENTRY of a state. -/
def stEntry (g : Image) (s : Nat) : Nat × Nat := (img16 g (prState g s + 4), img8 g (prState g s + 6))
/-- ACT_FIRST and N_ACT of a transition. -/
def trActs (g : Image) (t : Nat) : Nat × Nat := (img16 g (prTran g t + 10), img8 g (prTran g t + 12))
/-- A range within a count; an empty one starts at 0. -/
def rangeOk (r : Nat × Nat) (most count : Nat) : Bool :=
  decide (r.2 ≤ most) && decide (r.1 + r.2 ≤ count) && (r.2 != 0 || r.1 == 0)

/-- The terms of a transition. -/
def trTerms (g : Image) (t : Nat) : List Nat := (List.range (img8 g (prTran g t + 1))).map fun i => img8 g (prTran g t + 4 + i)
/-- Timers that a transition tests, with NEG 0 or 1. -/
def trTimers (g : Image) (t : Nat) : List Nat := ((trTerms g t).filter fun v => inR 72 75 (v % 128)).map (· % 128 - 72)
/-- A timer transition (R145). -/
def timerTran (g : Image) (t : Nat) : Bool :=
  let n := img8 g (prTran g t + 1)
  n == 0 || ((trTerms g t).any (inR 72 75) && (n == 1 || img8 g (prTran g t + 2) == 1))

/-- A condition bit is reserved in a channel (R136, R137). -/
def bitReserved (n b : Nat) : Bool :=
  if n < 12 then [62, 63, 102, 103].contains b
  else inR 64 71 b || [96, 97, 100, 102, 103, 107, 108, 110, 111].contains b || inR 120 127 b

/-- Reserved fields of the whole image (check 0x06). -/
def prReserved (g : Image) : Bool :=
  imgZero g 14 2 && imgZero g 28 4 && imgZero g 49 11
    && ((List.range (prStates g)).all fun s => img8 g (prState g s + 3) < 2 && imgZero g (prState g s + 8) 8)
    && ((List.range (prTrans g)).all fun t => imgZero g (prTran g t + 3) 1 && imgZero g (prTran g t + 13) 3)
    && (List.range (prActs g)).all fun a => imgZero g (img32 g 40 + 16 * a + 12) 4 && argsAssigned (prAct g a)

/-- Terms as check 0x0A requires. -/
def termsOk (g : Image) (n t : Nat) : Bool :=
  let k := img8 g (prTran g t + 1)
  k ≤ 6 && img8 g (prTran g t + 2) ≤ 1 && imgZero g (prTran g t + 4 + k) (6 - k)
    && (trTerms g t).all fun v => !bitReserved n (v % 128)

/-- Transitions of a state. -/
def stTranList (g : Image) (s : Nat) : List Nat := (List.range (stTrans g s).2).map ((stTrans g s).1 + ·)

/-- Every timer that a state's timer transitions test is started on entry (check 0x0D). -/
def timersStarted (g : Image) (s : Nat) : Bool :=
  let started := ((prEntry g s).filter fun a => a.op == 1).map Action.arg8
  (stTranList g s).all fun t => !timerTran g t || (trTimers g t).all started.contains

/-- ISOLATE stands where check 0x12 permits it. -/
def isolateOk (g : Image) : Bool :=
  let free (r : Nat × Nat) := (prActsFrom g r.1 r.2).all fun a => a.op != 0x48
  ((List.range (prTrans g)).all fun t => free (trActs g t))
    && (List.range (prStates g)).all fun s => prMotion g s == 1 || free (stEntry g s)

/-- OUT_SET of a program names only UIOs that its block owns (check 0x0E). -/
def outsOwned (m : Image) (n : Nat) (g : Image) : Bool :=
  (prActsFrom g 0 (prActs g)).all fun a => a.op != 0x20 || (List.range 32).all fun i =>
    !(bitOf a.a i || bitOf a.b i) || (decide (32 * a.arg8 + i < 144) && ownsUio m n (32 * a.arg8 + i))

/-- Axis actions name only axes of the block (check 0x0F). -/
def axesNamed (m : Image) (n : Nat) (g : Image) : Bool :=
  (prActsFrom g 0 (prActs g)).all fun a => !inR 0x13 0x15 a.op || a.arg8 &&& axesOf m n == a.arg8

/-- Every table is in a directory (check 0x10). -/
def tablesKnown (dir : Option Image) (g : Image) : Bool := (progTables g).all fun t => dir.any fun d => dirPresent d t

/-- Bytes of the program store (R155). -/
def storeBytes (g : Image) : Nat := 16 * (prStates g + prTrans g + prActs g)

/-- The checks of R154 up to the signature. -/
def progHead (n : Nat) (g : Image) : Option Nat :=
  firstCode [
    (img32 g 0 == 0x5051534A && img16 g 4 == 1, 0x01),
    (img32 g 60 == crc32c (imgSlice g 0 60), 0x02),
    (img32 g 16 == img32 g 44 + 64 && img32 g 16 == g.len && img32 g 32 == 64 && img32 g 36 == 64 + 16 * prStates g
      && img32 g 40 == img32 g 36 + 16 * prTrans g && img32 g 44 == img32 g 40 + 16 * prActs g, 0x03),
    (img8 g 6 == n && img8 g 7 == (if n = 12 then 1 else 0), 0x04)]

/-- The checks of R154 after the signature, against the stored image and directory. -/
def progBody (c : Core) (n : Nat) (g : Image) : Option Nat :=
  let sts := List.range (prStates g)
  let trs := List.range (prTrans g)
  let acts := prActsFrom g 0 (prActs g)
  let m := storedOf c
  firstCode [
    (inR 1 256 (prStates g) && prTrans g ≤ 2048 && prActs g ≤ 8192, 0x05),
    (prReserved g, 0x06),
    (trs.all fun t => img8 g (prTran g t) < prStates g, 0x07),
    (sts.all fun s => rangeOk (stTrans g s) 8 (prTrans g), 0x08),
    ((sts.all fun s => rangeOk (stEntry g s) 16 (prActs g)) && trs.all fun t => rangeOk (trActs g t) 16 (prActs g), 0x09),
    (trs.all (termsOk g n), 0x0A),
    (acts.all argsInRange, 0x0B),
    (sts.all fun s => bitOf (img8 g (prState g s + 3)) 0 || (stTranList g s).any (timerTran g), 0x0C),
    (sts.all (timersStarted g), 0x0D),
    (c.nv.cfg.isSome, 0x14),
    (outsOwned m n g, 0x0E),
    (axesNamed m n g, 0x0F),
    (tablesKnown c.nv.dir g, 0x10),
    (acts.all fun a => if n = 12 then !portalOnly a.op else !carOnly a.op, 0x11),
    ((sts.all fun s => if n = 12 then prMotion g s == 0 else inR 1 10 (prMotion g s)) && isolateOk g, 0x12),
    ((c.nv.progs.foldl (fun a e => if e.1 = n then a else a + storeBytes e.2) (storeBytes g)) ≤ 524288, 0x13)]

/-- What an image's checks answer: none, or status and detail. -/
def badOp (o : Option Nat) : Option (Nat × Nat) := o.map fun d => (0x12, d)

/-- All the checks of R154. -/
def progCheck (c : Core) (n : Nat) (g : Image) : Option (Nat × Nat) :=
  match progHead n g with
  | some d => some (0x12, d)
  | none => if !signedBy c g (img8 g 48) (img32 g 44) then some (0x31, 1) else badOp (progBody c n g)

/-! ### The configuration image (R482 to R486) -/

/-- Offset and length of a section (R484). -/
def sections : List (Nat × Nat) :=
  [(832, 64), (896, 1664), (2560, 12288), (14848, 2368), (17216, 1536), (18752, 832), (19584, 2240), (21824, 64),
   (21888, 1216), (23104, 64), (23168, 2112), (25280, 2048), (27328, 64)]

/-- Directory entry `i` describes its section (R483). -/
def cfgEntryOk (m : Image) (i : Nat) : Bool :=
  let o := 64 + 48 * i
  match sections[i]? with
  | some (off, len) => img16 m o == i + 1 && imgZero m (o + 2) 2 && img32 m (o + 4) == off && img32 m (o + 8) == len
      && imgZero m (o + 12) 4
  | none => imgZero m o 48

/-- The checks that self-test step 5 repeats (R488): 0x88 to 0x8B, the signature, 0x8C. -/
def cfgForm (c : Core) (m : Image) : Option (Nat × Nat) :=
  match firstCode [
    (img32 m 0 == 0x4746434A && img16 m 4 == 1 && img8 m 7 == 13, 0x88),
    (img32 m 60 == crc32c (imgSlice m 0 60), 0x89),
    (img32 m 8 == 27456 && m.len == 27456, 0x8A),
    ((List.range 16).all (cfgEntryOk m) && imgZero m 20 40, 0x8B)] with
  | some d => some (0x12, d)
  | none =>
    if !signedBy c m (img8 m 6) 27392 then some (0x31, 1)
    else if !(sections.zipIdx.all fun e => sha256 (imgSlice m e.1.1 e.1.2) == imgSlice m (64 + 48 * e.2 + 16) 32) then some (0x12, 0x8C)
    else none

/-- The first answer of a list of checks. -/
def firstSome : List (Option Nat) → Option Nat
  | [] => none
  | some d :: _ => some d
  | none :: r => firstSome r

/-- The checks of R156: every stored program against an image and a directory. -/
def progsFit (c : Core) (m : Image) : Option Nat :=
  firstCode [
    (c.nv.progs.all fun e => outsOwned m e.1 e.2, 0x0E),
    (c.nv.progs.all fun e => axesNamed m e.1 e.2, 0x0F),
    (c.nv.progs.all fun e => tablesKnown c.nv.dir e.2, 0x10)]

/-- All the checks of R486. -/
def cfgCheck (c : Core) (m : Image) : Option (Nat × Nat) :=
  match cfgForm c m with
  | some e => some e
  | none => badOp (firstSome [
      firstCode [(inR 1 0xFFFFFFFF (img32 m 16) && (c.nv.cfg.all fun o => img32 o 16 ≤ img32 m 16), 0x8D),
        (inR 1 0xFE (img8 m secSys) && img8 m (secSys + 1) ≤ 4 && imgZero m (secSys + 2) 62, 0x8E)],
      seqCheck m, motCheck m, axCheck m, obCheck m, tzCheck m, sfCheck m, faultCheck m, fieldCheck m, twinCheck m,
      trainCheck m, recCheck m, tamperCheck m, progsFit c m])

/-! ### Storing (R119, R481, R487, R489) -/

/-- The logic die loads the field section of the image in effect into the die (R336). -/
def loadField (s : State) : State :=
  match s.core.run.cfg with
  | some m =>
    { s with
      die := loadSection (fieldSec m) (stopContacts (imgPart m secSafe 2240)) s.die
      core := { s.core with fld.loaded := true } }
  | none => s

/-- A configuration image is stored; it takes effect at once where none is in effect (R487). -/
def storeConfig (m : Image) (s : State) : State :=
  let old := s.core
  let h := sha256 (imgBytes m)
  let c := { old with nv.cfg := some m, nv.svcAddr := img8 m secSys }
  let s' := if old.run.cfg.isSome then { s with core := c }
    else loadField { s with core := keepBaselines old.run.cfg (some m) (rebaseBuckets old { c with run.cfg := some m }) }
  { s' with core := event 0x021 0x02 [field h 0 4, field h 4 4] s'.core }

/-- LOAD_CONFIG is delivered (R486). -/
def cfgDeliver (k : Nat) (d : Bytes) (s : State) : State :=
  if opLen d = 0 then { s with core := finish k 0x00 0 0 0 s.core }
  else match opRead s.core k with
    | none => { s with core := finish k 0x32 0 0 0 (hpCount 36 s.core) }
    | some b =>
      let m := imgOf b
      match cfgCheck s.core m with
      | some (st, dt) => { s with core := finish k st dt 0 0 s.core }
      | none =>
        let h := sha256 b
        let s := storeConfig m s
        { s with core := loadDone k 1 0 b (field h 0 4) (field h 4 4) s.core }

/-- LOAD_CONFIG (R486). -/
def execLoadConfig (slot : Fin 512) (s : State) : Host.Outcome State Fault Refusal :=
  .next (startOpS slot 0x20 (cfgDeliver slot) s)

/-- A program is stored for its channel; it takes effect at once under R489. -/
def storeProgram (n : Nat) (g : Image) (c : Core) : Core :=
  let at_ := (progOf c n).len = 0 && c.nv.cfg == c.run.cfg
  let c := { c with nv.progs := tset {} c.nv.progs n g }
  let c := if at_ then { c with run.progs := tset {} c.run.progs n g } else c
  event 0x020 0x02 [n, img32 g 20, img32 g 24] c

/-- LOAD_PROGRAM is delivered (R154, R489): RESULT0 is the size of the image (log 17). -/
def progDeliver (k : Nat) (d : Bytes) (c : Core) : Core :=
  let n := byteAt d 8
  if opLen d = 0 then finish k 0x00 0 0 0 c
  else match opRead c k with
    | none => finish k 0x32 0 0 0 (hpCount 36 c)
    | some b =>
      let g := imgOf b
      match progCheck c n g with
      | some (st, dt) => finish k st dt 0 0 c
      | none => loadDone k 2 n b g.len (prStates g) (storeProgram n g c)

/-- LOAD_PROGRAM (R489). -/
def execLoadProgram (slot : Fin 512) (s : State) : Host.Outcome State Fault Refusal :=
  .next { s with core := startOp slot 0x21 (progDeliver slot) s.core }

end Sys2Proof.Machine
end

