-- ==== Sys2Proof/Machine/Recorder.lean ====
section
/-! DEFINITION. Amber: records reaching their stores, blocks, chain and checkpoints, suppressed records, and the
operations that read the stores (R404 to R436). -/

namespace Sys2Proof.Machine

/-- Slots of the cycle journal (R404). -/
def journalSlots : Nat := 134217728
/-- The last record slot of the event log, kept for STORE_FULL (R431). -/
def eventLast : Nat := 16777214
/-- 32 bytes of 0xFF: a slot that nothing has written (R406). -/
def emptySlot : Bytes := List.replicate 32 0xFF

/-- A slot of a store: 0 the cycle journal, 1 the event log, 2 the checkpoint area. -/
def storeSlot (t : Stores) (store i : Nat) : Bytes :=
  match store with
  | 0 => tget emptySlot t.journal i
  | 1 => tget emptySlot t.events i
  | _ => tget emptySlot t.checks i

/-- The write index W of a store (R405). -/
def storeW (t : Stores) (store : Nat) : Nat :=
  match store with
  | 0 => t.wJ
  | 1 => t.wE
  | _ => t.wC

/-- The CRC of a record verifies (R409). -/
def recordOk (b : Bytes) : Bool := field b 28 4 == crc32c (slice b 0 28)

/-- C_-1 of a store (R417). -/
def chainStart (store : Nat) : Bytes :=
  (sha256 ([0x4A, 0x43, 0x48, 0x4E] ++ toLe 1 store ++ toLe 8 Config.serial.toNat)).take 24

/-- BLOCK_WORD of a block whose records verify `n` times (R416). -/
def blockWord (b n : Nat) (rst : Bool) : Nat :=
  b % 2 ^ 21 + n * 2 ^ 21 + b2n (decide (n < 127)) * 2 ^ 28 + b2n rst * 2 ^ 29 + b2n (b % 256 == 255) * 2 ^ 30

/-- The trailer of a block and its chain value C_b (R416, R417). -/
def trailerOf (t : Stores) (store b : Nat) (chain : Bytes) (rst : Bool) : Bytes × Bytes :=
  let recs := (List.range 127).map fun i => storeSlot t store (128 * b + i)
  let w := toLe 4 (blockWord b (recs.filter recordOk).length rst)
  let c := (sha256 ((if chain.isEmpty then chainStart store else chain) ++ recs.flatten ++ w)).take 24
  (w ++ c ++ toLe 4 (crc32c (w ++ c)), c)

/-- KEY_ID of a public key (R418). -/
def keyId (pub : Bytes) : Bytes := (sha256 pub).take 8

/-- Append a 128-byte entry to the checkpoint area; beyond 8 192 entries none is written (R419). -/
def addCheck (b : Bytes) (t : Stores) : Stores :=
  if t.wC + 4 ≤ 32768 then
    { t with
      checks := (List.range 4).foldl (fun m i => tset emptySlot m (t.wC + i) (slice b (32 * i) 32)) t.checks
      wC := t.wC + 4 }
  else t

/-- A type-1 checkpoint for block `b` of a store, signed with the identity key; without one it is UNSIGNED
(R418, R419). -/
def checkpoint (store b : Nat) (chain : Bytes) (s : State) : State :=
  let c := s.core
  let signed := !s.onyx.identity.isEmpty
  let head := toLe 4 0x50434B4A ++ toLe 1 1 ++ toLe 1 store ++ toLe 1 (b2n (!signed)) ++ [0]
    ++ toLe 8 Config.serial.toNat ++ toLe 8 (stampOf c) ++ toLe 4 b ++ toLe 4 0 ++ padTo 24 chain ++ keyId c.nv.pub
  let (n, c') := drawNoise c
  if signed then
    { s with store := addCheck (head ++ ecdsaSign s.onyx.identity (sha256 head) n) s.store, core := c' }
  else { s with store := addCheck (head ++ List.replicate 64 0) s.store }

/-- A type-2 entry for an identity key (R418, R419). -/
def keyEntry (pub : Bytes) (s : State) : State :=
  let b := toLe 4 0x50434B4A ++ [2, 0, 0, 0] ++ toLe 8 Config.serial.toNat ++ toLe 8 (stampOf s.core)
    ++ List.replicate 32 0 ++ keyId pub ++ padTo 64 pub
  { s with store := addCheck b s.store }

/-- W of both stores and of the checkpoint area are committed over the older of the two copies, with the next count (R429). -/
def commit (t : Stores) : Stores :=
  { t with committed := (t.wJ, t.wE, t.wC), older := t.committed, commits := t.commits + 1 }

/-- The trailer of the block just filled, its commit, and its checkpoint (R405, R416, R419, R429). -/
def closeBlock (store : Nat) (s : State) : State :=
  let t := s.store
  let w := storeW t store
  if w % 128 ≠ 127 then s
  else
    let b := w / 128
    if store = 0 then
      let r := trailerOf t 0 b t.chainJ t.rstJ
      let t := commit { t with journal := tset emptySlot t.journal w r.1, wJ := w + 1, chainJ := r.2, rstJ := false }
      let s := { s with store := t }
      if b % 256 = 255 then checkpoint 0 b r.2 s else s
    else
      let r := trailerOf t 1 b t.chainE t.rstE
      let t := commit { t with events := tset emptySlot t.events w r.1, wE := w + 1, chainE := r.2, rstE := false }
      let s := { s with store := t }
      if b % 256 = 255 then checkpoint 1 b r.2 s else s

/-- The extremes that a cycle record set take its slot number (R434). -/
def markSlots (p stamp slot : Nat) (c : Core) : Core :=
  { c with recd.stats := (List.range 16).foldl (fun t e =>
      let k := p * 1280 + 1024 + 4 * e
      if statGet t (k + 1) = 0xFFFFFFFF && statGet t (k + 2) = stamp % 2 ^ 32 && statGet t (k + 3) = stamp / 2 ^ 32
        && stamp ≠ 0 then statSet t (k + 1) slot else t) c.recd.stats }

/-- The journal stops once its last slot is written: STORE_FULL, once (R431). -/
def journalFull (s : State) : State :=
  if s.store.wJ = journalSlots then { s with core := event 0x0B2 0x0D [0] s.core } else s

/-- A cycle record reaches the journal; a stopped journal counts it in total 61 (R405, R431). -/
def writeCycle (r : Staged) (s : State) : State :=
  let w := s.store.wJ
  if journalSlots ≤ w then { s with core := totalAdd (byteAt r.bytes 8) 61 s.core }
  else
    let s := { s with
      store := { s.store with journal := tset emptySlot s.store.journal w r.bytes, wJ := w + 1 }
      core := markSlots (byteAt r.bytes 8) (field r.bytes 0 8) w s.core }
    if (w + 1) % 128 = 127 then journalFull (closeBlock 0 s) else s

/-- The record is the TIME_SET of a TIME_ANNOTATE (R408). -/
def isTimeSet (r : Staged) : Bool := !r.cycle && r.code == 0x0B0 && byteAt r.bytes 10 == 0x0D

/-- A TIME_SET that has been written keeps the annotation and completes its operation with the record's stamp
(R408, R115). -/
def annotate (r : Staged) (c : Core) : Core :=
  if isTimeSet r then
    let stamp := field r.bytes 0 8
    let c := { c with nv.annot := some (field r.bytes 20 8, stamp % 2 ^ 42) }
    match r.slot with
    | some k => finish k 0x00 0 (stamp % 2 ^ 32) (stamp / 2 ^ 32) c
    | none => c
  else c

/-- Event records that wait when the log stops are dropped, and their operations complete with STORE_FULL
(R431, R432). -/
def dropEvents (c : Core) : Core :=
  let lost := c.recd.fifo.filter fun r => !r.cycle
  let c := { c with recd.fifo := c.recd.fifo.filter (·.cycle), recd.stoppedE := true }
  lost.foldl (fun c r => match r.slot with
    | some k => finish k 0x60 0 0 0 c
    | none => c) c

/-- The event log takes STORE_FULL in its last record slot and stops (R431). -/
def eventsFull (s : State) : State :=
  if s.store.wE = eventLast then
    let b := eventBytes (stampOf s.core) 0x0B2 0x0D 3 [1]
    let s := closeBlock 1 { s with store := { s.store with events := tset emptySlot s.store.events eventLast b, wE := eventLast + 1 } }
    { s with core := dropEvents s.core }
  else s

/-- An event record reaches the event log (R405). -/
def writeEvent (r : Staged) (s : State) : State :=
  let w := s.store.wE
  if eventLast ≤ w then s
  else
    let s := { s with
      store := { s.store with events := tset emptySlot s.store.events w r.bytes, wE := w + 1 }
      core := annotate r s.core }
    if (w + 1) % 128 = 127 then closeBlock 1 s else eventsFull s

/-- The oldest record of the staging FIFO is written (R425, R428). -/
def writeRecord (s : State) : State :=
  match s.core.recd.fifo with
  | [] => s
  | r :: rest =>
    let s := { s with core.recd.fifo := rest }
    if s.core.recd.failed then s else if r.cycle then writeCycle r s else writeEvent r s

/-- RECORD_WRITE (R425). -/
def execRecordWrite (s : State) : Host.Outcome State Fault Refusal := .next (writeRecord s)

/-- A SUPPRESSED record (R415). -/
def suppressed (code reason : Nat) (x : SupprSt) (c : Core) : Core :=
  event 0x0B1 0x0D [code + reason * 65536, x.count, x.firstMs % 2 ^ 32, x.lastMs % 2 ^ 32] c

/-- SUPPRESSED records of the FIFO drops, in ascending code order; a count is cleared once its record has
taken an entry (R427). -/
def drainSuppressed (c : Core) : Core :=
  if 128 < c.recd.fifo.length || c.recd.powerFail then c
  else c.recd.drops.foldl (fun c e =>
    if c.recd.fifo.length < 248 && !c.recd.failed && !c.recd.stoppedE then
      suppressed e.1 2 e.2 { c with recd.drops := tset {} c.recd.drops e.1 {} }
    else c) c

/-- FIFO_DRAIN_SUPPRESSED (R427). -/
def execFifoDrainSuppressed (s : State) : Host.Outcome State Fault Refusal := .next { s with core := drainSuppressed s.core }

/-- SUPPRESSED records of the refusals, each minute (R422). -/
def minuteSuppressed (c : Core) : Core :=
  if c.nv.opMs % 60000 = 0 then
    { c.recd.refused.foldl (fun c e => suppressed e.1 1 e.2 c) c with recd.refused := [] }
  else c

/-! ### Operations on the stores -/

/-- JOURNAL_READ (R436, R107): START and COUNT of a store, cut at W. -/
def journalDeliver (k : Nat) (d : Bytes) (s : State) : State :=
  let store := byteAt d 8
  let start := field d 12 4
  let count := field d 16 4
  let w := storeW s.store store
  if count = 0 || opLen d = 0 then { s with core := finish k 0x00 0 0 w s.core }
  else if w ≤ start then { s with core := finish k 0x61 0 0 w s.core }
  else
    let n := min (start + count) w - start
    let b := ((List.range n).map fun i => storeSlot s.store store (start + i)).flatten
    let c := hostWrite (opAddr d) b s.core
    { s with core := if n < count then finish k 0x01 0x02 n w c else finish k 0x00 0 n w c }

/-- JOURNAL_READ (R436). -/
def execJournalRead (slot : Fin 512) (s : State) : Host.Outcome State Fault Refusal :=
  .next (startOpS slot 0x30 (journalDeliver slot) s)

/-- The bytes of an area of the statistics as they stood at the latest FRAME (R435). -/
def statBytes (c : Core) (p area : Nat) : Bytes :=
  let o := if area = 0 then 0 else 1024
  ((List.range (if area = 0 then 1024 else 256)).map fun i => toLe 4 (statGet c.nv.stats (p * 1280 + o + i))).flatten

/-- STATS_READ (R435, R107). -/
def statsDeliver (k : Nat) (d : Bytes) (c : Core) : Core :=
  if opLen d = 0 then finish k 0x00 0 0 0 c
  else
    let b := statBytes c (byteAt d 8) (byteAt d 9)
    finish k 0x00 0 b.length 0 (hostWrite (opAddr d) b c)

/-- STATS_READ (R435). -/
def execStatsRead (slot : Fin 512) (s : State) : Host.Outcome State Fault Refusal :=
  .next { s with core := startOp slot 0x31 (statsDeliver slot) s.core }

/-- The latest annotation, with those whose records still wait (R408). -/
def latestAnnot (c : Core) : Option (Nat × Nat) :=
  match c.recd.fifo.reverse.find? isTimeSet with
  | some r => some (field r.bytes 20 8, field r.bytes 0 8 % 2 ^ 42)
  | none => c.nv.annot

/-- The old UTC of a TIME_SET (R408). -/
def oldUtc (c : Core) : Nat :=
  match latestAnnot c with
  | some (u, ms) => (u + (c.nv.opMs - ms) * 1000000) % 2 ^ 64
  | none => 0

/-- TIME_ANNOTATE (R408, R432): its TIME_SET record; it completes when the record is written. -/
def timeDeliver (k : Nat) (d : Bytes) (c : Core) : Core :=
  if c.recd.stoppedE then finish k 0x60 0 0 0 c
  else
    let old := oldUtc c
    let new := field d 8 8
    let ps := [old % 2 ^ 32, old / 2 ^ 32, new % 2 ^ 32, new / 2 ^ 32]
    eventAt 2 0x0B0 0x0D ps c (slot := if k < 512 then some k else none)

/-- TIME_ANNOTATE (R408). -/
def execTimeAnnotate (slot : Fin 512) (s : State) : Host.Outcome State Fault Refusal :=
  .next { s with core := startOp slot 0x32 (timeDeliver slot) s.core }

end Sys2Proof.Machine
end

