-- ==== Sys2Proof/Machine/Security.lean ====
section
/-! DEFINITION. Keys, tamper and life cycle (R454 to R468). -/

namespace Sys2Proof.Machine

/-! ### The Onyx wipe (R455) -/

/-- The ONYX_WIPED record; a logic die held in reset writes it at the next mode entry (R455). -/
def wipedRecord (cause : Nat) (c : Core) : Core :=
  if c.sys.inReset then { c with sys.wipedRec := c.sys.wipedRec ++ [cause] } else event 0x0C2 0x0F [cause] c

/-- The wipe runs to its end: every word 0, the marker cleared, the record written (R455); the certificate of the key goes with
it (R454). -/
def wipeOnyx (cause : Nat) (s : State) : State :=
  { s with onyx := {}, core := wipedRecord cause { s.core with nv.cert := [] } }

/-- ONYX_WIPED: the wipe in progress completes (R455). -/
def execOnyxWiped (s : State) : Host.Outcome State Fault Refusal :=
  .next (if s.onyx.wipePending then wipeOnyx s.onyx.wipeCause s else s)

/-! ### Tamper (R462 to R466) -/

/-- Source codes (R468). -/
def tamperCode : TamperSource → Nat
  | .mesh => 0
  | .temperature => 1
  | .vsup => 2
  | .clock => 3
  | .light => 4

/-- A detection is of class ERASE: the mesh always; the others as CLASS says; all without an image (R462, R463). -/
def tamperErase (c : Core) (src : TamperSource) : Bool :=
  match src, c.run.cfg with
  | .mesh, _ => true
  | _, none => true
  | .temperature, some m => bitOf (img8 m secTamper) 0
  | .vsup, some m => bitOf (img8 m secTamper) 1
  | .clock, some m => bitOf (img8 m secTamper) 2
  | .light, some m => bitOf (img8 m secTamper) 3

/-- An ALARM-class detection (R464). -/
def tamperAlarm (src : TamperSource) (c : Core) : Core :=
  let c := { c with sys.tamperAlarm := true }
  if c.sys.inReset then c else event 0x0C0 0x0F [tamperCode src] c

/-- An erase preempts KEY_INSTALL and LIFECYCLE_ADVANCE in flight (R465). -/
def preemptKeys (c : Core) : Core :=
  (liveSlots c).foldl (fun c e =>
    if slotOp e.2 == 0x60 || slotOp e.2 == 0x61 then finish e.1 0x40 (modeCode c.sys.mode) 0 0 c else c) c

/-- Every host flag but HF15 is cleared (R466). -/
def clearFlags (c : Core) : Core :=
  { c with seq.channels := (List.range 13).foldl (fun t n =>
      tmod {} t n fun h => { h with hf := h.hf &&& 0x8000 }) c.seq.channels }

/-- The life-cycle states in which an erase locks the unit (R465). -/
def inUse (l : LifeCycle) : Bool := l == .provisioned || l == .field

/-- The core's part of an ERASE-class detection (R465, R466). -/
def eraseCore (src : TamperSource) (c : Core) : Core :=
  let c := if c.sys.inReset then c else event 0x0C1 0x0F [tamperCode src, modeCode c.sys.mode] c
  let c := preemptKeys c
  if inUse c.nv.lc then
    let c := if c.sys.inReset then setDevLatch 0x405 c else applyFault ⟨0x405, 255, 255⟩ c
    if stepsIn c.sys.mode && !c.sys.inReset then
      clearFlags { c with sys.erased := true, sys.eraseAge := if c.sys.erased then c.sys.eraseAge else 0 }
    else c
  else c

/-- TAMPER_DETECT (R462): an ALARM sets its flag; an ERASE starts the wipe, which in PARKED ends before the wake. -/
def execTamperDetect (src : TamperSource) (s : State) : Host.Outcome State Fault Refusal :=
  .next (if tamperErase s.core src then
      let s := { s with onyx := { s.onyx with wipePending := true, wipeCause := 1 }, core := eraseCore src s.core }
      if s.core.sys.mode = .parked && !s.core.sys.inReset then parkedExit (wipeOnyx 1 s) else s
    else { s with core := tamperAlarm src s.core })

/-- TAMPER_LOCKOUT: LOCKOUT once no portal moves, or, where it comes late, 10 s after the detection (R466, R44). -/
def execTamperLockout (late : Bool) (s : State) : Host.Outcome State Fault Refusal :=
  .next (if eraseRipe late s.core && !s.core.sys.inReset && !resetting s.core then enterLockout 0xA2 0x0405 { s with core.sys.erased := false }
    else s)

/-! ### KEY_INSTALL (R460) -/

/-- Some offset of `b` begins with `p`. -/
def hasPart (p : Bytes) : Bytes → Bool
  | [] => p.isEmpty
  | x :: r => (x :: r).take p.length == p || hasPart p r

/-- The 65-byte string that an identity certificate holds (R460). -/
def certMark (pub : Bytes) : Bytes := 0x04 :: ((slice pub 0 32).reverse ++ (slice pub 32 32).reverse)

/-- KEY_ID as a number of its first 4 bytes (R468). -/
def keyId4 (pub : Bytes) : Nat := field (keyId pub) 0 4

/-- The conditions of a slot (R460). -/
def keyOk (slot : Nat) (b : Bytes) (s : State) : Bool :=
  if slot = 1 then !s.onyx.identity.isEmpty && hasPart (certMark s.core.nv.pub) b
  else if slot = 48 || slot < 32 then !allZero b
  else !s.fuse.fused && onCurve (field b 0 32) (field b 32 32)

/-- A key or a certificate takes its slot (R454, R460). -/
def putKey (slot : Nat) (b : Bytes) (s : State) : State :=
  if slot = 1 then { s with core.nv.cert := b }
  else if slot = 48 then { s with onyx := { s.onyx with twin := b } }
  else if slot < 32 then { s with onyx := { s.onyx with train := tset [] s.onyx.train (slot - 16) b } }
  else { s with core.nv.authKeys := tset [] s.core.nv.authKeys (slot - 32) b }

/-- P1 of KEY_INSTALLED (R468). -/
def keyP1 (slot : Nat) (b : Bytes) (s : State) : Nat :=
  if slot = 1 then keyId4 s.core.nv.pub else if 32 ≤ slot && slot ≤ 35 then keyId4 b else 0

/-- KEY_INSTALL (R460). -/
def keyDeliver (k : Nat) (d : Bytes) (s : State) : State :=
  let slot := byteAt d 8
  match opRead s.core k with
  | none => { s with core := finish k 0x32 0 0 0 (hpCount 36 s.core) }
  | some b =>
    if !keyOk slot b s then { s with core := finish k 0x12 8 0 0 s.core }
    else
      let s := putKey slot b s
      { s with core := event 0x0C3 0x0F [slot, keyP1 slot b s] (finish k 0x00 0 slot 0 s.core) }

/-- KEY_INSTALL (R460). -/
def execKeyInstall (slot : Fin 512) (s : State) : Host.Outcome State Fault Refusal :=
  .next (startOpS slot 0x60 (keyDeliver slot) s)

/-! ### LIFECYCLE_ADVANCE (R456, R457) -/

/-- A transition of R457, in its mode. -/
def lcAllowed (s : State) (to_ : LifeCycle) : Bool :=
  let m := s.core.sys.mode
  match s.core.nv.lc, to_ with
  | .blank, .provisioned => m == .provision && !s.core.nv.authKeys.isEmpty
  | .provisioned, .field => m == .workshop
  | .provisioned, .returned => m == .workshop
  | .field, .returned => m == .workshop
  | .returned, .provisioned => m == .provision
  | .returned, .scrapped => m == .provision
  | _, _ => false

/-- The 256 B of the four authority slots (R456). -/
def authSlots (c : Core) : Bytes := ((List.range 4).map fun i => padTo 64 (tget [] c.nv.authKeys i)).flatten

/-- The transition from BLANK writes the authority fuse (R456). -/
def fuseAuth (s : State) : State :=
  let h := sha256 (authSlots s.core)
  { s with fuse := { fused := true, hash := h }, core := event 0x0C5 0x0F [field h 0 4, field h 4 4] s.core }

/-- A new identity key, with its type-2 checkpoint entry (R419). -/
def takeIdentity (priv pub : Bytes) (s : State) : State :=
  keyEntry pub { s with onyx := { s.onyx with identity := priv }, core := { s.core with nv.pub := pub } }

/-- Generation of an identity key (R457). -/
def generate (s : State) : State :=
  let (n, c) := drawNoise s.core
  let priv := toLe 32 (beNat (sha256 n) % (p256N - 1) + 1)
  takeIdentity priv (ecPublic priv) { s with core := c }

/-- The state is entered: its key bank wiped, and its certificate (R457). -/
def lifeEnter (to_ : LifeCycle) (s : State) : State := wipeOnyx 2 { s with core := { s.core with nv.lc := to_ } }

/-- The effects of a transition, in order (R456, R457). -/
def lifeTurn (to_ : LifeCycle) (s : State) : State :=
  let u := lifeEnter to_ s
  let u := if s.core.nv.lc = .blank then fuseAuth u else u
  if inUse to_ then generate u else u

/-- The record and the completion of a transition from `old`; a SOFT reset is due (R120). -/
def lifeEnd (k : Nat) (old to_ : LifeCycle) (s : State) : State :=
  let c := finish k 0x00 0 (lcCode to_) 0 (event 0x0C4 0x0F [lcCode old, lcCode to_, 1] s.core)
  { s with core := { c with sys.deferred := true } }

/-- LIFECYCLE_ADVANCE (R457, R61, R120). -/
def lifeDeliver (k : Nat) (d : Bytes) (s : State) : State :=
  let to_ := lcOf (byteAt d 8)
  if !lcAllowed s to_ then { s with core := finish k 0x12 8 0 0 s.core }
  else if claiming s.core && anyMoving s.core then { s with core := finish k 0x50 0x03 0 0 s.core }
  else lifeEnd k s.core.nv.lc to_ (lifeTurn to_ s)

/-- LIFECYCLE_ADVANCE (R457). -/
def execLifecycleAdvance (slot : Fin 512) (s : State) : Host.Outcome State Fault Refusal :=
  .next (startOpS slot 0x61 (lifeDeliver slot) s)

/-! ### CERT_READ (R461) -/

/-- The first 128 bytes. -/
def certHead (s : State) : Bytes :=
  let c := s.core
  let flags := b2n (!s.onyx.identity.isEmpty) + 2 * b2n (!c.nv.cert.isEmpty) + 4 * b2n s.fuse.fused
    + 8 * b2n (!s.onyx.twin.isEmpty)
  toLe 4 0x5452434A ++ toLe 2 1 ++ toLe 1 (lcCode c.nv.lc) ++ toLe 1 flags ++ toLe 8 Config.serial.toNat
    ++ (if c.nv.pub.isEmpty then List.replicate 8 0 else keyId c.nv.pub)
    ++ (if s.fuse.fused then padTo 32 s.fuse.hash else List.replicate 32 0)
    ++ toLe 2 c.nv.cert.length ++ toLe 2 (natBy 16 fun i => !(tget [] s.onyx.train i).isEmpty)
    ++ toLe 4 c.nv.auth.toNat ++ padTo 64 c.nv.pub

/-- CERT_READ (R461, R107). -/
def certDeliver (k : Nat) (d : Bytes) (s : State) : State :=
  if opLen d = 0 then { s with core := finish k 0x00 0 0 0 s.core }
  else
    let head := certHead s
    let (n, c) := drawNoise s.core
    let key := s.onyx.identity
    let sig := if key.isEmpty then List.replicate 64 0 else ecdsaSign key (sha256 head) n
    let c := if key.isEmpty then s.core else c
    { s with core := finish k 0x00 0 c.nv.cert.length 0 (hostWrite (opAddr d) (head ++ sig ++ padTo 832 c.nv.cert) c) }

/-- CERT_READ (R461). -/
def execCertRead (slot : Fin 512) (s : State) : Host.Outcome State Fault Refusal :=
  .next (startOpS slot 0x62 (certDeliver slot) s)

end Sys2Proof.Machine
end

