-- ==== Sys2Proof/Machine/Tick.lean ====
section
/-! DEFINITION. The parts of a tick (R130): roles and faults, masters and actions of the tick before, condition vectors,
channels, operations, Topaz, and the messages to the twin. -/

namespace Sys2Proof.Machine

/-! ### The start of a tick -/

/-- One more tick without a message, and one less to the planned swap (R355, R360, R362, R382). -/
def ageTick (c : Core) : Core :=
  { c with
    twin.age := min 8 (c.twin.age + 1)
    twin.helloAge := min 16 (c.twin.helloAge + 1)
    twin.anyHello := min 16 (c.twin.anyHello + 1)
    twin.swap := c.twin.swap.map fun e => (e.1 - 1, e.2) }

/-- INPUT of the tick has not come (R368). -/
def inputMissing (c : Core) : Bool :=
  standbyIn c && !(c.twin.input.any fun e => e.1 == c.tb.tick)

/-- INPUT_LATE: counted, and the standby becomes UNSYNCED (R368, R385). -/
def inputLate (c : Core) : Core :=
  unsyncCause 2 { c with twin.counters := tmod 0 c.twin.counters 4 (· + 1) }

/-- INPUT_LATE (R368). -/
def execInputLate (s : State) : Host.Outcome State Fault Refusal :=
  .next (if !s.core.sys.inReset && s.core.tb.running && inputMissing s.core then { s with core := inputLate s.core } else s)

/-- LOCKOUT for an erase once no portal moves, or 10 s, that is 80 000 ticks, after the detection (R38, R466). -/
def eraseTick (c : Core) : Core :=
  let c := if c.sys.erased then { c with sys.eraseAge := min 80000 (c.sys.eraseAge + 1) } else c
  if eraseDue c then { c with sys.wantLockout := some (c.sys.wantLockout.getD 0x405) } else c

/-- The role changes and the leaving of WORKSHOP of a tick; a reset and LOCKOUT overtake them (R40). -/
def roleTick (c : Core) : Core :=
  if c.sys.wantLockout.isSome || resetting c then { c with twin.swap := none, twin.relinq := none }
  else if swapDue c then swapNow c
  else if takeoverReady c then takeOver 0x92 c
  else if c.sys.mode == .service && outranked c then yield c
  else keyReturn (conflictTick c)

/-! ### Masters and actions (R133, R165 to R179) -/

/-- What the torque-enable outputs report for the frames of this tick and of the next (R198, R371). -/
def teTick (c : Core) : Core := { c with seq.te := c.seq.teNext, seq.teNext := teReport c }

/-- Measurements of the tick that has ended: forces, energies, the door cycles (R229, R262, R267). -/
def feedbackTick (c : Core) : Core :=
  let c := estimates c
  (List.range 12).foldl (fun c p => cycleFeed p c) c

/-- A portal at a TICK: its master, what its last vector asks of it, the actions, the grant, and the decision on a request that waits
beside it (R148, R165 to R172, R246). -/
def portalTick (p : Nat) (c : Core) : Core :=
  let before := msAt c p
  let c := vectorBrakes p (masterTick p c)
  let c := decideMove p (useGrant p (applyActions p c))
  let c := blankEnds p (masterAfter p before c)
  modCh p (fun h => { h with moveDone := (msAt c p).live && (msAt c p).atEnd }) c

/-- Every portal, then the car; the page-ins that failed before and in the tick are shown (R191). -/
def motionTick (c : Core) : Core :=
  let c := if standbyIn c then c else camVerdicts c
  camFaults <| axesGoOff (coastTick (applyCar ((List.range 12).foldl (fun c p => portalTick p c) c)))

/-! ### Vectors and channels -/

/-- The condition vectors of the channels that step (R130), and the safety stops that they show first (R124). -/
def takeVectors (l : List Nat) (c : Core) : Core :=
  let c := (l.filter (· < 12)).foldl (fun c p => stallSet p c) c
  let m := safeSec c
  let vs := l.map fun n => (n, vectorOf c m n)
  vs.foldl (fun c e =>
    let was := (chAt c e.1).cv.getLsbD 108
    let c := modCh e.1 (fun h => { h with cv := e.2 }) c
    if e.1 < 12 && e.2.getLsbD 108 && !was then safetyStops e.1 c else c) c

/-- What watches the vectors: the obstacle estimator and the door cycles (R226, R236, R411). -/
def watchTick (l : List Nat) (c : Core) : Core :=
  let c := (l.filter (· < 12)).foldl (fun c p => stallTest p (watchVector p ((chAt c p).cv.getLsbD 70) (cycleFlags p c))) c
  edgeWires c

/-- The rest of the sequencer's tick: parts, timeouts, timers, wires, limits, cycles (R116, R142, R317, R324, R410). -/
def afterChannels (c : Core) : Core :=
  let c := timeoutsDue (lockedParts ((liveSlots c).foldl partsReached c))
  let c := forcesTick c
  let c := (List.range 12).foldl (fun c p => cycleEnd p (degradedTick p c)) c
  (List.range 13).foldl (fun c n => (chAt c n).timers.foldl (fun c e =>
    if e.2.due = some (c.seq.now + 1) then { c with seq.due := c.seq.due ++ [.timer n e.1] } else c) c) c

/-- One tick of a unit whose channels step, `held` being the channels that do not step in it (R130 to R135, R381). Topaz evaluates after
the channels, and on the feedback of period 0 of the same tick (R247, R260): a synchronised standby has it with its INPUT, any other
unit once the frames of that period are in (log 3). -/
def stepTick (held : BitVec 13) (c : Core) : Core :=
  let c := motionTick (teTick (feedbackTick c))
  let l := (stepping c).filter fun n => !pbit held n && !(decide (n < 12) && pbit c.seq.coast n)
  let c := watchTick l (takeVectors l c)
  let c := l.foldl (fun c n => runChannel n c) c
  let c := touchAll (afterChannels c)
  if standbyIn c then topazTick c else { c with seq.evalDue := true }

/-- One tick of a unit in any other mode: in LOCKOUT masters brake, and axes go OFF with their torque (R44). -/
def idleTick (c : Core) : Core :=
  let c := teTick c
  if c.sys.mode = .lockout then
    let m := safeSec c
    let c := (List.range 13).foldl (fun c n => modCh n (fun h => { h with queued := [] }) c) c
    (List.range 12).foldl (fun c p =>
      let before := msAt c p
      let c := modMs p (fun x => { x with waiting := none, granted := none }) (masterTick p c)
      let c := masterAfter p before (if safeStopBit c m p then brakeStop p c else c)
      if pbit c.seq.teNext p then c else portalOff p c) c
  else c

/-! ### The input frame (R367, R369) -/

/-- State of the supply groups in the latest sample frame (R354). -/
def groupStates (c : Core) : Table Nat := match c.fld.frame with
  | some f => f.groups
  | none => []

/-- INPUT of the tick (R369), but for what is known only when it leaves: AXIS and CTRL. -/
def inputOf (c : Core) : InputFrame where
  cv := tmake 0 13 fun n => (chAt c n).cv &&& extMask
  field := tmake 0 144 (fieldState c)
  groups := groupStates c
  te := c.seq.teNext
  nonvalid := bitsBy 36 fun x => (linkAt c x).nvTick
  ops := c.twin.carry
  faults := c.twin.carryF

/-- The twin is in SHADOW, as its HELLO of the last 2 ms reports (R367). -/
def twinShadow (c : Core) : Bool := decide (c.twin.anyHello < 16) && c.twin.peer.any fun h => h.1.mode == .shadow

/-- INPUT is formed while the twin is in SHADOW (R361, R367); what it carries is spent, but for faults that have no entry. -/
def formInput (c : Core) : Core :=
  let on := (c.sys.mode == .service || c.sys.mode == .workshop) && claiming c && twinUp c && c.twin.authed && twinShadow c
  { c with
    twin.txInput := if on then some (inputOf c) else none
    twin.carry := []
    twin.carryF := c.twin.carryF.drop 16 }

/-- INPUT goes out, with the feedback of period 0 and whether the unit has entered LOCKOUT in the tick (R368, R369). -/
def sendInput (c : Core) : Core :=
  match c.twin.txInput with
  | some f =>
    twinSend 0x10 (inputBytes { f with axis := tmake {} 36 (axisIn c), lockout := c.sys.mode == .lockout }) { c with twin.txInput := none }
  | none => c

/-- The snapshot of a FRAME goes out after INPUT (R368). -/
def sendSnapshot (c : Core) : Core :=
  match c.twin.txSnap with
  | some (q, m) =>
    let c := { c with twin.txSnap := none }
    if claiming c && twinUp c then emit (.twinSnapshot (twinHeader c 0x11 q snapLen) m) c else c
  | none => c

/-- What a unit sends to its twin within a tick, after the evaluation (R368): INPUT, at a FRAME the snapshot and HELLO, else
pieces of pages and images. -/
def sendTick (c : Core) : Core :=
  let c := sendSnapshot (sendInput c)
  if c.twin.txHello then sendHello { c with twin.txHello := false }
  else if claiming c then (if (c.tb.tick - 1) % 8 = 0 then c else sendPieces c) else { c with twin.txPieces := [] }

/-- What follows the period-0 frames of a tick: the evaluation of Topaz where it is due, then what leaves for the twin and the datasets
of the tick (R247, R368, R396). -/
def finishTick (c : Core) : Core :=
  let c := if c.seq.evalDue then
      let c := { c with seq.evalDue := false }
      if stepsIn c.sys.mode then topazTick c else c
    else c
  if c.twin.sendDue then sendTick (publishDue { c with twin.sendDue := false }) else c

/-! ### The end of a tick -/

/-- The measurements of a tick begin again (R262, R263, R369, R375). -/
def freshTick (c : Core) : Core :=
  { c with
    seq.axes := c.seq.axes.filterMap fun e =>
      let a := { e.2 with iSum := 0, eDrawn := 0, eRegen := 0, vdcMin := none }
      if a = {} then none else some (e.1, a)
    links := c.links.filterMap fun e =>
      let l := { e.2 with nvTick := false, mismTick := false }
      if l = {} then none else some (e.1, l) }

end Sys2Proof.Machine
end

