-- ==== Sys2Proof/Machine/Twin.lean ====
section
/-! DEFINITION. The twin link (R355 to R385): lanes and authentication, what each message does on arrival, the state that a
snapshot carries, and the replay that brings a loaded state up to the present. -/

namespace Sys2Proof.Machine

/-- Count in DIAG_READ item 0x06 at an offset (R385). -/
def twCount (off : Nat) (c : Core) : Core := { c with twin.counters := tmod 0 c.twin.counters off (· + 1) }

/-! ### Lanes and authentication (R365) -/

/-- The twin link takes part: the unit is out of reset and not in PARKED (R367). -/
def linkServed (c : Core) : Bool := !c.sys.inReset && c.sys.mode != .parked

/-- The link comes up on lanes `l`: a nonce, MSEQ from 0, and AUTH (R365, R366). -/
def linkUp (l : BitVec 2) (c : Core) : Core :=
  let (n, c) := drawNoise c
  let c := { c with
    twin.lanes := l
    twin.nonce := padTo 16 n
    twin.nonceT := []
    twin.serialT := none
    twin.answerT := []
    twin.answered := false
    twin.authed := false
    twin.txSeq := []
    twin.rxSeq := []
    twin.txSnap := none
    twin.snapBad := false
    twin.txPieces := [] }
  twinSend 0x00 (padTo 24 c.twin.nonce) c

/-- TWIN_LINK_UP (R365). -/
def execTwinLinkUp (s : State) : Host.Outcome State Fault Refusal :=
  .next (if linkServed s.core && s.core.twin.lanes == 0 then { s with core := linkUp 3 s.core } else s)

/-- A lane is up again; the first one brings the link up. -/
def laneUp (lane : Nat) (c : Core) : Core :=
  if c.twin.lanes = 0 then linkUp (setBit 0 lane true) c else { c with twin.lanes := setBit c.twin.lanes lane true }

/-- TWIN_LANE_UP (R365). -/
def execTwinLaneUp (lane : Fin 2) (s : State) : Host.Outcome State Fault Refusal :=
  .next (if linkServed s.core && !pbit s.core.twin.lanes lane then { s with core := laneUp lane s.core } else s)

/-- A lane loses block lock (R365); without a lane the link is down. -/
def laneDown (lane : Nat) (c : Core) : Core :=
  let l := setBit c.twin.lanes lane false
  event 0x092 0x0B [lane] { c with twin.lanes := l, twin.authed := c.twin.authed && l != 0 }

/-- TWIN_LANE_DOWN (R365). -/
def execTwinLaneDown (lane : Fin 2) (s : State) : Host.Outcome State Fault Refusal :=
  .next (if linkServed s.core && pbit s.core.twin.lanes lane then { s with core := laneDown lane s.core } else s)

/-- The answer over both nonces and both serial numbers in UNIT_ID order (R365). -/
def authAnswer (key : Bytes) (serialT : U64) (c : Core) : Bytes :=
  let own := (c.twin.nonce, toLe 8 Config.serial.toNat)
  let twin := (c.twin.nonceT, toLe 8 serialT.toNat)
  let (a, b) := if unitId c = 0 then (own, twin) else (twin, own)
  (hmac key (a.1 ++ b.1 ++ a.2 ++ b.2)).take 8

/-- CLASH (R375): a standby stays UNSYNCED with this cause. -/
def clash (c : Core) : Core :=
  if c.sys.mode != .shadow then c
  else if c.twin.synced then unsyncNow 8 c
  else { c with twin.cause := 8, twin.quiet := 0, twin.resync := 0 }

/-- The twin's answer is verified (R365). -/
def verifyAnswer (key a : Bytes) (c : Core) : Core :=
  if c.twin.answerT.isEmpty then c
  else if !key.isEmpty && c.twin.answerT == a then { c with twin.answerT := [], twin.authed := true }
  else event 0x093 0x0B [] { c with twin.answerT := [] }

/-- The exchange goes on as soon as the twin's nonce and its serial number are known: the unit answers, and verifies the
twin's answer (R365, log 18). Without a twin-link key it does neither (R375, CLASH). -/
def authAdvance (key : Bytes) (c : Core) : Core :=
  match c.twin.serialT with
  | none => c
  | some sn =>
    if c.twin.nonce.isEmpty || c.twin.nonceT.isEmpty then c
    else
      let a := authAnswer key sn c
      let c := if c.twin.answered || key.isEmpty then c
        else twinSend 0x00 (c.twin.nonce ++ a) { c with twin.answered := true }
      verifyAnswer key a (if key.isEmpty then clash c else c)

/-! ### The header of a message (R364 to R366) -/

/-- The unit listens to its twin (R356). -/
def listens (c : Core) : Bool := paired c && linkServed c

/-- A standby adopts the epoch of a claiming twin (R364); a message with a lower one has been discarded. -/
def adoptEpoch (h : TwinHdr) (c : Core) : Core :=
  if c.sys.mode == .shadow && (h.role == .active || h.role == .solo) then { c with nv.epoch := h.epoch } else c

/-- The header of a message of a TYPE: whether the message is taken, and the core after it. `gone` tells a RELINQUISH, or a
HELLO of a unit that claims nothing (R362). AUTH is taken before authentication (R365). -/
def takeHdr (type : Nat) (h : TwinHdr) (gone : Bool) (c : Core) : Bool × Core :=
  if !listens c || !pbit c.twin.lanes h.lane then (false, c)
  else if !h.ok then (false, twCount 16 c)
  else
    let seen := tget [] c.twin.rxSeq type
    if seen.contains h.mseq then (false, c)
    else
      let c := { c with twin.rxSeq := tset [] c.twin.rxSeq type ((h.mseq :: seen).take 64) }
      if type ≠ 0 && !c.twin.authed then (false, c)
      else if epochLower h.epoch c.nv.epoch then (false, twCount 20 c)
      else (true, adoptEpoch h { c with twin.age := 0, twin.epoch := some h.epoch, twin.gone := gone })

/-- A message whose payload has or has not the length that LEN and its TYPE ask for (R366). -/
def sized (ok : Bool) (h : TwinHdr) : TwinHdr := { h with ok := h.ok && ok }

/-- A message whose effect lies in the core. -/
def onMessage (type : Nat) (h : TwinHdr) (gone : Bool) (f : Core → Core) (s : State) : State :=
  let r := takeHdr type h gone s.core
  if r.1 then { s with core := f r.2 } else { s with core := r.2 }

/-- AUTH: the first of a link-up brings the nonce, a later one the answer too (R365). -/
def takeAuth (key : Bytes) (h : TwinHdr) (nonce answer : Bytes) (c : Core) : Core :=
  authAdvance key { c with twin.nonceT := nonce, twin.answerT := if h.mseq = 0 then c.twin.answerT else answer }

/-- AUTH (R365). -/
def execAuth (h : TwinHdr) (nonce answer : Bytes) (s : State) : Host.Outcome State Fault Refusal :=
  .next (onMessage 0x00 (sized (nonce.length == 16 && answer.length == 8) h) false (takeAuth s.onyx.twin h nonce answer) s)

/-! ### HELLO (R355, R367, R375, R379) -/

/-- The twin runs the same images (R377, R379). -/
def sameHashes (c : Core) (m : Hello) : Bool :=
  let o := helloOf c
  m.cfgHash == o.cfgHash && m.progHash == o.progHash && m.dirHash == o.dirHash

/-- LINK_PORT equals the twin's (R195). -/
def portClash (c : Core) (m : Hello) : Bool := m.linkPort == img8 (cfgOf c) secAxis

/-- A cause CLASH that a claiming twin's HELLO shows (R375). -/
def helloClash (c : Core) (h : TwinHdr) (m : Hello) : Bool :=
  h.unitId == unitId c || portClash c m || m.dieRev != Config.dieRev || (c.nv.hadImages && !sameHashes c m)

/-- A standby and the HELLO of its claiming twin (R195, R375, R379). LINK_PORT_CLASH is recorded once for each entry into
the cause. -/
def standbyHello (h : TwinHdr) (m : Hello) (c : Core) : Core :=
  if helloClash c h m then
    let c := if portClash c m && c.twin.cause ≠ 8 then raise 0x403 255 255 (event 0x043 0x05 [] c) else c
    clash c
  else if c.twin.synced && !sameHashes c m then clash c
  else c

/-- The claiming unit sends its stored images once per reset of its standby (R379). -/
def sendImages (c : Core) : Core :=
  let img (kind ch : Nat) (m : Option Image) (c : Core) : Core := match m with
    | some m => sendImage kind ch (imgBytes m) c
    | none => c
  let c := img 1 0 c.nv.cfg { c with twin.imgSent := true }
  let c := c.nv.progs.foldl (fun c e => img 2 e.1 (some e.2) c) c
  img 3 0 c.nv.dir c

/-- The claiming unit and the HELLO of its twin. -/
def claimingHello (h : TwinHdr) (m : Hello) (c : Core) : Core :=
  let c := { c with
    twin.imgSent := c.twin.imgSent && h.mode == .shadow
    twin.resync := if h.role == .standby && h.unsynced then c.twin.resync else 0 }
  if h.role == .standby && !sameHashes c m && !c.twin.imgSent then sendImages c else c

/-- HELLO is taken. -/
def takeHello (h : TwinHdr) (m : Hello) (c : Core) : Core :=
  let claims := h.role == .active || h.role == .solo
  let c := { c with
    twin.peer := some (h, m)
    twin.anyHello := 0
    twin.helloAge := if h.role == .standby then 0 else c.twin.helloAge
    nv.hadImages := c.nv.hadImages && h.mode != .selftest }
  let c := setRole c
  if c.sys.mode == .shadow && claims then standbyHello h m c
  else if claiming c then claimingHello h m c
  else c

/-- The serial number of a HELLO with a good CRC serves the authentication, also before it is complete (log 18). -/
def noteSerial (key : Bytes) (h : TwinHdr) (m : Hello) (c : Core) : Core :=
  if listens c && pbit c.twin.lanes h.lane && h.ok && !epochLower h.epoch c.nv.epoch && !c.twin.authed then
    authAdvance key { c with twin.serialT := some m.serial }
  else c

/-- HELLO (R367). -/
def execHello (h : TwinHdr) (m : Hello) (s : State) : Host.Outcome State Fault Refusal :=
  .next (onMessage 0x01 h (h.role != .active && h.role != .solo) (takeHello h m) { s with core := noteSerial s.onyx.twin h m s.core })

/-! ### SYNC and DELAY (R28, R29, R31) -/

/-- One exchange: its offset, the average of the last 8, and TB_DRIFT (R28, R29, R31). While fewer than 8 have been made, the
average is over those made (log 13). A unit that is to step does not slew (R30). -/
def takeOffset (o : Int) (c : Core) : Core :=
  let l := (o :: c.tb.offs).take 8
  let avg := roundDiv (l.foldl (· + ·) 0) l.length
  let n := if 20 < o.natAbs then c.tb.drift + 1 else 0
  let c := { c with tb.offs := l, tb.avg := avg, tb.drift := n, tb.slew := if unsynced c && 1000 < avg.natAbs then 0 else -avg.sign }
  if n = 3 then unsyncCause 4 { c with tb.drift := 0 } else c

/-- A standby receives SYNC: the exchange before is complete with its t4, and DELAY answers (R28); half of an odd difference is
rounded as every quotient (log 13). A SYNC without a t4 tells that no DELAY reached the active: no offset is taken (log 18). When the
reply leaves is left open: a free time-base value from t2 on (R24, log 5). -/
def takeSync (t1 t4 t2 : Nat) (c : Core) : Core :=
  if c.sys.mode != .shadow then c
  else
    let c := match c.tb.t12 with
      | some (a, b) => if t4 = 0 then c else takeOffset (roundDiv (((b : Int) - a) - ((t4 : Int) - c.tb.t3)) 2) c
      | none => c
    let (v, c) := draw c
    let t3 := 8 * (t2 / 8 + v.toNat % (2 ^ 61 - t2 / 8))
    twinSend 0x03 (toLe 8 t3) { c with tb.t12 := some (t1, t2), tb.t3 := t3 }

/-- SYNC (R28). -/
def execSync (h : TwinHdr) (t1 t4 t2 : Nat) (s : State) : Host.Outcome State Fault Refusal :=
  .next (onMessage 0x02 h false (takeSync t1 t4 t2) s)

/-- DELAY reaches the claiming unit, which returns t4 in its next SYNC (R28). -/
def execDelay (h : TwinHdr) (t3 t4 : Nat) (s : State) : Host.Outcome State Fault Refusal :=
  .next (onMessage 0x03 h false (fun c => if claiming c && t3 < 2 ^ 64 then { c with tb.t4 := t4 } else c) s)

/-! ### Operations of the active (R112, R371, R458) -/

/-- The descriptor of a carried operation. -/
def opDesc (o : InOp) : Bytes := padTo 64 (toLe 1 o.opcode ++ List.replicate 7 0 ++ padTo 32 o.operands)

/-- A KEY_INSTALL or LIFECYCLE_ADVANCE of the active is recorded, and nothing is applied (R458). -/
def recordOnly (d : Bytes) (c : Core) : Core :=
  if byteAt d 0 = 0x60 then event 0x0C3 0x0F [byteAt d 8, 0] c
  else event 0x0C4 0x0F [lcCode c.nv.lc, byteAt d 8, 1] c

/-- The effect of a carried operation in slot `k`; loads take effect with their IMAGE (log 16). -/
def carriedEffect (k : Nat) (d : Bytes) (c : Core) : Core :=
  match byteAt d 0 with
  | 0x10 => requestDeliver k d c
  | 0x11 => stopDeliver k d c
  | 0x12 => carDeliver k d c
  | 0x18 => flagsDeliver k d c
  | 0x23 | 0x24 => camWant k d c
  | 0x25 => camUnpin k d c
  | 0x32 => timeDeliver k d c
  | 0x38 => manualDeliver k d c
  | 0x40 => learnDeliver k d c
  | 0x48 => forceDeliver k d c
  | 0x50 => clearDeliver k d c
  | _ => finish k 0x00 0 0 0 c

/-- A standby executes one operation of its active. -/
def carriedOp (o : InOp) (c : Core) : Core :=
  let d := opDesc o
  if o.opcode = 0x60 || o.opcode = 0x61 then recordOnly d c
  else
    let k := carriedSlot c
    carriedEffect k d (setSlot k (some {
      desc := d, mask := heldMask d, blocked := blockedPortals c, started := true, visible := c.seq.now + 1, gen := (flowAt c 0).gen }) c)

/-! ### INPUT (R368, R369, R371) -/

/-- A standby receives INPUT: retained for 16 ticks (R374), and what it asks for is done (R213, R371). -/
def takeInput (h : TwinHdr) (f : InputFrame) (c : Core) : Core :=
  if c.sys.mode != .shadow then c
  else
    let c := twCount 0 { c with
      twin.input := some (h.tick, f)
      twin.kept := ((h.tick, f) :: c.twin.kept.filter fun e => e.1 != h.tick).take 16 }
    if standbyIn c then
      let c := ((List.range 36).filter f.nonvalid.getLsbD).foldl (fun c x => muteLink x c) c
      f.ops.foldl (fun c o => carriedOp o c) c
    else c

/-- INPUT (R369), as its payload spells it. -/
def execInput (h : TwinHdr) (b : Bytes) (s : State) : Host.Outcome State Fault Refusal :=
  .next (onMessage 0x10 (sized (b.length == inputLen) h) false (takeInput h (inputFrom b)) s)

/-! ### The state that a snapshot carries (R372) -/

/-- Carried operations whose state a snapshot holds: those that run on in both units alike (log 18). -/
def carriesState (op : Nat) : Bool := [0x10, 0x11, 0x12, 0x23, 0x24, 0x38, 0x40, 0x48].contains op

/-- The unit's state at a FRAME. -/
def snapOf (base : Bool) (c : Core) : Snapshot where
  tick := c.tb.tick
  now := c.seq.now
  base := base
  dieRev := Config.dieRev
  channels := c.seq.channels
  carFlags := c.seq.carFlags
  masters := c.seq.masters
  axes := c.seq.axes
  obst := c.seq.obst
  topaz := c.seq.topaz
  latches := c.nv.latches
  isolated := c.nv.isolated
  degraded := c.nv.degraded
  cycles := c.seq.cycles
  curves := c.nv.curveB
  valid := c.nv.valid
  lBase := c.nv.lBase
  pages := c.cam.pages.map fun e => (e.1, { e.2 with data := {} })
  forces := c.seq.forces
  carry := (liveSlots c).filter fun e => e.2.started && carriesState (slotOp e.2)
  carSlot := c.seq.carSlot

/-- A request with its operation slots renamed. -/
def mapReq (f : Nat → Nat) (r : MoveReq) : MoveReq :=
  { r with slot := r.slot.map f, group := r.group.map fun e => (e.1, f e.2) }

/-- A snapshot with its operation slots renamed: a standby holds the active's slot k as 512 + k (log 16). -/
def mapSlots (f : Nat → Nat) (m : Snapshot) : Snapshot :=
  { m with
    channels := m.channels.map fun e =>
      (e.1, { e.2 with queued := e.2.queued.map fun a => { a with group := a.group.map fun g => (g.1, f g.2) } })
    masters := m.masters.map fun e => (e.1, { e.2 with
      slot := e.2.slot.map f
      waiting := e.2.waiting.map (mapReq f)
      granted := e.2.granted.map fun g => { g with req := mapReq f g.req } })
    obst := m.obst.map fun e => (e.1, { e.2 with opSlot := e.2.opSlot.map f })
    topaz := { m.topaz with
      closedHolders := m.topaz.closedHolders.map f
      lastStart := m.topaz.lastStart.map fun e => (f e.1, e.2) }
    forces := m.forces.map fun e => (e.1, e.2.map fun o => { o with slot := f o.slot })
    carry := m.carry.map fun e => (f e.1, e.2)
    carSlot := m.carSlot.map f }

/-- A slot as both units hold it alike. -/
def plainSlot (x : SlotSt) : SlotSt :=
  { x with
    flow := 0, gen := 0, sqIndex := 0, fEpoch := 0, crcBad := false, data := none, blocked := 0
    desc := toLe 1 (slotOp x) ++ slice x.desc 8 32 }

/-- A snapshot without what the two units hold differently: slot numbers, record stamps and page stamps (log 18). -/
def plainSnap (m : Snapshot) : Snapshot :=
  let m := mapSlots (fun _ => 0) m
  { m with
    base := false
    channels := m.channels.map fun e => (e.1, { e.2 with camFault := e.2.camRefused, quickAt := none })
    topaz := { m.topaz with lastStart := [] }
    latches := m.latches.map fun e => (e.1, { e.2 with stamp := 0 })
    pages := m.pages.map fun e => (e.1, { e.2 with lastUse := 0, data := {} })
    carry := [] }

/-- The carried operations of a snapshot, in any order. -/
def plainCarry (m : Snapshot) : List SlotSt :=
  (m.carry.filter fun e => slotOp e.2 != 0x23 && slotOp e.2 != 0x24).map fun e => plainSlot e.2

/-- What the comparison leaves out: the axes of links that were muted, and the OBSTACLE blocks of their portals (R373). -/
def leaveOut (links : BitVec 36) (m : Snapshot) : Snapshot :=
  let out (x : Nat) : Bool := links.getLsbD x
  let por (p : Nat) : Bool := out (3 * p) || out (3 * p + 1) || out (3 * p + 2)
  { m with
    axes := m.axes.filter fun e => !out e.1
    obst := m.obst.filter fun e => !por e.1
    curves := m.curves.filter fun e => !por (e.1 / 1536)
    valid := m.valid.filter fun e => !por (e.1 / 2)
    lBase := m.lBase.filter fun e => !por (e.1 / 2) }

/-- A snapshot shows no difference to the own image outside the left-out parts (R373). -/
def snapAgrees (links : BitVec 36) (m own : Snapshot) : Bool :=
  leaveOut links (plainSnap m) == leaveOut links (plainSnap own) && (plainCarry m).isPerm (plainCarry own)
    && (m.topaz.lastStart.map Prod.snd).isPerm (own.topaz.lastStart.map Prod.snd)

/-- A page of a loaded page table: its data are those that PAGE has brought (R378). -/
def loadPage (own : Table PageSt) (k : Nat) (g : PageSt) : PageSt :=
  let o := tget {} own k
  if o.table = g.table && (o.state == 2 || o.state == 3) then { g with data := o.data } else {}

/-- The state sections of a snapshot become the unit's state (R374, R378). -/
def loadState (m : Snapshot) (c : Core) : Core :=
  { c with
    seq.now := m.now
    seq.channels := m.channels
    seq.carFlags := m.carFlags
    seq.masters := m.masters
    seq.axes := m.axes
    seq.obst := m.obst
    seq.topaz := m.topaz
    seq.cycles := m.cycles
    seq.forces := m.forces
    seq.carSlot := m.carSlot
    seq.faultQ := []
    seq.due := c.seq.due.filter ofFrame
    seq.restart := 0
    seq.coast := 0
    seq.coastAx := []
    nv.latches := m.latches
    nv.isolated := m.isolated
    nv.degraded := m.degraded
    nv.curveB := m.curves
    nv.valid := m.valid
    nv.lBase := m.lBase
    cam.pages := m.pages.filterMap fun e => let g := loadPage c.cam.pages e.1 e.2; if g = {} then none else some (e.1, g)
    cam.waits := (m.carry.filter fun e => slotOp e.2 == 0x23 || slotOp e.2 == 0x24).map fun e => (e.1, field e.2.desc 8 2)
    host.slots := (c.host.slots.filter fun e => decide (e.1 < 512)) ++ m.carry.map fun e => (e.1, some e.2) }

/-! ### Replay (R374, R378) -/

/-- One tick again, from its retained INPUT. -/
def replayTick (f : InputFrame) (r : Core) : Core :=
  let r := f.ops.foldl (fun r o => carriedOp o r) { r with twin.input := some (r.tb.tick, f) }
  let r := faultTick (clearTick (settleTick (restartChannels r)))
  let r := stepTick 0 (loadCount (r.tb.tick * 125000) { r with seq.now := r.seq.now + 1 })
  let r := freshTick r
  { r with tb.tick := r.tb.tick + 1 }

/-- One current period again, from its retained up frames. -/
def replayPeriod (q : Nat) (r : Core) : Core :=
  let rx (x : Nat) : Option UpRx := (r.twin.keptUp.find? fun e => e.1 == q && e.2.1 == x).map fun e => { bytes := e.2.2 }
  let ls : Table LinkSt := (List.range 36).map fun x =>
    (x, { linkAt r x with locked := true, rx := rx x, sent := some (q % 65536, downFrame r x (q % 65536)) })
  let kept := r.twin.keptUp
  let r := cutoff { r with tb.cp := q + 1, links := ls }
  { r with twin.keptUp := kept }

/-- The replay of `n` ticks from the scratch core's tick; `cp` is the index of the next period of the unit. -/
def replayFrom (cp : Nat) : Nat → Core → Core
  | 0, r => r
  | n + 1, r =>
    let t := r.tb.tick
    let r := match r.twin.kept.find? fun e => e.1 == t with
      | some e => replayTick e.2 r
      | none => replayTick {} r
    let done (q : Nat) : Bool := decide (q + 1 < cp) || (decide (q < cp) && r.twin.keptUp.any fun e => e.1 == q)
    let r := ((List.range 4).map (4 * t + ·)).foldl (fun r q => if done q then replayPeriod q r else r) r
    replayFrom cp n r

/-- The state that a snapshot grows into by now, in a scratch core: outputs and records are untouched. -/
def caughtUp (m : Snapshot) (c : Core) : Core :=
  let r := loadState m c
  let before : BitVec 12 := match c.twin.kept.find? fun e => e.1 + 1 == m.tick with
    | some e => e.2.te
    | none => 0
  let r := { r with tb.tick := m.tick, sys.mode := .shadow, twin.synced := true, seq.te := before, seq.teNext := before }
  replayFrom c.tb.cp (c.tb.tick - m.tick) r

/-- The base snapshot is loaded, and the unit catches up from what it has retained (R378). -/
def applyBase (m : Snapshot) (c : Core) : Core :=
  let m := mapSlots (512 + ·) m
  let r := caughtUp m c
  let got := { snapOf false r with pages := r.cam.pages, carry := (liveSlots r).filter fun e => decide (512 ≤ e.1) }
  let c := loadState got { c with cam.pages := r.cam.pages }
  { c with
    seq.due := c.seq.due ++ r.seq.due.filter fun d => !ofFrame d
    seq.faultQ := r.seq.faultQ
    seq.te := r.seq.te
    seq.teNext := r.seq.teNext
    twin.resync := 2
    twin.badSnaps := 0
    twin.lastSnap := some m }

/-- A good snapshot is applied to the links that are muted; a link without a mute cause since then resumes with period 0
of the next tick (R213, R374). -/
def applyMuted (m : Snapshot) (c : Core) : Core :=
  let xs := (List.range 36).filter fun x => axisConf (cfgOf c) x && (linkAt c x).muted
  if xs.isEmpty then c
  else
    let r := caughtUp (mapSlots (512 + ·) m) c
    let ps := (List.range 12).filter fun p => xs.any fun x => x / 3 == p
    let c := xs.foldl (fun c x => modAx x (fun _ => axAt r x) c) c
    let c := ps.foldl (fun c p => modOb p (fun o => { obAt r p with opSlot := o.opSlot }) c) c
    let mine {α : Type} (d : Nat) (own new : Table α) : Table α :=
      (List.range 12).flatMap fun p => (if ps.contains p then new else own).filter fun e => e.1 / d == p
    let c := { c with
      nv.curveB := mine 1536 c.nv.curveB r.nv.curveB
      nv.valid := mine 2 c.nv.valid r.nv.valid
      nv.lBase := mine 2 c.nv.lBase r.nv.lBase }
    xs.foldl (fun c x => modLink x (fun l => { l with unmute := !l.mutedIn }) c) c

/-- The first snapshot after a base compares equal: the standby is synchronised, and each link without a mute cause resumes
with period 0 of the next tick (R378). -/
def becomeSynced (c : Core) : Core :=
  let c := event 0x095 0x0B [] { c with twin.synced := true, twin.resync := 0, twin.quiet := 0 }
  ((List.range 36).filter (axisConf (cfgOf c))).foldl (fun c x =>
    modLink x (fun l => { l with muted := true, unmute := !l.mutedIn }) c) c

/-- A good snapshot (R373, R374). -/
def goodSnapshot (m : Snapshot) (c : Core) : Core :=
  let c := twCount 8 { c with twin.badSnaps := 0, twin.silent := false, twin.lastSnap := some m }
  if c.twin.resync = 2 then becomeSynced c else applyMuted m c

/-- A standby receives a snapshot, to handle it in the next tick (R373). -/
def takeSnapshot (m : Snapshot) (c : Core) : Core :=
  if c.sys.mode == .shadow then { c with twin.snapIn := some m } else c

/-- A standby handles the snapshot of FRAME F (R373, R378); one whose buffers could not be read is bad (R440), and a base ends the
procedure then. -/
def handleSnapshot (m : Snapshot) (c : Core) : Core :=
  if c.sys.mode != .shadow then c
  else if c.twin.snapBad then
    let c := { c with twin.snapBad := false, twin.image := none }
    if standbyIn c then badSnapshot c else { c with twin.resync := 0 }
  else if m.base && c.twin.resync == 1 && m.dieRev == Config.dieRev then applyBase m { c with twin.image := none }
  else if !standbyIn c then c
  else match c.twin.image with
    | none => c
    | some own =>
      if m.tick ≠ own.tick then c
      else
        let c := { c with twin.image := none }
        if m.dieRev == Config.dieRev && snapAgrees c.twin.leftOut m own then goodSnapshot m c else badSnapshot c

/-- SNAPSHOT (R373). -/
def execSnapshot (h : TwinHdr) (m : Snapshot) (s : State) : Host.Outcome State Fault Refusal :=
  .next (onMessage 0x11 h false (takeSnapshot m) s)

/-- What a tick makes of the snapshot of the FRAME before it: handled during the tick after (R373); one that has not come by
its TICK is bad. -/
def snapshotTick (c : Core) : Core :=
  let c := match c.twin.snapIn with
    | some m => if m.tick < c.tb.tick then handleSnapshot m { c with twin.snapIn := none } else c
    | none => c
  snapshotMissing c

/-! ### PAGE (R194) -/

/-- A page is complete: it is written where its data match the unit's own stored directory (R194). -/
def pageComplete (page table : Nat) (b : Bytes) (c : Core) : Core :=
  match c.nv.dir with
  | some d =>
    if dirPresent d table && sha256 b == dirHash d table then
      camServe table page (camSupplied table (setPage page { state := 2, table, lastUse := readTb islMot c, data := imgOf b } c))
    else unsyncCause 5 c
  | none => unsyncCause 5 c

/-- A piece of a transfer follows what has been received of it. -/
def joinPiece (old : Option (Nat × Nat × Bytes)) (a b offset : Nat) (data : Bytes) : Option Bytes :=
  if offset = 0 then some data
  else match old with
    | some (a', b', l) => if a' = a && b' = b && l.length = offset then some (l ++ data) else none
    | none => none

/-- A standby receives a piece of a page. -/
def takePage (m : PagePiece) (c : Core) : Core :=
  if c.sys.mode != .shadow then c
  else
    let c := twCount 24 c
    match joinPiece c.twin.pageBuf m.page m.table m.offset m.data with
    | none => { c with twin.pageBuf := none }
    | some b =>
      if m.last then pageComplete m.page m.table b { c with twin.pageBuf := none }
      else { c with twin.pageBuf := some (m.page, m.table, b) }

/-- PAGE (R194): up to 4 096 bytes of data (R367). -/
def execPage (h : TwinHdr) (m : PagePiece) (s : State) : Host.Outcome State Fault Refusal :=
  .next (onMessage 0x12 (sized (decide (m.data.length ≤ 4096)) h) false (takePage m) s)

/-! ### IMAGE (R119, R379) -/

/-- A standby stores a complete image that passes the checks of its load (R379). -/
def storeImage (kind ch : Nat) (tables : Table Bytes) (b : Bytes) (s : State) : State :=
  let m := imgOf b
  match kind with
  | 1 => if (cfgCheck s.core m).isNone then storeConfig m s else s
  | 2 => if ch < 13 && (progCheck s.core ch m).isNone then { s with core := storeProgram ch m s.core } else s
  | 3 =>
    let ids := dirResidents m
    let ok := (dirCheck s.core m).isNone && (ids.all fun id => (pageReason m id (tget [] tables id)).isNone) && tablesIn s.core m
    if ok then { s with core := dirStore m (ids.map fun id => (id, imgOf (tget [] tables id))) s.core } else s
  | _ => s

/-- A standby that is not synchronised has stored an image: it will restart with a SOFT reset (R379). -/
def noteImage (c : Core) : Core :=
  if standbyIn c then c else { c with twin.imgSeen := true, nv.hadImages := true }

/-- A standby receives a piece of an image. -/
def takeImage (m : ImagePiece) (s : State) : State :=
  let c := s.core
  if c.sys.mode != .shadow then s
  else
    let c := if standbyIn c then c else { c with twin.quiet := 0 }
    match joinPiece c.twin.imgBuf m.kind m.channel m.offset m.data with
    | none => { s with core := { c with twin.imgBuf := none } }
    | some b =>
      if b.length = m.total then
        let s := storeImage m.kind m.channel m.tables b { s with core := { c with twin.imgBuf := none } }
        { s with core := noteImage s.core }
      else { s with core := { c with twin.imgBuf := some (m.kind, m.channel, b) } }

/-- IMAGE (R379): up to 4 096 bytes of data (R367). -/
def execImage (h : TwinHdr) (m : ImagePiece) (s : State) : Host.Outcome State Fault Refusal :=
  .next (
    let r := takeHdr 0x13 (sized (decide (m.data.length ≤ 4096)) h) false s.core
    if r.1 then takeImage m { s with core := r.2 } else { s with core := r.2 })

/-! ### RESYNC_REQ and RELINQUISH (R378, R382) -/

/-- The claiming unit begins a resynchronisation: every VALID page that is not resident, and a base snapshot with the next
FRAME (R378). -/
def takeResync (c : Core) : Core :=
  if !claiming c then c
  else
    let c := c.cam.pages.foldl (fun c e => if e.2.state = 2 then sendPage e.1 e.2.table (imgBytes e.2.data) c else c) c
    { c with twin.base := true, twin.resync := 1 }

/-- RESYNC_REQ (R378). -/
def execResyncReq (h : TwinHdr) (s : State) : Host.Outcome State Fault Refusal :=
  .next (onMessage 0x14 h false takeResync s)

/-- RELINQUISH names the last claimed tick (R362, R382): one that lies ahead announces a planned swap. -/
def takeRelinquish (last : Nat) (c : Core) : Core :=
  if c.sys.mode == .shadow then { c with twin.relinq := if c.tb.tick ≤ last then some last else c.twin.relinq } else c

/-- RELINQUISH (R382). -/
def execRelinquish (h : TwinHdr) (last : Nat) (s : State) : Host.Outcome State Fault Refusal :=
  .next (onMessage 0x15 h true (takeRelinquish last) s)

/-! ### SELFTEST_HELLO (R367) -/

/-- HELLO from step 7 until the time base starts in step 8 (R367). -/
def execSelftestHello (s : State) : Host.Outcome State Fault Refusal :=
  .next (if s.core.sys.mode == .selftest && !s.core.sys.inReset && (s.core.sys.stStep == 7 || (s.core.sys.stStep == 8 && !s.core.tb.running)) then
      { s with core := sendHello s.core }
    else s)

/-! ### DIAG_READ item 0x06 (R385) -/

/-- Classification of a role line: 0 lost, or not yet present; 1 normal claim; 2 lock-out claim (R358). -/
def lineCode (i : IslOut) : Nat := if !i.present then 0 else if i.lockClaim then 2 else 1

/-- The item. -/
def diagTwin (c : Core) : Bytes :=
  let n (o : Nat) : Bytes := toLe 4 (tget 0 c.twin.counters o).toNat
  n 0 ++ n 4 ++ n 8 ++ n 12 ++ n 16 ++ n 20 ++ n 24 ++ toLe 2 c.twin.entries ++ toLe 1 c.twin.cause
    ++ toLe 1 (c.twin.lanes.toNat + 4 * b2n c.twin.authed + 8 * b2n c.twin.synced)
    ++ toLe 4 (unsigned 32 c.tb.avg) ++ toLe 2 (lineCode c.crossA + 4 * lineCode c.crossB)
    ++ toLe 2 (c.twin.epoch.getD 0).toNat ++ List.replicate 24 0

end Sys2Proof.Machine
end

