-- ==== Sys2Proof/Machine/SeqTick.lean ====
section
/-! DEFINITION. SEQ_TICK (R130): the whole of a tick at its TICK: what was due, the twin's snapshot, the parts of the tick, the
crossings to the islands and the field die, and the entries into LOCKOUT and PARKED. -/

namespace Sys2Proof.Machine

/-- What a TICK finds: detections, the twin's silence, a missing INPUT, LOCKOUT_RESET, open wires, faults. -/
def tickStart (c : Core) : Core :=
  let c := snapshotTick (linkLost (settleTick (restartChannels c)))
  let c := setRole (if inputMissing c then inputLate c else c)
  eraseTick (faultTick (wireTick (clearTick c)))

/-- The tick of the core, up to what it hands to the islands; what the tick before has left over is finished first. -/
def tickCore (c : Core) : Core :=
  let c := latchTick (finishTick c)
  let c := tickStart (countTo (c.tb.tick * 125000) c)
  let before := c.seq.restart
  let c := ageTick (roleTick c)
  let held := c.seq.restart &&& ~~~before
  let c := { c with seq.now := c.seq.now + 1 }
  let c := if stepsIn c.sys.mode then pageSync (stepTick held c) else idleTick c
  let c := freshTick (formInput c)
  { c with tb.tick := c.tb.tick + 1, twin.sendDue := true }

/-- The crossing from SEQ to an island (R272, R319, R330). -/
def crossSeq (c : Core) (clr : Option (BitVec 12 × BitVec 12)) (i : IslSt) : IslSt :=
  { i with
    motion := tmake 0 12 (motionOf c)
    axesOff := bitsBy 12 fun p => (portalAxes (cfgOf c) p).all fun x => (axAt c x).st == .off
    mode := c.sys.mode
    manual := bitsBy 12 (manualAt c)
    txOn := txLinks c
    inStop := i.inStop ||| c.seq.safeStop
    inSwitch := i.inSwitch ||| c.seq.switchPt
    inLatch := i.inLatch ||| c.seq.setLatch
    inCopy := c.nv.latches
    inIso := i.inIso ||| c.seq.setIso
    clear := match clr with
      | some (p, q) => some (p, q, i.tick)
      | none => i.clear
    seqAge := 0 }

/-- What the tick hands to the islands and to the field die (R272, R345). `fresh` tells a LOCKOUT_RESET of this tick. -/
def tickDeliver (fresh : Bool) (s : State) : State :=
  let c := s.core
  let clr := if fresh then c.seq.clearReq.map fun r => (r.pm, r.im) else none
  { s with
    isa := crossSeq c clr s.isa
    isb := crossSeq c clr s.isb
    die := { s.die with cmd := some (runBit c.sys.mode, commandImage c) }
    core := { c with seq.safeStop := 0, seq.switchPt := 0, seq.setLatch := 0, seq.setIso := 0 } }

/-- Every completion that has a free entry is written (R43). -/
def flushCompletions (c : Core) : Core := (List.range (finished c).length).foldl (fun c _ => writeCompletion c) c

/-- An island in PARKED: no sample frames come, and none is missed (R69, R343). -/
def islParked (i : IslSt) : IslSt :=
  { i with mode := .parked, due := i.due.filter fun d => d != .framesMissing && d != .linkLost }

/-- PARKED entry (R43, R69): operations end, the mirror is written a last time, and the flush begins. -/
def parkedEntry (s : State) : State :=
  let c := axesAllOff (changeMode .parked 0x98 0 0 s.core)
  let c := writeMirror (flushCompletions c)
  let c := { c with sys.parkDb := if (flowAt c 0).state = .enabled then some (flowAt c 0).st.toNat else none, sys.wake := false
                    sys.parkImage := commandImage s.core }
  startFlush .parked true none { s with
    isa := islParked s.isa, isb := islParked s.isb, die := { s.die with parked := true }, core := c }

/-- The triggers of R40 that end a tick: none while a reset has been triggered; LOCKOUT, else PARKED; a role change or the leaving of WORKSHOP in the same tick has
overtaken a park request, which is lost. `m` is the mode at the start of the tick. -/
def tickEntries (m : Mode) (s : State) : State :=
  let c := s.core
  let s' : State := { s with core := { c with seq.park := false } }
  if resetting c then { s' with core.sys.wantLockout := none }
  else if c.sys.mode ≠ m then s'
  else match c.sys.wantLockout with
  | some f => if stepsIn m then enterLockout 0xA2 f s' else { s' with core.sys.wantLockout := none }
  | none => if c.seq.park && (m == .service || m == .shadow) && allAtRest c then parkedEntry s' else s'

/-- SEQ_TICK (R130). -/
def seqTick (s : State) : State :=
  let fresh := s.core.seq.clearReq.any ClearSt.fresh
  tickEntries s.core.sys.mode (tickDeliver fresh { s with core := tickCore s.core })

/-- SEQ_TICK (R130): from the start of the time base on, and not in PARKED. In each tick the sequencer and the axis data path read
their banks (R438). -/
def execSeqTick (s : State) : Host.Outcome State Fault Refusal :=
  .next (if s.core.sys.inReset || !s.core.tb.running || s.core.sys.mode = .parked then s else seqTick (userReads 0 16 s))

/-- UP_FRAME_CUTOFF (R207): with period 0 of a tick, what waits for its frames. -/
def execUpFrameCutoff (s : State) : Host.Outcome State Fault Refusal :=
  .next (if s.core.sys.inReset || !s.core.tb.running || s.core.tb.cp = 0 then s
    else if (s.core.tb.cp + 3) % 4 = 0 then { s with core := finishTick (cutoff s.core) }
    else { s with core := cutoff s.core })

end Sys2Proof.Machine
end

