-- ==== Sys2Proof/Machine/Frame.lean ====
section
/-! DEFINITION. FRAME (R26): the millisecond. It precedes the SEQ_TICK of the same instant (log 18). -/

namespace Sys2Proof.Machine

/-! ### The counts of a millisecond (R64, R322, R324, R407) -/

/-- One operating millisecond of a portal's degraded operation (R322, R324, R325): not while locked out or ISOLATED. -/
def degradedMs (c : Core) : Core :=
  if stepsIn c.sys.mode then
    { c with nv.degraded := (List.range 12).foldl (fun t p => tmod {} t p fun d =>
        if d.on && !lockedOut c p && !isolatedAt c p then { d with ms := d.ms + 1, isoMs := if d.isoReq then d.isoMs + 1 else 0 }
        else d) c.nv.degraded }
  else c

/-- One operating millisecond: the counts, the token buckets, and each minute the SUPPRESSED records (R420, R422). -/
def countMs (c : Core) : Core :=
  refill (minuteSuppressed (degradedMs { c with nv.opMs := c.nv.opMs + 1 }))

/-! ### The host and the train line (R100, R103, R401) -/

/-- Ports, heartbeat and then mirror (R97): from mode entry on. -/
def hostFrame (c : Core) : Core :=
  if c.sys.mode == .selftest then c else writeMirror (heartbeatFrame (trainMs (svcMs c)))

/-! ### The time base of a standby (R30) -/

/-- The least number of strobes of `period` ns that lie before a count: each fires at the first multiple of 8 that reaches
it (R26). -/
def strobesBefore (count period : Nat) : Nat := (count - 7 + period - 1) / period

/-- The count takes a value, and the next strobes are the first that it reaches. -/
def setCount (v : Nat) (c : Core) : Core :=
  { loadCount v c with
    tb.tick := strobesBefore v 125000
    tb.cp := strobesBefore v 31250
    tb.frame := strobesBefore v 1000000 }

/-- TB_STEP: an unsynchronised standby whose averaged offset exceeds 1 µs (R30). The active's value is the own count less the
offset that the latest exchange measured, so at most 4 ns remain; the average begins again with what remains (log 13). -/
def tbStep (c : Core) : Core :=
  if unsynced c && 1000 < c.tb.avg.natAbs then
    let o := c.tb.offs.headD 0
    let d := 8 * roundDiv (-o) 8
    let u := unsigned 64 d
    let c := event 0x003 0x00 [u % 2 ^ 32, u / 2 ^ 32] c
    let left := o + d
    setCount ((c.tb.count.toNat : Int) + d).toNat
      { c with tb.offs := [left], tb.avg := left, tb.drift := 0, tb.slew := -left.sign, tb.t12 := none }
  else c

/-- Time-base locked (R29). -/
def tbLocked (c : Core) : Bool := !c.tb.offs.isEmpty && decide (c.tb.avg.natAbs ≤ 20)

/-! ### The twin (R28, R367, R372 to R379) -/

/-- The claiming unit's FRAME: SYNC at once, with the t4 of the exchange before, if there was one; the SNAPSHOT of the state as
it stands, and HELLO, leave after INPUT (R28, R367, R368, R372, R378); no SNAPSHOT where its buffers could not be read (R440). Any other unit
sends HELLO. -/
def claimingFrame (c : Core) : Core :=
  if claiming c then
    let c := { twinSend 0x02 (toLe 8 (readTb islTwin c) ++ toLe 8 c.tb.t4) c with tb.t4 := 0, twin.txHello := true }
    if c.twin.snapBad then { c with twin.snapBad := false }
    else if twinShadow c && twinUp c && c.twin.authed then
      let (q, c') := nextMseq 0x11 c
      { c' with twin.txSnap := some (q, snapOf c.twin.base c), twin.base := false }
    else c
  else sendHello c

/-- HASH_DIVERGE of one link: a mismatch in 3 consecutive control frames (R375). -/
def hashFrames (c : Core) : Core :=
  let n (l : LinkSt) : Nat := if l.mismFrame then l.mismFrames + 1 else 0
  let hit := standbyIn c && c.links.any fun e => n e.2 == 3
  let c := { c with links := c.links.filterMap fun e =>
    let l := { e.2 with mismFrames := n e.2 % 3, mismFrame := false }
    if l = {} then none else some (e.1, l) }
  if hit && !c.seq.due.contains .hashDiverge then { c with seq.due := c.seq.due ++ [.hashDiverge] } else c

/-- The standby's own image of the FRAME, and the links that the comparison leaves out (R373). -/
def ownImage (c : Core) : Core :=
  if standbyIn c then
    { c with
      twin.image := some (snapOf false c)
      twin.leftOut := bitsBy 36 fun x => (linkAt c x).muted || (linkAt c x).mutedIn
      links := c.links.filterMap fun e =>
        let l := { e.2 with mutedIn := false }
        if l = {} then none else some (e.1, l) }
  else c

/-- What R377 asks of the twin's HELLO. -/
def resyncPeer (c : Core) : Bool :=
  c.twin.peer.any fun e => (e.1.role == .active || e.1.role == .solo) && e.1.unitId != unitId c && !portClash c e.2
    && e.2.dieRev == Config.dieRev && sameHashes c e.2

/-- RESYNC_REQ of an UNSYNCED standby (R377): no cause of R375 for 10 ms, that is 10 FRAMEs. -/
def askResync (c : Core) : Core :=
  if c.sys.mode == .shadow && !c.twin.synced then
    let c := { c with twin.quiet := min 10 (c.twin.quiet + 1) }
    if c.twin.resync = 0 && c.twin.authed && resyncPeer c && tbLocked c && 10 ≤ c.twin.quiet then
      twinSend 0x14 [] { c with twin.resync := 1 }
    else c
  else c

/-- The twin's part of a FRAME (R367, R368). -/
def twinFrame (c : Core) : Core :=
  askResync (ownImage (hashFrames (claimingFrame (tbStep c))))

/-! ### The whole FRAME -/

/-- The core at a FRAME. -/
def frameCore (c : Core) : Core :=
  let c := settleFrame (settleTick (finishTick c))
  let c := { countTo (c.tb.frame * 1000000) c with tb.frame := c.tb.frame + 1 }
  let c := hostFrame (twinFrame (countMs c))
  { c with nv.stats := c.recd.stats }

/-- A standby that has stored the images of its active restarts, 10 ms after the last of them (R379, log 18). -/
def imageReset (s : State) : State :=
  let c := s.core
  if c.sys.mode == .shadow && !c.twin.synced && c.twin.imgSeen && 10 ≤ c.twin.quiet then
    startFlush .soft false none { s with core.twin.imgSeen := false }
  else s

/-- FRAME: with the pointers of the stores committed (R429). -/
def frameAll (s : State) : State := imageReset { s with store := commit s.store, core := frameCore s.core }

/-- FRAME (R26). In each millisecond the snapshot engine, the recorder and the operation engine read their banks (R438). -/
def execFrame (s : State) : Host.Outcome State Fault Refusal :=
  .next (if s.core.sys.inReset || !s.core.tb.running || s.core.sys.mode = .parked then s else frameAll (userReads 16 24 s))

end Sys2Proof.Machine
end

