-- ==== Sys2Proof/Machine/Power.lean ====
section
/-! DEFINITION. Supplies, clocks, resets, the end of the hold-up flush, the internal reset release, and PARKED
(R17, R18, R34, R45, R53, R60 to R70). -/

namespace Sys2Proof.Machine

/-! ### Resets (R60 to R66) -/

/-- A POR: at once, over a running flush (R60, R62). A wipe that it interrupts is pending at power-up (R455). -/
def porNow (s : State) : State :=
  let s := resetTo .por s
  if s.onyx.wipePending then { s with onyx := { s.onyx with wipeCause := 3 } } else s

/-- POR_RESET (R60): the lid mesh is tested before the internal reset release; open or shorted, it is an ERASE (R462). -/
def execPorReset (mesh : Bool) (s : State) : Host.Outcome State Fault Refusal :=
  .next (
    let s := porNow s
    if mesh then { s with onyx := { s.onyx with wipePending := true, wipeCause := 1 }, core := eraseCore .mesh s.core } else s)

/-- PFAIL (R34, R68): the flush starts, and a BOR reset will follow it. A unit held in reset has nothing to flush. -/
def execPfail (vhold : Nat) (s : State) : Host.Outcome State Fault Refusal :=
  .next (if s.core.sys.inReset then s else startFlush .bor false (some vhold) s)

/-- A reset of a kind that finds the unit held in reset: a higher-ranked kind replaces the one in force (R62). -/
def resetAgain (k : ResetKind) (s : State) : State :=
  if resetRank k < resetRank s.core.sys.resetKind then resetTo k s else s

/-- BOR_RESET (R34, R60): through the flush. -/
def execBorReset (s : State) : Host.Outcome State Fault Refusal :=
  .next (if s.core.sys.inReset then resetAgain .bor s else startFlush .bor false none s)

/-- PIN_RESET (R65, R66): RST_N reaches the field die, and the flush starts. -/
def execPinReset (s : State) : Host.Outcome State Fault Refusal :=
  .next (
    let s := { s with die := resetDie .pin s.die }
    if s.core.sys.inReset then resetAgain .pin s else startFlush .pin false none s)

/-! ### The end of the flush (R68) -/

/-- Every staged record is written; a store that fills up meanwhile stages one record more. -/
def writeFifo : Nat → State → State
  | 0, s => s
  | n + 1, s => if s.core.recd.fifo.isEmpty then s else writeFifo n (writeRecord s)

/-- What the flush brings to MRAM (R68, R322, R429, R435). -/
def flushStores (s : State) : State :=
  let s := writeFifo (2 * s.core.recd.fifo.length + 2) s
  { s with store := commit s.store, core.nv.stats := s.core.recd.stats }

/-- What the entry into PARKED drops: flows, operations in flight, portal motion and the links. SRAM, the set-up registers
and the doorbell reference stay, and the service port returns to its configured rate (R60, R64, R69). -/
def parkedDrop (c : Core) : Core :=
  { c with
    sys.flush := none
    sys.resetKind := .parked
    sys.svcRate := img8 (cfgOf c) (secSys + 1)
    recd.powerFail := false
    host := {}
    seq := {}
    links := []
    cam := { pages := c.cam.pages }
    twin := {}
    train := {} }

/-- A flush that ends in SAFE_TALK, entered meanwhile from PARKED: the unit stays there (R54, R62). -/
def flushOver (c : Core) : Core := { c with sys.flush := none, sys.txOff := false, recd.powerFail := false }

/-- FLUSH_COMPLETE (R68): the pending reset follows, or the unit rests in PARKED. -/
def execFlushComplete (s : State) : Host.Outcome State Fault Refusal :=
  .next (match s.core.sys.flush with
    | none => s
    | some f =>
      let s := flushStores s
      if !f.toParked then resetTo f.kind s
      else if s.core.sys.mode = .parked then
        let t : State := { s with core := parkedDrop s.core }
        if t.core.sys.wake then parkedExit t else t
      else { s with core := flushOver s.core })

/-! ### Internal reset release (R45) -/

/-- The core at the release: SELFTEST with its cause and the kind of the reset (R36, R37), its first step next, the host port not yet
answering (R51), and the service port at the configured rate (R55). -/
def releaseCore (c : Core) : Core :=
  let cause := if c.sys.resetKind = .parked then 0x91 else 0
  let c := changeMode .selftest cause (resetCode c.sys.resetKind) 0 { c with sys.inReset := false }
  { c with sys.stStep := 1, sys.early := true, sys.svcRate := img8 (cfgOf c) (secSys + 1) }

/-- INTERNAL_RESET_RELEASE (R45): a wipe found pending completes before self-test step 1 (R455). -/
def execInternalResetRelease (s : State) : Host.Outcome State Fault Refusal :=
  .next (if s.core.sys.inReset then
      let s := { s with core := releaseCore s.core }
      if s.onyx.wipePending then wipeOnyx s.onyx.wipeCause s else s
    else s)

/-! ### Supplies and clocks (R17, R18, R34, R67) -/

/-- VHOLD_LOW (R34): recorded once charging has completed. -/
def execVholdLow (vhold : Nat) (s : State) : Host.Outcome State Fault Refusal :=
  .next (if s.core.sys.inReset || !s.core.sys.vholdCharged then s else { s with core := event 0x005 0x00 [vhold] s.core })

/-- VHOLD_CHARGED (R67). -/
def execVholdCharged (s : State) : Host.Outcome State Fault Refusal := .next { s with core.sys.vholdCharged := true }

/-- The PLLs switch to FBOSC (R17). -/
def toFbosc (s : State) : State := { s with core.sys.fbosc := true }

/-- REFCLK_FAIL (R17, R18): FBOSC, then SAFE_TALK with CLOCK_FAULT. -/
def execRefclkFail (s : State) : Host.Outcome State Fault Refusal :=
  .next (if s.core.sys.inReset then s else enterSafeTalk 0x80 (toFbosc s))

/-- What a clock monitor does before the fault (R17, R18). -/
def clockAct (src : ClockSource) (s : State) : State :=
  match src with
  | .refclk => toFbosc s
  | .pll => s
  | .safeB => { s with isa := { s.isa with closed := 0, closing := [] } }
  | .safeA => { s with isb := { s.isb with closed := 0, closing := [] } }
  | .field => { s with isa := { s.isa with blind := true }, isb := { s.isb with blind := true } }

/-- CLOCK_FAULT (R18): SAFE_TALK with cause 0x80. -/
def execClockFault (src : ClockSource) (s : State) : Host.Outcome State Fault Refusal :=
  .next (if s.core.sys.inReset then s else enterSafeTalk 0x80 (clockAct src s))

/-- AON_CLOCK (R18): recorded, no mode change. -/
def execAonClock (hz : Nat) (s : State) : Host.Outcome State Fault Refusal :=
  .next (if s.core.sys.inReset then s else { s with core := event 0x006 0x00 [hz] s.core })

/-- MRAM_FAULT (R53). -/
def execMramFault (s : State) : Host.Outcome State Fault Refusal := .next (enterSafeTalk 0x84 s)

/-! ### PARKED (R64, R69, R70) -/

/-- AON_MS_ADVANCE (R64): one second in PARKED. -/
def execAonMsAdvance (s : State) : Host.Outcome State Fault Refusal :=
  .next (if s.core.sys.mode = .parked && !s.core.sys.inReset then
      { s with core := { s.core with nv.opMs := s.core.nv.opMs + 1000 } } else s)

/-- The doorbell word of flow 0 in PARKED: a low half that differs from its value at entry wakes (R69). Where flow 0 was not
polled at entry, the first read gives that value (log 23). -/
def parkedDoorbell (word : Option U32) (s : State) : State :=
  match word with
  | some w =>
    match s.core.sys.parkDb with
    | some v => if w.toNat % 65536 ≠ v then parkedExit s else s
    | none => { s with core.sys.parkDb := some (w.toNat % 65536) }
  | none => s

/-- PARKED_DOORBELL_POLL (R69), every 100 ms. -/
def execParkedDoorbellPoll (word : Option U32) (s : State) : Host.Outcome State Fault Refusal :=
  .next (if s.core.sys.mode = .parked && portUp s.core && s.core.sys.flush.isNone then
      parkedDoorbell word { s with core := emit (.hostRead s.core.bar.db.toNat 4) s.core }
    else s)

/-- PARKED_ROLE_IN_CHANGE (R69): a change of either line wakes; an unpaired unit ignores the role inputs (R356). -/
def execParkedRoleInChange (_second : Bool) (s : State) : Host.Outcome State Fault Refusal :=
  .next (if paired s.core then parkedExit s else s)

end Sys2Proof.Machine
end

