-- ==== Sys2Proof/Machine/Selftest.lean ====
section
/-! DEFINITION. The self-test (R46 to R51): its steps, the mode decision of step 9 (R38, R360), mode entry (R39), and
SELFTEST_RUN (R120). -/

namespace Sys2Proof.Machine

/-! ### Step 2: memory (R46, R49, R449) -/

/-- A row that fails the march takes a spare row; `false` where none is left. -/
def repairRow (key : Nat) (c : Core) : Bool × Core :=
  let n := key / 1024
  let old := tget 0 c.nv.repair key
  let c := if old = 0 then c else { c with nv.spareBad := tset false c.nv.spareBad (n * 8 + (old - 1)) true }
  match freeSpare c n with
  | some i => (true, { c with nv.repair := tset 0 c.nv.repair key (i + 1) })
  | none => (false, c)

/-- The rows that fail the march are repaired (R46): ST_SRAM where a bank needs more than its spare rows. -/
def marchStep (rows : List Nat) (c : Core) : Nat × Core :=
  let r := rows.foldl (fun r k => let q := repairRow k r.2; (r.1 && q.1, q.2)) (true, c)
  (if r.1 then 0 else 0x10, { r.2 with sys.stRows := min 65535 rows.length })

/-- One bank is read with correction, and each corrected word is written back (R49); whether every word was correctable. -/
def scrubBank (b : BankSt) : Bool × BankSt :=
  (b.checks.map (·.1)).foldl (fun r w =>
    let v := bankRead r.2 w
    if v.2 = .bad then (false, r.2) else (r.1, bankWrite w v.1 r.2)) (true, b)

/-- Step 2 after a PARKED exit (R49). -/
def scrubStep (c : Core) : Nat × Core :=
  let l := c.mem.banks.map fun e => (e.1, scrubBank e.2)
  (if l.all fun e => e.2.1 then 0 else 0x10, { c with mem.banks := l.map fun e => (e.1, e.2.2) })

/-! ### Step 3: cross-checks (R46) -/

/-- The islands' copies of the lock-out latches differ (R46, R271). -/
def latchesDiffer (s : State) : Bool :=
  latchMask s.isa != latchMask s.isb || s.isa.dev.set != s.isb.dev.set || s.isa.isolated != s.isb.isolated

/-! ### Step 5: images (R46, R154, R186, R273, R456, R488) -/

/-- The authority keys do not match the fused hash (R456). -/
def authorityBad (s : State) : Bool := s.fuse.fused && sha256 (authSlots s.core) != s.fuse.hash

/-- The first stored program that fails: the failure code and the code of R154. -/
def programBad (c : Core) : Option (Nat × Nat) :=
  let bad (e : Nat × Image) : Option (Nat × Nat) :=
    match progHead e.1 e.2 with
    | some d => some (0x43, d)
    | none => if !signedBy c e.2 (img8 e.2 48) (img32 e.2 44) then some (0x42, 0) else (progBody c e.1 e.2).map fun d => (0x43, d)
  (c.nv.progs.filterMap bad).head?

/-- The directory or a resident table fails (R46, R186). -/
def camSetBad (c : Core) : Bool :=
  c.nv.dir.any fun m => !signedBy c m (img8 m 6) 196672
    || c.nv.resident.any fun e => (pageReason m e.1 (imgBytes e.2)).isSome

/-- The failure of step 5, and the code recorded with ST_PROG_STRUCT; 0 where every image passes. A missing image is no
failure (R50). -/
def imagesFail (s : State) : Nat × Nat :=
  let c := s.core
  if authorityBad s then (0x40, 0)
  else if c.nv.cfg.any fun m => (cfgForm c m).isSome then (0x41, 0)
  else match programBad c with
    | some e => e
    | none => if camSetBad c then (0x44, 0) else (0, 0)

/-- Step 5 passes: the islands hold their parameters (R273), the resident set its pages (R186), and the field die its
section (R336, log 24). -/
def imagesTaken (s : State) : State :=
  let sec := s.core.nv.cfg.map fun m => imgPart m secSafe 2240
  loadField { s with
    isa := { s.isa with params := sec }
    isb := { s.isb with params := sec }
    core := { s.core with cam.pages := residentPages s.core.nv.resident } }

/-! ### Step 6: recorder (R46, R419, R430) -/

/-- Slots of a store. -/
def storeSize (store : Nat) : Nat :=
  match store with
  | 0 => journalSlots
  | 1 => 16777216
  | _ => 32768

/-- The first all-0xFF slot from `w` on, within `n` slots (R430). -/
def scanStore (t : Stores) (store : Nat) : Nat → Nat → Option Nat
  | 0, w => if w = storeSize store || storeSlot t store w == emptySlot then some w else none
  | n + 1, w => if w = storeSize store || storeSlot t store w == emptySlot then some w else scanStore t store n (w + 1)

/-- The committed pointer of a store (R429). -/
def committedW (t : Stores) (store : Nat) : Nat :=
  match store with
  | 0 => t.committed.1
  | 1 => t.committed.2.1
  | _ => t.committed.2.2

/-- The pointer of a store. -/
def setW (store w : Nat) (t : Stores) : Stores :=
  match store with
  | 0 => { t with wJ := w }
  | 1 => { t with wE := w }
  | _ => { t with wC := w }

/-- TORN_RECORD for each torn record between two pointers (R430). -/
def tornRecords (t : Stores) (store w0 w : Nat) (c : Core) : Core :=
  (List.range (w - w0)).foldl (fun c i =>
    let k := w0 + i
    if store < 2 && k % 128 ≠ 127 && !recordOk (storeSlot t store k) then event 0x0B3 0x0D [store, k] c else c) c

/-- The chain value before block `b`, from the trailer before it (R417). -/
def chainBefore (t : Stores) (store b : Nat) : Bytes :=
  if b = 0 then chainStart store else slice (storeSlot t store (128 * b - 1)) 4 24

/-- The trailer of a block verifies: its CRC and its chain value (R46, R416, R417). -/
def trailerOk (t : Stores) (store b : Nat) : Bool :=
  let x := storeSlot t store (128 * b + 127)
  let recs := (List.range 127).map fun i => storeSlot t store (128 * b + i)
  recordOk x && slice x 4 24 == (sha256 (chainBefore t store b ++ recs.flatten ++ slice x 0 4)).take 24

/-- A checkpoint entry (R418). -/
def checkEntry (t : Stores) (i : Nat) : Bytes := ((List.range 4).map fun j => storeSlot t 2 (4 * i + j)).flatten

/-- The type-1 entries, newest first. -/
def checkpoints (t : Stores) : List Bytes :=
  (((List.range (t.wC / 4)).map (checkEntry t)).filter fun b => byteAt b 4 == 1).reverse

/-- The public key of a KEY_ID: the identity key, or that of a type-2 entry (R419). -/
def keyFor (t : Stores) (c : Core) (id : Bytes) : Option Bytes :=
  if keyId c.nv.pub == id then some c.nv.pub
  else (((List.range (t.wC / 4)).map (checkEntry t)).find? fun b => byteAt b 4 == 2 && slice b 56 8 == id).map fun b => slice b 64 64

/-- The signature of the last checkpoint verifies, or it is UNSIGNED (R46, R418). -/
def checkpointOk (t : Stores) (c : Core) : Bool :=
  match (checkpoints t).head? with
  | none => true
  | some b => bitOf (byteAt b 6) 0
    || ((keyFor t c (slice b 56 8)).any fun k => ecdsaVerify k (sha256 (slice b 0 64)) (slice b 64 64))

/-- A store of records in step 6: its last complete block, and a checkpoint that is missing. -/
def blockStep (store : Nat) (r : Bool × State) : Bool × State :=
  let t := r.2.store
  let b := storeW t store / 128
  if b = 0 then r
  else
    let ok := trailerOk t store (b - 1)
    let has := (checkpoints t).any fun e => byteAt e 5 == store && field e 24 4 == b - 1
    let s := if ok && (b - 1) % 256 = 255 && !has then checkpoint store (b - 1) (chainBefore t store b) r.2 else r.2
    (r.1 && ok, s)

/-- The pointer of a store advances over what has been written (R430). -/
def pointerStep (r : Bool × State) (store : Nat) : Bool × State :=
  let t := r.2.store
  let w0 := committedW t store
  match scanStore t store 2048 w0 with
  | some w => (r.1, { r.2 with store := setW store w t, core := tornRecords t store w0 w r.2.core })
  | none => (false, r.2)

/-- Step 6; false is ST_REC_TAIL. A full event log stays stopped (R431). -/
def recorderStep (s : State) : Bool × State :=
  let r := [0, 1, 2].foldl pointerStep (true, s)
  let r := blockStep 1 (blockStep 0 r)
  let s := r.2
  (r.1 && checkpointOk s.store s.core, { s with core.recd.stoppedE := decide (eventLast ≤ s.store.wE) })

/-! ### The steps and their results (R46, R47, R48) -/

/-- Failure codes that the physical tests of a step can give (R46). -/
def stepCodes (n : Nat) : List Nat :=
  match n with
  | 1 => [0x01, 0x02]
  | 2 => [0x10, 0x11]
  | 3 => [0x20, 0x21]
  | 4 => [0x30, 0x31]
  | 5 => [0x40, 0x41, 0x42, 0x43, 0x44]
  | 6 => [0x50]
  | 7 => [0x60, 0x61]
  | 8 => [0x70]
  | _ => []

/-- What a step does and finds apart from its physical tests: its failure code or 0, and the state after it. -/
def stepBody (n : Nat) (rows : List Nat) (s : State) : Nat × State :=
  match n with
  | 2 =>
    let r := if s.core.sys.scrub then scrubStep s.core else marchStep rows s.core
    (r.1, { s with core := r.2 })
  | 3 => (if latchesDiffer s then 0x20 else 0, s)
  | 5 =>
    let f := imagesFail s
    if f.1 = 0 then (0, imagesTaken s) else (f.1, { s with core := { s.core with sys.stCheck := f.2 } })
  | 6 =>
    let r := recorderStep s
    (if r.1 then 0 else 0x50, r.2)
  | 8 => (0, { s with core := startCount s.core })
  | 9 => (if s.core.nv.lc = .scrapped then 0x7E else 0, s)
  | _ => (0, s)

/-- The result of a step, with its duration in ms, rounded down (R48, log 23). -/
def noteStep (n result code us : Nat) (c : Core) : Core :=
  { c with sys.stRes := tset (0, 0, 0) c.sys.stRes n (result, code, us / 1000 % 65536) }

/-- The self-test ends (R48). -/
def selftestOver (c : Core) : Core :=
  { c with sys.stStep := 0, sys.stDur := min 65535 (c.sys.stUs / 1000), sys.stStamp := BitVec.ofNat 64 (stampOf c) }

/-! ### Mode entry (R38, R39, R360) -/

/-- Step 9 chooses SHADOW (R360). -/
def entersShadow (c : Core) : Bool :=
  paired c && (claimAny c || (decide (c.twin.anyHello < 16) && (c.twin.peer.any fun e => e.2.step == 9) && unitId c == 1))

/-- The device lock-out latch in any of its copies (R38, R318). -/
def latchFound (s : State) : Bool := s.core.nv.dev.set || s.isa.dev.set || s.isb.dev.set

/-- The mode that step 9 decides on, entered (R38, R360, R363). -/
def decideMode (s : State) : State :=
  let c := s.core
  if c.nv.lc = .blank || c.nv.lc = .returned then { s with core := changeMode .provision 0x90 0 0 c }
  else if latchFound s then enterLockout 0xA0 0 s
  else if s.onyx.identity.isEmpty then enterLockout 0xA1 0 s
  else if entersShadow c then { s with core := enterUnsynced 9 (changeMode .shadow 0x90 0 0 c) }
  else { s with core := takeEpoch (changeMode .service 0x90 0 0 c) }

/-- The self-test fails at step `n`: SAFE_TALK with the code as its cause (R47). A recorder that has failed writes no record
(R36). -/
def failSelftest (n code us : Nat) (s : State) : State :=
  let c := noteStep n 2 code us s.core
  let c := selftestOver { c with sys.stFail := code, recd.failed := c.recd.failed || code == 0x50 }
  enterSafeTalk code { s with core := c }

/-- A step passes: the next one starts; after step 9 the mode is entered (R38). -/
def passStep (n us : Nat) (s : State) : State :=
  let c := noteStep n 1 0 us s.core
  let c := { c with sys.stLast := n, sys.stStep := n + 1 }
  if n < 9 then { s with core := c }
  else
    let s := decideMode { s with core := selftestOver c }
    { s with core := modeEntry s.core }

/-- The time of a step counts (R48); a step that ends before the time base runs, and with it the FRAMEs that count them, brings
its operating milliseconds (R407, log 25). -/
def countStep (us : Nat) (s : State) : State :=
  let t := s.core.sys.stUs
  let ms := if s.core.tb.running then 0 else (t + us) / 1000 - t / 1000
  { s with core := { s.core with sys.stUs := t + us, nv.opMs := s.core.nv.opMs + ms } }

/-- A step completes (R46, R47). -/
def selftestStep (fail : Nat) (rows : List Nat) (us : Nat) (s : State) : State :=
  let n := s.core.sys.stStep
  let s := countStep us s
  if (stepCodes n).contains fail then failSelftest n fail us s
  else
    let r := stepBody n rows s
    if r.1 = 0 then passStep n us r.2 else failSelftest n r.1 us r.2

/-- The self-test runs; once a reset has been triggered it leads to no other mode (R40). -/
def testing (c : Core) : Bool := c.sys.mode == .selftest && !c.sys.inReset && c.sys.stStep != 0 && !resetting c

/-- SELFTEST_STEP (R46): a row number outside the 24 banks names no row (R437). -/
def execSelftestStep (fail : Nat) (rows : List Nat) (us : Nat) (s : State) : Host.Outcome State Fault Refusal :=
  .next (if testing s.core then selftestStep fail (rows.filter fun k => decide (k < 24576)) us s else s)

/-- ST_TIMEOUT (R47): 1.8 s after the internal reset release, in the step that runs. -/
def execStTimeout (s : State) : Host.Outcome State Fault Refusal :=
  let us := 1800000 - s.core.sys.stUs
  .next (if testing s.core then failSelftest s.core.sys.stStep 0x7F us (countStep us s) else s)

/-! ### SELFTEST_RUN (R48, R120) -/

/-- Steps 5 and 6 on line: their results, and the stamp of the run (R48). The spec does not say how long each takes: a free
value (log 23). -/
def onlineRun (k : Nat) (s : State) : State :=
  let f := (imagesFail s).1
  let r := recorderStep s
  let d := draw r.2.core
  let e := draw d.2
  let c := noteStep 5 (if f = 0 then 1 else 2) f d.1.toNat e.2
  let c := noteStep 6 (if r.1 then 1 else 2) (if r.1 then 0 else 0x50) e.1.toNat c
  let c := { c with sys.stOnline := BitVec.ofNat 64 (stampOf c) }
  { r.2 with core := finish k 0x00 0 (b2n (f != 0) + 2 * b2n (!r.1)) 0 c }

/-- SELFTEST_RUN (R120, R61). -/
def runDeliver (k : Nat) (d : Bytes) (s : State) : State :=
  if byteAt d 8 = 0 then onlineRun k s
  else if claiming s.core && anyMoving s.core then { s with core := finish k 0x50 0x03 0 0 s.core }
  else { s with core := { finish k 0x00 0 0 0 s.core with sys.deferred := true } }

/-- SELFTEST_RUN (R120). -/
def execSelftestRun (slot : Fin 512) (s : State) : Host.Outcome State Fault Refusal :=
  .next (startOpS slot 0x70 (runDeliver slot) s)

/-- DEFERRED_SOFT_RESET (R120): 10 ms after the completion of the operation that asked for it; never out of SAFE_TALK (R54). -/
def execDeferredSoftReset (s : State) : Host.Outcome State Fault Refusal :=
  .next (
    let waits := s.core.host.slots.any fun e => e.2.any fun x => slotOp x == 0x61 || slotOp x == 0x70
    if s.core.sys.deferred && !waits && !s.core.sys.inReset && s.core.sys.mode != .safeTalk then startFlush .soft false none { s with core.sys.deferred := false }
    else s)

end Sys2Proof.Machine
end

