-- ==== Sys2Proof/Machine/Diag.lean ====
section
/-! DEFINITION. DIAG_READ (R115) with the items that no other file holds, and the completion timeout of a host read (R75). -/

namespace Sys2Proof.Machine

/-! ### Item 0x02: field input images (R354) -/

/-- The byte of a UIO. -/
def diagUio (c : Core) (u : Nat) : Bytes :=
  let f := c.fld.frame.getD {}
  let st := if c.fld.frame.isSome then stateIn f u else 3
  let lead := setLead (imgPart (cfgOf c) secField 1216) u
  toLe 1 (st % 4 + 4 * (tget 0 f.back u % 16) + 64 * b2n (tget none c.seq.forces lead).isSome)

/-- The word of a group: its supply in 10 mV, its state, its current in 0.1 A. -/
def diagGroup (s : State) (g : Nat) : Bytes :=
  let x := tget {} s.die.groups g
  let st := match x.state with
    | .normal => 0
    | .low => 1
    | .missing => 2
    | .notUsed => 3
  toLe 2 (min 65535 (x.vf / 10)) ++ toLe 1 st ++ toLe 1 (min 255 (x.ma / 100))

/-- The item. -/
def diagField (s : State) : Bytes :=
  ((List.range 144).map (diagUio s.core)).flatten ++ ((List.range 9).map (diagGroup s)).flatten
    ++ toLe 4 s.core.fld.bad.toNat ++ toLe 4 s.die.badCmd.toNat ++ toLe 4 s.die.silences.toNat

/-! ### Item 0x04: self-test results (R48) -/

/-- The entry of a step: result, failure code, duration. -/
def stepEntry (c : Core) (n : Nat) : Bytes :=
  let r := tget (0, 0, 0) c.sys.stRes n
  toLe 1 r.1 ++ toLe 1 r.2.1 ++ toLe 2 r.2.2

/-- The entries of the nine steps. -/
def stepEntries (c : Core) : Bytes := ((List.range 9).map fun i => stepEntry c (i + 1)).flatten

/-- The item. -/
def diagSelftest (c : Core) : Bytes :=
  stepEntries c ++ toLe 1 c.sys.stLast ++ toLe 1 (resetCode c.sys.resetKind) ++ toLe 2 c.sys.stRows ++ toLe 4 c.sys.stUs
    ++ toLe 4 0 ++ toLe 8 c.sys.stStamp.toNat ++ toLe 8 c.sys.stOnline.toNat

/-! ### The operation -/

/-- An item's bytes; what the link trained to is drawn (R102). -/
def diagItem (item : Nat) (s : State) : Bytes × State :=
  match item with
  | 1 => let r := diagHost s.core; (r.1, { s with core := r.2 })
  | 2 => (diagField s, s)
  | 3 => (diagLinks s.core, s)
  | 4 => (diagSelftest s.core, s)
  | 5 => (diagMemory s, s)
  | 6 => (diagTwin s.core, s)
  | _ => (diagTrain s, s)

/-- DIAG_READ is delivered (R107, R115). -/
def diagDeliver (k : Nat) (d : Bytes) (s : State) : State :=
  if opLen d = 0 then { s with core := finish k 0x00 0 0 0 s.core }
  else
    let r := diagItem (byteAt d 8) s
    { r.2 with core := finish k 0x00 0 r.1.length 0 (hostWrite (opAddr d) r.1 r.2.core) }

/-- DIAG_READ (R115). -/
def execDiagRead (slot : Fin 512) (s : State) : Host.Outcome State Fault Refusal :=
  .next (startOpS slot 0x7F (diagDeliver slot) s)

/-! ### COMPLETION_TIMEOUT (R75) -/

/-- A read that receives no completion within 10 ms is a host read failure of its purpose (R75): 0 a doorbell block, 1 the
oldest fetch, 2 the heartbeat, 3 a flow's table entry, 4 the page-in in progress, 5 the doorbell of PARKED. -/
def execCompletionTimeout (req : Fin 6) (arg : Nat) (s : State) : Host.Outcome State Fault Refusal :=
  match req with
  | 0 => execDoorbellData (Fin.ofNat 16 arg) none s
  | 1 => execDescriptorFetch none s
  | 2 => execHeartbeatRead none s
  | 3 => execFlowEntryRead (Fin.ofNat 256 arg) none none s
  | 4 => execPageIn none s
  | 5 => .next s

end Sys2Proof.Machine
end

