-- ==== Sys2Proof/Machine/Service.lean ====
section
/-! DEFINITION. The service port (R55 to R59): frames, queries, answers and unsolicited frames. -/

namespace Sys2Proof.Machine

/-! ### Frames (R56, R57) -/

/-- The payload length that a frame states. -/
def svcLen (b : Bytes) : Nat := field b 4 2

/-- The frame is not discarded (R57): SOF, CRC, LEN, and an address that the unit accepts. A gap between its bytes makes it no
frame. -/
def svcAccepts (c : Core) (b : Bytes) : Bool :=
  byteAt b 0 == 0xA5 && svcLen b ≤ 240 && b.length == 8 + svcLen b && field b (6 + svcLen b) 2 == crc16 (slice b 1 (5 + svcLen b))
    && (byteAt b 1 == c.nv.svcAddr || byteAt b 1 == 0)

/-- An answer, with the unit's own address and the query's SEQ. -/
def svcAnswer (b : Bytes) (type : Nat) (payload : Bytes) (c : Core) : Core :=
  emit (.service (svcFrame c.nv.svcAddr type (byteAt b 3) payload)) c

/-! ### Queries (R58) -/

/-- Payload length of a query of a known type. -/
def queryLen (type : Nat) : Option Nat :=
  match type with
  | 0x02 | 0x03 | 0x04 => some 0
  | 0x05 | 0x07 | 0x08 => some 1
  | 0x06 => some 5
  | _ => none

/-- GET_IDENT's answer. -/
def identPayload (c : Core) : Bytes :=
  [0x4A, 0x44, 0x2D, 0x33, 0x36, 0x31, 0x32, 0x00] ++ toLe 8 Config.serial.toNat ++ toLe 4 Config.dieRev.toNat ++ hash8 c.run.cfg

/-- Slots of the event log that hold records, newest first, at most `n` (R58, R405): trailers are no event records. -/
def newestEvents : Nat → Nat → List Nat
  | _, 0 => []
  | 0, _ => []
  | n + 1, w + 1 => if w % 128 = 127 then newestEvents (n + 1) w else w :: newestEvents n w

/-- GET_EVENTS's answer; empty for an empty store. -/
def eventsPayload (t : Stores) (count : Nat) : Bytes := ((newestEvents count t.wE).map (storeSlot t 1)).flatten

/-- GET_CYCLES's answer: the slots from an index on, as far as they are written. -/
def cyclesPayload (t : Stores) (start count : Nat) : Bytes :=
  ((List.range (min (start + count) t.wJ - start)).map fun i => storeSlot t 0 (start + i)).flatten

/-- Remaining degraded minutes and cycles (R322). -/
def degradedLeft (c : Core) (p : Nat) : Nat × Nat :=
  let m := cfgOf c
  let d := tget {} c.nv.degraded p
  if d.on then ((img16 m secFault * 60000 - d.ms) / 60000, img16 m (secFault + 2) - d.cycles)
  else (img16 m secFault, img16 m (secFault + 2))

/-- GET_PORTAL's answer. -/
def portalPayload (c : Core) (p : Nat) : Bytes :=
  if p = 255 then List.replicate 6 0 ++ toLe 2 (if c.nv.dev.set then c.nv.dev.cause else 0)
  else
    let l := tget {} c.nv.latches p
    let r := degradedLeft c p
    toLe 2 (statusWord c p) ++ toLe 2 r.1 ++ toLe 2 r.2 ++ toLe 2 (if l.set then l.cause else 0)

/-- The payload byte of a query with one operand. -/
def operand1 (b : Bytes) : Nat := byteAt b 6

/-- The reason for which an accepted frame is answered with NAK, if any (R58). -/
def nakReason (t : Stores) (b : Bytes) : Option Nat :=
  match queryLen (byteAt b 2) with
  | none => some 2
  | some n =>
    if svcLen b ≠ n then some 1
    else match byteAt b 2 with
      | 0x05 => if operand1 b = 0 || 7 < operand1 b then some 3 else if t.wE = 0 then some 4 else none
      | 0x06 =>
        let k := byteAt b 10
        if k = 0 || 7 < k then some 3 else if t.wJ = 0 then some 4 else if t.wJ ≤ field b 6 4 then some 3 else none
      | 0x07 => if 11 < operand1 b && operand1 b ≠ 255 then some 3 else none
      | 0x08 => if 4 < operand1 b then some 3 else none
      | _ => none

/-- NAK. -/
def svcNak (b : Bytes) (reason : Nat) (c : Core) : Core := svcAnswer b 0xFF (toLe 1 (byteAt b 2) ++ toLe 1 reason) c

/-- The unit serves the port: in every mode, but not while it is held in reset (R58, R66). -/
def svcTakes (b : Bytes) (s : State) : Bool := !s.core.sys.inReset && svcAccepts s.core b

/-- A query of one type is answered, or refused with NAK; a frame of another type is none of it. -/
def svcQuery (type : Nat) (b : Bytes) (answer : State → Bytes) (s : State) : State :=
  if svcTakes b s && byteAt b 2 == type then
    match nakReason s.store b with
    | some r => { s with core := svcNak b r s.core }
    | none => { s with core := svcAnswer b (type + 128) (answer s) s.core }
  else s

/-- GET_STATUS (R58, R59). -/
def execGetStatus (frame : Bytes) (s : State) : Host.Outcome State Fault Refusal :=
  .next (svcQuery 0x02 frame (fun s => statusPayload s.core) s)

/-- GET_IDENT (R58). -/
def execGetIdent (frame : Bytes) (s : State) : Host.Outcome State Fault Refusal :=
  .next (svcQuery 0x03 frame (fun s => identPayload s.core) s)

/-- GET_SELFTEST (R58). -/
def execGetSelftest (frame : Bytes) (s : State) : Host.Outcome State Fault Refusal :=
  .next (svcQuery 0x04 frame (fun s => stepEntries s.core) s)

/-- GET_EVENTS (R58). -/
def execGetEvents (frame : Bytes) (s : State) : Host.Outcome State Fault Refusal :=
  .next (svcQuery 0x05 frame (fun s => eventsPayload s.store (operand1 frame)) s)

/-- GET_CYCLES (R58, R405). -/
def execGetCycles (frame : Bytes) (s : State) : Host.Outcome State Fault Refusal :=
  .next (svcQuery 0x06 frame (fun s => cyclesPayload s.store (field frame 6 4) (byteAt frame 10)) s)

/-- GET_PORTAL (R58, R322). -/
def execGetPortal (frame : Bytes) (s : State) : Host.Outcome State Fault Refusal :=
  .next (svcQuery 0x07 frame (fun s => portalPayload s.core (operand1 frame)) s)

/-- SET_RATE: the new rate holds from the end of the answer to the next reset (R55, R58). -/
def execSetRate (frame : Bytes) (s : State) : Host.Outcome State Fault Refusal :=
  .next (
    let s' := svcQuery 0x08 frame (fun _ => []) s
    if svcTakes frame s && byteAt frame 2 == 0x08 && (nakReason s.store frame).isNone then { s' with core.sys.svcRate := operand1 frame }
    else s')

/-- NAK (R58): the answer to a frame that the unit accepts and refuses. -/
def execNak (frame : Bytes) (s : State) : Host.Outcome State Fault Refusal :=
  .next (if svcTakes frame s then
      match nakReason s.store frame with
      | some r => { s with core := svcNak frame r s.core }
      | none => s
    else s)

/-! ### Unsolicited frames (R56 to R58) -/

/-- UNSOLICITED_STATUS (R58), once every second in SAFE_TALK: on a busy bus it waits for the milliseconds until the bus has been
idle for 5 ms, and replaces one that waits (R57); without a number it waits to be replaced. -/
def execUnsolicitedStatus (wait : Option Nat) (s : State) : Host.Outcome State Fault Refusal :=
  .next (if s.core.sys.mode = .safeTalk && !s.core.sys.inReset then
      (if wait = some 0 then { s with core := sendStatus s.core } else { s with core.sys.svcWait := wait })
    else s)

end Sys2Proof.Machine
end

