-- ==== Sys2Proof/Machine/Dispatch.lean ====
section
/-! DEFINITION. The dispatch: one arm per command, each a direct call of the command's meaning. -/

namespace Sys2Proof.Machine

/-- The effect of a command on everything but the queue. -/
def exec (i : Instr) (s : State) : Host.Outcome State Fault Refusal :=
  match i with
  | .porReset mesh => Sys2Proof.Machine.execPorReset mesh s
  | .pfail vhold => Sys2Proof.Machine.execPfail vhold s
  | .flushComplete => Sys2Proof.Machine.execFlushComplete s
  | .borReset => Sys2Proof.Machine.execBorReset s
  | .pinReset => Sys2Proof.Machine.execPinReset s
  | .sysReset value => Sys2Proof.Machine.execSysReset value s
  | .internalResetRelease => Sys2Proof.Machine.execInternalResetRelease s
  | .selftestStep fail rows us => Sys2Proof.Machine.execSelftestStep fail rows us s
  | .stTimeout => Sys2Proof.Machine.execStTimeout s
  | .vholdLow vhold => Sys2Proof.Machine.execVholdLow vhold s
  | .vholdCharged => Sys2Proof.Machine.execVholdCharged s
  | .refclkFail => Sys2Proof.Machine.execRefclkFail s
  | .clockFault src => Sys2Proof.Machine.execClockFault src s
  | .aonClock hz => Sys2Proof.Machine.execAonClock hz s
  | .fieldFramesMissing isl => Sys2Proof.Machine.execFieldFramesMissing isl s
  | .fieldLinkLost isl => Sys2Proof.Machine.execFieldLinkLost isl s
  | .mramFault => Sys2Proof.Machine.execMramFault s
  | .safeDisagree => Sys2Proof.Machine.execSafeDisagree s
  | .aonMsAdvance => Sys2Proof.Machine.execAonMsAdvance s
  | .parkedDoorbellPoll word => Sys2Proof.Machine.execParkedDoorbellPoll word s
  | .wakeInputSample ua => Sys2Proof.Machine.execWakeInputSample ua s
  | .wakeFrame crcOk => Sys2Proof.Machine.execWakeFrame crcOk s
  | .parkedRoleInChange second => Sys2Proof.Machine.execParkedRoleInChange second s
  | .seqTick => Sys2Proof.Machine.execSeqTick s
  | .timerExpiry ch k => Sys2Proof.Machine.execTimerExpiry ch k s
  | .overdue p => Sys2Proof.Machine.execOverdue p s
  | .gatherExpiry g => Sys2Proof.Machine.execGatherExpiry g s
  | .supplyOver => Sys2Proof.Machine.execSupplyOver s
  | .supplyLow p => Sys2Proof.Machine.execSupplyLow p s
  | .obstForce p => Sys2Proof.Machine.execObstForce p s
  | .obstEnergy p => Sys2Proof.Machine.execObstEnergy p s
  | .stall x => Sys2Proof.Machine.execStall x s
  | .obstDrawn p => Sys2Proof.Machine.execObstDrawn p s
  | .inPosition x => Sys2Proof.Machine.execInPosition x s
  | .baselineLearned p close => Sys2Proof.Machine.execBaselineLearned p close s
  | .learnAbort p close => Sys2Proof.Machine.execLearnAbort p close s
  | .degradedExpiry p => Sys2Proof.Machine.execDegradedExpiry p s
  | .isolateFail p => Sys2Proof.Machine.execIsolateFail p s
  | .currentPeriod => Sys2Proof.Machine.execCurrentPeriod s
  | .upFrame x rx => Sys2Proof.Machine.execUpFrame x rx s
  | .upFrameCutoff => Sys2Proof.Machine.execUpFrameCutoff s
  | .upLost x => Sys2Proof.Machine.execUpLost x s
  | .hallInvalid x => Sys2Proof.Machine.execHallInvalid x s
  | .hallEncDisagree x => Sys2Proof.Machine.execHallEncDisagree x s
  | .bridgeDrop x => Sys2Proof.Machine.execBridgeDrop x s
  | .following x => Sys2Proof.Machine.execFollowing x s
  | .safetyTick isl pads role => Sys2Proof.Machine.execSafetyTick isl pads role s
  | .pairDisc isl pair => Sys2Proof.Machine.execPairDisc isl pair s
  | .torqueRemoval isl p => Sys2Proof.Machine.execTorqueRemoval isl p s
  | .stopTmax isl p => Sys2Proof.Machine.execStopTmax isl p s
  | .overspeed isl x => Sys2Proof.Machine.execOverspeed isl x s
  | .speedXchk x => Sys2Proof.Machine.execSpeedXchk x s
  | .workshopKeyReturn => Sys2Proof.Machine.execWorkshopKeyReturn s
  | .darkTest isl out rd => Sys2Proof.Machine.execDarkTest isl out rd s
  | .soLsStuck out => Sys2Proof.Machine.execSoLsStuck out s
  | .soExt isl out => Sys2Proof.Machine.execSoExt isl out s
  | .vsoLow => Sys2Proof.Machine.execVsoLow s
  | .vsoRecovery => Sys2Proof.Machine.execVsoRecovery s
  | .soOverload isl out => Sys2Proof.Machine.execSoOverload isl out s
  | .resetStuck isl => Sys2Proof.Machine.execResetStuck isl s
  | .lockoutResetTimeout isl => Sys2Proof.Machine.execLockoutResetTimeout isl s
  | .safeMemScrub isl corrected bad => Sys2Proof.Machine.execSafeMemScrub isl corrected bad s
  | .roleClaimPulse isl => Sys2Proof.Machine.execRoleClaimPulse isl s
  | .roleLineFault => Sys2Proof.Machine.execRoleLineFault s
  | .plannedSwap => Sys2Proof.Machine.execPlannedSwap s
  | .twinLinkUp => Sys2Proof.Machine.execTwinLinkUp s
  | .twinLaneDown lane => Sys2Proof.Machine.execTwinLaneDown lane s
  | .auth h nonce answer => Sys2Proof.Machine.execAuth h nonce answer s
  | .hello h m => Sys2Proof.Machine.execHello h m s
  | .selftestHello => Sys2Proof.Machine.execSelftestHello s
  | .sync h t1 t4 t2 => Sys2Proof.Machine.execSync h t1 t4 t2 s
  | .delay h t3 t4 => Sys2Proof.Machine.execDelay h t3 t4 s
  | .input h f => Sys2Proof.Machine.execInput h f s
  | .inputLate => Sys2Proof.Machine.execInputLate s
  | .snapshot h m => Sys2Proof.Machine.execSnapshot h m s
  | .page h m => Sys2Proof.Machine.execPage h m s
  | .image h m => Sys2Proof.Machine.execImage h m s
  | .resyncReq h => Sys2Proof.Machine.execResyncReq h s
  | .relinquish h last => Sys2Proof.Machine.execRelinquish h last s
  | .linkLost => Sys2Proof.Machine.execLinkLost s
  | .hashDiverge => Sys2Proof.Machine.execHashDiverge s
  | .frame => Sys2Proof.Machine.execFrame s
  | .rawSample m => Sys2Proof.Machine.execRawSample m s
  | .fieldLow g => Sys2Proof.Machine.execFieldLow g s
  | .fieldMissing g => Sys2Proof.Machine.execFieldMissing g s
  | .fieldOk g => Sys2Proof.Machine.execFieldOk g s
  | .shortGnd u => Sys2Proof.Machine.execShortGnd u s
  | .shortGndClear u => Sys2Proof.Machine.execShortGndClear u s
  | .extDrive u => Sys2Proof.Machine.execExtDrive u s
  | .sampleInstant => Sys2Proof.Machine.execSampleInstant s
  | .stopWord crcOk => Sys2Proof.Machine.execStopWord crcOk s
  | .sampleFrame okA okB okL offTime => Sys2Proof.Machine.execSampleFrame okA okB okL offTime s
  | .commandFrame crcOk => Sys2Proof.Machine.execCommandFrame crcOk s
  | .logicSilence => Sys2Proof.Machine.execLogicSilence s
  | .fieldDieReset => Sys2Proof.Machine.execFieldDieReset s
  | .fieldDieSupplyLoss => Sys2Proof.Machine.execFieldDieSupplyLoss s
  | .fieldDieRestart => Sys2Proof.Machine.execFieldDieRestart s
  | .telegramPublish => Sys2Proof.Machine.execTelegramPublish s
  | .unitFailedTelegram => Sys2Proof.Machine.execUnitFailedTelegram s
  | .trainFrameReceived port f => Sys2Proof.Machine.execTrainFrameReceived port f s
  | .telegramVerify => Sys2Proof.Machine.execTelegramVerify s
  | .trainSubTimeout sub => Sys2Proof.Machine.execTrainSubTimeout sub s
  | .arpRequest port ip asker => Sys2Proof.Machine.execArpRequest port ip asker s
  | .arpRefresh port answers => Sys2Proof.Machine.execArpRefresh port answers s
  | .icmpEcho port src data => Sys2Proof.Machine.execIcmpEcho port src data s
  | .recordWrite => Sys2Proof.Machine.execRecordWrite s
  | .fifoDrainSuppressed => Sys2Proof.Machine.execFifoDrainSuppressed s
  | .eccWriteBack bank portB => Sys2Proof.Machine.execEccWriteBack bank portB s
  | .opalRegionTest bad => Sys2Proof.Machine.execOpalRegionTest bad s
  | .tamperDetect src => Sys2Proof.Machine.execTamperDetect src s
  | .onyxWiped => Sys2Proof.Machine.execOnyxWiped s
  | .tamperLockout late => Sys2Proof.Machine.execTamperLockout late s
  | .bar0Write off value be => Sys2Proof.Machine.execBar0Write off value be s
  | .sysLock value => Sys2Proof.Machine.execSysLock value s
  | .hpFlowTableBase hi value => Sys2Proof.Machine.execHpFlowTableBase hi value s
  | .hpDbBase hi value => Sys2Proof.Machine.execHpDbBase hi value s
  | .hpMirrorBase hi value => Sys2Proof.Machine.execHpMirrorBase hi value s
  | .hpHbAddr hi value => Sys2Proof.Machine.execHpHbAddr hi value s
  | .cpLibBase hi value => Sys2Proof.Machine.execCpLibBase hi value s
  | .hpPollNormal value => Sys2Proof.Machine.execHpPollNormal value s
  | .hpHbTimeout value => Sys2Proof.Machine.execHpHbTimeout value s
  | .load flow => Sys2Proof.Machine.execLoad flow s
  | .disable flow => Sys2Proof.Machine.execDisable flow s
  | .flowEntryRead flow entry db => Sys2Proof.Machine.execFlowEntryRead flow entry db s
  | .bar2Read off => Sys2Proof.Machine.execBar2Read off s
  | .bar2Write off value be => Sys2Proof.Machine.execBar2Write off value be s
  | .pcieLinkEvent linkDown => Sys2Proof.Machine.execPcieLinkEvent linkDown s
  | .doorbellPollUrgent => Sys2Proof.Machine.execDoorbellPollUrgent s
  | .doorbellPollNormal => Sys2Proof.Machine.execDoorbellPollNormal s
  | .doorbellData block data => Sys2Proof.Machine.execDoorbellData block data s
  | .descriptorFetch items => Sys2Proof.Machine.execDescriptorFetch items s
  | .completionWrite => Sys2Proof.Machine.execCompletionWrite s
  | .heartbeatRead word => Sys2Proof.Machine.execHeartbeatRead word s
  | .hostLost => Sys2Proof.Machine.execHostLost s
  | .echo slot => Sys2Proof.Machine.execEcho slot s
  | .portalRequest slot => Sys2Proof.Machine.execPortalRequest slot s
  | .portalStop slot => Sys2Proof.Machine.execPortalStop slot s
  | .carRequest slot => Sys2Proof.Machine.execCarRequest slot s
  | .setFlags slot => Sys2Proof.Machine.execSetFlags slot s
  | .requestTimeout slot => Sys2Proof.Machine.execRequestTimeout slot s
  | .loadConfig slot => Sys2Proof.Machine.execLoadConfig slot s
  | .loadProgram slot => Sys2Proof.Machine.execLoadProgram slot s
  | .camDirectory slot tables => Sys2Proof.Machine.execCamDirectory slot tables s
  | .camPrefetch slot => Sys2Proof.Machine.execCamPrefetch slot s
  | .camPin slot => Sys2Proof.Machine.execCamPin slot s
  | .camUnpin slot => Sys2Proof.Machine.execCamUnpin slot s
  | .pageIn data => Sys2Proof.Machine.execPageIn data s
  | .pageInRetry => Sys2Proof.Machine.execPageInRetry s
  | .journalRead slot => Sys2Proof.Machine.execJournalRead slot s
  | .statsRead slot => Sys2Proof.Machine.execStatsRead slot s
  | .timeAnnotate slot => Sys2Proof.Machine.execTimeAnnotate slot s
  | .manualMove slot => Sys2Proof.Machine.execManualMove slot s
  | .learnBaseline slot => Sys2Proof.Machine.execLearnBaseline slot s
  | .fieldForce slot => Sys2Proof.Machine.execFieldForce slot s
  | .forceDurationEnd u => Sys2Proof.Machine.execForceDurationEnd u s
  | .lockoutReset slot => Sys2Proof.Machine.execLockoutReset slot s
  | .roleRequest slot => Sys2Proof.Machine.execRoleRequest slot s
  | .keyInstall slot => Sys2Proof.Machine.execKeyInstall slot s
  | .lifecycleAdvance slot => Sys2Proof.Machine.execLifecycleAdvance slot s
  | .certRead slot => Sys2Proof.Machine.execCertRead slot s
  | .selftestRun slot => Sys2Proof.Machine.execSelftestRun slot s
  | .deferredSoftReset => Sys2Proof.Machine.execDeferredSoftReset s
  | .diagRead slot => Sys2Proof.Machine.execDiagRead slot s
  | .getStatus frame => Sys2Proof.Machine.execGetStatus frame s
  | .getIdent frame => Sys2Proof.Machine.execGetIdent frame s
  | .getSelftest frame => Sys2Proof.Machine.execGetSelftest frame s
  | .getEvents frame => Sys2Proof.Machine.execGetEvents frame s
  | .getCycles frame => Sys2Proof.Machine.execGetCycles frame s
  | .getPortal frame => Sys2Proof.Machine.execGetPortal frame s
  | .setRate frame => Sys2Proof.Machine.execSetRate frame s
  | .unsolicitedStatus wait => Sys2Proof.Machine.execUnsolicitedStatus wait s
  | .completionTimeout req arg => Sys2Proof.Machine.execCompletionTimeout req arg s
  | .busMasterEnable => Sys2Proof.Machine.execBusMasterEnable s
  | .receiverLock x => Sys2Proof.Machine.execReceiverLock x s
  | .receiverLockLoss x => Sys2Proof.Machine.execReceiverLockLoss x s
  | .twinLaneUp lane => Sys2Proof.Machine.execTwinLaneUp lane s
  | .helloTimeout => Sys2Proof.Machine.execHelloTimeout s
  | .nak frame => Sys2Proof.Machine.execNak frame s
  | .loReadLatch off => Sys2Proof.Machine.execLoReadLatch off s
  | .phyLinkChange port up duplex => Sys2Proof.Machine.execPhyLinkChange port up duplex s

end Sys2Proof.Machine
end

