-- ==== Sys2Proof/WellFormed.lean ====
section
/-! DEFINITION. Which terms are values of their row: the frames, messages and blocks that a row carries have
the lengths that its rule gives them. A term that is none runs too: the meaning takes it as a failed read, a frame that is
not valid or a message that is discarded, and no command stops on it (log 9). -/

namespace Sys2Proof

/-- Host data of the length that was asked for, or a failed read (R75). -/
def HostRead.wf (n : Nat) : HostRead → Bool
  | none => true
  | some b => b.length == n

/-- The command's operands have the lengths of the spec: an up frame is 22 bytes (R204), a nonce 16 and
an answer 8 (R365), an INPUT payload 2 224 (R369), a flow-table entry 64 (R77), a doorbell block 64 (R88), a descriptor 64 with an
authorisation block of 128 (R105, R108), a page piece and an image piece at least 1 byte (R367), a page-in at most 32 752
(R184); the rows of a march lie in the 24 banks (R437). -/
def Instr.wf : Instr → Bool
  | .upFrame _ rx => rx.bytes.length == 22
  | .auth _ n a => n.length == 16 && a.length == 8
  | .input _ b => b.length == 2224
  | .flowEntryRead _ e _ => e.wf 64
  | .doorbellData _ d => d.wf 64
  | .descriptorFetch (some l) => l.all fun f => f.desc.length == 64 && f.auth.wf 128
  | .pageIn (some d) => decide (d.length ≤ 32752)
  | .selftestStep _ rows _ => rows.all fun k => decide (k < 24576)
  | .page _ m => decide (0 < m.data.length) && decide (m.offset + m.data.length ≤ 32768)
  | .image _ m => decide (0 < m.data.length) && decide (m.offset + m.data.length ≤ m.total)
  | _ => true

end Sys2Proof
end

