-- ==== Sys2Proof/Safety.lean ====
section
/-! DEFINITION. The terms that the claims use: what a record store guarantees, what a step may do to the switches, the
fuses and the keys, and what it means that a command completes. -/

namespace Sys2Proof.Machine

/-- Both islands hold every switch open. -/
def AllOpen (s : State) : Prop := s.isa.closed = 0 ∧ s.isb.closed = 0

/-- The record stores are canonical tables, and every pointer lies within its store (R404, R405). -/
structure StoreInv (t : Stores) : Prop where
  journal : tok emptySlot t.journal = true
  events : tok emptySlot t.events = true
  checks : tok emptySlot t.checks = true
  wJ : t.wJ ≤ 134217728
  wE : t.wE ≤ 16777216
  wC : t.wC ≤ 32768
  cJ : t.committed.1 ≤ 134217728
  cE : t.committed.2.1 ≤ 16777216
  cC : t.committed.2.2 ≤ 32768

/-- No slot of the journal or of the event log below its write index differs between `u` and `t` (R405, R406). -/
structure SlotsKept (u t : Stores) : Prop where
  journal : ∀ i, i < u.wJ → storeSlot t 0 i = storeSlot u 0 i
  events : ∀ i, i < u.wE → storeSlot t 1 i = storeSlot u 1 i

/-- Island `k` closes no switch between `s` and `t` (R275). -/
def OnlyOpens (k : Isl) (s t : State) : Prop :=
  ∀ n, (islAt k t).closed.getLsbD n = true → (islAt k s).closed.getLsbD n = true

/-- The identity key of `t` is that of `s`, or none (R455, R457). -/
def NoNewIdentity (s t : State) : Prop :=
  t.onyx.identity = s.onyx.identity ∨ t.onyx.identity = []

/-- Slot `k` holds an accepted operation of opcode `op` that has not started and that nothing holds back (R94, R370). -/
structure Ready (k op : Nat) (x : SlotSt) (c : Core) : Prop where
  slot : slotAt c k = some x
  running : x.done = none
  opcode : byteAt x.desc 0 = op
  fresh : x.started = false
  first : earlierWaits c x = false
  taken : heldBack c op = false

/-- The operation of slot `k` has ended with this status, this detail and these results (R110). -/
def Ended (k status detail r0 r1 : Nat) (c : Core) : Prop :=
  ∃ x e, slotAt c k = some x ∧ x.done = some e ∧ e.status = status ∧ e.detail = detail ∧ e.r0 = r0 ∧ e.r1 = r1

/-- The core once the operation of slot `k` has started: its slot says so, and a unit whose twin stands by carries it (R94, R370). -/
def begun (k : Nat) (x : SlotSt) (c : Core) : Core :=
  carryOp x.desc (setSlot k (some { x with started := true, visible := c.seq.now + 1 }) c)

/-- The operation `x` of slot `k` starts and ends in one delivery, which leaves core `e` of a core `c` that has its other effects:
the slot holds the completion with its stamp and role epoch, and nothing else of the core changes (R94, R110). -/
structure EndsOp (k : Nat) (x : SlotSt) (status detail r0 r1 : Nat) (c e : Core) : Prop where
  slot : slotAt e k = some { x with
    started := true, visible := c.seq.now + 1
    done := some ⟨status, detail, r0, r1, BitVec.ofNat 64 (stampOf c), c.nv.epoch, c.host.finished⟩ }
  others : ∀ j, j ≠ k → slotAt e j = slotAt c j
  carry : e.twin.carry = (carryOp x.desc c).twin.carry
  rest : e = { c with
    host := { c.host with slots := e.host.slots, finished := c.host.finished + 1 }, twin.carry := e.twin.carry }

/-- What a reset of kind `k` leaves of `s`: held in reset in SELFTEST with every switch open; latches, counts, keys and
records kept, flows, motion and the time base lost, the set-up registers lost only with the hard kinds (R60, R64, R65). -/
structure AfterReset (k : ResetKind) (s t : State) : Prop where
  held : t.core.sys.inReset = true ∧ t.core.sys.mode = .selftest ∧ t.core.sys.resetKind = k
  opened : AllOpen t
  keys : t.fuse = s.fuse ∧ t.onyx.identity = s.onyx.identity ∧ t.onyx.train = s.onyx.train ∧ t.onyx.twin = s.onyx.twin
  records : t.store = { s.store with rstJ := t.store.rstJ, rstE := t.store.rstE }
  kept : t.core.nv = { s.core.nv with
    valid := t.core.nv.valid
    cycles := if hardReset k then min 0x3FFFFE (s.core.nv.cycles + 1) else s.core.nv.cycles }
  baselines : s.core.nv.cfg = s.core.run.cfg → t.core.nv.valid = s.core.nv.valid
  latches : t.isa = { dev := s.isa.dev, latches := s.isa.latches, isolated := s.isa.isolated } ∧
    t.isb = { dev := s.isb.dev, latches := s.isb.latches, isolated := s.isb.isolated }
  images : t.core.run = { cfg := s.core.nv.cfg, progs := s.core.nv.progs, dir := s.core.nv.dir }
  setup : t.core.bar = if hardReset k then {} else s.core.bar
  lost : t.core.host = {} ∧ t.core.seq = {} ∧ t.core.tb = {} ∧ t.core.links = [] ∧ t.core.twin = {}
  queue : t.pending = s.pending

/-- A hold-up flush of kind `k` has begun: transmission stops, both islands hold every switch open, and only safety-class
records are admitted; the rest stands (R66, R68). -/
structure FlushBegun (k : ResetKind) (s t : State) : Prop where
  sys : t.core.sys = { s.core.sys with flush := some { kind := k }, txOff := true, deferred := t.core.sys.deferred }
  gate : t.core.recd.powerFail = true
  opened : AllOpen t ∧ t.isa.heldOpen = true ∧ t.isb.heldOpen = true
  core : t.core = { s.core with
    sys := t.core.sys, recd := t.core.recd, twin.txSeq := t.core.twin.txSeq, out := t.core.out, free := t.core.free }
  rest : t = { s with
    die := t.die, isa := { s.isa with heldOpen := true, closed := 0, closing := [] }
    isb := { s.isb with heldOpen := true, closed := 0, closing := [] }, core := t.core }

/-- The unit has entered SAFE_TALK with a cause: every switch open, every commanded output and every force gone, every axis
OFF with zero duty (R52, R53). -/
structure SafeTalk (cause : Nat) (s t : State) : Prop where
  mode : t.core.sys.mode = .safeTalk ∧ t.core.sys.cause = cause
  opened : AllOpen t
  outputs : t.core.seq.out = 0 ∧ t.core.seq.forces = [] ∧ t.die.run = false
  axes : ∀ x, x < 36 → (axAt t.core x).st = .off ∧ (axAt t.core x).dutyU = 32768 ∧ (axAt t.core x).dutyV = 32768 ∧
    (axAt t.core x).dutyW = 32768
  kept : t.fuse = s.fuse ∧ t.onyx = s.onyx ∧ t.store = s.store ∧ t.core.nv = s.core.nv ∧ t.core.run = s.core.run ∧
    t.core.bar = s.core.bar ∧ t.pending = s.pending

/-- Island `k` has latched fault `code` of output `n` in `t`: its switch is open, the first fault stands, the latch copy is
set, and the fault is reported unless either island had one. `i` is the island as the fault is found (R302, R319). -/
structure OutputFault (k : Isl) (n code : Nat) (i : IslSt) (s t : State) : Prop where
  opened : (islAt k t).closed.getLsbD n = false ∧ OnlyOpens k s t
  fault : tget 0 (islAt k t).outFault n = if tget 0 (islAt k s).outFault n = 0 then code else tget 0 (islAt k s).outFault n
  latch : if n < 4 then (islAt k t).dev.set = true else (tget {} (islAt k t).latches (n - 4)).set = true
  report : t.core.seq.faultQ = s.core.seq.faultQ ++
    (if tget 0 s.isa.outFault n = 0 ∧ tget 0 s.isb.outFault n = 0 then [⟨code, if n < 4 then 255 else n - 4, n⟩] else [])
  rest : t = setIsl k { i with
      outFault := (islAt k t).outFault, closed := (islAt k t).closed, closing := (islAt k t).closing
      dev := (islAt k t).dev, latches := (islAt k t).latches }
    { s with core := { s.core with seq.faultQ := t.core.seq.faultQ } }

/-- The state in which an access to BAR0 finds its port: whether 25 ms have passed since the internal reset release has settled (R51,
R469). -/
abbrev atPort (s : State) : State := { s with core := portSettles s.core }

/-- The message TYPE and the header of a message of the twin (R367). -/
def twinType : Instr → Option (Nat × TwinHdr)
  | .auth h _ _ => some (0x00, h)
  | .hello h _ => some (0x01, h)
  | .sync h _ _ _ => some (0x02, h)
  | .delay h _ _ => some (0x03, h)
  | .input h _ => some (0x10, h)
  | .snapshot h _ => some (0x11, h)
  | .page h _ => some (0x12, h)
  | .image h _ => some (0x13, h)
  | .resyncReq h => some (0x14, h)
  | .relinquish h _ => some (0x15, h)
  | _ => none

/-- The payload of a message has the length that its TYPE asks for (R366, R367). -/
def twinFits : Instr → Bool
  | .auth _ n a => n.length == 16 && a.length == 8
  | .input _ b => b.length == inputLen
  | .page _ m => decide (m.data.length ≤ 4096)
  | .image _ m => decide (m.data.length ≤ 4096)
  | _ => true

/-- A message of a TYPE that the unit takes: it listens on the lane, the CRC is good, the MSEQ is new, the epoch is not lower, and but
for AUTH the twin is authenticated (R364 to R366). -/
structure Heard (type : Nat) (h : TwinHdr) (c : Core) : Prop where
  served : listens c = true
  lane : pbit c.twin.lanes h.lane = true
  good : h.ok = true
  first : h.mseq ∉ tget [] c.twin.rxSeq type
  authed : type ≠ 0 → c.twin.authed = true
  fresh : epochLower h.epoch c.nv.epoch = false

/-- The MSEQ of a message is remembered for its TYPE (R365). -/
def heardSeq (type : Nat) (h : TwinHdr) (c : Core) : Core :=
  { c with twin.rxSeq := tset [] c.twin.rxSeq type ((h.mseq :: tget [] c.twin.rxSeq type).take 64) }

/-- The core once the header of a message has been taken: the twin has been heard, and a standby has the epoch of a claiming
twin (R362, R364, R375). -/
def heard (type : Nat) (h : TwinHdr) (gone : Bool) (c : Core) : Core :=
  { heardSeq type h c with
    nv.epoch := if c.sys.mode == .shadow && (h.role == .active || h.role == .solo) then h.epoch else c.nv.epoch
    twin := { (heardSeq type h c).twin with age := 0, epoch := some h.epoch, gone } }

/-- The command completes in state `t`. -/
abbrev Runs (c : Instr) (s t : State) : Prop := exec c s = .next t

end Sys2Proof.Machine
end

