-- ==== Sys2Proof/Certificates/Slice0/Obligations.lean ====
section
/-! DEFINITION. The statements for the provers. Unless a docstring says otherwise, a statement that a command completes says
so for every state that meets its hypotheses; `Runs c s t` is `exec c s = .next t`. -/

open Sys2Proof Sys2Proof.Machine

/-- When a command stands at the front of the queue, a step is that command's effect on the state with the queue's rest; on an empty
queue the block idles and a step changes nothing. The queue and the idle step are the model's choice (log 1). -/
def Obligations.StepRunsFront : Prop :=
  (∀ (c : Instr) (s : State), step { s with pending := c :: s.pending } = exec c s) ∧ ∀ s : State, s.pending = [] → step s = .next s

/-- No command touches the commands that wait behind it. -/
def Obligations.ExecKeepsQueue : Prop :=
  ∀ (c : Instr) (s t : State), Runs c s t → t.pending = s.pending

/-- Every command of the table, each of the 180 constructors of `Instr`, completes in every state and for all values of its operands:
no command faults and none is refused. What completes leaves the waiting commands, and every written slot of the record stores, as
they were. What each command does on its own conditions is said by the statements on it. -/
def Obligations.EveryCommandCompletes : Prop :=
  ∀ (c : Instr) (s : State), ∃ t, exec c s = .next t ∧ t.pending = s.pending ∧ SlotsKept s.store t.store

/-- Right after the first power-on reset of a unit that has left manufacture: BLANK, fuses and keys empty, no image, latches
clear, nothing recorded, held in reset in SELFTEST with every switch open (R508, R472, R64). The values that the spec does
not give are the model's (log 2). -/
def Obligations.ResetLeaves : Prop :=
  State.reset.fuse.fused = false ∧ State.reset.onyx.identity = [] ∧ State.reset.onyx.train = [] ∧ State.reset.onyx.twin = [] ∧
    State.reset.core.nv.lc = .blank ∧ State.reset.core.nv.cfg = none ∧ State.reset.core.nv.progs = [] ∧
    State.reset.core.nv.dev.set = false ∧ State.reset.core.nv.latches = [] ∧ State.reset.core.nv.isolated = 0 ∧
    State.reset.core.nv.epoch = 0 ∧ State.reset.core.nv.auth = 0 ∧ State.reset.core.nv.opMs = 0 ∧ State.reset.core.nv.cycles = 1 ∧
    State.reset.store.wJ = 0 ∧ State.reset.store.wE = 0 ∧ State.reset.core.sys.mode = .selftest ∧
    State.reset.core.sys.resetKind = .por ∧ State.reset.core.bar.lock = false ∧ State.reset.core.bar.poll = 10 ∧
    State.reset.core.bar.timeout = 1000 ∧ State.reset.pending = [] ∧ AllOpen State.reset

/-- The record stores after reset meet their invariant: no slot written, every pointer 0. -/
def Obligations.StoreInvAtReset : Prop := StoreInv State.reset.store

/-- Every step keeps the store invariant: canonical tables, and each pointer within the size of its store (R404). -/
def Obligations.StoreInvKept : Prop :=
  ∀ s t : State, StoreInv s.store → step s = .next t → StoreInv t.store

/-- Nothing rewrites or clears a slot below W: whatever the command, every slot of the cycle journal and of the event log
below its write index reads as before. A TIME_ANNOTATE that starts once the event log has stopped ends with STORE_FULL, and
no annotation is kept (R432). -/
def Obligations.WrittenSlotsStay : Prop :=
  (∀ s t : State, step s = .next t → SlotsKept s.store t.store) ∧
    ∀ (k : Fin 512) (x : SlotSt) (s : State), Ready k 0x32 x s.core → s.core.recd.stoppedE = true →
      ∃ t, Runs (.timeAnnotate k) s t ∧ Ended k 0x60 0 0 0 t.core ∧ t.core.nv.annot = s.core.nv.annot ∧ t.core.recd = s.core.recd

/-- A closing decision is never adopted: a command closes a switch of an island only if it is a safety tick of that island,
and then only a switch that the island itself requests closed (R275, R296). -/
def Obligations.SwitchClosesOnOwnEvaluation : Prop :=
  ∀ (c : Instr) (s t : State) (k : Isl) (n : Nat), Runs c s t → (islAt k t).closed.getLsbD n = true →
    (islAt k s).closed.getLsbD n = true ∨
      ((∃ pads role, c = .safetyTick k pads role) ∧ (islAt k t).request.getLsbD n = true)

/-- The authority fuse is written only by LIFECYCLE_ADVANCE from BLANK to PROVISIONED, with the SHA-256 of the four authority
slots (R456). -/
def Obligations.FuseOnlyFromBlank : Prop :=
  ∀ (c : Instr) (s t : State), Runs c s t → t.fuse ≠ s.fuse →
    (∃ k, c = .lifecycleAdvance k) ∧ s.core.nv.lc = .blank ∧ t.core.nv.lc = .provisioned ∧
      t.fuse.fused = true ∧ t.fuse.hash = sha256 (authSlots s.core)

/-- Only LIFECYCLE_ADVANCE gives the unit an identity key; every other command keeps the key or erases it (R455, R457). -/
def Obligations.IdentityOnlyByAdvance : Prop :=
  ∀ (c : Instr) (s t : State), Runs c s t → NoNewIdentity s t ∨ ∃ k, c = .lifecycleAdvance k

/-- A power-on reset runs at once from every state, with no flush: what R64 keeps stays, the rest is lost, the power-cycle
count rises. A lid mesh found open or shorted is an ERASE: the wipe is pending, and a unit in use is locked out (R462, R466). -/
def Obligations.PowerOnReset : Prop :=
  ∀ s : State,
    (∃ t, Runs (.porReset false) s t ∧ AfterReset .por s t ∧ t.onyx.wipePending = s.onyx.wipePending) ∧
      ∃ t, Runs (.porReset true) s t ∧ AllOpen t ∧ t.core.sys.inReset = true ∧ t.core.sys.resetKind = .por ∧
        t.onyx.wipePending = true ∧ t.onyx.wipeCause = 1 ∧
        ((s.core.nv.lc = .provisioned ∨ s.core.nv.lc = .field) → t.core.nv.dev.set = true)

/-- PFAIL, BOR, RST_N, a soft-reset write in BAR0 and the deferred reset start the hold-up flush of their kind. A flush that
runs is not restarted: it takes the higher-ranked kind (R60, R62, R66, R68, R120). A soft-reset write acts only where BAR0
takes writes, and an ACTIVE or SOLO unit with a portal in motion records its refusal instead (R61, R474); neither it nor a deferred
reset takes the unit out of SAFE_TALK (R54). The commands `pfail`, `borReset`, `pinReset`, `sysReset` and `deferredSoftReset`
complete. -/
def Obligations.FlushStarts : Prop :=
  ∀ s : State, s.core.sys.inReset = false →
    (s.core.sys.flush = none →
      (∀ v, ∃ t, Runs (.pfail v) s t ∧ FlushBegun .bor s t) ∧
      (∃ t, Runs .borReset s t ∧ FlushBegun .bor s t) ∧
      (∃ t, Runs .pinReset s t ∧ FlushBegun .pin s t ∧ t.die = { noSupply := s.die.noSupply }) ∧
      (barOpen (atPort s).core = true → (claiming s.core && anyMoving s.core) = false →
        ∃ t, Runs (.sysReset 0x5AA5) s t ∧ FlushBegun .soft (atPort s) t ∧ t.die = s.die) ∧
      (s.core.sys.deferred = true → s.core.sys.mode ≠ .safeTalk → (∀ e ∈ s.core.host.slots, ∀ x ∈ e.2, slotOp x ≠ 0x61 ∧ slotOp x ≠ 0x70) →
        ∃ t, Runs .deferredSoftReset s t ∧ FlushBegun .soft s t ∧ t.core.sys.deferred = false)) ∧
    (∀ f, s.core.sys.flush = some f → f.toParked = false →
      (∀ v, ∃ t, Runs (.pfail v) s t ∧
        t.core.sys.flush = some { kind := if f.kind = .por then .por else .bor } ∧
        t = { s with core := { s.core with sys.flush := t.core.sys.flush } }) ∧
      ∃ t, Runs .pinReset s t ∧
        t.core.sys.flush = some { kind := if f.kind = .por ∨ f.kind = .bor then f.kind else .pin } ∧
        t = { s with die := { noSupply := s.die.noSupply }, core := { s.core with sys.flush := t.core.sys.flush } })

/-- `sysReset` completes: only the key 0x5AA5 requests a SOFT reset; any other value, and any value where BAR0 takes no writes, leaves
the unit as it was but for what the access finds out about the port, `atPort`. An ACTIVE or SOLO unit with a portal in motion
records SOFT_RESET_REFUSED and goes on; SAFE_TALK ignores the request; the lock does not affect it (R474, R61, R54). -/
def Obligations.SoftResetWrite : Prop :=
  ∀ (v : U32) (s : State), ∃ t, Runs (.sysReset v) s t ∧
    ((v ≠ 0x5AA5 ∨ barOpen (atPort s).core = false) → t = atPort s) ∧
    ((s.core.sys.inReset = true ∨ s.core.sys.mode = .safeTalk ∨ (s.core.sys.early = true ∧ s.core.sys.stStep = 1)) →
      barOpen (atPort s).core = false) ∧
    (v = 0x5AA5 → barOpen (atPort s).core = true →
      ((claiming s.core && anyMoving s.core) = true → t = { s with core := event 0x004 0x00 [] (atPort s).core }) ∧
      ((claiming s.core && anyMoving s.core) = false → s.core.sys.flush = none → FlushBegun .soft (atPort s) t))

/-- `flushComplete` completes in every state. With no flush it changes nothing. At the end of a flush what was staged has been
written, the pointers are committed and the statistics kept, and the pending reset follows; the flush of an entry into PARKED leaves
the unit there without its flows and motion, its service port at the configured rate and the kind of its reset PARKED, or, where a
wake event has come meanwhile, a reset of kind PARKED follows; a unit that has entered SAFE_TALK meanwhile stays there (R54, R60,
R64, R68, R69, R70, R429, R435). -/
def Obligations.FlushEnds : Prop :=
  ∀ s : State,
    (s.core.sys.flush = none → Runs .flushComplete s s) ∧
    ∀ f : FlushSt, s.core.sys.flush = some f →
      let u := flushStores s
      (SlotsKept s.store u.store ∧ u.store.committed = (u.store.wJ, u.store.wE, u.store.wC) ∧ u.core.nv.stats = u.core.recd.stats ∧
        u.core.recd.fifo = [] ∧
        u = { s with
          store := u.store
          core := { s.core with
            nv := { s.core.nv with annot := u.core.nv.annot, stats := u.core.nv.stats }
            recd := u.core.recd, host := u.core.host, free := u.core.free } }) ∧
      (f.toParked = false → ∃ t, Runs .flushComplete s t ∧ AfterReset f.kind u t) ∧
      (f.toParked = true → s.core.sys.mode = .parked → s.core.sys.wake = false → ∃ t, Runs .flushComplete s t ∧
        t.core.sys = { s.core.sys with flush := none, resetKind := .parked, svcRate := img8 (cfgOf s.core) (secSys + 1) } ∧
        t.core.host = {} ∧ t.core.seq = {} ∧ t.core.links = [] ∧ t.core.cam = { pages := s.core.cam.pages } ∧ t.core.twin = {} ∧
        t.core.train = {} ∧
        t = { u with core := { u.core with
          sys := t.core.sys, recd := { u.core.recd with powerFail := false }
          host := t.core.host, seq := t.core.seq, links := t.core.links, cam := t.core.cam, twin := t.core.twin
          train := t.core.train } }) ∧
      (f.toParked = true → s.core.sys.mode = .parked → s.core.sys.wake = true → s.core.sys.inReset = false →
        ∃ t v, Runs .flushComplete s t ∧ AfterReset .parked v t ∧ v = { u with core := v.core } ∧ v.core.nv = u.core.nv ∧
          v.core.bar = s.core.bar) ∧
      (f.toParked = true → s.core.sys.mode ≠ .parked → Runs .flushComplete s
        { u with core := { u.core with
          sys := { s.core.sys with flush := none, txOff := false }, recd := { u.core.recd with powerFail := false } } })

/-- `internalResetRelease` completes: SELFTEST begins with its first step, the configured service rate and a host port that does not
answer yet; a wipe found pending completes first, and with it goes the certificate of the key. A unit that is not in reset has none
(R45, R51, R55, R454, R455). -/
def Obligations.ReleaseStartsSelftest : Prop :=
  ∀ s : State, (s.core.sys.inReset = false → Runs .internalResetRelease s s) ∧
    (s.core.sys.inReset = true → ∃ t, Runs .internalResetRelease s t ∧
      t.core.sys = { s.core.sys with
        inReset := false, mode := .selftest, stStep := 1, early := true, svcRate := img8 (cfgOf s.core) (secSys + 1) } ∧
      (s.onyx.wipePending = true → t.onyx = {} ∧ t.core.nv = { s.core.nv with cert := [] }) ∧
      (s.onyx.wipePending = false → t.onyx = s.onyx ∧ t.core.nv = s.core.nv) ∧
      t = { s with onyx := t.onyx, core := { s.core with
        sys := t.core.sys, nv := t.core.nv, recd := t.core.recd, tb := (endDiscipline .selftest s.core).tb
        twin := { (endDiscipline .selftest s.core).twin with role := t.core.twin.role }, mem.banks := t.core.mem.banks
        host := t.core.host, seq := t.core.seq, cam := t.core.cam } })

/-- `selftestStep` and `stTimeout` complete. A step that gives one of its failure codes ends the self-test in SAFE_TALK with that
code as the cause, and so does the timeout, 1.8 s after the release, with 0x7F; a step 1, 4 or 7 that gives none passes, is noted with
its duration in ms, and starts the next; step 8 starts the time base. Outside the self-test neither has an effect (R46, R47, R48,
R24). -/
def Obligations.SelftestSteps : Prop :=
  ∀ (s : State) (rows : List Nat) (us : Nat),
    (testing s.core = false → Runs .stTimeout s s ∧ ∀ code, Runs (.selftestStep code rows us) s s) ∧
    (testing s.core = true →
      (∀ code, (stepCodes s.core.sys.stStep).contains code = true →
        ∃ t, Runs (.selftestStep code rows us) s t ∧ SafeTalk code (countStep us s) t ∧ t.core.sys.stFail = code ∧
          t.core.sys.stLast = s.core.sys.stLast) ∧
      (∃ t, Runs .stTimeout s t ∧ SafeTalk 0x7F (countStep (1800000 - s.core.sys.stUs) s) t ∧ t.core.sys.stFail = 0x7F) ∧
      ((s.core.sys.stStep = 1 ∨ s.core.sys.stStep = 4 ∨ s.core.sys.stStep = 7 ∨ s.core.sys.stStep = 8) →
        ∃ t, Runs (.selftestStep 0 rows us) s t ∧ t.core.sys.mode = .selftest ∧
          t.core.sys.stStep = s.core.sys.stStep + 1 ∧ t.core.sys.stLast = s.core.sys.stStep ∧
          tget (0, 0, 0) t.core.sys.stRes s.core.sys.stStep = (1, 0, us / 1000 % 65536) ∧
          (s.core.sys.stStep = 8 → t.core.tb.running = true) ∧ (s.core.sys.stStep ≠ 8 → t.core.tb = s.core.tb) ∧
          t = { s with core := { s.core with
            sys := { s.core.sys with
              stStep := t.core.sys.stStep, stLast := t.core.sys.stLast, stRes := t.core.sys.stRes, stUs := s.core.sys.stUs + us }
            nv.opMs := t.core.nv.opMs, tb := t.core.tb } }))

/-- Step 9 decides the mode: a scrapped unit stays in SAFE_TALK with LC_SCRAPPED; a BLANK or RETURNED one enters PROVISION; one
with its device latch set in any copy, or without an identity key, LOCKOUT; a second unit SHADOW; any other SERVICE, with a
new role epoch that is not 0 (R38, R46, R360, R363). -/
def Obligations.ModeDecision : Prop :=
  ∀ (s : State) (us : Nat), testing s.core = true → s.core.sys.stStep = 9 →
    ∃ t, Runs (.selftestStep 0 [] us) s t ∧ t.core.sys.hostLost = true ∧
      t.core.sys.mode = (if s.core.nv.lc = .scrapped then .safeTalk
        else if s.core.nv.lc = .blank ∨ s.core.nv.lc = .returned then .provision
        else if s.core.nv.dev.set = true ∨ s.isa.dev.set = true ∨ s.isb.dev.set = true ∨ s.onyx.identity = [] then .lockout
        else if entersShadow s.core = true then .shadow else .service) ∧
      (s.core.nv.lc = .scrapped → SafeTalk 0x7E (countStep us s) t) ∧
      (t.core.sys.mode = .service → t.core.nv.epoch ≠ 0 ∧ claiming t.core = true) ∧
      (t.core.sys.mode = .shadow → claiming t.core = false ∧ t.core.nv.epoch = s.core.nv.epoch)

/-- The run-time causes of SAFE_TALK. The commands `refclkFail`, `clockFault`, `mramFault`, `fieldLinkLost` and `safeDisagree` complete
in every state. Their own effect is the unit's move into SAFE_TALK: a clock monitor with cause 0x80, the memory of the configuration
area with 0x84, the field link with 0x83, the islands' disagreement with 0x82, from every mode but SAFE_TALK itself, out of reset and
while no reset has been triggered. Elsewhere a lost reference clock still moves the PLLs to FBOSC, and a clock fault still opens its
side or blinds the islands; in reset neither acts. A safety island's clock fault opens the other island's side first (R17, R18,
R38, R40, R53). -/
def Obligations.SafeTalkEntries : Prop :=
  ∀ s : State,
    let enters : Prop := s.core.sys.inReset = false ∧ s.core.sys.mode ≠ .safeTalk ∧ resetting s.core = false
    (∃ t, Runs .refclkFail s t ∧ (enters → SafeTalk 0x80 s t ∧ t.core.sys.fbosc = true) ∧
      (s.core.sys.inReset = true → t = s) ∧
      (s.core.sys.inReset = false → ¬ enters → t = { s with core := { s.core with sys := { s.core.sys with fbosc := true } } })) ∧
    (∀ src, ∃ t, Runs (.clockFault src) s t ∧
      (enters → SafeTalk 0x80 s t ∧ (src = .field → t.isa.blind = true ∧ t.isb.blind = true)) ∧
      (s.core.sys.inReset = true → t = s) ∧
      (s.core.sys.inReset = false → ¬ enters → t = match src with
        | .refclk => { s with core := { s.core with sys := { s.core.sys with fbosc := true } } }
        | .pll => s
        | .safeB => { s with isa := { s.isa with closed := 0, closing := [] } }
        | .safeA => { s with isb := { s.isb with closed := 0, closing := [] } }
        | .field => { s with isa := { s.isa with blind := true }, isb := { s.isb with blind := true } })) ∧
    (∃ t, Runs .mramFault s t ∧ (enters → SafeTalk 0x84 s t) ∧ (¬ enters → t = s)) ∧
    (∀ k, ∃ t, Runs (.fieldLinkLost k) s t ∧
      ((islAt k s).due.contains .linkLost = true → enters → SafeTalk 0x83 s t) ∧
      ((islAt k s).due.contains .linkLost = false → t = s)) ∧
    ∃ t, Runs .safeDisagree s t ∧
      (s.isa.due.contains .disagree = true ∨ s.isb.due.contains .disagree = true → enters → SafeTalk 0x82 s t) ∧
      (s.isa.due.contains .disagree = false → s.isb.due.contains .disagree = false → t = s)

/-- The supplies and clocks that change no mode: VHOLD_LOW once charging has completed and the AON oscillator are recorded,
the charge sets its flag, and a second in PARKED counts 1 000 operating milliseconds (R34, R67, R18, R64). -/
def Obligations.SupplyEvents : Prop :=
  ∀ s : State,
    (∀ v, Runs (.vholdLow v) s (if s.core.sys.inReset = false ∧ s.core.sys.vholdCharged = true then
      { s with core := event 0x005 0x00 [v] s.core } else s)) ∧
    Runs .vholdCharged s { s with core := { s.core with sys := { s.core.sys with vholdCharged := true } } } ∧
    (∀ hz, s.core.sys.inReset = false → Runs (.aonClock hz) s { s with core := event 0x006 0x00 [hz] s.core }) ∧
    (s.core.sys.mode = .parked → s.core.sys.inReset = false → Runs .aonMsAdvance s
      { s with core := { s.core with nv := { s.core.nv with opMs := s.core.nv.opMs + 1000 } } })

/-- A wake event in PARKED leads to SELFTEST by a reset of kind PARKED: a doorbell word whose low half differs from its value at
entry, a wake frame, a change of a role line in a paired unit. One that comes while the flush of the entry still runs is kept for its
end. A word that does not differ leaves the unit where it is, and so does a role line in an unpaired unit; where flow 0 was not polled
at entry, the first word gives the value (log 23). The commands `parkedRoleInChange`, `wakeFrame` and `parkedDoorbellPoll` complete
(R69, R70, R64, R356). -/
def Obligations.WakeEvents : Prop :=
  ∀ s : State,
    (∀ b, (s.core.sys.mode ≠ .parked ∨ paired s.core = false) → Runs (.parkedRoleInChange b) s s) ∧
    Runs (.wakeFrame false) s s ∧
    (s.core.sys.mode = .parked → s.core.sys.inReset = false →
      (∀ f, s.core.sys.flush = some f → paired s.core = true → ∀ b, Runs (.parkedRoleInChange b) s
        { s with core := { s.core with sys := { s.core.sys with wake := true } } }) ∧
      (s.core.sys.flush = none →
        (paired s.core = true → ∀ b, ∃ t, Runs (.parkedRoleInChange b) s t ∧ AfterReset .parked s t) ∧
        (s.die.wake.isSome = true → ∃ t, Runs (.wakeFrame true) s t ∧ AfterReset .parked s t ∧ t.die.wake = none) ∧
        (portUp s.core = true →
          let read : Core := emit (.hostRead s.core.bar.db.toNat 4) s.core
          Runs (.parkedDoorbellPoll none) s { s with core := read } ∧
          ∀ w : U32,
            (∀ v, s.core.sys.parkDb = some v →
              (w.toNat % 65536 ≠ v → ∃ t, Runs (.parkedDoorbellPoll (some w)) s t ∧ AfterReset .parked s t) ∧
              (w.toNat % 65536 = v → Runs (.parkedDoorbellPoll (some w)) s { s with core := read })) ∧
            (s.core.sys.parkDb = none → Runs (.parkedDoorbellPoll (some w)) s
              { s with core := { read with sys := { s.core.sys with parkDb := some (w.toNat % 65536) } } }))))

/-- Every configured pair is evaluated as the table of R278 says: a fault leaves only with a demand on both contacts; a pair that stays
partial beyond DISC is due to fault; otherwise both contacts decide. A result is 1 only in the safe state, and every pair
starts unsafe (R278). While the island is blind, every pair evaluates as unsafe (R18). -/
def Obligations.PairEvaluation : Prop :=
  (∀ (i : IslSt) (q : Nat), pairUsed (islSec i) q = true → q < 72 → i.blind = false →
    let a := contactSafe i (img8 (islSec i) (sfPair q)) (img8 (islSec i) (sfPair q + 2) % 2)
    let b := contactSafe i (img8 (islSec i) (sfPair q + 1)) (img8 (islSec i) (sfPair q + 2) / 2 % 2)
    let disc := img16 (islSec i) (sfPair q + 4)
    let p := tget {} i.pairs q
    let p' := tget {} (pairsStep i).pairs q
    (p.st = .fault → p'.st = if a = false ∧ b = false then .unsafeSt else .fault) ∧
    (p.st = .partialSt → p'.n = p.n + 1) ∧
    (p.st = .partialSt → disc < p.n + 1 → p'.st = .partialSt ∧ (pairsStep i).due.contains (.pairDisc q) = true) ∧
    (p.st = .partialSt → p.n + 1 ≤ disc →
      p'.st = if a = true ∧ b = true then .safe else if a = false ∧ b = false then .unsafeSt else .partialSt) ∧
    ((p.st = .safe ∨ p.st = .unsafeSt) → a = b → p'.st = if a = true then .safe else .unsafeSt) ∧
    ((p.st = .safe ∨ p.st = .unsafeSt) → a ≠ b → p'.st = .partialSt ∧ p'.n = 0) ∧
    (pairResult (pairsStep i) q = true ↔ p'.st = .safe)) ∧
  (∀ (i : IslSt) (q : Nat), pairUsed (islSec i) q = true → q < 72 → i.blind = true →
    (tget {} (pairsStep i).pairs q).st = .unsafeSt) ∧
  ∀ (i : IslSt) (q : Nat), (tget {} (resetIsl i).pairs q).st = .unsafeSt

/-- What an island does when it takes its detections: missing frames make it blind and open every switch; a discrepancy faults
the pair and reports it for each of its portals; an overspeed opens the torque-enable output, sets the portal's latch copy and
is reported once; a speed cross-check is only reported, once for both islands. A detection that is not due has no effect (log 3). The
commands `fieldFramesMissing`, `pairDisc`, `overspeed` and `speedXchk` complete (R18, R278, R293, R302, R317). -/
def Obligations.IslandDetections : Prop :=
  ∀ (k : Isl) (s : State),
    (∀ d c, (d, c) ∈ [(IslDue.framesMissing, Instr.fieldFramesMissing k)] ++
        (List.finRange 72).map (fun q => (.pairDisc q.val, .pairDisc k q)) ++ (List.finRange 36).map (fun x => (.overspeed x.val, .overspeed k x)) →
      (islAt k s).due.contains d = false → Runs c s s) ∧
    ((islAt k s).due.contains .framesMissing = true → ∃ t, Runs (.fieldFramesMissing k) s t ∧ t = setIsl k { islAt k s with
      due := (islAt k s).due.erase .framesMissing, now := islNow k s.core, blind := true, closed := 0, closing := [], pairs := [] } s) ∧
    (∀ q : Fin 72, (islAt k s).due.contains (.pairDisc q) = true → ∃ t, Runs (.pairDisc k q) s t ∧
      (tget {} (islAt k t).pairs q).st = .fault ∧
      (∀ j, j ≠ q.val → tget {} (islAt k t).pairs j = tget {} (islAt k s).pairs j) ∧
      t.core.seq.faultQ = s.core.seq.faultQ ++ (if (tget {} (islAt (otherIsl k) s).pairs q).st = .fault then []
        else if pairPortals s.core q = [] then [⟨0x201, 255, q⟩] else (pairPortals s.core q).map fun p => ⟨0x201, p, q⟩) ∧
      t = setIsl k { islAt k s with
          due := (islAt k s).due.erase (.pairDisc q), now := islNow k s.core, pairs := (islAt k t).pairs }
        { s with core := { s.core with seq.faultQ := t.core.seq.faultQ } }) ∧
    (∀ x : Fin 36, (islAt k s).due.contains (.overspeed x) = true → ∃ t, Runs (.overspeed k x) s t ∧
      (islAt k t).closed.getLsbD (4 + x.val / 3) = false ∧ pbit (islAt k t).overspd (x.val / 3) = true ∧
      (tget {} (islAt k t).latches (x.val / 3)).set = true ∧
      t.core.seq.faultQ = s.core.seq.faultQ ++
        (if pbit (islAt (otherIsl k) s).overspd (x.val / 3) then [] else [⟨0x205, x.val / 3, x⟩]) ∧
      t = setIsl k { islAt k s with
          due := (islAt k s).due.erase (.overspeed x), now := islNow k s.core
          closed := setBit (islAt k s).closed (4 + x.val / 3) false, closing := tset 0 (islAt k s).closing (4 + x.val / 3) 0
          overspd := (islAt k t).overspd, latches := (islAt k t).latches }
        { s with core := { s.core with seq.faultQ := t.core.seq.faultQ } }) ∧
    (∀ x : Fin 36, s.isa.due.contains (.xchk x) = true → tget 0 s.isb.xchk x < 40 → ∃ t, Runs (.speedXchk x) s t ∧
      t = { s with
        isa := { s.isa with due := s.isa.due.erase (.xchk x), now := islNow .a s.core }
        core := { s.core with seq.faultQ := s.core.seq.faultQ ++ [⟨0x206, x.val / 3, x⟩] } }) ∧
    (∀ x : Fin 36, s.isa.due.contains (.xchk x) = true → 40 ≤ tget 0 s.isb.xchk x → Runs (.speedXchk x) s
      { s with isa := { s.isa with due := s.isa.due.erase (.xchk x), now := islNow .a s.core } }) ∧
    (∀ x : Fin 36, s.isa.due.contains (.xchk x) = false → s.isb.due.contains (.xchk x) = true → tget 0 s.isa.xchk x < 40 →
      Runs (.speedXchk x) s { s with
        isb := { s.isb with due := s.isb.due.erase (.xchk x), now := islNow .b s.core }
        core := { s.core with seq.faultQ := s.core.seq.faultQ ++ [⟨0x206, x.val / 3, x⟩] } }) ∧
    ∀ x : Fin 36, s.isa.due.contains (.xchk x) = false → s.isb.due.contains (.xchk x) = false → Runs (.speedXchk x) s s

/-- Torque removal in a stop: once T_ZERO or T_MAX has passed, the stop has removed torque, the switch of the portal's torque-enable
output opens at once, and the other stops are as they were; only T_MAX is reported, unless the other island has removed torque
already. A removal that is not due has no effect (log 3), nor one of a portal without a stop. The commands `torqueRemoval` and
`stopTmax` complete (R292, R302). -/
def Obligations.TorqueRemoved : Prop :=
  ∀ (k : Isl) (p : Fin 12) (s : State),
    let i := islAt k s
    let removed (j : IslSt) (d : IslDue) : Prop :=
      tget {} j.stops p = { tget {} i.stops p with removed := true } ∧ (∀ n, n ≠ p.val → tget {} j.stops n = tget {} i.stops n) ∧
      j = { i with
        due := i.due.erase d, now := islNow k s.core, stops := j.stops
        closed := setBit i.closed (4 + p) false, closing := tset 0 i.closing (4 + p) 0 }
    (i.due.contains (.torque p) = false → Runs (.torqueRemoval k p) s s) ∧
    (i.due.contains (.tmax p) = false → Runs (.stopTmax k p) s s) ∧
    (i.due.contains (.torque p) = true → (tget {} i.stops p).active = true →
      ∃ t, Runs (.torqueRemoval k p) s t ∧ removed (islAt k t) (.torque p) ∧ t = setIsl k (islAt k t) s) ∧
    (i.due.contains (.torque p) = true → (tget {} i.stops p).active = false →
      Runs (.torqueRemoval k p) s (setIsl k { i with due := i.due.erase (.torque p), now := islNow k s.core } s)) ∧
    (i.due.contains (.tmax p) = true → (tget {} i.stops p).active = true → (tget {} i.stops p).removed = false →
      ∃ t, Runs (.stopTmax k p) s t ∧ removed (islAt k t) (.tmax p) ∧
        t.core.seq.faultQ = s.core.seq.faultQ ++
          (if (tget {} (islAt (otherIsl k) s).stops p).removed then [] else [⟨0x204, p, 255⟩]) ∧
        t = setIsl k (islAt k t) { s with core := { s.core with seq.faultQ := t.core.seq.faultQ } }) ∧
    (i.due.contains (.tmax p) = true → ((tget {} i.stops p).active = false ∨ (tget {} i.stops p).removed = true) →
      Runs (.stopTmax k p) s (setIsl k { i with due := i.due.erase (.tmax p), now := islNow k s.core } s))

/-- Output faults: the island opens its switch and latches the fault, the first cause stands, the latch copy of the portal, or of
the device for SO0 to SO3, is set, and the fault is reported unless either island had one for that output. They arise from a
dark test that finds its pad still energised, another closed output affected, or the pad not back; from a low side that does not
rise, an external drive, and an overload. A dark test runs once in each cycle, of a closed switch with energised pads and VSO not
low; between outputs with TWIN_PAR another pad counts only where the twin holds both open. The commands `soOverload`, `soExt`,
`soLsStuck` and `darkTest` complete (R297, R298, R299, R300, R301, R302, R319). -/
def Obligations.OutputFaults : Prop :=
  ∀ (s : State) (n : Fin 16),
    (∀ k, ((islAt k s).closed.getLsbD n = false → Runs (.soOverload k n) s s) ∧ ((islAt k s).closed.getLsbD n = true →
      ∃ t, Runs (.soOverload k n) s t ∧ OutputFault k n 0x20C { islAt k s with now := islNow k s.core } s t)) ∧
    (∀ k, ((islAt k s).due.contains (.ext n) = false → Runs (.soExt k n) s s) ∧ ((islAt k s).due.contains (.ext n) = true →
      ∃ t, Runs (.soExt k n) s t ∧
        OutputFault k n 0x20A { islAt k s with due := (islAt k s).due.erase (.ext n), now := islNow k s.core } s t)) ∧
    (s.isa.due.contains (.lsStuck n) = false → Runs (.soLsStuck n) s s) ∧
    (s.isa.due.contains (.lsStuck n) = true → ∃ t, Runs (.soLsStuck n) s t ∧
      OutputFault .a n 0x208 { s.isa with due := s.isa.due.erase (.lsStuck n), now := islNow .a s.core } s t) ∧
    ∀ k rd,
      let i := islAt k s
      let tested : IslSt := { i with
        darkDue := setBit i.darkDue n false, dark := tset 0 i.dark n (tget 0 i.dark n + 1), now := islNow k s.core }
      let runs := i.darkDue.getLsbD n = true ∧ i.closed.getLsbD n = true ∧ rd.waited = true ∧ i.vsoLow = false
      let cross (o : Fin 16) : Prop := o ∈ rd.others ∧ o ≠ n ∧ i.closed.getLsbD o = true ∧
        (outTwinPar (islSec i) n = true → outTwinPar (islSec i) o = true → n ∉ rd.twinHolds ∧ o ∉ rd.twinHolds)
      (¬ runs → Runs (.darkTest k n rd) s s) ∧
      (runs → (∀ o, ¬ cross o) → rd.left = true → rd.back = true → Runs (.darkTest k n rd) s (setIsl k tested s)) ∧
      (runs → (∀ o, ¬ cross o) → rd.left = false →
        ∃ t, Runs (.darkTest k n rd) s t ∧ OutputFault k n (if k = .a then 0x207 else 0x208) tested s t) ∧
      (runs → (∀ o, ¬ cross o) → rd.left = true → rd.back = false →
        ∃ t, Runs (.darkTest k n rd) s t ∧ OutputFault k n 0x20B tested s t) ∧
      (runs → (∃ o, cross o) → ∃ t, Runs (.darkTest k n rd) s t ∧ OnlyOpens k s t ∧
        ∀ o, o = n ∨ cross o → (islAt k t).closed.getLsbD o.val = false ∧ tget 0 (islAt k t).outFault o.val ≠ 0)

/-- `vsoLow` and `vsoRecovery` complete: VSO low opens every switch of both islands and is reported once; the recovery lets them close
again (R301). -/
def Obligations.VsoSupply : Prop :=
  ∀ s : State,
    (s.isa.vsoLow = true → Runs .vsoLow s s) ∧
    (s.isa.vsoLow = false → ∃ t, Runs .vsoLow s t ∧ AllOpen t ∧ t = { s with
      isa := { s.isa with vsoLow := true, closed := 0, closing := [] }
      isb := { s.isb with vsoLow := true, closed := 0, closing := [] }
      core := { s.core with seq.faultQ := s.core.seq.faultQ ++ [⟨0x20D, 255, 255⟩] } }) ∧
    ∃ t, Runs .vsoRecovery s t ∧ t.isa.vsoLow = false ∧ t.isb.vsoLow = false ∧
      t = { s with isa := { s.isa with vsoLow := false }, isb := { s.isb with vsoLow := false } }

/-- `safetyTick` completes. In reset it has no effect; out of reset, with nothing due, the island counts a tick, its switches are closed only where it requests them, no
request stands while it is blind, held open, muted or without parameters, the other island closes nothing, and no record slot
already written changes (R275, R278, R296). -/
def Obligations.SafetyTickRuns : Prop :=
  ∀ (k : Isl) (pads : List PadIn) (role : RoleIn) (s : State), (s.core.sys.inReset = true → Runs (.safetyTick k pads role) s s) ∧
    (s.core.sys.inReset = false → (islAt k s).due = [] → ∃ t, Runs (.safetyTick k pads role) s t ∧ (islAt k t).tick = (islAt k s).tick + 1 ∧
      (∀ n, (islAt k t).closed.getLsbD n = true → (islAt k t).request.getLsbD n = true) ∧
      (((islAt k s).params = none ∨ (islAt k s).heldOpen = true ∨ (islAt k s).mute = true ∨ (islAt k s).vsoLow = true) →
        (islAt k t).closed = 0) ∧
      OnlyOpens (otherIsl k) s t ∧ SlotsKept s.store t.store ∧ t.fuse = s.fuse ∧ t.pending = s.pending)

/-- The rest of an island's duties. A press that lasts too long is recorded; a LOCKOUT_RESET that an island has not followed in
10 ticks is preempted and leaves the latches of that island; the scrub counts and records each corrected word, and a bad word
opens every switch and stops the cross-check words; a claiming island pulses its role line, longer in LOCKOUT; a line fault of a
paired unit is recorded once. The commands `resetStuck`, `lockoutResetTimeout`, `safeMemScrub`, `roleClaimPulse` and `roleLineFault`
complete (R326, R331, R451, R453, R356, R357, R358). -/
def Obligations.IslandDuties : Prop :=
  ∀ (k : Isl) (s : State),
    ((islAt k s).due.contains .resetStuck = false → Runs (.resetStuck k) s s) ∧
    ((islAt k s).due.contains .lockoutTimeout = false → Runs (.lockoutResetTimeout k) s s) ∧
    ((islAt k s).due.contains .resetStuck = true → Runs (.resetStuck k) s
      { setIsl k { islAt k s with due := (islAt k s).due.erase .resetStuck, now := islNow k s.core } s with core := event 0x071 (islSource k) [islNo k] s.core }) ∧
    (∀ (r : ClearSt) (x : SlotSt), (islAt k s).due.contains .lockoutTimeout = true → s.core.seq.clearReq = some r →
      slotAt s.core r.slot = some x → x.done = none → r.slot < 512 → ∃ t, Runs (.lockoutResetTimeout k) s t ∧
        Ended r.slot 0x40 0 0 0 t.core ∧ t.core.seq.clearReq = none ∧ (islAt k t).clear = none ∧
        (islAt k t).latches = (islAt k s).latches ∧ t.core.nv = s.core.nv) ∧
    (∃ t, Runs (.safeMemScrub k [] []) s t ∧ t = s) ∧
    (∀ w : Nat, ∃ t, Runs (.safeMemScrub k [w] []) s t ∧
      t = { setIsl k { islAt k s with memCorr := (islAt k s).memCorr + 1, memLast := BitVec.ofNat 32 w } s with
        core := event 0x0D4 (islSource k) [islNo k, w] s.core }) ∧
    (∀ (w : Nat) (l : List Nat), ∃ t, Runs (.safeMemScrub k [] (w :: l)) s t ∧ (islAt k t).closed = 0 ∧ (islAt k t).mute = true ∧
      (islAt k t).memBad = (islAt k s).memBad + BitVec.ofNat 32 (l.length + 1) ∧
      t = setIsl k (islAt k t) { s with core := { s.core with recd := t.core.recd } }) ∧
    (claiming s.core = true → (islAt k s).seqAge ≤ 2 → s.core.sys.txOff = false → s.core.sys.inReset = false →
      Runs (.roleClaimPulse k) s { s with core := { s.core with
        out := .rolePulse (islNo k + 1) (if s.core.sys.mode = .lockout then 200 else 100) :: s.core.out } }) ∧
    ((claiming s.core = false ∨ 2 < (islAt k s).seqAge ∨ s.core.sys.txOff = true ∨ s.core.sys.inReset = true) →
      Runs (.roleClaimPulse k) s s) ∧
    ((paired s.core = false ∨ s.core.twin.lineFault < 8 ∨ s.core.twin.lineRec = true) → Runs .roleLineFault s s) ∧
    (paired s.core = true → 8 ≤ s.core.twin.lineFault → s.core.twin.lineRec = false → Runs .roleLineFault s
      { s with core := event 0x090 0x0B [if s.core.crossA.lost then 1 else 2] { s.core with twin.lineRec := true } })

/-- `workshopKeyReturn` completes: after the key's release, and once no manual move runs, the unit is in SERVICE and claims; while one
runs, without a release, in another mode, or once a reset has been triggered, nothing happens (R40, R42). -/
def Obligations.WorkshopEnds : Prop :=
  ∀ s : State,
    ((s.core.sys.wsRelease = false ∨ s.core.sys.mode ≠ .workshop ∨ resetting s.core = true) → Runs .workshopKeyReturn s s) ∧
    (s.core.sys.wsRelease = true → s.core.sys.mode = .workshop → resetting s.core = false → (∀ p, p < 12 → ¬((msAt s.core p).kind = .manual ∧ (msAt s.core p).run = true)) → ∃ t, Runs .workshopKeyReturn s t ∧
      t.core.sys = { s.core.sys with mode := .service, wsRelease := false } ∧ claiming t.core = true ∧
      t = { s with core := { s.core with
        sys := t.core.sys, recd := t.core.recd, tb := (endDiscipline .service s.core).tb
        twin := { (endDiscipline .service s.core).twin with role := t.core.twin.role }, mem.banks := t.core.mem.banks
        host := t.core.host, seq := t.core.seq, cam := t.core.cam } }) ∧
    ((∃ p, p < 12 ∧ (msAt s.core p).kind = .manual ∧ (msAt s.core p).run = true) → Runs .workshopKeyReturn s s)

/-- `seqTick` and `frame` complete: they run from the start of the time base on, out of reset and PARKED, and change nothing elsewhere,
as does `currentPeriod`. A tick hands both islands fresh motion states and the field die its next command image, and closes no
switch; where no uncorrectable word of the configuration or state memory is met, nothing else of the field die changes. A FRAME
commits the pointers of the record stores, keeping the commit before it, and keeps the statistics (R26, R130, R272, R345, R429). -/
def Obligations.TicksAndFrames : Prop :=
  (∀ s : State, s.core.sys.inReset = false → s.core.tb.running = true → s.core.sys.mode ≠ .parked →
    (∃ t, Runs .seqTick s t ∧ t.isa.seqAge = 0 ∧ t.isb.seqAge = 0 ∧ OnlyOpens .a s t ∧ OnlyOpens .b s t ∧
      (∃ f, t.die.cmd = some f) ∧ (foulWords 0 16 s.core = [] → t.die = { s.die with cmd := t.die.cmd, parked := t.die.parked }) ∧ t.isa.motion = t.isb.motion ∧ t.isa.txOn = t.isb.txOn ∧
      t.store = s.store ∧ t.onyx = s.onyx ∧ t.fuse = s.fuse ∧ t.pending = s.pending) ∧
    ∃ t, Runs .frame s t ∧ t.store = { s.store with
        committed := (s.store.wJ, s.store.wE, s.store.wC), older := s.store.committed, commits := s.store.commits + 1 } ∧
      (t.core.sys.flush = none → t.core.nv.stats = t.core.recd.stats) ∧ t.onyx = s.onyx ∧ t.fuse = s.fuse ∧ t.die = s.die ∧ t.pending = s.pending) ∧
  ∀ s : State, (s.core.sys.inReset = true ∨ s.core.tb.running = false ∨ s.core.sys.mode = .parked) →
    Runs .seqTick s s ∧ Runs .frame s s ∧ Runs .currentPeriod s s

/-- `currentPeriod`, `upFrame`, `receiverLock` and `receiverLockLoss` complete. A current period brings the time-base count to its
strobe, counts it, sends every enabled link of a transmitting unit its frame with the strobe's number as SEQ, stops a link that carries
nothing, and ages both islands' deframers. An up frame of any bytes waits at its link for the cut-off; both deframers take it if it is
valid and the receiver is locked, and with it its HALL and, where it is the newest, its STATUS; in reset and in PARKED it is not
received. Lock and its loss are the receiver's alone (R26, R197, R199, R200, R203, R206, R211, R224, R289). -/
def Obligations.CurrentPeriods : Prop :=
  ∀ s : State, s.core.sys.inReset = false → s.core.sys.mode ≠ .parked →
    (s.core.tb.running = true → ∃ t, Runs .currentPeriod s t ∧
      (∀ x, x < 36 → carries s.core x = .nothing → (linkAt t.core x).en = false ∧ (linkAt t.core x).sent = none) ∧
      (∀ x, x < 36 → (linkAt s.core x).unmute = false → carries s.core x = .idle →
        (linkAt t.core x).en = true ∧ (linkAt t.core x).sent = none) ∧
      (∀ x, x < 36 → (linkAt s.core x).unmute = false → carries s.core x = .frames → (linkAt s.core x).en = true →
        (linkAt t.core x).sent = some (s.core.tb.cp % 65536, downFrame s.core x (s.core.tb.cp % 65536)) ∧ (linkAt t.core x).rx = none) ∧
      (s.core.tb.count.toNat < cpAt s.core.tb.cp → cpAt s.core.tb.cp < 2 ^ 64 → t.core.tb.count.toNat = cpAt s.core.tb.cp) ∧
      (cpAt s.core.tb.cp ≤ s.core.tb.count.toNat → t.core.tb = { s.core.tb with cp := s.core.tb.cp + 1 }) ∧
      t = { s with
        isa := ageDeframers s.isa, isb := ageDeframers s.isb
        core := { s.core with
          tb := { s.core.tb with count := t.core.tb.count, readers := t.core.tb.readers, cp := s.core.tb.cp + 1 }
          links := t.core.links, out := t.core.out } }) ∧
    ∀ x : Fin 36,
      (∀ rx : UpRx, ∃ t, Runs (.upFrame x rx) s t ∧
        linkAt t.core x = { linkAt s.core x with rx := some rx } ∧ (∀ y, y ≠ x.val → linkAt t.core y = linkAt s.core y) ∧
        ((rxOk rx = false ∨ (linkAt s.core x).locked = false) → t.isa = s.isa ∧ t.isb = s.isb) ∧
        (rxOk rx = true → (linkAt s.core x).locked = true → ∀ k,
          (tget {} (islAt k t).axes x).got = true ∧ (tget {} (islAt k t).axes x).hall = some (byteAt rx.bytes 14 % 8) ∧
          ((tget {} (islAt k s).axes x).frames = [] → (tget {} (islAt k t).axes x).status = (upData rx.bytes).status) ∧
          ∀ y, y ≠ x.val → tget {} (islAt k t).axes y = tget {} (islAt k s).axes y) ∧
        t = { s with isa := { s.isa with axes := t.isa.axes }, isb := { s.isb with axes := t.isb.axes }, core := { s.core with links := t.core.links } }) ∧
      (∃ t, Runs (.receiverLock x) s t ∧ linkAt t.core x = { linkAt s.core x with locked := true } ∧
        (∀ y, y ≠ x.val → linkAt t.core y = linkAt s.core y) ∧ t = { s with core := { s.core with links := t.core.links } }) ∧
      ∃ t, Runs (.receiverLockLoss x) s t ∧ linkAt t.core x = { linkAt s.core x with locked := false } ∧
        (∀ y, y ≠ x.val → linkAt t.core y = linkAt s.core y) ∧ t = { s with core := { s.core with links := t.core.links } }

/-- `upFrameCutoff` completes. The cut-off of a period classifies the up frame of every link on which the unit has sent: VALID, or the first of INVALID,
SEQ_ERR, LATE and ABSENT that applies (R207). A frame is valid under R206 only from a locked receiver (R224). -/
def Obligations.UpFrameClasses : Prop :=
  ∀ s : State, ((s.core.sys.inReset = true ∨ s.core.tb.running = false ∨ s.core.tb.cp = 0) → Runs .upFrameCutoff s s) ∧
  (s.core.sys.inReset = false → s.core.tb.running = true → s.core.tb.cp ≠ 0 → ∃ t, Runs .upFrameCutoff s t ∧
    (∀ x q b, x < 36 → axisConf (cfgOf s.core) x = true → (linkAt s.core x).sent = some (q, b) →
      let valid (rx : UpRx) : Prop := (linkAt s.core x).locked = true ∧ rxOk rx = true
      ((linkAt t.core x).cls = .valid ↔ ∃ rx, (linkAt s.core x).rx = some rx ∧ valid rx ∧ field rx.bytes 0 2 = q ∧ rx.late = false) ∧
      ((linkAt t.core x).cls = .invalid ↔ ∃ rx, (linkAt s.core x).rx = some rx ∧ ¬valid rx) ∧
      ((linkAt t.core x).cls = .seqErr ↔ ∃ rx, (linkAt s.core x).rx = some rx ∧ valid rx ∧ field rx.bytes 0 2 ≠ q) ∧
      ((linkAt t.core x).cls = .late ↔ ∃ rx, (linkAt s.core x).rx = some rx ∧ valid rx ∧ field rx.bytes 0 2 = q ∧ rx.late = true) ∧
      ((linkAt t.core x).cls = .absent ↔ (linkAt s.core x).rx = none)) ∧
    t = { s with core := t.core })

/-- The faults of an axis: each is recorded and passed to the fault manager with its code, and the first one stands in AXIS_FAULT;
it changes no torque and no state (R209). STALL and IN_POS are set for their axis alone (R178, R219). A detection that is not due
changes nothing. The commands `upLost`, `hallInvalid`, `hallEncDisagree`, `following`, `bridgeDrop`, `stall` and `inPosition`
complete. -/
def Obligations.AxisDetections : Prop :=
  ∀ (x : Fin 36) (s : State),
    (∀ code c, (code, c) ∈ [(1, Instr.upLost x), (4, .hallInvalid x), (5, .hallEncDisagree x), (6, .following x), (7, .bridgeDrop x)] →
      (s.core.seq.due.contains (.axisFault code x) = true → ∃ t, Runs c s t ∧
        (linkAt t.core x).fault = (if (linkAt s.core x).fault = 0 then code else (linkAt s.core x).fault) ∧
        (∀ y, y ≠ x.val → linkAt t.core y = linkAt s.core y) ∧
        t = { s with core := { s.core with
          links := t.core.links, recd := t.core.recd
          seq := { s.core.seq with
            due := s.core.seq.due.erase (.axisFault code x), faultQ := s.core.seq.faultQ ++ [⟨0x100 + code, x.val / 3, x⟩] } } }) ∧
      (s.core.seq.due.contains (.axisFault code x) = false → Runs c s s)) ∧
    (s.core.seq.due.contains (.stall x) = true → ∃ t, Runs (.stall x) s t ∧ axAt t.core x = { axAt s.core x with stall := true } ∧
      (∀ y, y ≠ x.val → axAt t.core y = axAt s.core y) ∧
      t = { s with core := { s.core with seq := { s.core.seq with axes := t.core.seq.axes, due := s.core.seq.due.erase (.stall x) } } }) ∧
    (s.core.seq.due.contains (.stall x) = false → Runs (.stall x) s s) ∧ (s.core.seq.due.contains (.inPos x) = false → Runs (.inPosition x) s s) ∧
    (s.core.seq.due.contains (.inPos x) = true → ∃ t, Runs (.inPosition x) s t ∧ axAt t.core x = { axAt s.core x with inPos := true } ∧
      (∀ y, y ≠ x.val → axAt t.core y = axAt s.core y) ∧
      t = { s with core := { s.core with seq := { s.core.seq with axes := t.core.seq.axes, due := s.core.seq.due.erase (.inPos x) } } })

/-- Detections of the supply manager: an overload holds and is recorded; SUPPLY_LOW of one portal is set and no other is touched; a
waiting request that has waited its class's MAX_WAIT becomes overdue; the members of a group whose gathering has ended are marked, and
other requests wait on. A detection that is not due changes nothing. The commands `supplyOver`, `supplyLow`, `overdue` and
`gatherExpiry` complete (R256, R258, R260, R261). -/
def Obligations.SupplyDetections : Prop :=
  ∀ s : State,
    ((∃ i, s.core.seq.due.contains (.supplyOver i) = true) → ∃ i t, s.core.seq.due.contains (.supplyOver i) = true ∧
      Runs .supplyOver s t ∧ t = { s with core := { s.core with
        recd := t.core.recd
        seq := { s.core.seq with
          due := s.core.seq.due.erase (.supplyOver i), topaz := { s.core.seq.topaz with overload := true } } } }) ∧
    ((∀ i, s.core.seq.due.contains (.supplyOver i) = false) → Runs .supplyOver s s) ∧
    (∀ p : Fin 12, s.core.seq.due.contains (.supplyLow p) = false → Runs (.supplyLow p) s s) ∧
    (∀ p : Fin 12, s.core.seq.due.contains (.overdue p) = false → Runs (.overdue p) s s) ∧
    (∀ g : Fin 8, s.core.seq.due.contains (.gather g) = false → Runs (.gatherExpiry g) s s) ∧
    (∀ p : Fin 12, s.core.seq.due.contains (.supplyLow p) = true → ∃ t, Runs (.supplyLow p) s t ∧
      pbit t.core.seq.topaz.supplyLow p = true ∧
      (∀ q, q ≠ p.val → pbit t.core.seq.topaz.supplyLow q = pbit s.core.seq.topaz.supplyLow q) ∧
      t = { s with core := { s.core with seq := { s.core.seq with
        due := s.core.seq.due.erase (.supplyLow p)
        topaz := { s.core.seq.topaz with supplyLow := t.core.seq.topaz.supplyLow } } } }) ∧
    (∀ p : Fin 12, s.core.seq.due.contains (.overdue p) = true →
      ∃ t, Runs (.overdue p) s t ∧
        (∀ r, (msAt s.core p).waiting = some r → r.manual = none → maxWait s.core r.cls ≠ 0 → maxWait s.core r.cls ≤ r.waited →
          msAt t.core p = { msAt s.core p with waiting := some { r with overdue := true } }) ∧
        ((msAt s.core p).waiting = none → msAt t.core p = msAt s.core p) ∧
        (∀ q, q ≠ p.val → msAt t.core q = msAt s.core q) ∧
        t = { s with core := { s.core with seq := { s.core.seq with
          due := s.core.seq.due.erase (.overdue p), masters := t.core.seq.masters } } }) ∧
    ∀ g : Fin 8, s.core.seq.due.contains (.gather g) = true → ∃ t, Runs (.gatherExpiry g) s t ∧
      (∀ p k r, p < 12 → waitingAt s.core p = some r → r.group = some (g.val, k) →
        let past : Prop := ∃ q r', q < 12 ∧ waitingAt s.core q = some r' ∧ r'.group = some (g.val, k) ∧ r'.cls = r.cls ∧
          r'.age.getD s.core.seq.now + tz16 s.core 16 ≤ s.core.seq.now + 1
        (past → waitingAt t.core p = some { r with gatherDone := true }) ∧ (¬past → msAt t.core p = msAt s.core p)) ∧
      (∀ p, (∀ r k, waitingAt s.core p = some r → r.group ≠ some (g.val, k)) → msAt t.core p = msAt s.core p) ∧
      t = { s with core := { s.core with seq := { s.core.seq with
        due := s.core.seq.due.erase (.gather g), masters := t.core.seq.masters } } }

/-- Detections of the obstacle estimator. Force, energy and a drawn object latch their bit for the portal and are recorded, unless
the portal is blanked, by a move under way or by a START_MOVE that the tick has decided, or the bit stands already. A learned direction
becomes valid with its count of cycles, and ends the operation when it was the last; eight discards end the operation with the portal
in DETAIL. A detection that is not due changes nothing, nor does learning that is no longer armed. The commands `obstForce`,
`obstEnergy`, `obstDrawn`, `baselineLearned` and `learnAbort` complete (R228, R230, R232, R236, R239, R240). -/
def Obligations.ObstacleDetections : Prop :=
  ∀ (p : Fin 12) (s : State),
    ((∃ x e, s.core.seq.due.contains (.force p x e) = true) → ∃ x e t, s.core.seq.due.contains (.force p x e) = true ∧
      Runs (.obstForce p) s t ∧
      obAt t.core p = { obAt s.core p with force := (obAt s.core p).force || !blanked s.core p } ∧
      (∀ q, q ≠ p.val → obAt t.core q = obAt s.core q) ∧
      t = { s with core := { s.core with
        recd := t.core.recd
        seq := { s.core.seq with due := s.core.seq.due.erase (.force p x e), obst := t.core.seq.obst } } }) ∧
    ((∃ e, s.core.seq.due.contains (.energy p e) = true) → ∃ e t, s.core.seq.due.contains (.energy p e) = true ∧
      Runs (.obstEnergy p) s t ∧
      obAt t.core p = { obAt s.core p with energy := (obAt s.core p).energy || !blanked s.core p } ∧
      (∀ q, q ≠ p.val → obAt t.core q = obAt s.core q) ∧
      t = { s with core := { s.core with
        recd := t.core.recd
        seq := { s.core.seq with due := s.core.seq.due.erase (.energy p e), obst := t.core.seq.obst } } }) ∧
    ((∃ x n, s.core.seq.due.contains (.drawn p x n) = true) → ∃ x n t, s.core.seq.due.contains (.drawn p x n) = true ∧
      Runs (.obstDrawn p) s t ∧
      obAt t.core p = { obAt s.core p with drawn := (obAt s.core p).drawn || !blanked s.core p } ∧
      (∀ q, q ≠ p.val → obAt t.core q = obAt s.core q) ∧
      t = { s with core := { s.core with
        recd := t.core.recd
        seq := { s.core.seq with due := s.core.seq.due.erase (.drawn p x n), obst := t.core.seq.obst } } }) ∧
    ((∀ x e, s.core.seq.due.contains (.force p x e) = false) → Runs (.obstForce p) s s) ∧
    ((∀ e, s.core.seq.due.contains (.energy p e) = false) → Runs (.obstEnergy p) s s) ∧
    ((∀ x n, s.core.seq.due.contains (.drawn p x n) = false) → Runs (.obstDrawn p) s s) ∧
    (∀ close, (s.core.seq.due.contains (.baseline p close) = false → Runs (.baselineLearned p close) s s) ∧
      (s.core.seq.due.contains (.learnAbort p close) = false → Runs (.learnAbort p close) s s) ∧
      (armedFor s.core p (b2n close) = false →
        (s.core.seq.due.contains (.baseline p close) = true → Runs (.baselineLearned p close) s
          { s with core := { s.core with seq := { s.core.seq with due := s.core.seq.due.erase (.baseline p close) } } }) ∧
        (s.core.seq.due.contains (.learnAbort p close) = true → Runs (.learnAbort p close) s
          { s with core := { s.core with seq := { s.core.seq with due := s.core.seq.due.erase (.learnAbort p close) } } }))) ∧
    ∀ close : Bool, armedFor s.core p (b2n close) = true →
      (s.core.seq.due.contains (.baseline p close) = true → ∃ t, Runs (.baselineLearned p close) s t ∧
        baseValid t.core p (b2n close) = true ∧
        tget 0 t.core.nv.learned (p.val * 2 + b2n close) = tget 0 (obAt s.core p).learned (b2n close) ∧
        (∀ j, j ≠ p.val * 2 + b2n close → tget false t.core.nv.valid j = tget false s.core.nv.valid j) ∧
        (close = false → t.core.nv.lBase = s.core.nv.lBase) ∧
        pbit (obAt t.core p).armed (b2n close) = false ∧
        (pbit (obAt s.core p).armed (1 - b2n close) = false → (obAt t.core p).opSlot = none) ∧
        t = { s with core := { s.core with
          recd := t.core.recd, host := t.core.host
          nv := { s.core.nv with
            curveR := t.core.nv.curveR, curveB := t.core.nv.curveB, lBase := t.core.nv.lBase
            valid := t.core.nv.valid, learned := t.core.nv.learned }
          seq := { s.core.seq with due := s.core.seq.due.erase (.baseline p close), obst := t.core.seq.obst } } }) ∧
      (s.core.seq.due.contains (.learnAbort p close) = true → ∀ k x, (obAt s.core p).opSlot = some k → k < 512 → slotAt s.core k = some x →
        ∃ t, Runs (.learnAbort p close) s t ∧ Ended k 0x42 p 0 0 t.core ∧ (obAt t.core p).armed = 0 ∧ (obAt t.core p).opSlot = none ∧
          t = { s with core := { s.core with
            host := t.core.host, seq := { s.core.seq with due := s.core.seq.due.erase (.learnAbort p close), obst := t.core.seq.obst } } })

/-- Detections of the sequencer, the host and the train line: a timer at its tick expires; a degraded portal asks to be isolated, or
fails to be and is reported; a force that has run its time ends with the read-back; a request without its answer in time
ends all its open parts, a car request its flag; a silent subscription times out; a silent host is lost, once. A detection that is not
due changes nothing, and one whose force or request has ended meanwhile is only taken off. The commands `timerExpiry`,
`degradedExpiry`, `isolateFail`, `forceDurationEnd`, `requestTimeout`, `trainSubTimeout` and `hostLost` complete (R103, R116, R118,
R142, R324, R353, R401). -/
def Obligations.TimedDetections : Prop :=
  ∀ s : State,
    (∀ (n : Fin 13) (k : Fin 4), s.core.seq.due.contains (.timer n k) = false → Runs (.timerExpiry n k) s s) ∧
    (∀ p : Fin 12, (s.core.seq.due.contains (.degraded p) = false → Runs (.degradedExpiry p) s s) ∧
      (s.core.seq.due.contains (.isolateFail p) = false → Runs (.isolateFail p) s s)) ∧
    (∀ u : Fin 144, (s.core.seq.due.contains (.forceEnd u) = false → Runs (.forceDurationEnd u) s s) ∧
      (s.core.seq.due.contains (.forceEnd u) = true → (∀ f, tget none s.core.seq.forces u = some f → f.ticks ≠ 0) →
        Runs (.forceDurationEnd u) s { s with core := { s.core with seq := { s.core.seq with due := s.core.seq.due.erase (.forceEnd u) } } })) ∧
    (∀ k : Fin 512, (s.core.seq.due.contains (.requestTimeout k) = false → Runs (.requestTimeout k) s s) ∧
      (s.core.seq.due.contains (.requestTimeout k) = true → (∀ x d, slotAt s.core k = some x → x.deadline = some d → s.core.seq.now < d) →
        Runs (.requestTimeout k) s
          { s with core := { s.core with seq := { s.core.seq with due := s.core.seq.due.erase (.requestTimeout k) } } })) ∧
    (∀ u : Fin 48, s.core.seq.due.contains (.subTimeout u) = false → Runs (.trainSubTimeout u) s s) ∧
    (s.core.seq.due.contains .hostLost = false → Runs .hostLost s s) ∧
    (∀ (n : Fin 13) (k : Fin 4), s.core.seq.due.contains (.timer n k) = true → ∃ t, Runs (.timerExpiry n k) s t ∧
      tget {} (chAt t.core n).timers k = (if (tget {} (chAt s.core n).timers k.val).due = some (s.core.seq.now + 1) then { due := none, exp := true }
        else tget {} (chAt s.core n).timers k.val) ∧
      (∀ j, j ≠ k.val → tget {} (chAt t.core n).timers j = tget {} (chAt s.core n).timers j) ∧
      (∀ j, j ≠ n.val → chAt t.core j = chAt s.core j) ∧
      t = { s with core := { s.core with seq := { s.core.seq with
        due := s.core.seq.due.erase (.timer n k), channels := t.core.seq.channels } } }) ∧
    (∀ p : Fin 12, s.core.seq.due.contains (.degraded p) = true → ∃ t, Runs (.degradedExpiry p) s t ∧
      tget {} t.core.nv.degraded p = { tget {} s.core.nv.degraded p.val with isoReq := (tget {} s.core.nv.degraded p.val).on } ∧
      (∀ j, j ≠ p.val → tget {} t.core.nv.degraded j = tget {} s.core.nv.degraded j) ∧
      t = { s with core := { s.core with
        nv := { s.core.nv with degraded := t.core.nv.degraded }, seq := { s.core.seq with due := s.core.seq.due.erase (.degraded p) } } }) ∧
    (∀ p : Fin 12, s.core.seq.due.contains (.isolateFail p) = true → ∃ t, Runs (.isolateFail p) s t ∧
      tget {} t.core.nv.degraded p = { tget {} s.core.nv.degraded p.val with failed := true } ∧
      (∀ j, j ≠ p.val → tget {} t.core.nv.degraded j = tget {} s.core.nv.degraded j) ∧
      t = { s with core := { s.core with
        nv := { s.core.nv with degraded := t.core.nv.degraded }
        seq := { s.core.seq with
          due := s.core.seq.due.erase (.isolateFail p), faultQ := s.core.seq.faultQ ++ [⟨0x401, p.val, 255⟩] } } }) ∧
    (∀ (u : Fin 144) (f : ForceSt) (x : SlotSt), s.core.seq.due.contains (.forceEnd u) = true → tget none s.core.seq.forces u = some f →
      f.ticks = 0 → slotAt s.core f.slot = some x → x.done = none → f.slot < 512 → ∃ t, Runs (.forceDurationEnd u) s t ∧
        Ended f.slot 0 0 (readBack s.core u) 0 t.core ∧ tget none t.core.seq.forces u = none ∧
        (∀ j, j ≠ u.val → tget none t.core.seq.forces j = tget none s.core.seq.forces j) ∧
        t = { s with core := { s.core with
          host := t.core.host, seq := { s.core.seq with due := s.core.seq.due.erase (.forceEnd u), forces := t.core.seq.forces } } }) ∧
    (∀ (k : Fin 512) (x : SlotSt), s.core.seq.due.contains (.requestTimeout k) = true → slotAt s.core k = some x → x.done = none →
      (∃ d, x.deadline = some d ∧ d ≤ s.core.seq.now) → ∃ t, Runs (.requestTimeout k) s t ∧
        (slotOp x = 0x10 → x.started = true → ∃ y, slotAt t.core k = some y ∧ y.deadline = none ∧ y.reached = x.reached ∧
          ∀ p, p < 12 → partOpen x p = true → tget 0 y.ended p = 0x103 ∧ partOpen y p = false) ∧
        (slotOp x = 0x12 → s.core.seq.carSlot = some k.val → Ended k 1 3 0 0 t.core ∧ t.core.seq.carSlot = none ∧
          (chAt t.core 12).hf = setBit (chAt s.core 12).hf (byteAt x.desc 8) false) ∧
        t = { s with core := { s.core with host := t.core.host, seq := { s.core.seq with
          due := s.core.seq.due.erase (.requestTimeout k), channels := t.core.seq.channels, carSlot := t.core.seq.carSlot } } }) ∧
    (∀ u : Fin 48, s.core.seq.due.contains (.subTimeout u) = true → ∃ t, Runs (.trainSubTimeout u) s t ∧
      subAt t.core u = { subAt s.core u with state := 3 } ∧ (∀ j, j ≠ u.val → subAt t.core j = subAt s.core j) ∧
      t = { s with core := { s.core with
        recd := t.core.recd, train := { s.core.train with subs := t.core.train.subs }
        seq := { s.core.seq with due := s.core.seq.due.erase (.subTimeout u) } } }) ∧
    (s.core.seq.due.contains .hostLost = true → ∃ t, Runs .hostLost s t ∧ t.core.sys.hostLost = true ∧
      (s.core.sys.hostLost = true → t.core.recd = s.core.recd) ∧
      t = { s with core := { s.core with
        sys := { s.core.sys with hostLost := true }, recd := t.core.recd, seq := { s.core.seq with due := s.core.seq.due.erase .hostLost } } })

/-- What a unit discards of its twin, of every TYPE (`auth`, `hello`, `sync`, `delay`, `input`, `snapshot`, `page`, `image`,
`resyncReq`, `relinquish`): every message while it does not listen or on a lane that is down; one with a bad CRC or of a wrong length,
which is counted; a second copy; before authentication all but AUTH, and HELLO for its serial number; one of a lower epoch, which is
counted (R356, R364, R365, R366, R385). -/
def Obligations.TwinDiscards : Prop :=
  ∀ (c : Instr) (type : Nat) (h : TwinHdr) (s : State), twinType c = some (type, h) →
    ((listens s.core = false ∨ pbit s.core.twin.lanes h.lane = false) → Runs c s s) ∧
    (listens s.core = true → pbit s.core.twin.lanes h.lane = true →
      ((h.ok = false ∨ twinFits c = false) → Runs c s { s with core := twCount 16 s.core }) ∧
      (h.ok = true → twinFits c = true → (type = 1 → s.core.twin.authed = true) →
        (h.mseq ∈ tget [] s.core.twin.rxSeq type → Runs c s s) ∧
        (h.mseq ∉ tget [] s.core.twin.rxSeq type →
          (type ≠ 0 → s.core.twin.authed = false → Runs c s { s with core := heardSeq type h s.core }) ∧
          ((type = 0 ∨ s.core.twin.authed = true) → epochLower h.epoch s.core.nv.epoch = true →
            Runs c s { s with core := twCount 20 (heardSeq type h s.core) }))))

/-- The session with the twin. AUTH brings the nonce; with the twin's serial number known, the answer that matches authenticates
the link and no other does. HELLO is kept as the twin's latest, and the role follows. SYNC starts an exchange in a standby, which answers
with a time-base value not before t2, and DELAY returns t4 to the claiming unit. RESYNC_REQ makes the claiming unit owe a base
snapshot, RELINQUISH tells a standby the last claimed tick. HELLO goes out in self-test steps 7 and 8, until the time base starts. The
commands `auth`, `hello`, `sync`, `delay`, `resyncReq`, `relinquish` and `selftestHello` complete (R28, R355, R362, R365, R367, R378,
R382). -/
def Obligations.TwinSession : Prop :=
  ∀ (h : TwinHdr) (s : State),
    (∀ nonce answer, nonce.length = 16 → answer.length = 8 → Heard 0 h s.core →
      (s.core.twin.serialT = none → ∃ t, Runs (.auth h nonce answer) s t ∧ t.core.twin.nonceT = nonce ∧
        (h.mseq ≠ 0 → t.core.twin.answerT = answer) ∧ t.core.twin.authed = s.core.twin.authed ∧
        t = { s with core := { heard 0 h false s.core with
          twin := { (heard 0 h false s.core).twin with nonceT := t.core.twin.nonceT, answerT := t.core.twin.answerT } } }) ∧
      (∀ sn, s.core.twin.serialT = some sn → s.core.twin.nonce ≠ [] → s.onyx.twin ≠ [] → h.mseq ≠ 0 →
        ∃ t, Runs (.auth h nonce answer) s t ∧ t.core.twin.nonceT = nonce ∧ t.core.twin.answered = true ∧
          (t.core.twin.authed = true ↔ answer = authAnswer s.onyx.twin sn { s.core with twin := { s.core.twin with nonceT := nonce } } ∨
            s.core.twin.authed = true) ∧
          t = { s with core := { heard 0 h false s.core with twin := t.core.twin, recd := t.core.recd, out := t.core.out } })) ∧
    (∀ m, Heard 1 h s.core → ∃ t, Runs (.hello h m) s t ∧ t.core.twin.peer = some (h, m) ∧ t.core.twin.anyHello = 0 ∧
      t.core.twin.helloAge = (if h.role = .standby then 0 else s.core.twin.helloAge) ∧
      t.core.twin.role = roleIn s.core.sys.mode (decide (t.core.twin.helloAge < 16)) ∧
      t = { s with core := { s.core with
        nv := t.core.nv, recd := t.core.recd, host := t.core.host, seq := t.core.seq, cam := t.core.cam, twin := t.core.twin
        out := t.core.out } }) ∧
    (∀ t1 t4 t2, Heard 2 h s.core →
      (s.core.sys.mode = .shadow → ∃ t, Runs (.sync h t1 t4 t2) s t ∧ t.core.tb.t12 = some (t1, t2) ∧ t.core.tb.t3 % 8 = 0 ∧
        (t2 < 2 ^ 64 → t2 % 8 = 0 → t2 ≤ t.core.tb.t3 ∧ t.core.tb.t3 < 2 ^ 64) ∧
        t = { s with core := { s.core with
          nv.epoch := t.core.nv.epoch, tb := t.core.tb, twin := t.core.twin, recd := t.core.recd, host := t.core.host
          seq := t.core.seq, cam := t.core.cam, out := t.core.out, free := s.core.free + 1 } }) ∧
      (s.core.sys.mode ≠ .shadow → Runs (.sync h t1 t4 t2) s { s with core := heard 2 h false s.core })) ∧
    (∀ t3 t4, Heard 3 h s.core → claiming s.core = true → t3 < 2 ^ 64 →
      Runs (.delay h t3 t4) s { s with core := { heard 3 h false s.core with tb.t4 := t4 } }) ∧
    (∀ t3 t4, Heard 3 h s.core → (claiming s.core = false ∨ 2 ^ 64 ≤ t3) → Runs (.delay h t3 t4) s { s with core := heard 3 h false s.core }) ∧
    (Heard 0x14 h s.core → claiming s.core = true → ∃ t, Runs (.resyncReq h) s t ∧
      t = { s with core := { heard 0x14 h false s.core with twin := { (heard 0x14 h false s.core).twin with
        base := true, resync := 1, txSeq := t.core.twin.txSeq, txPieces := t.core.twin.txPieces } } }) ∧
    (Heard 0x14 h s.core → claiming s.core = false → Runs (.resyncReq h) s { s with core := heard 0x14 h false s.core }) ∧
    (∀ last, Heard 0x15 h s.core → s.core.sys.mode ≠ .shadow → Runs (.relinquish h last) s { s with core := heard 0x15 h true s.core }) ∧
    (∀ last, Heard 0x15 h s.core → s.core.sys.mode = .shadow → ∃ t, Runs (.relinquish h last) s t ∧
      t.core.twin.relinq = (if s.core.tb.tick ≤ last then some last else s.core.twin.relinq) ∧ t.core.twin.gone = true ∧
      t = { s with core := { heard 0x15 h true s.core with
        twin := { (heard 0x15 h true s.core).twin with relinq := t.core.twin.relinq } } }) ∧
    ((s.core.sys.mode ≠ .selftest ∨ s.core.sys.inReset = true ∨ (s.core.sys.stStep ≠ 7 ∧ (s.core.sys.stStep ≠ 8 ∨ s.core.tb.running = true)) ∨
      twinUp s.core = false) → Runs .selftestHello s s) ∧
    (s.core.sys.mode = .selftest → s.core.sys.inReset = false →
      (s.core.sys.stStep = 7 ∨ (s.core.sys.stStep = 8 ∧ s.core.tb.running = false)) → twinUp s.core = true →
      ∃ t b, Runs .selftestHello s t ∧ t.core.out = .twinBytes 1 b :: s.core.out ∧
        t = { s with core := { s.core with out := t.core.out, twin := { s.core.twin with txSeq := t.core.twin.txSeq } } })

/-- What a standby takes from its active. INPUT is retained with its tick, and a synchronised standby mutes the links that it reports.
A snapshot waits for the TICK after it: the base that the standby asked for is loaded then and awaits the first that compares equal,
which synchronises it; one that does not mutes every link. A page arrives in pieces, and one whose hash does not match costs the
synchronisation; an image arrives in pieces. The commands `input`, `snapshot`, `page` and `image` complete (R194, R213, R369, R373,
R378, R379). -/
def Obligations.StandbyFollows : Prop :=
  ∀ (h : TwinHdr) (s : State), s.core.sys.mode = .shadow →
    (∀ b : Bytes, Heard 0x10 h s.core → b.length = inputLen → (inputFrom b).ops = [] → let f := inputFrom b
      ∃ t, Runs (.input h b) s t ∧ t.core.twin.input = some (h.tick, f) ∧
      (h.tick, f) ∈ t.core.twin.kept ∧
      (standbyIn s.core = true → ∀ x, x < 36 → f.nonvalid.getLsbD x = true → (linkAt t.core x).muted = true) ∧
      ((standbyIn s.core = false ∨ f.nonvalid = 0) → t.core.links = s.core.links) ∧
      t = { s with core := { heard 0x10 h false s.core with
        links := t.core.links
        twin := { (heard 0x10 h false s.core).twin with
          input := t.core.twin.input, kept := t.core.twin.kept, counters := t.core.twin.counters } } }) ∧
    (∀ m : Snapshot, Heard 0x11 h s.core → ∃ t, Runs (.snapshot h m) s t ∧
      t = { s with core := { heard 0x11 h false s.core with twin := { (heard 0x11 h false s.core).twin with snapIn := some m } } }) ∧
    (∀ m : Snapshot, s.core.twin.snapIn = some m → m.tick < s.core.tb.tick → s.core.twin.snapBad = false →
      let d := snapshotTick s.core
      (m.base = true → s.core.twin.resync = 1 → m.dieRev = Config.dieRev → d.twin.resync = 2 ∧ d.twin.image = none ∧
        d = { s.core with nv := d.nv, seq := d.seq, cam := d.cam, host := d.host, twin := d.twin }) ∧
      (∀ own, s.core.twin.resync = 2 → s.core.twin.image = some own → m.tick = own.tick →
        (m.dieRev = Config.dieRev → snapAgrees s.core.twin.leftOut m own = true →
          d.twin.synced = true ∧ d.twin.resync = 0 ∧ d.twin.silent = false ∧
          d = { s.core with links := d.links, recd := d.recd, twin := d.twin }) ∧
        (snapAgrees s.core.twin.leftOut m own = false →
          (∀ x, x < 36 → axisConf (cfgOf s.core) x = true → (linkAt d x).muted = true) ∧
          (s.core.twin.badSnaps < 2 → d.twin.silent = true ∧ d.twin.badSnaps = s.core.twin.badSnaps + 1) ∧
          d = { s.core with links := d.links, recd := d.recd, host := d.host, seq := d.seq, cam := d.cam, twin := d.twin }))) ∧
    (∀ m : PagePiece, Heard 0x12 h s.core → m.data.length ≤ 4096 →
      (m.last = false → ∃ t, Runs (.page h m) s t ∧
        t.core.twin.pageBuf = (joinPiece s.core.twin.pageBuf m.page m.table m.offset m.data).map (fun b => (m.page, m.table, b)) ∧
        t = { s with core := { heard 0x12 h false s.core with
          twin := { (heard 0x12 h false s.core).twin with pageBuf := t.core.twin.pageBuf, counters := t.core.twin.counters } } }) ∧
      (∀ b, m.last = true → joinPiece s.core.twin.pageBuf m.page m.table m.offset m.data = some b → s.core.twin.synced = true →
        (∀ d, s.core.nv.dir = some d → dirPresent d m.table = true → sha256 b ≠ dirHash d m.table) →
        ∃ t, Runs (.page h m) s t ∧ t.core.twin.synced = false ∧ t.core.twin.cause = 5 ∧ t.core.cam.pages = s.core.cam.pages) ∧
      (∀ b d, m.last = true → joinPiece s.core.twin.pageBuf m.page m.table m.offset m.data = some b → s.core.nv.dir = some d →
        dirPresent d m.table = true → sha256 b = dirHash d m.table → s.core.cam.waits = [] → ∃ t, Runs (.page h m) s t ∧
          t.core.cam = { s.core.cam with
            pages := tset {} s.core.cam.pages m.page
              { state := 2, table := m.table, lastUse := readTb islMot s.core, data := imgOf b } } ∧
          t.core.twin.pageBuf = none ∧
          (∀ n, chAt t.core n = if n < 12 ∧ (chAt s.core n).camTable = some m.table ∧ (chAt s.core n).camRefused = false then
            { chAt s.core n with camFault := false } else chAt s.core n) ∧
          t = { s with core := { heard 0x12 h false s.core with
            cam := t.core.cam, twin := t.core.twin, seq := { s.core.seq with channels := t.core.seq.channels } } })) ∧
    ∀ m : ImagePiece, Heard 0x13 h s.core → m.data.length ≤ 4096 →
      (∀ b, joinPiece s.core.twin.imgBuf m.kind m.channel m.offset m.data = some b → b.length ≠ m.total →
        ∃ t, Runs (.image h m) s t ∧ t.core.twin.imgBuf = some (m.kind, m.channel, b) ∧ t.core.nv.cfg = s.core.nv.cfg ∧
          t.core.nv.progs = s.core.nv.progs ∧ t = { s with core := { heard 0x13 h false s.core with twin := t.core.twin } }) ∧
      (joinPiece s.core.twin.imgBuf m.kind m.channel m.offset m.data = none → ∃ t, Runs (.image h m) s t ∧ t.core.twin.imgBuf = none ∧
        t = { s with core := { heard 0x13 h false s.core with twin := t.core.twin } }) ∧
      (∀ b, joinPiece s.core.twin.imgBuf m.kind m.channel m.offset m.data = some b → b.length = m.total → m.kind = 2 → m.channel < 13 →
        (progCheck s.core m.channel (imgOf b)).isNone = true → standbyIn s.core = false → ∃ t, Runs (.image h m) s t ∧
          tget {} t.core.nv.progs m.channel = imgOf b ∧ t.core.twin.imgSeen = true ∧ t.core.twin.imgBuf = none ∧ t = { s with core := { heard 0x13 h false s.core with
            nv := t.core.nv, run := t.core.run, recd := t.core.recd, twin := t.core.twin } })

/-- The link and the roles. The link comes up with a new nonce, unauthenticated, and goes down with its last lane, and a lane down is
recorded. A synchronised standby that hears nothing for 8 ticks, finds its INPUT missing or diverges becomes UNSYNCED with the
cause, and one that is UNSYNCED starts its waiting time and its procedure again; the role follows the age of the twin's HELLO; at the
planned swap the standby takes the claim with a new epoch, and the former active enters SHADOW, synchronised. A condition that is not
met has no effect. The commands `twinLinkUp`, `twinLaneUp`, `twinLaneDown`, `linkLost`, `hashDiverge`, `inputLate`, `plannedSwap` and
`helloTimeout` complete (R355, R362, R363, R365, R368, R375, R376, R377, R378, R382). -/
def Obligations.TwinLinkAndRoles : Prop :=
  ∀ s : State,
    ((linkServed s.core = false ∨ s.core.twin.lanes ≠ 0) → Runs .twinLinkUp s s) ∧
    (∀ l : Fin 2, ((linkServed s.core = false ∨ pbit s.core.twin.lanes l = true) → Runs (.twinLaneUp l) s s) ∧
      ((linkServed s.core = false ∨ pbit s.core.twin.lanes l = false) → Runs (.twinLaneDown l) s s)) ∧
    ((s.core.sys.inReset = true ∨ s.core.twin.age < 8 ∨ s.core.sys.mode ≠ .shadow) → Runs .linkLost s s) ∧
    (s.core.sys.inReset = false → 8 ≤ s.core.twin.age → s.core.sys.mode = .shadow → s.core.twin.synced = false →
      Runs .linkLost s { s with core := { s.core with twin := { s.core.twin with quiet := 0, resync := 0 } } }) ∧
    (s.core.seq.due.contains .hashDiverge = false → Runs .hashDiverge s s) ∧
    ((s.core.sys.inReset = true ∨ s.core.tb.running = false ∨ inputMissing s.core = false) → Runs .inputLate s s) ∧
    ((s.core.sys.inReset = true ∨ resetting s.core = true ∨ swapDue s.core = false) → Runs .plannedSwap s s) ∧
    (s.core.sys.inReset = true → Runs .helloTimeout s s) ∧
    (linkServed s.core = true → s.core.twin.lanes = 0 →
      (∃ t, Runs .twinLinkUp s t ∧ t.core.twin.lanes = 3 ∧ t.core.twin.authed = false ∧ t.core.twin.nonce.length = 16 ∧
        t.core.twin.nonceT = [] ∧ t = { s with core := { s.core with twin := t.core.twin, out := t.core.out, free := s.core.free + 1 } }) ∧
      ∀ l : Fin 2, ∃ t, Runs (.twinLaneUp l) s t ∧ t.core.twin.lanes = setBit 0 l true ∧ t.core.twin.authed = false ∧
        t = { s with core := { s.core with twin := t.core.twin, out := t.core.out, free := s.core.free + 1 } }) ∧
    (∀ l : Fin 2, linkServed s.core = true → pbit s.core.twin.lanes l = false → s.core.twin.lanes ≠ 0 →
      Runs (.twinLaneUp l) s { s with core := { s.core with twin := { s.core.twin with lanes := setBit s.core.twin.lanes l true } } }) ∧
    (∀ l : Fin 2, linkServed s.core = true → pbit s.core.twin.lanes l = true → ∃ t, Runs (.twinLaneDown l) s t ∧
      t = { s with core := { s.core with
        recd := t.core.recd
        twin := { s.core.twin with
          lanes := setBit s.core.twin.lanes l false, authed := s.core.twin.authed && setBit s.core.twin.lanes l false != 0 } } }) ∧
    (s.core.sys.mode = .shadow → s.core.twin.synced = true → s.core.sys.inReset = false →
      (8 ≤ s.core.twin.age → ∃ t, Runs .linkLost s t ∧ t.core.twin.synced = false ∧ t.core.twin.cause = 1 ∧
        t.core.twin.entries = satAdd 65535 s.core.twin.entries 1) ∧
      (s.core.seq.due.contains .hashDiverge = true → ∃ t, Runs .hashDiverge s t ∧ t.core.twin.synced = false ∧ t.core.twin.cause = 6 ∧
        t.core.twin.entries = satAdd 65535 s.core.twin.entries 1) ∧
      (s.core.tb.running = true → inputMissing s.core = true → ∃ t, Runs .inputLate s t ∧ t.core.twin.synced = false ∧
        t.core.twin.cause = 2 ∧ tget 0 t.core.twin.counters 4 = tget 0 s.core.twin.counters 4 + 1) ∧
      (∀ n, resetting s.core = false → s.core.twin.swap = none → s.core.twin.relinq = some n → s.core.tb.tick = n + 1 → s.core.twin.helloAge < 16 →
        ∃ t, Runs .plannedSwap s t ∧ t.core.sys.mode = .service ∧ t.core.twin.role = .active ∧ t.core.nv.epoch = (takeEpoch s.core).nv.epoch ∧
          t.core.twin.relinq = none ∧ t.core.twin.synced = false)) ∧
    (∀ k x, s.core.sys.mode = .service → s.core.sys.inReset = false → resetting s.core = false → s.core.twin.swap = some (0, k) → slotAt s.core k = some x →
      x.done = none → k < 512 → ∃ t, Runs .plannedSwap s t ∧ t.core.sys.mode = .shadow ∧ t.core.twin.role = .standby ∧
        t.core.twin.synced = true ∧ t.core.nv.epoch = (takeEpoch s.core).nv.epoch ∧ t.core.twin.swap = none) ∧
    (s.core.sys.inReset = false → Runs .helloTimeout s { s with core := { s.core with twin := { s.core.twin with
      role := roleIn s.core.sys.mode (decide (s.core.twin.helloAge < 16)) } } })

/-- The group supplies. A declared FIELD_LOW, FIELD_MISSING or FIELD_OK changes the state of its group only, and is recorded and
passed on unless the logic die is in reset. In FIELD_MISSING every set of the group is off and every channel of it is reported
with state 3; on the return from it the group's input filters restart. One that is not due has no effect (log 3). The commands
`fieldLow`, `fieldMissing` and `fieldOk` complete (R317, R348, R349, R350). -/
def Obligations.FieldSupplies : Prop :=
  ∀ (g : Fin 9) (s : State),
    (∀ r ∈ [(DieDue.low g, Instr.fieldLow g), (.missing g, .fieldMissing g), (.ok g, .fieldOk g)], s.die.due.contains r.1 = false → Runs r.2 s s) ∧
    (s.die.due.contains (.low g) = true → ∃ t, Runs (.fieldLow g) s t ∧
      tget {} t.die.groups g = { tget {} s.die.groups g with state := .low } ∧
      (∀ j, j ≠ g.val → tget {} t.die.groups j = tget {} s.die.groups j) ∧
      t.core.seq.faultQ = s.core.seq.faultQ ++ (if s.core.sys.inReset then [] else [⟨0x304, 255, 255⟩]) ∧
      t = { s with
        die := { s.die with due := s.die.due.erase (.low g), groups := t.die.groups }
        core := { s.core with recd := t.core.recd, seq := { s.core.seq with faultQ := t.core.seq.faultQ } } }) ∧
    (s.die.due.contains (.missing g) = true → ∃ t, Runs (.fieldMissing g) s t ∧
      tget {} t.die.groups g = { tget {} s.die.groups g with state := .missing } ∧
      (∀ j, j ≠ g.val → tget {} t.die.groups j = tget {} s.die.groups j) ∧
      (∀ u, u ∈ setsOf (dieSec s.die) → groupOf u = g → (tget {} t.die.outs u).on = false) ∧
      (∀ u, groupOf u = g → chanState t.die u = 3) ∧
      t.core.seq.faultQ = s.core.seq.faultQ ++ (if s.core.sys.inReset then [] else [⟨0x305, 255, 255⟩]) ∧
      t = { s with
        die := { s.die with due := s.die.due.erase (.missing g), groups := t.die.groups, outs := t.die.outs }
        core := { s.core with recd := t.core.recd, seq := { s.core.seq with faultQ := t.core.seq.faultQ } } }) ∧
    (s.die.due.contains (.ok g) = true → ∃ t, Runs (.fieldOk g) s t ∧
      tget {} t.die.groups g = { tget {} s.die.groups g with state := .normal } ∧
      (∀ j, j ≠ g.val → tget {} t.die.groups j = tget {} s.die.groups j) ∧
      (∀ u, tget {} t.die.inputs u =
        if groupOf u = g ∧ (tget {} s.die.groups g).state = .missing then {} else tget {} s.die.inputs u) ∧
      (dieRuns s.die = true → ∀ u, u ∈ setsOf (dieSec s.die) → (tget {} t.die.outs u).on =
        setValue { s.die with groups := t.die.groups } u) ∧
      t = { s with
        die := { s.die with due := s.die.due.erase (.ok g), groups := t.die.groups, outs := t.die.outs, inputs := t.die.inputs }
        core := { s.core with recd := t.core.recd } })

/-- The output sets. SHORT_GND latches one set and turns it off, and its end clears the latch; EXT_DRIVE flags one set and is a
fault unless the set has CO_DRIVE. When the silence timeout passes, and with each valid command frame, every set takes the
value of the first row of R345 that applies; a frame with RUN 1 lets every set of the section drive from then on, and a bad frame is
only counted. With the reset input asserted or without a supply every set is off and the section is gone, and the die restarts
unconfigured. A detection that is not due has no effect (log 3). The commands `shortGnd`, `shortGndClear`, `extDrive`, `logicSilence`,
`commandFrame`, `fieldDieReset`, `fieldDieSupplyLoss` and `fieldDieRestart` complete (R317, R336, R345, R346, R351, R352, R354). -/
def Obligations.FieldOutputs : Prop :=
  ∀ s : State,
    (s.die.due.contains .silence = false → Runs .logicSilence s s) ∧
    (∀ u : Fin 144,
      (∀ r ∈ [(DieDue.shortGnd u, Instr.shortGnd u), (.clear u, .shortGndClear u), (.ext u, .extDrive u)], s.die.due.contains r.1 = false →
        Runs r.2 s s) ∧
      (s.die.due.contains (.shortGnd u) = true → ∃ t, Runs (.shortGnd u) s t ∧ (tget {} t.die.outs u).short = true ∧
        (tget {} t.die.outs u).on = false ∧ (∀ v, v ≠ u.val → tget {} t.die.outs v = tget {} s.die.outs v) ∧
        t.core.seq.faultQ = s.core.seq.faultQ ++ (if s.core.sys.inReset then [] else [⟨0x302, ownerPortal s.core u, u⟩]) ∧
        t = { s with
          die := { s.die with due := s.die.due.erase (.shortGnd u), outs := t.die.outs }
          core := { s.core with recd := t.core.recd, seq := { s.core.seq with faultQ := t.core.seq.faultQ } } }) ∧
      (s.die.due.contains (.clear u) = true → ∃ t, Runs (.shortGndClear u) s t ∧ (tget {} t.die.outs u).short = false ∧
        (∀ v, v ≠ u.val → tget {} t.die.outs v = tget {} s.die.outs v) ∧
        t = { s with die := { s.die with due := s.die.due.erase (.clear u), outs := t.die.outs } }) ∧
      (s.die.due.contains (.ext u) = true → ∃ t, Runs (.extDrive u) s t ∧
        tget {} t.die.outs u = { tget {} s.die.outs u with ext := true, extClr := 0 } ∧
        (∀ v, v ≠ u.val → tget {} t.die.outs v = tget {} s.die.outs v) ∧
        t.core.seq.faultQ = s.core.seq.faultQ ++
          (if fAttr (dieSec s.die) u 3 || s.core.sys.inReset then [] else [⟨0x303, ownerPortal s.core u, u⟩]) ∧
        t = { s with
          die := { s.die with due := s.die.due.erase (.ext u), outs := t.die.outs }
          core := { s.core with recd := t.core.recd, seq := { s.core.seq with faultQ := t.core.seq.faultQ } } })) ∧
    (s.die.due.contains .silence = true → dieRuns s.die = true → ∃ t, Runs .logicSilence s t ∧
      (∀ u, u ∈ setsOf (dieSec s.die) → (tget {} t.die.outs u).on = setValue { s.die with silent := true } u) ∧
      t = { s with die := { s.die with
        due := s.die.due.erase .silence, outs := t.die.outs, silent := true, expired := true, silences := s.die.silences + 1 } }) ∧
    (∀ r img, s.die.due = [] → dieRuns s.die = true → s.die.cmd = some (r, img) →
      (∃ t, Runs (.commandFrame true) s t ∧
        (∀ u, u ∈ setsOf (dieSec s.die) → (r = true → (tget {} t.die.outs u).live = true) ∧ (tget {} t.die.outs u).on =
          setValue { s.die with outs := (if r then liveSets s.die else s.die).outs, run := r, image := img, silent := s.die.silent && !r } u) ∧
        t = { s with die := { s.die with
          outs := t.die.outs, cmd := none, run := r, image := img, silence := 0, silent := s.die.silent && !r, expired := false } }) ∧
      Runs (.commandFrame false) s { s with die := { s.die with cmd := none, badCmd := s.die.badCmd + 1 } }) ∧
    (∃ t, Runs .fieldDieReset s t ∧ t = { s with die := t.die } ∧ dieRuns t.die = false ∧ t.die.section_ = none ∧
      ∀ u, (tget {} t.die.outs u).on = false ∧ chanState t.die u = 3) ∧
    (∃ t, Runs .fieldDieSupplyLoss s t ∧ t = { s with die := t.die } ∧ dieRuns t.die = false ∧ t.die.section_ = none ∧
      ∀ u, (tget {} t.die.outs u).on = false ∧ chanState t.die u = 3) ∧
    (dieRuns s.die = true → Runs .fieldDieRestart s s) ∧
    (dieRuns s.die = false → s.core.sys.inReset = false → ∃ t, Runs .fieldDieRestart s t ∧ t = { s with die := t.die } ∧
      dieRuns t.die = true ∧ t.die.section_ = none ∧ t.die.silent = true ∧
      ∀ u, (tget {} t.die.outs u).on = false ∧ chanState t.die u = 3)

/-- Samples and frames. A raw sample takes every input through its filter; a sample instant sends a stop word, and at every second
one a sample frame, with their own sequence counts; a receiver discards a frame whose CRC fails, each for itself; the logic
die counts it. An island that times two valid frames running out of 250 µs ±2 % makes its pairs unsafe, and the unit enters SAFE_TALK
with cause 0x80. In PARKED a WAKE input whose current is 1 twice running sends a wake frame. The commands `rawSample`,
`sampleInstant`, `stopWord`, `sampleFrame` and `wakeInputSample` complete (R18, R337, R340, R341, R343, R354). -/
def Obligations.FieldSampling : Prop :=
  ∀ s : State,
    (s.die.due = [] → (dieRuns s.die = false ∨ s.die.parked = true) → (∀ m, Runs (.rawSample m) s s) ∧ Runs .sampleInstant s s) ∧
    (s.die.due = [] → (dieRuns s.die = false ∨ s.die.parked = false) → ∀ ua, Runs (.wakeInputSample ua) s s) ∧
    (s.die.stopW = none → ∀ ok, Runs (.stopWord ok) s s) ∧
    (s.die.sampleF = none → ∀ a b l o, Runs (.sampleFrame a b l o) s s) ∧
    (∀ m : RawIn, s.die.due = [] → dieRuns s.die = true → s.die.parked = false → ∃ t, Runs (.rawSample m) s t ∧
      (∀ u, u < 144 → fMode (dieSec s.die) u = 1 → tget {} t.die.inputs u = filterStep (10 * fFilter (dieSec s.die) u)
        (bandOf (fAttr (dieSec s.die) u 0) (fAttr (dieSec s.die) u 1) (tget 0 m.ua u)) (tget {} s.die.inputs u)) ∧
      (∀ u, fMode (dieSec s.die) u ≠ 1 → tget {} t.die.inputs u = tget {} s.die.inputs u) ∧
      t.die.silence = s.die.silence + 1 ∧
      t = { s with die := { s.die with
        inputs := t.die.inputs, groups := t.die.groups, outs := t.die.outs, silence := t.die.silence, due := t.die.due } }) ∧
    (s.die.due = [] → dieRuns s.die = true → s.die.parked = false → ∃ t, Runs .sampleInstant s t ∧
      t.die.stopW = some (dieFrame s.die s.die.stopList) ∧
      (s.die.instants % 2 = 0 → t.die.sampleF = s.die.sampleF ∧ t.die.seq = (s.die.seq + 1) % 256) ∧
      (s.die.instants % 2 = 1 → t.die.sampleF = some (dieFrame { s.die with seq := (s.die.seq + 1) % 256 } (List.range 144)) ∧
        t.die.seq = (s.die.seq + 2) % 256) ∧
      t = { s with die := { s.die with
        instants := s.die.instants + 1, stopW := t.die.stopW, sampleF := t.die.sampleF, seq := t.die.seq } }) ∧
    (∀ f, s.die.stopW = some f → s.core.sys.inReset = false →
      Runs (.stopWord true) s { s with
        die := { s.die with stopW := none }, core := { s.core with fld := { s.core.fld with stopW := some f } } } ∧
      Runs (.stopWord false) s { s with
        die := { s.die with stopW := none }, core := { s.core with fld := { s.core.fld with bad := s.core.fld.bad + 1 } } }) ∧
    (∀ (f : DieFrame) (a b l offA offB : Bool), s.die.sampleF = some f → s.core.sys.inReset = false →
      let counts (ok : Bool) : Bool := ok && (f.configured || !s.core.fld.loaded)
      let times (ok off : Bool) (i : IslSt) : Nat := if counts ok then (if off then i.offTime + 1 else 0) else i.offTime
      let clockBad := 2 ≤ times a offA s.isa ∨ 2 ≤ times b offB s.isb
      (¬ clockBad → ∃ t, Runs (.sampleFrame a b l ⟨offA, offB⟩) s t ∧
        (counts a = true → t.isa = { s.isa with frame := some f, fresh := true, offTime := times a offA s.isa }) ∧
        (counts a = false → t.isa = s.isa) ∧
        (counts b = true → t.isb = { s.isb with frame := some f, fresh := true, offTime := times b offB s.isb }) ∧
        (counts b = false → t.isb = s.isb) ∧
        (l = true → t.core.fld.frame = some f ∧ t.core.fld.bad = s.core.fld.bad) ∧
        (l = false → t.core.fld.frame = s.core.fld.frame ∧ t.core.fld.bad = s.core.fld.bad + 1) ∧
        t = { s with
          die := { s.die with sampleF := none }
          isa := t.isa, isb := t.isb
          core := { s.core with fld := { s.core.fld with frame := t.core.fld.frame, bad := t.core.fld.bad } } }) ∧
      (clockBad → s.core.sys.mode ≠ .safeTalk → resetting s.core = false →
        ∃ t, Runs (.sampleFrame a b l ⟨offA, offB⟩) s t ∧ SafeTalk 0x80 s t ∧
          (counts a = true → 2 ≤ times a offA s.isa → t.isa.blind = true) ∧
          (counts b = true → 2 ≤ times b offB s.isb → t.isb.blind = true))) ∧
    ∀ (ua : Table Nat) (u : Nat), s.die.due = [] → dieRuns s.die = true → s.die.parked = true → u < 144 →
      fMode (dieSec s.die) u = 1 → fAttr (dieSec s.die) u 2 = true → ∃ t, Runs (.wakeInputSample ua) s t ∧
      tget 0 t.die.wakePrev u =
        (bandOf (fAttr (dieSec s.die) u 0) (fAttr (dieSec s.die) u 1) (tget 0 ua u)).getD (tget 0 s.die.wakePrev u) ∧
      (tget 0 s.die.wakePrev u = 1 → tget 0 t.die.wakePrev u = 1 → ∃ l, t.die.wake = some l ∧ u ∈ l) ∧
      t = { s with die := { s.die with
        wakePrev := t.die.wakePrev, wake := t.die.wake, silence := t.die.silence, due := t.die.due } }

/-- What the ports send, with the port's VID. A due dataset leaves on each port that PORTS names, port 0 first, if the link is up and
the destination is multicast or resolved; one to an unresolved destination is not sent and is counted; a unit that does not publish
sends nothing. In SAFE_TALK the unit-failed telegram leaves every 1 000 ms, until a flush stops it. A port answers ARP for its own
address only, keeps the destinations that answered, and answers at most 10 echo requests a second, for its own address from its link;
a request whose tag does not suit is a format error, and storm control and the normal queue's depth apply first. The commands
`telegramPublish`, `unitFailedTelegram`, `arpRequest`, `arpRefresh`, `icmpEcho` and `phyLinkChange` complete (R66, R386, R394, R396,
R397, R399). -/
def Obligations.TrainTransmission : Prop :=
  ∀ s : State,
    (s.core.sys.inReset = true → Runs .telegramPublish s s) ∧
    (s.core.sys.inReset = false → publishes s.core = false →
      Runs .telegramPublish s { s with core := { s.core with train := { s.core.train with due := [] } } }) ∧
    (∀ e n d, s.core.sys.inReset = false → publishes s.core = true → s.core.train.due = [(e, n, d)] →
      let m := cfgOf s.core
      let slot := tlN m (pubE e + 15) 1
      let dest := tlIp m (pubE e + 4)
      let b := telegram (trainKey s slot) slot 0 (tlN m 14 2) (tlN m (pubE e + 8) 2) s.core.nv.epoch.toNat n (tlN m (pubE e) 4) d
      let leaves (p : Nat) : Bool := bitOf (tlN m (pubE e + 17) 1) p && (portAt s.core p).linkUp
      let sent (p : Nat) : List Output := if leaves p then [.telegram p (tlVid m p) (tlN m (pubE e) 4) dest (tlN m (pubE e + 16) 1) b] else []
      (unicast dest = false → ∃ t, Runs .telegramPublish s t ∧ t.core.out = sent 1 ++ sent 0 ++ s.core.out ∧
        (∀ p, p < 2 → leaves p = true → tget 0 (portAt t.core p).counters 4 = tget 0 (portAt s.core p).counters 4 + 1) ∧
        (∀ p, p < 2 → leaves p = false → portAt t.core p = portAt s.core p) ∧
        t = { s with core := { s.core with train := { s.core.train with due := [], ports := t.core.train.ports }, out := t.core.out } }) ∧
      (unicast dest = true → (∀ p, p < 2 → onLink m p dest = true ∧ dest ∉ (portAt s.core p).arp) → ∃ t, Runs .telegramPublish s t ∧
        (∀ p, p < 2 → leaves p = true → tget 0 (portAt t.core p).counters 32 = tget 0 (portAt s.core p).counters 32 + 1 ∧
          tget 0 (portAt t.core p).counters 4 = tget 0 (portAt s.core p).counters 4 + 1 ∧ Output.arp p (tlVid m p) dest ∈ t.core.out) ∧
        (∀ o, o ∈ t.core.out → o ∈ s.core.out ∨ ∃ p, o = Output.arp p (tlVid m p) dest) ∧
        t = { s with core := { s.core with train := { s.core.train with due := [], ports := t.core.train.ports }, out := t.core.out } })) ∧
    ((s.core.sys.mode ≠ .safeTalk ∨ s.core.sys.inReset = true ∨ s.core.sys.txOff = true ∨ s.core.train.ufMs < 1000 ∨ tlN (cfgOf s.core) 20 4 = 0) →
      Runs .unitFailedTelegram s s) ∧
    (s.core.sys.mode = .safeTalk → s.core.sys.inReset = false → s.core.sys.txOff = false → 1000 ≤ s.core.train.ufMs → tlN (cfgOf s.core) 20 4 ≠ 0 →
      unicast (tlIp (cfgOf s.core) 24) = false → ∃ t b, Runs .unitFailedTelegram s t ∧ t.core.train.ufMs = s.core.train.ufMs - 1000 ∧
        b = telegram (trainKey s (tlN (cfgOf s.core) 28 1)) (tlN (cfgOf s.core) 28 1) 1 (tlN (cfgOf s.core) 14 2)
          (0xFFFE + unitId s.core) s.core.nv.epoch.toNat (s.core.nv.opMs / 1000) (tlN (cfgOf s.core) 20 4)
          (toLe 8 Config.serial.toNat ++ toLe 1 (modeCode .safeTalk) ++ toLe 1 s.core.sys.cause ++ toLe 1 (unitId s.core) ++ [0]
            ++ toLe 8 (stampOf s.core)) ∧
        (∀ p, p < 2 → (portAt s.core p).linkUp = true →
          Output.telegram p (tlVid (cfgOf s.core) p) (tlN (cfgOf s.core) 20 4) (tlIp (cfgOf s.core) 24) (tlN (cfgOf s.core) 29 1) b ∈ t.core.out) ∧
        t = { s with core := { s.core with train := { s.core.train with ufMs := t.core.train.ufMs, ports := t.core.train.ports }, out := t.core.out } }) ∧
    ∀ port : Fin 2,
      let m := cfgOf s.core
      let x := portAt s.core port
      let served := trainOn s.core = true ∧ x.linkUp = true
      (¬ served → (∀ ip asker, Runs (.arpRequest port ip asker) s s) ∧ (∀ src data, Runs (.icmpEcho port src data) s s) ∧
        ∀ answers, Runs (.arpRefresh port answers) s s) ∧
      (served → ∀ vid, vidOk m port vid = false → (∀ ip asker,
          Runs (.arpRequest port ip ⟨vid, asker⟩) s { s with core := tlCount port 16 (tlCount port 0 s.core) }) ∧
        ∀ src dst data, Runs (.icmpEcho port ⟨vid, src⟩ ⟨dst, data⟩) s { s with core := tlCount port 16 (tlCount port 0 s.core) }) ∧
      (served → x.spent + 1000 ≤ tlN m 18 1 * 1000 → x.norm.length < 16 → s.core.run.cfg.isSome = true → ∀ vid, vidOk m port vid = true →
        (∀ ip asker, ∃ t, Runs (.arpRequest port ip ⟨vid, asker⟩) s t ∧
          t.core.out = (if ip = tlIp m (4 * port) then [.arp port (tlVid m port) asker] else []) ++ s.core.out ∧
          t = { s with core := { s.core with train := { s.core.train with ports := t.core.train.ports }, out := t.core.out } }) ∧
        ∀ src dst data, ∃ t, Runs (.icmpEcho port ⟨vid, src⟩ ⟨dst, data⟩) s t ∧
          (let answers := dst = tlIp m (4 * port) ∧ onLink m port src = true ∧ 0 < x.icmp
           (answers → t.core.out = .echoReply port (tlVid m port) src data :: s.core.out ∧ (portAt t.core port).icmp = x.icmp - 1) ∧
           (¬ answers → t.core.out = s.core.out ∧ (portAt t.core port).icmp = x.icmp)) ∧
          t = { s with core := { s.core with train := { s.core.train with ports := t.core.train.ports }, out := t.core.out } }) ∧
      (served → s.core.run.cfg.isSome = true → ∀ answers, ∃ t, Runs (.arpRefresh port answers) s t ∧
        (∀ d, d ∈ (portAt t.core port).arp ↔ d ∈ destsOf m port ∧ d ∈ answers) ∧
        (∀ p, p ≠ port.val → portAt t.core p = portAt s.core p) ∧
        t = { s with core := { s.core with train := { s.core.train with ports := t.core.train.ports }, out := t.core.out } }) ∧
      ∀ up duplex : Bool,
        ((s.core.sys.inReset = true ∨ s.core.sys.mode = .parked) → Runs (.phyLinkChange port up duplex) s s) ∧
        (s.core.sys.inReset = false → s.core.sys.mode ≠ .parked → ∃ t, Runs (.phyLinkChange port up duplex) s t ∧
          portAt t.core port = { x with linkUp := up, duplex := up && duplex } ∧
          (∀ p, p ≠ port.val → portAt t.core p = portAt s.core p) ∧
          t = { s with core := { s.core with train := { s.core.train with ports := t.core.train.ports } } })

/-- What the ports receive. A frame for another address or on a port that is down changes nothing; one with an unsupported feature,
another message type than 'Pd' or a tag that does not suit is a format error; a telegram of a used subscription to the port's address
or a subscribed group goes to the priority queue while its budget and the queue last, and any other frame to the normal queue; what
finds its queue full is dropped and counted. The verifier serves the priority queue first and applies the checks in order; the first
that fails counts, and a telegram that passes is the update of its subscription, which records SUB_OK after a timeout only. The
commands `trainFrameReceived` and `telegramVerify` complete (R386, R398, R399, R400, R401). -/
def Obligations.TrainReception : Prop :=
  (∀ (port : Fin 2) (f : TrainFrame) (s : State),
    ((trainOn s.core = false ∨ (portAt s.core port).linkUp = false ∨ macOk (cfgOf s.core) port f.dstMac = false) → Runs (.trainFrameReceived port f) s s) ∧
    (trainOn s.core = true → (portAt s.core port).linkUp = true → macOk (cfgOf s.core) port f.dstMac = true →
      let formed := f.supported = true ∧ vidOk (cfgOf s.core) port f.vid = true ∧ (f.udpPd = true → beNat (slice f.payload 6 2) = 0x5064)
      (¬ formed →
        Runs (.trainFrameReceived port f) s { s with core := tlCount port 16 (tlCount port 0 s.core) }) ∧
      (formed →
        (∀ k, f.udpPd = true → ipOk (cfgOf s.core) port f.dstIp = true → s.core.sys.mode ≠ .safeTalk → subFor (cfgOf s.core) (beNat (slice f.payload 8 4)) = some k →
          ((subAt s.core k).budget = 0 → Runs (.trainFrameReceived port f) s { s with core := tlCount port 8 (tlCount port 0 s.core) }) ∧
          (0 < (subAt s.core k).budget → ∃ t, Runs (.trainFrameReceived port f) s t ∧
            (subAt t.core k).budget = (subAt s.core k).budget - 1 ∧
            ((portAt s.core port).prio.length < 32 → (portAt t.core port).prio = (portAt s.core port).prio ++ [f]) ∧
            (32 ≤ (portAt s.core port).prio.length → (portAt t.core port).prio = (portAt s.core port).prio ∧
              tget 0 (portAt t.core port).counters 12 = tget 0 (portAt s.core port).counters 12 + 1) ∧
            t = { s with core := { s.core with train := { s.core.train with ports := t.core.train.ports, subs := t.core.train.subs } } })) ∧
        ((f.udpPd = false ∨ ipOk (cfgOf s.core) port f.dstIp = false ∨ s.core.sys.mode = .safeTalk ∨ subFor (cfgOf s.core) (beNat (slice f.payload 8 4)) = none) →
          (portAt s.core port).spent + 1000 ≤ tlN (cfgOf s.core) 18 1 * 1000 → ∃ t, Runs (.trainFrameReceived port f) s t ∧
            ((portAt s.core port).norm.length < 16 → (portAt t.core port).norm = (portAt s.core port).norm ++ [f]) ∧
            (16 ≤ (portAt s.core port).norm.length → (portAt t.core port).norm = (portAt s.core port).norm ∧
              tget 0 (portAt t.core port).counters 12 = tget 0 (portAt s.core port).counters 12 + 1) ∧
            t = { s with core := { s.core with train := { s.core.train with ports := t.core.train.ports } } })))) ∧
  (∀ s : State, (trainOn s.core = false ∨ s.core.sys.mode = .safeTalk) → Runs .telegramVerify s s) ∧
  ∀ (s : State) (f : TrainFrame) (r : List TrainFrame) (k : Nat), trainOn s.core = true → s.core.sys.mode ≠ .safeTalk →
    (portAt s.core 0).prio = f :: r → subFor (cfgOf s.core) (beNat (slice f.payload 8 4)) = some k →
    let b := f.payload
    let n := field b 50 2
    let key := trainKey s (byteAt b 43)
    let c := modPort 0 (fun x => { x with prio := r }) s.core
    let good := pdOk b = true ∧ entryOk (cfgOf s.core) k f = true
    let genuine := slice b (56 + n) 8 = (hmac key (slice b 40 (16 + n))).take 8
    let verdict := window (subAt s.core k) (BitVec.ofNat 16 (field b 48 2)) (BitVec.ofNat 32 (field b 52 4))
    (¬ good → Runs .telegramVerify s { s with core := tlCount 0 16 c }) ∧
    (good → key = [] → Runs .telegramVerify s { s with core := c }) ∧
    (good → key ≠ [] → ¬ genuine → Runs .telegramVerify s { s with core := tlCount 0 20 c }) ∧
    (good → key ≠ [] → genuine → verdict = .stale → Runs .telegramVerify s { s with core := tlCount 0 24 c }) ∧
    (good → key ≠ [] → genuine → verdict = .duplicate → Runs .telegramVerify s { s with core := tlCount 0 28 c }) ∧
    (∀ w, good → key ≠ [] → genuine → verdict = .accept w → ∃ t, Runs .telegramVerify s t ∧
      subAt t.core k = { w with
        state := 2, epoch := BitVec.ofNat 16 (field b 48 2), seq := BitVec.ofNat 32 (field b 52 4)
        stamp := BitVec.ofNat 64 (stampOf s.core), data := slice b 56 n, accepted := w.accepted + 1, age := 0 } ∧
      ((subAt s.core k).state ≠ 3 → t.core.recd = s.core.recd) ∧
      t = { s with core := { c with
        train := { c.train with subs := t.core.train.subs }
        recd := t.core.recd, seq := { s.core.seq with due := t.core.seq.due } } })

/-- An admitted event record has the layout of R413: the stamp of its admission, code, source, severity, four parameters of which
the unused are 0, and the CRC over the bytes before it (R413). -/
def Obligations.EventRecordLayout : Prop :=
  ∀ (c : Core) (code src : Nat) (ps : List Nat), code < 0x400 → src < 256 → ps.length ≤ 4 → (∀ p, p ∈ ps → p < 2 ^ 32) →
    c.nv.cycles ≤ 0x3FFFFE → sevOf c code ≤ 4 → c.recd.failed = false → c.recd.stoppedE = false → c.recd.powerFail = false →
    c.recd.fifo.length < 248 → (codeFree code = true ∨ 60000 ≤ levelOf c code) →
    ∃ r, (event code src ps c).recd.fifo = c.recd.fifo ++ [r] ∧ r.bytes.length = 32 ∧ field r.bytes 0 8 = stampOf c ∧
      field r.bytes 8 2 = code ∧ field r.bytes 10 1 = src ∧ field r.bytes 11 1 = sevOf c code ∧
      (∀ i, i < 4 → field r.bytes (12 + 4 * i) 4 = ps.getD i 0) ∧ field r.bytes 28 4 = (crc32c (slice r.bytes 0 28)) % 2 ^ 32

/-- Records reach their stores. The oldest record of the FIFO takes the slot at the write index of its store, and every other slot
stays; the 127th record of a block brings the block's trailer and its commit; a full journal counts the record in total 61;
the last record slot of the event log takes STORE_FULL, and the log stops; a failed recorder writes nothing. While more than
128 entries are taken no SUPPRESSED record is queued, and else the count of a code becomes a record of reason 2. The commands
`recordWrite` and `fifoDrainSuppressed` complete (R36, R405, R416, R425, R427, R429, R431, R432). -/
def Obligations.RecordsStored : Prop :=
  ∀ s : State,
    (s.core.recd.fifo = [] → Runs .recordWrite s s) ∧
    (∀ r rest, s.core.recd.fifo = r :: rest →
      (s.core.recd.failed = true → Runs .recordWrite s { s with core := { s.core with recd := { s.core.recd with fifo := rest } } }) ∧
      (s.core.recd.failed = false → r.cycle = true →
        (s.store.wJ < journalSlots → (s.store.wJ + 1) % 128 ≠ 127 → ∃ t, Runs .recordWrite s t ∧
          storeSlot t.store 0 s.store.wJ = r.bytes ∧
          (∀ i, i ≠ s.store.wJ → storeSlot t.store 0 i = storeSlot s.store 0 i) ∧
          t = { s with
            store := { s.store with journal := t.store.journal, wJ := s.store.wJ + 1 }
            core := { s.core with recd := { s.core.recd with fifo := rest, stats := t.core.recd.stats } } }) ∧
        (s.store.wJ + 2 < journalSlots → (s.store.wJ + 1) % 128 = 127 → s.store.wJ / 128 % 256 ≠ 255 → ∃ t, Runs .recordWrite s t ∧
          storeSlot t.store 0 s.store.wJ = r.bytes ∧
          storeSlot t.store 0 (s.store.wJ + 1) = (trailerOf t.store 0 (s.store.wJ / 128) s.store.chainJ s.store.rstJ).1 ∧
          (∀ i, i ≠ s.store.wJ → i ≠ s.store.wJ + 1 → storeSlot t.store 0 i = storeSlot s.store 0 i) ∧
          t = { s with
            store := { s.store with
              journal := t.store.journal, wJ := s.store.wJ + 2, chainJ := t.store.chainJ, rstJ := false
              committed := (s.store.wJ + 2, s.store.wE, s.store.wC), older := s.store.committed, commits := s.store.commits + 1 }
            core := { s.core with recd := { s.core.recd with fifo := rest, stats := t.core.recd.stats } } }) ∧
        (journalSlots ≤ s.store.wJ → ∃ t, Runs .recordWrite s t ∧
          statGet t.core.recd.stats (byteAt r.bytes 8 * 1280 + 1268) =
            satAdd 0xFFFFFFFF (statGet s.core.recd.stats (byteAt r.bytes 8 * 1280 + 1268)) 1 ∧
          t = { s with core := { s.core with recd := { s.core.recd with fifo := rest, stats := t.core.recd.stats } } })) ∧
      (s.core.recd.failed = false → r.cycle = false →
        (s.store.wE + 1 < eventLast → (s.store.wE + 1) % 128 ≠ 127 → isTimeSet r = false → ∃ t, Runs .recordWrite s t ∧
          storeSlot t.store 1 s.store.wE = r.bytes ∧
          (∀ i, i ≠ s.store.wE → storeSlot t.store 1 i = storeSlot s.store 1 i) ∧
          t = { s with
            store := { s.store with events := t.store.events, wE := s.store.wE + 1 }
            core := { s.core with recd := { s.core.recd with fifo := rest } } }) ∧
        (s.store.wE + 1 = eventLast → ∃ t, Runs .recordWrite s t ∧ storeSlot t.store 1 s.store.wE = r.bytes ∧
          field (storeSlot t.store 1 eventLast) 8 2 = 0x0B2 ∧ field (storeSlot t.store 1 eventLast) 12 4 = 1 ∧
          t.core.recd.stoppedE = true ∧ (∀ x, x ∈ t.core.recd.fifo ↔ x ∈ rest ∧ x.cycle = true) ∧
          t.store.journal = s.store.journal ∧ t.store.wJ = s.store.wJ))) ∧
    ((128 < s.core.recd.fifo.length ∨ s.core.recd.powerFail = true) → Runs .fifoDrainSuppressed s s) ∧
    ∀ code x, s.core.recd.fifo.length ≤ 128 → s.core.recd.powerFail = false → s.core.recd.failed = false →
      s.core.recd.stoppedE = false → s.core.recd.drops = [(code, x)] → ∃ t r, Runs .fifoDrainSuppressed s t ∧
        t.core.recd.fifo = s.core.recd.fifo ++ [r] ∧ r.code = 0x0B1 ∧ tget {} t.core.recd.drops code = {} ∧
        r.bytes = eventBytes (stampOf s.core) 0x0B1 0x0D 2
          [code + 2 * 65536, x.count, x.firstMs % 2 ^ 32, x.lastMs % 2 ^ 32] ∧
        t = { s with core := { s.core with recd := { s.core.recd with fifo := t.core.recd.fifo, drops := t.core.recd.drops } } }

/-- Bank words. BAR2 outside WORKSHOP reads 0xFFFF_FFFF and discards writes, and counts both; inside it a read of a clean word gives
the word and changes nothing, a plain write of a whole word writes it with fresh check bits, views 1 and 2 set and clear bits
under the byte enables, and view 3 shows and injects check bits. The oldest corrected word of a port is written back when that port is
idle, and an uncorrectable one is dropped. A region test of a good row with clean words only counts. The commands `bar2Read`,
`bar2Write`, `eccWriteBack` and `opalRegionTest` complete (R74, R439, R443, R444, R448). -/
def Obligations.BankWords : Prop :=
  ∀ (s : State) (off : BitVec 18),
    let n := (bar2Word s.core off).1
    let w := (bar2Word s.core off).2
    let b := bankAt s.core n
    let view := off.toNat / 65536
    (bar2Open s.core = false →
      Runs (.bar2Read off) s { s with core := emit (.bar 0xFFFFFFFF) (hpCount 28 s.core) } ∧
      ∀ v be, Runs (.bar2Write off v be) s { s with core := hpCount 28 s.core }) ∧
    (bar2Open s.core = true → tget 0 b.checks w = 0 →
      (view ≠ 3 → Runs (.bar2Read off) s { s with core := emit (.bar (tget 0 b.words w)) s.core }) ∧
      (view = 3 → Runs (.bar2Read off) s
        { s with core := emit (.bar (BitVec.ofNat 32 (Config.eccEncode (tget 0 b.words w)).toNat)) s.core }) ∧
      ∀ (v : U32) (be : BitVec 4), ∃ t, Runs (.bar2Write off v be) s t ∧
        tget 0 (bankAt t.core n).words w = (match view with
          | 0 => (tget 0 b.words w &&& ~~~ beMask be) ||| (v &&& beMask be)
          | 1 => tget 0 b.words w ||| (v &&& beMask be)
          | 2 => tget 0 b.words w &&& ~~~ (v &&& beMask be)
          | _ => tget 0 b.words w) ∧
        (view ≠ 3 → tget 0 (bankAt t.core n).checks w = 0) ∧
        (view = 3 → be.getLsbD 0 = true → (Config.eccEncode (tget 0 b.words w)).toNat ^^^ tget 0 (bankAt t.core n).checks w = v.toNat % 128) ∧
        (∀ x, x ≠ w → tget 0 (bankAt t.core n).words x = tget 0 b.words x ∧ tget 0 (bankAt t.core n).checks x = tget 0 b.checks x) ∧
        (∀ k, k ≠ n → bankAt t.core k = bankAt s.core k) ∧
        t = { s with core := { s.core with mem := { s.core.mem with banks := t.core.mem.banks } } }) ∧
    (∀ (k : Fin 24) (portB : Bool), ((∀ e ∈ (bankAt s.core k).wb, e.2 ≠ portB) ∨ (bankAt s.core k).power ≠ .on) →
      Runs (.eccWriteBack k portB) s s) ∧
    (∀ (k : Fin 24) (portB : Bool) (x : Nat) (older rest : List (Nat × Bool)), (bankAt s.core k).wb = older ++ (x, portB) :: rest →
      (∀ e ∈ older, e.2 ≠ portB) → (bankAt s.core k).power = .on →
      ∃ t, Runs (.eccWriteBack k portB) s t ∧ (bankAt t.core k).wb = older ++ rest ∧
        ((bankRead (bankAt s.core k) x).2 ≠ .bad →
          tget 0 (bankAt t.core k).words x = (bankRead (bankAt s.core k) x).1 ∧ tget 0 (bankAt t.core k).checks x = 0) ∧
        ((bankRead (bankAt s.core k) x).2 = .bad → bankAt t.core k = { bankAt s.core k with wb := older ++ rest }) ∧
        (∀ j, j ≠ k.val → bankAt t.core j = bankAt s.core j) ∧
        t = { s with core := { s.core with mem := { s.core.mem with banks := t.core.mem.banks } } }) ∧
    ((opalRuns s.core.sys.mode = false ∨ s.core.sys.inReset = true) → ∀ bad, Runs (.opalRegionTest bad) s s) ∧
    (∀ m r rest, opalRuns s.core.sys.mode = true → s.core.sys.inReset = false → s.core.mem.forward = (m, r) :: rest → r < 1024 →
      (bankAt s.core m).power = .on → (bankAt s.core m).checks = [] → ∃ t, Runs (.opalRegionTest false) s t ∧
        bankAt t.core m = { bankAt s.core m with tested := (bankAt s.core m).tested + 1 } ∧
        (∀ j, j ≠ m → bankAt t.core j = bankAt s.core j) ∧
        t = { s with core := { s.core with mem := { s.core.mem with banks := t.core.mem.banks, forward := rest } } })

/-- Tamper. The lid mesh always erases. An ALARM sets its flag and writes TAMPER_ALARM, and does no more. An ERASE starts the wipe of
Onyx, and sets the device latch of a unit in use, which then clears every host flag but HF15 in a mode that runs programs; the
wipe leaves every key and the certificate absent and writes ONYX_WIPED. LOCKOUT follows once no portal moves, or 10 s after the
detection; in PARKED the wipe completes and the unit wakes. The commands `tamperDetect`, `onyxWiped` and `tamperLockout` complete
(R44, R70, R455, R462, R463, R464, R465, R466). -/
def Obligations.TamperAndWipe : Prop :=
  ∀ s : State,
    (∀ c, tamperErase c .mesh = true) ∧
    (∀ src, tamperErase s.core src = false → ∃ t, Runs (.tamperDetect src) s t ∧ t.core.sys.tamperAlarm = true ∧
      t = { s with core := { s.core with sys := { s.core.sys with tamperAlarm := true }, recd := t.core.recd } }) ∧
    (∀ src, tamperErase s.core src = true → s.core.sys.mode ≠ .parked → ∃ t, Runs (.tamperDetect src) s t ∧
      t.onyx = { s.onyx with wipePending := true, wipeCause := 1 } ∧
      (inUse s.core.nv.lc = true → t.core.nv.dev.set = true) ∧
      (inUse s.core.nv.lc = true → stepsIn s.core.sys.mode = true → s.core.sys.inReset = false → t.core.sys.erased = true ∧
        ∀ n, n < 13 → (chAt t.core n).hf = (chAt s.core n).hf &&& 0x8000) ∧
      (inUse s.core.nv.lc = false → t.core.nv.dev = s.core.nv.dev ∧ t.core.seq = s.core.seq) ∧
      t = { s with
        onyx := t.onyx
        core := { s.core with
          sys := { s.core.sys with erased := t.core.sys.erased, eraseAge := t.core.sys.eraseAge }
          host := t.core.host, recd := t.core.recd, nv := { s.core.nv with dev := t.core.nv.dev }, seq := t.core.seq } }) ∧
    (s.onyx.wipePending = true → s.core.sys.inReset = false → ∃ t, Runs .onyxWiped s t ∧ t.onyx = {} ∧
      t = { s with onyx := {}, core := { s.core with recd := t.core.recd, nv := { s.core.nv with cert := [] } } }) ∧
    (∀ src, tamperErase s.core src = true → s.core.sys.mode = .parked → s.core.sys.inReset = false → s.core.sys.flush = none →
      ∃ t u, Runs (.tamperDetect src) s t ∧ AfterReset .parked u t ∧ u = { s with onyx := {}, core := u.core } ∧
        u.core.nv = { s.core.nv with cert := [], dev := u.core.nv.dev } ∧ (inUse s.core.nv.lc = true → u.core.nv.dev.set = true) ∧
        u.core.bar = s.core.bar) ∧
    (s.onyx.wipePending = false → Runs .onyxWiped s s) ∧
    ∀ late : Bool,
      let ripe : Prop := if late = true then 80000 ≤ s.core.sys.eraseAge else anyMoving s.core = false
      (s.core.sys.erased = true → stepsIn s.core.sys.mode = true → s.core.sys.inReset = false → resetting s.core = false → ripe →
        ∃ t, Runs (.tamperLockout late) s t ∧ t.core.sys.mode = .lockout ∧ t.core.sys.cause = 0xA2 ∧ t.core.sys.erased = false) ∧
      ((s.core.sys.erased = false ∨ stepsIn s.core.sys.mode = false ∨ s.core.sys.inReset = true ∨ resetting s.core = true ∨ ¬ripe) →
        Runs (.tamperLockout late) s s)

/-- The set-up registers. Each address register holds its _LO half and commits both halves, alignment bits 0, with _HI; the flow
table and the doorbell address disable every flow, the heartbeat address only forgets the reference, and the others change the
register alone. A PERIOD or TIMEOUT in range is taken, another leaves the register. The lock refuses the addresses, the TIMEOUT and
itself but not the PERIOD. No write acts in reset, in SAFE_TALK or before 25 ms have passed since the release; `s` is the state with
what the access finds out about that. The commands `hpFlowTableBase`, `hpDbBase`, `hpMirrorBase`, `hpHbAddr`, `cpLibBase`,
`hpPollNormal`, `hpHbTimeout` and `sysLock` complete (R51, R52, R469, R470, R473, R475, R476, R477). -/
def Obligations.SetupRegisters : Prop :=
  ∀ (s₀ : State) (v : U32),
    let s := atPort s₀
    (∀ r ∈ [(Instr.hpFlowTableBase, 0x100, 12), (.hpDbBase, 0x108, 6), (.hpMirrorBase, 0x110, 12), (.hpHbAddr, 0x118, 2),
        (.cpLibBase, 0x130, 12)],
      ((s.core.bar.lock = true ∨ barOpen s.core = false) → ∀ hi, Runs (r.1 hi v) s₀ s) ∧
      (s.core.bar.lock = false → barOpen s.core = true →
        (∃ t, Runs (r.1 false v) s₀ t ∧ tget 0 t.core.bar.held r.2.1 = v ∧
          (∀ o, o ≠ r.2.1 → tget 0 t.core.bar.held o = tget 0 s.core.bar.held o) ∧
          t = { s with core := { s.core with bar := { s.core.bar with held := t.core.bar.held } } }) ∧
        ∃ t, Runs (r.1 true v) s₀ t ∧
          (addrReg t.core.bar r.2.1).toNat = (v.toNat * 2 ^ 32 + (tget 0 s.core.bar.held r.2.1).toNat) / 2 ^ r.2.2 * 2 ^ r.2.2 ∧
          (∀ o, o ≠ r.2.1 → addrReg t.core.bar o = addrReg s.core.bar o) ∧
          (r.2.1 < 0x110 → ∀ n, n < 256 → (flowAt t.core n).state = .disabled ∧
            ((flowAt s.core n).state ≠ .disabled → (flowAt t.core n).gen = (flowAt s.core n).gen + 1)) ∧
          t = { s with core := { s.core with
            bar := { s.core.bar with
              flowTable := t.core.bar.flowTable, db := t.core.bar.db, mirror := t.core.bar.mirror, hb := t.core.bar.hb
              lib := t.core.bar.lib }
            host := { s.core.host with
              flows := if r.2.1 < 0x110 then t.core.host.flows else s.core.host.flows
              fetchQ := if r.2.1 < 0x110 then t.core.host.fetchQ else s.core.host.fetchQ
              hbRef := if r.2.1 = 0x118 then none else s.core.host.hbRef } } })) ∧
    (∃ t, Runs (.hpPollNormal v) s₀ t ∧
      t.core.bar.poll =
        (if barOpen s.core = true ∧ 1 ≤ v.toNat % 1024 ∧ v.toNat % 1024 ≤ 1000 then v.toNat % 1024 else s.core.bar.poll) ∧
      t = { s with core := { s.core with bar := { s.core.bar with poll := t.core.bar.poll } } }) ∧
    (∃ t, Runs (.hpHbTimeout v) s₀ t ∧
      t.core.bar.timeout =
        (if barOpen s.core = true ∧ s.core.bar.lock = false ∧ 10 ≤ v.toNat % 16384 ∧ v.toNat % 16384 ≤ 10000 then v.toNat % 16384
          else s.core.bar.timeout) ∧
      t = { s with core := { s.core with bar := { s.core.bar with timeout := t.core.bar.timeout } } }) ∧
    ∃ t, Runs (.sysLock v) s₀ t ∧ t.core.bar.lock = (s.core.bar.lock || (barOpen s.core && v.getLsbD 0)) ∧
      t = { s with core := { s.core with bar := { s.core.bar with lock := t.core.bar.lock } } }

/-- Accesses to BAR0. A write under partial byte enables or to an offset without a register changes no register; a write of all four
bytes of a register is the command of that register, a flow command replaces the pending one of its flow, and MEM_DIAG_SEL takes
its seven bits. A read before the port answers gets Request Retry Status; after that it answers the register; of a read-only 64-bit
register the _LO half latches the upper half, which _HI then shows whatever the register becomes. The commands `bar0Write` and
`loReadLatch` complete (R51, R444, R469, R470, R471, R472, R478). -/
def Obligations.BarAccess : Prop :=
  ∀ (s₀ : State) (v : U32),
    let s := atPort s₀
    (∀ off be, be ≠ 0xF → Runs (.bar0Write off v be) s₀ s₀) ∧
    (∀ off : BitVec 16, off.toNat ∉ [0x40, 0x44, 0x100, 0x104, 0x108, 0x10C, 0x110, 0x114, 0x118, 0x11C, 0x120, 0x124, 0x128, 0x130,
      0x134, 0x140] → Runs (.bar0Write off v 0xF) s₀ s) ∧
    (∀ r ∈ [(0x100, Instr.hpFlowTableBase false v), (0x104, .hpFlowTableBase true v), (0x108, .hpDbBase false v),
        (0x10C, .hpDbBase true v), (0x110, .hpMirrorBase false v), (0x114, .hpMirrorBase true v), (0x118, .hpHbAddr false v),
        (0x11C, .hpHbAddr true v), (0x120, .hpPollNormal v), (0x124, .hpHbTimeout v), (0x130, .cpLibBase false v),
        (0x134, .cpLibBase true v), (0x40, .sysLock v), (0x44, .sysReset v)],
      ∀ t, Runs (.bar0Write r.1 v 0xF) s₀ t ↔ Runs r.2 s₀ t) ∧
    (∃ t, Runs (.bar0Write 0x128 v 0xF) s₀ t ∧
      (flowAt t.core (v.toNat % 256)).cmd % 4 = (if barOpen s.core = true ∧ (v.toNat / 256 % 4 = 1 ∨ v.toNat / 256 % 4 = 2)
        then v.toNat / 256 % 4 else (flowAt s.core (v.toNat % 256)).cmd % 4) ∧
      (∀ n, n ≠ v.toNat % 256 → flowAt t.core n = flowAt s.core n) ∧
      flowAt t.core (v.toNat % 256) =
        { flowAt s.core (v.toNat % 256) with cmd := (flowAt t.core (v.toNat % 256)).cmd } ∧
      t = { s with core := { s.core with host := { s.core.host with flows := t.core.host.flows } } }) ∧
    (∃ t, Runs (.bar0Write 0x140 v 0xF) s₀ t ∧
      t.core.bar.diagSel = (if barOpen s.core = true then v.toNat % 128 else s.core.bar.diagSel) ∧
      t = { s with core := { s.core with bar := { s.core.bar with diagSel := t.core.bar.diagSel } } }) ∧
    ∀ off : BitVec 16,
      (s₀.core.sys.inReset = true → Runs (.loReadLatch off) s₀ s₀) ∧
      (s₀.core.sys.inReset = false → s.core.sys.early = true → Runs (.loReadLatch off) s₀ { s with core := emit .barRetry s.core }) ∧
      (s₀.core.sys.inReset = false → s.core.sys.early = false →
        (roReg s.core off.toNat = none →
          Runs (.loReadLatch off) s₀ { s with core := emit (.bar (BitVec.ofNat 32 (barRead s.core off.toNat))) s.core }) ∧
        ∀ w, roReg s.core off.toNat = some w → ∃ t, Runs (.loReadLatch off) s₀ t ∧
          (∃ x, t.core.out = .bar x :: s.core.out ∧ x.toNat = w % 2 ^ 32) ∧
          (∀ c, c.bar.latched = t.core.bar.latched → barRead c (off.toNat + 4) = w / 2 ^ 32 % 2 ^ 32) ∧
          t = { s with core := { s.core with bar := { s.core.bar with latched := t.core.bar.latched }, out := t.core.out } })

/-- Flow commands. A command waits for SELFTEST to end and for the lower flows. DISABLE disables its flow at once; LOAD disables it
first, is ERROR 10 without both bases, and otherwise reads the doorbell word and the entry, of which the first check that fails decides
the state of the flow; that an unreadable doorbell word is cause 6, and that data of another length are a failed read, is
log 9. The other flows stay. The commands `load`, `disable` and `flowEntryRead` complete (R77, R78, R79, R80, R102,
R478, R479). -/
def Obligations.FlowCommands : Prop :=
  ∀ (s : State) (n : Fin 256),
    let f := flowAt s.core n
    (cmdStarts s.core n 1 = false → Runs (.load n) s s) ∧
    (cmdStarts s.core n 2 = false → Runs (.disable n) s s) ∧
    (cmdStarts s.core n 2 = true → ∃ t, Runs (.disable n) s t ∧
      flowAt t.core n = { f with state := .disabled, cause := 0, gen := f.gen + 1, fails := 0, cmd := 0 } ∧
      (∀ m, m ≠ n.val → flowAt t.core m = flowAt s.core m) ∧
      t.core.host.fetchQ = s.core.host.fetchQ.filter (fun e => e.1 != n.val) ∧
      t = { s with core := { s.core with
        host := { s.core.host with flows := t.core.host.flows, fetchQ := t.core.host.fetchQ } } }) ∧
    (cmdStarts s.core n 1 = true → ∃ t, Runs (.load n) s t ∧
      ((s.core.bar.flowTable = 0 ∨ s.core.bar.db = 0) → t.core.out = s.core.out ∧
        flowAt t.core n = { f with state := .error, cause := 10, gen := f.gen + 1, fails := 0, cmd := 0 }) ∧
      (s.core.bar.flowTable ≠ 0 → s.core.bar.db ≠ 0 →
        flowAt t.core n = { f with state := .disabled, cause := 0, gen := f.gen + 1, fails := 0, cmd := 4 } ∧
        t.core.out = (if portUp s.core then [.hostRead (s.core.bar.db.toNat + 4 * n.val) 4,
          .hostRead (s.core.bar.flowTable.toNat + 64 * n.val) 64] else []) ++ s.core.out) ∧
      (∀ m, m ≠ n.val → flowAt t.core m = flowAt s.core m) ∧
      t.core.host.fetchQ = s.core.host.fetchQ.filter (fun e => e.1 != n.val) ∧
      t = { s with core := { s.core with
        host := { s.core.host with flows := t.core.host.flows, fetchQ := t.core.host.fetchQ }, out := t.core.out } }) ∧
    (∀ entry db, f.cmd < 4 → Runs (.flowEntryRead n entry db) s s) ∧
    (∀ e db t, e.length ≠ 64 → (Runs (.flowEntryRead n (some e) db) s t ↔ Runs (.flowEntryRead n none db) s t)) ∧
    (∀ db, 4 ≤ f.cmd → ∃ t, Runs (.flowEntryRead n none db) s t ∧ (flowAt t.core n).state = .error ∧ (flowAt t.core n).cause = 6) ∧
    ∀ e db, e.length = 64 → 4 ≤ f.cmd → ∃ t, Runs (.flowEntryRead n (some e) db) s t ∧
      (let g := flowAt t.core n
       let intact := field e 60 4 = crc32c (slice e 0 60) ∧ allZero (slice e 23 37) = true
       let sized := ringSize (field e 16 2) = true ∧ ringSize (field e 18 2) = true
       let classed := ((n.val < 8 ∧ byteAt e 20 = 0) ∨ (8 ≤ n.val ∧ byteAt e 20 ≠ 0)) ∧ byteAt e 20 ≤ 3
       let aligned := field e 0 8 % 64 = 0 ∧ field e 8 8 % 32 = 0
       (¬ intact → g.state = .error ∧ g.cause = 1) ∧
       (intact → ¬ sized → g.state = .error ∧ g.cause = 2) ∧
       (intact → sized → ¬ classed → g.state = .error ∧ g.cause = 3) ∧
       (intact → sized → classed → ¬ aligned → g.state = .error ∧ g.cause = 4) ∧
       (intact → sized → classed → aligned →
         ((field e 16 2 = 0 ∨ field e 18 2 = 0) → g.state = .disabled) ∧
         (field e 16 2 ≠ 0 → field e 18 2 ≠ 0 →
           (db = none → g.state = .error ∧ g.cause = 6) ∧
           (∀ w, db = some w → w ≠ 0 → g.state = .error ∧ g.cause = 5) ∧
           (db = some 0 →
             g = { f with
               state := if byteAt e 21 = 0 then .suspended else .enabled
               cmd := f.cmd % 4, sqBase := field e 0 8, cqBase := field e 8 8, sqSize := field e 16 2, cqSize := field e 18 2
               cls := byteAt e 20, quota := byteAt e 21, epoch := byteAt e 22, st := 0, sh := 0, ct := 0, ch := 0, cause := 0
               fails := 0 }))) ∧
       g.gen = f.gen) ∧
      (∀ m, m ≠ n.val → flowAt t.core m = flowAt s.core m) ∧
      t = { s with core := { s.core with host := { s.core.host with flows := t.core.host.flows } } }

/-- The host link and the heartbeat. A link event disables every flow, clears Bus Master Enable (log 31) and keeps the mode and the
set-up registers; a link that is down has no speed and no width. Bus Master Enable over a link that is up is taken as it is; the model
trains a link that is down first (log 32), to a speed of 1 to 3 and a width of 1 or 2, with permitted payload and read sizes; every LOAD
that waited for the port reads now. The first heartbeat read sets the reference, a failed one only counts, and a changed word ends
HOST_LOST with a record. A completion timeout is the failed read of its purpose; which read timed out is the command's operand
(log 23). The commands `pcieLinkEvent`, `busMasterEnable`, `heartbeatRead` and `completionTimeout` complete (R72, R75, R76, R78, R102,
R103, R104, R476). -/
def Obligations.HostLink : Prop :=
  ∀ s : State,
    (∀ down, ∃ t, Runs (.pcieLinkEvent down) s t ∧ t.core.bar = { s.core.bar with
        bme := false, linkUp := s.core.bar.linkUp && !down
        speed := if down then 0 else s.core.bar.speed, width := if down then 0 else s.core.bar.width } ∧
      (∀ n, n < 256 → (flowAt t.core n).state = .disabled ∧
        ((flowAt s.core n).state ≠ .disabled → (flowAt t.core n).gen = (flowAt s.core n).gen + 1)) ∧
      t = { s with core := { s.core with
        bar := t.core.bar, host := { s.core.host with flows := t.core.host.flows, fetchQ := t.core.host.fetchQ } } }) ∧
    ((s.core.sys.inReset = true ∨ s.core.bar.bme = true) → Runs .busMasterEnable s s) ∧
    (s.core.sys.inReset = false → s.core.bar.bme = false → ∃ t, Runs .busMasterEnable s t ∧
      (s.core.bar.linkUp = true → t.core.bar = { s.core.bar with bme := true } ∧ t.core.free = s.core.free) ∧
      (s.core.bar.linkUp = false → 1 ≤ t.core.bar.speed ∧ t.core.bar.speed ≤ 3 ∧ 1 ≤ t.core.bar.width ∧ t.core.bar.width ≤ 2 ∧
        (t.core.bar.mps = 128 ∨ t.core.bar.mps = 256) ∧ (∃ k, k < 6 ∧ t.core.bar.mrrs = 128 * 2 ^ k) ∧
        t.core.bar = { s.core.bar with
          bme := true, linkUp := true, speed := t.core.bar.speed, width := t.core.bar.width, mps := t.core.bar.mps
          mrrs := t.core.bar.mrrs }) ∧
      (∀ n, n < 256 → 4 ≤ (flowAt s.core n).cmd → Output.hostRead (s.core.bar.flowTable.toNat + 64 * n) 64 ∈ t.core.out ∧
        Output.hostRead (s.core.bar.db.toNat + 4 * n) 4 ∈ t.core.out) ∧
      ((∀ n, n < 256 → (flowAt s.core n).cmd < 4) → t.core.out = s.core.out) ∧
      t = { s with core := { s.core with bar := t.core.bar, out := t.core.out, free := t.core.free } }) ∧
    (∀ w, (s.core.sys.inReset = true ∨ s.core.sys.mode = .selftest ∨ s.core.sys.mode = .parked ∨ s.core.bar.hb = 0) →
      Runs (.heartbeatRead w) s s) ∧
    (s.core.sys.inReset = false → s.core.sys.mode ≠ .selftest → s.core.sys.mode ≠ .parked → s.core.bar.hb ≠ 0 →
      Runs (.heartbeatRead none) s { s with core := hpCount 32 s.core } ∧
      ∀ v,
        (s.core.host.hbRef = none → Runs (.heartbeatRead (some v)) s
          { s with core := { s.core with host := { s.core.host with hbRef := some v } } }) ∧
        (s.core.host.hbRef = some v → Runs (.heartbeatRead (some v)) s s) ∧
        ∀ r, s.core.host.hbRef = some r → v ≠ r → ∃ t, Runs (.heartbeatRead (some v)) s t ∧ t.core.sys.hostLost = false ∧
          t.core.seq.due = s.core.seq.due.filter (· != Due.hostLost) ∧
          t.core.recd = (if s.core.sys.hostLost = true then
            (event 0x012 0x01 [] { s.core with sys := { s.core.sys with hostLost := false } }).recd else s.core.recd) ∧
          t = { s with core := { s.core with
            sys := { s.core.sys with hostLost := false }
            host := { s.core.host with hbRef := some v, hbSame := 0 }
            seq := { s.core.seq with due := t.core.seq.due }
            recd := t.core.recd } }) ∧
    ∀ arg,
      (∀ t, Runs (.completionTimeout 0 arg) s t ↔ Runs (.doorbellData (Fin.ofNat 16 arg) none) s t) ∧
      (∀ t, Runs (.completionTimeout 1 arg) s t ↔ Runs (.descriptorFetch none) s t) ∧
      (∀ t, Runs (.completionTimeout 2 arg) s t ↔ Runs (.heartbeatRead none) s t) ∧
      (∀ t, Runs (.completionTimeout 3 arg) s t ↔ Runs (.flowEntryRead (Fin.ofNat 256 arg) none none) s t) ∧
      (∀ t, Runs (.completionTimeout 4 arg) s t ↔ Runs (.pageIn none) s t) ∧
      Runs (.completionTimeout 5 arg) s s ∧
      ∀ req, ∃ t, Runs (.completionTimeout req arg) s t ∧ t = { s with core := t.core }

/-- Doorbells. A poll reads each block that holds a flow in use. A word reaches its flow, or is ERROR 7 where the tail or the
head runs beyond its ring; a failed read, which data of another length than a block's are taken for (log 9), leaves every index,
counts, and is recorded once a second. Then, with no service in progress (one at a time, log 32), the flow that may be served goes: the lowest urgent flow,
else the best class, which waits while an urgent completion can be written; each of its reads ends at the ring's end, at a 4 KiB boundary
or at the read limit of the link, and together they fetch what the flow may take. The commands `doorbellPollUrgent`,
`doorbellPollNormal` and `doorbellData` complete (R72, R81, R83, R88, R90, R91, R92, R96, R97, R102). -/
def Obligations.Doorbells : Prop :=
  ∀ s : State,
    (∃ t, Runs .doorbellPollUrgent s t ∧
      (let on := blockOn s.core 0 = true ∧ portUp s.core = true ∧ serves s.core.sys.mode = true
       (on → t = { s with core := emit (.hostRead s.core.bar.db.toNat 64) (hpCount 0 s.core) }) ∧ (¬ on → t = s))) ∧
    (∃ t, Runs .doorbellPollNormal s t ∧
      t.core.out = (if portUp s.core = true ∧ serves s.core.sys.mode = true then
        ((List.range 15).filter fun b => blockOn s.core (b + 1)).reverse.map fun b =>
          Output.hostRead (s.core.bar.db.toNat + 64 * (b + 1)) 64 else []) ++ s.core.out ∧
      t = { s with core := { s.core with host := { s.core.host with counters := t.core.host.counters }, out := t.core.out } }) ∧
    (∀ b d, (serves s.core.sys.mode = false ∨ s.core.sys.inReset = true) → Runs (.doorbellData b d) s s) ∧
    (∀ b d t, d.length ≠ 64 → (Runs (.doorbellData b (some d)) s t ↔ Runs (.doorbellData b none) s t)) ∧
    (serves s.core.sys.mode = true → s.core.sys.inReset = false →
      (∀ b, ∃ t, Runs (.doorbellData b none) s t ∧
        tget 0 t.core.host.counters 4 = tget 0 s.core.host.counters 4 + 1 ∧
        (let late := tget 0 s.core.host.dbFail b = 0 ∨ tget 0 s.core.host.dbFail b + 999 ≤ s.core.nv.opMs
         tget 0 t.core.host.dbFail b = (if late then s.core.nv.opMs + 1 else tget 0 s.core.host.dbFail b) ∧
         t.core.recd = if late then (event 0x010 0x01 [b.val] s.core).recd else s.core.recd) ∧
        t = { s with core := { s.core with
          recd := t.core.recd
          host := { s.core.host with counters := t.core.host.counters, dbFail := t.core.host.dbFail } } }) ∧
      ∀ (b : Fin 16) (d : Bytes), d.length = 64 → ∃ t, Runs (.doorbellData b (some d)) s t ∧
        (∀ n, n / 16 ≠ b.val ∨ flowOn (flowAt s.core n) = false → flowAt t.core n = flowAt s.core n) ∧
        (∀ n, n / 16 = b.val → flowOn (flowAt s.core n) = true →
          let f := flowAt s.core n
          let st := BitVec.ofNat 16 (field d (4 * (n % 16)) 4)
          let ch := BitVec.ofNat 16 (field d (4 * (n % 16)) 4 / 65536)
          flowAt t.core n = if f.sqSize < (st - f.sh).toNat ∨ f.cqSize < (f.ct - ch).toNat then { f with state := .error, cause := 7 }
            else { f with st, ch }) ∧
        t.core.host.skip = [] ∧
        (s.core.host.fetchQ = [] → portUp s.core = true → s.core.sys.flush = none →
          ((∀ n, n < 256 → mayTake t.core n = 0) → t.core.host.fetchQ = [] ∧ t.core.out = s.core.out) ∧
          ((∀ n, n < 8 → mayTake t.core n = 0) → urgentWaits t.core = true → t.core.host.fetchQ = [] ∧ t.core.out = s.core.out) ∧
          ((∃ n, n < 256 ∧ 0 < mayTake t.core n ∧ (n < 8 ∨ ((flowAt t.core n).cls = 1 ∨ (flowAt t.core n).cls = 2 ∨ (flowAt t.core n).cls = 3))) →
            ((∃ n, n < 8 ∧ 0 < mayTake t.core n) ∨ urgentWaits t.core = false) →
            ∃ n, n < 256 ∧ 0 < mayTake t.core n ∧
            (n < 8 → ∀ m, m < n → mayTake t.core m = 0) ∧
            (8 ≤ n → (∀ m, m < 8 → mayTake t.core m = 0) ∧
              ∀ m, 8 ≤ m → m < 256 → 1 ≤ (flowAt t.core m).cls → (flowAt t.core m).cls < (flowAt t.core n).cls → mayTake t.core m = 0) ∧
            (let f := flowAt t.core n
             let room (i : U16) := max 1 (min (min (f.sqSize - i.toNat % f.sqSize)
               ((4096 - (f.sqBase + 64 * (i.toNat % f.sqSize)) % 4096) / 64)) (readMax t.core / 64))
             (∀ e ∈ t.core.host.fetchQ, e.1 = n ∧ 1 ≤ e.2.2 ∧ e.2.2 ≤ room e.2.1) ∧
             (t.core.host.fetchQ.map (·.2.2)).sum = mayTake t.core n ∧
             t.core.out = .hostRead (f.sqBase + 64 * (f.sh.toNat % f.sqSize)) (64 * min (mayTake t.core n) (room f.sh)) :: s.core.out))) ∧
        t = { s with core := { s.core with
          host := { s.core.host with
            flows := t.core.host.flows, fetchQ := t.core.host.fetchQ, last := t.core.host.last, counters := t.core.host.counters
            fetchDue := t.core.host.fetchDue, skip := [] }
          out := t.core.out } })

/-- Descriptors and completions. A failed fetch, which descriptors of another length than 64 bytes are taken for (log 9), leaves the
head and counts, the third is ERROR 8, and the other flows are served on, this one with the next doorbell data (log 32); an answer
to no fetch, or with another number of descriptors than were read, changes nothing (log 9). A fetched descriptor takes a slot of its class and passes the head; the first check of R111
that fails ends it at once, and an accepted one waits. A completion goes into a free entry only, urgent flows first, with the layout
and the phase bit of the ring; its slot is released, and fetches that had waited for it go on. One of a flow that was disabled or
loaded since is discarded. The commands `descriptorFetch` and `completionWrite` complete (R80, R85, R86, R92, R93, R94, R95, R97, R106,
R107, R108, R110, R111). -/
def Obligations.DescriptorsAndCompletions : Prop :=
  ∀ s : State,
    ((s.core.sys.inReset = true ∨ s.core.host.fetchQ = []) → ∀ items, Runs (.descriptorFetch items) s s) ∧
    (∀ l t, (∃ x ∈ l, x.desc.length ≠ 64) → (Runs (.descriptorFetch (some l)) s t ↔ Runs (.descriptorFetch none) s t)) ∧
    (∀ n i k rest, s.core.sys.inReset = false → s.core.host.fetchQ = (n, i, k) :: rest →
      (∀ l, (∀ x ∈ l, x.desc.length = 64) → l.length ≠ k → Runs (.descriptorFetch (some l)) s s) ∧
      (∃ t, Runs (.descriptorFetch none) s t ∧ (∀ e ∈ t.core.host.fetchQ, e.1 ≠ n) ∧ t.core.host.skip = n :: s.core.host.skip ∧
        (let f := flowAt s.core n
         flowAt t.core n = if f.fails < 2 then { f with fails := f.fails + 1 } else { f with fails := 0, state := .error, cause := 8 }) ∧
        (∀ m, m ≠ n → flowAt t.core m = flowAt s.core m) ∧ t.core.host.slots = s.core.host.slots ∧
        t = { s with core := { s.core with
          host := { s.core.host with
            flows := t.core.host.flows, fetchQ := t.core.host.fetchQ, last := t.core.host.last, counters := t.core.host.counters
            fetchDue := t.core.host.fetchDue, skip := t.core.host.skip }
          out := t.core.out } }) ∧
      ∀ x j, k = 1 → rest = [] → x.desc.length = 64 → (∀ b, x.auth = some b → b.length = 128) → freeSlot s.core n = some j →
        ∃ t, Runs (.descriptorFetch (some [x])) s t ∧
          (flowAt t.core n) = { flowAt s.core n with sh := (flowAt s.core n).sh + 1, fails := 0 } ∧
          (∀ m, m ≠ n → flowAt t.core m = flowAt s.core m) ∧
          (∀ m, m ≠ j → slotAt t.core m = slotAt s.core m) ∧
          t.core.nv = { s.core.nv with auth := (checkDesc s.core n x).2.getD s.core.nv.auth } ∧
          (∃ y, slotAt t.core j = some y ∧ y.flow = n ∧ y.gen = (flowAt s.core n).gen ∧ y.sqIndex = (flowAt s.core n).sh ∧
            y.fEpoch = (flowAt s.core n).epoch ∧ y.desc = x.desc ∧ y.data = x.data ∧ y.started = false ∧
            ((checkDesc s.core n x).1 = .accept → y.done = none) ∧
            ∀ st d, (checkDesc s.core n x).1 = .reject st d → Ended j st d 0 0 t.core) ∧
          t = { s with core := { s.core with nv := t.core.nv, host := t.core.host, out := t.core.out } }) ∧
    (∀ n x, let d := x.desc
      let c := s.core
      (field d 60 4 ≠ crc32c (slice d 0 60) → checkDesc c n x = (.reject 0x10 0, none)) ∧
      (∀ a, (checkDesc c n x).1 = .accept → (checkDesc c n x).2 = some a → opAuth c.sys.mode d = true ∧
        ∃ b, x.auth = some b ∧ a.toNat = field b 24 4 % 2 ^ 32 ∧ c.nv.auth.toNat < field b 24 4) ∧
      ((checkDesc c n x).1 = .accept →
        (∃ i, opInfo (byteAt d 0) = some i ∧ i.modes.contains c.sys.mode = true ∧ (c.sys.mode = .shadow → i.kind = .read)) ∧
        (bitOf (byteAt d 1) 0 = true → field d 2 2 = c.nv.epoch.toNat) ∧
        (opAuth c.sys.mode d = authBit d) ∧ opRange d = none ∧ lockedPortal c d = none ∧ (flowAt c n).quota ≠ 0 ∧
        conflicts c d = false)) ∧
    (s.core.sys.inReset = true → Runs .completionWrite s s) ∧
    (s.core.sys.inReset = false →
      (∀ k x e, slotAt s.core k = some x → x.done = some e → (flowAt s.core x.flow).gen ≠ x.gen → ∃ t, Runs .completionWrite s t ∧
        slotAt t.core k = none) ∧
      ((∀ y, y ∈ finished s.core → stale s.core y.2.1 = false) →
      ((portUp s.core = false ∨ s.core.sys.flush ≠ none ∨ nextCompletion s.core = none) → ∃ t, Runs .completionWrite s t ∧
        (s.core.host.fetchDue = false → t = s) ∧
        t = { s with core := { s.core with
          host := { s.core.host with
            fetchQ := t.core.host.fetchQ, last := t.core.host.last, counters := t.core.host.counters
            fetchDue := t.core.host.fetchDue }
          out := t.core.out } }) ∧
      ∀ k x e, nextCompletion s.core = some (k, x, e) → portUp s.core = true → s.core.sys.flush = none →
        let f := flowAt s.core x.flow
        (f.ct - f.ch).toNat < f.cqSize ∧
        (∀ y, y ∈ finished s.core → entryFree (flowAt s.core y.2.1.flow) = true →
          (8 ≤ x.flow → 8 ≤ y.2.1.flow) ∧ ((8 ≤ x.flow ∨ y.2.1.flow < 8) → e.order ≤ y.2.2.order)) ∧
        ∃ t b l, Runs .completionWrite s t ∧ (s.core.host.fetchDue = false → l = []) ∧
          t.core.out = l ++ .hostWrite (f.cqBase + 32 * (f.ct.toNat % f.cqSize)) b :: s.core.out ∧ b.length = 32 ∧
          slice b 0 4 = slice x.desc 4 4 ∧ field b 4 2 = x.sqIndex.toNat ∧ field b 6 1 = x.fEpoch % 256 ∧ field b 7 1 = e.status % 256 ∧
          field b 8 1 = (if x.crcBad then 0 else byteAt x.desc 0) ∧ field b 9 1 = e.detail % 256 ∧ field b 10 2 = e.epoch.toNat ∧
          field b 12 4 = e.r0 % 2 ^ 32 ∧ field b 16 4 = e.r1 % 2 ^ 32 ∧ field b 20 8 = e.stamp.toNat ∧
          field b 28 2 = f.sh.toNat ∧ field b 31 1 = (if bitOf f.ct.toNat f.cqSize.log2 then 0 else 128) ∧
          flowAt t.core x.flow = { f with ct := f.ct + 1 } ∧ slotAt t.core k = none ∧
          (∀ m, m ≠ x.flow → flowAt t.core m = flowAt s.core m) ∧ (∀ m, m ≠ k → slotAt t.core m = slotAt s.core m) ∧
          t = { s with core := { s.core with
            host := { s.core.host with
              flows := t.core.host.flows, slots := t.core.host.slots, counters := t.core.host.counters
              fetchQ := t.core.host.fetchQ, last := t.core.host.last, fetchDue := t.core.host.fetchDue }
            out := t.core.out } }))

/-- Operations that only report. Nothing starts in a slot that holds no accepted, unstarted operation of the opcode whose turn it
is. ECHO returns its operands; JOURNAL_READ gives pointers, NOT_FOUND, or the records of its range with PARTIAL where fewer
exist; TIME_ANNOTATE stages its TIME_SET record, which holds the old and the new UTC and ends the operation when it is written, or ends
STORE_FULL where the event log has stopped; STATS_READ, DIAG_READ and CERT_READ write their data and return its length; a
zero-length transfer is OK without one. SELFTEST_RUN runs steps 5 and 6 at once, whose durations are free values (log 5), or asks for a
reset where no portal of a claiming unit moves. The commands `echo`, `journalRead`, `statsRead`, `timeAnnotate`, `certRead`,
`selftestRun` and `diagRead` complete (R48, R94, R107, R115, R120, R122, R408, R435, R436, R461). -/
def Obligations.ReadOperations : Prop :=
  ∀ (s : State) (k : Fin 512),
    (∀ r ∈ [(Instr.echo k, 0x01), (.portalRequest k, 0x10), (.portalStop k, 0x11), (.carRequest k, 0x12), (.setFlags k, 0x18),
        (.loadConfig k, 0x20), (.loadProgram k, 0x21), (.camDirectory k [], 0x22), (.camPrefetch k, 0x23), (.camPin k, 0x24),
        (.camUnpin k, 0x25), (.journalRead k, 0x30), (.statsRead k, 0x31), (.timeAnnotate k, 0x32), (.manualMove k, 0x38),
        (.learnBaseline k, 0x40), (.fieldForce k, 0x48), (.lockoutReset k, 0x50), (.roleRequest k, 0x58), (.keyInstall k, 0x60),
        (.lifecycleAdvance k, 0x61), (.certRead k, 0x62), (.selftestRun k, 0x70), (.diagRead k, 0x7F)],
      (∀ x, ¬ Ready k r.2 x s.core) → Runs r.1 s s) ∧
    (∀ x, Ready k 0x32 x s.core → s.core.recd.stoppedE = false → ∃ t, Runs (.timeAnnotate k) s t ∧
      slotAt t.core k = some { x with started := true, visible := s.core.seq.now + 1 } ∧
      (∀ j, j ≠ k.val → slotAt t.core j = slotAt s.core j) ∧
      (s.core.recd.failed = false → s.core.recd.powerFail = false → s.core.recd.fifo.length < 248 →
        (let new := field x.desc 8 8
         let old := oldUtc s.core
         t.core.recd.fifo = s.core.recd.fifo ++ [{
          cycle := false, sev := 2, code := 0x0B0, slot := some k.val
          bytes := eventBytes (stampOf s.core) 0x0B0 0x0D 2 [old % 2 ^ 32, old / 2 ^ 32, new % 2 ^ 32, new / 2 ^ 32] }])) ∧
      t = { s with core := { s.core with
        host := { s.core.host with slots := t.core.host.slots }, recd := t.core.recd, twin.carry := t.core.twin.carry } }) ∧
    (∀ x, Ready k 0x32 x s.core → s.core.recd.stoppedE = true → ∃ t, Runs (.timeAnnotate k) s t ∧
      EndsOp k x 0x60 0 0 0 s.core t.core ∧ t = { s with core := t.core }) ∧
    (∀ x, Ready k 0x01 x s.core → ∃ t, Runs (.echo k) s t ∧
      EndsOp k x 0x00 0 (field x.desc 8 4) (field x.desc 12 4) s.core t.core ∧ t = { s with core := t.core }) ∧
    (∀ x, Ready k 0x30 x s.core → ∃ t, Runs (.journalRead k) s t ∧ t = { s with core := t.core } ∧
      (let d := x.desc
       let w := storeW s.store (byteAt d 8)
       let start := field d 12 4
       let count := field d 16 4
       let n := min (start + count) w - start
       ((count = 0 ∨ opLen d = 0) → EndsOp k x 0x00 0 0 w s.core t.core) ∧
       (count ≠ 0 → opLen d ≠ 0 → w ≤ start → EndsOp k x 0x61 0 0 w s.core t.core) ∧
       (count ≠ 0 → opLen d ≠ 0 → start < w → ∃ b,
         EndsOp k x (if n < count then 0x01 else 0x00) (if n < count then 0x02 else 0) n w (hostWrite (opAddr d) b s.core) t.core ∧
         b = ((List.range n).map fun i => storeSlot s.store (byteAt d 8) (start + i)).flatten))) ∧
    (∀ x, Ready k 0x31 x s.core → ∃ t, Runs (.statsRead k) s t ∧ t = { s with core := t.core } ∧
      (opLen x.desc = 0 → EndsOp k x 0x00 0 0 0 s.core t.core) ∧
      (opLen x.desc ≠ 0 →
        let b := statBytes s.core (byteAt x.desc 8) (byteAt x.desc 9)
        b.length = (if byteAt x.desc 9 = 0 then 4096 else 1024) ∧
        EndsOp k x 0x00 0 b.length 0 (hostWrite (opAddr x.desc) b s.core) t.core)) ∧
    (∀ x, Ready k 0x62 x s.core → ∃ t, Runs (.certRead k) s t ∧ t = { s with core := t.core } ∧
      (opLen x.desc = 0 → EndsOp k x 0x00 0 0 0 s.core t.core) ∧
      (opLen x.desc ≠ 0 → ∃ sig,
        (s.onyx.identity = [] → sig = List.replicate 64 0) ∧
        (s.onyx.identity ≠ [] → sig = ecdsaSign s.onyx.identity (sha256 (certHead s)) (drawNoise s.core).1) ∧
        EndsOp k x 0x00 0 s.core.nv.cert.length 0
          (hostWrite (opAddr x.desc) (certHead s ++ sig ++ padTo 832 s.core.nv.cert)
            { s.core with free := if s.onyx.identity = [] then s.core.free else s.core.free + 1 }) t.core)) ∧
    (∀ x, Ready k 0x7F x s.core → ∃ t, Runs (.diagRead k) s t ∧ t = { s with core := t.core } ∧
      (opLen x.desc = 0 → EndsOp k x 0x00 0 0 0 s.core t.core) ∧
      (opLen x.desc ≠ 0 →
        let b := (diagItem (byteAt x.desc 8) { s with core := begun k x s.core }).1
        (byteAt x.desc 8 ≠ 1 → t.core.free = s.core.free ∧ t.core.host.counters = s.core.host.counters) ∧
        EndsOp k x 0x00 0 b.length 0 (hostWrite (opAddr x.desc) b
          { s.core with free := t.core.free, host := { s.core.host with counters := t.core.host.counters } }) t.core)) ∧
    ∀ x, Ready k 0x70 x s.core → ∃ t, Runs (.selftestRun k) s t ∧
      (byteAt x.desc 8 ≠ 0 → claiming s.core = true → anyMoving s.core = true →
        t = { s with core := t.core } ∧ EndsOp k x 0x50 0x03 0 0 s.core t.core) ∧
      (byteAt x.desc 8 ≠ 0 → (claiming s.core = false ∨ anyMoving s.core = false) → t = { s with core := t.core } ∧
        EndsOp k x 0x00 0 0 0 { s.core with sys := { s.core.sys with deferred := true } } t.core) ∧
      (byteAt x.desc 8 = 0 → t.core.sys.stOnline = BitVec.ofNat 64 (stampOf s.core) ∧
        (let five := tget (0, 0, 0) t.core.sys.stRes 5
         let six := tget (0, 0, 0) t.core.sys.stRes 6
         five.1 = (if (imagesFail s).1 = 0 then 1 else 2) ∧ five.2.1 = (imagesFail s).1 ∧
         (six.1 = 1 ∧ six.2.1 = 0 ∨ six.1 = 2 ∧ six.2.1 = 0x50) ∧
         (∀ n, n ≠ 5 → n ≠ 6 → tget (0, 0, 0) t.core.sys.stRes n = tget (0, 0, 0) s.core.sys.stRes n) ∧
         Ended k 0x00 0 ((if five.1 = 1 then 0 else 1) + if six.1 = 1 then 0 else 2) 0 t.core) ∧
        t = { s with
          store := t.store
          core := { s.core with
            sys := { s.core.sys with stRes := t.core.sys.stRes, stOnline := t.core.sys.stOnline }
            recd := t.core.recd, host := { s.core.host with slots := t.core.host.slots, finished := t.core.host.finished }
            twin := { s.core.twin with carry := t.core.twin.carry }, free := t.core.free } })

/-- Operations that reach the channels. PORTAL_REQUEST sets its flag in each portal it names, withdraws HF15 and STOP_REQ, and ends
the parts of the earlier requests there as superseded; where a PORTAL_STOP came in the same tick its own part ends instead.
PORTAL_STOP sets HF15, and with QUICK the STOP_REQ that neither a RAMP nor a request of the same tick withdraws, and ends the requests'
parts. CAR_REQUEST supersedes an earlier one and sets its code's flag. SET_FLAGS sets, then clears, and ends at once. Channels that no
mask names stay, and so do the other flags of the portals. The commands `portalRequest`, `portalStop`, `carRequest` and `setFlags`
complete (R115, R116, R117, R118, R124, R125). -/
def Obligations.ChannelOperations : Prop :=
  ∀ (s : State) (k : Fin 512) (x : SlotSt),
    let d := x.desc
    let named (p : Nat) : Prop := p < 12 ∧ bitOf (field d 8 2) p = true
    let now := s.core.seq.now
    let framed (t : State) : Prop := t = { s with core := { s.core with
      host := { s.core.host with slots := t.core.host.slots, finished := t.core.host.finished }
      seq := { s.core.seq with channels := t.core.seq.channels }
      twin := { s.core.twin with carry := t.core.twin.carry } } }
    let kept (t : State) (i : Nat → Prop) (p : Nat) : Prop :=
      ∀ b, 4 ≤ b → ¬ i b → (chAt t.core p).hf.getLsbD b = (chAt s.core p).hf.getLsbD b
    let others (t : State) (code : Nat) : Prop := ∀ j y, j < 512 → j ≠ k.val → slotAt s.core j = some y → ∃ z, slotAt t.core j = some z ∧
      z = { y with ended := z.ended, done := z.done } ∧
      ∀ p, named p → slotOp y = 0x10 → partOpen y p = true → tget 0 z.ended p = code ∧ partOpen z p = false
    (Ready k 0x10 x s.core → x.mask = heldMask d → x.ended = [] → x.reached = 0 → 1 ≤ byteAt d 10 → byteAt d 10 ≤ 4 →
      ∃ t, Runs (.portalRequest k) s t ∧ framed t ∧ others t 0x4000 ∧ (∀ p, ¬ named p → chAt t.core p = chAt s.core p) ∧
        (∀ p, named p → (chAt s.core p).stopAt ≠ some now →
          chAt t.core p = { chAt s.core p with
            hf := (chAt t.core p).hf, stopReq := false, stopAt := none
            quickAt := if (chAt s.core p).stopReq then some now else none } ∧
          (chAt t.core p).hf.getLsbD (byteAt d 10 - 1) = true ∧ (chAt t.core p).hf.getLsbD 15 = false ∧ kept t (· = 15) p) ∧
        (∀ p, named p → (chAt s.core p).stopAt = some now →
          chAt t.core p = { chAt s.core p with hf := (chAt t.core p).hf } ∧ kept t (fun _ => False) p) ∧
        ∃ z, slotAt t.core k = some z ∧ z = { x with
            started := true, visible := now + 1, deadline := deadlineOf s.core (field d 12 2), ended := z.ended, done := z.done } ∧
          ∀ p, named p → ((chAt s.core p).stopAt = some now → tget 0 z.ended p = 0x4101 ∧ partOpen z p = false) ∧
            ((chAt s.core p).stopAt ≠ some now → partOpen z p = true)) ∧
    (Ready k 0x11 x s.core → x.mask = heldMask d → x.ended = [] → x.reached = 0 →
      ∃ t, Runs (.portalStop k) s t ∧ framed t ∧ others t 0x4101 ∧ (∀ p, ¬ named p → chAt t.core p = chAt s.core p) ∧
        (∀ p, named p → chAt t.core p = { chAt s.core p with
            hf := (chAt t.core p).hf, stopAt := some now
            stopReq := (chAt s.core p).stopReq || (chAt s.core p).quickAt == some now || byteAt d 10 == 2 } ∧
          (chAt t.core p).hf.getLsbD 15 = true ∧ kept t (· = 15) p) ∧
        ∃ z, slotAt t.core k = some z ∧ z = { x with started := true, visible := now + 1, ended := z.ended, done := z.done } ∧
          ∀ p, named p → partOpen z p = true) ∧
    (Ready k 0x12 x s.core → s.core.seq.carSlot ≠ some k.val → ∃ t, Runs (.carRequest k) s t ∧
      slotAt t.core k = some { x with started := true, visible := now + 1, deadline := deadlineOf s.core (field d 12 2) } ∧
      (∀ j y, s.core.seq.carSlot = some j → slotAt s.core j = some y → y.done = none → j < 512 → Ended j 0x40 0 0 0 t.core) ∧
      (∀ j, j ≠ k.val → s.core.seq.carSlot ≠ some j → slotAt t.core j = slotAt s.core j) ∧
      (∀ p, p ≠ 12 → chAt t.core p = chAt s.core p) ∧ chAt t.core 12 = { chAt s.core 12 with hf := (chAt t.core 12).hf } ∧
      (s.core.seq.carSlot = none → (chAt t.core 12).hf = setBit (chAt s.core 12).hf (byteAt d 8) true) ∧
      (∀ j y, s.core.seq.carSlot = some j → slotAt s.core j = some y →
        (chAt t.core 12).hf = setBit (setBit (chAt s.core 12).hf (byteAt y.desc 8) false) (byteAt d 8) true) ∧
      t = { s with core := { s.core with
        host := { s.core.host with slots := t.core.host.slots, finished := t.core.host.finished }
        seq := { s.core.seq with channels := t.core.seq.channels, carSlot := some k.val }
        twin := { s.core.twin with carry := t.core.twin.carry } } }) ∧
    (Ready k 0x18 x s.core → ∃ t, Runs (.setFlags k) s t ∧ t = { s with core := t.core } ∧
      EndsOp k x 0x00 0 (field d 8 2) 0 { s.core with seq := { s.core.seq with channels := t.core.seq.channels } } t.core ∧
      ∀ n, chAt t.core n = if n < 13 ∧ bitOf (field d 8 2) n = true then
          { chAt s.core n with hf := ((chAt s.core n).hf ||| BitVec.ofNat 16 (field d 10 2)) &&& ~~~ BitVec.ofNat 16 (field d 12 2) }
        else chAt s.core n)

/-- Operations on the units. MANUAL_MOVE pre-empts the portal's earlier one and hands the master a target within the soft limits,
a relative one counted from the measured position (log 32);
LEARN_BASELINE arms learning afresh; FIELD_FORCE supersedes or ends the force of its set; LOCKOUT_RESET is refused with DETAIL 8 or
10 or passes its masks on; ROLE_REQUEST enters WORKSHOP or SERVICE, or names the tick of a swap, and while a reset is under way does
nothing more than start; KEY_INSTALL writes its slot or leaves it; LIFECYCLE_ADVANCE is refused, or enters its state: Onyx wiped,
certificate cleared, fuse written from BLANK, an identity key where the table gives one, and a SOFT reset owed. Each leaves the rest as
it was. The commands `manualMove`, `learnBaseline`, `fieldForce`, `lockoutReset`, `roleRequest`, `keyInstall` and `lifecycleAdvance`
complete (R40, R42, R115, R120, R179, R238, R330, R353, R382, R456, R457, R460). -/
def Obligations.UnitOperations : Prop :=
  ∀ (s : State) (k : Fin 512) (x : SlotSt),
    let d := x.desc
    let c := s.core
    let u := byteAt d 8
    let open_ (t : State) : Prop := slotAt t.core k = some { x with started := true, visible := c.seq.now + 1 }
    let book (t : State) : HostSt := { c.host with slots := t.core.host.slots, finished := t.core.host.finished }
    let others (t : State) : Prop := ∀ j, j ≠ k.val → slotAt t.core j = slotAt c j
    (Ready k 0x38 x c → ∃ t, Runs (.manualMove k) s t ∧ open_ t ∧
      let m := msAt c (u / 3)
      let earlier (j : Nat) : Prop := m.slot = some j ∨ (∃ r, m.waiting = some r ∧ r.slot = some j) ∨ ∃ g, m.granted = some g ∧ g.req.slot = some j
      (∀ j y, j ≠ k.val → j < 512 → earlier j → slotAt c j = some y → slotOp y = 0x38 → y.done = none → Ended j 0x40 0 0 0 t.core) ∧
      (∀ j, j ≠ k.val → ¬ earlier j → slotAt t.core j = slotAt c j) ∧ (∀ q, q ≠ u / 3 → msAt t.core q = msAt c q) ∧
      (let asked : Int := (if byteAt d 9 = 1 then 0 else posNow c u) + 256 * signed 32 (field d 12 4)
       ∃ r, msAt t.core (u / 3) = { m with
          waiting := some r, granted := m.granted.filter (fun g => g.req.manual.isNone), slot := none } ∧
        r.cls = 3 ∧ r.slot = some k.val ∧ r.execAt = c.seq.now ∧
        r.manual = some (u, roundDiv (clampI (slMin (cfgOf c) u) (slMax (cfgOf c) u) asked) 256, field d 16 2)) ∧
      t = { s with core := { c with host := book t, seq.masters := t.core.seq.masters, twin.carry := t.core.twin.carry } }) ∧
    (Ready k 0x40 x c → ∃ t, Runs (.learnBaseline k) s t ∧
      (byteAt d 9 % 4 = 0 → t = { s with core := t.core } ∧ EndsOp k x 0x00 0 0 0 c t.core) ∧
      (byteAt d 9 % 4 ≠ 0 → open_ t ∧ others t ∧ (∀ q, q ≠ u → obAt t.core q = obAt c q) ∧
        (let o := obAt t.core u
         o.armed.toNat = byteAt d 9 % 4 ∧ o.cycles = byteAt d 10 ∧ o.opSlot = some k.val ∧ o.learned = [] ∧ o.discarded = [] ∧
          o.accSum = [] ∧ o.accCnt = [] ∧ o.lockSum = 0 ∧ o.lockCnt = 0 ∧
          (∀ e, o.mvDir = some e ↔ (obAt c u).mvDir = some e ∧ o.armed.getLsbD e = false) ∧
          o = { obAt c u with
            armed := o.armed, cycles := o.cycles, opSlot := o.opSlot, learned := [], discarded := [], accSum := [], accCnt := []
            lockSum := 0, lockCnt := 0, mvDir := o.mvDir }) ∧
        t = { s with core := { c with host := book t, seq.obst := t.core.seq.obst, twin.carry := t.core.twin.carry } })) ∧
    (Ready k 0x48 x c → ∃ t, Runs (.fieldForce k) s t ∧
      let v := byteAt d 9
      let was := tget none c.seq.forces u
      let ended (st r0 : Nat) : Prop := (∀ j, j ≠ k.val → (∀ f, was = some f → f.slot ≠ j) → slotAt t.core j = slotAt c j) ∧
        ∀ f y, was = some f → f.slot ≠ k.val → f.slot < 512 → slotAt c f.slot = some y → y.done = none → Ended f.slot st 0 r0 0 t.core
      (fMode (imgPart (cfgOf c) secField 1216) u ≠ 2 → t = { s with core := t.core } ∧ EndsOp k x 0x12 8 0 0 c t.core) ∧
      (fMode (imgPart (cfgOf c) secField 1216) u = 2 →
        (v = 2 → tget none t.core.seq.forces u = none ∧ ended 0x00 (readBack c u) ∧ Ended k 0x00 0 (readBack c u) 0 t.core) ∧
        (v ≠ 2 → tget none t.core.seq.forces u = some ⟨v == 1, 800 * field d 10 2, k.val⟩ ∧ ended 0x40 0 ∧
          ((∀ f, was = some f → f.slot ≠ k.val) → open_ t)) ∧
        (∀ q, q ≠ u → tget none t.core.seq.forces q = tget none c.seq.forces q) ∧
        t = { s with core := { c with host := book t, seq.forces := t.core.seq.forces, twin.carry := t.core.twin.carry } })) ∧
    (Ready k 0x50 x c → ∃ t, Runs (.lockoutReset k) s t ∧
      let pm := field d 8 2
      let im := field d 10 2
      let bad8 := ∃ p, p < 12 ∧ (bitOf pm p = true ∨ bitOf im p = true) ∧
        (chanConf c p = false ∨ movingCode (motionOf c p) = true ∨ manualAt c p = true)
      let bad10 := ∃ p, p < 12 ∧ bitOf im p = true ∧ ((∃ a ∈ portalAxes (cfgOf c) p, (linkAt c a).fault ≠ 0) ∨
        ∃ q ∈ pairsOf (imgPart (cfgOf c) secSafe 2240), p ∈ pairPortals c q ∧ (c.crossA.faulted.getLsbD q = true ∨ c.crossB.faulted.getLsbD q = true))
      (bad8 → t = { s with core := t.core } ∧ EndsOp k x 0x12 8 0 0 c t.core) ∧
      (¬ bad8 → bad10 → t = { s with core := t.core } ∧ EndsOp k x 0x12 10 0 0 c t.core) ∧
      (¬ bad8 → ¬ bad10 → open_ t ∧ others t ∧
        (∃ r, t.core.seq.clearReq = some r ∧ (∀ p, p < 12 → (r.pm.getLsbD p = pm.testBit p ∧ r.im.getLsbD p = im.testBit p)) ∧
          r.slot = k.val ∧ r.fresh = true) ∧
        t = { s with core := { c with host := book t, seq.clearReq := t.core.seq.clearReq, twin.carry := t.core.twin.carry } })) ∧
    (Ready k 0x58 x c → ∃ t, Runs (.roleRequest k) s t ∧
      let moved (m : Mode) : Prop := t.core.sys.mode = m ∧
        ((∀ y, (k.val, some y) ∈ c.host.slots → slotOp y = 0x58) → Ended k 0x00 0 c.nv.epoch.toNat (modeCode m) t.core) ∧
        t = { s with core := { c with
          sys := { c.sys with mode := m, wsRelease := t.core.sys.wsRelease }, recd := t.core.recd, tb := (endDiscipline m c).tb
          twin := { (endDiscipline m c).twin with role := t.core.twin.role, carry := t.core.twin.carry }
          mem.banks := t.core.mem.banks, host := t.core.host, seq := t.core.seq, cam := t.core.cam } }
      let toWorkshop := c.sys.mode = .service ∧ (c.crossA.wskey = true ∧ c.crossB.wskey = true) ∧
        ∀ p, p < 12 → movingCode (motionOf c p) = false
      let canSwap := c.sys.mode = .service ∧ standbySynced c = true
      (resetting c = true → open_ t ∧ others t ∧
        t = { s with core := { c with host := book t, twin.carry := t.core.twin.carry } }) ∧
      (resetting c = false → u = 1 → (c.sys.mode = .workshop → moved .service ∧ t.core.sys.wsRelease = false) ∧
        (c.sys.mode ≠ .workshop → t = { s with core := t.core } ∧ EndsOp k x 0x00 0 c.nv.epoch.toNat (modeCode c.sys.mode) c t.core)) ∧
      (resetting c = false → u = 2 → (toWorkshop → moved .workshop ∧ t.core.sys.wsRelease = c.sys.wsRelease) ∧
        (¬ toWorkshop → t = { s with core := t.core } ∧ EndsOp k x 0x22 (modeCode c.sys.mode) 0 0 c t.core)) ∧
      (resetting c = false → u ≠ 1 → u ≠ 2 → (canSwap → open_ t ∧ others t ∧ t.core.twin.swap = some (8, k.val) ∧
          (twinUp c = true → ∃ w, t.core.out = .twinBytes 0x15 w :: c.out) ∧
          t = { s with core := { c with
            host := book t, out := t.core.out
            twin := { c.twin with carry := t.core.twin.carry, swap := some (8, k.val), txSeq := t.core.twin.txSeq } } }) ∧
        (¬ canSwap → t = { s with core := t.core } ∧ EndsOp k x 0x22 (modeCode c.sys.mode) 0 0 c t.core))) ∧
    (Ready k 0x60 x c → ∃ t, Runs (.keyInstall k) s t ∧
      let holds (b : Bytes) : Prop := (u = 1 → s.onyx.identity ≠ [] ∧ hasPart (certMark c.nv.pub) b = true) ∧
        (u ≠ 1 → (u = 48 ∨ u < 32) → ∃ y ∈ b, y ≠ 0) ∧
        (u ≠ 1 → u ≠ 48 → 32 ≤ u → s.fuse.fused = false ∧ onCurve (field b 0 32) (field b 32 32) = true)
      (x.data = none → t = { s with core := t.core } ∧ EndsOp k x 0x32 0 0 0 (hpCount 36 c) t.core) ∧
      ∀ b, x.data = some b → (¬ holds b → t = { s with core := t.core } ∧ EndsOp k x 0x12 8 0 0 c t.core) ∧
        (holds b → Ended k 0x00 0 u 0 t.core ∧ others t ∧
          (u = 1 → t.core.nv.cert = b ∧ t.onyx = s.onyx ∧ t.core.nv.authKeys = c.nv.authKeys) ∧
          (u = 48 → t.onyx = { s.onyx with twin := b } ∧ t.core.nv = c.nv) ∧
          (u ≠ 1 → u < 32 → t.core.nv = c.nv ∧ t.onyx = { s.onyx with train := t.onyx.train } ∧
            ∀ j, tget [] t.onyx.train j = if j = u - 16 then b else tget [] s.onyx.train j) ∧
          (32 ≤ u → u ≠ 48 → t.onyx = s.onyx ∧ t.core.nv.cert = c.nv.cert ∧
            ∀ j, tget [] t.core.nv.authKeys j = if j = u - 32 then b else tget [] c.nv.authKeys j) ∧
          t = { s with
            onyx := t.onyx
            core := { c with
              nv := { c.nv with cert := t.core.nv.cert, authKeys := t.core.nv.authKeys }
              host := book t, recd := t.core.recd, twin.carry := t.core.twin.carry } })) ∧
    (Ready k 0x61 x c → ∃ t, Runs (.lifecycleAdvance k) s t ∧
      let to_ := lcOf u
      let old := c.nv.lc
      let allowed := (old = .blank ∧ to_ = .provisioned ∧ c.sys.mode = .provision ∧ c.nv.authKeys ≠ []) ∨
        (old = .provisioned ∧ (to_ = .field ∨ to_ = .returned) ∧ c.sys.mode = .workshop) ∨ (old = .field ∧ to_ = .returned ∧ c.sys.mode = .workshop) ∨
        (old = .returned ∧ (to_ = .provisioned ∨ to_ = .scrapped) ∧ c.sys.mode = .provision)
      let moving := claiming c = true ∧ anyMoving c = true
      (¬ allowed → t = { s with core := t.core } ∧ EndsOp k x 0x12 8 0 0 c t.core) ∧
      (allowed → moving → t = { s with core := t.core } ∧ EndsOp k x 0x50 0x03 0 0 c t.core) ∧
      (allowed → ¬ moving → Ended k 0x00 0 (lcCode to_) 0 t.core ∧ others t ∧ t.core.sys.deferred = true ∧ t.core.nv.lc = to_ ∧
        t.core.nv.cert = [] ∧ t.onyx = { identity := t.onyx.identity } ∧
        t.fuse = (if old = .blank then { fused := true, hash := sha256 (authSlots c) } else s.fuse) ∧
        (to_ = .provisioned ∨ to_ = .field → t.onyx.identity.length = 32 ∧ t.core.nv.pub = ecPublic t.onyx.identity ∧
          ∃ b, t.store = addCheck b s.store) ∧
        (to_ = .returned ∨ to_ = .scrapped → t.onyx.identity = [] ∧ t.core.nv.pub = c.nv.pub ∧ t.store = s.store) ∧
        t = { s with
          fuse := t.fuse, onyx := t.onyx, store := t.store
          core := { c with
            sys := { c.sys with deferred := true, wipedRec := t.core.sys.wipedRec }
            nv := { c.nv with lc := to_, cert := [], pub := t.core.nv.pub }
            host := book t, recd := t.core.recd, twin.carry := t.core.twin.carry, free := t.core.free } }))

/-- LOAD_CONFIG, LOAD_PROGRAM and CAM_DIRECTORY: a zero-length transfer is OK and loads nothing, unread data and a failed check end
the operation and store nothing, and what passes is stored, takes effect at once where none was in effect, and completes with the
image's two results: OK, or OK_PARTIAL in a pair whose standby is not synchronised; a synchronised one is sent the image in pieces of at
most 4 KiB. A resident table whose read fails counts. The rest stays. The commands `loadConfig`, `loadProgram` and `camDirectory`
complete (R102, R107, R115, R119, R154, R185, R186, R367, R486, R487, R489; RESULT0 of LOAD_PROGRAM and the order of the checks are
logs 9 and 17). -/
def Obligations.LoadOperations : Prop :=
  ∀ (s : State) (k : Fin 512) (x : SlotSt),
    let d := x.desc
    let c := s.core
    let book (t : State) : HostSt := { c.host with slots := t.core.host.slots, finished := t.core.host.finished }
    let others (t : State) : Prop := ∀ j, j ≠ k.val → slotAt t.core j = slotAt c j
    let done (t : State) (r0 r1 : Nat) : Prop := (paired t.core = false ∨ standbySynced c = true → Ended k 0x00 0 r0 r1 t.core) ∧
      (paired t.core = true → standbySynced c = false → Ended k 0x01 0x01 r0 r1 t.core)
    let linked (t : State) : TwinSt :=
      { c.twin with carry := t.core.twin.carry, txSeq := t.core.twin.txSeq, txPieces := t.core.twin.txPieces }
    let sends (t : State) (kind chan : Nat) (b : Bytes) : Prop :=
      (paired t.core = false ∨ standbySynced c = false → t.core.twin.txSeq = c.twin.txSeq ∧ t.core.twin.txPieces = c.twin.txPieces) ∧
      (twinUp t.core = true → standbySynced c = true →
        t.core.twin.txPieces.map (fun e => (e.1, e.2.2)) = c.twin.txPieces.map (fun e => (e.1, e.2.2)) ++
          (pieces b).map fun e => (0x13, toLe 1 kind ++ toLe 1 chan ++ [0, 0] ++ toLe 4 b.length ++ toLe 4 e.1 ++ e.2))
    (Ready k 0x20 x c → ∃ t, Runs (.loadConfig k) s t ∧
      (opLen d = 0 → t = { s with core := t.core } ∧ EndsOp k x 0x00 0 0 0 c t.core) ∧
      (opLen d ≠ 0 → x.data = none → t = { s with core := t.core } ∧ EndsOp k x 0x32 0 0 0 (hpCount 36 c) t.core) ∧
      ∀ b, opLen d ≠ 0 → x.data = some b → (∀ st dt, cfgCheck c (imgOf b) = some (st, dt) → t = { s with core := t.core } ∧ EndsOp k x st dt 0 0 c t.core) ∧
        (cfgCheck c (imgOf b) = none → done t (field (sha256 b) 0 4) (field (sha256 b) 4 4) ∧ others t ∧ sends t 1 0 b ∧
          t.core.nv.cfg = some (imgOf b) ∧ t.core.nv.svcAddr = img8 (imgOf b) secSys ∧
          t.core.run = { c.run with cfg := if c.run.cfg = none then some (imgOf b) else c.run.cfg } ∧
          (c.run.cfg ≠ none → t.core.nv.valid = c.nv.valid ∧ t.die = s.die ∧ t.core.fld = c.fld) ∧
          (c.run.cfg = none → t.core.fld = { c.fld with loaded := true } ∧
            t.die = loadSection (fieldSec (imgOf b)) (stopContacts (imgPart (imgOf b) secSafe 2240)) s.die) ∧
          t = { s with
            die := t.die
            core := { c with
              nv := { c.nv with cfg := t.core.nv.cfg, svcAddr := t.core.nv.svcAddr, valid := t.core.nv.valid }
              run := t.core.run, recd := t.core.recd, host := book t, fld := t.core.fld, twin := linked t } })) ∧
    (Ready k 0x21 x c → ∃ t, Runs (.loadProgram k) s t ∧
      let n := byteAt d 8
      (opLen d = 0 → t = { s with core := t.core } ∧ EndsOp k x 0x00 0 0 0 c t.core) ∧
      (opLen d ≠ 0 → x.data = none → t = { s with core := t.core } ∧ EndsOp k x 0x32 0 0 0 (hpCount 36 c) t.core) ∧
      ∀ b, opLen d ≠ 0 → x.data = some b → (∀ st dt, progCheck c n (imgOf b) = some (st, dt) → t = { s with core := t.core } ∧ EndsOp k x st dt 0 0 c t.core) ∧
        (progCheck c n (imgOf b) = none → done t b.length (prStates (imgOf b)) ∧ others t ∧ sends t 2 n b ∧
          (∀ j, tget {} t.core.nv.progs j = if j = n then imgOf b else tget {} c.nv.progs j) ∧
          (∀ j, progOf t.core j = if j = n ∧ (progOf c n).len = 0 ∧ c.nv.cfg = c.run.cfg then imgOf b else progOf c j) ∧
          t = { s with core := { c with
            nv := { c.nv with progs := t.core.nv.progs }
            run := { c.run with progs := t.core.run.progs }, recd := t.core.recd, host := book t, twin := linked t } })) ∧
    ∀ tables, (Ready k 0x22 x c → ∃ t, Runs (.camDirectory k tables) s t ∧
      (opLen d = 0 → t = { s with core := t.core } ∧ EndsOp k x 0x00 0 0 0 c t.core) ∧
      (opLen d ≠ 0 → x.data = none → t = { s with core := t.core } ∧ EndsOp k x 0x32 0 0 0 (hpCount 36 c) t.core) ∧
      ∀ b, opLen d ≠ 0 → x.data = some b →
        let m := imgOf b
        let unread := ∃ id ∈ dirResidents m, c.bar.lib = 0 ∨ portUp c = false ∨
          (tget [] tables id).length ≠ dirLen m id ∨ pageReason m id (tget [] tables id) ≠ none
        let failed := ((dirResidents m).filter fun id => (tget [] tables id).length != dirLen m id).length
        (∀ st dt, dirCheck c m = some (st, dt) → t = { s with core := t.core } ∧ EndsOp k x st dt 0 0 c t.core) ∧
        (dirCheck c m = none → unread → t = { s with core := t.core } ∧
          EndsOp k x 0x12 0x25 0 0 { c with host := { c.host with counters := t.core.host.counters } } t.core ∧
          (c.bar.lib = 0 ∨ portUp c = false → t.core.host.counters = c.host.counters) ∧
          (c.bar.lib ≠ 0 → portUp c = true → ∀ n, tget 0 t.core.host.counters n =
            if n = 36 then tget 0 c.host.counters 36 + BitVec.ofNat 32 failed else tget 0 c.host.counters n)) ∧
        (dirCheck c m = none → ¬ unread → tablesIn c m = false → t = { s with core := t.core } ∧ EndsOp k x 0x12 0x10 0 0 c t.core) ∧
        (dirCheck c m = none → ¬ unread → tablesIn c m = true → done t (img16 m 12) (img32 m 8) ∧ others t ∧ sends t 3 0 b ∧
          t.core.nv.dir = some m ∧ t.core.nv.resident = (dirResidents m).map (fun id => (id, imgOf (tget [] tables id))) ∧
          (c.nv.dir ≠ none → t.core.run.dir = c.run.dir ∧ t.core.cam.pages = c.cam.pages) ∧
          (c.nv.dir = none → t.core.run.dir = some m ∧ t.core.cam.pages = residentPages t.core.nv.resident) ∧
          t = { s with core := { c with
            nv := { c.nv with dir := t.core.nv.dir, resident := t.core.nv.resident }
            run := { c.run with dir := t.core.run.dir }, host := book t, cam := { c.cam with pages := t.core.cam.pages }
            twin := linked t } }))

/-- The cam cache: CAM_PREFETCH and CAM_PIN are served by a page that holds their table, refused as an eighth pin, or wait for a
page-in, which takes its victim and reads, or fails at once with its reason; a synchronised standby keeps the request; CAM_UNPIN takes
the pin away; PAGE_IN verifies the data, serves the operations that wait and ends the CAM_FAULT of the channels that name the table, or
fails and frees the page; data of another length are a failed read (log 9); PAGE_IN_RETRY reads again. A failed page-in ends the
operations that wait for it; at the next TICK a channel that named its table has CAM_FAULT and its START_MOVE starts nothing. The
commands `camPrefetch`, `camPin`, `camUnpin`, `pageIn` and `pageInRetry` complete (R136, R148, R187 to R192, R194). The RESULT0 of
CAM_UNPIN for a table that the cache does not hold is a free value (log 5), and a page-in without a victim, which R187 rules out, takes
none. -/
def Obligations.CamOperations : Prop :=
  ∀ s : State,
    let c := s.core
    let page (t : State) (g : Nat) : PageSt := tget {} t.core.cam.pages g
    let samePages (t : State) (g : Nat) : Prop := ∀ q, q ≠ g → page t q = page s q
    let fails (t : State) (id reason : Nat) : Prop :=
      let r := if reason = 2 then (0x32, 0) else if reason = 3 then (0x31, 3) else (0x30, reason)
      (∀ j y, (j, id) ∈ c.cam.waits → j < 512 → slotAt c j = some y → y.done = none → Ended j r.1 r.2 0 (pins t.core) t.core) ∧
      (c.cam.cur ≠ none ∨ c.cam.retry = false → t.core.cam.retry = false) ∧
      t = { s with core := { c with
        recd := t.core.recd
        host := { c.host with slots := t.core.host.slots, finished := t.core.host.finished, counters := t.core.host.counters }
        twin := { c.twin with carry := t.core.twin.carry }
        cam := { c.cam with
          pages := t.core.cam.pages, queue := [], cur := none, retry := t.core.cam.retry, failed := c.cam.failed ++ [id]
          waits := c.cam.waits.filter (fun e => e.2 != id) } } }
    let quiet (t : State) (id : Nat) : Prop := ∀ j, (j, id) ∉ c.cam.waits → slotAt t.core j = slotAt c j
    (∀ (k : Fin 512) (x : SlotSt), ∀ a ∈ [(Instr.camPrefetch k, 0x23), (.camPin k, 0x24)], Ready k a.2 x c → ∃ t, Runs a.1 s t ∧
      let id := field x.desc 8 2
      let open_ : Prop := slotAt t.core k = some { x with started := true, visible := c.seq.now + 1 }
      let others : Prop := ∀ j, j ≠ k.val → slotAt t.core j = slotAt c j
      let eighth := a.2 = 0x24 ∧ 7 ≤ pins c ∧ ∀ g, pageOf c id = some g → (page s g).pinned = false ∧ (page s g).state ≠ 3
      let started : Core := { c with
        host := { c.host with slots := t.core.host.slots }, twin := { c.twin with carry := t.core.twin.carry }
        cam := { c.cam with waits := c.cam.waits ++ [(k.val, id)] } }
      let alone := ∀ e ∈ c.cam.waits, e.2 ≠ id
      let pagerIdle := c.cam.cur = none ∧ c.cam.queue = [] ∧ standbyIn c = false
      let present (dir : Image) : Prop := c.run.dir = some dir ∧ dirPresent dir id = true
      (eighth → t = { s with core := t.core } ∧ EndsOp k x 0x12 0x28 0 (pins c) c t.core) ∧
      (¬ eighth → ∀ g, pageOf c id = some g → alone → others ∧ samePages t g ∧
        page t g = { page s g with lastUse := readTb islMot c, pinned := (page t g).pinned } ∧
        (a.2 = 0x23 ∨ (page s g).pinned = true ∨ (page s g).state = 3 → (page t g).pinned = (page s g).pinned ∧ Ended k 0x00 0 g (pins t.core) t.core) ∧
        (a.2 = 0x24 → (page s g).pinned = false → (page s g).state ≠ 3 →
          ((page t g).pinned = true ∧ Ended k 0x00 0 g (pins t.core) t.core) ∨
          ((page t g).pinned = false ∧ 7 ≤ pins t.core ∧ Ended k 0x12 0x28 0 (pins t.core) t.core)) ∧
        t = { s with core := { c with
          host := { c.host with slots := t.core.host.slots, finished := t.core.host.finished }
          twin := { c.twin with carry := t.core.twin.carry }, cam := { c.cam with pages := t.core.cam.pages } } }) ∧
      (¬ eighth → pageOf c id = none →
        (((∃ w, c.cam.cur = some w ∧ w.1 = id) ∨ (id, some k.val) ∈ c.cam.queue) → open_ ∧ others ∧ t = { s with core := started }) ∧
        ((id, some k.val) ∉ c.cam.queue → (∀ w, c.cam.cur = some w → w.1 ≠ id) → (standbyIn c = true ∨ c.cam.cur ≠ none) → open_ ∧ others ∧
          t = { s with core := { started with cam := { started.cam with queue := c.cam.queue ++ [(id, some k.val)] } } }) ∧
        (pagerIdle → (∀ dir, ¬ present dir) → alone → fails t id 1 ∧ Ended k 0x30 1 0 (pins t.core) t.core ∧ others ∧
          t.core.cam.pages = c.cam.pages) ∧
        (pagerIdle → (∃ dir, present dir) → (portUp c = false ∨ c.bar.lib = 0) → alone → fails t id 2 ∧ Ended k 0x32 0 0 (pins t.core) t.core ∧
          others ∧ t.core.cam.pages = c.cam.pages) ∧
        (pagerIdle → portUp c = true → c.bar.lib ≠ 0 → ∀ dir, present dir →
          (victim c = none → open_ ∧ others ∧ t = { s with core := started }) ∧
          (∀ g, victim c = some g → open_ ∧ others ∧ page t g = { state := 1, table := id } ∧ samePages t g ∧
            (let from_ := c.bar.lib.toNat + img32 dir (dirEntry id)
             t = { s with core := hostReads from_ (dirLen dir id) { started with
              cam := { started.cam with pages := t.core.cam.pages, cur := some (id, g, 1, from_) } } }))))) ∧
    (∀ (k : Fin 512) (x : SlotSt), Ready k 0x25 x c → ∃ t, Runs (.camUnpin k) s t ∧ (∀ j, j ≠ k.val → slotAt t.core j = slotAt c j) ∧
      (∀ g, pageOf c (field x.desc 8 2) = some g → page t g = { page s g with pinned := false } ∧ samePages t g ∧
        Ended k 0x00 0 g (pins t.core) t.core) ∧
      (pageOf c (field x.desc 8 2) = none → t.core.cam = c.cam ∧ ∃ v, v < 2 ^ 32 ∧ Ended k 0x00 0 v (pins c) t.core) ∧
      t = { s with core := { c with
        host := { c.host with slots := t.core.host.slots, finished := t.core.host.finished }
        twin := { c.twin with carry := t.core.twin.carry }, cam := { c.cam with pages := t.core.cam.pages }, free := t.core.free } }) ∧
    (∀ data : HostRead, ∃ t, Runs (.pageIn data) s t ∧
      (c.cam.retry = true ∨ c.cam.cur = none → t = s) ∧
      (∀ id g n a, c.cam.retry = false → c.cam.cur = some (id, g, n, a) →
        (let unread := data = none ∨ ∃ b dir, data = some b ∧ c.run.dir = some dir ∧ b.length ≠ dirLen dir id
         (unread → n < 3 → t = { s with core := { hpCount 36 c with cam := { c.cam with retry := true } } }) ∧
         (unread → 3 ≤ n → c.cam.queue = [] → fails t id 2 ∧ quiet t id ∧ page t g = {} ∧ samePages t g)) ∧
        (data ≠ none → c.run.dir = none → t = s) ∧
        ∀ b dir, data = some b → c.run.dir = some dir →
          (b.length = dirLen dir id → c.cam.queue = [] →
            (∀ r, pageReason dir id b = some r → fails t id r ∧ quiet t id ∧ page t g = {} ∧ samePages t g) ∧
            (pageReason dir id b = none → samePages t g ∧ quiet t id ∧ t.core.cam.cur = none ∧ t.core.cam.waits = c.cam.waits.filter (fun e => e.2 != id) ∧
              page t g = { state := 2, table := id, lastUse := readTb islMot c, data := imgOf b, pinned := (page t g).pinned } ∧
              (∀ p, chAt t.core p = if p < 12 ∧ (chAt c p).camTable = some id ∧ (chAt c p).camRefused = false then
                { chAt c p with camFault := false } else chAt c p) ∧
              ((∀ e ∈ c.cam.waits, e.2 = id → ∀ y, slotAt c e.1 = some y → slotOp y ≠ 0x24) → (page t g).pinned = false ∧
                ∀ j y, (j, id) ∈ c.cam.waits → j < 512 → slotAt c j = some y → y.done = none → Ended j 0x00 0 g (pins t.core) t.core) ∧
              (∀ j y, c.cam.waits.filter (fun e => e.2 == id) = [(j, id)] → j < 512 → slotAt c j = some y → y.done = none → slotOp y = 0x24 →
                ((page t g).pinned = true ∧ Ended j 0x00 0 g (pins t.core) t.core) ∨
                ((page t g).pinned = false ∧ 7 ≤ pins t.core ∧ Ended j 0x12 0x28 0 (pins t.core) t.core)) ∧
              t = { s with core := { c with
                host := { c.host with slots := t.core.host.slots, finished := t.core.host.finished }
                seq := { c.seq with channels := t.core.seq.channels }
                twin := { c.twin with txSeq := t.core.twin.txSeq, txPieces := t.core.twin.txPieces }
                cam := { c.cam with
                  pages := t.core.cam.pages, queue := [], cur := none, retry := false
                  waits := c.cam.waits.filter (fun e => e.2 != id) } } })))) ∧
    (∀ id, c.cam.failed = [id] → pageOf c id = none →
      (∀ p, p < 12 → chAt (camVerdicts c) p = { chAt c p with camFault := (chAt c p).camFault || (chAt c p).camTable == some id }) ∧
      (∀ p r, p < 12 → (msAt c p).waiting = some r → r.manual = none → r.age = none → r.table = id →
        (msAt (camVerdicts c) p).waiting = none) ∧ (camVerdicts c).cam = { c.cam with failed := [] }) ∧
    ∃ t, Runs .pageInRetry s t ∧ (c.cam.retry = false ∨ c.cam.cur = none → t = s) ∧
      ∀ id g n a, c.cam.retry = true → c.cam.cur = some (id, g, n, a) →
        (portUp c = true → t = { s with core := t.core } ∧ t.core =
          hostReads a (dirLen (c.run.dir.getD {}) id) { c with cam := { c.cam with cur := some (id, g, n + 1, a), retry := false } }) ∧
        (portUp c = false → n < 2 → t = { s with core := { hpCount 36 c with cam := { c.cam with cur := some (id, g, n + 1, a), retry := true } } }) ∧
        (portUp c = false → 2 ≤ n → c.cam.queue = [] → fails t id 2 ∧ quiet t id ∧ page t g = {} ∧ samePages t g)

/-- The service port. A frame that the unit does not accept, or of another type than the query's, is no query. A query in its range is
answered at once with its payload, SET_RATE takes the new rate, and a query that is not is answered with NAK and its reason and
changes nothing. An unsolicited status frame is sent in SAFE_TALK on an idle bus, with a SEQ of its own, and otherwise waits for the
bus. The commands `getStatus`, `getIdent`, `getSelftest`, `getEvents`, `getCycles`, `getPortal`, `setRate`, `nak` and
`unsolicitedStatus` complete (R55 to R59; the order of NAK's checks is log 23). -/
def Obligations.ServicePort : Prop :=
  ∀ (s : State) (b : Bytes),
    let c := s.core
    let n := svcLen b
    let type := byteAt b 2
    let x := byteAt b 6
    let taken := c.sys.inReset = false ∧ byteAt b 0 = 0xA5 ∧ n ≤ 240 ∧ b.length = 8 + n ∧ field b (6 + n) 2 = crc16 (slice b 1 (5 + n)) ∧
      (byteAt b 1 = c.nv.svcAddr ∨ byteAt b 1 = 0)
    let index := field b 6 4
    let count := byteAt b 10
    let good := (type ∈ [2, 3, 4] ∧ n = 0) ∨ (type = 5 ∧ n = 1 ∧ 1 ≤ x ∧ x ≤ 7 ∧ s.store.wE ≠ 0) ∨
      (type = 6 ∧ n = 5 ∧ 1 ≤ count ∧ count ≤ 7 ∧ index < s.store.wJ) ∨ (type = 7 ∧ n = 1 ∧ (x ≤ 11 ∨ x = 255)) ∨ (type = 8 ∧ n = 1 ∧ x ≤ 4)
    let sent (t : State) (kind : Nat) (payload : Bytes) : Prop :=
      t = { s with core := { c with out := .service (svcFrame c.nv.svcAddr kind (byteAt b 3) payload) :: c.out } }
    let refused (t : State) : Prop := ∃ reason, sent t 0xFF (toLe 1 type ++ toLe 1 reason) ∧
      (type < 2 ∨ 8 < type → reason = 2) ∧ (type ∈ [2, 3, 4] → reason = 1) ∧ (type ∈ [5, 7, 8] → n ≠ 1 → reason = 1) ∧
      (type = 6 → n ≠ 5 → reason = 1) ∧ (type ∈ [7, 8] → n = 1 → reason = 3) ∧
      (type = 5 → n = 1 → reason = if 1 ≤ x ∧ x ≤ 7 then 4 else 3) ∧
      (type = 6 → n = 5 → reason = if 1 ≤ count ∧ count ≤ 7 ∧ s.store.wJ = 0 then 4 else 3)
    (∀ q ∈ [(Instr.getStatus b, 2, statusPayload c), (.getIdent b, 3, identPayload c), (.getSelftest b, 4, stepEntries c),
        (.getEvents b, 5, eventsPayload s.store x), (.getCycles b, 6, cyclesPayload s.store index count), (.getPortal b, 7, portalPayload c x)],
      (¬ taken ∨ type ≠ q.2.1 → Runs q.1 s s) ∧
      (taken → type = q.2.1 → good → ∃ t, Runs q.1 s t ∧ sent t (q.2.1 + 128) q.2.2) ∧
      (taken → type = q.2.1 → ¬ good → ∃ t, Runs q.1 s t ∧ refused t)) ∧
    (¬ taken ∨ type ≠ 8 → Runs (.setRate b) s s) ∧
    (taken → type = 8 → good → ∃ t u, Runs (.setRate b) s t ∧ sent u 0x88 [] ∧
      t = { u with core := { u.core with sys := { u.core.sys with svcRate := x } } }) ∧
    (taken → type = 8 → ¬ good → ∃ t, Runs (.setRate b) s t ∧ refused t) ∧
    (¬ taken ∨ good → Runs (.nak b) s s) ∧ (taken → ¬ good → ∃ t, Runs (.nak b) s t ∧ refused t) ∧
    (c.sys.mode ≠ .safeTalk ∨ c.sys.inReset = true → ∀ wait, Runs (.unsolicitedStatus wait) s s) ∧
    (c.sys.mode = .safeTalk → c.sys.inReset = false →
      (∃ t, Runs (.unsolicitedStatus (some 0)) s t ∧ t = { s with core := { c with
        sys := { c.sys with svcSeq := (c.sys.svcSeq + 1) % 256, svcWait := none }
        out := .service (svcFrame c.nv.svcAddr 0x01 c.sys.svcSeq (statusPayload c)) :: c.out } }) ∧
      ∀ wait, wait ≠ some 0 → Runs (.unsolicitedStatus wait) s { s with core := { c with sys := { c.sys with svcWait := wait } } })
end

