-- ==== Sys2Proof/Laws/Held.lean ====
section
/-! SUPPORT. What every operation on the whole state leaves alone: the queue, the fuses, the identity key, open switches,
and the record slots already written. One lemma for each operation; the claims over all commands follow from them. -/

namespace Sys2Proof.Machine

/-- From `u` to `t` the write indices rise, written slots stay, and the invariant is kept. -/
structure Grows (u t : Stores) : Prop where
  wJ : u.wJ ≤ t.wJ
  wE : u.wE ≤ t.wE
  kept : SlotsKept u t
  inv : StoreInv u → StoreInv t

theorem Grows.refl (u : Stores) : Grows u u :=
  ⟨Nat.le_refl _, Nat.le_refl _, ⟨fun _ _ => rfl, fun _ _ => rfl⟩, id⟩

theorem Grows.trans {u v w : Stores} (a : Grows u v) (b : Grows v w) : Grows u w :=
  ⟨Nat.le_trans a.wJ b.wJ, Nat.le_trans a.wE b.wE,
    ⟨fun i h => (b.kept.journal i (Nat.lt_of_lt_of_le h a.wJ)).trans (a.kept.journal i h),
     fun i h => (b.kept.events i (Nat.lt_of_lt_of_le h a.wE)).trans (a.kept.events i h)⟩,
    fun h => b.inv (a.inv h)⟩

/-- What no operation but the named ones changes, apart from the stores. -/
structure Kept (s t : State) : Prop where
  pending : t.pending = s.pending
  fuse : t.fuse = s.fuse
  ident : NoNewIdentity s t
  isa : OnlyOpens .a s t
  isb : OnlyOpens .b s t

theorem Kept.refl (s : State) : Kept s s := ⟨rfl, rfl, .inl rfl, fun _ => id, fun _ => id⟩

theorem Kept.trans {s t u : State} (a : Kept s t) (b : Kept t u) : Kept s u :=
  ⟨b.pending.trans a.pending, b.fuse.trans a.fuse,
    b.ident.elim (fun h => a.ident.elim (fun g => .inl (h.trans g)) (fun g => .inr (h.trans g))) .inr,
    fun n h => a.isa n (b.isa n h), fun n h => a.isb n (b.isb n h)⟩

/-- `Kept`, with stores that only grow. -/
structure Held (s t : State) : Prop extends Kept s t where
  store : Grows s.store t.store

theorem Held.refl (s : State) : Held s s := ⟨.refl s, .refl _⟩

theorem Held.trans {s t u : State} (a : Held s t) (b : Held t u) : Held s u :=
  ⟨a.toKept.trans b.toKept, a.store.trans b.store⟩

/-- Another core and another field die. -/
theorem held_core {s : State} (c : Core) : Held s { s with core := c } := ⟨⟨rfl, rfl, .inl rfl, fun _ => id, fun _ => id⟩, .refl _⟩

theorem held_die_core {s : State} (d : DieSt) (c : Core) : Held s { s with die := d, core := c } :=
  ⟨⟨rfl, rfl, .inl rfl, fun _ => id, fun _ => id⟩, .refl _⟩

theorem held_die {s : State} (d : DieSt) : Held s { s with die := d } := held_die_core d s.core

/-- An island is replaced by one with no further switch closed. -/
theorem held_isl {s : State} (k : Isl) (i : IslSt) (h : ∀ n, i.closed.getLsbD n = true → (islAt k s).closed.getLsbD n = true) :
    Held s (setIsl k i s) := by
  cases k
  · exact ⟨⟨rfl, rfl, .inl rfl, h, fun _ => id⟩, .refl _⟩
  · exact ⟨⟨rfl, rfl, .inl rfl, fun _ => id, h⟩, .refl _⟩

/-- Both islands, the field die and the core are replaced, with no further switch closed. -/
theorem held_all {s : State} (a b : IslSt) (d : DieSt) (c : Core)
    (ha : ∀ n, a.closed.getLsbD n = true → s.isa.closed.getLsbD n = true)
    (hb : ∀ n, b.closed.getLsbD n = true → s.isb.closed.getLsbD n = true) :
    Held s { s with isa := a, isb := b, die := d, core := c } := ⟨⟨rfl, rfl, .inl rfl, ha, hb⟩, .refl _⟩

theorem held_isls {s : State} (a b : IslSt) (c : Core)
    (ha : ∀ n, a.closed.getLsbD n = true → s.isa.closed.getLsbD n = true)
    (hb : ∀ n, b.closed.getLsbD n = true → s.isb.closed.getLsbD n = true) :
    Held s { s with isa := a, isb := b, core := c } := held_all a b s.die c ha hb

/-- An empty set of switches. -/
theorem no_closed (x : BitVec 16) : ∀ n, (0 : BitVec 16).getLsbD n = true → x.getLsbD n = true := by
  intro n h; simp at h

/-- Held by every step of a fold. -/
theorem held_fold {α : Type} (f : State → α → State) (hf : ∀ s a, Held s (f s a)) (l : List α) (s : State) : Held s (l.foldl f s) := by
  induction l generalizing s with
  | nil => exact .refl s
  | cons a r ih => exact (hf s a).trans (ih (f s a))

theorem held_ite {s t u : State} (p : Prop) [Decidable p] (ht : Held s t) (hu : Held s u) : Held s (if p then t else u) := by
  split <;> assumption

end Sys2Proof.Machine
end

