-- ==== Sys2Proof/Laws/Power.lean ====
section
/-! SUPPORT. `Held` for resets, the flush, mode entries, the field die and the core's operations on the whole state. -/

namespace Sys2Proof.Machine

theorem markReset_grows (t : Stores) : Grows t (markReset t) :=
  ⟨Nat.le_refl _, Nat.le_refl _, ⟨fun _ _ => rfl, fun _ _ => rfl⟩, fun h => ⟨h.1, h.2, h.3, h.4, h.5, h.6, h.7, h.8, h.9⟩⟩

theorem commit_grows (t : Stores) : Grows t (commit t) :=
  ⟨Nat.le_refl _, Nat.le_refl _, ⟨fun _ _ => rfl, fun _ _ => rfl⟩, fun h => ⟨h.1, h.2, h.3, h.4, h.5, h.6, h.4, h.5, h.6⟩⟩

theorem resetTo_held (k : ResetKind) (s : State) : Held s (resetTo k s) :=
  ⟨⟨rfl, rfl, .inl rfl, no_closed _, no_closed _⟩, markReset_grows _⟩

theorem resetAgain_held (k : ResetKind) (s : State) : Held s (resetAgain k s) :=
  held_ite _ (resetTo_held k s) (.refl s)

theorem porNow_held (s : State) : Held s (porNow s) := by
  unfold porNow
  have h := resetTo_held .por s
  dsimp only
  split
  · exact h.trans ⟨⟨rfl, rfl, .inl rfl, fun _ => id, fun _ => id⟩, .refl _⟩
  · exact h

theorem parkedExit_held (s : State) : Held s (parkedExit s) :=
  held_ite _ (held_ite _ (resetTo_held _ s) (held_core _)) (.refl s)

theorem startFlush_held (k : ResetKind) (p : Bool) (v : Option Nat) (s : State) : Held s (startFlush k p v s) := by
  unfold startFlush
  split
  · exact held_core _
  · exact held_isls _ _ _ (no_closed _) (no_closed _)

theorem enterSafeTalk_held (n : Nat) (s : State) : Held s (enterSafeTalk n s) :=
  held_ite _ (.refl s) (held_all _ _ _ _ (no_closed _) (no_closed _))

theorem enterLockout_held (n p : Nat) (s : State) : Held s (enterLockout n p s) :=
  held_ite _ (.refl s) (held_isls _ _ _ (fun _ => id) (fun _ => id))

theorem startOpS_held (k op : Nat) (f : Bytes → State → State) (hf : ∀ d s, Held s (f d s)) (s : State) :
    Held s (startOpS k op f s) := by
  unfold startOpS
  split
  · exact (held_core _).trans (hf _ _)
  · exact .refl s

theorem wipeOnyx_held (n : Nat) (s : State) : Held s (wipeOnyx n s) :=
  ⟨⟨rfl, rfl, .inr rfl, fun _ => id, fun _ => id⟩, .refl _⟩

theorem clockAct_held (src : ClockSource) (s : State) : Held s (clockAct src s) := by
  cases src
  · exact held_core _
  · exact .refl s
  · exact ⟨⟨rfl, rfl, .inl rfl, no_closed _, fun _ => id⟩, .refl _⟩
  · exact ⟨⟨rfl, rfl, .inl rfl, fun _ => id, no_closed _⟩, .refl _⟩
  · exact ⟨⟨rfl, rfl, .inl rfl, fun _ => id, fun _ => id⟩, .refl _⟩

theorem softReset_held (s : State) : Held s (softReset s) :=
  held_ite _ (.refl s) (held_ite _ (held_core _) (startFlush_held _ _ _ s))

theorem writeReset_held (v : U32) (s : State) : Held s (writeReset v s) :=
  held_ite _ (softReset_held s) (.refl s)

theorem barWrite_held (o : Nat) (v : U32) (s : State) : Held s (barWrite o v s) := by
  unfold barWrite
  dsimp only
  split <;> first
    | exact held_core _
    | exact writeReset_held v s
    | exact held_ite _ (held_core _) (.refl s)

theorem parkedDoorbell_held (w : Option U32) (s : State) : Held s (parkedDoorbell w s) := by
  unfold parkedDoorbell
  split
  · split
    · exact held_ite _ (parkedExit_held s) (.refl s)
    · exact held_core _
  · exact .refl s

/-! ### Field die -/

theorem takeDie_held (x : DieDue) (s : State) : Held s (takeDie x s) := by
  cases x
  all_goals exact held_die_core _ _

theorem takeDieDue_held (x : DieDue) (s : State) : Held s (takeDieDue x s) :=
  held_ite _ ((held_die _).trans (takeDie_held _ _)) (.refl s)

theorem settleDie_held (s : State) : Held s (settleDie s) :=
  (held_die _).trans (held_fold (fun s x => takeDie x s) (fun s x => takeDie_held x s) _ _)

/-! ### Memory -/

theorem badEffect_held (n : Nat) (s : State) : Held s (badEffect n s) := held_ite _ (enterSafeTalk_held _ s) (held_core _)

theorem noteRead_held (n w q : Nat) (b : Bool) (k : ReadKind) (s : State) : Held s (noteRead n w q b k s) := by
  cases k
  · exact .refl s
  · exact held_core _
  · exact (held_core _).trans (badEffect_held _ _)

theorem userRead_held (s : State) (e : Nat × Nat) : Held s (userRead s e) :=
  held_ite _ ((held_core _).trans (noteRead_held _ _ _ _ _ _)) (held_core _)

theorem userReads_held (lo hi : Nat) (s : State) : Held s (userReads lo hi s) := held_fold _ userRead_held _ _

theorem bar2Read_held (o : BitVec 18) (s : State) : Held s (bar2Read o s) :=
  held_ite _ (held_core _) (held_ite _ (held_core _) ((held_core _).trans (noteRead_held _ _ _ _ _ _)))

theorem bar2Write_held (o : BitVec 18) (v : U32) (be : BitVec 4) (s : State) : Held s (bar2Write o v be s) :=
  held_ite _ (held_core _) (held_ite _ (held_core _) (held_ite _ (held_core _) (held_ite _ (.refl s)
    ((noteRead_held _ _ _ _ _ _).trans (held_core _)))))

theorem opalRow_held (n r : Nat) (s : State) : Held s (opalRow n r s) :=
  held_fold _ (fun _ _ => (noteRead_held _ _ _ _ _ _).trans (held_core _)) _ _

theorem opalTest_held (b : Bool) (s : State) : Held s (opalTest b s) := by
  unfold opalTest
  refine held_ite _ (.refl s) (held_ite _ (held_core _) ?_)
  have h : ∀ (p : Nat × Nat) (c : Core), Held s (if p.2 < 1024 then opalRow p.1 p.2 { s with core := c } else { s with core := c }) :=
    fun p c => held_ite _ ((held_core _).trans (opalRow_held _ _ _)) (held_core _)
  exact held_ite _ ((h _ _).trans (held_core _)) (h _ _)

/-! ### Frame, tick, images, train line, service port, twin -/

theorem imageReset_held (s : State) : Held s (imageReset s) :=
  held_ite _ ((held_core _).trans (startFlush_held _ _ _ _)) (.refl s)

theorem frameAll_held (s : State) : Held s (frameAll s) := by
  refine Held.trans (t := { s with store := commit s.store, core := frameCore s.core }) ?_ (imageReset_held _)
  exact ⟨⟨rfl, rfl, .inl rfl, fun _ => id, fun _ => id⟩, commit_grows _⟩

theorem loadField_held (s : State) : Held s (loadField s) := by
  unfold loadField
  split
  · exact held_die_core _ _
  · exact .refl s

theorem storeConfig_held (m : Image) (s : State) : Held s (storeConfig m s) :=
  (held_ite _ (held_core _) ((held_core _).trans (loadField_held _))).trans (held_core _)

theorem cfgDeliver_held (k : Nat) (d : Bytes) (s : State) : Held s (cfgDeliver k d s) := by
  unfold cfgDeliver
  refine held_ite _ (held_core _) ?_
  split
  · exact held_core _
  · dsimp only
    split
    · exact held_core _
    · exact (storeConfig_held _ _).trans (held_core _)

theorem storeImage_held (k ch : Nat) (t : Table Bytes) (b : Bytes) (s : State) : Held s (storeImage k ch t b s) := by
  unfold storeImage
  dsimp only
  split
  · exact held_ite _ (storeConfig_held _ _) (.refl s)
  · exact held_ite _ (held_core _) (.refl s)
  · exact held_ite _ (held_core _) (.refl s)
  · exact .refl s

theorem takeImage_held (m : ImagePiece) (s : State) : Held s (takeImage m s) := by
  unfold takeImage
  refine held_ite _ (.refl s) ?_
  dsimp only
  split
  · exact held_core _
  · exact held_ite _ (((held_core _).trans (storeImage_held _ _ _ _ _)).trans (held_core _)) (held_core _)

theorem onMessage_held (n : Nat) (h : TwinHdr) (g : Bool) (f : Core → Core) (s : State) : Held s (onMessage n h g f s) :=
  held_ite _ (held_core _) (held_core _)

theorem parkedEntry_held (s : State) : Held s (parkedEntry s) := by
  unfold parkedEntry
  refine Held.trans ?_ (startFlush_held _ _ _ _)
  exact held_all _ _ _ _ (fun _ => id) (fun _ => id)

theorem tickEntries_held (m : Mode) (s : State) : Held s (tickEntries m s) := by
  unfold tickEntries
  refine held_ite _ (held_core _) (held_ite _ (held_core _) ?_)
  split
  · refine held_ite _ (Held.trans ?_ (enterLockout_held _ _ _)) (held_core _)
    exact held_core _
  · refine held_ite _ (Held.trans ?_ (parkedEntry_held _)) (held_core _)
    exact held_core _

/-- The crossing writes twelve fields of an island; the switches are none of them. -/
theorem cross_closed (i : IslSt) (a : Table Nat) (b d f g h j : BitVec 12) (m : Mode) (x : BitVec 36) (l : Table LatchSt)
    (y : Option (BitVec 12 × BitVec 12 × Nat)) :
    ({ i with motion := a, axesOff := b, mode := m, manual := d, txOn := x, inStop := f, inSwitch := g, inLatch := h, inCopy := l, inIso := j, clear := y, seqAge := 0 } : IslSt).closed = i.closed := rfl

theorem crossSeq_closed (c : Core) (r : Option (BitVec 12 × BitVec 12)) (i : IslSt) : (crossSeq c r i).closed = i.closed :=
  cross_closed i _ _ _ _ _ _ _ _ _ _ _

theorem tickDeliver_held (b : Bool) (s : State) : Held s (tickDeliver b s) := by
  unfold tickDeliver
  refine held_all _ _ _ _ ?_ ?_
  · intro n h; rwa [crossSeq_closed] at h
  · intro n h; rwa [crossSeq_closed] at h

theorem tickRest_held (m : Mode) (b : Bool) (c : Core) (s : State) :
    Held s (tickEntries m (tickDeliver b { s with core := c })) :=
  Held.trans (Held.trans (held_core c) (tickDeliver_held _ _)) (tickEntries_held _ _)

theorem seqTick_held (s : State) : Held s (seqTick s) := by
  unfold seqTick
  exact tickRest_held _ _ _ s

theorem sendDue_held (s : State) (e : Nat × Nat × Bytes) : Held s (sendDue s e) := held_core _

theorem verify_held (p : Nat) (f : TrainFrame) (s : State) : Held s (verify p f s) := by
  unfold verify
  dsimp only
  split
  · exact .refl s
  · refine held_ite _ (held_core _) (held_ite _ (.refl s) (held_ite _ (held_core _) ?_))
    split <;> exact held_core _

theorem serveQueues_held (s : State) : Held s (serveQueues s) := by
  have take (p : Nat) : ∀ f s', (match (portAt s.core p).prio with
      | f :: r => some (f, { s with core := modPort p (fun x => { x with prio := r }) s.core })
      | [] => none) = some (f, s') → Held s s' := by
    intro f s' h
    split at h
    · cases h; exact held_core _
    · cases h
  unfold serveQueues
  dsimp only
  split
  · rename_i h; exact (take 0 _ _ h).trans (verify_held _ _ _)
  · rename_i h; exact (take 1 _ _ h).trans (verify_held _ _ _)
  · exact held_core _

theorem svcQuery_held (n : Nat) (b : Bytes) (f : State → Bytes) (s : State) : Held s (svcQuery n b f s) := by
  unfold svcQuery
  refine held_ite _ ?_ (.refl s)
  split <;> exact held_core _

theorem diagItem_held (n : Nat) (s : State) : Held s (diagItem n s).2 := by
  unfold diagItem
  split <;> exact held_core _

theorem diagDeliver_held (k : Nat) (d : Bytes) (s : State) : Held s (diagDeliver k d s) :=
  held_ite _ (held_core _) ((diagItem_held _ s).trans (held_core _))

theorem journalDeliver_held (k : Nat) (d : Bytes) (s : State) : Held s (journalDeliver k d s) :=
  held_ite _ (held_core _) (held_ite _ (held_core _) (held_core _))

theorem certDeliver_held (k : Nat) (d : Bytes) (s : State) : Held s (certDeliver k d s) :=
  held_ite _ (held_core _) (held_core _)

theorem putKey_held (n : Nat) (b : Bytes) (s : State) : Held s (putKey n b s) :=
  held_ite _ (held_core _) (held_ite _ ⟨⟨rfl, rfl, .inl rfl, fun _ => id, fun _ => id⟩, .refl _⟩
    (held_ite _ ⟨⟨rfl, rfl, .inl rfl, fun _ => id, fun _ => id⟩, .refl _⟩ (held_core _)))

theorem keyDeliver_held (k : Nat) (d : Bytes) (s : State) : Held s (keyDeliver k d s) := by
  unfold keyDeliver
  dsimp only
  split
  · exact held_core _
  · exact held_ite _ (held_core _) ((putKey_held _ _ _).trans (held_core _))

theorem takeAxisFault_held (n x : Nat) (s : State) : Held s (takeAxisFault n x s) := held_ite _ (held_core _) (.refl s)

end Sys2Proof.Machine
end

