-- ==== Sys2Proof/Laws/Islands.lean ====
section
/-! SUPPORT. The islands: what a detection, a press and a safety tick do to the switches. -/

namespace Sys2Proof.Machine

/-! ### Bits -/

/-- Clearing a bit sets none. -/
theorem setBit_clears {w : Nat} (v : BitVec w) (k n : Nat) (h : (setBit v k false).getLsbD n = true) : v.getLsbD n = true := by
  simp only [setBit, Bool.false_eq_true, if_false, BitVec.getLsbD_and, Bool.and_eq_true] at h
  exact h.1

/-- The bit that is written reads back. -/
theorem setBit_same {w : Nat} (v : BitVec w) (k : Nat) (b : Bool) (h : k < w) : (setBit v k b).getLsbD k = b := by
  have hb : (BitVec.ofNat w (2 ^ k)).getLsbD k = true := by
    rw [BitVec.getLsbD_ofNat, Nat.testBit_two_pow_self, decide_eq_true h]
    rfl
  unfold setBit
  generalize BitVec.ofNat w (2 ^ k) = m at hb ⊢
  cases b
  · simp [hb]
  · simp [hb]

/-- Every other bit stays. -/
theorem setBit_other {w : Nat} (v : BitVec w) (k n : Nat) (b : Bool) (h : k ≠ n) : (setBit v k b).getLsbD n = v.getLsbD n := by
  have hb : (BitVec.ofNat w (2 ^ k)).getLsbD n = false := by
    rw [BitVec.getLsbD_ofNat, Nat.testBit_two_pow_of_ne h, Bool.and_false]
  unfold setBit
  generalize BitVec.ofNat w (2 ^ k) = m at hb ⊢
  by_cases hn : n < w
  · cases b <;> simp only [if_true, Bool.false_eq_true, if_false, BitVec.getLsbD_and, BitVec.getLsbD_or, BitVec.getLsbD_not, hb, hn, decide_true] <;> simp
  · simp [BitVec.getLsbD_of_ge _ _ (Nat.le_of_not_lt hn)]

/-! ### One island -/

@[simp] theorem openSwitch_closed (n : Nat) (i : IslSt) : (openSwitch n i).closed = setBit i.closed n false := rfl

/-- Removing torque closes no switch. -/
theorem removeTorque_opens (p : Nat) (i : IslSt) (n : Nat) (h : (removeTorque p i).closed.getLsbD n = true) :
    i.closed.getLsbD n = true := by
  unfold removeTorque at h
  split at h
  · exact setBit_clears _ _ _ h
  · exact h

@[simp] theorem islClear_closed (p : Nat) (i : IslSt) : (islClear p i).closed = i.closed := rfl

@[simp] theorem islCopy_closed (p : Nat) (l : LatchSt) (i : IslSt) : (islCopy p l i).closed = i.closed := by
  unfold islCopy; split <;> rfl

@[simp] theorem islDevCopy_closed (l : LatchSt) (i : IslSt) : (islDevCopy l i).closed = i.closed := by
  unfold islDevCopy; split <;> rfl

@[simp] theorem islLatch_closed (p n : Nat) (i : IslSt) : (islLatch p n i).closed = i.closed := islCopy_closed p _ i

@[simp] theorem islDevLatch_closed (n : Nat) (i : IslSt) : (islDevLatch n i).closed = i.closed := islDevCopy_closed _ i

@[simp] theorem outLatch_closed (n code : Nat) (i : IslSt) : (outLatch n code i).closed = i.closed := by
  unfold outLatch; split <;> simp

@[simp] theorem latchOut_closed (n code : Nat) (i : IslSt) : (latchOut n code i).closed = setBit i.closed n false := rfl

@[simp] theorem islAt_setIsl (k : Isl) (i : IslSt) (s : State) : islAt k (setIsl k i s) = i := by cases k <;> rfl
@[simp] theorem islAt_setIsl_other (k : Isl) (i : IslSt) (s : State) : islAt (otherIsl k) (setIsl k i s) = islAt (otherIsl k) s := by
  cases k <;> rfl
@[simp] theorem setIsl_core (k : Isl) (i : IslSt) (s : State) : (setIsl k i s).core = s.core := by cases k <;> rfl
@[simp] theorem setIsl_store (k : Isl) (i : IslSt) (s : State) : (setIsl k i s).store = s.store := by cases k <;> rfl
@[simp] theorem setIsl_onyx (k : Isl) (i : IslSt) (s : State) : (setIsl k i s).onyx = s.onyx := by cases k <;> rfl
@[simp] theorem setIsl_die (k : Isl) (i : IslSt) (s : State) : (setIsl k i s).die = s.die := by cases k <;> rfl
@[simp] theorem setIsl_fuse (k : Isl) (i : IslSt) (s : State) : (setIsl k i s).fuse = s.fuse := by cases k <;> rfl
@[simp] theorem setIsl_pending (k : Isl) (i : IslSt) (s : State) : (setIsl k i s).pending = s.pending := by cases k <;> rfl

/-- An island is replaced by one that has the same switches closed. -/
theorem held_same {s : State} (k : Isl) (i : IslSt) (h : i.closed = (islAt k s).closed) : Held s (setIsl k i s) :=
  held_isl k i (by rw [h]; exact fun _ => id)

/-! ### Detections -/

theorem takePairDisc_held (k : Isl) (q : Nat) (s : State) : Held s (takePairDisc k q s) := by
  unfold takePairDisc
  dsimp only
  split
  · exact held_same k _ rfl
  · split
    · exact Held.trans (held_same k { islAt k s with pairs := tmod {} (islAt k s).pairs q fun x => { x with st := .fault } } rfl) (held_core _)
    · exact Held.trans (held_same k { islAt k s with pairs := tmod {} (islAt k s).pairs q fun x => { x with st := .fault } } rfl) (held_core _)

theorem takeOutFault_held (k : Isl) (n code : Nat) (s : State) : Held s (takeOutFault k n code s) := by
  unfold takeOutFault
  dsimp only
  refine Held.trans (held_isl k (outLatch n code (latchOut n code (islAt k s))) ?_) ?_
  · intro m h
    rw [outLatch_closed, latchOut_closed] at h
    exact setBit_clears _ _ _ h
  · exact held_ite _ (.refl _) (held_core _)

theorem takeIsl_held (k : Isl) (d : IslDue) (s : State) : Held s (takeIsl k d s) := by
  cases d with
  | pairDisc q => exact takePairDisc_held k q s
  | torque p => exact held_isl k _ (removeTorque_opens p _)
  | tmax p =>
    unfold takeIsl
    dsimp only
    split
    · exact Held.trans (held_isl k _ (removeTorque_opens p _)) (held_ite _ (.refl _) (held_core _))
    · exact .refl s
  | overspeed x =>
    unfold takeIsl
    dsimp only
    refine Held.trans (held_isl k (islLatch (x / 3) 0x205 (openSwitch (4 + x / 3) { islAt k s with overspd := setBit (islAt k s).overspd (x / 3) true })) ?_) ?_
    · intro m h
      rw [islLatch_closed] at h
      exact setBit_clears _ _ _ h
    · exact held_ite _ (.refl _) (held_core _)
  | xchk x => exact held_ite _ (.refl s) (held_core _)
  | lsStuck n => exact takeOutFault_held k n _ s
  | ext n => exact takeOutFault_held k n _ s
  | resetStuck => exact held_core _
  | lockoutTimeout =>
    unfold takeIsl
    dsimp only
    refine Held.trans (held_same k { islAt k s with clear := none } rfl) ?_
    split
    · exact held_core _
    · exact .refl _
  | framesMissing => exact held_isl k _ (no_closed _)
  | linkLost => exact enterSafeTalk_held _ s
  | disagree => exact enterSafeTalk_held _ s

theorem takeIslDue_held (k : Isl) (d : IslDue) (s : State) : Held s (takeIslDue k d s) :=
  held_ite _ ((held_same k { islAt k s with due := (islAt k s).due.erase d, now := islNow k s.core } rfl).trans (takeIsl_held k d _)) (.refl s)

theorem settleIsl_held (k : Isl) (s : State) : Held s (settleIsl k s) := by
  unfold settleIsl
  exact (held_same k { islAt k s with due := [], now := islNow k s.core } rfl).trans (held_fold (fun s d => takeIsl k d s) (fun s d => takeIsl_held k d s) _ _)

theorem darkTest_held (k : Isl) (n : Nat) (r : DarkRead) (s : State) : Held s (darkTest k n r s) := by
  unfold darkTest
  dsimp only
  refine held_ite _ (.refl s) ?_
  refine Held.trans (held_same k { islAt k s with
    darkDue := setBit (islAt k s).darkDue n false, dark := tset 0 (islAt k s).dark n (tget 0 (islAt k s).dark n + 1),
    now := islNow k s.core } rfl) ?_
  have own := held_ite (s := setIsl k { islAt k s with
      darkDue := setBit (islAt k s).darkDue n false, dark := tset 0 (islAt k s).dark n (tget 0 (islAt k s).dark n + 1),
      now := islNow k s.core } s) ((!r.left) = true) (takeOutFault_held k n (if k == .a then 0x207 else 0x208) _)
    (held_ite ((!r.back) = true) (takeOutFault_held k n 0x20B _) (.refl _))
  exact held_ite _ own (own.trans ((takeOutFault_held _ _ _ _).trans (held_fold _ (fun _ _ => takeOutFault_held _ _ _ _) _ _)))

/-! ### A press and a safety tick -/

theorem clearDone_held (s : State) : Held s (clearDone s) := by
  unfold clearDone
  split
  · exact held_ite _ (held_core _) (.refl s)
  · exact .refl s

theorem fold_islClear_closed (l : List Nat) (i : IslSt) : (l.foldl (fun i p => islClear p i) i).closed = i.closed := by
  induction l generalizing i with
  | nil => rfl
  | cons a r ih => exact (ih _).trans rfl

theorem fold_clearSet_closed (l : List Nat) (i : IslSt) :
    (l.foldl (fun i p => if (tget {} i.latches p).set then islClear p i else i) i).closed = i.closed := by
  induction l generalizing i with
  | nil => rfl
  | cons a r ih =>
    refine (ih _).trans ?_
    dsimp only
    split <;> rfl

theorem pressClear_closed (i : IslSt) : (pressClear i).closed = i.closed := by
  unfold pressClear
  split
  · exact fold_islClear_closed _ _
  · split
    · exact fold_clearSet_closed _ _
    · rfl

theorem actPress_held (k : Isl) (s : State) : Held s (actPress k s) := by
  unfold actPress
  dsimp only
  have act (i : IslSt) (h : i.closed = (islAt k s).closed) : Held s (setIsl k { i with press := { i.press with acted := true } } s) :=
    held_same k _ h
  split
  · exact .refl s
  · refine held_ite _ (held_ite _ (held_same k _ rfl) (.refl s)) ?_
    split
    · refine held_ite _ (held_ite _ ?_ ?_) ?_
      · exact held_ite _ (act _ rfl) ((act (islAt k s) rfl).trans (held_core _))
      · have hk := act _ (pressClear_closed (islAt k s))
        refine held_ite _ (held_ite _ (Held.trans ?_ (startFlush_held _ _ _ _)) (hk.trans (held_core _))) hk
        exact hk.trans (held_core _)
      · exact held_ite _ ((act (islAt k s) rfl).trans (held_core _)) (act _ rfl)
    · refine held_ite _ (held_ite _ (Held.trans (held_same k _ ?_) (held_core _)) (held_same k _ rfl)) (.refl s)
      rfl

end Sys2Proof.Machine
end

