-- ==== Sys2Proof/Laws/SafetyTick.lean ====
section
/-! SUPPORT. A safety tick: an island closes a switch on its own request only, and the other island closes none. -/

namespace Sys2Proof.Machine

/-- After the bits of `l` have been written, those of them that are set are requested, and no other bit has changed. -/
theorem foldBits_sub (g : Nat → IslSt → IslSt) (hg : ∀ n i, ∃ b, (g n i).closed = setBit i.closed n (i.request.getLsbD n && b))
    (r : BitVec 16) (hr : ∀ n i, (g n i).request = i.request) (l : List Nat) (hl : ∀ n ∈ l, n < 16) (i : IslSt) (hi : i.request = r) :
    (l.foldl (fun i n => g n i) i).request = r ∧
      ∀ n, (l.foldl (fun i n => g n i) i).closed.getLsbD n = true → r.getLsbD n = true ∨ (n ∉ l ∧ i.closed.getLsbD n = true) := by
  induction l generalizing i with
  | nil => exact ⟨hi, fun n h => .inr ⟨List.not_mem_nil, h⟩⟩
  | cons a t ih =>
    have ha : a < 16 := hl a List.mem_cons_self
    obtain ⟨h1, h2⟩ := ih (fun n h => hl n (List.mem_cons_of_mem _ h)) (g a i) ((hr a i).trans hi)
    refine ⟨h1, fun n h => ?_⟩
    rcases h2 n h with h3 | ⟨h3, h4⟩
    · exact .inl h3
    · obtain ⟨b, hb⟩ := hg a i
      rw [hb, hi] at h4
      by_cases e : a = n
      · subst e
        rw [setBit_same _ _ _ ha] at h4
        exact .inl (Bool.and_eq_true_iff.mp h4).1
      · rw [setBit_other _ _ _ _ e] at h4
        refine .inr ⟨?_, h4⟩
        simp only [List.mem_cons, not_or]
        exact ⟨fun h => e h.symm, h3⟩

theorem outStep_closed (k : Isl) (pads : List PadIn) (o : IslSt) (n : Nat) (i : IslSt) :
    ∃ b, (outStep k pads o n i).closed = setBit i.closed n (i.request.getLsbD n && b) := ⟨_, rfl⟩

theorem outStep_request (k : Isl) (pads : List PadIn) (o : IslSt) (n : Nat) (i : IslSt) :
    (outStep k pads o n i).request = i.request := rfl

/-- The outputs of a tick: every switch that is closed after it is requested (R296). -/
theorem tickOutputs_requested (k : Isl) (pads : List PadIn) (o i : IslSt) (n : Nat)
    (h : (tickOutputs k pads o i).closed.getLsbD n = true) : (tickOutputs k pads o i).request.getLsbD n = true := by
  have hn : n < 16 := by
    rcases Nat.lt_or_ge n 16 with hn | hn
    · exact hn
    · rw [BitVec.getLsbD_of_ge _ _ hn] at h; cases h
  obtain ⟨h1, h2⟩ := foldBits_sub (outStep k pads o) (outStep_closed k pads o) _ (outStep_request k pads o) (List.range 16)
    (fun n hm => List.mem_range.mp hm) { i with request := bitsBy 16 (wantsClosed i) } rfl
  unfold tickOutputs at h ⊢
  rcases h2 n h with h3 | ⟨h3, _⟩
  · rw [h1]; exact h3
  · exact absurd (List.mem_range.mpr hn) h3

theorem tickPress_outputs (w : Bool) (i : IslSt) :
    (tickPress w i).closed = i.closed ∧ (tickPress w i).request = i.request := by
  unfold tickPress
  dsimp only
  split
  · exact ⟨rfl, rfl⟩
  · split
    · split
      · exact ⟨rfl, rfl⟩
      · split <;> exact ⟨rfl, rfl⟩
    · split <;> exact ⟨rfl, rfl⟩

theorem tickDark_outputs {k : Isl} {i : IslSt} : (tickDark k i).closed = i.closed ∧ (tickDark k i).request = i.request := ⟨rfl, rfl⟩

theorem tickRole_outputs (r : RoleIn) (i : IslSt) : (tickRole r i).closed = i.closed ∧ (tickRole r i).request = i.request := ⟨rfl, rfl⟩

/-- Closed switches are requested switches: what a press and the end of a LOCKOUT_RESET leave true. -/
def Requested (k : Isl) (s : State) : Prop := ∀ n, (islAt k s).closed.getLsbD n = true → (islAt k s).request.getLsbD n = true

theorem core_requested (k : Isl) (c : Core) (s : State) (h : Requested k s) : Requested k { s with core := c } := by
  cases k <;> exact h

theorem clearDone_requested (k : Isl) (s : State) (h : Requested k s) : Requested k (clearDone s) := by
  unfold clearDone
  split
  · split
    · exact core_requested k _ _ h
    · exact h
  · exact h

/-- What an island has evaluated: a closed switch is requested. -/
theorem islEval_requested (k : Isl) (pads : List PadIn) (role : RoleIn) (before o : IslSt) (n : Nat)
    (h : (islEval k pads role before o).1.closed.getLsbD n = true) : (islEval k pads role before o).1.request.getLsbD n = true := by
  unfold islEval at h ⊢
  dsimp only at h ⊢
  rw [tickDark_outputs.1, (tickRole_outputs _ _).1, (tickPress_outputs _ _).1] at h
  rw [tickDark_outputs.2, (tickRole_outputs _ _).2, (tickPress_outputs _ _).2]
  exact tickOutputs_requested _ _ _ _ _ h

/-- After its own safety tick, an island's closed switches are those that it requests (R275, R296). -/
theorem islTick_requested (k : Isl) (pads : List PadIn) (role : RoleIn) (s : State) : Requested k (islTick k pads role s) := by
  unfold islTick
  dsimp only
  generalize actPress k s = s
  have h := islEval_requested k pads role (islAt k s) (islAt (otherIsl k) s)
  revert h
  generalize islEval k pads role (islAt k s) (islAt (otherIsl k) s) = e
  intro h
  refine clearDone_requested k _ ?_
  intro n hn
  rw [islAt_setIsl] at hn ⊢
  exact h n hn

theorem NoNewIdentity.then {s t u : State} (a : NoNewIdentity s t) (b : NoNewIdentity t u) : NoNewIdentity s u :=
  b.elim (fun h => a.elim (fun g => .inl (h.trans g)) (fun g => .inr (h.trans g))) .inr

/-- A safety tick of one island closes no switch of the other, and leaves the rest alone. -/
theorem islTick_rest (k : Isl) (pads : List PadIn) (role : RoleIn) (s : State) :
    (islTick k pads role s).pending = s.pending ∧ (islTick k pads role s).fuse = s.fuse ∧
      NoNewIdentity s (islTick k pads role s) ∧ OnlyOpens (otherIsl k) s (islTick k pads role s) ∧
      Grows s.store (islTick k pads role s).store := by
  unfold islTick
  dsimp only
  have h0 := actPress_held k s
  generalize actPress k s = s' at h0
  generalize islEval k pads role (islAt k s') (islAt (otherIsl k) s') = e
  generalize islTell k e s'.core = c
  have h := clearDone_held (setIsl k e.1 { s' with core := c })
  cases k
  · exact ⟨h.pending.trans h0.pending, h.fuse.trans h0.fuse, h0.ident.then h.ident, fun n x => h0.isb n (h.isb n x), h0.store.trans h.store⟩
  · exact ⟨h.pending.trans h0.pending, h.fuse.trans h0.fuse, h0.ident.then h.ident, fun n x => h0.isa n (h.isa n x), h0.store.trans h.store⟩

end Sys2Proof.Machine
end

