-- ==== Sys2Proof/Laws/Stores.lean ====
section
/-! SUPPORT. The record stores: every write lands at or above the write index and keeps the store invariant. -/

namespace Sys2Proof.Machine

theorem storeSlot_journal (t : Stores) (i : Nat) : storeSlot t 0 i = tget emptySlot t.journal i := rfl
theorem storeSlot_events (t : Stores) (i : Nat) : storeSlot t 1 i = tget emptySlot t.events i := rfl

/-- A record at the journal's write index. -/
theorem putJournal_grows (t : Stores) (b : Bytes) (h : t.wJ < 134217728) :
    Grows t { t with journal := tset emptySlot t.journal t.wJ b, wJ := t.wJ + 1 } := by
  refine ⟨Nat.le_succ _, Nat.le_refl _, ⟨fun i hi => ?_, fun _ _ => rfl⟩, fun v => ?_⟩
  · simp only [storeSlot_journal, tget_tset]
    rw [if_neg (by omega)]
  · exact ⟨tok_tset _ _ _ _ v.journal, v.events, v.checks, h, v.wE, v.wC, v.cJ, v.cE, v.cC⟩

/-- A record at the event log's write index. -/
theorem putEvent_grows (t : Stores) (b : Bytes) (h : t.wE < 16777216) :
    Grows t { t with events := tset emptySlot t.events t.wE b, wE := t.wE + 1 } := by
  refine ⟨Nat.le_refl _, Nat.le_succ _, ⟨fun _ _ => rfl, fun i hi => ?_⟩, fun v => ?_⟩
  · simp only [storeSlot_events, tget_tset]
    rw [if_neg (by omega)]
  · exact ⟨v.journal, tok_tset _ _ _ _ v.events, v.checks, v.wJ, h, v.wC, v.cJ, v.cE, v.cC⟩

/-- Chain values and block marks are no part of what is kept. -/
theorem chain_grows (t : Stores) (a b : Bytes) (c d : Bool) : Grows t { t with chainJ := a, chainE := b, rstJ := c, rstE := d } :=
  ⟨Nat.le_refl _, Nat.le_refl _, ⟨fun _ _ => rfl, fun _ _ => rfl⟩, fun v => ⟨v.1, v.2, v.3, v.4, v.5, v.6, v.7, v.8, v.9⟩⟩

theorem tok_fold {α : Type} [DecidableEq α] (d : α) (f : Nat → Nat) (g : Nat → α) (l : List Nat) (t : Table α) (h : tok d t = true) :
    tok d (l.foldl (fun m i => tset d m (f i) (g i)) t) = true := by
  induction l generalizing t with
  | nil => exact h
  | cons a r ih => exact ih _ (tok_tset d t _ _ h)

theorem addCheck_grows (b : Bytes) (t : Stores) : Grows t (addCheck b t) := by
  unfold addCheck
  split
  · exact ⟨Nat.le_refl _, Nat.le_refl _, ⟨fun _ _ => rfl, fun _ _ => rfl⟩,
      fun v => ⟨v.1, v.2, tok_fold _ _ _ _ _ v.3, v.4, v.5, by assumption, v.7, v.8, v.9⟩⟩
  · exact .refl t

/-- Stores that grow, with another core. -/
theorem held_store_core {s : State} (u : Stores) (c : Core) (h : Grows s.store u) : Held s { s with store := u, core := c } :=
  ⟨⟨rfl, rfl, .inl rfl, fun _ => id, fun _ => id⟩, h⟩

theorem held_store {s : State} (u : Stores) (h : Grows s.store u) : Held s { s with store := u } := held_store_core u s.core h

theorem checkpoint_held (n b : Nat) (ch : Bytes) (s : State) : Held s (checkpoint n b ch s) := by
  unfold checkpoint
  dsimp only
  split
  · exact held_store_core _ _ (addCheck_grows _ _)
  · exact held_store _ (addCheck_grows _ _)

theorem keyEntry_held (pub : Bytes) (s : State) : Held s (keyEntry pub s) := held_store _ (addCheck_grows _ _)

/-- The trailer of a full block of the journal. -/
theorem closeJournal_held (s : State) (h : s.store.wJ < 134217728) : Held s (closeBlock 0 s) := by
  unfold closeBlock
  dsimp only
  split
  · exact .refl s
  · rw [if_pos rfl]
    have g : ∀ (r : Bytes × Bytes), Held s { s with store := commit { s.store with journal := tset emptySlot s.store.journal s.store.wJ r.1, wJ := s.store.wJ + 1, chainJ := r.2, rstJ := false } } := by
      intro r
      exact held_store _ (((putJournal_grows _ r.1 h).trans (chain_grows _ r.2 _ false _)).trans (commit_grows _))
    split
    · exact (g _).trans (checkpoint_held _ _ _ _)
    · exact g _

/-- The trailer of a full block of the event log. -/
theorem closeEvents_held (s : State) (h : s.store.wE < 16777216) : Held s (closeBlock 1 s) := by
  unfold closeBlock
  dsimp only
  split
  · exact .refl s
  · rw [if_neg (by decide)]
    have g : ∀ (r : Bytes × Bytes), Held s { s with store := commit { s.store with events := tset emptySlot s.store.events s.store.wE r.1, wE := s.store.wE + 1, chainE := r.2, rstE := false } } := by
      intro r
      exact held_store _ (((putEvent_grows _ r.1 h).trans (chain_grows _ _ r.2 _ false)).trans (commit_grows _))
    split
    · exact (g _).trans (checkpoint_held _ _ _ _)
    · exact g _

theorem journalFull_held (s : State) : Held s (journalFull s) := held_ite _ (held_core _) (.refl s)

theorem writeCycle_held (r : Staged) (s : State) : Held s (writeCycle r s) := by
  unfold writeCycle
  dsimp only
  split
  · exact held_core _
  · rename_i h
    have hw : s.store.wJ < 134217728 := by unfold journalSlots at h; omega
    refine Held.trans (held_store_core _ (markSlots (byteAt r.bytes 8) (field r.bytes 0 8) s.store.wJ s.core) (putJournal_grows _ r.bytes hw)) ?_
    split
    · refine Held.trans (closeJournal_held _ ?_) (journalFull_held _)
      rename_i h7
      show s.store.wJ + 1 < 134217728
      omega
    · exact .refl _

theorem eventsFull_held (s : State) : Held s (eventsFull s) := by
  unfold eventsFull
  split
  · rename_i h
    have hw : s.store.wE = 16777214 := h
    dsimp only
    refine Held.trans ?_ (held_core _)
    refine Held.trans ?_ (closeEvents_held _ ?_)
    · refine held_store _ ?_
      have g := putEvent_grows s.store (eventBytes (stampOf s.core) 0x0B2 0x0D 3 [1]) (by omega)
      rw [hw] at g
      exact g
    · show eventLast + 1 < 16777216
      decide
  · exact .refl s

theorem writeEvent_held (r : Staged) (s : State) : Held s (writeEvent r s) := by
  unfold writeEvent
  dsimp only
  split
  · exact .refl s
  · rename_i h
    have hw : s.store.wE < 16777214 := by unfold eventLast at h; omega
    refine Held.trans (held_store_core _ (annotate r s.core) (putEvent_grows _ r.bytes (by omega))) ?_
    split
    · refine closeEvents_held _ ?_
      show s.store.wE + 1 < 16777216
      omega
    · exact eventsFull_held _

theorem writeRecord_held (s : State) : Held s (writeRecord s) := by
  unfold writeRecord
  split
  · exact .refl s
  · exact Held.trans (held_core _) (held_ite _ (.refl _) (held_ite _ (writeCycle_held _ _) (writeEvent_held _ _)))

theorem writeFifo_held (n : Nat) (s : State) : Held s (writeFifo n s) := by
  induction n generalizing s with
  | zero => exact .refl s
  | succ n ih => exact held_ite _ (.refl s) ((writeRecord_held s).trans (ih _))

theorem flushStores_held (s : State) : Held s (flushStores s) := by
  unfold flushStores
  exact (writeFifo_held _ s).trans (held_store_core _ _ (commit_grows _))

end Sys2Proof.Machine
end

