-- ==== Sys2Proof/Laws/Selftest.lean ====
section
/-! SUPPORT. Self-test steps and LIFECYCLE_ADVANCE: step 6 may set a write index, but writes no record slot. -/

namespace Sys2Proof.Machine

/-- What holds of every command: `Kept`, written slots stay, and the store invariant is kept. -/
structure Sound (s t : State) : Prop extends Kept s t where
  slots : SlotsKept s.store t.store
  inv : StoreInv s.store → StoreInv t.store

theorem Held.sound {s t : State} (h : Held s t) : Sound s t := ⟨h.toKept, h.store.kept, h.store.inv⟩

/-- `Kept`, with the same journal and event log, whatever the indices are. -/
structure Scanned (s t : State) : Prop extends Kept s t where
  journal : t.store.journal = s.store.journal
  events : t.store.events = s.store.events
  inv : StoreInv s.store → StoreInv t.store

theorem Scanned.refl (s : State) : Scanned s s := ⟨.refl s, rfl, rfl, id⟩

theorem Scanned.trans {s t u : State} (a : Scanned s t) (b : Scanned t u) : Scanned s u :=
  ⟨a.toKept.trans b.toKept, b.journal.trans a.journal, b.events.trans a.events, fun h => b.inv (a.inv h)⟩

theorem Scanned.sound {s t : State} (h : Scanned s t) : Sound s t :=
  ⟨h.toKept, ⟨fun i _ => by rw [storeSlot_journal, storeSlot_journal, h.journal],
    fun i _ => by rw [storeSlot_events, storeSlot_events, h.events]⟩, h.inv⟩

theorem scanned_core {s : State} (c : Core) : Scanned s { s with core := c } := ⟨(held_core c).toKept, rfl, rfl, id⟩

/-- An operation that leaves the stores as they are. -/
theorem scanned_of_held {s t : State} (h : Held s t) (e : t.store = s.store) : Scanned s t :=
  ⟨h.toKept, by rw [e], by rw [e], h.store.inv⟩

/-! ### Step 6 -/

theorem scanStore_le (t : Stores) (n k w v : Nat) (h : scanStore t n k w = some v) (hw : w ≤ storeSize n) : v ≤ storeSize n := by
  induction k generalizing w with
  | zero =>
    unfold scanStore at h
    split at h
    · cases h; exact hw
    · cases h
  | succ k ih =>
    unfold scanStore at h
    split at h
    · cases h; exact hw
    · rename_i hn
      refine ih (w + 1) h ?_
      rcases Nat.lt_or_ge w (storeSize n) with h1 | h1
      · exact h1
      · exact absurd (by simp [Nat.le_antisymm hw h1]) hn

theorem setW_inv (n w : Nat) (t : Stores) (h : w ≤ storeSize n) (v : StoreInv t) : StoreInv (setW n w t) := by
  unfold setW
  match n, h with
  | 0, h => exact ⟨v.1, v.2, v.3, h, v.5, v.6, v.7, v.8, v.9⟩
  | 1, h => exact ⟨v.1, v.2, v.3, v.4, h, v.6, v.7, v.8, v.9⟩
  | _ + 2, h => exact ⟨v.1, v.2, v.3, v.4, v.5, h, v.7, v.8, v.9⟩

theorem setW_slots (n w : Nat) (t : Stores) : (setW n w t).journal = t.journal ∧ (setW n w t).events = t.events := by
  unfold setW; split <;> exact ⟨rfl, rfl⟩

theorem committedW_le (n : Nat) (t : Stores) (v : StoreInv t) : committedW t n ≤ storeSize n := by
  unfold committedW storeSize
  match n with
  | 0 => exact v.cJ
  | 1 => exact v.cE
  | _ + 2 => exact v.cC

theorem pointerStep_scanned (r : Bool × State) (n : Nat) : Scanned r.2 (pointerStep r n).2 := by
  unfold pointerStep
  dsimp only
  split
  · rename_i w h
    refine ⟨⟨rfl, rfl, .inl rfl, fun _ => id, fun _ => id⟩, (setW_slots _ _ _).1, (setW_slots _ _ _).2, fun v => ?_⟩
    exact setW_inv _ _ _ (scanStore_le _ _ _ _ _ h (committedW_le n _ v)) v
  · exact .refl _

theorem addCheck_slots (b : Bytes) (t : Stores) : (addCheck b t).journal = t.journal ∧ (addCheck b t).events = t.events := by
  unfold addCheck; split <;> exact ⟨rfl, rfl⟩

theorem checkpoint_scanned (n b : Nat) (ch : Bytes) (s : State) : Scanned s (checkpoint n b ch s) := by
  have h := checkpoint_held n b ch s
  have hs : (checkpoint n b ch s).store.journal = s.store.journal ∧ (checkpoint n b ch s).store.events = s.store.events := by
    unfold checkpoint
    dsimp only
    split <;> exact addCheck_slots _ _
  exact ⟨h.toKept, hs.1, hs.2, h.store.inv⟩

theorem blockStep_scanned (n : Nat) (r : Bool × State) : Scanned r.2 (blockStep n r).2 := by
  unfold blockStep
  dsimp only
  split
  · exact .refl _
  · dsimp only
    split
    · exact checkpoint_scanned _ _ _ _
    · exact .refl _

theorem recorderStep_scanned (s : State) : Scanned s (recorderStep s).2 := by
  unfold recorderStep
  dsimp only [List.foldl]
  refine Scanned.trans ?_ (scanned_core _)
  refine Scanned.trans ?_ (blockStep_scanned 1 _)
  refine Scanned.trans ?_ (blockStep_scanned 0 _)
  refine Scanned.trans ?_ (pointerStep_scanned _ 2)
  refine Scanned.trans ?_ (pointerStep_scanned _ 1)
  exact pointerStep_scanned (true, s) 0

/-! ### The steps -/

theorem loadField_store (s : State) : (loadField s).store = s.store := by
  unfold loadField; split <;> rfl

theorem imagesTaken_scanned (s : State) : Scanned s (imagesTaken s) := by
  unfold imagesTaken
  refine scanned_of_held (Held.trans ?_ (loadField_held _)) (loadField_store _)
  exact held_isls _ _ _ (fun _ => id) (fun _ => id)

theorem stepBody_scanned (n : Nat) (rows : List Nat) (s : State) : Scanned s (stepBody n rows s).2 := by
  unfold stepBody
  split
  · exact scanned_core _
  · exact .refl s
  · dsimp only
    split
    · exact imagesTaken_scanned s
    · exact scanned_core _
  · exact recorderStep_scanned s
  · exact scanned_core _
  · exact .refl s
  · exact .refl s

theorem enterSafeTalk_store (n : Nat) (s : State) : (enterSafeTalk n s).store = s.store := by
  unfold enterSafeTalk; split <;> rfl

theorem enterSafeTalk_scanned (n : Nat) (s : State) : Scanned s (enterSafeTalk n s) :=
  scanned_of_held (enterSafeTalk_held n s) (enterSafeTalk_store n s)

theorem enterLockout_store (n p : Nat) (s : State) : (enterLockout n p s).store = s.store := by
  unfold enterLockout; split <;> rfl

theorem enterLockout_scanned (n p : Nat) (s : State) : Scanned s (enterLockout n p s) :=
  scanned_of_held (enterLockout_held n p s) (enterLockout_store n p s)

theorem failSelftest_scanned (n code us : Nat) (s : State) : Scanned s (failSelftest n code us s) := by
  unfold failSelftest
  dsimp only
  refine Scanned.trans ?_ (enterSafeTalk_scanned _ _)
  exact scanned_core _

theorem decideMode_scanned (s : State) : Scanned s (decideMode s) := by
  unfold decideMode
  dsimp only
  split
  · exact scanned_core _
  · split
    · exact enterLockout_scanned _ _ _
    · split
      · exact enterLockout_scanned _ _ _
      · split
        · exact scanned_core _
        · exact scanned_core _

theorem passStep_scanned (n ms : Nat) (s : State) : Scanned s (passStep n ms s) := by
  unfold passStep
  dsimp only
  split
  · exact scanned_core _
  · refine Scanned.trans ?_ (scanned_core _)
    refine Scanned.trans ?_ (decideMode_scanned _)
    exact scanned_core _

theorem countStep_scanned (ms : Nat) (s : State) : Scanned s (countStep ms s) := by
  unfold countStep
  exact scanned_core _

theorem selftestStep_scanned (fail : Nat) (rows : List Nat) (ms : Nat) (s : State) : Scanned s (selftestStep fail rows ms s) := by
  unfold selftestStep
  dsimp only
  refine (countStep_scanned ms s).trans ?_
  split
  · exact failSelftest_scanned _ _ _ _
  · refine (stepBody_scanned s.core.sys.stStep rows _).trans ?_
    split
    · exact passStep_scanned _ _ _
    · exact failSelftest_scanned _ _ _ _

theorem onlineRun_scanned (k : Nat) (s : State) : Scanned s (onlineRun k s) := by
  unfold onlineRun
  exact (recorderStep_scanned s).trans (scanned_core _)

theorem runDeliver_scanned (k : Nat) (d : Bytes) (s : State) : Scanned s (runDeliver k d s) := by
  unfold runDeliver
  split
  · exact onlineRun_scanned k s
  · split
    · exact scanned_core _
    · exact scanned_core _

theorem startOpS_scanned (k op : Nat) (f : Bytes → State → State) (hf : ∀ d s, Scanned s (f d s)) (s : State) :
    Scanned s (startOpS k op f s) := by
  unfold startOpS
  split
  · exact (scanned_core _).trans (hf _ _)
  · exact .refl s

end Sys2Proof.Machine
end

