-- ==== Sys2Proof/Laws/State.lean ====
section
/-! SUPPORT. The named updates of the core: every group that an update does not write stays, so that no later proof
unfolds a record update; and reading back what was written. -/

namespace Sys2Proof.Machine

variable (c : Core)

/-! ### What is sent: `emit` writes `out` -/

@[simp] theorem emit_sys (o : Output) : (emit o c).sys = c.sys := rfl
@[simp] theorem emit_tb (o : Output) : (emit o c).tb = c.tb := rfl
@[simp] theorem emit_nv (o : Output) : (emit o c).nv = c.nv := rfl
@[simp] theorem emit_run (o : Output) : (emit o c).run = c.run := rfl
@[simp] theorem emit_recd (o : Output) : (emit o c).recd = c.recd := rfl
@[simp] theorem emit_bar (o : Output) : (emit o c).bar = c.bar := rfl
@[simp] theorem emit_host (o : Output) : (emit o c).host = c.host := rfl
@[simp] theorem emit_seq (o : Output) : (emit o c).seq = c.seq := rfl
@[simp] theorem emit_links (o : Output) : (emit o c).links = c.links := rfl
@[simp] theorem emit_cam (o : Output) : (emit o c).cam = c.cam := rfl
@[simp] theorem emit_fld (o : Output) : (emit o c).fld = c.fld := rfl
@[simp] theorem emit_twin (o : Output) : (emit o c).twin = c.twin := rfl
@[simp] theorem emit_train (o : Output) : (emit o c).train = c.train := rfl
@[simp] theorem emit_mem (o : Output) : (emit o c).mem = c.mem := rfl
@[simp] theorem emit_crossA (o : Output) : (emit o c).crossA = c.crossA := rfl
@[simp] theorem emit_crossB (o : Output) : (emit o c).crossB = c.crossB := rfl
@[simp] theorem emit_free (o : Output) : (emit o c).free = c.free := rfl

/-! ### A fault on its way: `raise` writes `seq` -/

@[simp] theorem raise_sys (code portal object : Nat) : (raise code portal object c).sys = c.sys := rfl
@[simp] theorem raise_tb (code portal object : Nat) : (raise code portal object c).tb = c.tb := rfl
@[simp] theorem raise_nv (code portal object : Nat) : (raise code portal object c).nv = c.nv := rfl
@[simp] theorem raise_run (code portal object : Nat) : (raise code portal object c).run = c.run := rfl
@[simp] theorem raise_recd (code portal object : Nat) : (raise code portal object c).recd = c.recd := rfl
@[simp] theorem raise_bar (code portal object : Nat) : (raise code portal object c).bar = c.bar := rfl
@[simp] theorem raise_host (code portal object : Nat) : (raise code portal object c).host = c.host := rfl
@[simp] theorem raise_links (code portal object : Nat) : (raise code portal object c).links = c.links := rfl
@[simp] theorem raise_cam (code portal object : Nat) : (raise code portal object c).cam = c.cam := rfl
@[simp] theorem raise_fld (code portal object : Nat) : (raise code portal object c).fld = c.fld := rfl
@[simp] theorem raise_twin (code portal object : Nat) : (raise code portal object c).twin = c.twin := rfl
@[simp] theorem raise_train (code portal object : Nat) : (raise code portal object c).train = c.train := rfl
@[simp] theorem raise_mem (code portal object : Nat) : (raise code portal object c).mem = c.mem := rfl
@[simp] theorem raise_crossA (code portal object : Nat) : (raise code portal object c).crossA = c.crossA := rfl
@[simp] theorem raise_crossB (code portal object : Nat) : (raise code portal object c).crossB = c.crossB := rfl
@[simp] theorem raise_out (code portal object : Nat) : (raise code portal object c).out = c.out := rfl
@[simp] theorem raise_free (code portal object : Nat) : (raise code portal object c).free = c.free := rfl

/-! ### A slot: `setSlot` writes `host` -/

@[simp] theorem setSlot_sys (k : Nat) (x : Option SlotSt) : (setSlot k x c).sys = c.sys := rfl
@[simp] theorem setSlot_tb (k : Nat) (x : Option SlotSt) : (setSlot k x c).tb = c.tb := rfl
@[simp] theorem setSlot_nv (k : Nat) (x : Option SlotSt) : (setSlot k x c).nv = c.nv := rfl
@[simp] theorem setSlot_run (k : Nat) (x : Option SlotSt) : (setSlot k x c).run = c.run := rfl
@[simp] theorem setSlot_recd (k : Nat) (x : Option SlotSt) : (setSlot k x c).recd = c.recd := rfl
@[simp] theorem setSlot_bar (k : Nat) (x : Option SlotSt) : (setSlot k x c).bar = c.bar := rfl
@[simp] theorem setSlot_seq (k : Nat) (x : Option SlotSt) : (setSlot k x c).seq = c.seq := rfl
@[simp] theorem setSlot_links (k : Nat) (x : Option SlotSt) : (setSlot k x c).links = c.links := rfl
@[simp] theorem setSlot_cam (k : Nat) (x : Option SlotSt) : (setSlot k x c).cam = c.cam := rfl
@[simp] theorem setSlot_fld (k : Nat) (x : Option SlotSt) : (setSlot k x c).fld = c.fld := rfl
@[simp] theorem setSlot_twin (k : Nat) (x : Option SlotSt) : (setSlot k x c).twin = c.twin := rfl
@[simp] theorem setSlot_train (k : Nat) (x : Option SlotSt) : (setSlot k x c).train = c.train := rfl
@[simp] theorem setSlot_mem (k : Nat) (x : Option SlotSt) : (setSlot k x c).mem = c.mem := rfl
@[simp] theorem setSlot_crossA (k : Nat) (x : Option SlotSt) : (setSlot k x c).crossA = c.crossA := rfl
@[simp] theorem setSlot_crossB (k : Nat) (x : Option SlotSt) : (setSlot k x c).crossB = c.crossB := rfl
@[simp] theorem setSlot_out (k : Nat) (x : Option SlotSt) : (setSlot k x c).out = c.out := rfl
@[simp] theorem setSlot_free (k : Nat) (x : Option SlotSt) : (setSlot k x c).free = c.free := rfl

/-! ### A flow: `setFlow` writes `host` -/

@[simp] theorem setFlow_sys (n : Nat) (f : FlowSt) : (setFlow n f c).sys = c.sys := rfl
@[simp] theorem setFlow_tb (n : Nat) (f : FlowSt) : (setFlow n f c).tb = c.tb := rfl
@[simp] theorem setFlow_nv (n : Nat) (f : FlowSt) : (setFlow n f c).nv = c.nv := rfl
@[simp] theorem setFlow_run (n : Nat) (f : FlowSt) : (setFlow n f c).run = c.run := rfl
@[simp] theorem setFlow_recd (n : Nat) (f : FlowSt) : (setFlow n f c).recd = c.recd := rfl
@[simp] theorem setFlow_bar (n : Nat) (f : FlowSt) : (setFlow n f c).bar = c.bar := rfl
@[simp] theorem setFlow_seq (n : Nat) (f : FlowSt) : (setFlow n f c).seq = c.seq := rfl
@[simp] theorem setFlow_links (n : Nat) (f : FlowSt) : (setFlow n f c).links = c.links := rfl
@[simp] theorem setFlow_cam (n : Nat) (f : FlowSt) : (setFlow n f c).cam = c.cam := rfl
@[simp] theorem setFlow_fld (n : Nat) (f : FlowSt) : (setFlow n f c).fld = c.fld := rfl
@[simp] theorem setFlow_twin (n : Nat) (f : FlowSt) : (setFlow n f c).twin = c.twin := rfl
@[simp] theorem setFlow_train (n : Nat) (f : FlowSt) : (setFlow n f c).train = c.train := rfl
@[simp] theorem setFlow_mem (n : Nat) (f : FlowSt) : (setFlow n f c).mem = c.mem := rfl
@[simp] theorem setFlow_crossA (n : Nat) (f : FlowSt) : (setFlow n f c).crossA = c.crossA := rfl
@[simp] theorem setFlow_crossB (n : Nat) (f : FlowSt) : (setFlow n f c).crossB = c.crossB := rfl
@[simp] theorem setFlow_out (n : Nat) (f : FlowSt) : (setFlow n f c).out = c.out := rfl
@[simp] theorem setFlow_free (n : Nat) (f : FlowSt) : (setFlow n f c).free = c.free := rfl

/-! ### A counter of the host port: `hpCount` writes `host` -/

@[simp] theorem hpCount_sys (o : Nat) : (hpCount o c).sys = c.sys := rfl
@[simp] theorem hpCount_tb (o : Nat) : (hpCount o c).tb = c.tb := rfl
@[simp] theorem hpCount_nv (o : Nat) : (hpCount o c).nv = c.nv := rfl
@[simp] theorem hpCount_run (o : Nat) : (hpCount o c).run = c.run := rfl
@[simp] theorem hpCount_recd (o : Nat) : (hpCount o c).recd = c.recd := rfl
@[simp] theorem hpCount_bar (o : Nat) : (hpCount o c).bar = c.bar := rfl
@[simp] theorem hpCount_seq (o : Nat) : (hpCount o c).seq = c.seq := rfl
@[simp] theorem hpCount_links (o : Nat) : (hpCount o c).links = c.links := rfl
@[simp] theorem hpCount_cam (o : Nat) : (hpCount o c).cam = c.cam := rfl
@[simp] theorem hpCount_fld (o : Nat) : (hpCount o c).fld = c.fld := rfl
@[simp] theorem hpCount_twin (o : Nat) : (hpCount o c).twin = c.twin := rfl
@[simp] theorem hpCount_train (o : Nat) : (hpCount o c).train = c.train := rfl
@[simp] theorem hpCount_mem (o : Nat) : (hpCount o c).mem = c.mem := rfl
@[simp] theorem hpCount_crossA (o : Nat) : (hpCount o c).crossA = c.crossA := rfl
@[simp] theorem hpCount_crossB (o : Nat) : (hpCount o c).crossB = c.crossB := rfl
@[simp] theorem hpCount_out (o : Nat) : (hpCount o c).out = c.out := rfl
@[simp] theorem hpCount_free (o : Nat) : (hpCount o c).free = c.free := rfl

/-! ### An axis: `modAx` writes `seq` -/

@[simp] theorem modAx_sys (x : Nat) (f : AxisSt → AxisSt) : (modAx x f c).sys = c.sys := rfl
@[simp] theorem modAx_tb (x : Nat) (f : AxisSt → AxisSt) : (modAx x f c).tb = c.tb := rfl
@[simp] theorem modAx_nv (x : Nat) (f : AxisSt → AxisSt) : (modAx x f c).nv = c.nv := rfl
@[simp] theorem modAx_run (x : Nat) (f : AxisSt → AxisSt) : (modAx x f c).run = c.run := rfl
@[simp] theorem modAx_recd (x : Nat) (f : AxisSt → AxisSt) : (modAx x f c).recd = c.recd := rfl
@[simp] theorem modAx_bar (x : Nat) (f : AxisSt → AxisSt) : (modAx x f c).bar = c.bar := rfl
@[simp] theorem modAx_host (x : Nat) (f : AxisSt → AxisSt) : (modAx x f c).host = c.host := rfl
@[simp] theorem modAx_links (x : Nat) (f : AxisSt → AxisSt) : (modAx x f c).links = c.links := rfl
@[simp] theorem modAx_cam (x : Nat) (f : AxisSt → AxisSt) : (modAx x f c).cam = c.cam := rfl
@[simp] theorem modAx_fld (x : Nat) (f : AxisSt → AxisSt) : (modAx x f c).fld = c.fld := rfl
@[simp] theorem modAx_twin (x : Nat) (f : AxisSt → AxisSt) : (modAx x f c).twin = c.twin := rfl
@[simp] theorem modAx_train (x : Nat) (f : AxisSt → AxisSt) : (modAx x f c).train = c.train := rfl
@[simp] theorem modAx_mem (x : Nat) (f : AxisSt → AxisSt) : (modAx x f c).mem = c.mem := rfl
@[simp] theorem modAx_crossA (x : Nat) (f : AxisSt → AxisSt) : (modAx x f c).crossA = c.crossA := rfl
@[simp] theorem modAx_crossB (x : Nat) (f : AxisSt → AxisSt) : (modAx x f c).crossB = c.crossB := rfl
@[simp] theorem modAx_out (x : Nat) (f : AxisSt → AxisSt) : (modAx x f c).out = c.out := rfl
@[simp] theorem modAx_free (x : Nat) (f : AxisSt → AxisSt) : (modAx x f c).free = c.free := rfl

/-! ### A link: `modLink` writes `links` -/

@[simp] theorem modLink_sys (x : Nat) (f : LinkSt → LinkSt) : (modLink x f c).sys = c.sys := rfl
@[simp] theorem modLink_tb (x : Nat) (f : LinkSt → LinkSt) : (modLink x f c).tb = c.tb := rfl
@[simp] theorem modLink_nv (x : Nat) (f : LinkSt → LinkSt) : (modLink x f c).nv = c.nv := rfl
@[simp] theorem modLink_run (x : Nat) (f : LinkSt → LinkSt) : (modLink x f c).run = c.run := rfl
@[simp] theorem modLink_recd (x : Nat) (f : LinkSt → LinkSt) : (modLink x f c).recd = c.recd := rfl
@[simp] theorem modLink_bar (x : Nat) (f : LinkSt → LinkSt) : (modLink x f c).bar = c.bar := rfl
@[simp] theorem modLink_host (x : Nat) (f : LinkSt → LinkSt) : (modLink x f c).host = c.host := rfl
@[simp] theorem modLink_seq (x : Nat) (f : LinkSt → LinkSt) : (modLink x f c).seq = c.seq := rfl
@[simp] theorem modLink_cam (x : Nat) (f : LinkSt → LinkSt) : (modLink x f c).cam = c.cam := rfl
@[simp] theorem modLink_fld (x : Nat) (f : LinkSt → LinkSt) : (modLink x f c).fld = c.fld := rfl
@[simp] theorem modLink_twin (x : Nat) (f : LinkSt → LinkSt) : (modLink x f c).twin = c.twin := rfl
@[simp] theorem modLink_train (x : Nat) (f : LinkSt → LinkSt) : (modLink x f c).train = c.train := rfl
@[simp] theorem modLink_mem (x : Nat) (f : LinkSt → LinkSt) : (modLink x f c).mem = c.mem := rfl
@[simp] theorem modLink_crossA (x : Nat) (f : LinkSt → LinkSt) : (modLink x f c).crossA = c.crossA := rfl
@[simp] theorem modLink_crossB (x : Nat) (f : LinkSt → LinkSt) : (modLink x f c).crossB = c.crossB := rfl
@[simp] theorem modLink_out (x : Nat) (f : LinkSt → LinkSt) : (modLink x f c).out = c.out := rfl
@[simp] theorem modLink_free (x : Nat) (f : LinkSt → LinkSt) : (modLink x f c).free = c.free := rfl

/-! ### A master: `modMs` writes `seq` -/

@[simp] theorem modMs_sys (p : Nat) (f : MasterSt → MasterSt) : (modMs p f c).sys = c.sys := rfl
@[simp] theorem modMs_tb (p : Nat) (f : MasterSt → MasterSt) : (modMs p f c).tb = c.tb := rfl
@[simp] theorem modMs_nv (p : Nat) (f : MasterSt → MasterSt) : (modMs p f c).nv = c.nv := rfl
@[simp] theorem modMs_run (p : Nat) (f : MasterSt → MasterSt) : (modMs p f c).run = c.run := rfl
@[simp] theorem modMs_recd (p : Nat) (f : MasterSt → MasterSt) : (modMs p f c).recd = c.recd := rfl
@[simp] theorem modMs_bar (p : Nat) (f : MasterSt → MasterSt) : (modMs p f c).bar = c.bar := rfl
@[simp] theorem modMs_host (p : Nat) (f : MasterSt → MasterSt) : (modMs p f c).host = c.host := rfl
@[simp] theorem modMs_links (p : Nat) (f : MasterSt → MasterSt) : (modMs p f c).links = c.links := rfl
@[simp] theorem modMs_cam (p : Nat) (f : MasterSt → MasterSt) : (modMs p f c).cam = c.cam := rfl
@[simp] theorem modMs_fld (p : Nat) (f : MasterSt → MasterSt) : (modMs p f c).fld = c.fld := rfl
@[simp] theorem modMs_twin (p : Nat) (f : MasterSt → MasterSt) : (modMs p f c).twin = c.twin := rfl
@[simp] theorem modMs_train (p : Nat) (f : MasterSt → MasterSt) : (modMs p f c).train = c.train := rfl
@[simp] theorem modMs_mem (p : Nat) (f : MasterSt → MasterSt) : (modMs p f c).mem = c.mem := rfl
@[simp] theorem modMs_crossA (p : Nat) (f : MasterSt → MasterSt) : (modMs p f c).crossA = c.crossA := rfl
@[simp] theorem modMs_crossB (p : Nat) (f : MasterSt → MasterSt) : (modMs p f c).crossB = c.crossB := rfl
@[simp] theorem modMs_out (p : Nat) (f : MasterSt → MasterSt) : (modMs p f c).out = c.out := rfl
@[simp] theorem modMs_free (p : Nat) (f : MasterSt → MasterSt) : (modMs p f c).free = c.free := rfl

/-! ### A channel: `modCh` writes `seq` -/

@[simp] theorem modCh_sys (n : Nat) (f : ChannelSt → ChannelSt) : (modCh n f c).sys = c.sys := rfl
@[simp] theorem modCh_tb (n : Nat) (f : ChannelSt → ChannelSt) : (modCh n f c).tb = c.tb := rfl
@[simp] theorem modCh_nv (n : Nat) (f : ChannelSt → ChannelSt) : (modCh n f c).nv = c.nv := rfl
@[simp] theorem modCh_run (n : Nat) (f : ChannelSt → ChannelSt) : (modCh n f c).run = c.run := rfl
@[simp] theorem modCh_recd (n : Nat) (f : ChannelSt → ChannelSt) : (modCh n f c).recd = c.recd := rfl
@[simp] theorem modCh_bar (n : Nat) (f : ChannelSt → ChannelSt) : (modCh n f c).bar = c.bar := rfl
@[simp] theorem modCh_host (n : Nat) (f : ChannelSt → ChannelSt) : (modCh n f c).host = c.host := rfl
@[simp] theorem modCh_links (n : Nat) (f : ChannelSt → ChannelSt) : (modCh n f c).links = c.links := rfl
@[simp] theorem modCh_cam (n : Nat) (f : ChannelSt → ChannelSt) : (modCh n f c).cam = c.cam := rfl
@[simp] theorem modCh_fld (n : Nat) (f : ChannelSt → ChannelSt) : (modCh n f c).fld = c.fld := rfl
@[simp] theorem modCh_twin (n : Nat) (f : ChannelSt → ChannelSt) : (modCh n f c).twin = c.twin := rfl
@[simp] theorem modCh_train (n : Nat) (f : ChannelSt → ChannelSt) : (modCh n f c).train = c.train := rfl
@[simp] theorem modCh_mem (n : Nat) (f : ChannelSt → ChannelSt) : (modCh n f c).mem = c.mem := rfl
@[simp] theorem modCh_crossA (n : Nat) (f : ChannelSt → ChannelSt) : (modCh n f c).crossA = c.crossA := rfl
@[simp] theorem modCh_crossB (n : Nat) (f : ChannelSt → ChannelSt) : (modCh n f c).crossB = c.crossB := rfl
@[simp] theorem modCh_out (n : Nat) (f : ChannelSt → ChannelSt) : (modCh n f c).out = c.out := rfl
@[simp] theorem modCh_free (n : Nat) (f : ChannelSt → ChannelSt) : (modCh n f c).free = c.free := rfl

/-! ### A channel, written whole: `setChan` writes `seq` -/

@[simp] theorem setChan_sys (n : Nat) (h : ChannelSt) : (setChan n h c).sys = c.sys := rfl
@[simp] theorem setChan_tb (n : Nat) (h : ChannelSt) : (setChan n h c).tb = c.tb := rfl
@[simp] theorem setChan_nv (n : Nat) (h : ChannelSt) : (setChan n h c).nv = c.nv := rfl
@[simp] theorem setChan_run (n : Nat) (h : ChannelSt) : (setChan n h c).run = c.run := rfl
@[simp] theorem setChan_recd (n : Nat) (h : ChannelSt) : (setChan n h c).recd = c.recd := rfl
@[simp] theorem setChan_bar (n : Nat) (h : ChannelSt) : (setChan n h c).bar = c.bar := rfl
@[simp] theorem setChan_host (n : Nat) (h : ChannelSt) : (setChan n h c).host = c.host := rfl
@[simp] theorem setChan_links (n : Nat) (h : ChannelSt) : (setChan n h c).links = c.links := rfl
@[simp] theorem setChan_cam (n : Nat) (h : ChannelSt) : (setChan n h c).cam = c.cam := rfl
@[simp] theorem setChan_fld (n : Nat) (h : ChannelSt) : (setChan n h c).fld = c.fld := rfl
@[simp] theorem setChan_twin (n : Nat) (h : ChannelSt) : (setChan n h c).twin = c.twin := rfl
@[simp] theorem setChan_train (n : Nat) (h : ChannelSt) : (setChan n h c).train = c.train := rfl
@[simp] theorem setChan_mem (n : Nat) (h : ChannelSt) : (setChan n h c).mem = c.mem := rfl
@[simp] theorem setChan_crossA (n : Nat) (h : ChannelSt) : (setChan n h c).crossA = c.crossA := rfl
@[simp] theorem setChan_crossB (n : Nat) (h : ChannelSt) : (setChan n h c).crossB = c.crossB := rfl
@[simp] theorem setChan_out (n : Nat) (h : ChannelSt) : (setChan n h c).out = c.out := rfl
@[simp] theorem setChan_free (n : Nat) (h : ChannelSt) : (setChan n h c).free = c.free := rfl

/-! ### A host flag: `setHf` writes `seq` -/

@[simp] theorem setHf_sys (n k : Nat) (b : Bool) : (setHf n k b c).sys = c.sys := rfl
@[simp] theorem setHf_tb (n k : Nat) (b : Bool) : (setHf n k b c).tb = c.tb := rfl
@[simp] theorem setHf_nv (n k : Nat) (b : Bool) : (setHf n k b c).nv = c.nv := rfl
@[simp] theorem setHf_run (n k : Nat) (b : Bool) : (setHf n k b c).run = c.run := rfl
@[simp] theorem setHf_recd (n k : Nat) (b : Bool) : (setHf n k b c).recd = c.recd := rfl
@[simp] theorem setHf_bar (n k : Nat) (b : Bool) : (setHf n k b c).bar = c.bar := rfl
@[simp] theorem setHf_host (n k : Nat) (b : Bool) : (setHf n k b c).host = c.host := rfl
@[simp] theorem setHf_links (n k : Nat) (b : Bool) : (setHf n k b c).links = c.links := rfl
@[simp] theorem setHf_cam (n k : Nat) (b : Bool) : (setHf n k b c).cam = c.cam := rfl
@[simp] theorem setHf_fld (n k : Nat) (b : Bool) : (setHf n k b c).fld = c.fld := rfl
@[simp] theorem setHf_twin (n k : Nat) (b : Bool) : (setHf n k b c).twin = c.twin := rfl
@[simp] theorem setHf_train (n k : Nat) (b : Bool) : (setHf n k b c).train = c.train := rfl
@[simp] theorem setHf_mem (n k : Nat) (b : Bool) : (setHf n k b c).mem = c.mem := rfl
@[simp] theorem setHf_crossA (n k : Nat) (b : Bool) : (setHf n k b c).crossA = c.crossA := rfl
@[simp] theorem setHf_crossB (n k : Nat) (b : Bool) : (setHf n k b c).crossB = c.crossB := rfl
@[simp] theorem setHf_out (n k : Nat) (b : Bool) : (setHf n k b c).out = c.out := rfl
@[simp] theorem setHf_free (n k : Nat) (b : Bool) : (setHf n k b c).free = c.free := rfl

/-! ### The estimator of a portal: `modOb` writes `seq` -/

@[simp] theorem modOb_sys (p : Nat) (f : ObstSt → ObstSt) : (modOb p f c).sys = c.sys := rfl
@[simp] theorem modOb_tb (p : Nat) (f : ObstSt → ObstSt) : (modOb p f c).tb = c.tb := rfl
@[simp] theorem modOb_nv (p : Nat) (f : ObstSt → ObstSt) : (modOb p f c).nv = c.nv := rfl
@[simp] theorem modOb_run (p : Nat) (f : ObstSt → ObstSt) : (modOb p f c).run = c.run := rfl
@[simp] theorem modOb_recd (p : Nat) (f : ObstSt → ObstSt) : (modOb p f c).recd = c.recd := rfl
@[simp] theorem modOb_bar (p : Nat) (f : ObstSt → ObstSt) : (modOb p f c).bar = c.bar := rfl
@[simp] theorem modOb_host (p : Nat) (f : ObstSt → ObstSt) : (modOb p f c).host = c.host := rfl
@[simp] theorem modOb_links (p : Nat) (f : ObstSt → ObstSt) : (modOb p f c).links = c.links := rfl
@[simp] theorem modOb_cam (p : Nat) (f : ObstSt → ObstSt) : (modOb p f c).cam = c.cam := rfl
@[simp] theorem modOb_fld (p : Nat) (f : ObstSt → ObstSt) : (modOb p f c).fld = c.fld := rfl
@[simp] theorem modOb_twin (p : Nat) (f : ObstSt → ObstSt) : (modOb p f c).twin = c.twin := rfl
@[simp] theorem modOb_train (p : Nat) (f : ObstSt → ObstSt) : (modOb p f c).train = c.train := rfl
@[simp] theorem modOb_mem (p : Nat) (f : ObstSt → ObstSt) : (modOb p f c).mem = c.mem := rfl
@[simp] theorem modOb_crossA (p : Nat) (f : ObstSt → ObstSt) : (modOb p f c).crossA = c.crossA := rfl
@[simp] theorem modOb_crossB (p : Nat) (f : ObstSt → ObstSt) : (modOb p f c).crossB = c.crossB := rfl
@[simp] theorem modOb_out (p : Nat) (f : ObstSt → ObstSt) : (modOb p f c).out = c.out := rfl
@[simp] theorem modOb_free (p : Nat) (f : ObstSt → ObstSt) : (modOb p f c).free = c.free := rfl

/-! ### Topaz: `modTz` writes `seq` -/

@[simp] theorem modTz_sys (f : TopazSt → TopazSt) : (modTz f c).sys = c.sys := rfl
@[simp] theorem modTz_tb (f : TopazSt → TopazSt) : (modTz f c).tb = c.tb := rfl
@[simp] theorem modTz_nv (f : TopazSt → TopazSt) : (modTz f c).nv = c.nv := rfl
@[simp] theorem modTz_run (f : TopazSt → TopazSt) : (modTz f c).run = c.run := rfl
@[simp] theorem modTz_recd (f : TopazSt → TopazSt) : (modTz f c).recd = c.recd := rfl
@[simp] theorem modTz_bar (f : TopazSt → TopazSt) : (modTz f c).bar = c.bar := rfl
@[simp] theorem modTz_host (f : TopazSt → TopazSt) : (modTz f c).host = c.host := rfl
@[simp] theorem modTz_links (f : TopazSt → TopazSt) : (modTz f c).links = c.links := rfl
@[simp] theorem modTz_cam (f : TopazSt → TopazSt) : (modTz f c).cam = c.cam := rfl
@[simp] theorem modTz_fld (f : TopazSt → TopazSt) : (modTz f c).fld = c.fld := rfl
@[simp] theorem modTz_twin (f : TopazSt → TopazSt) : (modTz f c).twin = c.twin := rfl
@[simp] theorem modTz_train (f : TopazSt → TopazSt) : (modTz f c).train = c.train := rfl
@[simp] theorem modTz_mem (f : TopazSt → TopazSt) : (modTz f c).mem = c.mem := rfl
@[simp] theorem modTz_crossA (f : TopazSt → TopazSt) : (modTz f c).crossA = c.crossA := rfl
@[simp] theorem modTz_crossB (f : TopazSt → TopazSt) : (modTz f c).crossB = c.crossB := rfl
@[simp] theorem modTz_out (f : TopazSt → TopazSt) : (modTz f c).out = c.out := rfl
@[simp] theorem modTz_free (f : TopazSt → TopazSt) : (modTz f c).free = c.free := rfl

/-! ### A page of the cam cache: `setPage` writes `cam` -/

@[simp] theorem setPage_sys (k : Nat) (g : PageSt) : (setPage k g c).sys = c.sys := rfl
@[simp] theorem setPage_tb (k : Nat) (g : PageSt) : (setPage k g c).tb = c.tb := rfl
@[simp] theorem setPage_nv (k : Nat) (g : PageSt) : (setPage k g c).nv = c.nv := rfl
@[simp] theorem setPage_run (k : Nat) (g : PageSt) : (setPage k g c).run = c.run := rfl
@[simp] theorem setPage_recd (k : Nat) (g : PageSt) : (setPage k g c).recd = c.recd := rfl
@[simp] theorem setPage_bar (k : Nat) (g : PageSt) : (setPage k g c).bar = c.bar := rfl
@[simp] theorem setPage_host (k : Nat) (g : PageSt) : (setPage k g c).host = c.host := rfl
@[simp] theorem setPage_seq (k : Nat) (g : PageSt) : (setPage k g c).seq = c.seq := rfl
@[simp] theorem setPage_links (k : Nat) (g : PageSt) : (setPage k g c).links = c.links := rfl
@[simp] theorem setPage_fld (k : Nat) (g : PageSt) : (setPage k g c).fld = c.fld := rfl
@[simp] theorem setPage_twin (k : Nat) (g : PageSt) : (setPage k g c).twin = c.twin := rfl
@[simp] theorem setPage_train (k : Nat) (g : PageSt) : (setPage k g c).train = c.train := rfl
@[simp] theorem setPage_mem (k : Nat) (g : PageSt) : (setPage k g c).mem = c.mem := rfl
@[simp] theorem setPage_crossA (k : Nat) (g : PageSt) : (setPage k g c).crossA = c.crossA := rfl
@[simp] theorem setPage_crossB (k : Nat) (g : PageSt) : (setPage k g c).crossB = c.crossB := rfl
@[simp] theorem setPage_out (k : Nat) (g : PageSt) : (setPage k g c).out = c.out := rfl
@[simp] theorem setPage_free (k : Nat) (g : PageSt) : (setPage k g c).free = c.free := rfl

/-! ### A bank: `setBank` writes `mem` -/

@[simp] theorem setBank_sys (n : Nat) (b : BankSt) : (setBank n b c).sys = c.sys := rfl
@[simp] theorem setBank_tb (n : Nat) (b : BankSt) : (setBank n b c).tb = c.tb := rfl
@[simp] theorem setBank_nv (n : Nat) (b : BankSt) : (setBank n b c).nv = c.nv := rfl
@[simp] theorem setBank_run (n : Nat) (b : BankSt) : (setBank n b c).run = c.run := rfl
@[simp] theorem setBank_recd (n : Nat) (b : BankSt) : (setBank n b c).recd = c.recd := rfl
@[simp] theorem setBank_bar (n : Nat) (b : BankSt) : (setBank n b c).bar = c.bar := rfl
@[simp] theorem setBank_host (n : Nat) (b : BankSt) : (setBank n b c).host = c.host := rfl
@[simp] theorem setBank_seq (n : Nat) (b : BankSt) : (setBank n b c).seq = c.seq := rfl
@[simp] theorem setBank_links (n : Nat) (b : BankSt) : (setBank n b c).links = c.links := rfl
@[simp] theorem setBank_cam (n : Nat) (b : BankSt) : (setBank n b c).cam = c.cam := rfl
@[simp] theorem setBank_fld (n : Nat) (b : BankSt) : (setBank n b c).fld = c.fld := rfl
@[simp] theorem setBank_twin (n : Nat) (b : BankSt) : (setBank n b c).twin = c.twin := rfl
@[simp] theorem setBank_train (n : Nat) (b : BankSt) : (setBank n b c).train = c.train := rfl
@[simp] theorem setBank_crossA (n : Nat) (b : BankSt) : (setBank n b c).crossA = c.crossA := rfl
@[simp] theorem setBank_crossB (n : Nat) (b : BankSt) : (setBank n b c).crossB = c.crossB := rfl
@[simp] theorem setBank_out (n : Nat) (b : BankSt) : (setBank n b c).out = c.out := rfl
@[simp] theorem setBank_free (n : Nat) (b : BankSt) : (setBank n b c).free = c.free := rfl

/-! ### A train-line port: `modPort` writes `train` -/

@[simp] theorem modPort_sys (p : Nat) (f : PortSt → PortSt) : (modPort p f c).sys = c.sys := rfl
@[simp] theorem modPort_tb (p : Nat) (f : PortSt → PortSt) : (modPort p f c).tb = c.tb := rfl
@[simp] theorem modPort_nv (p : Nat) (f : PortSt → PortSt) : (modPort p f c).nv = c.nv := rfl
@[simp] theorem modPort_run (p : Nat) (f : PortSt → PortSt) : (modPort p f c).run = c.run := rfl
@[simp] theorem modPort_recd (p : Nat) (f : PortSt → PortSt) : (modPort p f c).recd = c.recd := rfl
@[simp] theorem modPort_bar (p : Nat) (f : PortSt → PortSt) : (modPort p f c).bar = c.bar := rfl
@[simp] theorem modPort_host (p : Nat) (f : PortSt → PortSt) : (modPort p f c).host = c.host := rfl
@[simp] theorem modPort_seq (p : Nat) (f : PortSt → PortSt) : (modPort p f c).seq = c.seq := rfl
@[simp] theorem modPort_links (p : Nat) (f : PortSt → PortSt) : (modPort p f c).links = c.links := rfl
@[simp] theorem modPort_cam (p : Nat) (f : PortSt → PortSt) : (modPort p f c).cam = c.cam := rfl
@[simp] theorem modPort_fld (p : Nat) (f : PortSt → PortSt) : (modPort p f c).fld = c.fld := rfl
@[simp] theorem modPort_twin (p : Nat) (f : PortSt → PortSt) : (modPort p f c).twin = c.twin := rfl
@[simp] theorem modPort_mem (p : Nat) (f : PortSt → PortSt) : (modPort p f c).mem = c.mem := rfl
@[simp] theorem modPort_crossA (p : Nat) (f : PortSt → PortSt) : (modPort p f c).crossA = c.crossA := rfl
@[simp] theorem modPort_crossB (p : Nat) (f : PortSt → PortSt) : (modPort p f c).crossB = c.crossB := rfl
@[simp] theorem modPort_out (p : Nat) (f : PortSt → PortSt) : (modPort p f c).out = c.out := rfl
@[simp] theorem modPort_free (p : Nat) (f : PortSt → PortSt) : (modPort p f c).free = c.free := rfl

/-! ### A counter of a train-line port: `tlCount` writes `train` -/

@[simp] theorem tlCount_sys (p o : Nat) : (tlCount p o c).sys = c.sys := rfl
@[simp] theorem tlCount_tb (p o : Nat) : (tlCount p o c).tb = c.tb := rfl
@[simp] theorem tlCount_nv (p o : Nat) : (tlCount p o c).nv = c.nv := rfl
@[simp] theorem tlCount_run (p o : Nat) : (tlCount p o c).run = c.run := rfl
@[simp] theorem tlCount_recd (p o : Nat) : (tlCount p o c).recd = c.recd := rfl
@[simp] theorem tlCount_bar (p o : Nat) : (tlCount p o c).bar = c.bar := rfl
@[simp] theorem tlCount_host (p o : Nat) : (tlCount p o c).host = c.host := rfl
@[simp] theorem tlCount_seq (p o : Nat) : (tlCount p o c).seq = c.seq := rfl
@[simp] theorem tlCount_links (p o : Nat) : (tlCount p o c).links = c.links := rfl
@[simp] theorem tlCount_cam (p o : Nat) : (tlCount p o c).cam = c.cam := rfl
@[simp] theorem tlCount_fld (p o : Nat) : (tlCount p o c).fld = c.fld := rfl
@[simp] theorem tlCount_twin (p o : Nat) : (tlCount p o c).twin = c.twin := rfl
@[simp] theorem tlCount_mem (p o : Nat) : (tlCount p o c).mem = c.mem := rfl
@[simp] theorem tlCount_crossA (p o : Nat) : (tlCount p o c).crossA = c.crossA := rfl
@[simp] theorem tlCount_crossB (p o : Nat) : (tlCount p o c).crossB = c.crossB := rfl
@[simp] theorem tlCount_out (p o : Nat) : (tlCount p o c).out = c.out := rfl
@[simp] theorem tlCount_free (p o : Nat) : (tlCount p o c).free = c.free := rfl

/-! ### A subscription: `modSub` writes `train` -/

@[simp] theorem modSub_sys (k : Nat) (f : SubSt → SubSt) : (modSub k f c).sys = c.sys := rfl
@[simp] theorem modSub_tb (k : Nat) (f : SubSt → SubSt) : (modSub k f c).tb = c.tb := rfl
@[simp] theorem modSub_nv (k : Nat) (f : SubSt → SubSt) : (modSub k f c).nv = c.nv := rfl
@[simp] theorem modSub_run (k : Nat) (f : SubSt → SubSt) : (modSub k f c).run = c.run := rfl
@[simp] theorem modSub_recd (k : Nat) (f : SubSt → SubSt) : (modSub k f c).recd = c.recd := rfl
@[simp] theorem modSub_bar (k : Nat) (f : SubSt → SubSt) : (modSub k f c).bar = c.bar := rfl
@[simp] theorem modSub_host (k : Nat) (f : SubSt → SubSt) : (modSub k f c).host = c.host := rfl
@[simp] theorem modSub_seq (k : Nat) (f : SubSt → SubSt) : (modSub k f c).seq = c.seq := rfl
@[simp] theorem modSub_links (k : Nat) (f : SubSt → SubSt) : (modSub k f c).links = c.links := rfl
@[simp] theorem modSub_cam (k : Nat) (f : SubSt → SubSt) : (modSub k f c).cam = c.cam := rfl
@[simp] theorem modSub_fld (k : Nat) (f : SubSt → SubSt) : (modSub k f c).fld = c.fld := rfl
@[simp] theorem modSub_twin (k : Nat) (f : SubSt → SubSt) : (modSub k f c).twin = c.twin := rfl
@[simp] theorem modSub_mem (k : Nat) (f : SubSt → SubSt) : (modSub k f c).mem = c.mem := rfl
@[simp] theorem modSub_crossA (k : Nat) (f : SubSt → SubSt) : (modSub k f c).crossA = c.crossA := rfl
@[simp] theorem modSub_crossB (k : Nat) (f : SubSt → SubSt) : (modSub k f c).crossB = c.crossB := rfl
@[simp] theorem modSub_out (k : Nat) (f : SubSt → SubSt) : (modSub k f c).out = c.out := rfl
@[simp] theorem modSub_free (k : Nat) (f : SubSt → SubSt) : (modSub k f c).free = c.free := rfl

/-! ### A counter of the twin link: `twCount` writes `twin` -/

@[simp] theorem twCount_sys (o : Nat) : (twCount o c).sys = c.sys := rfl
@[simp] theorem twCount_tb (o : Nat) : (twCount o c).tb = c.tb := rfl
@[simp] theorem twCount_nv (o : Nat) : (twCount o c).nv = c.nv := rfl
@[simp] theorem twCount_run (o : Nat) : (twCount o c).run = c.run := rfl
@[simp] theorem twCount_recd (o : Nat) : (twCount o c).recd = c.recd := rfl
@[simp] theorem twCount_bar (o : Nat) : (twCount o c).bar = c.bar := rfl
@[simp] theorem twCount_host (o : Nat) : (twCount o c).host = c.host := rfl
@[simp] theorem twCount_seq (o : Nat) : (twCount o c).seq = c.seq := rfl
@[simp] theorem twCount_links (o : Nat) : (twCount o c).links = c.links := rfl
@[simp] theorem twCount_cam (o : Nat) : (twCount o c).cam = c.cam := rfl
@[simp] theorem twCount_fld (o : Nat) : (twCount o c).fld = c.fld := rfl
@[simp] theorem twCount_train (o : Nat) : (twCount o c).train = c.train := rfl
@[simp] theorem twCount_mem (o : Nat) : (twCount o c).mem = c.mem := rfl
@[simp] theorem twCount_crossA (o : Nat) : (twCount o c).crossA = c.crossA := rfl
@[simp] theorem twCount_crossB (o : Nat) : (twCount o c).crossB = c.crossB := rfl
@[simp] theorem twCount_out (o : Nat) : (twCount o c).out = c.out := rfl
@[simp] theorem twCount_free (o : Nat) : (twCount o c).free = c.free := rfl

/-! ### A histogram: `histAdd` writes `recd` -/

@[simp] theorem histAdd_sys (p h j : Nat) : (histAdd p h j c).sys = c.sys := rfl
@[simp] theorem histAdd_tb (p h j : Nat) : (histAdd p h j c).tb = c.tb := rfl
@[simp] theorem histAdd_nv (p h j : Nat) : (histAdd p h j c).nv = c.nv := rfl
@[simp] theorem histAdd_run (p h j : Nat) : (histAdd p h j c).run = c.run := rfl
@[simp] theorem histAdd_bar (p h j : Nat) : (histAdd p h j c).bar = c.bar := rfl
@[simp] theorem histAdd_host (p h j : Nat) : (histAdd p h j c).host = c.host := rfl
@[simp] theorem histAdd_seq (p h j : Nat) : (histAdd p h j c).seq = c.seq := rfl
@[simp] theorem histAdd_links (p h j : Nat) : (histAdd p h j c).links = c.links := rfl
@[simp] theorem histAdd_cam (p h j : Nat) : (histAdd p h j c).cam = c.cam := rfl
@[simp] theorem histAdd_fld (p h j : Nat) : (histAdd p h j c).fld = c.fld := rfl
@[simp] theorem histAdd_twin (p h j : Nat) : (histAdd p h j c).twin = c.twin := rfl
@[simp] theorem histAdd_train (p h j : Nat) : (histAdd p h j c).train = c.train := rfl
@[simp] theorem histAdd_mem (p h j : Nat) : (histAdd p h j c).mem = c.mem := rfl
@[simp] theorem histAdd_crossA (p h j : Nat) : (histAdd p h j c).crossA = c.crossA := rfl
@[simp] theorem histAdd_crossB (p h j : Nat) : (histAdd p h j c).crossB = c.crossB := rfl
@[simp] theorem histAdd_out (p h j : Nat) : (histAdd p h j c).out = c.out := rfl
@[simp] theorem histAdd_free (p h j : Nat) : (histAdd p h j c).free = c.free := rfl

/-! ### Reading back -/

@[simp] theorem flowAt_setFlow (n j : Nat) (f : FlowSt) :
    flowAt (setFlow n f c) j = if n = j then f else flowAt c j := by
  simp [flowAt, setFlow]

@[simp] theorem linkAt_modLink (x y : Nat) (f : LinkSt → LinkSt) :
    linkAt (modLink x f c) y = if x = y then f (linkAt c x) else linkAt c y := by
  simp [linkAt, modLink, tmod]

@[simp] theorem axAt_modAx (x y : Nat) (f : AxisSt → AxisSt) :
    axAt (modAx x f c) y = if x = y then f (axAt c x) else axAt c y := by
  simp [axAt, modAx, tmod]

@[simp] theorem msAt_modMs (p q : Nat) (f : MasterSt → MasterSt) :
    msAt (modMs p f c) q = if p = q then f (msAt c p) else msAt c q := by
  simp [msAt, modMs, tmod]

@[simp] theorem chAt_modCh (p q : Nat) (f : ChannelSt → ChannelSt) :
    chAt (modCh p f c) q = if p = q then f (chAt c p) else chAt c q := by
  simp [chAt, modCh, tmod]

@[simp] theorem obAt_modOb (p q : Nat) (f : ObstSt → ObstSt) :
    obAt (modOb p f c) q = if p = q then f (obAt c p) else obAt c q := by
  simp [obAt, modOb, tmod]

@[simp] theorem portAt_modPort (p q : Nat) (f : PortSt → PortSt) :
    portAt (modPort p f c) q = if p = q then f (portAt c p) else portAt c q := by
  simp [portAt, modPort, tmod]

@[simp] theorem subAt_modSub (p q : Nat) (f : SubSt → SubSt) :
    subAt (modSub p f c) q = if p = q then f (subAt c p) else subAt c q := by
  simp [subAt, modSub, tmod]

@[simp] theorem bankAt_setBank (n m : Nat) (b : BankSt) :
    bankAt (setBank n b c) m = if n = m then b else bankAt c m := by
  simp [bankAt, setBank]

end Sys2Proof.Machine
end

