-- ==== Sys2Proof/Laws/Core.lean ====
section
/-! SUPPORT. The shared operations of the core: for each, the one group of state that it writes, and what it makes of it. -/

namespace Sys2Proof.Machine

/-! ### Records -/

theorem countLost_only (r : Staged) (c : Core) : ∃ u, countLost r c = { c with recd := u } := by
  unfold countLost totalAdd statInc
  split <;> exact ⟨_, rfl⟩

theorem stage_only (r : Staged) (c : Core) : ∃ u, stage r c = { c with recd := u } := by
  unfold stage
  dsimp only
  by_cases h1 : (c.recd.powerFail && decide (r.sev < 4)) = true
  · rw [if_pos h1]
    exact countLost_only r c
  · rw [if_neg h1]
    by_cases h2 : c.recd.fifo.length < (if r.sev < 4 then 248 else 256)
    · rw [if_pos h2]
      exact ⟨_, rfl⟩
    · rw [if_neg h2]
      by_cases h3 : lowestSev c.recd.fifo < r.sev
      · rw [if_pos h3]
        cases newestOf (lowestSev c.recd.fifo) c.recd.fifo with
        | none => exact ⟨_, rfl⟩
        | some x =>
          obtain ⟨u, hu⟩ := countLost_only x c
          dsimp only
          rw [hu]
          exact ⟨_, rfl⟩
      · rw [if_neg h3]
        exact countLost_only r c

/-- An event record writes the recorder's part of the core only. -/
theorem eventAt_only (sev code src : Nat) (ps : List Nat) (c : Core) (k : Option Nat) :
    ∃ u, eventAt sev code src ps c k = { c with recd := u } := by
  unfold eventAt stageEvent
  split
  · exact ⟨_, rfl⟩
  · split
    · exact stage_only _ _
    · split
      · obtain ⟨u, hu⟩ := stage_only { cycle := false, sev, code, bytes := eventBytes (stampOf { c with recd.used := tset 0 c.recd.used code (tget 0 c.recd.used code + 60000) }) code src sev ps, slot := k } { c with recd.used := tset 0 c.recd.used code (tget 0 c.recd.used code + 60000) }
        exact ⟨u, hu⟩
      · exact ⟨_, rfl⟩

theorem event_only (code src : Nat) (ps : List Nat) (c : Core) : ∃ u, event code src ps c = { c with recd := u } :=
  eventAt_only _ _ _ _ _ _

theorem totalAdd_only (p e : Nat) (c : Core) : ∃ u, totalAdd p e c = { c with recd := u } := ⟨_, rfl⟩

theorem histAdd_only (p h j : Nat) (c : Core) : ∃ u, histAdd p h j c = { c with recd := u } := ⟨_, rfl⟩

theorem obstEvent_only (p b a : Nat) (v : Int) (c : Core) : ∃ u, obstEvent p b a v c = { c with recd := u } := by
  unfold obstEvent
  obtain ⟨u, hu⟩ := event_only 0x050 0x06 [b + 256 * a, unsigned 32 v] c
  obtain ⟨w, hw⟩ := totalAdd_only p 63 (event 0x050 0x06 [b + 256 * a, unsigned 32 v] c)
  rw [hw, hu]
  exact ⟨_, rfl⟩

theorem recordFault_only (f : FaultRec) (c : Core) : ∃ u, recordFault f c = { c with recd := u } := by
  unfold recordFault
  exact eventAt_only _ _ _ _ _ _

@[simp] theorem eventAt_recd (sev code src : Nat) (ps : List Nat) (c : Core) (k : Option Nat) :
    { c with recd := (eventAt sev code src ps c k).recd } = eventAt sev code src ps c k := by
  obtain ⟨u, hu⟩ := eventAt_only sev code src ps c k; rw [hu]

section fields
variable (code src : Nat) (ps : List Nat) (c : Core)
@[simp] theorem event_sys : (event code src ps c).sys = c.sys := by obtain ⟨u, h⟩ := event_only code src ps c; rw [h]
@[simp] theorem event_tb : (event code src ps c).tb = c.tb := by obtain ⟨u, h⟩ := event_only code src ps c; rw [h]
@[simp] theorem event_nv : (event code src ps c).nv = c.nv := by obtain ⟨u, h⟩ := event_only code src ps c; rw [h]
@[simp] theorem event_run : (event code src ps c).run = c.run := by obtain ⟨u, h⟩ := event_only code src ps c; rw [h]
@[simp] theorem event_bar : (event code src ps c).bar = c.bar := by obtain ⟨u, h⟩ := event_only code src ps c; rw [h]
@[simp] theorem event_host : (event code src ps c).host = c.host := by obtain ⟨u, h⟩ := event_only code src ps c; rw [h]
@[simp] theorem event_seq : (event code src ps c).seq = c.seq := by obtain ⟨u, h⟩ := event_only code src ps c; rw [h]
@[simp] theorem event_links : (event code src ps c).links = c.links := by obtain ⟨u, h⟩ := event_only code src ps c; rw [h]
@[simp] theorem event_cam : (event code src ps c).cam = c.cam := by obtain ⟨u, h⟩ := event_only code src ps c; rw [h]
@[simp] theorem event_fld : (event code src ps c).fld = c.fld := by obtain ⟨u, h⟩ := event_only code src ps c; rw [h]
@[simp] theorem event_twin : (event code src ps c).twin = c.twin := by obtain ⟨u, h⟩ := event_only code src ps c; rw [h]
@[simp] theorem event_train : (event code src ps c).train = c.train := by obtain ⟨u, h⟩ := event_only code src ps c; rw [h]
@[simp] theorem event_mem : (event code src ps c).mem = c.mem := by obtain ⟨u, h⟩ := event_only code src ps c; rw [h]
@[simp] theorem event_crossA : (event code src ps c).crossA = c.crossA := by obtain ⟨u, h⟩ := event_only code src ps c; rw [h]
@[simp] theorem event_crossB : (event code src ps c).crossB = c.crossB := by obtain ⟨u, h⟩ := event_only code src ps c; rw [h]
@[simp] theorem event_out : (event code src ps c).out = c.out := by obtain ⟨u, h⟩ := event_only code src ps c; rw [h]
@[simp] theorem event_free : (event code src ps c).free = c.free := by obtain ⟨u, h⟩ := event_only code src ps c; rw [h]
end fields

section totals
variable (p e : Nat) (c : Core)
@[simp] theorem totalAdd_sys : (totalAdd p e c).sys = c.sys := by obtain ⟨u, h⟩ := totalAdd_only p e c; rw [h]
@[simp] theorem totalAdd_tb : (totalAdd p e c).tb = c.tb := by obtain ⟨u, h⟩ := totalAdd_only p e c; rw [h]
@[simp] theorem totalAdd_nv : (totalAdd p e c).nv = c.nv := by obtain ⟨u, h⟩ := totalAdd_only p e c; rw [h]
@[simp] theorem totalAdd_run : (totalAdd p e c).run = c.run := by obtain ⟨u, h⟩ := totalAdd_only p e c; rw [h]
@[simp] theorem totalAdd_bar : (totalAdd p e c).bar = c.bar := by obtain ⟨u, h⟩ := totalAdd_only p e c; rw [h]
@[simp] theorem totalAdd_host : (totalAdd p e c).host = c.host := by obtain ⟨u, h⟩ := totalAdd_only p e c; rw [h]
@[simp] theorem totalAdd_seq : (totalAdd p e c).seq = c.seq := by obtain ⟨u, h⟩ := totalAdd_only p e c; rw [h]
@[simp] theorem totalAdd_links : (totalAdd p e c).links = c.links := by obtain ⟨u, h⟩ := totalAdd_only p e c; rw [h]
@[simp] theorem totalAdd_cam : (totalAdd p e c).cam = c.cam := by obtain ⟨u, h⟩ := totalAdd_only p e c; rw [h]
@[simp] theorem totalAdd_fld : (totalAdd p e c).fld = c.fld := by obtain ⟨u, h⟩ := totalAdd_only p e c; rw [h]
@[simp] theorem totalAdd_twin : (totalAdd p e c).twin = c.twin := by obtain ⟨u, h⟩ := totalAdd_only p e c; rw [h]
@[simp] theorem totalAdd_train : (totalAdd p e c).train = c.train := by obtain ⟨u, h⟩ := totalAdd_only p e c; rw [h]
@[simp] theorem totalAdd_mem : (totalAdd p e c).mem = c.mem := by obtain ⟨u, h⟩ := totalAdd_only p e c; rw [h]
@[simp] theorem totalAdd_crossA : (totalAdd p e c).crossA = c.crossA := by obtain ⟨u, h⟩ := totalAdd_only p e c; rw [h]
@[simp] theorem totalAdd_crossB : (totalAdd p e c).crossB = c.crossB := by obtain ⟨u, h⟩ := totalAdd_only p e c; rw [h]
@[simp] theorem totalAdd_out : (totalAdd p e c).out = c.out := by obtain ⟨u, h⟩ := totalAdd_only p e c; rw [h]
@[simp] theorem totalAdd_free : (totalAdd p e c).free = c.free := by obtain ⟨u, h⟩ := totalAdd_only p e c; rw [h]
end totals

/-! ### Operations: slots and their ends -/

@[simp] theorem slotAt_setSlot (k j : Nat) (x : Option SlotSt) (c : Core) :
    slotAt (setSlot k x c) j = if k = j then x else slotAt c j := by
  simp [slotAt, setSlot]

theorem finish_only (k st d r0 r1 : Nat) (c : Core) : ∃ h, finish k st d r0 r1 c = { c with host := h } := by
  unfold finish
  split
  · split
    · exact ⟨_, rfl⟩
    · split <;> exact ⟨_, rfl⟩
  · exact ⟨_, rfl⟩

/-- The operation of a host slot that runs ends with what it is given (R110). -/
theorem finish_slot (k st d r0 r1 : Nat) (c : Core) (x : SlotSt) (h : slotAt c k = some x) (hd : x.done = none) (hk : k < 512) :
    slotAt (finish k st d r0 r1 c) k =
      some { x with done := some ⟨st, d, r0, r1, BitVec.ofNat 64 (stampOf c), c.nv.epoch, c.host.finished⟩ } := by
  unfold finish
  rw [h]
  simp [hd, Nat.not_le.mpr hk]

/-- The end of a running operation of a host slot: only the host port changes, and the slot has ended (R110). -/
theorem finish_ended (k st d r0 r1 : Nat) (c : Core) (x : SlotSt) (h : slotAt c k = some x) (hd : x.done = none) (hk : k < 512) :
    ∃ g, finish k st d r0 r1 c = { c with host := g } ∧ Ended k st d r0 r1 { c with host := g } := by
  obtain ⟨g, e⟩ := finish_only k st d r0 r1 c
  refine ⟨g, e, ?_⟩
  rw [← e]
  exact ⟨_, _, finish_slot k st d r0 r1 c x h hd hk, rfl, rfl, rfl, rfl, rfl⟩

theorem carryOp_only (d : Bytes) (c : Core) : ∃ l, carryOp d c = { c with twin.carry := l } := by
  unfold carryOp
  dsimp only
  split <;> exact ⟨_, rfl⟩

/-- A slot whose operation is ready starts (R94). -/
theorem opening_ready (k op : Nat) (c : Core) (x : SlotSt) (h : Ready k op x c) :
    opening k op c = some (x.desc, carryOp x.desc (setSlot k (some { x with started := true, visible := c.seq.now + 1 }) c)) := by
  obtain ⟨h1, h2, h3, h4, h5, h6⟩ := h
  unfold opening running
  rw [h1]
  simp [h2, h3, h4, h5, h6]

/-- What the start of an operation writes (R94). -/
theorem opening_only (k op : Nat) (c : Core) (r : Bytes × Core) (h : opening k op c = some r) :
    ∃ g l, r.2 = { c with host := g, twin.carry := l } := by
  unfold opening at h
  split at h
  · split at h
    · injection h with h
      subst h
      obtain ⟨l, hl⟩ := carryOp_only ‹SlotSt›.desc (setSlot k (some { ‹SlotSt› with started := true, visible := c.seq.now + 1 }) c)
      exact ⟨_, l, hl⟩
    · cases h
  · cases h

theorem startOp_ready (k op : Nat) (f : Bytes → Core → Core) (c : Core) (x : SlotSt) (h : Ready k op x c) :
    startOp k op f c = f x.desc (carryOp x.desc (setSlot k (some { x with started := true, visible := c.seq.now + 1 }) c)) := by
  unfold startOp
  rw [opening_ready k op c x h]

theorem startOpS_ready (k op : Nat) (f : Bytes → State → State) (s : State) (x : SlotSt) (h : Ready k op x s.core) :
    startOpS k op f s = f x.desc { s with core := carryOp x.desc (setSlot k (some { x with started := true, visible := s.core.seq.now + 1 }) s.core) } := by
  unfold startOpS
  rw [opening_ready k op s.core x h]

/-- The slot after the start. -/
theorem started_slot (k : Nat) (d : Bytes) (y : SlotSt) (c : Core) : slotAt (carryOp d (setSlot k (some y) c)) k = some y := by
  obtain ⟨l, h⟩ := carryOp_only d (setSlot k (some y) c)
  rw [h]
  exact (slotAt_setSlot k k (some y) c).trans (if_pos rfl)

/-! ### The twin link -/

theorem twinSend_only (n : Nat) (b : Bytes) (c : Core) : ∃ q o, twinSend n b c = { c with twin.txSeq := q, out := o } := by
  unfold twinSend nextMseq emit
  split <;> exact ⟨_, _, rfl⟩

theorem relinquish_only (c : Core) : ∃ q o, relinquish c = { c with twin.txSeq := q, out := o } := by
  unfold relinquish
  split
  · exact twinSend_only _ _ _
  · exact ⟨_, _, rfl⟩

/-- An event that is admitted to a FIFO with room (R420, R425). -/
theorem event_stages (c : Core) (code src : Nat) (ps : List Nat) (h5 : c.recd.failed = false) (h6 : c.recd.stoppedE = false)
    (h7 : c.recd.powerFail = false) (h8 : c.recd.fifo.length < 248) (h9 : codeFree code = true ∨ 60000 ≤ levelOf c code) :
    (event code src ps c).recd.fifo = c.recd.fifo ++
      [{ cycle := false, sev := sevOf c code, code, bytes := eventBytes (stampOf c) code src (sevOf c code) ps, slot := none }] := by
  have st : ∀ (r : Staged) (d : Core), d.recd.powerFail = false → d.recd.fifo.length < 248 → (stage r d).recd.fifo = d.recd.fifo ++ [r] := by
    intro r d k1 k2
    unfold stage
    dsimp only
    rw [if_neg (by rw [k1]; simp), if_pos (by split <;> omega)]
  unfold event eventAt
  rw [if_neg (by rw [h5, h6]; decide)]
  by_cases hc : codeFree code = true
  · rw [if_pos hc]
    exact st _ c h7 h8
  · rw [if_neg hc, if_pos (h9.resolve_left hc)]
    exact st _ _ h7 h8

/-! ### A record depends on the recorder, the stamp and the image only -/

theorem countLost_congr (r : Staged) (c d : Core) (hr : c.recd = d.recd) (hn : c.nv = d.nv) :
    (countLost r c).recd = (countLost r d).recd := by
  unfold countLost
  split
  · unfold totalAdd statInc stampOf
    dsimp only
    rw [hr, hn]
  · dsimp only
    rw [hr, hn]

theorem stage_congr (r : Staged) (c d : Core) (hr : c.recd = d.recd) (hn : c.nv = d.nv) : (stage r c).recd = (stage r d).recd := by
  unfold stage
  dsimp only
  rw [hr]
  by_cases h1 : (d.recd.powerFail && decide (r.sev < 4)) = true
  · rw [if_pos h1, if_pos h1]
    exact countLost_congr r c d hr hn
  · rw [if_neg h1, if_neg h1]
    by_cases h2 : d.recd.fifo.length < (if r.sev < 4 then 248 else 256)
    · rw [if_pos h2, if_pos h2]
    · rw [if_neg h2, if_neg h2]
      by_cases h3 : lowestSev d.recd.fifo < r.sev
      · rw [if_pos h3, if_pos h3]
        cases newestOf (lowestSev d.recd.fifo) d.recd.fifo with
        | none => dsimp only; rw [hr]
        | some x => dsimp only; rw [countLost_congr x c d hr hn]
      · rw [if_neg h3, if_neg h3]
        exact countLost_congr r c d hr hn

theorem event_congr (code src : Nat) (ps : List Nat) (c d : Core) (hr : c.recd = d.recd) (hn : c.nv = d.nv) (hi : c.run = d.run) :
    (event code src ps c).recd = (event code src ps d).recd := by
  have hs : sevOf c code = sevOf d code := by unfold sevOf cfgOf; rw [hi]
  have hl : levelOf c code = levelOf d code := by unfold levelOf burstOf; rw [hi, hr]
  have ht : stampOf c = stampOf d := by unfold stampOf; rw [hn]
  unfold event eventAt stageEvent
  rw [hs, hl, ht, hr]
  split
  · exact hr
  · split
    · exact stage_congr _ c d hr hn
    · split
      · rw [show ∀ x, stampOf { c with recd := x } = stampOf { d with recd := x } from fun _ => ht]
        exact stage_congr _ _ _ rfl hn
      · dsimp only; rw [hn]

end Sys2Proof.Machine
end

