-- ==== Sys2Proof/Laws/Axes.lean ====
section
/-! SUPPORT. Axes and their links: what an update of one reaches, a fault, a transmission, the classification of a period. -/

namespace Sys2Proof.Machine

@[simp] theorem linkAt_mod (x y : Nat) (f : LinkSt → LinkSt) (c : Core) :
    linkAt (modLink x f c) y = if x = y then f (linkAt c x) else linkAt c y := by
  unfold linkAt modLink tmod; exact tget_tset ..

@[simp] theorem axAt_mod (x y : Nat) (f : AxisSt → AxisSt) (c : Core) :
    axAt (modAx x f c) y = if x = y then f (axAt c x) else axAt c y := by
  unfold axAt modAx tmod; exact tget_tset ..

@[simp] theorem linkAt_modAx (x y : Nat) (f : AxisSt → AxisSt) (c : Core) : linkAt (modAx x f c) y = linkAt c y := rfl

@[simp] theorem linkAt_emit (o : Output) (y : Nat) (c : Core) : linkAt (emit o c) y = linkAt c y := rfl

theorem linkAt_links (c d : Core) (y : Nat) (h : c.links = d.links) : linkAt c y = linkAt d y := by unfold linkAt; rw [h]

/-- What a fault of an axis writes (R209). -/
theorem axisFault_only (code x : Nat) (c : Core) : ∃ u, axisFault code x c =
    { modLink x (fun l => { l with fault := if l.fault = 0 then code else l.fault }) c with
      recd := u, seq.faultQ := c.seq.faultQ ++ [⟨0x100 + code, x / 3, x⟩] } := by
  unfold axisFault
  dsimp only
  obtain ⟨u, e⟩ := event_only 0x041 0x05 [code, x] c
  rw [e]
  exact ⟨_, rfl⟩

/-- A strobe writes its link and what goes out, and nothing else (R197, R199). -/
theorem sendLink_only (k seq x : Nat) (c : Core) : ∃ l o, sendLink k seq x c = { c with links := l, out := o } ∧
    ∀ y, y ≠ x → tget {} l y = linkAt c y := by
  have h : ∀ (f : LinkSt → LinkSt) (d : Core), (∀ y, y ≠ x → linkAt d y = linkAt c y) → ∀ y, y ≠ x → linkAt (modLink x f d) y = linkAt c y :=
    fun f d hd y hy => by rw [linkAt_mod, if_neg (fun e => hy e.symm)]; exact hd y hy
  unfold sendLink
  dsimp only
  generalize hc : (if (decide (k = 0) && (linkAt c x).unmute) = true then modLink x (fun l => { l with muted := false, unmute := false }) c else c) = d
  obtain ⟨l, e, g⟩ : ∃ l, d = { c with links := l } ∧ ∀ y, y ≠ x → linkAt d y = linkAt c y := by
    rw [← hc]
    split
    · exact ⟨_, rfl, h _ c fun _ _ => rfl⟩
    · exact ⟨_, rfl, fun _ _ => rfl⟩
  have hm : ∀ f, ∃ l o, modLink x f d = { c with links := l, out := o } ∧ ∀ y, y ≠ x → tget {} l y = linkAt c y :=
    fun f => ⟨_, c.out, by rw [e]; rfl, fun y hy => by have := h f d g y hy; rw [e] at this; exact this⟩
  have he : ∀ w f, ∃ l o, emit w (modLink x f d) = { c with links := l, out := o } ∧ ∀ y, y ≠ x → tget {} l y = linkAt c y :=
    fun w f => ⟨_, w :: c.out, by rw [e]; rfl, fun y hy => by have := h f d g y hy; rw [e] at this; exact this⟩
  split
  · exact hm _
  · exact he _ _
  · split
    · exact he _ _
    · exact he _ _

/-- What the strobe makes of a link that was not muted in the period before (R197, R200, R224). -/
theorem sendLink_link (k seq x : Nat) (c : Core) (h : (linkAt c x).unmute = false ∨ carries c x = .nothing) :
    (carries c x = .nothing → (linkAt (sendLink k seq x c) x).en = false ∧ (linkAt (sendLink k seq x c) x).sent = none) ∧
    (carries c x = .idle → (linkAt (sendLink k seq x c) x).en = true ∧ (linkAt (sendLink k seq x c) x).sent = none) ∧
    (carries c x = .frames → (linkAt c x).en = true →
      (linkAt (sendLink k seq x c) x).sent = some (seq, downFrame c x seq) ∧ (linkAt (sendLink k seq x c) x).rx = none) := by
  have hd : ∃ d, sendLink k seq x c = (match carries d x with
      | .nothing => modLink x (fun l => { l with en := false, rx := none, sent := none }) d
      | .idle => emit (.idle x) (modLink x (fun l => { l with en := true, rx := none, sent := none }) d)
      | .frames =>
        if (linkAt d x).en then
          emit (.downFrame x (downFrame d x seq)) (modLink x (fun l => { l with rx := none, sent := some (seq, downFrame d x seq) }) d)
        else emit (.idle x) (modLink x (fun l => { l with en := true, rx := none, sent := none }) d)) ∧
      ((linkAt c x).unmute = false → d = c) ∧ (carries c x = .nothing → carries d x = .nothing) := by
    refine ⟨_, rfl, ?_, ?_⟩
    · intro h; rw [if_neg (by simp [h])]
    · intro h
      split
      · unfold carries at h ⊢
        split at h
        · rename_i hh
          exact if_pos hh
        · split at h
          · cases h
          · split at h <;> cases h
      · exact h
  obtain ⟨d, e, h1, h2⟩ := hd
  refine ⟨?_, ?_, ?_⟩
  · intro hn
    rw [e, h2 hn]
    exact ⟨by rw [linkAt_mod, if_pos rfl], by rw [linkAt_mod, if_pos rfl]⟩
  · intro hi
    have hu : (linkAt c x).unmute = false := h.resolve_right (by rw [hi]; decide)
    rw [e, h1 hu, hi]
    dsimp only
    constructor
    · rw [linkAt_emit, linkAt_mod, if_pos rfl]
    · rw [linkAt_emit, linkAt_mod, if_pos rfl]
  · intro hf he
    have hu : (linkAt c x).unmute = false := h.resolve_right (by rw [hf]; decide)
    rw [e, h1 hu, hf]
    dsimp only
    rw [if_pos he]
    constructor
    · rw [linkAt_emit, linkAt_mod, if_pos rfl]
    · rw [linkAt_emit, linkAt_mod, if_pos rfl]

/-- A fold over links that writes each link alone: every link ends as its own step leaves it. -/
theorem sendLinks_at (k seq : Nat) (l : List Nat) (c : Core) (hn : l.Nodup) :
    ∃ t o, l.foldl (fun c x => sendLink k seq x c) c = { c with links := t, out := o } ∧
      (∀ y, y ∉ l → tget {} t y = linkAt c y) ∧
      ∀ x, x ∈ l → ∃ u w, linkAt { c with links := u, out := w } x = linkAt c x ∧
        tget {} t x = linkAt (sendLink k seq x { c with links := u, out := w }) x := by
  induction l generalizing c with
  | nil => exact ⟨_, _, rfl, fun _ _ => rfl, fun x h => by cases h⟩
  | cons a r ih =>
    obtain ⟨h1, h2⟩ := List.nodup_cons.mp hn
    obtain ⟨u, w, e, g⟩ := sendLink_only k seq a c
    obtain ⟨t, o, e2, g2, g3⟩ := ih (sendLink k seq a c) h2
    rw [List.foldl_cons, e2]
    rw [e] at g2 g3 ⊢
    refine ⟨t, o, rfl, ?_, ?_⟩
    · intro y hy
      rw [List.mem_cons, not_or] at hy
      exact (g2 y hy.2).trans (g y hy.1)
    · intro x hx
      by_cases hax : x = a
      · subst hax
        refine ⟨c.links, c.out, rfl, ?_⟩
        rw [g2 x h1]
        show _ = linkAt (sendLink k seq x c) x
        rw [e]
      · obtain ⟨p, q, j1, j2⟩ := g3 x (by simpa [hax] using hx)
        exact ⟨p, q, j1.trans (g x hax), j2⟩

/-! ### The cut-off (R207) -/

/-- The links of `d` are those of `c` in all that a classification reads, and as classified (R207). -/
structure RxKept (c d : Core) : Prop where
  rx : ∀ y, (linkAt d y).rx = (linkAt c y).rx
  sent : ∀ y, (linkAt d y).sent = (linkAt c y).sent
  locked : ∀ y, (linkAt d y).locked = (linkAt c y).locked
  cls : ∀ y, (linkAt d y).cls = (linkAt c y).cls

theorem RxKept.refl (c : Core) : RxKept c c := ⟨fun _ => rfl, fun _ => rfl, fun _ => rfl, fun _ => rfl⟩

theorem RxKept.trans {c d e : Core} (a : RxKept c d) (b : RxKept d e) : RxKept c e :=
  ⟨fun y => (b.rx y).trans (a.rx y), fun y => (b.sent y).trans (a.sent y), fun y => (b.locked y).trans (a.locked y),
    fun y => (b.cls y).trans (a.cls y)⟩

theorem rx_links {c d : Core} (h : d.links = c.links) : RxKept c d := by
  have e : ∀ y, linkAt d y = linkAt c y := fun y => linkAt_links _ _ y h
  exact ⟨fun y => by rw [e], fun y => by rw [e], fun y => by rw [e], fun y => by rw [e]⟩

theorem rx_mod (x : Nat) (f : LinkSt → LinkSt) (c : Core)
    (hf : ∀ l, (f l).rx = l.rx ∧ (f l).sent = l.sent ∧ (f l).locked = l.locked ∧ (f l).cls = l.cls) : RxKept c (modLink x f c) := by
  have h : ∀ y, linkAt (modLink x f c) y = linkAt c y ∨ linkAt (modLink x f c) y = f (linkAt c y) := by
    intro y; rw [linkAt_mod]; split
    · rename_i e; subst e; exact .inr rfl
    · exact .inl rfl
  refine ⟨fun y => ?_, fun y => ?_, fun y => ?_, fun y => ?_⟩ <;> rcases h y with e | e <;> rw [e]
  · exact (hf _).1
  · exact (hf _).2.1
  · exact (hf _).2.2.1
  · exact (hf _).2.2.2

theorem rx_ite {c d e : Core} (p : Prop) [Decidable p] (a : RxKept c d) (b : RxKept c e) : RxKept c (if p then d else e) := by
  split <;> assumption

theorem event_rx (code src : Nat) (ps : List Nat) (c : Core) : RxKept c (event code src ps c) := rx_links (event_links ..)
theorem totalAdd_rx (p e : Nat) (c : Core) : RxKept c (totalAdd p e c) := rx_links (totalAdd_links ..)
theorem axMax_rx (x n : Nat) (v : Int) (c : Core) : RxKept c (axMax x n v c) := by
  unfold axMax entryMax entrySet; exact rx_ite _ (rx_links rfl) (.refl c)
theorem raiseOnce_rx (on : Bool) (code x : Nat) (f : Core → Core) (hf : ∀ d, RxKept d (f d)) (c : Core) :
    RxKept c (raiseOnce on code x f c) := by
  unfold raiseOnce
  dsimp only
  generalize hd : (if on = (linkAt c x).raised.getLsbD code then c else _) = d
  have h : RxKept c d := by rw [← hd]; exact rx_ite _ (.refl c) (rx_mod _ _ _ fun _ => ⟨rfl, rfl, rfl, rfl⟩)
  exact rx_ite _ (h.trans (hf d)) h
theorem runDue_rx (n k code x : Nat) (c : Core) : RxKept c (runDue n k code x c) :=
  raiseOnce_rx _ code x (dueFault code x) (fun _ => rx_links rfl) c
theorem axisFault_rx (code x : Nat) (c : Core) : RxKept c (axisFault code x c) := by
  obtain ⟨u, e⟩ := axisFault_only code x c
  rw [e]
  have h : RxKept c (modLink x (fun l => { l with fault := if l.fault = 0 then code else l.fault }) c) := rx_mod _ _ _ fun _ => ⟨rfl, rfl, rfl, rfl⟩
  exact ⟨h.rx, h.sent, h.locked, h.cls⟩
theorem muteLink_rx (x : Nat) (c : Core) : RxKept c (muteLink x c) := rx_mod x _ c fun _ => ⟨rfl, rfl, rfl, rfl⟩
theorem modAx_rx (x : Nat) (f : AxisSt → AxisSt) (c : Core) : RxKept c (modAx x f c) := rx_links rfl

theorem compareFrames_rx (x : Nat) (u : UpData) (b : Nat × Bytes) (c : Core) : RxKept c (compareFrames x u b c) := by
  unfold compareFrames
  dsimp only
  refine rx_ite _ ?_ (rx_ite _ (rx_mod x _ c fun _ => ⟨rfl, rfl, rfl, rfl⟩) (.refl c))
  have h : RxKept c (modLink x (fun l => { l with cHash := l.cHash + 1, mismTick := true, mismFrame := true })
      (raise 0x404 255 x (event 0x042 0x05 [x, b.1] c))) := by
    refine RxKept.trans (d := raise 0x404 255 x (event 0x042 0x05 [x, b.1] c)) ?_ (rx_mod _ _ _ fun _ => ⟨rfl, rfl, rfl, rfl⟩)
    exact (event_rx ..).trans (rx_links rfl)
  exact rx_ite _ (h.trans (muteLink_rx ..)) h

theorem checkTrip_rx (x : Nat) (u : UpData) (seq : Nat) (c : Core) : RxKept c (checkTrip x u seq c) := by
  unfold checkTrip
  dsimp only
  generalize hd : (if (decide (u.trip ≠ 0) && decide ((axAt c x).up.trip = 0)) = true then
      totalAdd (x / 3) (23 + 8 * (x % 3)) (modLink x (fun l => { l with cTrip := satAdd 65535 l.cTrip 1, lastTrip := u.trip }) c) else c) = d
  have h : RxKept c d := by
    rw [← hd]
    refine rx_ite _ (RxKept.trans ?_ (totalAdd_rx ..)) (.refl c)
    exact rx_mod _ _ _ fun _ => ⟨rfl, rfl, rfl, rfl⟩
  refine rx_ite _ ?_ (h.trans (raiseOnce_rx _ _ _ _ (axisFault_rx 2 x) d))
  exact rx_ite _ (h.trans ((modAx_rx ..).trans (axisFault_rx ..))) (h.trans (modAx_rx ..))

theorem align_rx (x : Nat) (u : UpData) (c : Core) : RxKept c (align x u c) := by
  unfold align
  dsimp only
  refine rx_ite _ (.refl c) ?_
  split
  · exact rx_ite _ (modAx_rx ..) (modAx_rx ..)
  · exact modAx_rx ..

theorem checkHall_rx (x : Nat) (u : UpData) (c : Core) : RxKept c (checkHall x u c) := by
  unfold checkHall
  dsimp only
  refine rx_ite _ (.refl c) ?_
  refine RxKept.trans (RxKept.trans ?_ (runDue_rx ..)) (runDue_rx ..)
  exact rx_mod _ _ _ fun _ => ⟨rfl, rfl, rfl, rfl⟩

theorem checkBridge_rx (x : Nat) (u : UpData) (b : Bytes) (c : Core) : RxKept c (checkBridge x u b c) := by
  unfold checkBridge
  dsimp only
  refine RxKept.trans ?_ (runDue_rx ..)
  exact rx_mod _ _ _ fun _ => ⟨rfl, rfl, rfl, rfl⟩

theorem stageExtremes_rx (x : Nat) (u : UpData) (c : Core) : RxKept c (stageExtremes x u c) := by
  unfold stageExtremes
  refine RxKept.trans ?_ (axMax_rx ..)
  refine RxKept.trans ?_ (axMax_rx ..)
  unfold entryMin entrySet
  exact rx_ite _ (rx_links rfl) (.refl c)

theorem validFrame_rx (own : Bool) (x : Nat) (b : Bytes) (sent : Nat × Bytes) (c : Core) : RxKept c (validFrame own x b sent c) := by
  unfold validFrame
  dsimp only
  generalize hd : modLink x _ c = d
  have h : RxKept c d := by rw [← hd]; exact rx_mod x _ c fun _ => ⟨rfl, rfl, rfl, rfl⟩
  clear hd
  generalize hd : stageExtremes x (upData b) (checkTrip x (upData b) sent.1 d) = e
  have h2 : RxKept c e := by rw [← hd]; exact h.trans ((checkTrip_rx ..).trans (stageExtremes_rx ..))
  clear hd
  generalize hd : modAx x _ e = f
  have h3 : RxKept c f := by rw [← hd]; exact h2.trans (modAx_rx ..)
  have h4 : RxKept c (checkBridge x (upData b) sent.2 (checkHall x (upData b) (align x (upData b) f))) :=
    h3.trans ((align_rx ..).trans ((checkHall_rx ..).trans (checkBridge_rx ..)))
  exact rx_ite _ (h4.trans (compareFrames_rx ..)) h4

theorem badFrame_rx (x : Nat) (k : UpClass) (c : Core) : RxKept c (badFrame x k c) := by
  unfold badFrame
  dsimp only
  generalize hd : modLink x _ _ = d
  have h : RxKept c d := by rw [← hd]; exact (event_rx ..).trans (rx_mod x _ _ fun _ => ⟨rfl, rfl, rfl, rfl⟩)
  have h2 : ∀ n f, RxKept c (runDue 3 n 1 x (modAx x f d)) := fun n f => h.trans ((modAx_rx ..).trans (runDue_rx ..))
  exact rx_ite _ ((h2 _ _).trans (muteLink_rx ..)) (h2 _ _)

theorem periodZero_rx (x : Nat) (c : Core) : RxKept c (periodZero x c) := by
  unfold periodZero
  dsimp only
  exact (modAx_rx ..).trans ((modAx_rx ..).trans (runDue_rx ..))

theorem currentLoop_rx (x : Nat) (i : Int) (v : Bool) (c : Core) : RxKept c (currentLoop x i v c) := by
  unfold currentLoop
  dsimp only
  exact rx_ite _ (modAx_rx ..) (rx_ite _ (modAx_rx ..) (modAx_rx ..))

theorem holdInts_rx (x : Nat) (c : Core) : RxKept c (holdInts x c) := modAx_rx ..

theorem loopStep_rx (k x : Nat) (v : Bool) (c : Core) : RxKept c (loopStep k x v c) := by
  unfold loopStep
  dsimp only
  generalize curRef (holdInts x c) x (k + 1) = r
  refine RxKept.trans ?_ (holdInts_rx ..)
  refine RxKept.trans ?_ (currentLoop_rx ..)
  refine RxKept.trans ?_ (axMax_rx ..)
  refine RxKept.trans ?_ (modAx_rx ..)
  exact holdInts_rx ..

theorem tickEnd_rx (x : Nat) (c : Core) : RxKept c (tickEnd x c) := by
  unfold tickEnd
  dsimp only
  generalize hd : modAx x _ c = d
  have h : RxKept c d := by rw [← hd]; exact modAx_rx ..
  have h2 : RxKept c (if (axAt c x).hasSp = true then axMax x 0 (roundDiv ((axAt c x).sp - (axAt c x).x).natAbs 256) d else d) :=
    rx_ite _ (h.trans (axMax_rx ..)) h
  exact ⟨h2.rx, h2.sent, h2.locked, h2.cls⟩

/-- The cut-off of one axis: its link is classified from what it held, and no other is (R207). -/
theorem cutoffAxis_class (k x : Nat) (c : Core) :
    RxKept (modLink x (fun l => { l with cls := classify l }) c) (cutoffAxis k x c) := by
  unfold cutoffAxis
  dsimp only
  generalize hd : modLink x (fun l => { l with cls := classify (linkAt c x) }) c = d
  have h : RxKept (modLink x (fun l => { l with cls := classify l }) c) d := by
    rw [← hd]
    apply rx_links
    unfold modLink tmod
    rfl
  clear hd
  have account_rx : ∀ e, RxKept e (account x e) := fun e => rx_links rfl
  unfold clearingEnds
  refine RxKept.trans ?_ (modAx_rx ..)
  refine rx_ite _ (RxKept.trans ?_ (tickEnd_rx ..)) ?_
  all_goals
    refine RxKept.trans ?_ (loopStep_rx ..)
    refine RxKept.trans ?_ (account_rx _)
    refine rx_ite _ (RxKept.trans ?_ (periodZero_rx ..)) ?_
    all_goals
      split
      · exact h.trans (validFrame_rx ..)
      · exact h.trans (badFrame_rx ..)
      · exact rx_ite _ (h.trans (validFrame_rx ..)) h
      · exact h

/-- The cut-off of several axes. -/
theorem cutoffs_class (k : Core → Nat) (l : List Nat) (c : Core) (hn : l.Nodup) :
    (∀ y, (linkAt (l.foldl (fun c x => cutoffAxis (k c) x c) c) y).cls = if y ∈ l then classify (linkAt c y) else (linkAt c y).cls) := by
  induction l generalizing c with
  | nil => intro y; rfl
  | cons a r ih =>
    obtain ⟨h1, h2⟩ := List.nodup_cons.mp hn
    intro y
    have q := cutoffAxis_class (k c) a c
    rw [List.foldl_cons, ih _ h2 y]
    have hl : ∀ y, classify (linkAt (cutoffAxis (k c) a c) y) = classify (linkAt c y) := by
      intro y
      have e1 := q.rx y
      have e2 := q.sent y
      have e3 := q.locked y
      rw [linkAt_mod] at e1 e2 e3
      unfold classify
      by_cases e : a = y
      · subst e
        rw [if_pos rfl] at e1 e2 e3
        rw [e1, e2, e3]
      · rw [if_neg e] at e1 e2 e3
        rw [e1, e2, e3]
    have e4 := q.cls y
    rw [linkAt_mod] at e4
    by_cases e : a = y
    · subst e
      rw [if_pos rfl] at e4
      rw [if_neg h1, if_pos (List.mem_cons_self ..), e4]
    · rw [if_neg e] at e4
      by_cases hy : y ∈ r
      · rw [if_pos hy, if_pos (List.mem_cons_of_mem _ hy), hl]
      · rw [if_neg hy, if_neg (by rw [List.mem_cons, not_or]; exact ⟨fun (x : y = a) => e x.symm, hy⟩), e4]

theorem rx_fold {α : Type} (f : Core → α → Core) (hf : ∀ c a, RxKept c (f c a)) (l : List α) (c : Core) : RxKept c (l.foldl f c) := by
  induction l generalizing c with
  | nil => exact .refl c
  | cons a r ih => exact (hf c a).trans (ih (f c a))

theorem localInputs_rx (x : Nat) (c : Core) : RxKept c (localInputs x c) := by
  unfold localInputs
  apply rx_fold
  intro c l
  exact rx_links rfl

theorem drawnTest_rx (p : Nat) (c : Core) : RxKept c (drawnTest p c) := by
  unfold drawnTest
  dsimp only
  generalize hd : modOb p _ c = d
  have h : RxKept c d := by rw [← hd]; exact rx_links rfl
  have due : ∀ q, RxKept c { d with seq.due := q } := fun q => ⟨h.rx, h.sent, h.locked, h.cls⟩
  clear hd
  split
  · exact h
  · refine rx_ite _ h ?_
    split
    · exact rx_ite _ (due _) (rx_ite _ (due _) h)
    · exact rx_ite _ (due _) h

theorem manyMismatches_rx (c : Core) : RxKept c (manyMismatches c) := by
  unfold manyMismatches
  dsimp only
  exact rx_ite _ (rx_links rfl) (.refl c)

/-- What follows the classification at a cut-off leaves it as it is (R207). -/
theorem cutoff_rx (c : Core) : RxKept (((List.range 36).filter (axisConf (cfgOf (keepUp c)))).foldl
    (fun c x => cutoffAxis ((c.tb.cp + 3) % 4) x c) (keepUp c)) (cutoff c) := by
  unfold cutoff
  dsimp only
  refine RxKept.trans (manyMismatches_rx _) ?_
  have h := rx_fold (fun c x => if (linkAt c x).cls = .valid then localInputs x c else c)
    (fun c x => rx_ite _ (localInputs_rx x c) (.refl c)) ((List.range 36).filter (axisConf (cfgOf c))) (cutoffAxes (keepUp c))
  exact rx_ite _ (h.trans (rx_fold _ (fun c p => drawnTest_rx p c) _ _)) h

/-- UP_FRAME_CUTOFF classifies the link of every named axis from what it held (R207). -/
theorem cutoff_class (c : Core) (y : Nat) (hy : y < 36) (ha : axisConf (cfgOf c) y = true) :
    (linkAt (cutoff c) y).cls = classify (linkAt c y) := by
  have hk : ∀ d, (keepUp d).links = d.links ∧ cfgOf (keepUp d) = cfgOf d := by
    intro d; unfold keepUp; split <;> exact ⟨rfl, rfl⟩
  have h1 := cutoff_rx c
  have hn : ((List.range 36).filter (axisConf (cfgOf (keepUp c)))).Nodup := List.Pairwise.filter _ List.nodup_range
  have h3 := cutoffs_class (fun c => (c.tb.cp + 3) % 4) _ (keepUp c) hn y
  rw [if_pos (List.mem_filter.mpr ⟨List.mem_range.mpr hy, by rw [(hk c).2]; exact ha⟩)] at h3
  rw [h1.cls, h3, linkAt_links _ _ y (hk c).1]

end Sys2Proof.Machine
end

