-- ==== Sys2Proof/Laws/Bytes.lean ====
section
/-! SUPPORT. Fields of byte strings that are built from their parts. -/

namespace Sys2Proof.Machine

/-- A slice past a prefix. -/
theorem slice_skip (a b : Bytes) (k n : Nat) (h : a.length = k) (o : Nat) : slice (a ++ b) (k + o) n = slice b o n := by
  unfold slice
  dsimp only
  rw [← h, List.drop_append, List.drop_eq_nil_of_le (by omega), List.nil_append, Nat.add_sub_cancel_left]

/-- A slice that is the whole head. -/
theorem slice_head (a b : Bytes) (n : Nat) (h : a.length = n) : slice (a ++ b) 0 n = a := by
  unfold slice
  dsimp only
  rw [List.drop_zero, ← h, List.take_left', Nat.sub_self]
  · simp
  · rfl

theorem field_head (n v : Nat) (b : Bytes) : field (toLe n v ++ b) 0 n = v % 256 ^ n := by
  unfold field
  rw [slice_head _ _ _ (toLe_length n v), leNat_toLe]

theorem field_skip (a b : Bytes) (k n o : Nat) (h : a.length = k) : field (a ++ b) (k + o) n = field b o n := by
  unfold field
  rw [slice_skip a b k n h]

end Sys2Proof.Machine
end

