-- ==== Sys2Proof/Laws/Host.lean ====
section
/-! SUPPORT. Flows and the fetches scheduled for them: what disabling, loading and the doorbell words write (R78 to R80, R83). -/

namespace Sys2Proof.Machine

/-- The flow that a disabled flow becomes (R78, R80). -/
def disabledFlow (f : FlowSt) : FlowSt := { f with state := .disabled, cause := 0, gen := f.gen + 1, fails := 0, cmd := f.cmd % 4 }

theorem disableFlow_flow (n m : Nat) (c : Core) :
    flowAt (disableFlow n c) m = if n = m then disabledFlow (flowAt c n) else flowAt c m := by
  simp [flowAt, setFlow, disableFlow, disabledFlow]

theorem disableFlow_flows (n : Nat) (c : Core) : ∃ t q, disableFlow n c =
    { c with host := { c.host with flows := t, fetchQ := q } } := ⟨_, _, rfl⟩

theorem disableSome_spec (p : FlowSt → Bool) (l : List Nat) (c : Core) (hl : l.Nodup) :
    let d := l.foldl (fun c n => if p (flowAt c n) then disableFlow n c else c) c
    (∃ t q, d = { c with host := { c.host with flows := t, fetchQ := q } }) ∧
      ∀ m, flowAt d m = if m ∈ l ∧ p (flowAt c m) = true then disabledFlow (flowAt c m) else flowAt c m := by
  induction l generalizing c with
  | nil => exact ⟨⟨_, _, rfl⟩, fun m => by simp⟩
  | cons a r ih =>
    obtain ⟨ha, hr⟩ := List.nodup_cons.mp hl
    obtain ⟨⟨t, q, e⟩, h⟩ := ih (if p (flowAt c a) then disableFlow a c else c) hr
    have hc : ∃ t q, (if p (flowAt c a) then disableFlow a c else c) = { c with host := { c.host with flows := t, fetchQ := q } } := by
      split
      · exact disableFlow_flows _ _
      · exact ⟨_, _, rfl⟩
    obtain ⟨t2, q2, e2⟩ := hc
    refine ⟨⟨t, q, ?_⟩, ?_⟩
    · rw [List.foldl_cons, e, e2]
    · intro m
      rw [List.foldl_cons, h]
      have hm : flowAt (if p (flowAt c a) then disableFlow a c else c) m =
          if a = m ∧ p (flowAt c a) = true then disabledFlow (flowAt c a) else flowAt c m := by
        by_cases hp : p (flowAt c a) = true
        · rw [if_pos hp, disableFlow_flow]
          simp [hp]
        · rw [if_neg hp, if_neg (fun k => hp k.2)]
      rw [hm]
      by_cases h1 : a = m
      · subst h1
        simp [ha]
      · rw [if_neg (fun k : _ ∧ _ => h1 k.1)]
        simp [Ne.symm h1]

theorem disableAll_spec (c : Core) :
    (∃ t q, disableAll c = { c with host := { c.host with flows := t, fetchQ := q } }) ∧
      ∀ m, m < 256 → (flowAt (disableAll c) m).state = .disabled ∧
        ((flowAt c m).state ≠ .disabled → flowAt (disableAll c) m = disabledFlow (flowAt c m)) := by
  obtain ⟨h1, h2⟩ := disableSome_spec (fun f => f.state ≠ .disabled || 4 ≤ f.cmd) (List.range 256) c List.nodup_range
  refine ⟨h1, fun m hm => ?_⟩
  have e : flowAt (disableAll c) m = _ := h2 m
  rw [e]
  by_cases h : (flowAt c m).state = .disabled
  · refine ⟨?_, fun k => absurd h k⟩
    split
    · rfl
    · exact h
  · rw [if_pos ⟨List.mem_range.mpr hm, by simp [h]⟩]
    exact ⟨rfl, fun _ => rfl⟩

/-! ### Doorbells -/

/-- The flow that a doorbell word makes of a flow in use (R83). -/
def doorbellFlow (w : Nat) (f : FlowSt) : FlowSt :=
  if f.sqSize < (BitVec.ofNat 16 w - f.sh).toNat ∨ f.cqSize < (f.ct - BitVec.ofNat 16 (w / 65536)).toNat then
    { f with state := .error, cause := 7 }
  else { f with st := BitVec.ofNat 16 w, ch := BitVec.ofNat 16 (w / 65536) }

theorem takeDoorbell_spec (n w : Nat) (c : Core) :
    (∃ t q, takeDoorbell n w c = { c with host := { c.host with flows := t, fetchQ := q } } ∧ (c.host.fetchQ = [] → q = [])) ∧
      ∀ m, flowAt (takeDoorbell n w c) m =
        if m = n ∧ flowOn (flowAt c n) = true then doorbellFlow w (flowAt c n) else flowAt c m := by
  unfold takeDoorbell
  dsimp only
  by_cases h : flowOn (flowAt c n) = true
  · rw [if_neg (by rw [h]; decide)]
    by_cases k : (flowAt c n).sqSize < (BitVec.ofNat 16 w - (flowAt c n).sh).toNat ∨
        (flowAt c n).cqSize < ((flowAt c n).ct - BitVec.ofNat 16 (w / 65536)).toNat
    · rw [if_pos (by simpa only [Bool.or_eq_true, decide_eq_true_eq] using k)]
      refine ⟨⟨_, _, rfl, fun e => by rw [e]; rfl⟩, fun m => ?_⟩
      refine (flowAt_setFlow c n m { flowAt c n with state := .error, cause := 7 }).trans ?_
      unfold doorbellFlow
      rw [if_pos k]
      by_cases e : n = m
      · subst e; rw [if_pos rfl, if_pos ⟨rfl, h⟩]
      · rw [if_neg e, if_neg (fun x => e x.1.symm)]
    · rw [if_neg (by simpa only [Bool.or_eq_true, decide_eq_true_eq] using k)]
      refine ⟨⟨_, _, rfl, id⟩, fun m => ?_⟩
      unfold doorbellFlow
      rw [flowAt_setFlow, if_neg k]
      by_cases e : n = m
      · subst e; rw [if_pos rfl, if_pos ⟨rfl, h⟩]
      · rw [if_neg e, if_neg (fun x => e x.1.symm)]
  · rw [if_pos (by simpa using h)]
    exact ⟨⟨_, _, rfl, id⟩, fun m => (if_neg (fun x => h x.2)).symm⟩

/-- The words of a block, over the flows of a list. -/
theorem takeDoorbells_spec (b : Nat) (d : Bytes) (l : List Nat) (c : Core) (hl : l.Nodup) :
    let e := l.foldl (fun c i => takeDoorbell (16 * b + i) (field d (4 * i) 4) c) c
    (∃ t q, e = { c with host := { c.host with flows := t, fetchQ := q } } ∧ (c.host.fetchQ = [] → q = [])) ∧
      ∀ m, flowAt e m = if (∃ i, i ∈ l ∧ m = 16 * b + i) ∧ flowOn (flowAt c m) = true then
        doorbellFlow (field d (4 * (m - 16 * b)) 4) (flowAt c m) else flowAt c m := by
  induction l generalizing c with
  | nil => exact ⟨⟨_, _, rfl, id⟩, fun m => by simp⟩
  | cons a r ih =>
    obtain ⟨ha, hr⟩ := List.nodup_cons.mp hl
    obtain ⟨⟨t, q, e, hq⟩, h⟩ := takeDoorbell_spec (16 * b + a) (field d (4 * a) 4) c
    obtain ⟨⟨t2, q2, e2, hq2⟩, h2⟩ := ih (takeDoorbell (16 * b + a) (field d (4 * a) 4) c) hr
    refine ⟨⟨t2, q2, ?_, ?_⟩, fun m => ?_⟩
    · rw [List.foldl_cons, e2, e]
    · intro k
      exact hq2 (by rw [e]; exact hq k)
    · rw [List.foldl_cons, h2, h]
      by_cases hm : m = 16 * b + a
      · subst hm
        have hn : ¬ ∃ i, i ∈ r ∧ 16 * b + a = 16 * b + i := fun ⟨i, hi, hk⟩ => ha (by rw [show a = i by omega]; exact hi)
        rw [if_neg (fun k : (∃ i, i ∈ r ∧ 16 * b + a = 16 * b + i) ∧ _ => hn k.1)]
        rw [show 16 * b + a - 16 * b = a by omega]
        by_cases hf : flowOn (flowAt c (16 * b + a)) = true
        · rw [if_pos ⟨rfl, hf⟩, if_pos ⟨⟨a, List.mem_cons_self .., rfl⟩, hf⟩]
        · rw [if_neg (fun k => hf k.2), if_neg (fun k : (∃ i, i ∈ a :: r ∧ _) ∧ _ => hf k.2)]
      · rw [if_neg (fun k : m = _ ∧ _ => hm k.1)]
        have hi : (∃ i, i ∈ a :: r ∧ m = 16 * b + i) ↔ ∃ i, i ∈ r ∧ m = 16 * b + i := by
          constructor
          · rintro ⟨i, hi, hk⟩
            rcases List.mem_cons.mp hi with x | x
            · subst x; exact absurd hk hm
            · exact ⟨i, x, hk⟩
          · rintro ⟨i, hi, hk⟩
            exact ⟨i, List.mem_cons_of_mem _ hi, hk⟩
        simp only [hi]

/-! ### Service -/

theorem mayTake_congr (c d : Core) (h : d.host.flows = c.host.flows) (k : d.host.slots = c.host.slots) (n : Nat) : mayTake d n = mayTake c n := by
  unfold mayTake slotsOf freeCount slotAt flowAt
  rw [h, k]

/-- A flow that is served may take a descriptor. -/
theorem servable_takes {c : Core} {n : Nat} (h : servable c n = true) : 0 < mayTake c n := by
  unfold servable at h
  simp only [Bool.and_eq_true, decide_eq_true_eq] at h
  exact h.1

/-- The round-robin search of a class finds a flow that can be served, where there is one (R92). -/
theorem inClass_none (c : Core) (k : Nat) (hk : ((List.range 248).map fun i => 8 + (max 7 (tget 0 c.host.last k) - 7 + i) % 248).find?
      (fun n => (flowAt c n).cls == k && servable c n) = none) (m : Nat) (h1 : 8 ≤ m) (h2 : m < 256) (h3 : (flowAt c m).cls = k) :
    servable c m = false := by
  rw [List.find?_eq_none] at hk
  generalize max 7 (tget 0 c.host.last k) - 7 = a at hk
  have hm : m ∈ (List.range 248).map fun i => 8 + (a + i) % 248 :=
    List.mem_map.mpr ⟨(m - 8 + 248 - a % 248) % 248, List.mem_range.mpr (by omega), by omega⟩
  have := hk m hm
  simpa only [h3, BEq.rfl, Bool.true_and, Bool.not_eq_true] using this

/-- The flow that is served, and why (R92). -/
theorem nextFlow_some (c : Core) (n : Nat) (h : nextFlow c = some n) : n < 256 ∧ servable c n = true ∧
    (n < 8 → ∀ m, m < n → servable c m = false) ∧
    (8 ≤ n → (∀ m, m < 8 → servable c m = false) ∧
      ∀ m, 8 ≤ m → m < 256 → 1 ≤ (flowAt c m).cls → (flowAt c m).cls < (flowAt c n).cls → servable c m = false) := by
  unfold nextFlow at h
  dsimp only at h
  have some_of : ∀ k n, ((List.range 248).map fun i => 8 + (max 7 (tget 0 c.host.last k) - 7 + i) % 248).find?
      (fun n => (flowAt c n).cls == k && servable c n) = some n → 8 ≤ n ∧ n < 256 ∧ (flowAt c n).cls = k ∧ servable c n = true := by
    intro k n hk
    have hp := List.find?_some hk
    obtain ⟨i, hi, hj⟩ := List.mem_map.mp (List.mem_of_find?_eq_some hk)
    simp only [Bool.and_eq_true, beq_iff_eq] at hp
    exact ⟨by omega, by omega, hp⟩
  have urgent : (List.range 8).find? (fun n => servable c n) = none → ∀ m, m < 8 → servable c m = false := by
    intro hk m hm
    simpa only [Bool.not_eq_true] using (List.find?_eq_none.mp hk) m (List.mem_range.mpr hm)
  split at h
  · rename_i x hx
    injection h with h
    subst h
    have hm := List.mem_range.mp (List.mem_of_find?_eq_some hx)
    refine ⟨by omega, List.find?_some hx, fun _ m hmn => ?_, fun k => absurd hm (by omega)⟩
    simpa only [Bool.not_eq_true', Bool.not_eq_true] using (List.find?_range_eq_some.mp hx).2.2 m hmn
  · rename_i hx
    split at h
    · rename_i y hy
      injection h with h
      subst h
      obtain ⟨a1, a2, a3, a4⟩ := some_of 1 _ hy
      exact ⟨a2, a4, fun k => absurd k (by omega), fun _ => ⟨urgent hx, fun m h1 h2 h3 h4 => absurd h4 (by omega)⟩⟩
    · rename_i hy
      split at h
      · rename_i z hz
        injection h with h
        subst h
        obtain ⟨a1, a2, a3, a4⟩ := some_of 2 _ hz
        refine ⟨a2, a4, fun k => absurd k (by omega), fun _ => ⟨urgent hx, fun m h1 h2 h3 h4 => ?_⟩⟩
        exact inClass_none c 1 hy m h1 h2 (by omega)
      · rename_i hz
        obtain ⟨a1, a2, a3, a4⟩ := some_of 3 _ h
        refine ⟨a2, a4, fun k => absurd k (by omega), fun _ => ⟨urgent hx, fun m h1 h2 h3 h4 => ?_⟩⟩
        rcases (by omega : (flowAt c m).cls = 1 ∨ (flowAt c m).cls = 2) with k | k
        · exact inClass_none c 1 hy m h1 h2 k
        · exact inClass_none c 2 hz m h1 h2 k

/-- No flow is served only where none of the four classes can be (R92). -/
theorem nextFlow_none (c : Core) (h : nextFlow c = none) (n : Nat) (hn : n < 256)
    (hk : n < 8 ∨ ((flowAt c n).cls = 1 ∨ (flowAt c n).cls = 2 ∨ (flowAt c n).cls = 3)) : servable c n = false := by
  unfold nextFlow at h
  dsimp only at h
  split at h
  · cases h
  · rename_i hx
    split at h
    · cases h
    · rename_i hy
      split at h
      · cases h
      · rename_i hz
        by_cases h8 : n < 8
        · simpa only [Bool.not_eq_true] using (List.find?_eq_none.mp hx) n (List.mem_range.mpr h8)
        · rcases hk.resolve_left h8 with k | k | k
          · exact inClass_none c 1 hy n (by omega) hn k
          · exact inClass_none c 2 hz n (by omega) hn k
          · exact inClass_none c 3 h n (by omega) hn k

theorem issueFetch_only (c : Core) : ∃ k o, issueFetch c = { c with host := { c.host with counters := k }, out := o } := by
  unfold issueFetch
  cases c.host.fetchQ with
  | nil => exact ⟨_, _, rfl⟩
  | cons e r =>
    obtain ⟨n, i, k⟩ := e
    dsimp only
    by_cases h : portUp (hpCount 8 c) = true
    · rw [if_pos h]; exact ⟨_, _, rfl⟩
    · rw [if_neg h]; exact ⟨_, _, rfl⟩

theorem schedule_only (c : Core) : ∃ q l k d o, schedule c =
    { c with host := { c.host with fetchQ := q, last := l, counters := k, fetchDue := d }, out := o } := by
  unfold schedule
  split
  · exact ⟨_, _, _, _, _, rfl⟩
  · cases nextFlow c with
    | none => exact ⟨_, _, _, _, _, rfl⟩
    | some n =>
      dsimp only
      split
      · exact ⟨_, _, _, _, _, rfl⟩
      · obtain ⟨k, o, e⟩ := issueFetch_only { c with host := { c.host with
          fetchQ := splitFetch (flowAt c n) n (readMax c) 8 (flowAt c n).sh (mayTake c n)
          last := if n < 8 then c.host.last else tset 0 c.host.last (flowAt c n).cls n } }
        rw [e]
        exact ⟨_, _, _, _, _, rfl⟩

theorem issueFetch_first (c : Core) (n : Nat) (i : U16) (k : Nat) (r : List (Nat × U16 × Nat)) (h : c.host.fetchQ = (n, i, k) :: r)
    (hp : portUp c = true) : issueFetch c =
      emit (.hostRead ((flowAt c n).sqBase + 64 * (i.toNat % (flowAt c n).sqSize)) (64 * k)) (hpCount 8 c) := by
  unfold issueFetch
  rw [h]
  exact if_pos hp

/-- A service that takes a descriptor begins with a read that crosses neither the ring's end nor a 4 KiB boundary (R92). -/
theorem splitFetch_cons (f : FlowSt) (n most k count : Nat) (i : U16) (h : 0 < count) : splitFetch f n most (k + 1) i count =
    (n, i, min count (fetchRoom f most i)) ::
      splitFetch f n most k (i + BitVec.ofNat 16 (min count (fetchRoom f most i))) (count - min count (fetchRoom f most i)) :=
  if_neg (Nat.ne_of_gt h)

theorem fetchRoom_pos (f : FlowSt) (most : Nat) (i : U16) : 1 ≤ fetchRoom f most i := Nat.le_max_left _ _

/-- Each read of a service is of its flow and no longer than one read may be (R92). -/
theorem splitFetch_reads (f : FlowSt) (n most k count : Nat) (i : U16) : ∀ e ∈ splitFetch f n most k i count,
    e.1 = n ∧ 1 ≤ e.2.2 ∧ e.2.2 ≤ fetchRoom f most e.2.1 := by
  induction k generalizing i count with
  | zero => intro e he; cases he
  | succ k ih =>
    by_cases h : count = 0
    · intro e he; rw [splitFetch, if_pos h] at he; cases he
    · rw [splitFetch_cons _ _ _ _ _ _ (Nat.pos_of_ne_zero h)]
      intro e he
      rcases List.mem_cons.mp he with rfl | he
      · exact ⟨rfl, Nat.le_min.mpr ⟨Nat.pos_of_ne_zero h, fetchRoom_pos f most i⟩, Nat.min_le_right _ _⟩
      · exact ih _ _ e he

/-- Together the reads of a service fetch what it takes (R92). -/
theorem splitFetch_sum (f : FlowSt) (n most k count : Nat) (i : U16) (h : count ≤ k) :
    ((splitFetch f n most k i count).map (·.2.2)).sum = count := by
  induction k generalizing i count with
  | zero => rw [Nat.le_zero.mp h]; rfl
  | succ k ih =>
    by_cases h0 : count = 0
    · rw [splitFetch, if_pos h0, h0]; rfl
    · rw [splitFetch_cons _ _ _ _ _ _ (Nat.pos_of_ne_zero h0), List.map_cons, List.sum_cons]
      have := fetchRoom_pos f most i
      generalize fetchRoom f most i = r at *
      rw [ih _ _ (by omega)]
      dsimp only
      omega

/-- At most 8 descriptors are taken in one service (R92). -/
theorem mayTake_le (c : Core) (n : Nat) : mayTake c n ≤ 8 := by
  unfold mayTake
  dsimp only
  split <;> omega

/-- A service starts with the read of its first piece (R92). -/
theorem schedule_some (c : Core) (n : Nat) (h1 : c.host.fetchQ = []) (h2 : portUp c = true) (h3 : serves c.sys.mode = true)
    (h4 : c.sys.flush = none) (h5 : n < 8 ∨ urgentWaits c = false) (h : nextFlow c = some n) :
    let f := flowAt c n
    (schedule c).host.fetchQ = splitFetch f n (readMax c) 8 f.sh (mayTake c n) ∧
    (schedule c).out = .hostRead (f.sqBase + 64 * (f.sh.toNat % f.sqSize)) (64 * min (mayTake c n) (fetchRoom f (readMax c) f.sh)) :: c.out := by
  have hu : ¬(8 ≤ n && urgentWaits c) = true := by
    rcases h5 with h5 | h5
    · simp [show ¬ 8 ≤ n by omega]
    · simp [h5]
  dsimp only
  unfold schedule
  rw [if_neg (by rw [h1, h2, h3, h4]; decide), h]
  dsimp only
  have run : ∀ i k r l, issueFetch { c with host := { c.host with fetchQ := (n, i, k) :: r, last := l } } =
      emit (.hostRead ((flowAt c n).sqBase + 64 * (i.toNat % (flowAt c n).sqSize)) (64 * k))
        (hpCount 8 { c with host := { c.host with fetchQ := (n, i, k) :: r, last := l } }) :=
    fun i k r l => issueFetch_first _ n i k r rfl h2
  rw [if_neg hu, splitFetch_cons _ _ _ _ _ _ (servable_takes (nextFlow_some c n h).2.1), run]
  exact ⟨rfl, rfl⟩

/-- No fetch of a flow that is not urgent starts before an urgent completion that can be written (R97). -/
theorem schedule_held (c : Core) (n : Nat) (h : nextFlow c = some n) (hn : 8 ≤ n) (hu : urgentWaits c = true) :
    (schedule c).host.fetchQ = c.host.fetchQ ∧ (schedule c).out = c.out := by
  unfold schedule
  split
  · exact ⟨rfl, rfl⟩
  · rw [h]
    dsimp only
    rw [if_pos (by rw [hu, decide_eq_true hn]; rfl)]
    exact ⟨rfl, rfl⟩

/-- What is read for a service is of a flow that can be served (R92, R93). -/
theorem schedule_reads (c : Core) (h : c.host.fetchQ = []) : ∀ e ∈ (schedule c).host.fetchQ, servable c e.1 = true := by
  unfold schedule
  split
  · intro e he; rw [h] at he; cases he
  · cases hx : nextFlow c with
    | none => intro e he; dsimp only at he; rw [h] at he; cases he
    | some n =>
      dsimp only
      split
      · intro e he; dsimp only at he; rw [h] at he; cases he
      · obtain ⟨k, o, g⟩ := issueFetch_only { c with host := { c.host with
          fetchQ := splitFetch (flowAt c n) n (readMax c) 8 (flowAt c n).sh (mayTake c n)
          last := if n < 8 then c.host.last else tset 0 c.host.last (flowAt c n).cls n } }
        rw [g]
        intro e he
        rw [(splitFetch_reads _ _ _ _ _ _ e he).1]
        exact (nextFlow_some c n hx).2.1

theorem issueFetch_out (c : Core) : ∃ o, (issueFetch c).out = o ++ c.out := by
  unfold issueFetch
  cases c.host.fetchQ with
  | nil => exact ⟨[], rfl⟩
  | cons e r =>
    obtain ⟨n, i, k⟩ := e
    dsimp only
    by_cases h : portUp (hpCount 8 c) = true
    · rw [if_pos h]; exact ⟨[_], rfl⟩
    · rw [if_neg h]; exact ⟨[], rfl⟩

theorem resumeFetch_only (c : Core) : ∃ q l k d o, resumeFetch c =
    { c with host := { c.host with fetchQ := q, last := l, counters := k, fetchDue := d }, out := o ++ c.out } ∧
      (c.host.fetchDue = false → resumeFetch c = c ∧ o = []) := by
  have hs : ∃ o, (schedule c).out = o ++ c.out := by
    unfold schedule
    split
    · exact ⟨[], rfl⟩
    · cases nextFlow c with
      | none => exact ⟨[], rfl⟩
      | some n =>
        dsimp only
        split
        · exact ⟨[], rfl⟩
        · exact issueFetch_out _
  unfold resumeFetch
  by_cases h : (c.host.fetchDue && !urgentWaits c) = true
  · rw [if_pos h]
    obtain ⟨q, l, k, d, o, e⟩ := schedule_only c
    obtain ⟨o', ho⟩ := hs
    refine ⟨q, l, k, d, o', ?_, fun hd => by rw [hd] at h; cases h⟩
    rw [← ho, e]
  · rw [if_neg h]
    exact ⟨_, _, _, _, [], rfl, fun _ => ⟨rfl, rfl⟩⟩

theorem schedule_none (c : Core) (h : nextFlow c = none) (hd : c.host.fetchDue = false) : schedule c = c := by
  unfold schedule
  split
  · rfl
  · rw [h, ← hd]

/-- A write over the port changes nothing but what left the chip (R98). -/
theorem hostWrite_only (a : Nat) (b : Bytes) (c : Core) : ∃ o, hostWrite a b c = { c with out := o } := by
  have : ∀ (l : List (Nat × Bytes)) (c : Core), ∃ o, l.foldl (fun c e => emit (.hostWrite e.1 e.2) c) c = { c with out := o } := by
    intro l
    induction l with
    | nil => exact fun c => ⟨_, rfl⟩
    | cons e l ih => exact fun c => (ih (emit (.hostWrite e.1 e.2) c)).imp fun _ h => h
  unfold hostWrite
  split
  · exact this _ _
  · exact ⟨_, rfl⟩

/-- A write of at most 4 KiB over an open port is one write (R98). -/
theorem hostWrite_one (a : Nat) (b : Bytes) (c : Core) (h : portUp c = true) (h1 : b ≠ []) (h2 : b.length ≤ 4096) :
    hostWrite a b c = emit (.hostWrite a b) c := by
  have h0 : 0 < b.length := List.length_pos_iff.mpr h1
  have : bulkPieces a b = [(a, b)] := by
    unfold bulkPieces
    rw [show (b.length + 4095) / 4096 = 1 by omega]
    simp [List.take_of_length_le h2]
  unfold hostWrite
  rw [if_pos h, this]
  rfl

end Sys2Proof.Machine
end

