-- ==== Sys2Proof/Laws/Completions.lean ====
section
/-! SUPPORT. A fetched descriptor and its checks, and the completion that goes next (R85, R94, R95, R111). -/

namespace Sys2Proof.Machine

theorem freeSlot_lt (c : Core) (n k : Nat) (h : freeSlot c n = some k) : k < 512 := by
  unfold freeSlot at h
  dsimp only at h
  have a : ∀ k, ((List.range 480).map (· + 32)).find? (fun k => (slotAt c k).isNone) = some k → k < 512 := by
    intro k hk
    obtain ⟨i, hi, hj⟩ := List.mem_map.mp (List.mem_of_find?_eq_some hk)
    have := List.mem_range.mp hi
    omega
  split at h
  · split at h
    · rename_i x hx
      injection h with h
      have := List.mem_range.mp (List.mem_of_find?_eq_some hx)
      omega
    · exact a k h
  · exact a k h

theorem finish_flows (k st d r0 r1 : Nat) (c : Core) : (finish k st d r0 r1 c).host.flows = c.host.flows ∧ (finish k st d r0 r1 c).host.fetchQ = c.host.fetchQ := by
  unfold finish
  split
  · split
    · exact ⟨rfl, rfl⟩
    · split <;> exact ⟨rfl, rfl⟩
  · exact ⟨rfl, rfl⟩

theorem finish_other (k st d r0 r1 : Nat) (c : Core) (m : Nat) (h : m ≠ k) : slotAt (finish k st d r0 r1 c) m = slotAt c m := by
  unfold finish
  split
  · split
    · rfl
    · split
      · exact (slotAt_setSlot k m none c).trans (if_neg (Ne.symm h))
      · rename_i x _ _ _
        have := slotAt_setSlot k m (some { x with done := some { status := st, detail := d, r0, r1, stamp := BitVec.ofNat 64 (stampOf c), epoch := c.nv.epoch, order := c.host.finished } }) c
        rw [if_neg (Ne.symm h)] at this
        exact this
  · rfl

/-- One fetched descriptor. -/
theorem takeDesc_spec (n j : Nat) (x : Fetched) (c : Core) (h : freeSlot c n = some j) :
    (∃ g, takeDesc n x c = { c with host := g, nv.auth := (checkDesc c n x).2.getD c.nv.auth }) ∧
    flowAt (takeDesc n x c) n = { flowAt c n with sh := (flowAt c n).sh + 1, fails := 0 } ∧
    (∀ m, m ≠ n → flowAt (takeDesc n x c) m = flowAt c m) ∧
    (∀ m, m ≠ j → slotAt (takeDesc n x c) m = slotAt c m) ∧
    (∃ y, slotAt (takeDesc n x c) j = some y ∧ y.flow = n ∧ y.gen = (flowAt c n).gen ∧ y.sqIndex = (flowAt c n).sh ∧
            y.fEpoch = (flowAt c n).epoch ∧ y.desc = x.desc ∧ y.data = x.data ∧ y.started = false ∧
            ((checkDesc c n x).1 = .accept → y.done = none) ∧
            ∀ st d, (checkDesc c n x).1 = .reject st d → Ended j st d 0 0 (takeDesc n x c)) := by
  have hj := freeSlot_lt c n j h
  unfold takeDesc
  rw [h]
  dsimp only
  generalize checkDesc c n x = r
  obtain ⟨v, a⟩ := r
  dsimp only
  cases v with
  | accept =>
    dsimp only
    refine ⟨⟨_, rfl⟩, ?_, ?_, ?_, ?_⟩
    · exact (flowAt_setFlow _ _ _ _).trans (if_pos rfl)
    · intro m hm; exact (flowAt_setFlow _ _ _ _).trans (if_neg (Ne.symm hm))
    · intro m hm; exact (slotAt_setSlot _ _ _ _).trans (if_neg (Ne.symm hm))
    · exact ⟨_, (slotAt_setSlot _ _ _ _).trans (if_pos rfl), rfl, rfl, rfl, rfl, rfl, rfl, rfl, fun _ => rfl, (fun st d k => by cases k)⟩
  | reject st d =>
    dsimp only
    generalize hy : ({ flow := n, gen := (flowAt c n).gen, sqIndex := (flowAt c n).sh, fEpoch := (flowAt c n).epoch, desc := x.desc, crcBad := decide (st = 0x10), data := x.data, mask := heldMask x.desc, blocked := blockedPortals c } : SlotSt) = y
    generalize he : ({ setFlow n { flowAt c n with sh := (flowAt c n).sh + 1, fails := 0 } c with nv.auth := a.getD (setFlow n { flowAt c n with sh := (flowAt c n).sh + 1, fails := 0 } c).nv.auth } : Core) = e
    have e1 : ∃ g, e = { c with host := g, nv.auth := a.getD c.nv.auth } := ⟨_, he.symm⟩
    have e2 : ∀ m, flowAt e m = if n = m then { flowAt c n with sh := (flowAt c n).sh + 1, fails := 0 } else flowAt c m := by
      intro m; rw [← he]; exact flowAt_setFlow _ _ _ _
    have e3 : ∀ m, slotAt e m = slotAt c m := by intro m; rw [← he]; rfl
    have hd : y.done = none := by rw [← hy]
    have hs : slotAt (setSlot j (some y) e) j = some y := (slotAt_setSlot _ _ _ _).trans (if_pos rfl)
    have f1 := finish_slot j st d 0 0 (setSlot j (some y) e) y hs hd hj
    obtain ⟨g1, g2⟩ := finish_only j st d 0 0 (setSlot j (some y) e)
    obtain ⟨k1, k2⟩ := finish_flows j st d 0 0 (setSlot j (some y) e)
    have f2 : ∀ m, m ≠ j → slotAt (finish j st d 0 0 (setSlot j (some y) e)) m = slotAt c m := by
      intro m hm
      rw [finish_other _ _ _ _ _ _ _ hm, slotAt_setSlot, if_neg (Ne.symm hm), e3]
    have f3 : ∀ m, flowAt (finish j st d 0 0 (setSlot j (some y) e)) m = flowAt e m := by
      intro m; unfold flowAt; rw [k1]; rfl
    have core : ∀ z : Core, (z = finish j st d 0 0 (setSlot j (some y) e) ∨ ∃ i, z = hpCount i (finish j st d 0 0 (setSlot j (some y) e))) →
        (∃ g, z = { c with host := g, nv.auth := a.getD c.nv.auth }) ∧ (∀ m, flowAt z m = flowAt e m) ∧
          (∀ m, slotAt z m = slotAt (finish j st d 0 0 (setSlot j (some y) e)) m) := by
      intro z hz
      obtain ⟨g0, e0⟩ := e1
      rcases hz with hz | ⟨i, hz⟩
      · exact ⟨⟨g1, by rw [hz, g2, e0]; rfl⟩, fun m => by rw [hz]; exact f3 m, fun m => by rw [hz]⟩
      · exact ⟨⟨_, by rw [hz, g2, e0]; rfl⟩, fun m => by rw [hz]; exact f3 m, fun m => by rw [hz]; rfl⟩
    have hz : ∀ F : Core, (if st = 0x10 then hpCount 24 F else if st = 0x32 then hpCount 36 F else F) = F ∨
        ∃ i, (if st = 0x10 then hpCount 24 F else if st = 0x32 then hpCount 36 F else F) = hpCount i F := by
      intro F
      split
      · exact .inr ⟨_, rfl⟩
      · split
        · exact .inr ⟨_, rfl⟩
        · exact .inl rfl
    obtain ⟨c1, c2, c3⟩ := core _ (hz _)
    refine ⟨c1, ?_, ?_, ?_, ?_⟩
    · rw [c2, e2, if_pos rfl]
    · intro m hm; rw [c2, e2, if_neg (Ne.symm hm)]
    · intro m hm; rw [c3]; exact f2 m hm
    · refine ⟨_, (c3 j).trans f1, ?_⟩
      refine ⟨by rw [← hy], by rw [← hy], by rw [← hy], by rw [← hy], by rw [← hy], by rw [← hy], by rw [← hy], (fun k => by cases k), ?_⟩
      intro st' d' k
      injection k with k1 k2
      subst k1; subst k2
      exact ⟨_, _, (c3 j).trans f1, rfl, rfl, rfl, rfl, rfl⟩

theorem firstFail_accept (l : List (Bool × Nat × Nat)) (h : firstFail l = .accept) : ∀ e, e ∈ l → e.1 = true := by
  induction l with
  | nil => intro e he; cases he
  | cons a r ih =>
    obtain ⟨b, s, d⟩ := a
    intro e he
    unfold firstFail at h
    cases b with
    | false => cases h
    | true =>
      rcases List.mem_cons.mp he with k | k
      · rw [k]
      · exact ih h e k

theorem authCheck_accept (c : Core) (x : Fetched) (h : (authCheck c x).1 = .accept) : opAuth c.sys.mode x.desc = authBit x.desc ∧
    ∀ a, (authCheck c x).2 = some a → opAuth c.sys.mode x.desc = true ∧
        ∃ b, x.auth = some b ∧ a.toNat = field b 24 4 % 2 ^ 32 ∧ c.nv.auth.toNat < field b 24 4 := by
  unfold authCheck at h ⊢
  dsimp only at h ⊢
  by_cases h1 : opAuth c.sys.mode x.desc = true
  · rw [if_pos h1] at h ⊢
    by_cases h2 : (!authBit x.desc) = true
    · rw [if_pos h2] at h; cases h
    rw [if_neg h2] at h ⊢
    refine ⟨by rw [h1]; simpa using (Eq.symm (by simpa using h2 : authBit x.desc = true)), ?_⟩
    by_cases h3 : field x.desc 52 8 % 64 ≠ 0
    · rw [if_pos h3] at h; cases h
    rw [if_neg h3] at h ⊢
    intro a ha
    refine ⟨h1, ?_⟩
    revert h ha
    generalize (if opReads (byteAt x.desc 0) = true then x.data else some []) = dt
    cases hb : x.auth with
    | none => intro h; cases h
    | some b =>
      cases dt with
      | none => intro h; cases h
      | some dd =>
        dsimp only
        intro h ha
        by_cases h4 : authValid c x.desc b dd = true
        · rw [if_pos h4] at ha
          injection ha with ha
          refine ⟨b, rfl, by rw [← ha, BitVec.toNat_ofNat], ?_⟩
          unfold authValid at h4
          simp only [Bool.and_eq_true, decide_eq_true_eq] at h4
          exact h4.1.1.1.1.2
        · rw [if_neg h4] at h; cases h
  · rw [if_neg h1] at h ⊢
    by_cases h2 : authBit x.desc = true
    · rw [if_pos h2] at h; cases h
    · rw [if_neg h2] at h ⊢
      exact ⟨by rw [eq_false_of_ne_true h1, eq_false_of_ne_true h2], fun a k => by cases k⟩

theorem check_accept (c : Core) (n : Nat) (x : Fetched) (h : (checkDesc c n x).1 = .accept) :
    checkFirst c x.desc = .accept ∧ (authCheck c x).1 = .accept ∧ checkLast c n x.desc = .accept ∧ (checkDesc c n x).2 = (authCheck c x).2 := by
  unfold checkDesc at h ⊢
  cases h1 : checkFirst c x.desc with
  | reject a b => rw [h1] at h; cases h
  | accept =>
    rw [h1] at h
    dsimp only at h ⊢
    cases h2 : dataCheck x.desc with
    | reject a b => rw [h2] at h; cases h
    | accept =>
      rw [h2] at h
      dsimp only at h ⊢
      cases h3 : (authCheck c x).1 with
      | reject a b => rw [h3] at h; cases h
      | accept =>
        rw [h3] at h
        dsimp only at h ⊢
        exact ⟨rfl, rfl, h, rfl⟩

theorem tget_mem {α : Type} (d : α) (t : Table α) (k : Nat) (v : α) (h : tget d t k = v) (hv : v ≠ d) : (k, v) ∈ t := by
  induction t with
  | nil => exact absurd h.symm hv
  | cons e r ih =>
    obtain ⟨i, w⟩ := e
    unfold tget at h
    split at h
    · rename_i hi; subst hi; rw [h]; exact List.mem_cons_self ..
    · exact List.mem_cons_of_mem _ (ih h)

theorem mem_finished (c : Core) (k : Nat) (x : SlotSt) (e : DoneSt) (h : slotAt c k = some x) (hd : x.done = some e) : (k, x, e) ∈ finished c := by
  unfold finished
  refine List.mem_filterMap.mpr ⟨(k, some x), tget_mem none _ k _ h (by simp), ?_⟩
  show Option.map _ x.done = _
  rw [hd]
  rfl

/-- What discarding leaves: slots are only freed. -/
theorem discard_fold (l : List (Nat × SlotSt × DoneSt)) (c d : Core) (hf : d.host.flows = c.host.flows) :
    let z := l.foldl (fun d e => if stale d e.2.1 then hpCount 20 (setSlot e.1 none d) else d) d
    z.host.flows = c.host.flows ∧ (∀ m, slotAt d m = none → slotAt z m = none) ∧
      ∀ e, e ∈ l → stale c e.2.1 = true → slotAt z e.1 = none := by
  induction l generalizing d with
  | nil => exact ⟨hf, fun _ h => h, fun e he => by cases he⟩
  | cons a r ih =>
    have st : ∀ y, stale d y = stale c y := fun y => by unfold stale flowAt; rw [hf]
    by_cases hs : stale d a.2.1 = true
    · obtain ⟨h1, h2, h3⟩ := ih (hpCount 20 (setSlot a.1 none d)) hf
      have e : (a :: r).foldl (fun d e => if stale d e.2.1 then hpCount 20 (setSlot e.1 none d) else d) d =
          r.foldl (fun d e => if stale d e.2.1 then hpCount 20 (setSlot e.1 none d) else d) (hpCount 20 (setSlot a.1 none d)) := by
        rw [List.foldl_cons, if_pos hs]
      dsimp only
      rw [e]
      have hsl : ∀ m, slotAt (hpCount 20 (setSlot a.1 none d)) m = if a.1 = m then none else slotAt d m := fun m => slotAt_setSlot a.1 m none d
      refine ⟨h1, fun m hm => h2 m ?_, ?_⟩
      · rw [hsl]; split; · rfl
        · exact hm
      · intro b hb hbs
        rcases List.mem_cons.mp hb with k | k
        · subst k; exact h2 _ ((hsl _).trans (if_pos rfl))
        · exact h3 b k hbs
    · obtain ⟨h1, h2, h3⟩ := ih d hf
      have e : (a :: r).foldl (fun d e => if stale d e.2.1 then hpCount 20 (setSlot e.1 none d) else d) d =
          r.foldl (fun d e => if stale d e.2.1 then hpCount 20 (setSlot e.1 none d) else d) d := by
        rw [List.foldl_cons, if_neg hs]
      dsimp only
      rw [e]
      refine ⟨h1, h2, ?_⟩
      intro b hb hbs
      rcases List.mem_cons.mp hb with k | k
      · subst k; rw [st] at hs; exact absurd hbs hs
      · exact h3 b k hbs

theorem discard_none (l : List (Nat × SlotSt × DoneSt)) (c : Core) (h : ∀ e, e ∈ l → stale c e.2.1 = false) :
    l.foldl (fun d e => if stale d e.2.1 then hpCount 20 (setSlot e.1 none d) else d) c = c := by
  induction l with
  | nil => rfl
  | cons a r ih =>
    rw [List.foldl_cons, if_neg (by rw [h a (List.mem_cons_self ..)]; decide)]
    exact ih (fun e he => h e (List.mem_cons_of_mem _ he))

theorem best_spec (l : List (Nat × SlotSt × DoneSt)) (a : Option (Nat × SlotSt × DoneSt)) :
    let r := l.foldl (fun a e => match a with
      | none => some e
      | some b => if e.2.2.order < b.2.2.order then some e else a) a
    (r = none ↔ a = none ∧ l = []) ∧ ∀ e, r = some e → (e ∈ l ∨ a = some e) ∧ (∀ y, y ∈ l → e.2.2.order ≤ y.2.2.order) ∧
      ∀ y, a = some y → e.2.2.order ≤ y.2.2.order := by
  induction l generalizing a with
  | nil => exact ⟨⟨fun h => ⟨h, rfl⟩, fun h => h.1⟩, fun e he => ⟨.inr he, (fun y hy => by cases hy), fun y hy => by have := hy.symm.trans he; injection this with t; exact t ▸ Nat.le_refl _⟩⟩
  | cons b r ih =>
    cases a with
    | none =>
      obtain ⟨h1, h2⟩ := ih (some b)
      refine ⟨⟨fun h => absurd (h1.mp h).1 (by simp), fun h => absurd h.2 (by simp)⟩, ?_⟩
      intro e he
      obtain ⟨k1, k2, k3⟩ := h2 e he
      refine ⟨.inl ?_, ?_, fun y hy => by cases hy⟩
      · rcases k1 with k | k
        · exact List.mem_cons_of_mem _ k
        · injection k with k; rw [k]; exact List.mem_cons_self ..
      · intro y hy
        rcases List.mem_cons.mp hy with k | k
        · exact k3 y (by rw [k])
        · exact k2 y k
    | some x =>
      by_cases hx : b.2.2.order < x.2.2.order
      · obtain ⟨h1, h2⟩ := ih (some b)
        have e0 : (b :: r).foldl (fun a e => match a with
            | none => some e
            | some b => if e.2.2.order < b.2.2.order then some e else a) (some x) = r.foldl (fun a e => match a with
            | none => some e
            | some b => if e.2.2.order < b.2.2.order then some e else a) (some b) := by
          rw [List.foldl_cons]; dsimp only; rw [if_pos hx]
        dsimp only
        rw [e0]
        refine ⟨⟨fun h => absurd (h1.mp h).1 (by simp), fun h => absurd h.1 (by simp)⟩, ?_⟩
        intro e he
        obtain ⟨k1, k2, k3⟩ := h2 e he
        refine ⟨.inl ?_, ?_, ?_⟩
        · rcases k1 with k | k
          · exact List.mem_cons_of_mem _ k
          · injection k with k; rw [k]; exact List.mem_cons_self ..
        · intro y hy
          rcases List.mem_cons.mp hy with k | k
          · exact k3 y (by rw [k])
          · exact k2 y k
        · intro y hy
          injection hy with hy
          have := k3 b rfl
          rw [← hy]; omega
      · obtain ⟨h1, h2⟩ := ih (some x)
        have e0 : (b :: r).foldl (fun a e => match a with
            | none => some e
            | some b => if e.2.2.order < b.2.2.order then some e else a) (some x) = r.foldl (fun a e => match a with
            | none => some e
            | some b => if e.2.2.order < b.2.2.order then some e else a) (some x) := by
          rw [List.foldl_cons]; dsimp only; rw [if_neg hx]
        dsimp only
        rw [e0]
        refine ⟨⟨fun h => absurd (h1.mp h).1 (by simp), fun h => absurd h.1 (by simp)⟩, ?_⟩
        intro e he
        obtain ⟨k1, k2, k3⟩ := h2 e he
        refine ⟨?_, ?_, k3⟩
        · rcases k1 with k | k
          · exact .inl (List.mem_cons_of_mem _ k)
          · exact .inr k
        · intro y hy
          rcases List.mem_cons.mp hy with k | k
          · have := k3 x rfl
            rw [k]; omega
          · exact k2 y k

theorem next_spec (c : Core) (k : Nat) (x : SlotSt) (e : DoneSt) (hs : ∀ y, y ∈ finished c → stale c y.2.1 = false)
    (h : nextCompletion c = some (k, x, e)) :
    (k, x, e) ∈ finished c ∧ entryFree (flowAt c x.flow) = true ∧
        (∀ y, y ∈ finished c → entryFree (flowAt c y.2.1.flow) = true →
          (8 ≤ x.flow → 8 ≤ y.2.1.flow) ∧ ((8 ≤ x.flow ∨ y.2.1.flow < 8) → e.order ≤ y.2.2.order)) := by
  unfold nextCompletion at h
  dsimp only at h
  generalize hl : (finished c).filter (fun e => !stale c e.2.1 && entryFree (flowAt c e.2.1.flow)) = l at h
  have ml : ∀ y, y ∈ l ↔ y ∈ finished c ∧ entryFree (flowAt c y.2.1.flow) = true := by
    intro y
    rw [← hl, List.mem_filter]
    constructor
    · rintro ⟨a, b⟩; simp only [Bool.and_eq_true] at b; exact ⟨a, b.2⟩
    · rintro ⟨a, b⟩; exact ⟨a, by rw [hs y a, b]; rfl⟩
  obtain ⟨u1, u2⟩ := best_spec (l.filter fun e => decide (e.2.1.flow < 8)) none
  obtain ⟨a1, a2⟩ := best_spec l none
  split at h
  · rename_i z hz
    injection h with h
    subst h
    obtain ⟨k1, k2, _⟩ := u2 _ hz
    rcases k1 with k1 | k1
    rotate_left; · cases k1
    obtain ⟨m1, m2⟩ := List.mem_filter.mp k1
    obtain ⟨m3, m4⟩ := (ml _).mp m1
    simp only [decide_eq_true_eq] at m2
    refine ⟨m3, m4, fun y hy hf => ⟨fun q => absurd m2 (by omega), fun q => k2 y ?_⟩⟩
    refine List.mem_filter.mpr ⟨(ml y).mpr ⟨hy, hf⟩, ?_⟩
    simp only [decide_eq_true_eq]
    omega
  · rename_i hz
    obtain ⟨k1, k2, _⟩ := a2 _ h
    rcases k1 with k1 | k1
    rotate_left; · cases k1
    obtain ⟨m3, m4⟩ := (ml _).mp k1
    have hne := (u1.mp hz).2
    refine ⟨m3, m4, fun y hy hf => ⟨fun _ => ?_, fun _ => k2 y ((ml y).mpr ⟨hy, hf⟩)⟩⟩
    by_cases hq : y.2.1.flow < 8
    · have : y ∈ l.filter fun e => decide (e.2.1.flow < 8) := List.mem_filter.mpr ⟨(ml y).mpr ⟨hy, hf⟩, by simpa using hq⟩
      rw [hne] at this; cases this
    · omega

end Sys2Proof.Machine
end

