-- ==== Sys2Proof/Laws/Modes.lean ====
section
/-! SUPPORT. Mode changes: the groups of the core that they and the operations they end write, and the mode they leave. -/

namespace Sys2Proof.Machine

/-! ### Ending operations -/

theorem closeParts_only (k : Nat) (c : Core) : ∃ h, closeParts k c = { c with host := h } := by
  unfold closeParts
  split
  · split
    · exact finish_only _ _ _ _ _ _
    · exact ⟨_, rfl⟩
  · exact ⟨_, rfl⟩

theorem endPart_only (k p st d : Nat) (c : Core) : ∃ h, endPart k p st d c = { c with host := h } := by
  unfold endPart
  split
  · split
    · obtain ⟨h, e⟩ := closeParts_only k (setSlot k (some { ‹SlotSt› with ended := tput ‹SlotSt›.ended p (st * 256 + d) }) c)
      exact ⟨h, e⟩
    · exact ⟨_, rfl⟩
  · exact ⟨_, rfl⟩

theorem reachPart_only (k p : Nat) (c : Core) : ∃ h, reachPart k p c = { c with host := h } := by
  unfold reachPart
  split
  · split
    · obtain ⟨h, e⟩ := closeParts_only k (setSlot k (some { ‹SlotSt› with reached := setBit ‹SlotSt›.reached p true }) c)
      exact ⟨h, e⟩
    · exact ⟨_, rfl⟩
  · exact ⟨_, rfl⟩

/-- A fold of operations each of which writes only the host port. -/
theorem foldHost_only {α : Type} (f : Core → α → Core) (hf : ∀ c a, ∃ h, f c a = { c with host := h }) (l : List α) (c : Core) :
    ∃ h, l.foldl f c = { c with host := h } := by
  induction l generalizing c with
  | nil => exact ⟨c.host, rfl⟩
  | cons a r ih =>
    obtain ⟨h, e⟩ := hf c a
    obtain ⟨g, e2⟩ := ih (f c a)
    exact ⟨g, by rw [List.foldl_cons, e2, e]⟩

/-- A fold of operations each of which writes only the recorder. -/
theorem foldRecd_only {α : Type} (f : Core → α → Core) (hf : ∀ c a, ∃ u, f c a = { c with recd := u }) (l : List α) (c : Core) :
    ∃ u, l.foldl f c = { c with recd := u } := by
  induction l generalizing c with
  | nil => exact ⟨c.recd, rfl⟩
  | cons a r ih =>
    obtain ⟨h, e⟩ := hf c a
    obtain ⟨g, e2⟩ := ih (f c a)
    exact ⟨g, by rw [List.foldl_cons, e2, e]⟩

theorem endAll_only (k st d : Nat) (c : Core) : ∃ h, endAll k st d c = { c with host := h } := by
  unfold endAll
  split
  · split
    · exact foldHost_only _ (fun c p => endPart_only k p st d c) _ c
    · exact finish_only _ _ _ _ _ _
  · exact ⟨_, rfl⟩

/-- What the end of operations by a mode change writes (R124). -/
theorem preempt_only (c : Core) : ∃ h q m, preempt c = { c with host := h, seq := q, cam := m } := by
  unfold preempt
  obtain ⟨h, e⟩ := foldHost_only (fun c' (e : Nat × SlotSt) =>
      if opGoesOn c'.sys.mode (slotOp e.2) || clearSlot c == some e.1 then c' else endAll e.1 0x40 (modeCode c'.sys.mode) c')
    (fun c a => by
      split
      · exact ⟨_, rfl⟩
      · exact endAll_only _ _ _ _) (liveSlots c) c
  dsimp only
  rw [e]
  exact ⟨_, _, _, rfl⟩

/-- The time base once the exchange of its role is over (R27, R380). -/
def undisciplined (m : Mode) (t : TbSt) : TbSt :=
  if m = .shadow then { t with t4 := 0 } else { t with offs := [], avg := 0, drift := 0, slew := 0, t12 := none, t3 := 0 }

@[simp] theorem undisciplined_running (m : Mode) (t : TbSt) : (undisciplined m t).running = t.running := by
  unfold undisciplined; split <;> rfl

@[simp] theorem undisciplined_count (m : Mode) (t : TbSt) : (undisciplined m t).count = t.count := by
  unfold undisciplined; split <;> rfl

/-- A unit that leaves SHADOW disciplines nothing (R27, R355, R380). -/
theorem endDiscipline_only (m : Mode) (c : Core) : endDiscipline m c =
    { c with tb := undisciplined m c.tb, twin.synced := if m = .shadow then c.twin.synced else false } := by
  unfold endDiscipline undisciplined
  split <;> rfl

/-- What a mode change writes (R27, R36, R37, R355, R446, R124). -/
theorem changeMode_only (m : Mode) (cause kind p1 : Nat) (c : Core) : ∃ u b h q x, changeMode m cause kind p1 c =
    { c with
      sys := { c.sys with mode := m, cause := if m == .safeTalk || m == .lockout then cause else c.sys.cause }
      tb := undisciplined m c.tb
      twin := { c.twin with synced := if m = .shadow then c.twin.synced else false, role := roleIn m (twinStandby c) }
      recd := u, mem.banks := b, host := h, seq := q, cam := x } := by
  unfold changeMode setRole powerBanks
  dsimp only
  rw [endDiscipline_only]
  dsimp only
  obtain ⟨u, e⟩ := event_only 0x001 0x00 [(if kind = 0 then modeCode c.sys.mode else c.sys.oldMode) + modeCode m * 256 + cause * 65536 + kind * 2 ^ 24, p1] c
  rw [e]
  dsimp only
  obtain ⟨h, q, x, g⟩ := preempt_only _
  rw [g]
  exact ⟨_, _, _, _, _, rfl⟩

theorem snapFlags_only (c : Core) : ∃ q, snapFlags c = { c with seq := q } := by
  unfold snapFlags
  cases c.twin.lastSnap with
  | none => exact ⟨_, rfl⟩
  | some m => exact ⟨_, rfl⟩

theorem dropCarried_only (c : Core) : ∃ h q x, dropCarried c = { c with host := h, seq := q, cam := x } := ⟨_, _, _, rfl⟩

/-- What becoming UNSYNCED writes (R375, R376, R126). -/
theorem unsyncNow_only (cause : Nat) (c : Core) : ∃ u h q x, unsyncNow cause c =
    { c with
      recd := u, host := h, seq := q, cam := x
      twin := { c.twin with synced := false, cause, entries := satAdd 65535 c.twin.entries 1, quiet := 0, resync := 0, badSnaps := 0, silent := false } } := by
  unfold unsyncNow
  dsimp only
  obtain ⟨u, e⟩ := event_only 0x094 0x0B [cause] c
  rw [e]
  dsimp only
  obtain ⟨q, e2⟩ := snapFlags_only { c with
    recd := u
    twin := { c.twin with synced := false, cause, entries := satAdd 65535 c.twin.entries 1, quiet := 0, resync := 0, badSnaps := 0, silent := false } }
  rw [e2]
  exact ⟨_, _, _, _, rfl⟩

/-! ### Flow commands at a mode entry (R79) -/

theorem disableFlow_only (n : Nat) (c : Core) : ∃ h, disableFlow n c = { c with host := h } := ⟨_, rfl⟩

theorem setFlow_only (n : Nat) (f : FlowSt) (c : Core) : ∃ h, setFlow n f c = { c with host := h } := ⟨_, rfl⟩

theorem loadReads_only (n : Nat) (c : Core) : ∃ o, loadReads n c = { c with out := o } := ⟨_, rfl⟩

theorem loadFlow_only (n : Nat) (c : Core) : ∃ h o, loadFlow n c = { c with host := h, out := o } := by
  obtain ⟨h, e⟩ := disableFlow_only n c
  unfold loadFlow
  rw [e]
  dsimp only
  split
  · split
    · exact ⟨_, _, rfl⟩
    · obtain ⟨g, e2⟩ := setFlow_only n { flowAt { c with host := h } n with cmd := 4 } { c with host := h }
      rw [e2]
      split
      · obtain ⟨o, e3⟩ := loadReads_only n { c with host := g }
        exact ⟨g, o, e3⟩
      · exact ⟨g, c.out, rfl⟩
  · exact ⟨_, _, rfl⟩

theorem disableCmd_only (n : Nat) (c : Core) : ∃ h, disableCmd n c = { c with host := h } := by
  unfold disableCmd
  split
  · exact ⟨_, rfl⟩
  · exact ⟨_, rfl⟩

theorem flowCommands_only (l : List Nat) (c : Core) :
    ∃ h o, l.foldl (fun c n => disableCmd n (loadFlow n c)) c = { c with host := h, out := o } := by
  induction l generalizing c with
  | nil => exact ⟨c.host, c.out, rfl⟩
  | cons a r ih =>
    obtain ⟨h, o, e⟩ := loadFlow_only a c
    obtain ⟨h2, e2⟩ := disableCmd_only a (loadFlow a c)
    obtain ⟨g, w, e3⟩ := ih (disableCmd a (loadFlow a c))
    exact ⟨g, w, by rw [List.foldl_cons, e3, e2, e]⟩

/-- What every mode entry writes (R39, R79, R104, R455). -/
theorem modeEntry_only (c : Core) : ∃ h o u, modeEntry c =
    { c with sys := { c.sys with hostLost := true, wipedRec := [] }, host := h, out := o, recd := u } := by
  unfold modeEntry
  dsimp only
  obtain ⟨h, o, e⟩ := flowCommands_only (List.range 256) { c with sys := { c.sys with hostLost := true } }
  obtain ⟨u, g⟩ := foldRecd_only (fun (c : Core) (k : Nat) => event 0x0C2 0x0F [k] c) (fun c k => event_only _ _ _ c)
    c.sys.wipedRec { c with sys := { c.sys with hostLost := true }, host := h, out := o }
  rw [e]
  dsimp only
  rw [g]
  exact ⟨_, _, _, rfl⟩

/-! ### SAFE_TALK (R52, R53) -/

/-- The keys 0 to `n - 1` of a table updated each by `f`. -/
theorem tget_range {α : Type} [DecidableEq α] (d : α) (f : α → α) (t : Table α) (n k : Nat) :
    tget d ((List.range n).foldl (fun t x => tmod d t x f) t) k = if k < n then f (tget d t k) else tget d t k := by
  induction n with
  | zero => simp
  | succ n ih =>
    rw [List.range_succ, List.foldl_append, List.foldl_cons, List.foldl_nil]
    unfold tmod
    rw [tget_tset]
    by_cases h : n = k
    · subst h
      have := ih
      simp only [Nat.lt_irrefl, if_false] at this
      simp only [if_true, Nat.lt_succ_self]
      congr 1
    · simp only [h, if_false]
      rw [show (tget d (List.foldl (fun t x => tset d t x (f (tget d t x))) t (List.range n)) k) = _ from ih]
      by_cases h2 : k < n
      · simp [h2, Nat.lt_succ_of_lt h2]
      · have : ¬ k < n + 1 := by omega
        simp [h2, this]

/-- The 36 axes after the entry into SAFE_TALK. -/
theorem allOff_at (c : Core) (x : Nat) (h : x < 36) :
    axAt (axesAllOff c) x = { axAt c x with st := .off, dutyU := 32768, dutyV := 32768, dutyW := 32768 } := by
  unfold axAt axesAllOff
  dsimp only
  rw [tget_range, if_pos h]

/-- What the core's entry into SAFE_TALK writes (R52, R53). -/
theorem safeTalkCore_only (cause : Nat) (c : Core) : ∃ d u b h x w, safeTalkCore cause c =
    { c with
      sys := { c.sys with
        mode := .safeTalk, cause, wantLockout := none, svcWait := none, stStep := 0, deferred := false
        txOff := c.sys.txOff && c.sys.flush.isSome }
      twin := { c.twin with synced := false, role := .none }
      recd := u, mem.banks := b, host := h, cam := x
      seq := { (axesAllOff { c with seq := d }).seq with out := 0, forces := [] }
      tb := w } ∧ w.running = true := by
  unfold safeTalkCore startCount
  obtain ⟨u, b, h, q, x, e⟩ := changeMode_only .safeTalk cause 0 0 c
  rw [e]
  by_cases hr : (undisciplined .safeTalk c.tb).running = true
  · exact ⟨q, u, b, h, x, undisciplined .safeTalk c.tb, if_pos hr, hr⟩
  · exact ⟨q, u, b, h, x, _, if_neg hr, rfl⟩

/-- The core's entry into LOCKOUT, for the groups that a reader of the mode needs (R44, R361). -/
theorem lockoutCore_mode (cause p1 : Nat) (c : Core) :
    (lockoutCore cause p1 c).sys = { c.sys with mode := .lockout, cause, wsRelease := false, wantLockout := none, erased := false, eraseAge := 0 } := by
  unfold lockoutCore
  dsimp only
  obtain ⟨u, b, h, q, x, e⟩ := changeMode_only .lockout cause 0 p1
    { c with twin.synced := false, sys.wsRelease := false, sys.wantLockout := none, sys.erased := false, sys.eraseAge := 0 }
  rw [e]
  split
  · rfl
  · rfl

end Sys2Proof.Machine
end

