-- ==== Sys2Proof/Laws/Operations.lean ====
section
/-! SUPPORT. Operations that start and end in one delivery (R94, R110), and the slots in which nothing may start. -/

namespace Sys2Proof.Machine

theorem carryOp_eq (d : Bytes) (c : Core) : carryOp d c = { c with twin := { c.twin with carry := (carryOp d c).twin.carry } } := by
  unfold carryOp
  dsimp only
  split <;> rfl

/-- What is carried depends on the twin link and the descriptor. -/
theorem carryOp_congr (d : Bytes) (c e : Core) (h : c.twin = e.twin) : (carryOp d c).twin.carry = (carryOp d e).twin.carry := by
  unfold carryOp
  dsimp only
  rw [h]
  split <;> simp [h]

theorem begun_eq (k : Nat) (x : SlotSt) (c : Core) : begun k x c = { c with
    host := { c.host with slots := tset none c.host.slots k (some { x with started := true, visible := c.seq.now + 1 }) }
    twin := { c.twin with carry := (carryOp x.desc c).twin.carry } } := by
  unfold begun
  rw [carryOp_eq]
  have h := carryOp_congr x.desc (setSlot k (some { x with started := true, visible := c.seq.now + 1 }) c) c rfl
  rw [h]
  rfl

theorem startOp_begun (k op : Nat) (f : Bytes → Core → Core) (c : Core) (x : SlotSt) (h : Ready k op x c) :
    startOp k op f c = f x.desc (begun k x c) := startOp_ready k op f c x h

theorem startOpS_begun (k op : Nat) (f : Bytes → State → State) (s : State) (x : SlotSt) (h : Ready k op x s.core) :
    startOpS k op f s = f x.desc { s with core := begun k x s.core } := startOpS_ready k op f s x h

theorem begun_slot (k : Nat) (x : SlotSt) (c : Core) : slotAt (begun k x c) k = some { x with started := true, visible := c.seq.now + 1 } := by
  rw [begun_eq]
  simp [slotAt]

theorem begun_other (k j : Nat) (x : SlotSt) (c : Core) (h : j ≠ k) : slotAt (begun k x c) j = slotAt c j := by
  rw [begun_eq]
  simp [slotAt, Ne.symm h]

/-- A delivery that ends its operation at once. -/
theorem ends_op (k : Nat) (x : SlotSt) (st d r0 r1 : Nat) (c e : Core) (hk : k < 512) (hd : x.done = none)
    (he : e = { c with
      host := { c.host with slots := tset none c.host.slots k (some { x with started := true, visible := c.seq.now + 1 }) }
      twin := { c.twin with carry := (carryOp x.desc c).twin.carry } }) :
    EndsOp k x st d r0 r1 c (finish k st d r0 r1 e) := by
  have hs : slotAt e k = some { x with started := true, visible := c.seq.now + 1 } := by
    rw [he]; simp [slotAt]
  have f := finish_slot k st d r0 r1 e _ hs hd hk
  refine ⟨?_, ?_, ?_, ?_⟩
  · rw [f, he]; rfl
  · intro j hj
    rw [finish_other _ _ _ _ _ _ _ hj, he]
    simp [slotAt, Ne.symm hj]
  · obtain ⟨g, e2⟩ := finish_only k st d r0 r1 e
    rw [e2, he]
  · unfold finish
    rw [hs]
    dsimp only
    rw [if_neg (by rw [hd]; decide), if_neg (by omega), he]
    rfl

theorem finish_host (k st d r0 r1 : Nat) (c : Core) : ∃ l n, finish k st d r0 r1 c =
    { c with host := { c.host with slots := l, finished := n } } := by
  unfold finish
  split
  · split
    · exact ⟨_, _, rfl⟩
    · split <;> exact ⟨_, _, rfl⟩
  · exact ⟨_, _, rfl⟩

/-- A running operation of a host slot ends in a core of its own. -/
theorem finish_ends (k st d r0 r1 : Nat) (c : Core) (x : SlotSt) (h : slotAt c k = some x) (hd : x.done = none) (hk : k < 512) :
    Ended k st d r0 r1 (finish k st d r0 r1 c) :=
  ⟨_, _, finish_slot k st d r0 r1 c x h hd hk, rfl, rfl, rfl, rfl, rfl⟩

theorem not_ready (k op : Nat) (c : Core) (h : ∀ x, ¬ Ready k op x c) : opening k op c = none := by
  unfold opening running
  cases hs : slotAt c k with
  | none => rfl
  | some x =>
    dsimp only
    by_cases hc : (x.done.isNone && byteAt x.desc 0 == op && !x.started && !earlierWaits c x && !heldBack c op) = true
    · simp only [Bool.and_eq_true, Bool.not_eq_true', beq_iff_eq, Option.isNone_iff_eq_none] at hc
      exact absurd ⟨hs, hc.1.1.1.1, hc.1.1.1.2, hc.1.1.2, hc.1.2, hc.2⟩ (h x)
    · rw [if_neg hc]

theorem startOp_idle (k op : Nat) (f : Bytes → Core → Core) (c : Core) (h : ∀ x, ¬ Ready k op x c) : startOp k op f c = c := by
  unfold startOp
  rw [not_ready k op c h]

theorem startOpS_idle (k op : Nat) (f : Bytes → State → State) (s : State) (h : ∀ x, ¬ Ready k op x s.core) : startOpS k op f s = s := by
  unfold startOpS
  rw [not_ready k op s.core h]

/-! ### The self-test of the stores -/

theorem checkpoint_rest (n b : Nat) (chain : Bytes) (s : State) : ∃ u f, checkpoint n b chain s =
    { s with store := u, core := { s.core with free := f } } := by
  unfold checkpoint drawNoise
  dsimp only
  split
  · exact ⟨_, _, rfl⟩
  · exact ⟨_, s.core.free, rfl⟩

theorem tornRecords_only (t : Stores) (n w0 w : Nat) (c : Core) : ∃ u, tornRecords t n w0 w c = { c with recd := u } := by
  unfold tornRecords
  apply foldRecd_only
  intro c a
  dsimp only
  split
  · exact event_only _ _ _ _
  · exact ⟨_, rfl⟩

theorem pointerStep_only (r : Bool × State) (n : Nat) : ∃ u v, (pointerStep r n).2 =
    { r.2 with store := u, core := { r.2.core with recd := v } } := by
  unfold pointerStep
  dsimp only
  split
  · obtain ⟨v, h⟩ := tornRecords_only r.2.store n (committedW r.2.store n) ‹Nat› r.2.core
    rw [h]
    exact ⟨_, _, rfl⟩
  · exact ⟨_, _, rfl⟩

theorem blockStep_only (n : Nat) (r : Bool × State) : ∃ u f, (blockStep n r).2 =
    { r.2 with store := u, core := { r.2.core with free := f } } := by
  unfold blockStep
  dsimp only
  split
  · exact ⟨_, r.2.core.free, rfl⟩
  · split
    · exact checkpoint_rest _ _ _ _
    · exact ⟨_, r.2.core.free, rfl⟩

theorem recorderStep_only (s : State) : ∃ u v f, (recorderStep s).2 =
    { s with store := u, core := { s.core with recd := v, free := f } } := by
  unfold recorderStep
  dsimp only
  obtain ⟨u1, v1, h1⟩ := pointerStep_only (true, s) 0
  obtain ⟨u2, v2, h2⟩ := pointerStep_only (pointerStep (true, s) 0) 1
  obtain ⟨u3, v3, h3⟩ := pointerStep_only (pointerStep (pointerStep (true, s) 0) 1) 2
  generalize hr : [0, 1, 2].foldl pointerStep (true, s) = r
  have e : r.2 = { s with store := u3, core := { s.core with recd := v3 } } := by
    rw [← hr]
    show (pointerStep (pointerStep (pointerStep (true, s) 0) 1) 2).2 = _
    rw [h3, h2, h1]
  obtain ⟨u4, f4, h4⟩ := blockStep_only 0 r
  obtain ⟨u5, f5, h5⟩ := blockStep_only 1 (blockStep 0 r)
  rw [h5, h4, e]
  exact ⟨_, _, _, rfl⟩

end Sys2Proof.Machine
end

