-- ==== Sys2Proof/Laws/Requests.lean ====
section
/-! SUPPORT. The parts of an operation, one by one, and what the host flags and their release write (R116 to R118). -/

namespace Sys2Proof.Machine

theorem any_tput {α : Type} (t : Table α) (p q : Nat) (v : α) :
    ((tput t p v).any fun e => e.1 == q) = (p == q || t.any fun e => e.1 == q) := by
  induction t with
  | nil => rfl
  | cons e r ih =>
    obtain ⟨i, w⟩ := e
    unfold tput
    split
    · rfl
    · split
      · rename_i h; subst h
        show (p == q || r.any fun e => e.1 == q) = (p == q || (p == q || r.any fun e => e.1 == q))
        cases p == q <;> rfl
      · show (i == q || (tput r p v).any fun e => e.1 == q) = (p == q || (i == q || r.any fun e => e.1 == q))
        rw [ih]
        cases p == q <;> cases i == q <;> rfl

/-- The end of one part: the slot keeps what it had, and the parts of other portals are as they were unless the operation ended. -/
theorem endPart_slot (k p st d : Nat) (c : Core) (x : SlotSt) (hk : k < 512) (h : slotAt c k = some x) :
    ∃ y, slotAt (endPart k p st d c) k = some y ∧
      y = { x with ended := y.ended, done := y.done } ∧
      (partOpen x p = true → tget 0 y.ended p = st * 256 + d ∧ partOpen y p = false) ∧
      (∀ q, q ≠ p → tget 0 y.ended q = tget 0 x.ended q) ∧
      (∀ q, q < 12 → q ≠ p → partOpen x q = true → partOpen y q = true) ∧
      (∀ q, partOpen x q = false → partOpen y q = false ∧ (tget 0 y.ended q = tget 0 x.ended q)) := by
  by_cases ho : partOpen x p = true
  · have hs : x.started = true ∧ x.done = none := by
      unfold partOpen at ho
      simp only [Bool.and_eq_true] at ho
      exact ⟨ho.1.1.1.1, by simpa using ho.1.1.1.2⟩
    let z : SlotSt := { x with ended := tput x.ended p (st * 256 + d) }
    have hz : slotAt (setSlot k (some z) c) k = some z := (slotAt_setSlot k k _ c).trans (if_pos rfl)
    have hpz : partOpen z p = false := by
      unfold partOpen
      have : z.ended.any (fun e => e.1 == p) = true := by rw [any_tput]; simp
      rw [this]; simp
    have hqz : ∀ q, q ≠ p → partOpen z q = partOpen x q := by
      intro q hq
      unfold partOpen
      have : z.ended.any (fun e => e.1 == q) = x.ended.any (fun e => e.1 == q) := by
        rw [any_tput, beq_false_of_ne (fun e : p = q => hq e.symm)]; rfl
      rw [this]
    have hgz : ∀ q, q ≠ p → tget 0 z.ended q = tget 0 x.ended q := by
      intro q hq; show tget 0 (tput _ _ _) _ = _; rw [tget_put, if_neg (fun e => hq e.symm)]
    have hgp : tget 0 z.ended p = st * 256 + d := by
      show tget 0 (tput _ _ _) _ = _; rw [tget_put, if_pos rfl]
    have e : endPart k p st d c = closeParts k (setSlot k (some z) c) := by
      unfold endPart; rw [h]; dsimp only; rw [if_pos ho]
    rw [e]
    unfold closeParts
    rw [hz]
    dsimp only
    by_cases hd : (z.done.isNone && z.started && partsDone z) = true
    · rw [if_pos hd, finish_slot k _ _ _ _ _ z hz hs.2 hk]
      have hdone : partsDone z = true := by simp only [Bool.and_eq_true] at hd; exact hd.2
      have nopen : ∀ q, q < 12 → partOpen z q = true → False := by
        intro q hq hp
        unfold partsDone at hdone
        have := (List.all_eq_true.mp hdone) q (List.mem_range.mpr hq)
        unfold partOpen at hp
        simp only [Bool.and_eq_true, Bool.not_eq_true', Bool.or_eq_true] at hp this
        rcases this with (h1 | h1) | h1
        · rw [h1] at hp; simp at hp
        · rw [h1] at hp; simp at hp
        · rw [h1] at hp; simp at hp
      have closed : ∀ (e : DoneSt) q, partOpen { z with done := some e } q = false := by
        intro e q; unfold partOpen; simp
      refine ⟨_, rfl, rfl, fun _ => ⟨hgp, closed _ _⟩, hgz, ?_, ?_⟩
      · intro q hq hn hp
        exact (nopen q hq ((hqz q hn).trans hp)).elim
      · intro q hq
        refine ⟨closed _ _, ?_⟩
        by_cases hn : q = p
        · subst hn; rw [ho] at hq; cases hq
        · exact hgz q hn
    · rw [if_neg hd, hz]
      refine ⟨z, rfl, rfl, fun _ => ⟨hgp, hpz⟩, hgz, fun q _ hn hp => (hqz q hn).trans hp, ?_⟩
      intro q hq
      by_cases hn : q = p
      · subst hn; rw [ho] at hq; cases hq
      · exact ⟨(hqz q hn).trans hq, hgz q hn⟩
  · have e : endPart k p st d c = c := by
      unfold endPart; rw [h]; dsimp only; rw [if_neg ho]
    rw [e]
    exact ⟨x, h, rfl, fun h => absurd h ho, fun _ _ => rfl, fun _ _ _ h => h, fun _ h => ⟨h, rfl⟩⟩

/-- The end of several parts that are open. -/
theorem endParts_slot (k st d : Nat) (l : List Nat) (c : Core) (x : SlotSt) (hk : k < 512) (h : slotAt c k = some x)
    (hn : l.Nodup) (hl : ∀ p, p ∈ l → p < 12 ∧ partOpen x p = true) :
    ∃ y, slotAt (l.foldl (fun c p => endPart k p st d c) c) k = some y ∧ y = { x with ended := y.ended, done := y.done } ∧
      (∀ p, p ∈ l → tget 0 y.ended p = st * 256 + d ∧ partOpen y p = false) ∧
      (∀ p, partOpen x p = false → partOpen y p = false ∧ tget 0 y.ended p = tget 0 x.ended p) := by
  induction l generalizing c x with
  | nil => exact ⟨x, h, rfl, (fun p hp => absurd hp (List.not_mem_nil)), fun _ h => ⟨h, rfl⟩⟩
  | cons a r ih =>
    obtain ⟨h1, h2⟩ := List.nodup_cons.mp hn
    obtain ⟨y, e, f, g1, g2, g3, g4⟩ := endPart_slot k a st d c x hk h
    obtain ⟨ha, hb⟩ := hl a (List.mem_cons_self ..)
    obtain ⟨z, e2, f2, k1, k2⟩ := ih _ y e h2 (fun p hp => by
      obtain ⟨q1, q2⟩ := hl p (List.mem_cons_of_mem _ hp)
      have : p ≠ a := fun e => h1 (e ▸ hp)
      exact ⟨q1, g3 p q1 this q2⟩)
    refine ⟨z, by rw [List.foldl_cons]; exact e2, ?_, ?_, ?_⟩
    · rw [f2, f]
    · intro p hp
      rcases List.mem_cons.mp hp with hp | hp
      · subst hp
        obtain ⟨j1, j2⟩ := g1 hb
        obtain ⟨m1, m2⟩ := k2 p j2
        exact ⟨m2.trans j1, m1⟩
      · exact k1 p hp
    · intro p hp
      obtain ⟨j1, j2⟩ := g4 p hp
      obtain ⟨m1, m2⟩ := k2 p j1
      exact ⟨m1, m2.trans j2⟩

/-- A fold of operations each of which writes only the channels. -/
theorem foldCh_only {α : Type} (f : Core → α → Core) (hf : ∀ c a, ∃ t, f c a = { c with seq.channels := t }) (l : List α) (c : Core) :
    ∃ t, l.foldl f c = { c with seq.channels := t } := by
  induction l generalizing c with
  | nil => exact ⟨c.seq.channels, rfl⟩
  | cons a r ih =>
    obtain ⟨h, e⟩ := hf c a
    obtain ⟨g, e2⟩ := ih (f c a)
    exact ⟨g, by rw [List.foldl_cons, e2, e]⟩

theorem setHf_only (n b : Nat) (v : Bool) (c : Core) : ∃ t, setHf n b v c = { c with seq.channels := t } := ⟨_, rfl⟩

theorem dropFlags_only (p : Nat) (c : Core) : ∃ t, dropFlags p c = { c with seq.channels := t } := by
  unfold dropFlags
  apply foldCh_only
  intro c b
  split
  · exact ⟨_, rfl⟩
  · exact setHf_only _ _ _ _

end Sys2Proof.Machine
end

