-- ==== Sys2Proof/Laws/PortalOps.lean ====
section
/-! SUPPORT. What a PORTAL_REQUEST or a PORTAL_STOP does at one portal, and over the portals of a mask (R116, R117, R124). -/

namespace Sys2Proof.Machine

theorem closeParts_other (k j : Nat) (c : Core) (h : j ≠ k) : slotAt (closeParts k c) j = slotAt c j := by
  unfold closeParts
  split
  · split
    · exact finish_other _ _ _ _ _ _ _ h
    · rfl
  · rfl

theorem endPart_other (k p st d j : Nat) (c : Core) (h : j ≠ k) : slotAt (endPart k p st d c) j = slotAt c j := by
  unfold endPart
  split
  · split
    · rw [closeParts_other _ _ _ h, slotAt_setSlot, if_neg (Ne.symm h)]
    · rfl
  · rfl

/-- Ends write the slots and the count of ends. -/
theorem closeParts_host (k : Nat) (c : Core) : ∃ l n, closeParts k c = { c with host := { c.host with slots := l, finished := n } } := by
  unfold closeParts
  split
  · split
    · exact finish_host _ _ _ _ _ _
    · exact ⟨_, _, rfl⟩
  · exact ⟨_, _, rfl⟩

theorem endPart_host (k p st d : Nat) (c : Core) : ∃ l n, endPart k p st d c = { c with host := { c.host with slots := l, finished := n } } := by
  unfold endPart
  split
  · split
    · obtain ⟨l, n, e⟩ := closeParts_host k (setSlot k (some { ‹SlotSt› with ended := tput ‹SlotSt›.ended p (st * 256 + d) }) c)
      exact ⟨l, n, by rw [e]; rfl⟩
    · exact ⟨_, _, rfl⟩
  · exact ⟨_, _, rfl⟩

/-- What ending parts leaves of a slot: only its parts and its end. -/
structure PartsEnded (y z : SlotSt) : Prop where
  same : z = { y with ended := z.ended, done := z.done }
  keep : ∀ q, partOpen y q = false → partOpen z q = false ∧ tget 0 z.ended q = tget 0 y.ended q

theorem PartsEnded.refl (y : SlotSt) : PartsEnded y y := ⟨rfl, fun _ h => ⟨h, rfl⟩⟩

theorem PartsEnded.trans {x y z : SlotSt} (a : PartsEnded x y) (b : PartsEnded y z) : PartsEnded x z := by
  refine ⟨?_, fun q h => ?_⟩
  · rw [b.same, a.same]
  · obtain ⟨h1, h2⟩ := a.keep q h
    obtain ⟨h3, h4⟩ := b.keep q h1
    exact ⟨h3, h4.trans h2⟩

/-- One step of a fold over slots: the part of each other PORTAL_REQUEST ends. -/
theorem endOthers_fold (k p st d : Nat) (l : List (Nat × SlotSt)) (c : Core) :
    let r := l.foldl (fun c e => if e.1 ≠ k && slotOp e.2 = 0x10 then endPart e.1 p st d c else c) c
    (∃ h n, r = { c with host := { c.host with slots := h, finished := n } }) ∧ slotAt r k = slotAt c k ∧
      ∀ j y, j < 512 → slotAt c j = some y → ∃ z, slotAt r j = some z ∧ PartsEnded y z ∧
        (∀ q, q < 12 → q ≠ p → partOpen y q = true → partOpen z q = true) ∧
        ((∃ e, e ∈ l ∧ e.1 = j ∧ slotOp e.2 = 0x10) → j ≠ k → partOpen y p = true → tget 0 z.ended p = st * 256 + d ∧ partOpen z p = false) := by
  induction l generalizing c with
  | nil => exact ⟨⟨_, _, rfl⟩, rfl, fun j y _ h => ⟨y, h, .refl y, fun _ _ _ h => h, (fun ⟨e, he, _⟩ => by cases he)⟩⟩
  | cons a r ih =>
    dsimp only
    rw [List.foldl_cons]
    by_cases ha : (a.1 ≠ k && slotOp a.2 = 0x10) = true
    · simp only [Bool.and_eq_true, decide_eq_true_eq] at ha
      rw [if_pos (by simpa using ha)]
      obtain ⟨⟨g, n, e⟩, h1, h2⟩ := ih (endPart a.1 p st d c)
      obtain ⟨g0, n0, e0⟩ := endPart_host a.1 p st d c
      refine ⟨⟨g, n, by rw [e, e0]⟩, h1.trans (endPart_other _ _ _ _ _ _ (Ne.symm ha.1)), ?_⟩
      intro j y hj hy
      by_cases hja : j = a.1
      · subst hja
        obtain ⟨y1, q1, q2, q3, q4, q5, q6⟩ := endPart_slot a.1 p st d c y hj hy
        obtain ⟨z, m1, m2, m3, m4⟩ := h2 a.1 y1 hj q1
        have pe : PartsEnded y y1 := ⟨q2, q6⟩
        refine ⟨z, m1, pe.trans m2, fun q hq hn ho => m3 q hq hn (q5 q hq hn ho), fun _ hk ho => ?_⟩
        obtain ⟨n1, n2⟩ := q3 ho
        obtain ⟨n3, n4⟩ := m2.keep p n2
        exact ⟨n4.trans n1, n3⟩
      · obtain ⟨z, m1, m2, m3, m4⟩ := h2 j y hj ((endPart_other _ _ _ _ _ _ hja).trans hy)
        refine ⟨z, m1, m2, m3, fun ⟨e, he, h5, h6⟩ => m4 ⟨e, ?_, h5, h6⟩⟩
        rcases List.mem_cons.mp he with x | x
        · subst x; exact absurd h5.symm hja
        · exact x
    · rw [if_neg ha]
      obtain ⟨h0, h1, h2⟩ := ih c
      refine ⟨h0, h1, ?_⟩
      intro j y hj hy
      obtain ⟨z, m1, m2, m3, m4⟩ := h2 j y hj hy
      refine ⟨z, m1, m2, m3, fun ⟨e, he, h5, h6⟩ hk => m4 ⟨e, ?_, h5, h6⟩ hk⟩
      rcases List.mem_cons.mp he with x | x
      · subst x
        refine absurd ?_ ha
        simp only [Bool.and_eq_true, decide_eq_true_eq]
        exact ⟨by rw [h5]; exact hk, h6⟩
      · exact x

theorem mem_live (c : Core) (k : Nat) (x : SlotSt) (h : slotAt c k = some x) (hd : x.done = none) : (k, x) ∈ liveSlots c := by
  unfold liveSlots
  refine List.mem_filterMap.mpr ⟨(k, some x), tget_mem none _ k _ h (by simp), ?_⟩
  dsimp only
  rw [hd]
  rfl

theorem partOpen_live {x : SlotSt} {p : Nat} (h : partOpen x p = true) : x.started = true ∧ x.done = none := by
  unfold partOpen at h
  simp only [Bool.and_eq_true, Option.isNone_iff_eq_none] at h
  exact ⟨h.1.1.1.1, h.1.1.1.2⟩

/-- The parts of the other PORTAL_REQUESTs at a portal end; the slot of the operation itself stays (R124). -/
theorem endOthers_spec (k p st d : Nat) (c : Core) :
    (∃ h n, endOthers k p st d c = { c with host := { c.host with slots := h, finished := n } }) ∧ slotAt (endOthers k p st d c) k = slotAt c k ∧
      ∀ j y, j < 512 → slotAt c j = some y → ∃ z, slotAt (endOthers k p st d c) j = some z ∧ PartsEnded y z ∧
        (∀ q, q < 12 → q ≠ p → partOpen y q = true → partOpen z q = true) ∧
        (slotOp y = 0x10 → j ≠ k → partOpen y p = true → tget 0 z.ended p = st * 256 + d ∧ partOpen z p = false) := by
  obtain ⟨h0, h1, h2⟩ := endOthers_fold k p st d (liveSlots c) c
  refine ⟨h0, h1, fun j y hj hy => ?_⟩
  obtain ⟨z, m1, m2, m3, m4⟩ := h2 j y hj hy
  exact ⟨z, m1, m2, m3, fun ho hk hp => m4 ⟨(j, y), mem_live c j y hy (partOpen_live hp).2, rfl, ho⟩ hk hp⟩

/-! ### Request flags -/

theorem chAt_setHf (n m b : Nat) (v : Bool) (c : Core) :
    chAt (setHf n b v c) m = if n = m then { chAt c n with hf := setBit (chAt c n).hf b v } else chAt c m := by
  simp [chAt, setHf]

theorem chAt_setChan (n m : Nat) (h : ChannelSt) (c : Core) : chAt (setChan n h c) m = if n = m then h else chAt c m := by
  simp [chAt, setChan]

/-- Dropping the request flags that nothing holds (R116). -/
theorem dropFlags_fold (p : Nat) (l : List Nat) (c : Core) (hl : ∀ b, b ∈ l → b < 16) :
    let r := l.foldl (fun c b => if flagHeld c p b then c else setHf p b false c) c
    (∃ t, r = { c with seq.channels := t }) ∧ (∀ q, q ≠ p → chAt r q = chAt c q) ∧
      chAt r p = { chAt c p with hf := (chAt r p).hf } ∧
      (∀ b, b ∉ l → (chAt r p).hf.getLsbD b = (chAt c p).hf.getLsbD b) ∧
      (∀ b, b ∈ l → (flagHeld c p b = true → (chAt r p).hf.getLsbD b = (chAt c p).hf.getLsbD b) ∧
        (flagHeld c p b = false → (chAt r p).hf.getLsbD b = false)) := by
  induction l generalizing c with
  | nil => exact ⟨⟨_, rfl⟩, fun _ _ => rfl, rfl, fun _ _ => rfl, (fun b hb => by cases hb)⟩
  | cons a r ih =>
    dsimp only
    rw [List.foldl_cons]
    have ha := hl a (List.mem_cons_self ..)
    by_cases hf : flagHeld c p a = true
    · rw [if_pos hf]
      obtain ⟨h1, h2, h3, h4, h5⟩ := ih c (fun b hb => hl b (List.mem_cons_of_mem _ hb))
      refine ⟨h1, h2, h3, fun b hb => h4 b (fun k => hb (List.mem_cons_of_mem _ k)), ?_⟩
      intro b hb
      by_cases hbr : b ∈ r
      · exact h5 b hbr
      · have e : b = a := (List.mem_cons.mp hb).resolve_right hbr
        subst e
        exact ⟨fun _ => h4 b hbr, fun k => by rw [hf] at k; cases k⟩
    · rw [if_neg hf]
      obtain ⟨⟨t, e⟩, h2, h3, h4, h5⟩ := ih (setHf p a false c) (fun b hb => hl b (List.mem_cons_of_mem _ hb))
      have fh : ∀ b, flagHeld (setHf p a false c) p b = flagHeld c p b := fun _ => rfl
      have cp : chAt (setHf p a false c) p = { chAt c p with hf := setBit (chAt c p).hf a false } := by
        rw [chAt_setHf, if_pos rfl]
      refine ⟨⟨t, by rw [e]; rfl⟩, fun q hq => (h2 q hq).trans (by rw [chAt_setHf, if_neg (Ne.symm hq)]), ?_, ?_, ?_⟩
      · rw [h3, cp]
      · intro b hb
        rw [h4 b (fun k => hb (List.mem_cons_of_mem _ k)), cp]
        exact setBit_other _ _ _ _ (fun k => hb (by rw [k]; exact List.mem_cons_self ..))
      · intro b hb
        by_cases hba : b = a
        · subst hba
          refine ⟨fun k => absurd k hf, fun k => ?_⟩
          by_cases hbr : b ∈ r
          · exact (h5 b hbr).2 (by rw [fh]; exact k)
          · rw [h4 b hbr, cp]; exact setBit_same _ _ _ ha
        · have hbr : b ∈ r := (List.mem_cons.mp hb).resolve_left hba
          obtain ⟨m1, m2⟩ := h5 b hbr
          refine ⟨fun k => (m1 (by rw [fh]; exact k)).trans ?_, fun k => m2 (by rw [fh]; exact k)⟩
          rw [cp]; exact setBit_other _ _ _ _ (Ne.symm hba)

theorem dropFlags_spec (p : Nat) (c : Core) :
    (∃ t, dropFlags p c = { c with seq.channels := t }) ∧ (∀ q, q ≠ p → chAt (dropFlags p c) q = chAt c q) ∧
      chAt (dropFlags p c) p = { chAt c p with hf := (chAt (dropFlags p c) p).hf } ∧
      (∀ b, 4 ≤ b → (chAt (dropFlags p c) p).hf.getLsbD b = (chAt c p).hf.getLsbD b) ∧
      (∀ b, b < 4 → (flagHeld c p b = true → (chAt (dropFlags p c) p).hf.getLsbD b = (chAt c p).hf.getLsbD b) ∧
        (flagHeld c p b = false → (chAt (dropFlags p c) p).hf.getLsbD b = false)) := by
  obtain ⟨h1, h2, h3, h4, h5⟩ := dropFlags_fold p (List.range 4) c (fun b hb => by have := List.mem_range.mp hb; omega)
  exact ⟨h1, h2, h3, fun b hb => h4 b (fun k => by have := List.mem_range.mp k; omega), fun b hb => h5 b (List.mem_range.mpr hb)⟩

/-! ### One portal, and all portals of a mask -/

/-- What delivering the operation `y` of slot `k` at portal `p` does: channel `p` by `A`; the operation's own part ends with `u`
where `E` says so, and stays open otherwise; parts of other PORTAL_REQUESTs at `p` end with `v`; nothing else. -/
structure AtPortal (k p u v : Nat) (E : ChannelSt → Prop) (A : ChannelSt → ChannelSt → Prop) (y : SlotSt) (c e : Core) : Prop where
  only : ∃ h n t, e = { c with host := { c.host with slots := h, finished := n }, seq.channels := t }
  chans : ∀ q, q ≠ p → chAt e q = chAt c q
  chan : A (chAt c p) (chAt e p)
  own : ∃ z, slotAt e k = some z ∧ PartsEnded y z ∧ (∀ q, q < 12 → q ≠ p → partOpen y q = true → partOpen z q = true) ∧
    (E (chAt c p) → tget 0 z.ended p = u ∧ partOpen z p = false) ∧ (¬ E (chAt c p) → partOpen z p = true)
  slots : ∀ j w, j < 512 → j ≠ k → slotAt c j = some w → ∃ z, slotAt e j = some z ∧ PartsEnded w z ∧
    (∀ q, q < 12 → q ≠ p → partOpen w q = true → partOpen z q = true) ∧
    (slotOp w = 0x10 → partOpen w p = true → tget 0 z.ended p = v ∧ partOpen z p = false)

theorem portals_fold (k u v : Nat) (E : ChannelSt → Prop) (A : ChannelSt → ChannelSt → Prop) (F : Core → Nat → Core) (y0 : SlotSt) (n0 : Nat)
    (hF : ∀ p c y, p < 12 → c.seq.now = n0 → slotAt c k = some y → PartsEnded y0 y → partOpen y p = true → AtPortal k p u v E A y c (F c p))
    (l : List Nat) (c : Core) (y : SlotSt) (hl : l.Nodup) (hn : c.seq.now = n0) (hy : slotAt c k = some y) (h0 : PartsEnded y0 y)
    (hp : ∀ p, p ∈ l → p < 12 ∧ partOpen y p = true) :
    let r := l.foldl F c
    (∃ h n t, r = { c with host := { c.host with slots := h, finished := n }, seq.channels := t }) ∧
      (∀ p, p ∉ l → chAt r p = chAt c p) ∧ (∀ p, p ∈ l → A (chAt c p) (chAt r p)) ∧
      (∃ z, slotAt r k = some z ∧ PartsEnded y z ∧
        (∀ q, q < 12 → q ∉ l → partOpen y q = true → partOpen z q = true) ∧
        ∀ p, p ∈ l → (E (chAt c p) → tget 0 z.ended p = u ∧ partOpen z p = false) ∧ (¬ E (chAt c p) → partOpen z p = true)) ∧
      (∀ j w, j < 512 → j ≠ k → slotAt c j = some w → ∃ z, slotAt r j = some z ∧ PartsEnded w z ∧
        ∀ p, p ∈ l → slotOp w = 0x10 → partOpen w p = true → tget 0 z.ended p = v ∧ partOpen z p = false) := by
  induction l generalizing c y with
  | nil =>
    exact ⟨⟨_, _, _, rfl⟩, fun _ _ => rfl, (fun p h => by cases h), ⟨y, hy, .refl y, fun _ _ _ h => h, (fun p h => by cases h)⟩,
      fun j w _ _ hw => ⟨w, hw, .refl w, (fun p h => by cases h)⟩⟩
  | cons a r ih =>
    obtain ⟨ha, hr⟩ := List.nodup_cons.mp hl
    obtain ⟨ha12, hao⟩ := hp a (List.mem_cons_self ..)
    have st := hF a c y ha12 hn hy h0 hao
    obtain ⟨h1, n1, t1, e1⟩ := st.only
    obtain ⟨z1, q1, q2, q3, q4, q5⟩ := st.own
    have mem : ∀ p, p ∈ r → p ≠ a := fun p hpr e => ha (e ▸ hpr)
    obtain ⟨⟨h2, n2, t2, e2⟩, g1, g2, ⟨z, w1, w2, w3, w4⟩, g4⟩ := ih (F c a) z1 hr (by rw [e1]; exact hn) q1 (h0.trans q2) (fun p hpr =>
      ⟨(hp p (List.mem_cons_of_mem _ hpr)).1, q3 p (hp p (List.mem_cons_of_mem _ hpr)).1 (mem p hpr) (hp p (List.mem_cons_of_mem _ hpr)).2⟩)
    dsimp only
    rw [List.foldl_cons]
    refine ⟨⟨h2, n2, t2, by rw [e2, e1]⟩, ?_, ?_, ⟨z, w1, q2.trans w2, ?_, ?_⟩, ?_⟩
    · intro p hpn
      rw [g1 p (fun k => hpn (List.mem_cons_of_mem _ k))]
      exact st.chans p (fun k => hpn (k ▸ List.mem_cons_self ..))
    · intro p hpm
      rcases List.mem_cons.mp hpm with e | e
      · subst e; rw [g1 p ha]; exact st.chan
      · have := g2 p e
        rw [st.chans p (mem p e)] at this
        exact this
    · intro q hq hqn ho
      exact w3 q hq (fun k => hqn (List.mem_cons_of_mem _ k)) (q3 q hq (fun k => hqn (k ▸ List.mem_cons_self ..)) ho)
    · intro p hpm
      rcases List.mem_cons.mp hpm with e | e
      · subst e
        refine ⟨fun he => ?_, fun he => w3 p ha12 ha (q5 he)⟩
        obtain ⟨m1, m2⟩ := q4 he
        obtain ⟨m3, m4⟩ := w2.keep p m2
        exact ⟨m4.trans m1, m3⟩
      · have := w4 p e
        rw [st.chans p (mem p e)] at this
        exact this
    · intro j w hj hjk hw
      obtain ⟨x1, m1, m2, m4, m3⟩ := st.slots j w hj hjk hw
      obtain ⟨x2, n1, n2, n3⟩ := g4 j x1 hj hjk m1
      refine ⟨x2, n1, m2.trans n2, fun p hpm ho hop => ?_⟩
      have done : ∀ q, partOpen x1 q = false → tget 0 x1.ended q = v → tget 0 x2.ended q = v ∧ partOpen x2 q = false := by
        intro q k1 k2
        obtain ⟨k3, k4⟩ := n2.keep q k1
        exact ⟨k4.trans k2, k3⟩
      rcases List.mem_cons.mp hpm with e | e
      · subst e
        obtain ⟨k1, k2⟩ := m3 ho hop
        exact done p k2 k1
      · exact n3 p e (by rw [m2.same]; exact ho) (m4 p (hp p hpm).1 (mem p e) hop)

/-- The channel after PORTAL_REQUEST `req` (R116, R124, R125). -/
def requestChan (now req : Nat) (a b : ChannelSt) : Prop :=
  (a.stopAt = some now → b = { a with hf := b.hf } ∧ ∀ i, 4 ≤ i → b.hf.getLsbD i = a.hf.getLsbD i) ∧
  (a.stopAt ≠ some now → b = { a with hf := b.hf, stopReq := false, stopAt := none, quickAt := if a.stopReq then some now else none } ∧
    b.hf.getLsbD (req - 1) = true ∧
    b.hf.getLsbD 15 = false ∧ ∀ i, 4 ≤ i → i ≠ 15 → b.hf.getLsbD i = a.hf.getLsbD i)

/-- The channel after PORTAL_STOP (R117, R125). -/
def stopChan (now : Nat) (quick : Bool) (a b : ChannelSt) : Prop :=
  b = { a with hf := b.hf, stopReq := (a.stopReq || a.quickAt == some now) || quick, stopAt := some now } ∧ b.hf.getLsbD 15 = true ∧
    ∀ i, 4 ≤ i → i ≠ 15 → b.hf.getLsbD i = a.hf.getLsbD i

theorem held_own (c : Core) (k p req : Nat) (y : SlotSt) (h : slotAt c k = some y) (ho : slotOp y = 0x10) (hp : partOpen y p = true)
    (hv : y.visible ≤ c.seq.now + 1) (hb : byteAt y.desc 10 = req) (h1 : 1 ≤ req) : flagHeld c p (req - 1) = true := by
  unfold flagHeld
  rw [List.any_eq_true]
  refine ⟨(k, y), mem_live c k y h (partOpen_live hp).2, ?_⟩
  simp only [Bool.and_eq_true, beq_iff_eq, decide_eq_true_eq]
  exact ⟨⟨⟨ho, hp⟩, hv⟩, by omega⟩

theorem atPortal_request (k req p : Nat) (c : Core) (y : SlotSt) (hk : k < 512) (hs : slotAt c k = some y)
    (ho : slotOp y = 0x10) (hopen : partOpen y p = true) (hv : y.visible ≤ c.seq.now + 1) (hb : byteAt y.desc 10 = req)
    (h1 : 1 ≤ req) (h4 : req ≤ 4) :
    AtPortal k p (0x41 * 256 + 1) (0x40 * 256 + 0) (fun a => a.stopAt = some c.seq.now) (requestChan c.seq.now req) y c (requestPortal k req p c) := by
  obtain ⟨⟨g, ng, e⟩, q1, q2⟩ := endOthers_spec k p 0x40 0 c
  have hch : ∀ n, chAt (endOthers k p 0x40 0 c) n = chAt c n := by intro n; rw [e]; rfl
  have hnow : (endOthers k p 0x40 0 c).seq.now = c.seq.now := by rw [e]
  have hslots : ∀ d : Core, (∀ j, j ≠ k → slotAt d j = slotAt (endOthers k p 0x40 0 c) j) → ∀ j w, j < 512 → j ≠ k → slotAt c j = some w →
      ∃ z, slotAt d j = some z ∧ PartsEnded w z ∧ (∀ q, q < 12 → q ≠ p → partOpen w q = true → partOpen z q = true) ∧
        (slotOp w = 0x10 → partOpen w p = true → tget 0 z.ended p = 0x40 * 256 + 0 ∧ partOpen z p = false) := by
    intro d hd j w hj hjk hw
    obtain ⟨z, m1, m2, m3, m4⟩ := q2 j w hj hw
    exact ⟨z, (hd j hjk).trans m1, m2, m3, fun a b => m4 a hjk b⟩
  unfold requestPortal
  dsimp only
  by_cases hE : (chAt c p).stopAt = some c.seq.now
  · rw [if_pos (by rw [hnow]; exact (congrArg ChannelSt.stopAt (hch p)).trans hE)]
    obtain ⟨g2, n2, e2⟩ := endPart_host k p 0x41 0x01 (endOthers k p 0x40 0 c)
    obtain ⟨⟨t, d1⟩, d2, d3, d4, _⟩ := dropFlags_spec p (endPart k p 0x41 0x01 (endOthers k p 0x40 0 c))
    have hch2 : ∀ n, chAt (endPart k p 0x41 0x01 (endOthers k p 0x40 0 c)) n = chAt c n := by intro n; rw [e2]; exact hch n
    have hsl : ∀ j, slotAt (dropFlags p (endPart k p 0x41 0x01 (endOthers k p 0x40 0 c))) j = slotAt (endPart k p 0x41 0x01 (endOthers k p 0x40 0 c)) j := by
      intro j; rw [d1]; rfl
    obtain ⟨z, m1, m2, m3, m4, m5, m6⟩ := endPart_slot k p 0x41 0x01 (endOthers k p 0x40 0 c) y hk (q1.trans hs)
    refine ⟨⟨g2, n2, t, by rw [d1, e2, e]⟩, fun q hq => (d2 q hq).trans (hch2 q), ⟨fun _ => ⟨?_, fun i hi => ?_⟩, fun h => absurd hE h⟩, ?_, ?_⟩
    · rw [d3, hch2]
    · rw [d4 i hi, hch2]
    · exact ⟨z, (hsl k).trans m1, ⟨m2, m6⟩, m5, fun _ => m3 hopen, fun h => absurd hE h⟩
    · exact hslots _ (fun j hj => (hsl j).trans (endPart_other _ _ _ _ _ _ hj))
  · rw [if_neg (by rw [hnow]; exact fun h => hE ((congrArg ChannelSt.stopAt (hch p)).symm.trans h))]
    generalize hd : setHf p (req - 1) true (setChan p { chAt (endOthers k p 0x40 0 c) p with
      hf := setBit (chAt (endOthers k p 0x40 0 c) p).hf 15 false, stopReq := false, stopAt := none,
      quickAt := if (chAt (endOthers k p 0x40 0 c) p).stopReq then some (endOthers k p 0x40 0 c).seq.now else none } (endOthers k p 0x40 0 c)) = d
    have hdd : setHf p (req - 1) true (setChan p { tget {} (endOthers k p 0x40 0 c).seq.channels p with
      hf := setBit (tget {} (endOthers k p 0x40 0 c).seq.channels p : ChannelSt).hf 15 false, stopReq := false, stopAt := none,
      quickAt := if (tget {} (endOthers k p 0x40 0 c).seq.channels p : ChannelSt).stopReq then some (endOthers k p 0x40 0 c).seq.now else none } (endOthers k p 0x40 0 c)) = d := hd
    rw [hdd]
    have dch : ∃ t, d = { c with host := { c.host with slots := g, finished := ng }, seq.channels := t } := ⟨_, by rw [← hd, e]; rfl⟩
    obtain ⟨td, ed⟩ := dch
    have dslot : ∀ j, slotAt d j = slotAt (endOthers k p 0x40 0 c) j := by intro j; rw [← hd]; rfl
    have dp : chAt d p = { chAt c p with
        hf := setBit (setBit (chAt c p).hf 15 false) (req - 1) true, stopReq := false, stopAt := none,
        quickAt := if (chAt c p).stopReq then some c.seq.now else none } := by
      rw [← hd, chAt_setHf, if_pos rfl, chAt_setChan, if_pos rfl, hch, hnow]
    have dq : ∀ q, q ≠ p → chAt d q = chAt c q := by
      intro q hq; rw [← hd, chAt_setHf, if_neg (Ne.symm hq), chAt_setChan, if_neg (Ne.symm hq), hch]
    obtain ⟨⟨t, d1⟩, d2, d3, d4, d5⟩ := dropFlags_spec p d
    have hsl : ∀ j, slotAt (dropFlags p d) j = slotAt (endOthers k p 0x40 0 c) j := by intro j; rw [d1]; exact dslot j
    have held : flagHeld d p (req - 1) = true :=
      held_own d k p req y ((dslot k).trans (q1.trans hs)) ho hopen (by rw [ed]; exact hv) hb h1
    refine ⟨⟨g, ng, t, by rw [d1, ed]⟩, fun q hq => (d2 q hq).trans (dq q hq), ⟨fun h => absurd h hE, fun _ => ⟨?_, ?_, ?_, ?_⟩⟩, ?_, ?_⟩
    · rw [d3, dp]
    · rw [(d5 (req - 1) (by omega)).1 held, dp]
      exact setBit_same _ _ _ (by omega)
    · rw [d4 15 (by omega), dp, setBit_other _ _ _ _ (by omega)]
      exact setBit_same _ _ _ (by omega)
    · intro i hi h15
      rw [d4 i hi, dp]
      dsimp only
      rw [setBit_other _ _ _ _ (by omega), setBit_other _ _ _ _ (Ne.symm h15)]
    · exact ⟨y, (hsl k).trans (q1.trans hs), .refl y, fun _ _ _ h => h, fun h => absurd h hE, fun _ => hopen⟩
    · exact hslots _ (fun j _ => hsl j)

theorem atPortal_stop (k p : Nat) (quick : Bool) (c : Core) (y : SlotSt) (hs : slotAt c k = some y) (hopen : partOpen y p = true) :
    AtPortal k p 0 (0x41 * 256 + 1) (fun _ => False) (stopChan c.seq.now quick) y c (stopPortal k quick p c) := by
  obtain ⟨⟨g, ng, e⟩, q1, q2⟩ := endOthers_spec k p 0x41 0x01 c
  have hch : ∀ n, chAt (endOthers k p 0x41 0x01 c) n = chAt c n := by intro n; rw [e]; rfl
  have hnow : (endOthers k p 0x41 0x01 c).seq.now = c.seq.now := by rw [e]
  unfold stopPortal
  dsimp only
  generalize hd : setChan p { chAt (endOthers k p 0x41 0x01 c) p with
      hf := setBit (chAt (endOthers k p 0x41 0x01 c) p).hf 15 true
      stopReq := ((chAt (endOthers k p 0x41 0x01 c) p).stopReq || (chAt (endOthers k p 0x41 0x01 c) p).quickAt == some (endOthers k p 0x41 0x01 c).seq.now) || quick
      stopAt := some (endOthers k p 0x41 0x01 c).seq.now } (endOthers k p 0x41 0x01 c) = d
  have hdd : setChan p { tget {} (endOthers k p 0x41 0x01 c).seq.channels p with
      hf := setBit (tget {} (endOthers k p 0x41 0x01 c).seq.channels p : ChannelSt).hf 15 true
      stopReq := ((tget {} (endOthers k p 0x41 0x01 c).seq.channels p : ChannelSt).stopReq ||
        (tget {} (endOthers k p 0x41 0x01 c).seq.channels p : ChannelSt).quickAt == some (endOthers k p 0x41 0x01 c).seq.now) || quick
      stopAt := some (endOthers k p 0x41 0x01 c).seq.now } (endOthers k p 0x41 0x01 c) = d := hd
  rw [hdd]
  have dch : ∃ t, d = { c with host := { c.host with slots := g, finished := ng }, seq.channels := t } := ⟨_, by rw [← hd, e]; rfl⟩
  obtain ⟨td, ed⟩ := dch
  have dslot : ∀ j, slotAt d j = slotAt (endOthers k p 0x41 0x01 c) j := by intro j; rw [← hd]; rfl
  have dp : chAt d p = { chAt c p with
      hf := setBit (chAt c p).hf 15 true, stopReq := ((chAt c p).stopReq || (chAt c p).quickAt == some c.seq.now) || quick,
      stopAt := some c.seq.now } := by
    rw [← hd, chAt_setChan, if_pos rfl, hch, hnow]
  have dq : ∀ q, q ≠ p → chAt d q = chAt c q := by
    intro q hq; rw [← hd, chAt_setChan, if_neg (Ne.symm hq), hch]
  obtain ⟨⟨t, d1⟩, d2, d3, d4, _⟩ := dropFlags_spec p d
  have hsl : ∀ j, slotAt (dropFlags p d) j = slotAt (endOthers k p 0x41 0x01 c) j := by intro j; rw [d1]; exact dslot j
  refine ⟨⟨g, ng, t, by rw [d1, ed]⟩, fun q hq => (d2 q hq).trans (dq q hq), ⟨?_, ?_, ?_⟩, ?_, ?_⟩
  · rw [d3, dp]
  · rw [d4 15 (by omega), dp]
    exact setBit_same _ _ _ (by omega)
  · intro i hi h15
    rw [d4 i hi, dp]
    exact setBit_other _ _ _ _ (Ne.symm h15)
  · exact ⟨y, (hsl k).trans (q1.trans hs), .refl y, fun _ _ _ h => h, fun h => h.elim, fun _ => hopen⟩
  · intro j w hj hjk hw
    obtain ⟨z, m1, m2, m3, m4⟩ := q2 j w hj hw
    exact ⟨z, (hsl j).trans m1, m2, m3, fun a b => m4 a hjk b⟩

end Sys2Proof.Machine
end

