-- ==== Sys2Proof/Laws/Recorder.lean ====
section
/-! SUPPORT. The recorder: what closing a block, filling the event log and writing a record leave of the stores. -/

namespace Sys2Proof.Machine

theorem markSlots_only (p st k : Nat) (c : Core) : ∃ x, markSlots p st k c = { c with recd := { c.recd with stats := x } } := ⟨_, rfl⟩

theorem trailerOf_congr (t u : Stores) (b : Nat) (ch : Bytes) (r : Bool) (h : ∀ i, i < 127 → storeSlot u 0 (128 * b + i) = storeSlot t 0 (128 * b + i)) :
    trailerOf u 0 b ch r = trailerOf t 0 b ch r := by
  unfold trailerOf
  have : ((List.range 127).map fun i => storeSlot u 0 (128 * b + i)) = (List.range 127).map fun i => storeSlot t 0 (128 * b + i) :=
    List.map_congr_left fun i hi => h i (List.mem_range.mp hi)
  rw [this]

theorem addCheck_stores (b : Bytes) (t : Stores) : (addCheck b t).events = t.events ∧ (addCheck b t).journal = t.journal ∧ (addCheck b t).wJ = t.wJ := by
  unfold addCheck
  split <;> exact ⟨rfl, rfl, rfl⟩

theorem checkpoint_stores (n b : Nat) (ch : Bytes) (s : State) : (checkpoint n b ch s).store.events = s.store.events ∧
    (checkpoint n b ch s).store.journal = s.store.journal ∧ (checkpoint n b ch s).store.wJ = s.store.wJ ∧
    (checkpoint n b ch s).core.recd = s.core.recd := by
  unfold checkpoint drawNoise
  dsimp only
  split
  · obtain ⟨a, b, c⟩ := addCheck_stores (toLe 4 0x50434B4A ++ toLe 1 1 ++ toLe 1 n ++ toLe 1 (b2n (!!s.onyx.identity.isEmpty)) ++ [0]
      ++ toLe 8 Config.serial.toNat ++ toLe 8 (stampOf s.core) ++ toLe 4 b ++ toLe 4 0 ++ padTo 24 ch ++ keyId s.core.nv.pub ++ ecdsaSign s.onyx.identity (sha256 (toLe 4 0x50434B4A ++ toLe 1 1 ++ toLe 1 n ++ toLe 1 (b2n (!!s.onyx.identity.isEmpty)) ++ [0]
      ++ toLe 8 Config.serial.toNat ++ toLe 8 (stampOf s.core) ++ toLe 4 b ++ toLe 4 0 ++ padTo 24 ch ++ keyId s.core.nv.pub)) (Config.noise s.core.free)) s.store
    exact ⟨a, b, c, rfl⟩
  · obtain ⟨a, b, c⟩ := addCheck_stores (toLe 4 0x50434B4A ++ toLe 1 1 ++ toLe 1 n ++ toLe 1 (b2n (!!s.onyx.identity.isEmpty)) ++ [0]
      ++ toLe 8 Config.serial.toNat ++ toLe 8 (stampOf s.core) ++ toLe 4 b ++ toLe 4 0 ++ padTo 24 ch ++ keyId s.core.nv.pub ++ List.replicate 64 0) s.store
    exact ⟨a, b, c, rfl⟩

theorem closeJournal_eq (s : State) (h : s.store.wJ % 128 = 127) (h2 : s.store.wJ / 128 % 256 ≠ 255) : closeBlock 0 s =
    { s with store := commit { s.store with
      journal := tset emptySlot s.store.journal s.store.wJ (trailerOf s.store 0 (s.store.wJ / 128) s.store.chainJ s.store.rstJ).1
      wJ := s.store.wJ + 1, chainJ := (trailerOf s.store 0 (s.store.wJ / 128) s.store.chainJ s.store.rstJ).2, rstJ := false } } := by
  unfold closeBlock
  dsimp only
  rw [show storeW s.store 0 = s.store.wJ from rfl, if_neg (show ¬ s.store.wJ % 128 ≠ 127 by omega)]
  exact if_neg h2

/-- The state once the event block's trailer stands, with all that comes with it. -/
def eventsClosed (m : Table Bytes) (ch : Bytes) (s : State) : State :=
  { s with store := commit { s.store with events := m, wE := s.store.wE + 1, chainE := ch, rstE := false } }

theorem eventsClosed_store (m : Table Bytes) (ch : Bytes) (s : State) : (eventsClosed m ch s).store.events = m ∧
    (eventsClosed m ch s).store.journal = s.store.journal ∧ (eventsClosed m ch s).store.wJ = s.store.wJ ∧
    (eventsClosed m ch s).core.recd = s.core.recd := ⟨rfl, rfl, rfl, rfl⟩

theorem closeEvents_eq (s : State) (h : s.store.wE % 128 = 127) : ∃ w ch, closeBlock 1 s =
    if s.store.wE / 128 % 256 = 255 then
      checkpoint 1 (s.store.wE / 128) ch (eventsClosed (tset emptySlot s.store.events s.store.wE w) ch s)
    else eventsClosed (tset emptySlot s.store.events s.store.wE w) ch s := by
  refine ⟨(trailerOf s.store 1 (s.store.wE / 128) s.store.chainE s.store.rstE).1, (trailerOf s.store 1 (s.store.wE / 128) s.store.chainE s.store.rstE).2, ?_⟩
  unfold closeBlock eventsClosed
  dsimp only
  rw [show storeW s.store 1 = s.store.wE from rfl, if_neg (show ¬ s.store.wE % 128 ≠ 127 by omega)]
  rw [if_neg (by decide)]

theorem closeEvents_spec (s : State) (h : s.store.wE % 128 = 127) : ∃ b, (closeBlock 1 s).store.events = tset emptySlot s.store.events s.store.wE b ∧
    (closeBlock 1 s).store.journal = s.store.journal ∧ (closeBlock 1 s).store.wJ = s.store.wJ ∧ (closeBlock 1 s).core.recd = s.core.recd := by
  obtain ⟨w, ch, e⟩ := closeEvents_eq s h
  refine ⟨w, ?_⟩
  rw [e]
  have k := eventsClosed_store (tset emptySlot s.store.events s.store.wE w) ch s
  by_cases hb : s.store.wE / 128 % 256 = 255
  · rw [if_pos hb]
    obtain ⟨a, b, c, d⟩ := checkpoint_stores 1 (s.store.wE / 128) ch (eventsClosed (tset emptySlot s.store.events s.store.wE w) ch s)
    exact ⟨a.trans k.1, b.trans k.2.1, c.trans k.2.2.1, d.trans k.2.2.2⟩
  · rw [if_neg hb]
    exact k

theorem dropEvents_spec (c : Core) : (dropEvents c).recd = { c.recd with fifo := c.recd.fifo.filter (·.cycle), stoppedE := true } := by
  unfold dropEvents
  dsimp only
  obtain ⟨h', e'⟩ := foldHost_only (fun c (r : Staged) => match r.slot with
    | some k => finish k 0x60 0 0 0 c
    | none => c) (fun c a => by
      cases a.slot with
      | some k => exact finish_only _ _ _ _ _ _
      | none => exact ⟨_, rfl⟩) (c.recd.fifo.filter fun r => !r.cycle) { c with recd := { c.recd with fifo := c.recd.fifo.filter (·.cycle), stoppedE := true } }
  exact congrArg Core.recd e'

theorem event_staged (c : Core) (code src : Nat) (ps : List Nat) (h5 : c.recd.failed = false) (h6 : c.recd.stoppedE = false)
    (h7 : c.recd.powerFail = false) (h8 : c.recd.fifo.length < 248) (h9 : codeFree code = true) :
    event code src ps c = { c with recd := { c.recd with fifo := c.recd.fifo ++
      [{ cycle := false, sev := sevOf c code, code, bytes := eventBytes (stampOf c) code src (sevOf c code) ps, slot := none }] } } := by
  unfold event eventAt
  rw [if_neg (by rw [h5, h6]; decide), if_pos h9]
  unfold stageEvent stage
  dsimp only
  rw [if_neg (by rw [h7]; simp), if_pos (by split <;> omega)]

theorem annotate_recd (r : Staged) (c : Core) : (annotate r c).recd = c.recd := by
  unfold annotate
  dsimp only
  by_cases h : isTimeSet r = true
  · rw [if_pos h]
    cases r.slot with
    | none => rfl
    | some k =>
      obtain ⟨g, e⟩ := finish_only k 0x00 0 (field r.bytes 0 8 % 2 ^ 32) (field r.bytes 0 8 / 2 ^ 32)
        { c with nv := { c.nv with annot := some (field r.bytes 20 8, field r.bytes 0 8 % 2 ^ 42) } }
      dsimp only at e ⊢
      rw [e]
  · rw [if_neg h]

/-- The log takes its last two records, stops, and drops the events that wait (R431). -/
theorem eventsFull_last (s : State) (h : s.store.wE = eventLast) : ∃ b w st, b = eventBytes st 0x0B2 0x0D 3 [1] ∧
    (eventsFull s).store.events = tset emptySlot (tset emptySlot s.store.events eventLast b) (eventLast + 1) w ∧
    (eventsFull s).store.journal = s.store.journal ∧ (eventsFull s).store.wJ = s.store.wJ ∧
    (eventsFull s).core.recd = { s.core.recd with fifo := s.core.recd.fifo.filter (·.cycle), stoppedE := true } := by
  have e : ∀ b, ∃ w, (closeBlock 1 { s with store := { s.store with events := tset emptySlot s.store.events eventLast b, wE := eventLast + 1 } }).store.events =
        tset emptySlot (tset emptySlot s.store.events eventLast b) (eventLast + 1) w ∧
      (closeBlock 1 { s with store := { s.store with events := tset emptySlot s.store.events eventLast b, wE := eventLast + 1 } }).store.journal = s.store.journal ∧
      (closeBlock 1 { s with store := { s.store with events := tset emptySlot s.store.events eventLast b, wE := eventLast + 1 } }).store.wJ = s.store.wJ ∧
      (closeBlock 1 { s with store := { s.store with events := tset emptySlot s.store.events eventLast b, wE := eventLast + 1 } }).core.recd = s.core.recd :=
    fun b => closeEvents_spec _ (show (eventLast + 1) % 128 = 127 by decide)
  obtain ⟨w, e1, e2, e3, e4⟩ := e (eventBytes (stampOf s.core) 0x0B2 0x0D 3 [1])
  refine ⟨_, w, stampOf s.core, rfl, ?_⟩
  unfold eventsFull
  rw [if_pos h]
  dsimp only
  generalize closeBlock 1 _ = y at e1 e2 e3 e4 ⊢
  refine ⟨e1, e2, e3, ?_⟩
  rw [dropEvents_spec, e4]

end Sys2Proof.Machine
end

