-- ==== Sys2Proof/Laws/Portals.lean ====
section
/-! SUPPORT. Estimators, masters and channels: what an update of one reaches, the gathering of a group, a learned curve. -/

namespace Sys2Proof.Machine

theorem tget_tmod {α : Type} [DecidableEq α] (d : α) (t : Table α) (k j : Nat) (f : α → α) :
    tget d (tmod d t k f) j = if k = j then f (tget d t k) else tget d t j := tget_tset ..

theorem obAt_mod (p q : Nat) (f : ObstSt → ObstSt) (c : Core) :
    obAt (modOb p f c) q = if p = q then f (obAt c p) else obAt c q := by
  unfold obAt modOb tmod; exact tget_tset ..

theorem msAt_mod (p q : Nat) (f : MasterSt → MasterSt) (c : Core) :
    msAt (modMs p f c) q = if p = q then f (msAt c p) else msAt c q := by
  unfold msAt modMs tmod; exact tget_tset ..

theorem chAt_mod (p q : Nat) (f : ChannelSt → ChannelSt) (c : Core) :
    chAt (modCh p f c) q = if p = q then f (chAt c p) else chAt c q := by
  unfold chAt modCh tmod; exact tget_tset ..

theorem foldCurve_only {α : Type} (f : Core → α → Core) (hf : ∀ c a, ∃ x y, f c a = { c with nv.curveR := x, nv.curveB := y })
    (l : List α) (c : Core) : ∃ x y, l.foldl f c = { c with nv.curveR := x, nv.curveB := y } := by
  induction l generalizing c with
  | nil => exact ⟨_, _, rfl⟩
  | cons b r ih =>
    obtain ⟨x, y, e⟩ := hf c b
    obtain ⟨z, w, e2⟩ := ih (f c b)
    exact ⟨z, w, by rw [List.foldl_cons, e2, e]⟩

/-- Only baselines are written by a learned curve (R239). -/
theorem writeCurve_only (p d a : Nat) (c : Core) : ∃ x y, writeCurve p d a c = { c with nv.curveR := x, nv.curveB := y } := by
  unfold writeCurve
  dsimp only
  split
  · exact ⟨_, _, rfl⟩
  · exact foldCurve_only _ (fun c b => ⟨_, _, rfl⟩) _ _

/-- The gathering of the group of entry k and class cls is over: one of its requests is old enough (R258). -/
def groupOver (g k cls : Nat) (c : Core) : Bool :=
  (List.range 12).any fun q => match waitingAt c q with
    | some r' => r'.group == some (g, k) && r'.cls == cls && decide (r'.age.getD c.seq.now + tz16 c 16 ≤ c.seq.now + 1)
    | none => false

theorem groupOver_iff (g k cls : Nat) (c : Core) : groupOver g k cls c = true ↔ ∃ q r', q < 12 ∧ waitingAt c q = some r' ∧
    r'.group = some (g, k) ∧ r'.cls = cls ∧ r'.age.getD c.seq.now + tz16 c 16 ≤ c.seq.now + 1 := by
  unfold groupOver
  rw [List.any_eq_true]
  constructor
  · rintro ⟨q, hq, h⟩
    split at h
    · rename_i r hr
      simp only [Bool.and_eq_true, beq_iff_eq, decide_eq_true_eq] at h
      exact ⟨q, r, List.mem_range.mp hq, hr, h.1.1, h.1.2, h.2⟩
    · cases h
  · rintro ⟨q, r, hq, hr, h1, h2, h3⟩
    refine ⟨q, List.mem_range.mpr hq, ?_⟩
    rw [hr]
    simp only [Bool.and_eq_true, beq_iff_eq, decide_eq_true_eq]
    exact ⟨⟨h1, h2⟩, h3⟩

/-- A gathering's step at one portal (R258). -/
def gatherAt (g : Nat) (c : Core) (p : Nat) : Core := match waitingAt c p with
  | some r => match r.group with
    | some (g', k) =>
      if g' = g && groupOver g k r.cls c then modMs p (fun m => { m with waiting := some { r with gatherDone := true } }) c else c
    | none => c
  | none => c

theorem takeGather_eq (g : Nat) (c : Core) : takeGather g c = (List.range 12).foldl (gatherAt g) c := rfl

theorem gatherAt_only (g p : Nat) (c : Core) : ∃ m, gatherAt g c p = { c with seq.masters := m } ∧ ∀ q, q ≠ p → tget {} m q = msAt c q := by
  have keep : ∃ m, c = { c with seq.masters := m } ∧ ∀ q, q ≠ p → tget {} m q = msAt c q := ⟨_, rfl, fun _ _ => rfl⟩
  unfold gatherAt
  split
  · split
    · split
      · refine ⟨_, rfl, fun q hq => ?_⟩
        have := msAt_mod p q (fun m => { m with waiting := some { ‹MoveReq› with gatherDone := true } }) c
        rw [if_neg (fun e => hq e.symm)] at this
        exact this
      · exact keep
    · exact keep
  · exact keep

theorem gatherAt_other (g p : Nat) (c : Core) (h : ∀ r k, waitingAt c p = some r → r.group ≠ some (g, k)) : gatherAt g c p = c := by
  unfold gatherAt
  split
  · rename_i r hr
    split
    · rename_i g' k hg
      rw [if_neg]
      intro hc
      simp only [Bool.and_eq_true, decide_eq_true_eq] at hc
      exact h r k hr (by rw [hg, hc.1])
    · rfl
  · rfl

theorem gatherAt_member (g p k : Nat) (c : Core) (r : MoveReq) (hw : waitingAt c p = some r) (hg : r.group = some (g, k)) :
    (groupOver g k r.cls c = true → waitingAt (gatherAt g c p) p = some { r with gatherDone := true }) ∧
      (groupOver g k r.cls c = false → gatherAt g c p = c) := by
  have e : gatherAt g c p = if groupOver g k r.cls c then modMs p (fun m => { m with waiting := some { r with gatherDone := true } }) c else c := by
    unfold gatherAt
    rw [hw]
    dsimp only
    rw [hg]
    dsimp only
    cases groupOver g k r.cls c <;> simp
  constructor
  · intro h
    have hr : r.age.isSome = true := by
      unfold waitingAt at hw
      split at hw
      · split at hw
        · injection hw with hw; subst hw; assumption
        · cases hw
      · cases hw
    rw [e, if_pos h]
    unfold waitingAt
    rw [msAt_mod, if_pos rfl]
    dsimp only
    rw [if_pos hr]
  · intro h
    rw [e, if_neg (by rw [h]; decide)]

/-- A step marks a request at most, which leaves its group, its class and its age (R258). -/
theorem gatherAt_waiting (g a q : Nat) (c : Core) : waitingAt (gatherAt g c a) q = waitingAt c q ∨
    ∃ r, waitingAt c q = some r ∧ waitingAt (gatherAt g c a) q = some { r with gatherDone := true } := by
  by_cases hq : q = a
  · subst hq
    by_cases h : ∃ r k, waitingAt c q = some r ∧ r.group = some (g, k)
    · obtain ⟨r, k, h1, h2⟩ := h
      obtain ⟨m1, m2⟩ := gatherAt_member g q k c r h1 h2
      cases ho : groupOver g k r.cls c
      · exact .inl (by rw [m2 ho])
      · exact .inr ⟨r, h1, m1 ho⟩
    · exact .inl (by rw [gatherAt_other g q c fun r k h1 h2 => h ⟨r, k, h1, h2⟩])
  · obtain ⟨m, e, g1⟩ := gatherAt_only g a c
    refine .inl ?_
    unfold waitingAt
    rw [show msAt (gatherAt g c a) q = msAt c q from by rw [e]; exact g1 q hq]

theorem gatherAt_over (g a k cls : Nat) (c : Core) : groupOver g k cls (gatherAt g c a) = groupOver g k cls c := by
  obtain ⟨m, e, -⟩ := gatherAt_only g a c
  have hn : (gatherAt g c a).seq.now = c.seq.now ∧ tz16 (gatherAt g c a) 16 = tz16 c 16 := by rw [e]; exact ⟨rfl, rfl⟩
  unfold groupOver
  rw [hn.1, hn.2]
  refine congrArg (fun f => (List.range 12).any f) (funext fun q => ?_)
  rcases gatherAt_waiting g a q c with h | ⟨r, h1, h2⟩
  · rw [h]
  · rw [h1, h2]

/-- A gathering over several portals: other groups wait on, and a member is marked if the gathering of its group and class is over,
and otherwise left as it is (R258). -/
theorem gathers (g : Nat) (l : List Nat) (c : Core) (hn : l.Nodup) :
    ∃ m, l.foldl (gatherAt g) c = { c with seq.masters := m } ∧ (∀ q, q ∉ l → tget {} m q = msAt c q) ∧
      (∀ p, (∀ r k, waitingAt c p = some r → r.group ≠ some (g, k)) → tget {} m p = msAt c p) ∧
      ∀ p k r, p ∈ l → waitingAt c p = some r → r.group = some (g, k) →
        (groupOver g k r.cls c = true → waitingAt (l.foldl (gatherAt g) c) p = some { r with gatherDone := true }) ∧
        (groupOver g k r.cls c = false → tget {} m p = msAt c p) := by
  induction l generalizing c with
  | nil => exact ⟨_, rfl, fun _ _ => rfl, fun _ _ => rfl, fun p k r hp => absurd hp List.not_mem_nil⟩
  | cons a r ih =>
    obtain ⟨h1, h2⟩ := List.nodup_cons.mp hn
    have ho := gatherAt_other g a c
    have hm := fun k x hw hg => gatherAt_member g a k c x hw hg
    have hv := fun k cls => gatherAt_over g a k cls c
    obtain ⟨m, e, g1⟩ := gatherAt_only g a c
    obtain ⟨m2, e2, j1, j3, j4⟩ := ih (gatherAt g c a) h2
    have wa : ∀ q, q ≠ a → waitingAt (gatherAt g c a) q = waitingAt c q := by
      intro q hq; unfold waitingAt; rw [show msAt (gatherAt g c a) q = msAt c q from by rw [e]; exact g1 q hq]
    have ma : ∀ q, q ≠ a → msAt (gatherAt g c a) q = msAt c q := fun q hq => by rw [e]; exact g1 q hq
    have hf : List.foldl (gatherAt g) c (a :: r) = { c with seq.masters := m2 } := by rw [List.foldl_cons, e2, e]
    refine ⟨m2, hf, ?_, ?_, ?_⟩
    · intro q hq
      rw [List.mem_cons, not_or] at hq
      exact (j1 q hq.2).trans (ma q hq.1)
    · intro p hp
      by_cases hpa : p = a
      · subst hpa
        rw [j1 p h1, ho hp]
      · rw [j3 p (by rw [wa p hpa]; exact hp)]
        exact ma p hpa
    · intro p k x hp hw hg
      by_cases hpa : p = a
      · subst hpa
        obtain ⟨q1, q2⟩ := hm k x hw hg
        have h3 := j1 p h1
        constructor
        · intro h
          rw [← q1 h, hf]
          unfold waitingAt
          rw [show msAt { c with seq.masters := m2 } p = msAt (gatherAt g c p) p from h3]
        · intro h
          rw [h3, q2 h]
      · have hp' : p ∈ r := by rcases List.mem_cons.mp hp with h | h; exact absurd h hpa; exact h
        obtain ⟨q1, q2⟩ := j4 p k x hp' (by rw [wa p hpa]; exact hw) hg
        rw [hv] at q1 q2
        exact ⟨q1, fun h => (q2 h).trans (ma p hpa)⟩

/-- What the detection latches for its portal, and what it writes (R228). -/
theorem takeForce_spec (p : Nat) (x : Nat) (e : Int) (c : Core) : ∃ u t, takeForce p x e c = { c with recd := u, seq.obst := t } ∧
    tget {} t p = { obAt c p with force := (obAt c p).force || !blanked c p } ∧ ∀ q, q ≠ p → tget {} t q = obAt c q := by
  unfold takeForce
  by_cases hb : (blanked c p || (obAt c p).force) = true
  · rw [if_pos hb]
    refine ⟨_, _, rfl, ?_, fun _ _ => rfl⟩
    have : ((obAt c p).force || !blanked c p) = (obAt c p).force := by
      cases h1 : blanked c p <;> cases h2 : (obAt c p).force <;> simp_all
    rw [this]
    rfl
  · rw [if_neg hb]
    have hv : ((obAt c p).force || !blanked c p) = true := by
      cases h1 : blanked c p <;> cases h2 : (obAt c p).force <;> simp_all
    obtain ⟨u, e1⟩ := obstEvent_only p 64 x e (modOb p (fun o => { o with force := true }) c)
    obtain ⟨w, e2⟩ := histAdd_only p 10 (e.toNat / 50) { modOb p (fun o => { o with force := true }) c with recd := u }
    rw [e1, e2]
    refine ⟨_, _, rfl, ?_, ?_⟩
    · rw [hv, tget_tmod, if_pos rfl]; rfl
    · intro q hq; rw [tget_tmod, if_neg fun e => hq e.symm]; rfl

/-- What the detection latches for its portal, and what it writes (R228). -/
theorem takeEnergy_spec (p : Nat) (e : Int) (c : Core) : ∃ u t, takeEnergy p e c = { c with recd := u, seq.obst := t } ∧
    tget {} t p = { obAt c p with energy := (obAt c p).energy || !blanked c p } ∧ ∀ q, q ≠ p → tget {} t q = obAt c q := by
  unfold takeEnergy
  by_cases hb : (blanked c p || (obAt c p).energy) = true
  · rw [if_pos hb]
    refine ⟨_, _, rfl, ?_, fun _ _ => rfl⟩
    have : ((obAt c p).energy || !blanked c p) = (obAt c p).energy := by
      cases h1 : blanked c p <;> cases h2 : (obAt c p).energy <;> simp_all
    rw [this]
    rfl
  · rw [if_neg hb]
    have hv : ((obAt c p).energy || !blanked c p) = true := by
      cases h1 : blanked c p <;> cases h2 : (obAt c p).energy <;> simp_all
    obtain ⟨u, e1⟩ := obstEvent_only p 69 0xFF e (modOb p (fun o => { o with energy := true }) c)
    rw [e1]
    refine ⟨_, _, rfl, ?_, ?_⟩
    · rw [hv, tget_tmod, if_pos rfl]; rfl
    · intro q hq; rw [tget_tmod, if_neg fun e => hq e.symm]; rfl

/-- What the detection latches for its portal, and what it writes (R228). -/
theorem takeDrawn_spec (p : Nat) (x ms : Nat) (c : Core) : ∃ u t, takeDrawn p x ms c = { c with recd := u, seq.obst := t } ∧
    tget {} t p = { obAt c p with drawn := (obAt c p).drawn || !blanked c p } ∧ ∀ q, q ≠ p → tget {} t q = obAt c q := by
  unfold takeDrawn
  by_cases hb : (blanked c p || (obAt c p).drawn) = true
  · rw [if_pos hb]
    refine ⟨_, _, rfl, ?_, fun _ _ => rfl⟩
    have : ((obAt c p).drawn || !blanked c p) = (obAt c p).drawn := by
      cases h1 : blanked c p <;> cases h2 : (obAt c p).drawn <;> simp_all
    rw [this]
    rfl
  · rw [if_neg hb]
    have hv : ((obAt c p).drawn || !blanked c p) = true := by
      cases h1 : blanked c p <;> cases h2 : (obAt c p).drawn <;> simp_all
    obtain ⟨u, e1⟩ := obstEvent_only p 68 (if x = 0xFF then 0xFF else x) ms (modOb p (fun o => { o with drawn := true }) c)
    rw [e1]
    refine ⟨_, _, rfl, ?_, ?_⟩
    · rw [hv, tget_tmod, if_pos rfl]; rfl
    · intro q hq; rw [tget_tmod, if_neg fun e => hq e.symm]; rfl

/-- With the other direction disarmed, disarming one leaves none. -/
theorem lastDirection (a : BitVec 2) (d : Nat) (hd : d < 2) (h : pbit a (1 - d) = false) : setBit a d false = 0 := by
  have key : ∀ b : BitVec 2, (pbit b 1 = false → setBit b 0 false = 0) ∧ (pbit b 0 = false → setBit b 1 false = 0) := by decide
  have : d = 0 ∨ d = 1 := by omega
  rcases this with e | e <;> subst e
  · exact (key a).1 h
  · exact (key a).2 h

/-- BASELINE_LEARNED of an armed direction (R239). -/
theorem takeBaseline_spec (p d : Nat) (hd : d < 2) (c : Core) (ha : armedFor c p d = true) : ∃ u h x y l v n t, takeBaseline p d c =
      { c with
        recd := u, host := h
        nv := { c.nv with curveR := x, curveB := y, lBase := l, valid := v, learned := n }
        seq.obst := t } ∧
    tget false v (p * 2 + d) = true ∧ tget 0 n (p * 2 + d) = tget 0 (obAt c p).learned d ∧
    (∀ j, j ≠ p * 2 + d → tget false v j = tget false c.nv.valid j) ∧ (d = 0 → l = c.nv.lBase) ∧
    pbit (tget {} t p).armed d = false ∧ (pbit (obAt c p).armed (1 - d) = false → (tget {} t p).opSlot = none) := by
  unfold takeBaseline
  rw [ha]
  dsimp only
  rw [if_neg (by decide)]
  obtain ⟨x, y, e1⟩ := foldCurve_only (fun c a => writeCurve p d a c) (fun c a => writeCurve_only p d a c) [0, 1, 2] c
  rw [e1]
  dsimp only
  generalize (if (obAt c p).lockCnt = 0 then 0 else _) = lock
  generalize hn : ({ c.nv with
    curveR := x
    curveB := y
    lBase := if d = 1 then tset 0 c.nv.lBase p lock else c.nv.lBase
    valid := tset false c.nv.valid (p * 2 + d) true
    learned := tset 0 c.nv.learned (p * 2 + d) (tget 0 (obAt c p).learned d) } : NvSt) = nv
  obtain ⟨u, e2⟩ := event_only 0x052 0x06 [p, d, tget 0 (obAt c p).learned d] { c with nv := nv }
  rw [e2]
  have hmo : obAt (modOb p (fun o => { o with armed := setBit o.armed d false }) { c with nv := nv, recd := u }) p =
      { obAt c p with armed := setBit (obAt c p).armed d false } := by rw [obAt_mod, if_pos rfl]; rfl
  have hv : tget false nv.valid (p * 2 + d) = true ∧ tget 0 nv.learned (p * 2 + d) = tget 0 (obAt c p).learned d ∧
      (∀ j, j ≠ p * 2 + d → tget false nv.valid j = tget false c.nv.valid j) ∧ (d = 0 → nv.lBase = c.nv.lBase) := by
    rw [← hn]
    dsimp only
    exact ⟨(tget_tset ..).trans (if_pos rfl), (tget_tset ..).trans (if_pos rfl),
      fun j hj => (tget_tset ..).trans (if_neg fun e => hj e.symm), fun h => if_neg (by omega)⟩
  have hnv : nv = { c.nv with curveR := nv.curveR, curveB := nv.curveB, lBase := nv.lBase, valid := nv.valid, learned := nv.learned } := by
    rw [← hn]
  split
  · rename_i hz
    obtain ⟨g, e4⟩ := finish_only ((obAt c p).opSlot.getD 0) 0x00 0 (tget 0 (obAt c p).learned 0 + tget 0 (obAt c p).learned 1) 0
      (modOb p (fun o => { o with opSlot := none }) (modOb p (fun o => { o with armed := setBit o.armed d false }) { c with nv := nv, recd := u }))
    refine ⟨u, g, nv.curveR, nv.curveB, nv.lBase, nv.valid, nv.learned,
      (modOb p (fun o => { o with opSlot := none }) (modOb p (fun o => { o with armed := setBit o.armed d false }) { c with nv := nv, recd := u })).seq.obst, ?_, hv.1, hv.2.1, hv.2.2.1, hv.2.2.2, ?_, ?_⟩
    · rw [← hnv]
      exact e4
    · refine (congrArg (fun o : ObstSt => pbit o.armed d) ((obAt_mod p p _ _).trans (if_pos rfl))).trans ?_
      rw [hmo]
      exact setBit_same _ _ _ hd
    · intro _
      exact congrArg ObstSt.opSlot ((obAt_mod p p _ _).trans (if_pos rfl))
  · rename_i hz
    refine ⟨u, c.host, nv.curveR, nv.curveB, nv.lBase, nv.valid, nv.learned, (modOb p (fun o => { o with armed := setBit o.armed d false }) { c with nv := nv, recd := u }).seq.obst, ?_, hv.1, hv.2.1, hv.2.2.1, hv.2.2.2, ?_, ?_⟩
    · rw [← hnv]
      rfl
    · exact (congrArg (fun o : ObstSt => pbit o.armed d) hmo).trans (setBit_same _ _ _ hd)
    · intro hq
      rw [hmo] at hz
      exact absurd (lastDirection _ _ hd hq) hz

/-- LEARN_ABORT of an armed direction (R240). -/
theorem takeLearnAbort_spec (p d k : Nat) (c : Core) (x : SlotSt) (ha : armedFor c p d = true) (hk : (obAt c p).opSlot = some k)
    (hl : k < 512) (hx : slotAt c k = some x) : ∃ h t, takeLearnAbort p d c = { c with host := h, seq.obst := t } ∧
      Ended k 0x42 p 0 0 { c with host := h, seq.obst := t } ∧ (tget {} t p).armed = 0 ∧ (tget {} t p).opSlot = none := by
  have hdn : x.done = none := by
    unfold armedFor running at ha
    rw [hk] at ha
    dsimp only at ha
    rw [hx] at ha
    simp only [Bool.and_eq_true] at ha
    simpa using ha.1.1
  unfold takeLearnAbort
  rw [ha, hk]
  obtain ⟨g, e, he⟩ := finish_ended k 0x42 p 0 0 (modOb p (fun o => { o with armed := 0, opSlot := none }) c) x hx hdn hl
  have hm : obAt (modOb p (fun o => { o with armed := 0, opSlot := none }) c) p = { obAt c p with armed := 0, opSlot := none } :=
    (obAt_mod p p _ c).trans (if_pos rfl)
  exact ⟨g, _, e, he, congrArg ObstSt.armed hm, congrArg ObstSt.opSlot hm⟩

end Sys2Proof.Machine
end

