-- ==== Sys2Proof/Laws/Twin.lean ====
section
/-! SUPPORT. Messages of the twin: which are taken, what the header writes, and what the parts of a pair's life write. -/

namespace Sys2Proof.Machine

/-! ### The header (R364 to R366) -/

theorem takeHdr_heard (type : Nat) (h : TwinHdr) (gone : Bool) (c : Core) (q : Heard type h c) :
    takeHdr type h gone c = (true, heard type h gone c) := by
  unfold takeHdr
  rw [if_neg (by rw [q.served, q.lane]; decide), if_neg (by rw [q.good]; decide)]
  dsimp only
  rw [if_neg (by rw [List.contains_iff_mem]; exact q.first)]
  rw [if_neg (by
    intro hh
    simp only [Bool.and_eq_true, decide_eq_true_eq, Bool.not_eq_true'] at hh
    rw [q.authed hh.1] at hh
    cases hh.2)]
  rw [if_neg (by rw [q.fresh]; decide)]
  unfold adoptEpoch heard heardSeq
  dsimp only
  by_cases hm : (c.sys.mode == .shadow && (h.role == .active || h.role == .solo)) = true
  · rw [if_pos hm, if_pos hm]
  · rw [if_neg hm, if_neg hm]

theorem onMessage_heard (type : Nat) (h : TwinHdr) (gone : Bool) (f : Core → Core) (s : State) (q : Heard type h s.core) :
    onMessage type h gone f s = { s with core := f (heard type h gone s.core) } := by
  unfold onMessage
  rw [takeHdr_heard type h gone s.core q]
  rfl

theorem takeHdr_deaf (type : Nat) (h : TwinHdr) (gone : Bool) (c : Core) (q : listens c = false ∨ pbit c.twin.lanes h.lane = false) :
    takeHdr type h gone c = (false, c) := by
  unfold takeHdr
  rw [if_pos (by rcases q with q | q <;> rw [q] <;> simp)]

theorem takeHdr_bad (type : Nat) (h : TwinHdr) (gone : Bool) (c : Core) (q1 : listens c = true) (q2 : pbit c.twin.lanes h.lane = true)
    (q3 : h.ok = false) : takeHdr type h gone c = (false, twCount 16 c) := by
  unfold takeHdr
  rw [if_neg (by rw [q1, q2]; decide), if_pos (by rw [q3]; rfl)]

theorem takeHdr_again (type : Nat) (h : TwinHdr) (gone : Bool) (c : Core) (q1 : listens c = true) (q2 : pbit c.twin.lanes h.lane = true)
    (q3 : h.ok = true) (q4 : h.mseq ∈ tget [] c.twin.rxSeq type) : takeHdr type h gone c = (false, c) := by
  unfold takeHdr
  rw [if_neg (by rw [q1, q2]; decide), if_neg (by rw [q3]; decide)]
  dsimp only
  rw [if_pos (List.contains_iff_mem.mpr q4)]

theorem takeHdr_early (type : Nat) (h : TwinHdr) (gone : Bool) (c : Core) (q1 : listens c = true) (q2 : pbit c.twin.lanes h.lane = true)
    (q3 : h.ok = true) (q4 : h.mseq ∉ tget [] c.twin.rxSeq type) (q5 : type ≠ 0) (q6 : c.twin.authed = false) :
    takeHdr type h gone c = (false, heardSeq type h c) := by
  unfold takeHdr
  rw [if_neg (by rw [q1, q2]; decide), if_neg (by rw [q3]; decide)]
  dsimp only
  rw [if_neg (by rw [List.contains_iff_mem]; exact q4), if_pos (by rw [q6]; simp [q5])]
  rfl

theorem takeHdr_stale (type : Nat) (h : TwinHdr) (gone : Bool) (c : Core) (q1 : listens c = true) (q2 : pbit c.twin.lanes h.lane = true)
    (q3 : h.ok = true) (q4 : h.mseq ∉ tget [] c.twin.rxSeq type) (q6 : type ≠ 0 → c.twin.authed = true)
    (q7 : epochLower h.epoch c.nv.epoch = true) : takeHdr type h gone c = (false, twCount 20 (heardSeq type h c)) := by
  unfold takeHdr
  rw [if_neg (by rw [q1, q2]; decide), if_neg (by rw [q3]; decide)]
  dsimp only
  rw [if_neg (by rw [List.contains_iff_mem]; exact q4), if_neg (by
    intro hh
    simp only [Bool.and_eq_true, decide_eq_true_eq, Bool.not_eq_true'] at hh
    rw [q6 hh.1] at hh
    cases hh.2), if_pos q7]
  rfl

theorem onMessage_not (type : Nat) (h : TwinHdr) (gone : Bool) (f : Core → Core) (s : State) (d : Core)
    (q : takeHdr type h gone s.core = (false, d)) : onMessage type h gone f s = { s with core := d } := by
  unfold onMessage; rw [q]; rfl

/-- A HELLO reaches its header with the core as it was, unless it serves the authentication (log 18). -/
theorem noteSerial_not (key : Bytes) (h : TwinHdr) (m : Hello) (c : Core)
    (q : listens c = false ∨ pbit c.twin.lanes h.lane = false ∨ h.ok = false ∨ c.twin.authed = true) : noteSerial key h m c = c := by
  unfold noteSerial
  rw [if_neg]
  rcases q with q | q | q | q <;> rw [q] <;> simp

/-! ### What a unit sends (R366, R367) -/

/-- A message sent over a link that is up. -/
theorem twinSend_up (n : Nat) (b : Bytes) (c : Core) (h : twinUp c = true) : ∃ q w, twinSend n b c =
    { c with twin := { c.twin with txSeq := q }, out := .twinBytes n w :: c.out } := by
  unfold twinSend
  rw [if_pos h]
  exact ⟨_, _, rfl⟩

/-- A piece that waits for its tick takes its number and joins the pieces that wait (R367, R368). -/
theorem twinQueue_only (n : Nat) (b : Bytes) (c : Core) : ∃ q p, twinQueue n b c = { c with twin.txSeq := q, twin.txPieces := p } := by
  unfold twinQueue nextMseq
  split <;> exact ⟨_, _, rfl⟩

/-- Pieces on their way to the standby write the numbers and the pieces that wait only. -/
theorem foldQueue_only {α : Type} (f : Core → α → Core) (hf : ∀ c a, ∃ q p, f c a = { c with twin.txSeq := q, twin.txPieces := p })
    (l : List α) (c : Core) : ∃ q p, l.foldl f c = { c with twin.txSeq := q, twin.txPieces := p } := by
  induction l generalizing c with
  | nil => exact ⟨_, _, rfl⟩
  | cons a r ih =>
    obtain ⟨q, p, e⟩ := hf c a
    obtain ⟨q2, p2, e2⟩ := ih (f c a)
    exact ⟨q2, p2, by rw [List.foldl_cons, e2, e]⟩

theorem sendPage_only (k t : Nat) (b : Bytes) (c : Core) : ∃ q p, sendPage k t b c = { c with twin.txSeq := q, twin.txPieces := p } := by
  unfold sendPage
  exact foldQueue_only _ (fun _ _ => twinQueue_only _ _ _) _ _

theorem sendImage_only (k t : Nat) (b : Bytes) (c : Core) : ∃ q p, sendImage k t b c = { c with twin.txSeq := q, twin.txPieces := p } := by
  unfold sendImage
  exact foldQueue_only _ (fun _ _ => twinQueue_only _ _ _) _ _

/-- A piece queued on a link that is up is the last of those that wait (R367). -/
theorem twinQueue_pieces (n : Nat) (b : Bytes) (c : Core) (h : twinUp c = true) :
    (twinQueue n b c).twin.txPieces.map (fun e => (e.1, e.2.2)) = c.twin.txPieces.map (fun e => (e.1, e.2.2)) ++ [(n, b)] := by
  unfold twinQueue
  rw [if_pos h]
  simp [nextMseq]

/-- An image sent on a link that is up waits as its pieces, in their order (R119, R367). -/
theorem sendImage_pieces (kind chan : Nat) (b : Bytes) (c : Core) (h : twinUp c = true) :
    (sendImage kind chan b c).twin.txPieces.map (fun e => (e.1, e.2.2)) = c.twin.txPieces.map (fun e => (e.1, e.2.2)) ++
      (pieces b).map fun e => (0x13, toLe 1 kind ++ toLe 1 chan ++ [0, 0] ++ toLe 4 b.length ++ toLe 4 e.1 ++ e.2) := by
  unfold sendImage
  generalize pieces b = l
  induction l generalizing c with
  | nil => simp
  | cons e l ih =>
    obtain ⟨q, p, eq⟩ := twinQueue_only 0x13 (toLe 1 kind ++ toLe 1 chan ++ [0, 0] ++ toLe 4 b.length ++ toLe 4 e.1 ++ e.2) c
    rw [List.foldl_cons, ih _ (by rw [eq]; exact h), twinQueue_pieces _ _ _ h, List.map_cons, List.append_assoc, List.singleton_append]

/-! ### Causes of R375 -/

/-- A cause in a synchronised standby (R375, R376). -/
theorem unsyncCause_synced (n : Nat) (c : Core) (h1 : c.sys.mode = .shadow) (h2 : c.twin.synced = true) :
    unsyncCause n c = unsyncNow n c := by
  unfold unsyncCause
  rw [if_neg (by rw [h1]; decide), if_pos h2]

/-- What a cause writes. -/
theorem unsyncCause_only (n : Nat) (c : Core) : ∃ u h q x w, unsyncCause n c = { c with recd := u, host := h, seq := q, cam := x, twin := w } := by
  unfold unsyncCause
  split
  · exact ⟨_, _, _, _, _, rfl⟩
  · split
    · obtain ⟨u, h, q, x, e⟩ := unsyncNow_only n c
      exact ⟨u, h, q, x, _, e⟩
    · exact ⟨_, _, _, _, _, rfl⟩

theorem clash_only (c : Core) : ∃ u h q x w, clash c = { c with recd := u, host := h, seq := q, cam := x, twin := w } ∧
    w.peer = c.twin.peer ∧ w.anyHello = c.twin.anyHello ∧ w.helloAge = c.twin.helloAge := by
  unfold clash
  split
  · exact ⟨_, _, _, _, _, rfl, rfl, rfl, rfl⟩
  · split
    · obtain ⟨u, h, q, x, e⟩ := unsyncNow_only 8 c
      rw [e]
      exact ⟨_, _, _, _, _, rfl, rfl, rfl, rfl⟩
    · exact ⟨_, _, _, _, _, rfl, rfl, rfl, rfl⟩

/-! ### Links that are muted (R213) -/

/-- A fold over links that mutes each: the links only, and each of them is muted. -/
theorem mutes (l : List Nat) (c : Core) : ∃ t, l.foldl (fun c x => muteLink x c) c = { c with links := t } ∧
    (∀ x, x ∈ l → (tget {} t x : LinkSt).muted = true) ∧ ∀ x, (linkAt c x).muted = true → (tget {} t x : LinkSt).muted = true := by
  induction l generalizing c with
  | nil => exact ⟨_, rfl, fun x hx => absurd hx List.not_mem_nil, fun _ h => h⟩
  | cons a r ih =>
    rw [List.foldl_cons]
    obtain ⟨t, e, g1, g2⟩ := ih (muteLink a c)
    have hm : ∀ x, (x = a ∨ (linkAt c x).muted = true) → (linkAt (muteLink a c) x).muted = true := by
      intro x hx
      unfold muteLink
      rw [linkAt_mod]
      split
      · rfl
      · rename_i hne
        exact hx.resolve_left fun e => hne e.symm
    refine ⟨t, e, ?_, fun x hx => g2 x (hm x (.inr hx))⟩
    intro x hx
    rcases List.mem_cons.mp hx with hx | hx
    · exact g2 x (hm x (.inl hx))
    · exact g1 x hx

/-! ### The session (R28, R365, R367) -/

theorem dropCarried_pages (c : Core) : (dropCarried c).cam.pages = c.cam.pages := rfl

theorem unsyncNow_pages (n : Nat) (c : Core) : (unsyncNow n c).cam.pages = c.cam.pages := by
  unfold unsyncNow
  dsimp only
  rw [dropCarried_pages]
  obtain ⟨u, e⟩ := event_only 0x094 0x0B [n] c
  rw [e]
  dsimp only
  generalize hc : ({ c with recd := u, twin := _ } : Core) = d
  obtain ⟨q, e2⟩ := snapFlags_only d
  rw [e2, ← hc]

theorem camServe_none (id page : Nat) (c : Core) (h : c.cam.waits = []) : camServe id page c = c := by
  obtain ⟨sys, tb, nv, run, recd, bar, host, seq, links, cam, fld, twin, train, mem, crossA, crossB, out, free⟩ := c
  obtain ⟨a⟩ := cam
  dsimp only at h
  subst h
  rfl

theorem authSent (key : Bytes) (sn : U64) (c : Core) (h1 : c.twin.serialT = some sn) (h2 : c.twin.nonce ≠ []) (h3 : c.twin.nonceT ≠ [])
    (h4 : key ≠ []) (h5 : c.twin.answerT ≠ []) : ∃ u q o b, authAdvance key c = { c with
      recd := u, out := o
      twin := { c.twin with txSeq := q, answered := true, answerT := [], authed := b } } ∧
      (b = true ↔ c.twin.answerT = authAnswer key sn c ∨ c.twin.authed = true) := by
  unfold authAdvance
  rw [h1]
  dsimp only
  rw [if_neg (by simp [h2, h3]), if_neg (show ¬ key.isEmpty = true by simp [h4])]
  generalize ha : authAnswer key sn c = a
  have hs : ∃ q o, (if (c.twin.answered || key.isEmpty) = true then c
      else twinSend 0x00 (c.twin.nonce ++ a) { c with twin := { c.twin with answered := true } }) =
      { c with out := o, twin := { c.twin with txSeq := q, answered := true } } := by
    by_cases hh : (c.twin.answered || key.isEmpty) = true
    · rw [if_pos hh]
      have : c.twin.answered = true := by simpa [h4] using hh
      refine ⟨c.twin.txSeq, c.out, ?_⟩
      rw [← this]
    · rw [if_neg hh]
      exact twinSend_only 0x00 (c.twin.nonce ++ a) { c with twin := { c.twin with answered := true } }
  obtain ⟨q, o, e⟩ := hs
  rw [e]
  unfold verifyAnswer
  dsimp only
  rw [if_neg (by simpa using h5)]
  by_cases hq : c.twin.answerT = a
  · rw [if_pos (by simp [h4, hq])]
    exact ⟨c.recd, q, o, true, rfl, by simp [hq]⟩
  · rw [if_neg (by simp [hq])]
    obtain ⟨u, e2⟩ := event_only 0x093 0x0B [] { c with out := o, twin := { c.twin with txSeq := q, answered := true, answerT := [] } }
    rw [e2]
    exact ⟨u, q, o, c.twin.authed, rfl, by simp [hq]⟩

theorem clash_only' (c : Core) : ∃ u h q x w, clash c = { c with recd := u, host := h, seq := q, cam := x, twin := w } ∧
    w.peer = c.twin.peer ∧ w.anyHello = c.twin.anyHello ∧ w.helloAge = c.twin.helloAge ∧ w.role = c.twin.role := by
  unfold clash
  split
  · exact ⟨_, _, _, _, _, rfl, rfl, rfl, rfl, rfl⟩
  · split
    · obtain ⟨u, h, q, x, e⟩ := unsyncNow_only 8 c
      rw [e]
      exact ⟨_, _, _, _, _, rfl, rfl, rfl, rfl, rfl⟩
    · exact ⟨_, _, _, _, _, rfl, rfl, rfl, rfl, rfl⟩

theorem sendImages_only (c : Core) : ∃ q p, sendImages c = { c with twin := { c.twin with imgSent := true, txSeq := q, txPieces := p } } := by
  have all : ∀ (l : List (Nat × Image)) (d : Core), ∃ q p,
      l.foldl (fun c e => sendImage 2 e.1 (imgBytes e.2) c) d = { d with twin := { d.twin with txSeq := q, txPieces := p } } := by
    intro l
    induction l with
    | nil => exact fun d => ⟨_, _, rfl⟩
    | cons a r ih =>
      intro d
      rw [List.foldl_cons]
      obtain ⟨q, p, e⟩ := sendImage_only 2 a.1 (imgBytes a.2) d
      obtain ⟨q2, p2, e2⟩ := ih (sendImage 2 a.1 (imgBytes a.2) d)
      exact ⟨q2, p2, by rw [e2, e]⟩
  have fin : ∀ (d : Core) (q : Table U32) (p : List (Nat × U32 × Bytes)), d = { c with twin := { c.twin with imgSent := true, txSeq := q, txPieces := p } } →
      ∃ q p, (c.nv.dir.elim d fun m => sendImage 3 0 (imgBytes m) d) =
        { c with twin := { c.twin with imgSent := true, txSeq := q, txPieces := p } } := by
    intro d q p e
    subst e
    cases c.nv.dir with
    | none => exact ⟨_, _, rfl⟩
    | some m => exact sendImage_only 3 0 (imgBytes m) _
  have last : ∀ (d : Core) (q : Table U32) (p : List (Nat × U32 × Bytes)), d = { c with twin := { c.twin with imgSent := true, txSeq := q, txPieces := p } } →
      ∃ q p, c.nv.dir.elim (c.nv.progs.foldl (fun c e => sendImage 2 e.1 (imgBytes e.2) c) d)
        (fun m => sendImage 3 0 (imgBytes m) (c.nv.progs.foldl (fun c e => sendImage 2 e.1 (imgBytes e.2) c) d)) =
        { c with twin := { c.twin with imgSent := true, txSeq := q, txPieces := p } } := by
    intro d q p e
    subst e
    obtain ⟨q2, p2, e2⟩ := all c.nv.progs { c with twin := { c.twin with imgSent := true, txSeq := q, txPieces := p } }
    exact fin _ q2 p2 e2
  have e : ∀ d, (c.nv.cfg.elim { c with twin.imgSent := true } fun m => sendImage 1 0 (imgBytes m) { c with twin.imgSent := true }) = d →
      (∃ q p, d = { c with twin := { c.twin with imgSent := true, txSeq := q, txPieces := p } }) →
      sendImages c = c.nv.dir.elim (c.nv.progs.foldl (fun c e => sendImage 2 e.1 (imgBytes e.2) c) d)
        (fun m => sendImage 3 0 (imgBytes m) (c.nv.progs.foldl (fun c e => sendImage 2 e.1 (imgBytes e.2) c) d)) := by
    rintro d hd ⟨q, p, e⟩
    obtain ⟨q2, p2, e2⟩ := all d.nv.progs d
    unfold sendImages
    dsimp only
    have hp : d.nv.progs = c.nv.progs := by rw [e]
    have hv : d.nv.dir = c.nv.dir := by rw [e]
    have go : ∀ x, x = d → (match (x.nv.progs.foldl (fun c e => sendImage 2 e.1 (imgBytes e.2) c) x).nv.dir with
      | some m => sendImage 3 0 (imgBytes m) (x.nv.progs.foldl (fun c e => sendImage 2 e.1 (imgBytes e.2) c) x)
      | none => x.nv.progs.foldl (fun c e => sendImage 2 e.1 (imgBytes e.2) c) x) = c.nv.dir.elim (c.nv.progs.foldl (fun c e => sendImage 2 e.1 (imgBytes e.2) c) d)
        (fun m => sendImage 3 0 (imgBytes m) (c.nv.progs.foldl (fun c e => sendImage 2 e.1 (imgBytes e.2) c) d)) := by
      rintro x rfl
      rw [e2]
      dsimp only
      rw [← hp, hv, e2]
      cases c.nv.dir <;> rfl
    cases hc : c.nv.cfg with
    | none =>
      rw [hc] at hd
      exact go _ hd
    | some m =>
      rw [hc] at hd
      exact go _ hd
  have k : ∃ q p, (c.nv.cfg.elim { c with twin.imgSent := true } fun m => sendImage 1 0 (imgBytes m) { c with twin.imgSent := true }) =
      { c with twin := { c.twin with imgSent := true, txSeq := q, txPieces := p } } := by
    cases c.nv.cfg with
    | none => exact ⟨_, _, rfl⟩
    | some m => exact sendImage_only 1 0 (imgBytes m) _
  obtain ⟨q, p, k⟩ := k
  rw [e _ k ⟨q, p, rfl⟩]
  exact last _ q p rfl

theorem takeHello_spec (h : TwinHdr) (m : Hello) (c : Core) : ∃ n u g f x w o, takeHello h m c =
    { c with nv := n, recd := u, host := g, seq := f, cam := x, twin := w, out := o } ∧
    w.peer = some (h, m) ∧ w.anyHello = 0 ∧ w.helloAge = (if h.role = .standby then 0 else c.twin.helloAge) ∧
    w.role = roleIn c.sys.mode (decide (w.helloAge < 16)) := by
  have base : ∃ n w, setRole { c with
      twin := { c.twin with peer := some (h, m), anyHello := 0, helloAge := if h.role == .standby then 0 else c.twin.helloAge }
      nv := { c.nv with hadImages := c.nv.hadImages && h.mode != .selftest } } = { c with nv := n, twin := w } ∧
      w.peer = some (h, m) ∧ w.anyHello = 0 ∧ w.helloAge = (if h.role = .standby then 0 else c.twin.helloAge) ∧
      w.role = roleIn c.sys.mode (decide (w.helloAge < 16)) := by
    refine ⟨_, _, rfl, rfl, rfl, ?_, rfl⟩
    show (if (h.role == .standby) = true then 0 else c.twin.helloAge) = _
    simp
  obtain ⟨n, w, e, g1, g2, g3, g4⟩ := base
  unfold takeHello
  dsimp only at e ⊢
  rw [e]
  have cl : ∀ u f, ∃ u' g f' x w', clash { c with nv := n, twin := w, recd := u, seq := f } =
      { c with nv := n, recd := u', host := g, seq := f', cam := x, twin := w' } ∧ w'.peer = w.peer ∧ w'.anyHello = w.anyHello ∧
      w'.helloAge = w.helloAge ∧ w'.role = w.role := by
    intro u f
    obtain ⟨u', g, f', x, w', e2, k1, k2, k3, k4⟩ := clash_only' { c with nv := n, twin := w, recd := u, seq := f }
    exact ⟨u', g, f', x, w', e2, k1, k2, k3, k4⟩
  split
  · unfold standbyHello
    split
    · dsimp only
      split
      · obtain ⟨u, e1⟩ := event_only 0x043 0x05 [] { c with nv := n, twin := w }
        rw [e1]
        obtain ⟨u', g, f', x, w', e2, k1, k2, k3, k4⟩ := cl u { c.seq with faultQ := c.seq.faultQ ++ [⟨0x403, 255, 255⟩] }
        refine ⟨n, u', g, f', x, w', c.out, e2, k1.trans g1, k2.trans g2, k3.trans g3, ?_⟩
        rw [k4, k3]; exact g4
      · obtain ⟨u', g, f', x, w', e2, k1, k2, k3, k4⟩ := cl c.recd c.seq
        refine ⟨n, u', g, f', x, w', c.out, e2, k1.trans g1, k2.trans g2, k3.trans g3, ?_⟩
        rw [k4, k3]; exact g4
    · split
      · obtain ⟨u', g, f', x, w', e2, k1, k2, k3, k4⟩ := cl c.recd c.seq
        refine ⟨n, u', g, f', x, w', c.out, e2, k1.trans g1, k2.trans g2, k3.trans g3, ?_⟩
        rw [k4, k3]; exact g4
      · exact ⟨n, c.recd, c.host, c.seq, c.cam, w, c.out, rfl, g1, g2, g3, g4⟩
  · split
    · unfold claimingHello
      dsimp only
      generalize (if (h.role == .standby && h.unsynced) = true then w.resync else 0) = rs
      split
      · obtain ⟨q, p, e2⟩ := sendImages_only { c with nv := n, twin := { w with
          imgSent := w.imgSent && h.mode == .shadow, resync := rs } }
        exact ⟨n, c.recd, c.host, c.seq, c.cam, _, c.out, e2, g1, g2, g3, g4⟩
      · exact ⟨n, c.recd, c.host, c.seq, c.cam, _, c.out, rfl, g1, g2, g3, g4⟩
    · exact ⟨n, c.recd, c.host, c.seq, c.cam, w, c.out, rfl, g1, g2, g3, g4⟩

theorem takeOffset_only (o : Int) (c : Core) : ∃ b u h q x w, takeOffset o c =
    { c with tb := b, recd := u, host := h, seq := q, cam := x, twin := w } ∧ b.t12 = c.tb.t12 := by
  unfold takeOffset
  dsimp only
  generalize (if 20 < o.natAbs then c.tb.drift + 1 else 0) = n
  generalize (if (unsynced _ && decide (1000 < Int.natAbs _)) = true then (0 : Int) else _) = v
  split
  · obtain ⟨u, h, q, x, w, e⟩ := unsyncCause_only 4 { c with tb := { c.tb with
      offs := (o :: c.tb.offs).take 8, avg := roundDiv (((o :: c.tb.offs).take 8).foldl (· + ·) 0) ((o :: c.tb.offs).take 8).length
      drift := 0, slew := v } }
    exact ⟨_, u, h, q, x, w, e, rfl⟩
  · exact ⟨_, _, _, _, _, _, rfl, rfl⟩

/-- SYNC in a standby: its two stamps are kept, and DELAY answers at a time-base value from `t2` on (R28). -/
theorem takeSync_spec (t1 t4 t2 : Nat) (c : Core) (h : c.sys.mode = .shadow) : ∃ b u g f x w o, takeSync t1 t4 t2 c =
    { c with tb := b, recd := u, host := g, seq := f, cam := x, twin := w, out := o, free := c.free + 1 } ∧
    b.t12 = some (t1, t2) ∧ b.t3 % 8 = 0 ∧ (t2 < 2 ^ 64 → t2 % 8 = 0 → t2 ≤ b.t3 ∧ b.t3 < 2 ^ 64) := by
  have pre : ∃ b u g f x w, (match c.tb.t12 with
      | some (a, b) => if t4 = 0 then c else takeOffset (roundDiv (((b : Int) - a) - ((t4 : Int) - c.tb.t3)) 2) c
      | none => c) = { c with tb := b, recd := u, host := g, seq := f, cam := x, twin := w } := by
    cases c.tb.t12 with
    | none => exact ⟨_, _, _, _, _, _, rfl⟩
    | some p =>
      dsimp only
      split
      · exact ⟨_, _, _, _, _, _, rfl⟩
      · obtain ⟨b, u, g, f, x, w, e, -⟩ := takeOffset_only (roundDiv (((p.2 : Int) - p.1) - ((t4 : Int) - c.tb.t3)) 2) c
        exact ⟨b, u, g, f, x, w, e⟩
  obtain ⟨b, u, g, f, x, w, e⟩ := pre
  have go : takeSync t1 t4 t2 c = twinSend 0x03 (toLe 8 (8 * (t2 / 8 + (Config.freeValue c.free).toNat % (2 ^ 61 - t2 / 8)))) { c with
      tb := { b with t12 := some (t1, t2), t3 := 8 * (t2 / 8 + (Config.freeValue c.free).toNat % (2 ^ 61 - t2 / 8)) }
      recd := u, host := g, seq := f, cam := x, twin := w, free := c.free + 1 } := by
    unfold takeSync
    rw [if_neg (by rw [h]; decide)]
    cases hc : c.tb.t12 with
    | none =>
      rw [hc] at e
      dsimp only at e ⊢
      rw [e]; rfl
    | some p =>
      rw [hc] at e
      dsimp only at e ⊢
      rw [e]; rfl
  rw [go]
  obtain ⟨q, o, e2⟩ := twinSend_only 0x03 (toLe 8 (8 * (t2 / 8 + (Config.freeValue c.free).toNat % (2 ^ 61 - t2 / 8)))) { c with
      tb := { b with t12 := some (t1, t2), t3 := 8 * (t2 / 8 + (Config.freeValue c.free).toNat % (2 ^ 61 - t2 / 8)) }
      recd := u, host := g, seq := f, cam := x, twin := w, free := c.free + 1 }
  refine ⟨_, u, g, f, x, _, o, e2, rfl, Nat.mul_mod_right 8 _, fun h1 h2 => ?_⟩
  have := Nat.mod_lt (Config.freeValue c.free).toNat (show 0 < 2 ^ 61 - t2 / 8 by omega)
  dsimp only
  omega

/-! ### Snapshots (R373, R378) -/

theorem applyBase_only (m : Snapshot) (c : Core) : ∃ n q x g w, applyBase m c =
    { c with nv := n, seq := q, cam := x, host := g, twin := w } ∧ w.resync = 2 ∧ w.image = c.twin.image := by
  unfold applyBase
  dsimp only
  generalize caughtUp _ _ = r
  unfold loadState
  exact ⟨_, _, _, _, _, rfl, rfl, rfl⟩

theorem becomeSynced_only (c : Core) : ∃ l u, becomeSynced c =
    { c with links := l, recd := u, twin := { c.twin with synced := true, resync := 0, quiet := 0 } } := by
  unfold becomeSynced
  dsimp only
  obtain ⟨u, e⟩ := event_only 0x095 0x0B [] { c with twin := { c.twin with synced := true, resync := 0, quiet := 0 } }
  rw [e]
  have all : ∀ (l : List Nat) (d : Core), ∃ t, l.foldl (fun c x => modLink x (fun l => { l with muted := true, unmute := !l.mutedIn }) c) d = { d with links := t } := by
    intro l
    induction l with
    | nil => exact fun d => ⟨_, rfl⟩
    | cons a r ih =>
      intro d
      rw [List.foldl_cons]
      obtain ⟨t, e⟩ := ih (modLink a (fun l => { l with muted := true, unmute := !l.mutedIn }) d)
      exact ⟨t, e⟩
  obtain ⟨t, e2⟩ := all ((List.range 36).filter (axisConf (cfgOf { c with recd := u, twin := { c.twin with synced := true, resync := 0, quiet := 0 } })))
    { c with recd := u, twin := { c.twin with synced := true, resync := 0, quiet := 0 } }
  exact ⟨t, u, e2⟩

theorem badSnapshot_only (c : Core) : ∃ l u h q x w, badSnapshot c = { c with links := l, recd := u, host := h, seq := q, cam := x, twin := w } ∧
    (∀ x, x < 36 → axisConf (cfgOf c) x = true → (tget {} l x : LinkSt).muted = true) ∧
    (c.twin.badSnaps < 2 → w.silent = true ∧ w.badSnaps = c.twin.badSnaps + 1) := by
  unfold badSnapshot
  dsimp only
  generalize hl : (List.range 36).filter _ = l
  obtain ⟨t, e, g1, -⟩ := mutes l { c with twin := { c.twin with
    counters := tmod 0 c.twin.counters 12 (· + 1), badSnaps := c.twin.badSnaps + 1, silent := true } }
  rw [e]
  have g : ∀ x, x < 36 → axisConf (cfgOf c) x = true → (tget {} t x : LinkSt).muted = true := by
    intro x h1 h2
    apply g1
    rw [← hl]
    exact List.mem_filter.mpr ⟨List.mem_range.mpr h1, h2⟩
  by_cases hb : 3 ≤ c.twin.badSnaps + 1
  · rw [if_pos hb]
    obtain ⟨u, h, q, x, w, e2⟩ := unsyncCause_only 3 { c with links := t, twin := { c.twin with
      counters := tmod 0 c.twin.counters 12 (· + 1), badSnaps := 0, silent := true } }
    dsimp only at e2 ⊢
    rw [e2]
    exact ⟨t, u, h, q, x, w, rfl, g, fun k => by omega⟩
  · rw [if_neg hb]
    exact ⟨t, _, _, _, _, _, rfl, g, fun _ => ⟨rfl, rfl⟩⟩

end Sys2Proof.Machine
end

