-- ==== Sys2Proof/Laws/Cams.lean ====
section
/-! SUPPORT. The cam cache: how operations that wait for a page end, how a page-in fails, and how a page serves (R188 to R192). -/

namespace Sys2Proof.Machine

theorem finish_done (k st d r0 r1 : Nat) (c : Core) (h : ∀ x, slotAt c k = some x → x.done ≠ none) : finish k st d r0 r1 c = c := by
  unfold finish
  cases hs : slotAt c k with
  | none => rfl
  | some x =>
    dsimp only
    have := h x hs
    cases hd : x.done with
    | none => exact absurd hd this
    | some e => rfl

/-- An ended operation stays ended, with its results, through other ends. -/
theorem ended_finish (j k st d r0 r1 st' d' r0' r1' : Nat) (c : Core) (h : Ended j st d r0 r1 c) : Ended j st d r0 r1 (finish k st' d' r0' r1' c) := by
  by_cases hj : j = k
  · subst hj
    rw [finish_done]
    · exact h
    · intro x hx
      obtain ⟨y, e, h1, h2, _⟩ := h
      rw [h1] at hx
      cases hx
      rw [h2]; simp
  · obtain ⟨y, e, h1, h2⟩ := h
    exact ⟨y, e, (finish_other _ _ _ _ _ _ _ hj).trans h1, h2⟩

/-- The ends of the operations that wait. -/
theorem ends_fold (st d r0 : Nat) (l : List (Nat × Nat)) (c : Core) :
    let r := l.foldl (fun c e => finish e.1 st d r0 (pins c) c) c
    (∃ h n, r = { c with host := { c.host with slots := h, finished := n } }) ∧
    (∀ j, (∀ e ∈ l, e.1 ≠ j) → slotAt r j = slotAt c j) ∧
    (∀ j e q0 q1 a b, Ended j a b q0 q1 c → e = r → Ended j a b q0 q1 e) ∧
    ∀ j y, (∃ e ∈ l, e.1 = j) → j < 512 → slotAt c j = some y → y.done = none → Ended j st d r0 (pins c) r := by
  induction l generalizing c with
  | nil => exact ⟨⟨_, _, rfl⟩, fun _ _ => rfl, fun j e q0 q1 a b h he => by rw [he]; exact h, fun j y ⟨e, he, _⟩ => by cases he⟩
  | cons a r ih =>
    dsimp only
    rw [List.foldl_cons]
    obtain ⟨h, n, e1⟩ := finish_host a.1 st d r0 (pins c) c
    have hp : pins (finish a.1 st d r0 (pins c) c) = pins c := by rw [e1]; rfl
    obtain ⟨⟨h2, n2, e2⟩, i1, i2, i3⟩ := ih (finish a.1 st d r0 (pins c) c)
    rw [hp] at i3
    refine ⟨⟨h2, n2, by rw [e2, e1]⟩, fun j hj => ?_, fun j e q0 q1 a' b' he heq => ?_, fun j y hj hlt hy hd => ?_⟩
    · rw [i1 j (fun e he => hj e (List.mem_cons_of_mem _ he))]
      exact finish_other _ _ _ _ _ _ _ (Ne.symm (hj a (List.mem_cons_self ..)))
    · exact i2 j e q0 q1 a' b' (ended_finish _ _ _ _ _ _ _ _ _ _ _ he) heq
    · by_cases hja : j = a.1
      · subst hja
        exact i2 a.1 _ r0 (pins c) st d (finish_ends a.1 st d r0 (pins c) c y hy hd hlt) rfl
      · refine i3 j y ?_ hlt ((finish_other _ _ _ _ _ _ _ hja).trans hy) hd
        obtain ⟨e, he, he1⟩ := hj
        rcases List.mem_cons.mp he with h | h
        · exact absurd (by rw [← he1, h]) hja
        · exact ⟨e, h, he1⟩

theorem chAt_camRefuse (q id p : Nat) (c : Core) : chAt (camRefuse q id c) p =
    if q = p then { chAt c p with camFault := (chAt c p).camFault || (chAt c p).camTable == some id } else chAt c p := by
  unfold camRefuse chAt
  dsimp only
  rw [tget_tmod]
  by_cases hq : q = p
  · rw [if_pos hq, if_pos hq]
    subst hq
    by_cases h : (tget {} c.seq.channels q : ChannelSt).camTable = some id
    · rw [if_pos h, h]; simp
    · rw [if_neg h, show ((tget {} c.seq.channels q : ChannelSt).camTable == some id) = false by simpa using h, Bool.or_false]
  · rw [if_neg hq, if_neg hq]

/-- CAM_FAULT at the channels whose latest request named the table (R148, R191). -/
theorem refuse_fold (id : Nat) (l : List Nat) (c : Core) (hl : l.Nodup) :
    let r := l.foldl (fun c p => camRefuse p id c) c
    (∃ t u, r = { c with seq := { c.seq with channels := t, masters := u } }) ∧
    (∀ p, chAt r p = if p ∈ l then { chAt c p with camFault := (chAt c p).camFault || (chAt c p).camTable == some id } else chAt c p) := by
  induction l generalizing c with
  | nil => exact ⟨⟨_, _, rfl⟩, fun p => by rw [if_neg (by simp)]; rfl⟩
  | cons a r ih =>
    obtain ⟨ha, hr⟩ := List.nodup_cons.mp hl
    dsimp only
    rw [List.foldl_cons]
    obtain ⟨⟨t, u, e⟩, i⟩ := ih (camRefuse a id c) hr
    dsimp only at e i
    refine ⟨⟨t, u, e⟩, fun p => (i p).trans ?_⟩
    rw [chAt_camRefuse]
    by_cases hp : p ∈ r
    · rw [if_pos hp, if_pos (List.mem_cons_of_mem _ hp), if_neg (fun q : a = p => ha (q ▸ hp))]
    · rw [if_neg hp]
      by_cases q : a = p
      · rw [if_pos q, if_pos (by rw [← q]; exact List.mem_cons_self ..)]
      · rw [if_neg q, if_neg (by simp [hp, Ne.symm q])]

/-- The channels learn of the one page-in that has failed (R148, R191). -/
theorem camVerdicts_one (id : Nat) (c : Core) (h1 : c.cam.failed = [id]) (h2 : pageOf c id = none) :
    (∀ p, p < 12 → chAt (camVerdicts c) p = { chAt c p with camFault := (chAt c p).camFault || (chAt c p).camTable == some id }) ∧
    (camVerdicts c).cam = { c.cam with failed := [] } := by
  have e : camVerdicts c = (List.range 12).foldl (fun c p => camRefuse p id c) { c with cam := { c.cam with failed := [] } } := by
    unfold camVerdicts
    rw [h1, List.filter_cons, if_pos (by rw [h2]; rfl), List.filter_nil, List.foldl_cons, List.foldl_nil]
  obtain ⟨⟨t, u, e2⟩, i⟩ := refuse_fold id (List.range 12) { c with cam := { c.cam with failed := [] } } List.nodup_range
  dsimp only at e2 i
  rw [e]
  refine ⟨fun p hp => (i p).trans ?_, by rw [e2]⟩
  rw [if_pos (List.mem_range.mpr hp)]
  rfl

theorem camFail_tail (id reason : Nat) (c : Core) : ∃ c1, camFail id reason c = camTell id reason c1 ∧
    c1 = { c with cam := { c.cam with pages := c1.cam.pages, cur := none, retry := c1.cam.retry } } ∧
        (∀ w, c.cam.cur = some w → c1.cam.pages = tset {} c.cam.pages w.2.1 {} ∧ c1.cam.retry = false) ∧
        (c.cam.cur = none → c1.cam.pages = c.cam.pages ∧ c1.cam.retry = c.cam.retry) := by
  refine ⟨camDrop c, rfl, ?_⟩
  unfold camDrop
  cases h : c.cam.cur with
  | none => exact ⟨by dsimp only; rw [← h], (fun w q => by cases q), fun _ => ⟨rfl, rfl⟩⟩
  | some w =>
    obtain ⟨i, p, n, a⟩ := w
    exact ⟨rfl, (fun w q => by cases q; exact ⟨rfl, rfl⟩), (fun q => by cases q)⟩

theorem camFail_facts (id reason : Nat) (c : Core) :
    let t := camFail id reason c
    let r := camStatus reason
    (∀ j y, (j, id) ∈ c.cam.waits → j < 512 → slotAt c j = some y → y.done = none → Ended j r.1 r.2 0 (pins t) t) ∧
    (∀ j, (j, id) ∉ c.cam.waits → slotAt t j = slotAt c j) ∧
    (∀ w, c.cam.cur = some w → t.cam.pages = tset {} c.cam.pages w.2.1 {} ∧ t.cam.retry = false) ∧
    (c.cam.cur = none → t.cam.pages = c.cam.pages ∧ t.cam.retry = c.cam.retry) ∧
    t = { c with
      recd := t.recd
      host := { c.host with slots := t.host.slots, finished := t.host.finished }
      cam := { c.cam with
        pages := t.cam.pages, cur := none, retry := t.cam.retry, queue := c.cam.queue.filter (fun e => e.1 != id)
        waits := c.cam.waits.filter (fun e => e.2 != id), failed := c.cam.failed ++ [id] } } := by
  dsimp only
  obtain ⟨c1, h1, k1, k2, k3⟩ := camFail_tail id reason c
  rw [h1]
  unfold camTell
  obtain ⟨c2, e2⟩ : ∃ c2 : Core, { c1 with cam := { c1.cam with queue := c1.cam.queue.filter (fun e => e.1 != id), failed := c1.cam.failed ++ [id] } } = c2 := ⟨_, rfl⟩
  rw [e2]
  dsimp only
  obtain ⟨c3, h3, u, e3⟩ : ∃ c3, (if ((List.range 12).any fun p => (tget {} c2.seq.channels p : ChannelSt).camSlow == some id && (tget {} c2.seq.channels p : ChannelSt).camMove != some id) = true then event 0x030 0x04 [id, reason] c2 else c2) = c3 ∧ ∃ u, c3 = { c2 with recd := u } := by
    refine ⟨_, rfl, ?_⟩
    split
    · exact event_only _ _ _ _
    · exact ⟨c2.recd, rfl⟩
  rw [h3]
  obtain ⟨⟨hs, n, e4⟩, i1, _, i3⟩ := ends_fold (camStatus reason).1 (camStatus reason).2 0 (c3.cam.waits.filter fun e => e.2 == id) { c3 with cam := { c3.cam with waits := c3.cam.waits.filter fun e => e.2 != id } }
  dsimp only at e4 i1 i3
  generalize (c3.cam.waits.filter fun e => e.2 == id).foldl (fun c e => finish e.1 (camStatus reason).1 (camStatus reason).2 0 (pins c) c) { c3 with cam := { c3.cam with waits := c3.cam.waits.filter fun e => e.2 != id } } = t at e4 i1 i3 ⊢
  have hw : c3.cam.waits = c.cam.waits := by rw [e3, ← e2, k1]
  have hsl : ∀ j, slotAt { c3 with cam := { c3.cam with waits := c3.cam.waits.filter fun e => e.2 != id } } j = slotAt c j := by
    intro j; rw [e3, ← e2, k1]; rfl
  have hpi : pins t = pins { c3 with cam := { c3.cam with waits := c3.cam.waits.filter fun e => e.2 != id } } := by rw [e4]; rfl
  refine ⟨fun j y hj hlt hy hd => ?_, fun j hj => ?_, fun w hcur => ?_, fun hcur => ?_, ?_⟩
  · rw [hpi]
    refine i3 j y ⟨(j, id), ?_, rfl⟩ hlt ((hsl j).trans hy) hd
    rw [hw]
    exact List.mem_filter.mpr ⟨hj, by simp⟩
  · refine (i1 j ?_).trans (hsl j)
    intro e he hej
    rw [hw] at he
    obtain ⟨a, b⟩ := List.mem_filter.mp he
    apply hj
    have : e = (j, id) := by
      obtain ⟨x, y⟩ := e
      simp only [beq_iff_eq] at b hej
      rw [hej, b]
    rw [← this]; exact a
  · have := k2 w hcur
    rw [e4, e3, ← e2]
    exact this
  · have := k3 hcur
    rw [e4, e3, ← e2]
    exact this
  · rw [e4, e3, ← e2]
    generalize c1.cam.pages = pg at *
    generalize c1.cam.retry = rt at *
    rw [k1]

theorem pagerRun_empty (c : Core) (h : c.cam.queue = []) : pagerRun c = c := by
  unfold pagerRun
  rw [h]
  show pagerStep c = c
  unfold pagerStep nextPageIn
  split
  · rfl
  · rw [h]; rfl

theorem pagerRun_busy (c : Core) (h : c.cam.cur ≠ none) : pagerRun c = c := by
  unfold pagerRun
  have : pagerStep c = c := by
    unfold pagerStep
    rw [if_pos (Option.isSome_iff_ne_none.mpr h)]
  generalize List.range _ = l
  induction l with
  | nil => rfl
  | cons a r ih => rw [List.foldl_cons, this, ih]

theorem finish_desc (k st d r0 r1 j : Nat) (c : Core) (z : SlotSt) (h : slotAt (finish k st d r0 r1 c) j = some z) :
    ∃ y, slotAt c j = some y ∧ z.desc = y.desc := by
  by_cases hj : j = k
  · subst hj
    unfold finish at h
    cases hs : slotAt c j with
    | none => rw [hs] at h; dsimp only at h; rw [hs] at h; cases h
    | some y =>
      rw [hs] at h
      dsimp only at h
      split at h
      · rw [hs] at h; cases h; exact ⟨_, rfl, rfl⟩
      · split at h
        · rw [slotAt_setSlot, if_pos rfl] at h; cases h
        · rw [slotAt_setSlot, if_pos rfl] at h
          cases h
          exact ⟨_, rfl, rfl⟩
  · rw [finish_other _ _ _ _ _ _ _ hj] at h
    exact ⟨z, h, rfl⟩

def serveStep (page : Nat) (c : Core) (e : Nat × Nat) : Core := match slotAt c e.1 with
  | some x => camHit e.1 page (slotOp x == 0x24) c
  | none => c

theorem camServe_eq (id page : Nat) (c : Core) : camServe id page c =
    (c.cam.waits.filter fun e => e.2 == id).foldl (serveStep page) { c with cam := { c.cam with waits := c.cam.waits.filter fun e => e.2 != id } } := rfl

theorem camHit_plain (k page : Nat) (c : Core) (pin : Bool)
    (h : pin = false ∨ (tget {} c.cam.pages page : PageSt).pinned = true ∨ (tget {} c.cam.pages page : PageSt).state = 3) :
    camHit k page pin c = finish k 0x00 0 page (pins c) c := by
  unfold camHit
  dsimp only
  rw [if_neg]
  rcases h with h | h | h <;> rw [h] <;> simp

theorem camHit_pin (k page : Nat) (c : Core) (h1 : (tget {} c.cam.pages page : PageSt).pinned = false) (h2 : (tget {} c.cam.pages page : PageSt).state ≠ 3) :
    camHit k page true c = if 7 ≤ pins c then finish k 0x12 0x28 0 (pins c) c
      else finish k 0x00 0 page (pins (setPage page { (tget {} c.cam.pages page : PageSt) with pinned := true } c)) (setPage page { (tget {} c.cam.pages page : PageSt) with pinned := true } c) := by
  unfold camHit
  dsimp only
  rw [if_pos]
  simp [h1, h2]

theorem serve_plain (page : Nat) (l : List (Nat × Nat)) (c : Core) (h : ∀ e ∈ l, ∀ y, slotAt c e.1 = some y → slotOp y ≠ 0x24) :
    l.foldl (serveStep page) c = l.foldl (fun c e => finish e.1 0x00 0 page (pins c) c) c := by
  induction l generalizing c with
  | nil => rfl
  | cons a r ih =>
    rw [List.foldl_cons, List.foldl_cons]
    have e1 : serveStep page c a = finish a.1 0x00 0 page (pins c) c := by
      unfold serveStep
      cases hs : slotAt c a.1 with
      | none =>
        dsimp only
        rw [finish_done]
        intro x hx; rw [hs] at hx; cases hx
      | some y =>
        dsimp only
        refine camHit_plain _ _ _ _ (.inl ?_)
        have := h a (List.mem_cons_self ..) y hs
        simpa using this
    rw [e1]
    refine ih _ (fun e he y hy => ?_)
    obtain ⟨w, h1, h2⟩ := finish_desc _ _ _ _ _ _ _ _ hy
    have := h e (List.mem_cons_of_mem _ he) w h1
    unfold slotOp at *
    rw [h2]; exact this

/-- A page serves the operations that wait for its table. -/
theorem camServe_facts (id page : Nat) (c : Core) :
    let t := camServe id page c
    let g : PageSt := tget {} c.cam.pages page
    (∀ j, (j, id) ∉ c.cam.waits → slotAt t j = slotAt c j) ∧
    (∀ q, q ≠ page → (tget {} t.cam.pages q : PageSt) = tget {} c.cam.pages q) ∧
    (tget {} t.cam.pages page : PageSt) = { g with pinned := (tget {} t.cam.pages page : PageSt).pinned } ∧
    ((∀ e ∈ c.cam.waits, e.2 = id → ∀ y, slotAt c e.1 = some y → slotOp y ≠ 0x24) → (tget {} t.cam.pages page : PageSt).pinned = g.pinned ∧
      ∀ j y, (j, id) ∈ c.cam.waits → j < 512 → slotAt c j = some y → y.done = none → Ended j 0x00 0 page (pins t) t) ∧
    (∀ j y, c.cam.waits.filter (fun e => e.2 == id) = [(j, id)] → j < 512 → slotAt c j = some y → y.done = none → slotOp y = 0x24 →
      ((g.pinned = true ∨ g.state = 3) → (tget {} t.cam.pages page : PageSt).pinned = g.pinned ∧ Ended j 0x00 0 page (pins t) t) ∧
      (g.pinned = false → g.state ≠ 3 → ((tget {} t.cam.pages page : PageSt).pinned = true ∧ Ended j 0x00 0 page (pins t) t) ∨
        ((tget {} t.cam.pages page : PageSt).pinned = false ∧ 7 ≤ pins t ∧ Ended j 0x12 0x28 0 (pins t) t))) ∧
    t = { c with
      host := { c.host with slots := t.host.slots, finished := t.host.finished }
      cam := { c.cam with pages := t.cam.pages, waits := c.cam.waits.filter fun e => e.2 != id } } := by
  intro t g
  have ht : t = _ := camServe_eq id page c
  obtain ⟨c0, h0⟩ : ∃ c0 : Core, c0 = { c with cam := { c.cam with waits := c.cam.waits.filter fun e => e.2 != id } } := ⟨_, rfl⟩
  rw [← h0] at ht
  have s0 : ∀ j, slotAt c0 j = slotAt c j := by intro j; rw [h0]; rfl
  have p0 : c0.cam.pages = c.cam.pages := by rw [h0]
  -- one step of the fold
  have stepF : ∀ (l : List (Nat × Nat)) (d : Core), (∀ e ∈ l, e.2 = id) → (tget {} d.cam.pages page : PageSt) = { g with pinned := (tget {} d.cam.pages page : PageSt).pinned } →
      let r := l.foldl (serveStep page) d
      (∀ j, (∀ e ∈ l, e.1 ≠ j) → slotAt r j = slotAt d j) ∧ (∀ q, q ≠ page → (tget {} r.cam.pages q : PageSt) = tget {} d.cam.pages q) ∧
      (tget {} r.cam.pages page : PageSt) = { g with pinned := (tget {} r.cam.pages page : PageSt).pinned } ∧
      r = { d with host := { d.host with slots := r.host.slots, finished := r.host.finished }, cam := { d.cam with pages := r.cam.pages } } := by
    intro l
    induction l with
    | nil => exact fun d _ h => ⟨fun _ _ => rfl, fun _ _ => rfl, h, rfl⟩
    | cons a r ih =>
      intro d hl hg
      have one : (∀ j, a.1 ≠ j → slotAt (serveStep page d a) j = slotAt d j) ∧ (∀ q, q ≠ page → (tget {} (serveStep page d a).cam.pages q : PageSt) = tget {} d.cam.pages q) ∧
          (tget {} (serveStep page d a).cam.pages page : PageSt) = { g with pinned := (tget {} (serveStep page d a).cam.pages page : PageSt).pinned } ∧
          serveStep page d a = { d with host := { d.host with slots := (serveStep page d a).host.slots, finished := (serveStep page d a).host.finished }, cam := { d.cam with pages := (serveStep page d a).cam.pages } } := by
        have fin : ∀ (st dt r0 r1 : Nat) (e : Core), (tget {} e.cam.pages page : PageSt) = { g with pinned := (tget {} e.cam.pages page : PageSt).pinned } →
            (∀ j, slotAt e j = slotAt d j) → (∀ q, q ≠ page → (tget {} e.cam.pages q : PageSt) = tget {} d.cam.pages q) →
            e = { d with cam := { d.cam with pages := e.cam.pages } } →
            (∀ j, a.1 ≠ j → slotAt (finish a.1 st dt r0 r1 e) j = slotAt d j) ∧ (∀ q, q ≠ page → (tget {} (finish a.1 st dt r0 r1 e).cam.pages q : PageSt) = tget {} d.cam.pages q) ∧
            (tget {} (finish a.1 st dt r0 r1 e).cam.pages page : PageSt) = { g with pinned := (tget {} (finish a.1 st dt r0 r1 e).cam.pages page : PageSt).pinned } ∧
            finish a.1 st dt r0 r1 e = { d with host := { d.host with slots := (finish a.1 st dt r0 r1 e).host.slots, finished := (finish a.1 st dt r0 r1 e).host.finished }, cam := { d.cam with pages := (finish a.1 st dt r0 r1 e).cam.pages } } := by
          intro st dt r0 r1 e q1 q2 q3 q4
          obtain ⟨h, n, e1⟩ := finish_host a.1 st dt r0 r1 e
          have ec : (finish a.1 st dt r0 r1 e).cam = e.cam := by rw [e1]
          refine ⟨fun j hj => (finish_other _ _ _ _ _ _ _ (Ne.symm hj)).trans (q2 j), fun q hq => by rw [ec]; exact q3 q hq, by rw [ec]; exact q1, ?_⟩
          rw [e1]
          dsimp only
          generalize e.cam.pages = pp at *
          rw [q4]
        unfold serveStep
        cases hs : slotAt d a.1 with
        | none => exact ⟨fun _ _ => rfl, fun _ _ => rfl, hg, rfl⟩
        | some y =>
          dsimp only
          by_cases hp : (slotOp y == 0x24) = false ∨ (tget {} d.cam.pages page : PageSt).pinned = true ∨ (tget {} d.cam.pages page : PageSt).state = 3
          · rw [camHit_plain _ _ _ _ hp]
            exact fin _ _ _ _ d hg (fun _ => rfl) (fun _ _ => rfl) rfl
          · have hp1 : (slotOp y == 0x24) = true := by
              cases h : (slotOp y == 0x24) with
              | true => rfl
              | false => exact absurd (.inl h) hp
            rw [hp1, camHit_pin _ _ _ (by
              cases h : (tget {} d.cam.pages page : PageSt).pinned with
              | false => rfl
              | true => exact absurd (.inr (.inl h)) hp) (fun h => hp (.inr (.inr h)))]
            by_cases h7 : 7 ≤ pins d
            · rw [if_pos h7]
              exact fin _ _ _ _ d hg (fun _ => rfl) (fun _ _ => rfl) rfl
            · rw [if_neg h7]
              refine fin _ _ _ _ _ ?_ (fun _ => rfl) ?_ rfl
              · unfold setPage
                dsimp only
                rw [tget_tset, if_pos rfl, hg]
              · intro q hq
                unfold setPage
                dsimp only
                rw [tget_tset, if_neg (Ne.symm hq)]
      dsimp only
      rw [List.foldl_cons]
      obtain ⟨o1, o2, o3, o4⟩ := one
      obtain ⟨m1, m2, m3, m4⟩ := ih (serveStep page d a) (fun e he => hl e (List.mem_cons_of_mem _ he)) o3
      dsimp only at m1 m2 m3 m4
      refine ⟨fun j hj => (m1 j (fun e he => hj e (List.mem_cons_of_mem _ he))).trans (o1 j (hj a (List.mem_cons_self ..))), fun q hq => (m2 q hq).trans (o2 q hq), m3, ?_⟩
      generalize r.foldl (serveStep page) (serveStep page d a) = z at *
      generalize serveStep page d a = w at *
      rw [m4]
      generalize z.cam.pages = zp at *
      generalize z.host.slots = zs at *
      generalize z.host.finished = zf at *
      rw [o4]
  obtain ⟨F1, F2, F3, F4⟩ := stepF (c.cam.waits.filter fun e => e.2 == id) c0 (fun e he => by simpa using (List.mem_filter.mp he).2) (by rw [p0])
  dsimp only at F1 F2 F3 F4
  rw [← ht] at F1 F2 F3 F4
  refine ⟨fun j hj => (F1 j ?_).trans (s0 j), fun q hq => by rw [F2 q hq, p0], F3, fun hpl => ?_, fun j y hw hlt hy hd ho => ?_, ?_⟩
  · intro e he hej
    obtain ⟨a, b⟩ := List.mem_filter.mp he
    apply hj
    have : e = (j, id) := by
      obtain ⟨x, y⟩ := e
      simp only [beq_iff_eq] at b hej
      rw [hej, b]
    rw [← this]; exact a
  · have e1 := serve_plain page (c.cam.waits.filter fun e => e.2 == id) c0 (fun e he y hy => by
      obtain ⟨a, b⟩ := List.mem_filter.mp he
      exact hpl e a (by simpa using b) y ((s0 _).symm.trans hy))
    rw [← ht] at e1
    obtain ⟨⟨h, n, e2⟩, i1, _, i3⟩ := ends_fold 0x00 0 page (c.cam.waits.filter fun e => e.2 == id) c0
    dsimp only at e2 i1 i3
    rw [← e1] at e2 i1 i3
    have hpg : t.cam.pages = c.cam.pages := by rw [e2]; exact p0
    have hpn : pins t = pins c0 := by unfold pins; rw [hpg, p0]
    refine ⟨by rw [hpg], fun j y hj hlt hy hd => ?_⟩
    rw [hpn]
    exact i3 j y ⟨(j, id), List.mem_filter.mpr ⟨hj, by simp⟩, rfl⟩ hlt ((s0 j).trans hy) hd
  · rw [hw] at ht
    have e1 : t = camHit j page true c0 := by
      rw [ht]
      show serveStep page c0 (j, id) = _
      unfold serveStep
      rw [s0, hy]
      dsimp only
      rw [ho]
      rfl
    refine ⟨fun hg => ?_, fun h1 h2 => ?_⟩
    · rw [camHit_plain _ _ _ _ (.inr (by rw [p0]; exact hg))] at e1
      obtain ⟨h, n, e2⟩ := finish_host j 0x00 0 page (pins c0) c0
      have hpg : t.cam.pages = c.cam.pages := by rw [e1, e2]; exact p0
      have hpn : pins t = pins c0 := by unfold pins; rw [hpg, p0]
      refine ⟨by rw [hpg], ?_⟩
      rw [hpn, e1]
      exact finish_ends j _ _ _ _ c0 y ((s0 j).trans hy) hd hlt
    · rw [camHit_pin _ _ _ (by rw [p0]; exact h1) (by rw [p0]; exact h2)] at e1
      by_cases h7 : 7 ≤ pins c0
      · rw [if_pos h7] at e1
        obtain ⟨h, n, e2⟩ := finish_host j 0x12 0x28 0 (pins c0) c0
        have hpg : t.cam.pages = c.cam.pages := by rw [e1, e2]; exact p0
        have hpn : pins t = pins c0 := by unfold pins; rw [hpg, p0]
        refine .inr ⟨by rw [hpg]; exact h1, by rw [hpn]; exact h7, ?_⟩
        rw [hpn, e1]
        exact finish_ends j _ _ _ _ c0 y ((s0 j).trans hy) hd hlt
      · rw [if_neg h7] at e1
        obtain ⟨c9, h9⟩ : ∃ c9, c9 = setPage page { (tget {} c0.cam.pages page : PageSt) with pinned := true } c0 := ⟨_, rfl⟩
        rw [← h9] at e1
        obtain ⟨h, n, e2⟩ := finish_host j 0x00 0 page (pins c9) c9
        have hpg : t.cam.pages = c9.cam.pages := by rw [e1, e2]
        have hpn : pins t = pins c9 := by unfold pins; rw [hpg]
        refine .inl ⟨?_, ?_⟩
        · rw [hpg, h9]
          unfold setPage
          dsimp only
          rw [tget_tset, if_pos rfl]
        · rw [hpn, e1]
          refine finish_ends j _ _ _ _ c9 y ?_ hd hlt
          rw [h9]
          exact (s0 j).trans hy
  · rw [F4]
    generalize t.cam.pages = tp at *
    generalize t.host.slots = ts at *
    generalize t.host.finished = tf at *
    rw [h0]

/-- A read over the port changes nothing but what left the chip (R72). -/
theorem hostReads_only (a n : Nat) (c : Core) : ∃ o, hostReads a n c = { c with out := o } := by
  unfold hostReads
  dsimp only
  generalize max 1 (readMax c) = m
  generalize List.range ((n + m - 1) / m) = l
  induction l generalizing c with
  | nil => exact ⟨_, rfl⟩
  | cons e l ih => exact (ih (emit (.hostRead (a + m * e) (min m (n - m * e))) c)).imp fun _ h => h

/-- What a supply does to one channel. -/
theorem supplied_fold (id p : Nat) (l : List Nat) (t : Table ChannelSt) (hn : l.Nodup) :
    tget {} (l.foldl (fun t p => tmod {} t p fun h : ChannelSt =>
      if h.camTable = some id && !h.camRefused then { h with camFault := false } else h) t) p =
      if p ∈ l ∧ (tget {} t p).camTable = some id ∧ (tget {} t p).camRefused = false then
        { tget {} t p with camFault := false } else tget {} t p := by
  induction l generalizing t with
  | nil => rw [if_neg (by simp)]; rfl
  | cons a l ih =>
    obtain ⟨h1, h2⟩ := List.nodup_cons.mp hn
    rw [List.foldl_cons, ih _ h2, tget_tmod]
    by_cases ha : a = p
    · subst ha
      rw [if_neg (fun q => h1 q.1), if_pos rfl]
      generalize tget {} t a = h
      by_cases hc : h.camTable = some id ∧ h.camRefused = false
      · rw [if_pos (by simp [hc.1, hc.2]), if_pos ⟨List.mem_cons_self .., hc⟩]
      · rw [if_neg (by simpa using hc), if_neg (fun q => hc q.2)]
    · rw [if_neg ha]
      have : p ∈ a :: l ↔ p ∈ l := by simp [Ne.symm ha]
      simp only [this]

/-- A table that has been supplied ends CAM_FAULT in the portals that name it, and changes nothing else (R136, R191). -/
theorem camSupplied_spec (id : Nat) (c : Core) : (∃ t, camSupplied id c = { c with seq := { c.seq with channels := t } }) ∧
    ∀ p, chAt (camSupplied id c) p = if p < 12 ∧ (chAt c p).camTable = some id ∧ (chAt c p).camRefused = false then
      { chAt c p with camFault := false } else chAt c p := by
  refine ⟨⟨_, rfl⟩, fun p => ?_⟩
  have hm : p ∈ List.range 12 ↔ p < 12 := List.mem_range
  have := supplied_fold id p (List.range 12) c.seq.channels List.nodup_range
  unfold camSupplied chAt
  generalize List.range 12 = l at this hm ⊢
  dsimp only
  rw [this]
  simp only [hm]

/-- A request of one portal for a table whose page-in failed waits no longer, unless its age counts already (R148, R191). -/
theorem msAt_camRefuse (q id p : Nat) (c : Core) : msAt (camRefuse q id c) p =
    if q = p then { msAt c p with waiting := (msAt c p).waiting.filter fun r => r.manual.isSome || r.age.isSome || r.table != id } else msAt c p := by
  unfold camRefuse msAt
  dsimp only
  rw [tget_tmod]
  by_cases hq : q = p
  · rw [if_pos hq, if_pos hq]
    subst hq; rfl
  · rw [if_neg hq, if_neg hq]

/-- The same over the portals: what waits no longer does not wait again. -/
theorem refuse_waiting (id p : Nat) (l : List Nat) (c : Core) (hp : p ∈ l)
    (h : ∀ r, (msAt c p).waiting = some r → r.manual = none ∧ r.age = none ∧ r.table = id) :
    (msAt (l.foldl (fun c p => camRefuse p id c) c) p).waiting = none := by
  have gone : ∀ (l : List Nat) (c : Core), (msAt c p).waiting = none → (msAt (l.foldl (fun c p => camRefuse p id c) c) p).waiting = none := by
    intro l
    induction l with
    | nil => exact fun _ h => h
    | cons a l ih =>
      intro c h
      refine ih _ ?_
      rw [msAt_camRefuse]
      split
      · dsimp only; rw [h]; rfl
      · exact h
  induction l generalizing c with
  | nil => cases hp
  | cons a l ih =>
    rw [List.foldl_cons]
    by_cases ha : a = p
    · refine gone l _ ?_
      rw [msAt_camRefuse, if_pos ha]
      dsimp only
      cases hw : (msAt c p).waiting with
      | none => rfl
      | some r =>
        obtain ⟨h1, h2, h3⟩ := h r hw
        rw [Option.filter_some, if_neg (by simp [h1, h2, h3])]
    · refine ih _ ((List.mem_cons.mp hp).resolve_left (Ne.symm ha)) ?_
      rw [msAt_camRefuse, if_neg ha]
      exact h

end Sys2Proof.Machine
end

