-- ==== Sys2Proof/Laws/Tick.lean ====
section
/-! SUPPORT. What a safety tick leaves of an island's gates: its parameters, and what holds its switches open. -/

namespace Sys2Proof.Machine

/-! ### Bits from a predicate -/

theorem natBy_succ (n : Nat) (f : Nat → Bool) : natBy (n + 1) f = 2 ^ n * b2n (f n) + natBy n f := by
  unfold natBy
  rw [List.range_succ, List.foldl_append, List.foldl_cons, List.foldl_nil, Nat.mul_comm (2 ^ n), Nat.add_comm]

theorem b2n_le (b : Bool) : b2n b ≤ 1 := by cases b <;> decide

theorem natBy_lt (n : Nat) (f : Nat → Bool) : natBy n f < 2 ^ n := by
  induction n with
  | zero => exact Nat.one_pos
  | succ n ih =>
    rw [natBy_succ, Nat.pow_succ]
    have := Nat.mul_le_mul_left (2 ^ n) (b2n_le (f n))
    omega

/-- Bit `k` of the number that `natBy` builds. -/
theorem natBy_bit (n : Nat) (f : Nat → Bool) (k : Nat) : (natBy n f).testBit k = (decide (k < n) && f k) := by
  induction n with
  | zero => unfold natBy; simp
  | succ n ih =>
    rw [natBy_succ, Nat.testBit_two_pow_mul_add _ (natBy_lt n f)]
    by_cases h : k < n
    · rw [if_pos h, ih]
      simp [h, Nat.lt_succ_of_lt h]
    · rw [if_neg h]
      by_cases e : k = n
      · subst e
        rw [Nat.sub_self]
        cases f k <;> simp [b2n]
      · have h1 : ¬ k < n + 1 := by omega
        obtain ⟨d, hd⟩ : ∃ d, k - n = d + 1 := ⟨k - n - 1, by omega⟩
        rw [hd]
        cases f n <;> simp [h1, b2n, Nat.testBit_succ]

/-- Bit `k` of `bitsBy`. -/
theorem bitsBy_bit (n : Nat) (f : Nat → Bool) (k : Nat) : (bitsBy n f).getLsbD k = (decide (k < n) && f k) := by
  have h : bitsBy n f = BitVec.ofNat n (natBy n f) := rfl
  rw [h, BitVec.getLsbD_ofNat, natBy_bit]
  cases decide (k < n) <;> simp

/-! ### The gates of an island -/

/-- `j` has the tick count, the parameters and the gates of `i`. -/
structure SameGates (i j : IslSt) : Prop where
  tick : j.tick = i.tick
  params : j.params = i.params
  held : j.heldOpen = i.heldOpen
  mute : j.mute = i.mute
  vso : j.vsoLow = i.vsoLow
  mode : j.mode = i.mode

theorem SameGates.refl (i : IslSt) : SameGates i i := ⟨rfl, rfl, rfl, rfl, rfl, rfl⟩

theorem SameGates.trans {i j k : IslSt} (a : SameGates i j) (b : SameGates j k) : SameGates i k :=
  ⟨b.tick.trans a.tick, b.params.trans a.params, b.held.trans a.held, b.mute.trans a.mute, b.vso.trans a.vso, b.mode.trans a.mode⟩

theorem gates_ite {i j k : IslSt} (p : Prop) [Decidable p] (a : SameGates i j) (b : SameGates i k) : SameGates i (if p then j else k) := by
  split <;> assumption

theorem gates_step (f : IslSt → IslSt) (hf : ∀ i, SameGates i (f i)) (i : IslSt) (p : Prop) [Decidable p] :
    SameGates i (if p then f i else i) := by split; exact hf i; exact .refl i

theorem gates_fold {α : Type} (f : IslSt → α → IslSt) (hf : ∀ i a, SameGates i (f i a)) (l : List α) (i : IslSt) :
    SameGates i (l.foldl f i) := by
  induction l generalizing i with
  | nil => exact .refl i
  | cons a r ih => exact (hf i a).trans (ih _)

theorem gates_foldPair {α β : Type} (f : IslSt × β → α → IslSt × β) (hf : ∀ r a, SameGates r.1 (f r a).1) (l : List α) (r : IslSt × β) :
    SameGates r.1 (l.foldl f r).1 := by
  induction l generalizing r with
  | nil => exact .refl _
  | cons a t ih => exact (hf r a).trans (ih _)

theorem islCopy_gates (p : Nat) (l : LatchSt) (i : IslSt) : SameGates i (islCopy p l i) :=
  gates_ite _ (.refl i) ⟨rfl, rfl, rfl, rfl, rfl, rfl⟩

theorem islLatch_gates (p n : Nat) (i : IslSt) : SameGates i (islLatch p n i) := islCopy_gates _ _ i

theorem islDevCopy_gates (l : LatchSt) (i : IslSt) : SameGates i (islDevCopy l i) :=
  gates_ite _ (.refl i) ⟨rfl, rfl, rfl, rfl, rfl, rfl⟩

theorem startStop_gates (p n : Nat) (i : IslSt) : SameGates i (startStop p n i) := by
  unfold startStop; split <;> exact ⟨rfl, rfl, rfl, rfl, rfl, rfl⟩

theorem removeTorque_gates (p : Nat) (i : IslSt) : SameGates i (removeTorque p i) :=
  gates_ite _ ⟨rfl, rfl, rfl, rfl, rfl, rfl⟩ (.refl i)
theorem islClear_gates (p : Nat) (i : IslSt) : SameGates i (islClear p i) := ⟨rfl, rfl, rfl, rfl, rfl, rfl⟩
theorem latchOut_gates (n c : Nat) (i : IslSt) : SameGates i (latchOut n c i) := ⟨rfl, rfl, rfl, rfl, rfl, rfl⟩

theorem pairsStep_gates (i : IslSt) : SameGates i (pairsStep i) :=
  gates_fold pairEval (fun _ _ => ⟨rfl, rfl, rfl, rfl, rfl, rfl⟩) _ i

theorem tickSpeeds_gates (k : Isl) (i : IslSt) : SameGates i (tickSpeeds k i).1 := by
  refine gates_foldPair (speedStep k) (fun r x => ?_) _ (i, [])
  unfold speedStep
  dsimp only
  split
  · refine SameGates.trans ?_ (islLatch_gates _ _ _)
    exact ⟨rfl, rfl, rfl, rfl, rfl, rfl⟩
  · exact ⟨rfl, rfl, rfl, rfl, rfl, rfl⟩

theorem clearCopies_gates (pm im : BitVec 12) (i : IslSt) : SameGates i (clearCopies pm im i) := by
  unfold clearCopies
  have g := gates_fold (fun i p => if pbit pm p then islClear p i else i)
    (fun i p => gates_ite _ (islClear_gates _ _) (.refl i)) (List.range 12) i
  exact ⟨g.tick, g.params, g.held, g.mute, g.vso, g.mode⟩

theorem tickClear_gates (w : Bool) (i : IslSt) : SameGates i (tickClear w i) := by
  unfold tickClear
  split
  · exact gates_ite _ (clearCopies_gates _ _ i) (gates_ite _ ⟨rfl, rfl, rfl, rfl, rfl, rfl⟩ (.refl i))
  · exact .refl i

theorem tickMasks_gates (w : Bool) (i : IslSt) : SameGates i (tickMasks w i) := by
  unfold tickMasks
  refine (tickClear_gates w i).trans ?_
  generalize tickClear w i = j
  have g := gates_fold (fun i p => if pbit j.inLatch p then islCopy p (tget {} i.inCopy p) i else i)
    (fun i p => gates_ite _ (islCopy_gates _ _ _) (.refl i)) (List.range 12) j
  exact ⟨g.tick, g.params, g.held, g.mute, g.vso, g.mode⟩

theorem adoptPortal_gates (w old : XWord) (i : IslSt) (p : Nat) : SameGates i (adoptPortal w old i p) := by
  unfold adoptPortal
  refine SameGates.trans ?_ (gates_step (fun i => islCopy p { tget {} w.copies p with stamp := i.now } i) (fun i => islCopy_gates _ _ i) _ _)
  refine SameGates.trans ?_ (gates_step (fun i => { i with overspd := setBit i.overspd p true }) (fun _ => ⟨rfl, rfl, rfl, rfl, rfl, rfl⟩) _ _)
  refine SameGates.trans ?_ (gates_step (fun i => { i with breach := setBit i.breach p true }) (fun _ => ⟨rfl, rfl, rfl, rfl, rfl, rfl⟩) _ _)
  refine SameGates.trans ?_ (gates_step (fun i => removeTorque p i) (removeTorque_gates p) _ _)
  exact gates_step (fun i => startStop p (tget 0 w.causes p) i) (startStop_gates _ _) i _

theorem adopt_gates (w : XWord) (i : IslSt) : SameGates i (adopt w i) := by
  have a := gates_fold (adoptPair w i.seen) (fun j q => gates_ite _ ⟨rfl, rfl, rfl, rfl, rfl, rfl⟩ (.refl j)) (List.range 72) i
  have b := fun j => gates_fold (adoptPortal w i.seen) (adoptPortal_gates w i.seen) (List.range 12) j
  have c := fun j => gates_fold (adoptOutput w i.seen) (fun j q => gates_ite _ (latchOut_gates _ _ _) (.refl j)) (List.range 16) j
  have d : ∀ j : IslSt, SameGates j { (if w.dev && !i.seen.dev then islDevCopy { w.devCopy with stamp := j.now } j else j) with seen := w } := by
    intro j
    have g : SameGates j (if w.dev && !i.seen.dev then islDevCopy { w.devCopy with stamp := j.now } j else j) :=
      gates_ite _ (islDevCopy_gates _ _) (.refl j)
    exact ⟨g.tick, g.params, g.held, g.mute, g.vso, g.mode⟩
  exact (a.trans ((b _).trans (c _))).trans (d _)

theorem openSwitch_gates (n : Nat) (i : IslSt) : SameGates i (openSwitch n i) := ⟨rfl, rfl, rfl, rfl, rfl, rfl⟩

theorem tickStarts_gates (key : Bool) (i : IslSt) : SameGates i (tickStarts key i) := by
  have g := gates_fold (startCauses key) (fun j p => by
    unfold startCauses
    refine SameGates.trans ?_ (gates_step (startStop p 4) (startStop_gates _ _) _ _)
    refine SameGates.trans ?_ (gates_ite _ (.refl _) (gates_ite _ (startStop_gates _ _ _) (openSwitch_gates _ _)))
    refine SameGates.trans ?_ (gates_step (startStop p 2) (startStop_gates _ _) _ _)
    exact gates_step (startStop p 1) (startStop_gates _ _) j _) (List.range 12) i
  have h := fun j : IslSt => gates_step (islDevCopy j.inDev) (islDevCopy_gates j.inDev) j j.inDev.set
  have k := g.trans (h _)
  exact ⟨k.tick, k.params, k.held, k.mute, k.vso, k.mode⟩

theorem tickSwitch_gates (i : IslSt) : SameGates i (tickSwitch i) := by
  have g := gates_fold switchStep (fun j p => gates_ite _ ⟨rfl, rfl, rfl, rfl, rfl, rfl⟩ (.refl j)) (List.range 12) i
  exact ⟨g.tick, g.params, g.held, g.mute, g.vso, g.mode⟩

theorem tickStops_gates (i : IslSt) : SameGates i (tickStops i).1 := by
  refine SameGates.trans (j := slowTicks i) ⟨rfl, rfl, rfl, rfl, rfl, rfl⟩ (gates_foldPair stopStep (fun r p => ?_) _ (slowTicks i, []))
  unfold stopStep
  dsimp only
  split
  · exact .refl _
  · split
    · exact gates_ite _ ⟨rfl, rfl, rfl, rfl, rfl, rfl⟩ (.refl _)
    · split
      · refine SameGates.trans ?_ (islLatch_gates _ _ _)
        refine SameGates.trans ?_ (removeTorque_gates _ _)
        exact ⟨rfl, rfl, rfl, rfl, rfl, rfl⟩
      · split
        · exact removeTorque_gates _ _
        · exact ⟨rfl, rfl, rfl, rfl, rfl, rfl⟩

theorem tickOver_gates (k : Isl) (o i : IslSt) : SameGates i (tickOver k o i) :=
  gates_fold (overStep k o) (fun _ _ => ⟨rfl, rfl, rfl, rfl, rfl, rfl⟩) _ i

/-- The island whose requests a tick forms has the gates of the island before it, one tick later. -/
theorem evalBefore_gates (k : Isl) (before o : IslSt) (w key : Bool) :
    SameGates { before with tick := before.tick + 1 } (tickOver k o (tickStops (tickSwitch (tickStarts key
      (if o.mute || o.tick = 0 then (tickSpeeds k (tickMasks w (pairsStep (tickFrames before)))).1
        else adopt (wordOf o) (tickSpeeds k (tickMasks w (pairsStep (tickFrames before)))).1)))).1) := by
  have h0 : SameGates { before with tick := before.tick + 1 } (tickFrames before) := ⟨rfl, rfl, rfl, rfl, rfl, rfl⟩
  have h1 := (h0.trans (pairsStep_gates _)).trans ((tickMasks_gates w _).trans (tickSpeeds_gates k _))
  have h2 := h1.trans (gates_ite (o.mute || o.tick = 0) (SameGates.refl _) (adopt_gates (wordOf o) _))
  exact h2.trans ((tickStarts_gates key _).trans ((tickSwitch_gates _).trans ((tickStops_gates _).trans (tickOver_gates k o _))))

theorem tickOutputs_kept (k : Isl) (pads : List PadIn) (o i : IslSt) : SameGates i (tickOutputs k pads o i) := by
  unfold tickOutputs
  have h0 : SameGates i { i with request := bitsBy 16 (wantsClosed i) } := ⟨rfl, rfl, rfl, rfl, rfl, rfl⟩
  exact h0.trans (gates_fold (fun i n => outStep k pads o n i) (fun _ _ => ⟨rfl, rfl, rfl, rfl, rfl, rfl⟩) _ _)

theorem tickPress_gates (w : Bool) (i : IslSt) : SameGates i (tickPress w i) := by
  unfold tickPress
  dsimp only
  split
  · exact .refl i
  · split
    · split
      · exact ⟨rfl, rfl, rfl, rfl, rfl, rfl⟩
      · split <;> exact ⟨rfl, rfl, rfl, rfl, rfl, rfl⟩
    · split <;> exact ⟨rfl, rfl, rfl, rfl, rfl, rfl⟩

theorem tickRole_gates (r : RoleIn) (i : IslSt) : SameGates i (tickRole r i) := ⟨rfl, rfl, rfl, rfl, rfl, rfl⟩

theorem tickDark_gates (k : Isl) (i : IslSt) : SameGates i (tickDark k i) := ⟨rfl, rfl, rfl, rfl, rfl, rfl⟩

theorem noted_gates (i : IslSt) (w : XWord) (r : BitVec 72) (l : List Nat) (d : List IslDue) :
    SameGates i { i with word := w, lastRes := r, disagree := l, due := d } := ⟨rfl, rfl, rfl, rfl, rfl, rfl⟩

/-- What an island's evaluation leaves of its gates: its tick count is one higher. -/
theorem islEval_gates (k : Isl) (pads : List PadIn) (role : RoleIn) (before o : IslSt) :
    SameGates { before with tick := before.tick + 1 } (islEval k pads role before o).1 := by
  unfold islEval
  refine SameGates.trans ?_ (noted_gates _ _ _ _ _)
  refine SameGates.trans ?_ (tickDark_gates _ _)
  refine SameGates.trans ?_ (tickRole_gates _ _)
  refine SameGates.trans ?_ (tickPress_gates _ _)
  refine SameGates.trans ?_ (tickOutputs_kept _ _ _ _)
  exact evalBefore_gates k before o _ _

/-- An output that the island's gates keep open is not requested (R296). -/
def Gated (i : IslSt) : Prop := i.params = none ∨ i.heldOpen = true ∨ i.mute = true ∨ i.vsoLow = true

theorem SameGates.gated {i j : IslSt} (g : SameGates i j) (h : Gated i) : Gated j := by
  rcases h with h | h | h | h
  · exact .inl (g.params.trans h)
  · exact .inr (.inl (g.held.trans h))
  · exact .inr (.inr (.inl (g.mute.trans h)))
  · exact .inr (.inr (.inr (g.vso.trans h)))

theorem gated_wants (i : IslSt) (h : Gated i) (n : Nat) : wantsClosed i n = false := by
  unfold wantsClosed
  rcases h with h | h | h | h <;> simp [h]

theorem outSteps_request (k : Isl) (pads : List PadIn) (o : IslSt) (l : List Nat) (i : IslSt) :
    (l.foldl (fun i n => outStep k pads o n i) i).request = i.request := by
  induction l generalizing i with
  | nil => rfl
  | cons a r ih => exact ih _

/-- An island whose gates keep its outputs open requests none after its tick (R296). -/
theorem islEval_gated (k : Isl) (pads : List PadIn) (role : RoleIn) (before o : IslSt) (h : Gated before) :
    (islEval k pads role before o).1.request = 0 := by
  unfold islEval
  dsimp only
  rw [tickDark_outputs.2, (tickRole_outputs _ _).2, (tickPress_outputs _ _).2]
  generalize pairResult (pairsStep (tickFrames before)) _ = w
  generalize (_ && !w && _) = key
  have g := evalBefore_gates k before o w key
  revert g
  generalize tickOver k o _ = j
  intro g
  have hj := g.gated (h : Gated { before with tick := before.tick + 1 })
  unfold tickOutputs
  rw [outSteps_request]
  apply BitVec.eq_of_getLsbD_eq
  intro n _
  dsimp only
  rw [bitsBy_bit, gated_wants j hj]
  simp

theorem pressClear_gates (i : IslSt) : SameGates i (pressClear i) := by
  unfold pressClear
  refine gates_ite _ ?_ (gates_ite _ ?_ (.refl i))
  · have g := gates_fold (fun i p => islClear p i) (fun i p => islClear_gates p i) (List.range 12) i
    exact ⟨g.tick, g.params, g.held, g.mute, g.vso, g.mode⟩
  · exact gates_fold _ (fun i p => gates_ite _ (islClear_gates p i) (.refl i)) _ i

/-- `j` has the tick count of `i`, and its gates shut where those of `i` are. -/
def KeptShut (i j : IslSt) : Prop := j.tick = i.tick ∧ (Gated i → Gated j)

theorem KeptShut.trans {i j k : IslSt} (a : KeptShut i j) (b : KeptShut j k) : KeptShut i k := ⟨b.1.trans a.1, fun h => b.2 (a.2 h)⟩

theorem startFlush_shut (k : Isl) (r : ResetKind) (p : Bool) (v : Option Nat) (s : State) :
    KeptShut (islAt k s) (islAt k (startFlush r p v s)) := by
  unfold startFlush
  split
  · cases k <;> exact ⟨rfl, fun h => h⟩
  · cases k <;> exact ⟨rfl, fun _ => .inr (.inl rfl)⟩

theorem core_shut (k : Isl) (c : Core) (s : State) : KeptShut (islAt k s) (islAt k { s with core := c }) := by
  cases k <;> exact ⟨rfl, fun h => h⟩

theorem clearDone_tick (k : Isl) (s : State) : (islAt k (clearDone s)).tick = (islAt k s).tick := by
  unfold clearDone
  split
  · split
    · exact (core_shut k _ s).1
    · rfl
  · rfl

/-- Acting on a press does not change the tick count, and opens no gate that is shut. -/
theorem actPress_shut (k : Isl) (s : State) : KeptShut (islAt k s) (islAt k (actPress k s)) := by
  have set (i : IslSt) (h : SameGates (islAt k s) i) : KeptShut (islAt k s) (islAt k (setIsl k i s)) := by
    rw [islAt_setIsl]; exact ⟨h.tick, h.gated⟩
  have acted := set { islAt k s with press := { (islAt k s).press with acted := true } } ⟨rfl, rfl, rfl, rfl, rfl, rfl⟩
  have voided := set { islAt k s with press := { (islAt k s).press with verdict := none } } ⟨rfl, rfl, rfl, rfl, rfl, rfl⟩
  have same : KeptShut (islAt k s) (islAt k s) := ⟨rfl, fun h => h⟩
  unfold actPress
  dsimp only
  split
  · exact same
  · split
    · split
      · exact set _ ⟨rfl, rfl, rfl, rfl, rfl, rfl⟩
      · exact same
    · split
      · split
        · split
          · split
            · exact acted
            · exact acted.trans (core_shut k _ _)
          · have hc := pressClear_gates (islAt k s)
            revert hc
            generalize pressClear (islAt k s) = i
            intro hc
            have hk := set { i with press := { i.press with acted := true } } (hc.trans ⟨rfl, rfl, rfl, rfl, rfl, rfl⟩)
            split
            · split
              · exact hk.trans ((core_shut k _ _).trans (startFlush_shut k _ _ _ _))
              · exact hk.trans (core_shut k _ _)
            · exact hk
        · split
          · exact acted.trans (core_shut k _ _)
          · exact acted
      · split
        · split
          · exact voided.trans (core_shut k _ _)
          · exact voided
        · exact same

/-- The tick count after a safety tick (R278). -/
theorem islTick_tick (k : Isl) (pads : List PadIn) (role : RoleIn) (s : State) :
    (islAt k (islTick k pads role s)).tick = (islAt k s).tick + 1 := by
  unfold islTick
  have h := (islEval_gates k pads role (islAt k (actPress k s)) (islAt (otherIsl k) (actPress k s))).tick
  dsimp only
  rw [clearDone_tick, islAt_setIsl, h]
  exact congrArg (· + 1) (actPress_shut k s).1

/-- With its gates shut, an island has every switch open after its tick (R296). -/
theorem islTick_gated (k : Isl) (pads : List PadIn) (role : RoleIn) (s : State) (hg : Gated (islAt k s)) :
    (islAt k (islTick k pads role s)).closed = 0 := by
  unfold islTick
  have h := islEval_requested k pads role (islAt k (actPress k s)) (islAt (otherIsl k) (actPress k s))
  have r := islEval_gated k pads role (islAt k (actPress k s)) (islAt (otherIsl k) (actPress k s)) ((actPress_shut k s).2 hg)
  revert h r
  dsimp only
  generalize islEval k pads role (islAt k (actPress k s)) (islAt (otherIsl k) (actPress k s)) = e
  intro h r
  have q := clearDone_held (setIsl k e.1 { actPress k s with core := islTell k e (actPress k s).core })
  have o : OnlyOpens k (setIsl k e.1 { actPress k s with core := islTell k e (actPress k s).core })
      (clearDone (setIsl k e.1 { actPress k s with core := islTell k e (actPress k s).core })) := by
    cases k
    · exact q.isa
    · exact q.isb
  apply BitVec.eq_of_getLsbD_eq
  intro n _
  cases hn : (islAt k (clearDone (setIsl k e.1 { actPress k s with core := islTell k e (actPress k s).core }))).closed.getLsbD n with
  | false => simp
  | true =>
    have h1 := o n hn
    rw [islAt_setIsl] at h1
    have h2 := h n h1
    rw [r] at h2
    simp at h2

end Sys2Proof.Machine
end

