-- ==== Sys2Proof/Laws/Detections.lean ====
section
/-! SUPPORT. The detections of an island in closed form: the island after one, and what it reports. -/

namespace Sys2Proof.Machine

@[simp] theorem setIsl_setIsl (k : Isl) (i j : IslSt) (s : State) : setIsl k i (setIsl k j s) = setIsl k i s := by cases k <;> rfl

@[simp] theorem setIsl_self (k : Isl) (s : State) : setIsl k (islAt k s) s = s := by cases k <;> rfl

/-- The core after one more report to the fault manager. -/
theorem raise_eq (code portal object : Nat) (c : Core) :
    raise code portal object c = { c with seq.faultQ := c.seq.faultQ ++ [⟨code, portal, object⟩] } := rfl

theorem fold_raise (code q : Nat) (l : List Nat) (c : Core) : l.foldl (fun c p => raise code p q c) c =
    { c with seq.faultQ := c.seq.faultQ ++ l.map fun p => ⟨code, p, q⟩ } := by
  induction l generalizing c with
  | nil => simp
  | cons a r ih => rw [List.foldl_cons, ih]; simp [raise]

/-- Reports are appended to those on their way. -/
def report (l : List FaultRec) (s : State) : State := { s with core := { s.core with seq.faultQ := s.core.seq.faultQ ++ l } }

theorem report_nil (s : State) : report [] s = s := by unfold report; simp

@[simp] theorem islAt_report (k : Isl) (l : List FaultRec) (s : State) : islAt k (report l s) = islAt k s := by cases k <;> rfl

@[simp] theorem report_faultQ (l : List FaultRec) (s : State) : (report l s).core.seq.faultQ = s.core.seq.faultQ ++ l := rfl

theorem setIsl_report (k : Isl) (i : IslSt) (l : List FaultRec) (s : State) : setIsl k i (report l s) = report l (setIsl k i s) := by
  cases k <;> rfl

/-- PAIR_DISC: the island's pair faults, and one fault for each of its portals is reported (R278, R317). -/
theorem takePairDisc_eq (k : Isl) (q : Nat) (s : State) : takePairDisc k q s =
    report (if (tget {} (islAt (otherIsl k) s).pairs q).st = .fault then []
      else if pairPortals s.core q = [] then [⟨0x201, 255, q⟩] else (pairPortals s.core q).map fun p => ⟨0x201, p, q⟩)
      (setIsl k { islAt k s with pairs := tmod {} (islAt k s).pairs q fun x => { x with st := .fault } } s) := by
  unfold takePairDisc
  dsimp only
  by_cases h : (tget {} (islAt (otherIsl k) s).pairs q).st = .fault
  · rw [if_pos (by simp [h]), if_pos h, report_nil]
  · rw [if_neg (by simp [h]), if_neg h, setIsl_core]
    cases hp : pairPortals s.core q with
    | nil => rw [if_pos rfl]; cases k <;> rfl
    | cons a r =>
      rw [if_neg (by simp)]
      dsimp only
      rw [fold_raise]
      cases k <;> rfl

/-- An output fault of an island (R302). -/
theorem takeOutFault_eq (k : Isl) (n code : Nat) (s : State) : takeOutFault k n code s =
    report (if tget 0 s.isa.outFault n = 0 ∧ tget 0 s.isb.outFault n = 0 then [⟨code, if n < 4 then 255 else n - 4, n⟩] else [])
      (setIsl k (outLatch n code (latchOut n code (islAt k s))) s) := by
  unfold takeOutFault
  dsimp only
  by_cases h : tget 0 s.isa.outFault n = 0 ∧ tget 0 s.isb.outFault n = 0
  · rw [if_pos h, if_neg (by cases k <;> simp [islAt, otherIsl, h.1, h.2])]
    cases k <;> rfl
  · rw [if_neg h, if_pos, report_nil]
    have g : ∀ a b : Nat, ¬(a = 0 ∧ b = 0) → (decide (a ≠ 0) || decide (b ≠ 0)) = true := by
      intro a b h; by_cases ha : a = 0 <;> by_cases hb : b = 0 <;> simp_all
    cases k
    · exact g _ _ (fun x => h ⟨x.2, x.1⟩)
    · exact g _ _ h

/-- What an output fault makes of its island: one switch opens, the first fault and the first latch cause stand. -/
theorem outFault_island (n code : Nat) (i : IslSt) :
    let j := outLatch n code (latchOut n code i)
    j = { i with outFault := j.outFault, closed := setBit i.closed n false, closing := tset 0 i.closing n 0, dev := j.dev, latches := j.latches } ∧
      tget 0 j.outFault n = (if tget 0 i.outFault n = 0 then code else tget 0 i.outFault n) ∧
      (∀ m, m ≠ n → tget 0 j.outFault m = tget 0 i.outFault m) ∧
      (if n < 4 then j.dev.set = true else (tget {} j.latches (n - 4)).set = true) := by
  have hf : ∀ m, tget 0 (latchOut n code i).outFault m =
      if m = n then (if tget 0 i.outFault n = 0 then code else tget 0 i.outFault n) else tget 0 i.outFault m := by
    intro m
    unfold latchOut
    show tget 0 (if tget 0 i.outFault n = 0 then tset 0 i.outFault n code else i.outFault) m = _
    by_cases h0 : tget 0 i.outFault n = 0
    · rw [if_pos h0, if_pos h0, tget_tset]
      by_cases e : n = m
      · rw [if_pos e, if_pos e.symm]
      · rw [if_neg e, if_neg (fun x => e x.symm)]
    · rw [if_neg h0, if_neg h0]
      by_cases e : m = n
      · rw [if_pos e, e]
      · rw [if_neg e]
  dsimp only
  unfold outLatch
  by_cases h4 : n < 4
  · rw [if_pos h4, if_pos h4]
    unfold islDevLatch islDevCopy
    split
    · refine ⟨rfl, (hf n).trans (if_pos rfl), fun m hm => (hf m).trans (if_neg hm), ?_⟩
      assumption
    · exact ⟨rfl, (hf n).trans (if_pos rfl), fun m hm => (hf m).trans (if_neg hm), rfl⟩
  · rw [if_neg h4, if_neg h4]
    unfold islLatch islCopy
    split
    · refine ⟨rfl, (hf n).trans (if_pos rfl), fun m hm => (hf m).trans (if_neg hm), ?_⟩
      assumption
    · refine ⟨rfl, (hf n).trans (if_pos rfl), fun m hm => (hf m).trans (if_neg hm), ?_⟩
      dsimp only
      rw [tget_tset, if_pos rfl]

/-- A detection that is due, taken. -/
theorem dueTaken (k : Isl) (d : IslDue) (s : State) (h : (islAt k s).due.contains d = true) :
    takeIslDue k d s = takeIsl k d (setIsl k { islAt k s with due := (islAt k s).due.erase d, now := islNow k s.core } s) := by
  unfold takeIslDue; rw [if_pos h]

end Sys2Proof.Machine
end

