-- ==== Sys2Proof/Laws/Field.lean ====
section
/-! SUPPORT. The field die's outputs: driving them writes nothing else. -/

namespace Sys2Proof.Machine

theorem driveSet_only (d : DieSt) (u : Nat) : ∃ o, driveSet d u = { d with outs := o } := ⟨_, rfl⟩

/-- Every set takes its value, and nothing else of the die changes (R345). -/
theorem drive_only (d : DieSt) : ∃ o, drive d = { d with outs := o } := by
  have h : ∀ (l : List Nat) (d : DieSt), ∃ o, l.foldl driveSet d = { d with outs := o } := by
    intro l
    induction l with
    | nil => exact fun d => ⟨d.outs, rfl⟩
    | cons a r ih =>
      intro d
      obtain ⟨o, e⟩ := driveSet_only d a
      obtain ⟨p, g⟩ := ih (driveSet d a)
      exact ⟨p, by rw [List.foldl_cons, g, e]⟩
  unfold drive
  split
  · exact h _ _
  · exact ⟨_, rfl⟩

theorem dieRunOff_only (d : DieSt) : ∃ o, dieRunOff d = { d with run := false, cmd := none, outs := o } := by
  unfold dieRunOff
  obtain ⟨o, e⟩ := drive_only { d with run := false, cmd := none }
  exact ⟨o, e⟩

theorem outs_driveSet (d : DieSt) (u v : Nat) : tget {} (driveSet d u).outs v =
    if u = v then { tget {} d.outs u with on := setValue d u, offFor := if (tget {} d.outs u).on && !setValue d u then 0 else (tget {} d.outs u).offFor }
    else tget {} d.outs v := by
  unfold driveSet
  exact tget_tset ..

/-- The value of a set rests on its own state and the die's, not on other sets (R345). -/
theorem setValue_congr (d e : DieSt) (u : Nat) (h0 : (tget {} e.outs u).live = (tget {} d.outs u).live) (h1 : (tget {} e.outs u).short = (tget {} d.outs u).short)
    (h2 : (tget {} e.outs u).on = (tget {} d.outs u).on) (h3 : e.groups = d.groups) (h4 : e.silent = d.silent) (h5 : e.run = d.run)
    (h6 : e.image = d.image) (h7 : e.section_ = d.section_) : setValue e u = setValue d u := by
  unfold setValue dieSec
  dsimp only
  rw [h0, h1, h2, h3, h4, h5, h6, h7]

theorem driveSets_on (l : List Nat) (hl : l.Nodup) (d : DieSt) (u : Nat) (hu : u ∈ l) :
    (tget {} (l.foldl driveSet d).outs u).on = setValue d u := by
  have other : ∀ (l : List Nat) (d : DieSt), u ∉ l → tget {} (l.foldl driveSet d).outs u = tget {} d.outs u := by
    intro l
    induction l with
    | nil => exact fun d _ => rfl
    | cons a r ih =>
      intro d h
      rw [List.foldl_cons, ih _ (fun x => h (List.mem_cons_of_mem _ x)), outs_driveSet, if_neg]
      rintro rfl
      exact h List.mem_cons_self
  induction l generalizing d with
  | nil => cases hu
  | cons a r ih =>
    rw [List.foldl_cons]
    rcases List.mem_cons.mp hu with e | e
    · subst e
      rw [other r _ (List.nodup_cons.mp hl).1, outs_driveSet, if_pos rfl]
    · have ha : a ≠ u := fun x => (List.nodup_cons.mp hl).1 (x ▸ e)
      rw [ih (List.nodup_cons.mp hl).2 _ e]
      have k : tget {} (driveSet d a).outs u = tget {} d.outs u := by rw [outs_driveSet, if_neg ha]
      exact setValue_congr d _ u (by rw [k]) (by rw [k]) (by rw [k]) rfl rfl rfl rfl rfl

/-- A die that drives: each of its sets applies its value (R345). -/
theorem drive_on (d : DieSt) (h : dieRuns d = true) (u : Nat) (hu : u ∈ setsOf (dieSec d)) :
    (tget {} (drive d).outs u).on = setValue d u := by
  unfold drive
  rw [if_pos h]
  exact driveSets_on _ (List.Pairwise.filter _ List.nodup_range) d u hu

/-- Driving leaves alone which sets may drive (R336, R352). -/
theorem drive_live (d : DieSt) (h : dieRuns d = true) (u : Nat) : (tget {} (drive d).outs u).live = (tget {} d.outs u).live := by
  have all : ∀ (l : List Nat) (d : DieSt), (tget {} (l.foldl driveSet d).outs u).live = (tget {} d.outs u).live := by
    intro l
    induction l with
    | nil => exact fun d => rfl
    | cons a r ih =>
      intro d
      rw [List.foldl_cons, ih, outs_driveSet]
      split
      · rename_i e; rw [e]
      · rfl
  unfold drive
  rw [if_pos h]
  exact all _ _

/-- A command frame with RUN 1 lets every set of the section drive (R336, R352). -/
theorem live_fold (l : List Nat) (t : Table OutSt) (u : Nat) (hu : u ∈ l) :
    (tget {} (l.foldl (fun t u => tmod {} t u fun o => { o with live := true }) t) u).live = true := by
  have keep : ∀ (l : List Nat) (t : Table OutSt), (tget {} t u).live = true →
      (tget {} (l.foldl (fun t u => tmod {} t u fun o => { o with live := true }) t) u).live = true := by
    intro l
    induction l with
    | nil => exact fun _ h => h
    | cons a r ih =>
      intro t h
      rw [List.foldl_cons]
      apply ih
      unfold tmod; rw [tget_tset]
      split
      · rfl
      · exact h
  induction l generalizing t with
  | nil => cases hu
  | cons a r ih =>
    rw [List.foldl_cons]
    rcases List.mem_cons.mp hu with e | e
    · subst e
      exact keep _ _ (by unfold tmod; rw [tget_tset, if_pos rfl])
    · exact ih _ e

/-- A die that does not run drives nothing (R352). -/
theorem drive_off (d : DieSt) (h : dieRuns d = false) (u : Nat) : tget {} (drive d).outs u = {} := by
  unfold drive
  rw [if_neg (by rw [h]; decide)]
  rfl

theorem tget_filter {α : Type} (d : α) (p : Nat → Bool) (t : Table α) (k : Nat) :
    tget d (t.filter fun e => p e.1) k = if p k then tget d t k else d := by
  induction t with
  | nil => simp
  | cons e r ih =>
    obtain ⟨i, v⟩ := e
    by_cases hp : p i = true
    · rw [List.filter_cons_of_pos (by simpa using hp)]
      unfold tget
      split
      · rename_i h; subst h; rw [if_pos hp]
      · exact ih
    · rw [List.filter_cons_of_neg (by simpa using hp), ih]
      by_cases hk : i = k
      · subst hk; rw [if_neg hp, if_neg hp]
      · have : tget d ((i, v) :: r) k = tget d r k := if_neg hk
        rw [this]

theorem fromDie_low (code n : Nat) (ps : List Nat) (p o : Nat) (m : Nat) (c : Core) : ∃ u q,
    fromDie (fun c => raise code p o (event n m ps c)) c = { c with recd := u, seq := { c.seq with faultQ := q } } ∧
    q = c.seq.faultQ ++ (if c.sys.inReset then [] else [⟨code, p, o⟩]) := by
  unfold fromDie
  by_cases h : c.sys.inReset = true
  · rw [if_pos h, if_pos h]
    exact ⟨_, _, rfl, (List.append_nil _).symm⟩
  · rw [if_neg h, if_neg h]
    obtain ⟨u, e⟩ := event_only n m ps c
    dsimp only
    rw [e]
    exact ⟨_, _, rfl, rfl⟩

theorem settleDie_none (s : State) (h : s.die.due = []) : settleDie s = s := by
  obtain ⟨pending, fuse, onyx, store, die, isa, isb, core⟩ := s
  unfold settleDie
  dsimp only at h ⊢
  rw [h]
  obtain ⟨⟩ := die
  dsimp only at h
  subst h
  rfl

/-- A die without a section reports state 3 everywhere (R352). -/
theorem chanState_bare (d : DieSt) (h : d.section_ = none) (u : Nat) : chanState d u = 3 := by
  unfold chanState dieSec
  rw [h]
  rfl

/-- Writing every listed key. -/
theorem tget_tsets {α : Type} [DecidableEq α] (d : α) (f : Nat → α) (l : List Nat) (t : Table α) (k : Nat) :
    tget d (l.foldl (fun t u => tset d t u (f u)) t) k = if k ∈ l then f k else tget d t k := by
  induction l generalizing t with
  | nil => simp
  | cons a r ih =>
    rw [List.foldl_cons, ih, tget_tset]
    by_cases h : k ∈ r
    · simp [h]
    · by_cases e : a = k
      · simp [e]
      · rw [if_neg h, if_neg e, if_neg]
        simp [h, Ne.symm e]

/-- Changing some keys of a range, each for itself. -/
theorem tget_rangeIf {α : Type} [DecidableEq α] (d : α) (p : Nat → Prop) [DecidablePred p] (f : Nat → α → α) (t : Table α) (n k : Nat) :
    tget d ((List.range n).foldl (fun t u => if p u then tmod d t u (f u) else t) t) k =
      if k < n ∧ p k then f k (tget d t k) else tget d t k := by
  induction n with
  | zero => simp
  | succ n ih =>
    rw [List.range_succ, List.foldl_append, List.foldl_cons, List.foldl_nil]
    by_cases hp : p n
    · have tm : ∀ g j, tget d (tmod d g n (f n)) j = if n = j then f n (tget d g n) else tget d g j := fun g j => tget_tset ..
      rw [if_pos hp, tm]
      by_cases e : n = k
      · subst e
        rw [if_pos rfl, ih, if_neg (by omega), if_pos ⟨by omega, hp⟩]
      · rw [if_neg e, ih]
        by_cases hk : k < n ∧ p k
        · rw [if_pos hk, if_pos ⟨by omega, hk.2⟩]
        · rw [if_neg hk, if_neg (fun x => hk ⟨by omega, x.2⟩)]
    · rw [if_neg hp, ih]
      by_cases hk : k < n ∧ p k
      · rw [if_pos hk, if_pos ⟨by omega, hk.2⟩]
      · rw [if_neg hk, if_neg]
        intro x
        rcases Nat.lt_or_ge k n with h | h
        · exact hk ⟨h, x.2⟩
        · have : k = n := by omega
          exact hp (this ▸ x.2)

end Sys2Proof.Machine
end

