-- ==== Sys2Proof/Laws/Flush.lean ====
section
/-! SUPPORT. Records reaching their stores: the groups that this writes, and that a flush drains the staging FIFO. -/

namespace Sys2Proof.Machine

/-- From `s` to `t` only the stores, the recorder, the annotation, the host port's ends and the draws differ. -/
def StoreOnly (s t : State) : Prop :=
  t = { s with store := t.store, core := { s.core with
    recd := t.core.recd, nv.annot := t.core.nv.annot, host := t.core.host, free := t.core.free } }

theorem StoreOnly.refl (s : State) : StoreOnly s s := rfl

theorem StoreOnly.trans {s t u : State} (a : StoreOnly s t) (b : StoreOnly t u) : StoreOnly s u := by
  unfold StoreOnly at *
  rw [a] at b
  rw [b]

theorem storeOnly_mk (s : State) (t : Stores) (u : RecSt) (a : Option (Nat × Nat)) (h : HostSt) (f : Nat) :
    StoreOnly s { s with store := t, core := { s.core with recd := u, nv.annot := a, host := h, free := f } } := rfl

theorem storeOnly_ite {s t u : State} (p : Prop) [Decidable p] (ht : StoreOnly s t) (hu : StoreOnly s u) :
    StoreOnly s (if p then t else u) := by split <;> assumption

theorem checkpoint_only (n b : Nat) (chain : Bytes) (s : State) : StoreOnly s (checkpoint n b chain s) := by
  unfold checkpoint drawNoise
  dsimp only
  split
  · exact storeOnly_mk s _ s.core.recd s.core.nv.annot s.core.host _
  · exact storeOnly_mk s _ s.core.recd s.core.nv.annot s.core.host s.core.free

theorem closeBlock_only (n : Nat) (s : State) : StoreOnly s (closeBlock n s) := by
  unfold closeBlock
  dsimp only
  split
  · exact .refl s
  · split
    · split
      · refine StoreOnly.trans ?_ (checkpoint_only _ _ _ _)
        exact storeOnly_mk s _ s.core.recd s.core.nv.annot s.core.host s.core.free
      · exact storeOnly_mk s _ s.core.recd s.core.nv.annot s.core.host s.core.free
    · split
      · refine StoreOnly.trans ?_ (checkpoint_only _ _ _ _)
        exact storeOnly_mk s _ s.core.recd s.core.nv.annot s.core.host s.core.free
      · exact storeOnly_mk s _ s.core.recd s.core.nv.annot s.core.host s.core.free

theorem event_storeOnly (code src : Nat) (ps : List Nat) (s : State) : StoreOnly s { s with core := event code src ps s.core } := by
  obtain ⟨u, h⟩ := event_only code src ps s.core
  rw [h]
  exact storeOnly_mk s s.store u s.core.nv.annot s.core.host s.core.free

theorem journalFull_only (s : State) : StoreOnly s (journalFull s) :=
  storeOnly_ite _ (event_storeOnly _ _ _ s) (.refl s)

theorem annotate_only (r : Staged) (c : Core) : ∃ a h, annotate r c = { c with nv.annot := a, host := h } := by
  unfold annotate
  split
  · dsimp only
    split
    · obtain ⟨h, e⟩ := finish_only ‹Nat› 0x00 0 (field r.bytes 0 8 % 2 ^ 32) (field r.bytes 0 8 / 2 ^ 32)
        { c with nv.annot := some (field r.bytes 20 8, field r.bytes 0 8 % 2 ^ 42) }
      exact ⟨_, h, e⟩
    · exact ⟨_, _, rfl⟩
  · exact ⟨_, _, rfl⟩

theorem dropEvents_only (c : Core) : ∃ h, dropEvents c =
    { c with recd := { c.recd with fifo := c.recd.fifo.filter (·.cycle), stoppedE := true }, host := h } := by
  unfold dropEvents
  dsimp only
  obtain ⟨h, e⟩ := foldHost_only (fun (c : Core) (r : Staged) => match r.slot with
    | some k => finish k 0x60 0 0 0 c
    | none => c) (fun c r => by
      cases r.slot with
      | none => exact ⟨_, rfl⟩
      | some k => exact finish_only _ _ _ _ _ _) (c.recd.fifo.filter fun r => !r.cycle)
      { c with recd := { c.recd with fifo := c.recd.fifo.filter (·.cycle), stoppedE := true } }
  exact ⟨h, e⟩

theorem dropState_only (s : State) : StoreOnly s { s with core := dropEvents s.core } := by
  obtain ⟨h, e⟩ := dropEvents_only s.core
  rw [e]
  exact storeOnly_mk s s.store _ s.core.nv.annot h s.core.free

theorem writeCycle_only (r : Staged) (s : State) : StoreOnly s (writeCycle r s) := by
  unfold writeCycle
  dsimp only
  split
  · obtain ⟨u, h⟩ := totalAdd_only (byteAt r.bytes 8) 61 s.core
    rw [h]
    exact storeOnly_mk s s.store u s.core.nv.annot s.core.host s.core.free
  · have h1 : ∀ t u, StoreOnly s { s with store := t, core := { s.core with recd := u } } := fun t u =>
      storeOnly_mk s t u s.core.nv.annot s.core.host s.core.free
    split
    · refine StoreOnly.trans ?_ (journalFull_only _)
      refine StoreOnly.trans ?_ (closeBlock_only _ _)
      exact h1 _ _
    · exact h1 _ _

theorem eventsFull_only (s : State) : StoreOnly s (eventsFull s) := by
  unfold eventsFull
  split
  · dsimp only
    have h1 : ∀ t, StoreOnly s { s with store := t } := fun t =>
      storeOnly_mk s t s.core.recd s.core.nv.annot s.core.host s.core.free
    refine StoreOnly.trans ?_ (dropState_only _)
    refine StoreOnly.trans ?_ (closeBlock_only 1 _)
    exact h1 _
  · exact .refl s

theorem writeEvent_only (r : Staged) (s : State) : StoreOnly s (writeEvent r s) := by
  unfold writeEvent
  dsimp only
  split
  · exact .refl s
  · obtain ⟨a, h, e⟩ := annotate_only r s.core
    rw [e]
    have h1 : ∀ t, StoreOnly s { s with store := t, core := { s.core with nv.annot := a, host := h } } := fun t =>
      storeOnly_mk s t s.core.recd a h s.core.free
    split
    · refine StoreOnly.trans ?_ (closeBlock_only _ _)
      exact h1 _
    · refine StoreOnly.trans ?_ (eventsFull_only _)
      exact h1 _

theorem writeRecord_only (s : State) : StoreOnly s (writeRecord s) := by
  unfold writeRecord
  split
  · exact .refl s
  · have h1 : ∀ u, StoreOnly s { s with core := { s.core with recd := u } } := fun u =>
      storeOnly_mk s s.store u s.core.nv.annot s.core.host s.core.free
    dsimp only
    split
    · exact h1 _
    · split
      · refine StoreOnly.trans ?_ (writeCycle_only _ _)
        exact h1 _
      · refine StoreOnly.trans ?_ (writeEvent_only _ _)
        exact h1 _

theorem writeFifo_only (n : Nat) (s : State) : StoreOnly s (writeFifo n s) := by
  induction n generalizing s with
  | zero => exact .refl s
  | succ n ih => exact storeOnly_ite _ (.refl s) ((writeRecord_only s).trans (ih _))

/-! ### The FIFO drains (R68) -/

theorem dropNewest_length (v : Nat) (l : List Staged) : (dropNewest v l).length ≤ l.length := by
  unfold dropNewest
  rw [List.length_reverse]
  have := List.length_eraseP_le (p := fun r : Staged => r.sev == v) (l := l.reverse)
  rwa [List.length_reverse] at this

theorem totalAdd_stats (p e : Nat) (c : Core) : ∃ st, totalAdd p e c = { c with recd := { c.recd with stats := st } } := ⟨_, rfl⟩

theorem countLost_fifo (r : Staged) (c : Core) : (countLost r c).recd.fifo = c.recd.fifo := by
  unfold countLost
  split
  · obtain ⟨st, h⟩ := totalAdd_stats (byteAt r.bytes 8) 61 c
    rw [h]
  · rfl

theorem stage_length (r : Staged) (c : Core) : (stage r c).recd.fifo.length ≤ c.recd.fifo.length + 1 := by
  unfold stage
  dsimp only
  by_cases h1 : (c.recd.powerFail && decide (r.sev < 4)) = true
  · rw [if_pos h1, countLost_fifo]; omega
  · rw [if_neg h1]
    by_cases h2 : c.recd.fifo.length < (if r.sev < 4 then 248 else 256)
    · rw [if_pos h2]
      exact Nat.le_of_eq (List.length_append ..)
    · rw [if_neg h2]
      by_cases h3 : lowestSev c.recd.fifo < r.sev
      · rw [if_pos h3]
        have := dropNewest_length (lowestSev c.recd.fifo) c.recd.fifo
        show (dropNewest (lowestSev c.recd.fifo) c.recd.fifo ++ [r]).length ≤ _
        rw [List.length_append, List.length_singleton]
        omega
      · rw [if_neg h3, countLost_fifo]; omega

theorem eventAt_length (sev code src : Nat) (ps : List Nat) (c : Core) (k : Option Nat) :
    (eventAt sev code src ps c k).recd.fifo.length ≤ c.recd.fifo.length + 1 := by
  unfold eventAt stageEvent
  split
  · omega
  · split
    · exact stage_length _ _
    · split
      · exact stage_length _ { c with recd.used := tset 0 c.recd.used code (tget 0 c.recd.used code + 60000) }
      · exact Nat.le_succ _

theorem event_length (code src : Nat) (ps : List Nat) (c : Core) : (event code src ps c).recd.fifo.length ≤ c.recd.fifo.length + 1 :=
  eventAt_length _ _ _ _ _ _

/-- Records that wait, and one more that a journal which fills up would stage. -/
def drainLeft (s : State) : Nat := s.core.recd.fifo.length + if s.store.wJ < journalSlots then 1 else 0

theorem checkpoint_wJ (n b : Nat) (chain : Bytes) (s : State) :
    (checkpoint n b chain s).store.wJ = s.store.wJ ∧ (checkpoint n b chain s).core.recd = s.core.recd := by
  have h : ∀ b t, (addCheck b t).wJ = t.wJ := by
    intro b t; unfold addCheck; split <;> rfl
  unfold checkpoint drawNoise
  dsimp only
  split
  · exact ⟨h _ _, rfl⟩
  · exact ⟨h _ _, rfl⟩

theorem withStore_parts (s : State) (t : Stores) : ({ s with store := t } : State).store = t ∧
    ({ s with store := t } : State).core = s.core := ⟨rfl, rfl⟩

theorem closedJournal_wJ (t : Stores) (j : Table Bytes) (w : Nat) (c : Bytes) :
    (commit { t with journal := j, wJ := w, chainJ := c, rstJ := false }).wJ = w := rfl

theorem closedEvents_wJ (t : Stores) (j : Table Bytes) (w : Nat) (c : Bytes) :
    (commit { t with events := j, wE := w, chainE := c, rstE := false }).wJ = t.wJ := rfl

theorem closeBlock_wJ (n : Nat) (s : State) : s.store.wJ ≤ (closeBlock n s).store.wJ ∧
    (closeBlock n s).store.wJ ≤ s.store.wJ + 1 ∧ (closeBlock n s).core.recd = s.core.recd := by
  have h0 : n = 0 → storeW s.store n = s.store.wJ := by rintro rfl; rfl
  have put : ∀ (t : Stores) (w : Nat), t.wJ = w → s.store.wJ ≤ w → w ≤ s.store.wJ + 1 → ∀ (k b : Nat) (chain : Bytes) (p : Prop) [Decidable p],
      let u := if p then checkpoint k b chain { s with store := t } else { s with store := t }
      s.store.wJ ≤ u.store.wJ ∧ u.store.wJ ≤ s.store.wJ + 1 ∧ u.core.recd = s.core.recd := by
    rintro t w rfl h1 h2 k b chain p _
    dsimp only
    split
    · rw [(checkpoint_wJ _ _ _ _).1, (checkpoint_wJ _ _ _ _).2]
      exact ⟨h1, h2, rfl⟩
    · exact ⟨h1, h2, rfl⟩
  unfold closeBlock
  dsimp only
  split
  · exact ⟨Nat.le_refl _, Nat.le_succ _, rfl⟩
  · split
    · have e := h0 ‹_›
      exact put _ _ (closedJournal_wJ _ _ _ _) (by omega) (by omega) _ _ _ _
    · exact put _ _ (closedEvents_wJ _ _ _ _) (Nat.le_refl _) (Nat.le_succ _) _ _ _ _

/-- A full journal stages one record, and takes none after it. -/
theorem journalFull_left (s : State) (_h : s.store.wJ ≤ journalSlots) : drainLeft (journalFull s) ≤ s.core.recd.fifo.length + 1 := by
  unfold journalFull drainLeft
  split
  · rename_i e
    have := event_length 0x0B2 0x0D [0] s.core
    dsimp only
    rw [if_neg (by omega)]
    exact this
  · split <;> omega

theorem writeCycle_left (r : Staged) (s : State) : drainLeft (writeCycle r s) ≤ drainLeft s := by
  unfold writeCycle
  dsimp only
  by_cases h : journalSlots ≤ s.store.wJ
  · rw [if_pos h]
    obtain ⟨st, e⟩ := totalAdd_stats (byteAt r.bytes 8) 61 s.core
    rw [e]
    exact Nat.le_refl _
  · rw [if_neg h]
    have hj : drainLeft s = s.core.recd.fifo.length + 1 := by unfold drainLeft; rw [if_pos (by omega)]
    rw [hj]
    split
    · rename_i h7
      refine Nat.le_trans (journalFull_left _ ?_) ?_
      · refine Nat.le_trans (closeBlock_wJ 0 _).2.1 ?_
        show s.store.wJ + 1 + 1 ≤ journalSlots
        unfold journalSlots at h ⊢
        omega
      · rw [(closeBlock_wJ 0 _).2.2]
        exact Nat.le_refl _
    · unfold drainLeft
      dsimp only
      split
      · exact Nat.le_refl _
      · exact Nat.le_succ _

/-- Closing a block of the event log, where the journal and the FIFO are as in `s`. -/
theorem closeEvents_left (s u : State) (h1 : u.store.wJ = s.store.wJ) (h2 : u.core.recd = s.core.recd) :
    drainLeft (closeBlock 1 u) ≤ drainLeft s := by
  have g := closeBlock_wJ 1 u
  unfold drainLeft
  rw [g.2.2, h2]
  rw [h1] at g
  split
  · split <;> omega
  · omega

theorem dropEvents_left (s : State) : drainLeft { s with core := dropEvents s.core } ≤ drainLeft s := by
  obtain ⟨h, e⟩ := dropEvents_only s.core
  unfold drainLeft
  rw [e]
  have l := List.length_filter_le (fun r : Staged => r.cycle) s.core.recd.fifo
  exact Nat.add_le_add_right l _

theorem withEvents_wJ (s : State) (t : Table Bytes) (w : Nat) :
    ({ s with store := { s.store with events := t, wE := w } } : State).store.wJ = s.store.wJ ∧
      ({ s with store := { s.store with events := t, wE := w } } : State).core.recd = s.core.recd := ⟨rfl, rfl⟩

theorem eventsFull_left (s : State) : drainLeft (eventsFull s) ≤ drainLeft s := by
  unfold eventsFull
  split
  · have h := withEvents_wJ s (tset emptySlot s.store.events eventLast (eventBytes (stampOf s.core) 0x0B2 0x0D 3 [1])) (eventLast + 1)
    exact Nat.le_trans (dropEvents_left _) (closeEvents_left s _ h.1 h.2)
  · exact Nat.le_refl _

theorem writeEvent_left (r : Staged) (s : State) : drainLeft (writeEvent r s) ≤ drainLeft s := by
  unfold writeEvent
  dsimp only
  split
  · exact Nat.le_refl _
  · obtain ⟨a, h, e⟩ := annotate_only r s.core
    rw [e]
    split
    · exact closeEvents_left s _ rfl rfl
    · exact eventsFull_left _

/-- Each write brings the end of the flush nearer. -/
theorem writeRecord_left (s : State) (h : s.core.recd.fifo ≠ []) : drainLeft (writeRecord s) < drainLeft s := by
  unfold writeRecord
  split
  · exact absurd ‹_› h
  · rename_i r rest hr
    have e : drainLeft s = drainLeft { s with core := { s.core with recd := { s.core.recd with fifo := rest } } } + 1 := by
      unfold drainLeft
      rw [hr]
      simp only [List.length_cons]
      omega
    rw [e]
    refine Nat.lt_succ_of_le ?_
    dsimp only
    split
    · exact Nat.le_refl _
    · split
      · exact writeCycle_left _ _
      · exact writeEvent_left _ _

theorem writeFifo_drains (n : Nat) (s : State) (h : drainLeft s ≤ n) : (writeFifo n s).core.recd.fifo = [] := by
  induction n generalizing s with
  | zero =>
    unfold drainLeft at h
    exact List.length_eq_zero_iff.mp (by unfold writeFifo; omega)
  | succ n ih =>
    unfold writeFifo
    by_cases e : s.core.recd.fifo.isEmpty = true
    · rw [if_pos e]; exact List.isEmpty_iff.mp e
    · rw [if_neg e]
      have := writeRecord_left s (fun x => e (by rw [x]; rfl))
      exact ih _ (by omega)

/-- What a flush leaves: every staged record written, the pointers committed (R68, R429, R435). -/
theorem flushStores_ends (s : State) : ∃ t u a h f, flushStores s =
    { s with store := t, core := { s.core with
      recd := u, nv := { s.core.nv with annot := a, stats := u.stats }, host := h, free := f } } ∧
    u.fifo = [] ∧ t.committed = (t.wJ, t.wE, t.wC) := by
  unfold flushStores
  dsimp only
  have h := writeFifo_only (2 * s.core.recd.fifo.length + 2) s
  have d := writeFifo_drains (2 * s.core.recd.fifo.length + 2) s (by unfold drainLeft; split <;> omega)
  unfold StoreOnly at h
  rw [h] at d ⊢
  exact ⟨_, _, _, _, _, rfl, d, rfl⟩

end Sys2Proof.Machine
end

