-- ==== Sys2Proof/Laws/Keys.lean ====
section
/-! SUPPORT. LIFECYCLE_ADVANCE: what its parts leave alone, and what it makes of the fuse and the life-cycle state. Tamper: what
an erase writes. -/

namespace Sys2Proof.Machine

/-- `Held` but for the identity key, which only LIFECYCLE_ADVANCE makes, and the fuse. -/
structure LifeKept (s t : State) : Prop where
  pending : t.pending = s.pending
  isa : t.isa = s.isa
  isb : t.isb = s.isb
  die : t.die = s.die
  store : Grows s.store t.store

theorem LifeKept.refl (s : State) : LifeKept s s := ⟨rfl, rfl, rfl, rfl, .refl _⟩

theorem LifeKept.trans {s t u : State} (a : LifeKept s t) (b : LifeKept t u) : LifeKept s u :=
  ⟨b.pending.trans a.pending, b.isa.trans a.isa, b.isb.trans a.isb, b.die.trans a.die, a.store.trans b.store⟩

theorem takeIdentity_kept (priv pub : Bytes) (s : State) : LifeKept s (takeIdentity priv pub s) :=
  ⟨rfl, rfl, rfl, rfl, (keyEntry_held pub { s with onyx := { s.onyx with identity := priv }, core := { s.core with nv.pub := pub } }).store⟩

/-- The certificate's public key apart, a new identity leaves fuse and core. -/
theorem takeIdentity_rest (priv pub : Bytes) (s : State) :
    (takeIdentity priv pub s).fuse = s.fuse ∧ (takeIdentity priv pub s).core = { s.core with nv.pub := pub } ∧
      (takeIdentity priv pub s).onyx = { s.onyx with identity := priv } := ⟨rfl, rfl, rfl⟩

/-- Generation is a draw of noise and a new identity. -/
theorem generate_eq (s : State) : ∃ priv pub,
    generate s = takeIdentity priv pub { s with core := { s.core with free := s.core.free + 1 } } := ⟨_, _, rfl⟩

theorem generate_kept (s : State) : LifeKept s (generate s) := by
  obtain ⟨a, b, h⟩ := generate_eq s
  rw [h]
  refine LifeKept.trans ?_ (takeIdentity_kept a b _)
  exact ⟨rfl, rfl, rfl, rfl, .refl _⟩

theorem generate_fuse (s : State) : (generate s).fuse = s.fuse := by
  obtain ⟨a, b, h⟩ := generate_eq s
  rw [h, (takeIdentity_rest a b _).1]

theorem generate_lc (s : State) : (generate s).core.nv.lc = s.core.nv.lc := by
  obtain ⟨a, b, h⟩ := generate_eq s
  rw [h, (takeIdentity_rest a b _).2.1]

theorem wipedRecord_nv (n : Nat) (c : Core) : (wipedRecord n c).nv = c.nv := by
  unfold wipedRecord
  split
  · rfl
  · exact event_nv _ _ _ _

theorem lifeEnter_nv (to_ : LifeCycle) (s : State) :
    (lifeEnter to_ s).core.nv = { s.core.nv with lc := to_, cert := [] } := by
  unfold lifeEnter wipeOnyx
  dsimp only
  rw [wipedRecord_nv]

theorem lifeEnter_kept (to_ : LifeCycle) (s : State) : LifeKept s (lifeEnter to_ s) := ⟨rfl, rfl, rfl, rfl, .refl _⟩

theorem fuseAuth_kept (s : State) : LifeKept s (fuseAuth s) := ⟨rfl, rfl, rfl, rfl, .refl _⟩

theorem fuseAuth_nv (s : State) : (fuseAuth s).core.nv = s.core.nv := event_nv _ _ _ _

theorem lifeTurn_kept (to_ : LifeCycle) (s : State) : LifeKept s (lifeTurn to_ s) := by
  unfold lifeTurn
  dsimp only
  have h := lifeEnter_kept to_ s
  have h2 : LifeKept s (if s.core.nv.lc = .blank then fuseAuth (lifeEnter to_ s) else lifeEnter to_ s) := by
    split
    · exact h.trans (fuseAuth_kept _)
    · exact h
  split
  · exact h2.trans (generate_kept _)
  · exact h2

theorem lifeTurn_lc (to_ : LifeCycle) (s : State) : (lifeTurn to_ s).core.nv.lc = to_ := by
  unfold lifeTurn
  dsimp only
  have h2 : (if s.core.nv.lc = .blank then fuseAuth (lifeEnter to_ s) else lifeEnter to_ s).core.nv.lc = to_ := by
    split
    · rw [fuseAuth_nv, lifeEnter_nv]
    · rw [lifeEnter_nv]
  split
  · rw [generate_lc, h2]
  · exact h2

/-- The fuse after a transition: written from BLANK, otherwise as before (R456). -/
theorem lifeTurn_fuse (to_ : LifeCycle) (s : State) :
    (lifeTurn to_ s).fuse = if s.core.nv.lc = .blank then { fused := true, hash := sha256 (authSlots s.core) } else s.fuse := by
  have h2 : (if s.core.nv.lc = .blank then fuseAuth (lifeEnter to_ s) else lifeEnter to_ s).fuse =
      if s.core.nv.lc = .blank then { fused := true, hash := sha256 (authSlots s.core) } else s.fuse := by
    split
    · unfold fuseAuth authSlots
      dsimp only
      rw [lifeEnter_nv]
    · rfl
  unfold lifeTurn
  dsimp only
  split
  · rw [generate_fuse, h2]
  · exact h2

theorem lifeEnd_kept (k : Nat) (a b : LifeCycle) (s : State) : LifeKept s (lifeEnd k a b s) := ⟨rfl, rfl, rfl, rfl, .refl _⟩

theorem lifeEnd_lc (k : Nat) (a b : LifeCycle) (s : State) : (lifeEnd k a b s).core.nv.lc = s.core.nv.lc := by
  unfold lifeEnd
  dsimp only
  obtain ⟨u, hu⟩ := finish_only k 0x00 0 (lcCode b) 0 (event 0x0C4 0x0F [lcCode a, lcCode b, 1] s.core)
  rw [hu]
  exact congrArg NvSt.lc (event_nv _ _ _ _)

theorem lifeDeliver_kept (k : Nat) (d : Bytes) (s : State) : LifeKept s (lifeDeliver k d s) := by
  unfold lifeDeliver
  dsimp only
  split
  · exact ⟨rfl, rfl, rfl, rfl, .refl _⟩
  · split
    · exact ⟨rfl, rfl, rfl, rfl, .refl _⟩
    · exact (lifeTurn_kept _ s).trans (lifeEnd_kept _ _ _ _)

/-- The fuse changes only with the transition from BLANK to PROVISIONED (R456). -/
theorem lifeDeliver_fuse (k : Nat) (d : Bytes) (s : State) : (lifeDeliver k d s).fuse = s.fuse ∨
    (s.core.nv.lc = .blank ∧ (lifeDeliver k d s).core.nv.lc = .provisioned ∧
      (lifeDeliver k d s).fuse = { fused := true, hash := sha256 (authSlots s.core) }) := by
  unfold lifeDeliver
  dsimp only
  generalize lcOf (byteAt d 8) = to_
  by_cases h1 : (!lcAllowed s to_) = true
  · rw [if_pos h1]; exact .inl rfl
  · rw [if_neg h1]
    by_cases h2 : (claiming s.core && anyMoving s.core) = true
    · rw [if_pos h2]; exact .inl rfl
    · rw [if_neg h2]
      have e : ∀ a b u, (lifeEnd k a b u).fuse = u.fuse := fun _ _ _ => rfl
      rw [e, lifeEnd_lc, lifeTurn_fuse, lifeTurn_lc]
      by_cases hb : s.core.nv.lc = .blank
      · refine .inr ⟨hb, ?_, if_pos hb⟩
        revert h1
        unfold lcAllowed
        rw [hb]
        cases to_ <;> simp
      · exact .inl (if_neg hb)

/-! ### Tamper (R462 to R466) -/

theorem preemptKeys_only (c : Core) : ∃ h, preemptKeys c = { c with host := h } := by
  unfold preemptKeys
  exact foldHost_only _ (fun c e => by
    split
    · exact finish_only _ _ _ _ _ _
    · exact ⟨_, rfl⟩) _ c

theorem setDevLatch_only (n : Nat) (c : Core) : ∃ d, setDevLatch n c = { c with nv.dev := d } ∧ d.set = true := by
  unfold setDevLatch
  split
  · exact ⟨c.nv.dev, rfl, ‹_›⟩
  · exact ⟨_, rfl, rfl⟩

/-- The fault of an erase: its record and the device latch (R465). -/
theorem eraseFault_only (c : Core) : ∃ u d, applyFault ⟨0x405, 255, 255⟩ c = { c with recd := u, nv.dev := d } ∧ d.set = true := by
  unfold applyFault
  obtain ⟨u, e⟩ := recordFault_only ⟨0x405, 255, 255⟩ c
  obtain ⟨d, g, hd⟩ := setDevLatch_only 0x405 { c with recd := u }
  rw [e]
  exact ⟨u, d, g, hd⟩

/-- An ERASE-class detection: a unit in use has its device latch set (R465). -/
theorem eraseCore_only (src : TamperSource) (c : Core) : ∃ h u d q b n, eraseCore src c =
    { c with host := h, recd := u, nv.dev := d, seq := q, sys.erased := b, sys.eraseAge := n } ∧ (inUse c.nv.lc = true → d.set = true) := by
  unfold eraseCore
  have h1 : ∃ u, (if c.sys.inReset = true then c else event 0x0C1 0x0F [tamperCode src, modeCode c.sys.mode] c) = { c with recd := u } := by
    split
    · exact ⟨_, rfl⟩
    · exact event_only _ _ _ _
  obtain ⟨u, e⟩ := h1
  obtain ⟨h, e2⟩ := preemptKeys_only { c with recd := u }
  dsimp only
  rw [e, e2]
  dsimp only
  by_cases hu : inUse c.nv.lc = true
  · rw [if_pos hu]
    have h3 : ∃ v d, (if c.sys.inReset = true then setDevLatch 0x405 { c with recd := u, host := h }
        else applyFault ⟨0x405, 255, 255⟩ { c with recd := u, host := h }) = { c with recd := v, host := h, nv.dev := d } ∧ d.set = true := by
      split
      · obtain ⟨d, g, hd⟩ := setDevLatch_only 0x405 { c with recd := u, host := h }
        exact ⟨u, d, g, hd⟩
      · obtain ⟨v, d, g, hd⟩ := eraseFault_only { c with recd := u, host := h }
        exact ⟨v, d, g, hd⟩
    obtain ⟨v, d, g, hd⟩ := h3
    rw [g]
    split
    · exact ⟨h, v, d, _, true, _, rfl, fun _ => hd⟩
    · exact ⟨h, v, d, c.seq, c.sys.erased, c.sys.eraseAge, rfl, fun _ => hd⟩
  · rw [if_neg hu]
    exact ⟨h, u, c.nv.dev, c.seq, c.sys.erased, c.sys.eraseAge, rfl, fun x => absurd x hu⟩

/-- The record of an ERASE, where one is written, and the operations that it preempts (R465). -/
theorem eraseHead (src : TamperSource) (c : Core) : ∃ u h,
    preemptKeys (if c.sys.inReset then c else event 0x0C1 0x0F [tamperCode src, modeCode c.sys.mode] c) = { c with recd := u, host := h } := by
  have h1 : ∃ u, (if c.sys.inReset = true then c else event 0x0C1 0x0F [tamperCode src, modeCode c.sys.mode] c) = { c with recd := u } := by
    split
    · exact ⟨_, rfl⟩
    · exact event_only _ _ _ _
  obtain ⟨u, e⟩ := h1
  obtain ⟨h, e2⟩ := preemptKeys_only { c with recd := u }
  exact ⟨u, h, by rw [e, e2]⟩

/-- An ERASE in a mode that runs programs: every host flag but HF15 is cleared (R466). -/
theorem eraseCore_flags (src : TamperSource) (c : Core) (hu : inUse c.nv.lc = true) (hst : stepsIn c.sys.mode = true)
    (hr : c.sys.inReset = false) : (eraseCore src c).sys.erased = true ∧ ∀ n, n < 13 → (chAt (eraseCore src c) n).hf = (chAt c n).hf &&& 0x8000 := by
  obtain ⟨u, h, e⟩ := eraseHead src c
  unfold eraseCore
  dsimp only
  rw [e]
  dsimp only
  rw [if_pos hu]
  obtain ⟨v, d2, g2, -⟩ := eraseFault_only { c with recd := u, host := h }
  have e3 : (if c.sys.inReset = true then setDevLatch 0x405 { c with recd := u, host := h }
      else applyFault ⟨0x405, 255, 255⟩ { c with recd := u, host := h }) = { c with recd := v, host := h, nv.dev := d2 } := by
    rw [if_neg (by rw [hr]; decide)]
    exact g2
  rw [e3]
  dsimp only
  rw [if_pos (by rw [hst, hr]; rfl)]
  refine ⟨rfl, fun n hn => ?_⟩
  unfold clearFlags chAt
  dsimp only
  rw [tget_range, if_pos hn]

/-- An ERASE of a unit not in use has no effect beyond the wipe (R465). -/
theorem eraseCore_rest (src : TamperSource) (c : Core) (hu : inUse c.nv.lc = false) :
    (eraseCore src c).nv.dev = c.nv.dev ∧ (eraseCore src c).seq = c.seq := by
  obtain ⟨u, h, e⟩ := eraseHead src c
  unfold eraseCore
  dsimp only
  rw [e]
  dsimp only
  rw [if_neg (by rw [hu]; decide)]
  exact ⟨rfl, rfl⟩

end Sys2Proof.Machine
end

