-- ==== Sys2Proof/Laws/Units.lean ====
section
/-! SUPPORT. What the operations on units use: the end of an earlier manual move, of a force, of the operations that a mode does not
permit; the key slots; a life-cycle transition (R124, R179, R353, R457, R460). -/

namespace Sys2Proof.Machine

theorem begun_facts (k : Nat) (x : SlotSt) (c : Core) : ∃ l, begun k x c =
    { c with host := { c.host with slots := l }, twin := { c.twin with carry := (carryOp x.desc c).twin.carry } } := ⟨_, begun_eq k x c⟩

theorem ends_begun (k : Nat) (x : SlotSt) (st d r0 r1 : Nat) (c : Core) (hk : k < 512) (hd : x.done = none) :
    EndsOp k x st d r0 r1 c (finish k st d r0 r1 (begun k x c)) := ends_op k x st d r0 r1 c _ hk hd (begun_eq k x c)

theorem endParts_other (k st d j : Nat) (l : List Nat) (c : Core) (h : j ≠ k) :
    slotAt (l.foldl (fun c p => endPart k p st d c) c) j = slotAt c j := by
  induction l generalizing c with
  | nil => rfl
  | cons a r ih => rw [List.foldl_cons, ih, endPart_other _ _ _ _ _ _ h]

theorem endParts_host (k st d : Nat) (l : List Nat) (c : Core) : ∃ h n, l.foldl (fun c p => endPart k p st d c) c =
    { c with host := { c.host with slots := h, finished := n } } := by
  induction l generalizing c with
  | nil => exact ⟨_, _, rfl⟩
  | cons a r ih =>
    obtain ⟨l, n, e⟩ := endPart_host k a st d c
    obtain ⟨l2, n2, e2⟩ := ih (endPart k a st d c)
    rw [List.foldl_cons, e2, e]
    exact ⟨_, _, rfl⟩

theorem endAll_other (k st d j : Nat) (c : Core) (h : j ≠ k) : slotAt (endAll k st d c) j = slotAt c j := by
  unfold endAll
  split
  · split
    · exact endParts_other _ _ _ _ _ _ h
    · exact finish_other _ _ _ _ _ _ _ h
  · rfl

theorem endAll_host (k st d : Nat) (c : Core) : ∃ l n, endAll k st d c = { c with host := { c.host with slots := l, finished := n } } := by
  unfold endAll
  split
  · split
    · exact endParts_host _ _ _ _ _
    · exact finish_host _ _ _ _ _ _
  · exact ⟨_, _, rfl⟩

/-- What ending an operation of opcode 0x38 does to a slot that holds one. -/
theorem endAll_move (k st d : Nat) (c : Core) (y : SlotSt) (h : slotAt c k = some y) (ho : slotOp y = 0x38) :
    endAll k st d c = finish k st d 0 0 c := by
  unfold endAll
  rw [h]
  dsimp only
  rw [if_neg (by rw [ho]; simp)]

def endMove (k : Nat) (s : Option Nat) (c : Core) : Core := match s with
  | some j => if j = k then c else endAll j 0x40 0 c
  | none => c

theorem endMove_host (k : Nat) (s : Option Nat) (c : Core) : ∃ l n, endMove k s c = { c with host := { c.host with slots := l, finished := n } } := by
  unfold endMove
  split
  · split
    · exact ⟨_, _, rfl⟩
    · exact endAll_host _ _ _ _
  · exact ⟨_, _, rfl⟩

theorem endMove_other (k j : Nat) (s : Option Nat) (c : Core) (h : s ≠ some j ∨ j = k) : slotAt (endMove k s c) j = slotAt c j := by
  unfold endMove
  cases s with
  | none => rfl
  | some i =>
    dsimp only
    by_cases hi : i = k
    · rw [if_pos hi]
    · rw [if_neg hi]
      refine endAll_other _ _ _ _ _ ?_
      rcases h with h | h
      · exact fun e => h (by rw [e])
      · rw [h]; exact Ne.symm hi

theorem endMoves_host (k : Nat) (a b d : Option Nat) (c : Core) : ∃ l n, endMove k d (endMove k b (endMove k a c)) = { c with host := { c.host with slots := l, finished := n } } := by
  obtain ⟨l1, n1, e1⟩ := endMove_host k a c
  obtain ⟨l2, n2, e2⟩ := endMove_host k b (endMove k a c)
  obtain ⟨l3, n3, e3⟩ := endMove_host k d (endMove k b (endMove k a c))
  rw [e3, e2, e1]
  exact ⟨_, _, rfl⟩

/-- After the ends, a slot with a MANUAL_MOVE is as before, or has ended. -/
def MoveEnds (j : Nat) (y : SlotSt) (c : Core) : Prop := slotAt c j = some y ∨ (∃ z, slotAt c j = some z ∧ z.done ≠ none ∧ slotOp z = 0x38) ∧ Ended j 0x40 0 0 0 c

theorem endMove_step (k j : Nat) (s : Option Nat) (c : Core) (y : SlotSt) (hk : j ≠ k) (hj : j < 512) (ho : slotOp y = 0x38) (hd : y.done = none)
    (h : MoveEnds j y c) : MoveEnds j y (endMove k s c) ∧ (s = some j → Ended j 0x40 0 0 0 (endMove k s c)) := by
  by_cases hs : s = some j
  · subst hs
    unfold endMove
    dsimp only
    rw [if_neg hk]
    rcases h with h | ⟨⟨z, h, hz, hzo⟩, he⟩
    · rw [endAll_move j 0x40 0 c y h ho]
      have f := finish_slot j 0x40 0 0 0 c y h hd hj
      exact ⟨.inr ⟨⟨_, f, by simp, ho⟩, finish_ends j _ _ _ _ _ _ h hd hj⟩, fun _ => finish_ends j _ _ _ _ _ _ h hd hj⟩
    · rw [endAll_move j 0x40 0 c z h hzo, finish_done _ _ _ _ _ _ (by intro w hw; rw [h] at hw; cases hw; exact hz)]
      exact ⟨.inr ⟨⟨z, h, hz, hzo⟩, he⟩, fun _ => he⟩
  · refine ⟨?_, fun e => absurd e hs⟩
    have e := endMove_other k j s c (.inl hs)
    unfold MoveEnds Ended at *
    rw [e]
    exact h

theorem endForce_none (u st d r : Nat) (c : Core) (h : tget none c.seq.forces u = none) : endForce u st d r c = c := by
  unfold endForce; rw [h]

theorem endForce_some (u st d r : Nat) (c : Core) (f : ForceSt) (h : tget none c.seq.forces u = some f) :
    endForce u st d r c = finish f.slot st d r 0 { c with seq := { c.seq with forces := tset none c.seq.forces u none } } := by
  unfold endForce; rw [h]

theorem endForce_facts (u st r : Nat) (c : Core) :
    (∃ l n, endForce u st 0 r c = { c with host := { c.host with slots := l, finished := n }, seq := { c.seq with forces := (endForce u st 0 r c).seq.forces } }) ∧
    (∀ q, tget none (endForce u st 0 r c).seq.forces q = if q = u then none else tget none c.seq.forces q) ∧
    (∀ j, (∀ f, tget none c.seq.forces u = some f → f.slot ≠ j) → slotAt (endForce u st 0 r c) j = slotAt c j) ∧
    (∀ f y, tget none c.seq.forces u = some f → f.slot < 512 → slotAt c f.slot = some y → y.done = none → Ended f.slot st 0 r 0 (endForce u st 0 r c)) := by
  cases h : tget none c.seq.forces u with
  | none =>
    rw [endForce_none _ _ _ _ _ h]
    refine ⟨⟨c.host.slots, c.host.finished, rfl⟩, fun q => ?_, fun _ _ => rfl, fun f y hf => by cases hf⟩
    by_cases e : q = u
    · rw [if_pos e, e, h]
    · rw [if_neg e]
  | some f =>
    rw [endForce_some _ _ _ _ _ f h]
    obtain ⟨l, n, e⟩ := finish_host f.slot st 0 r 0 { c with seq := { c.seq with forces := tset none c.seq.forces u none } }
    refine ⟨⟨l, n, by rw [e]⟩, fun q => ?_, fun j hj => ?_, fun g y hg h2 h3 h4 => ?_⟩
    · rw [e]
      dsimp only
      rw [tget_tset]
      by_cases h : u = q
      · rw [if_pos h, if_pos h.symm]
      · rw [if_neg h, if_neg (Ne.symm h)]
    · rw [finish_other _ _ _ _ _ _ _ (Ne.symm (hj f rfl))]
      rfl
    · cases hg
      exact finish_ends _ _ _ _ _ _ y h3 h4 h2

theorem any_filter {α : Type} (l : List α) (p q : α → Bool) : (l.filter p).any q = true ↔ ∃ a ∈ l, p a = true ∧ q a = true := by
  simp [List.any_eq_true]

theorem mem_tput {α : Type} (t : Table α) (k : Nat) (v : α) (e : Nat × α) (h : e ∈ tput t k v) : e = (k, v) ∨ e ∈ t := by
  induction t with
  | nil => simp [tput] at h; exact .inl h
  | cons a r ih =>
    obtain ⟨i, w⟩ := a
    unfold tput at h
    split at h
    · rcases List.mem_cons.mp h with h | h
      · exact .inl h
      · exact .inr h
    · split at h
      · rcases List.mem_cons.mp h with h | h
        · exact .inl h
        · exact .inr (List.mem_cons_of_mem _ h)
      · rcases List.mem_cons.mp h with h | h
        · exact .inr (by rw [h]; exact List.mem_cons_self ..)
        · rcases ih h with h | h
          · exact .inl h
          · exact .inr (List.mem_cons_of_mem _ h)

theorem mem_tset_some (t : Table (Option SlotSt)) (k : Nat) (v : SlotSt) (e : Nat × Option SlotSt) (h : e ∈ tset none t k (some v)) : e = (k, some v) ∨ e ∈ t := by
  unfold tset at h
  rw [if_neg (by simp)] at h
  exact mem_tput t k _ e h

theorem live_mem (c : Core) (e : Nat × SlotSt) (h : e ∈ liveSlots c) : (e.1, some e.2) ∈ c.host.slots := by
  unfold liveSlots at h
  obtain ⟨⟨i, o⟩, h1, h2⟩ := List.mem_filterMap.mp h
  cases o with
  | none => cases h2
  | some y =>
    dsimp only at h2
    split at h2
    · cases h2; exact h1
    · cases h2

theorem endAll_mode (k st d : Nat) (c : Core) : (endAll k st d c).sys = c.sys := by
  obtain ⟨h, e⟩ := endAll_only k st d c
  rw [e]

theorem preempt_keeps (c : Core) (k op : Nat) (h : ∀ y, (k, some y) ∈ c.host.slots → slotOp y = op) (ho : opGoesOn c.sys.mode op = true) :
    slotAt (preempt c) k = slotAt c k := by
  unfold preempt
  have key : ∀ (l : List (Nat × SlotSt)) (e : Core), e.sys.mode = c.sys.mode → (∀ a ∈ l, a.1 = k → slotOp a.2 = op) →
      slotAt (l.foldl (fun d e => if opGoesOn d.sys.mode (slotOp e.2) || clearSlot c == some e.1 then d else endAll e.1 0x40 (modeCode d.sys.mode) d) e) k = slotAt e k := by
    intro l
    induction l with
    | nil => intro e _ _; rfl
    | cons a r ih =>
      intro e he hl
      rw [List.foldl_cons]
      by_cases hg : (opGoesOn e.sys.mode (slotOp a.2) || clearSlot c == some a.1) = true
      · rw [if_pos hg]
        exact ih e he (fun b hb => hl b (List.mem_cons_of_mem _ hb))
      · rw [if_neg hg]
        have hne : k ≠ a.1 := by
          intro hk
          apply hg
          rw [he, hl a (List.mem_cons_self ..) hk.symm, ho]
          rfl
        rw [ih _ (by rw [endAll_mode]; exact he) (fun b hb => hl b (List.mem_cons_of_mem _ hb)), endAll_other _ _ _ _ _ hne]
  refine Eq.trans ?_ (key (liveSlots c) c rfl (fun a ha hk => h a.2 (by rw [← hk]; exact live_mem c a ha)))
  rfl

theorem changeMode_slot (m : Mode) (cause kind p1 : Nat) (c : Core) (k op : Nat) (h : ∀ y, (k, some y) ∈ c.host.slots → slotOp y = op)
    (ho : opGoesOn m op = true) : slotAt (changeMode m cause kind p1 c) k = slotAt c k := by
  unfold changeMode setRole powerBanks
  dsimp only
  rw [endDiscipline_only]
  obtain ⟨u, e⟩ := event_only 0x001 0x00 [(if kind = 0 then modeCode c.sys.mode else c.sys.oldMode) + modeCode m * 256 + cause * 65536 + kind * 2 ^ 24, p1] c
  rw [e]
  dsimp only
  exact preempt_keeps _ k op h ho

theorem moved_facts (s : State) (k : Fin 512) (x : SlotSt) (m : Mode) (cause : Nat) (w : Bool) (b : Core) (hx : Ready k 0x58 x s.core) (hm : opGoesOn m 0x58 = true)
    (hk : (m == .safeTalk || m == .lockout) = false)
    (hb : b = { begun k x s.core with sys := { (begun k x s.core).sys with wsRelease := w } }) :
    let c := s.core
    let e := changeMode m cause 0 0 b
    let t : State := { s with core := finish k 0x00 0 e.nv.epoch.toNat (modeCode e.sys.mode) e }
    (t.core.sys.mode = m ∧
        ((∀ y, (k.val, some y) ∈ c.host.slots → slotOp y = 0x58) → Ended k 0x00 0 c.nv.epoch.toNat (modeCode m) t.core) ∧
        t = { s with core := { c with
          sys := { c.sys with mode := m, wsRelease := t.core.sys.wsRelease }, recd := t.core.recd
          tb := (endDiscipline m c).tb, twin := { (endDiscipline m c).twin with role := t.core.twin.role, carry := t.core.twin.carry }
          mem.banks := t.core.mem.banks, host := t.core.host, seq := t.core.seq, cam := t.core.cam } }) ∧
      t.core.sys.wsRelease = w := by
  dsimp only
  obtain ⟨u, bk, h, q, cm, he⟩ := changeMode_only m cause 0 0 b
  have bs := begun_slot k x s.core
  have es := fun hl => changeMode_slot m cause 0 0 b k 0x58 hl hm
  have bb : slotAt b k = slotAt (begun k x s.core) k := by rw [hb]; rfl
  have bh : b.host.slots = tset none s.core.host.slots k (some { x with started := true, visible := s.core.seq.now + 1 }) := by
    rw [hb, begun_eq]
  rw [begun_eq] at hb
  rw [hk] at he
  generalize changeMode m cause 0 0 b = e at *
  obtain ⟨l2, n2, hf⟩ := finish_host k 0x00 0 e.nv.epoch.toNat (modeCode e.sys.mode) e
  have hmode : e.sys.mode = m := by rw [he]
  have hep : e.nv.epoch = s.core.nv.epoch := by rw [he, hb]
  refine ⟨⟨?_, ?_, ?_⟩, ?_⟩
  · rw [hf]; exact hmode
  · intro hl
    rw [← hep, ← hmode]
    refine finish_ends k 0x00 0 _ _ e _ ((es ?_).trans (bb.trans bs)) hx.running k.isLt
    intro y hy
    rw [bh] at hy
    rcases mem_tset_some _ _ _ _ hy with h | h
    · cases h; exact hx.opcode
    · exact hl y h
  · rw [endDiscipline_only, hf, he, hb]
    rfl
  · rw [hf, he, hb]

theorem allZero_iff (b : Bytes) : allZero b = false ↔ ∃ y ∈ b, y ≠ 0 := by
  unfold allZero
  simp [List.all_eq_false]

theorem lifeTurn_spec (to_ : LifeCycle) (s : State) :
    let t := lifeTurn to_ s
    t.core.nv.lc = to_ ∧ t.core.nv.cert = [] ∧ t.onyx = { identity := t.onyx.identity } ∧
    (to_ = .provisioned ∨ to_ = .field → t.onyx.identity.length = 32 ∧ t.core.nv.pub = ecPublic t.onyx.identity ∧ ∃ b, t.store = addCheck b s.store) ∧
    (to_ ≠ .provisioned → to_ ≠ .field → t.onyx.identity = [] ∧ t.core.nv.pub = s.core.nv.pub ∧ t.store = s.store) ∧
    t = { s with
      fuse := t.fuse, onyx := t.onyx, store := t.store
      core := { s.core with
        sys := { s.core.sys with wipedRec := t.core.sys.wipedRec }
        nv := { s.core.nv with lc := to_, cert := [], pub := t.core.nv.pub }, recd := t.core.recd, free := t.core.free } } := by
  dsimp only
  -- the state entered, and the fuse
  have enter : ∃ w u, lifeEnter to_ s = { s with
      onyx := {}
      core := { s.core with sys := { s.core.sys with wipedRec := w }, nv := { s.core.nv with lc := to_, cert := [] }, recd := u } } := by
    unfold lifeEnter wipeOnyx wipedRecord
    dsimp only
    split
    · exact ⟨_, s.core.recd, rfl⟩
    · obtain ⟨u, e⟩ := event_only 0x0C2 0x0F [2] { s.core with nv := { s.core.nv with lc := to_, cert := [] } }
      rw [e]
      exact ⟨s.core.sys.wipedRec, u, rfl⟩
  obtain ⟨w, u, he⟩ := enter
  have fused : ∃ f u, (if s.core.nv.lc = .blank then fuseAuth (lifeEnter to_ s) else lifeEnter to_ s) = { s with
      fuse := f, onyx := {}
      core := { s.core with sys := { s.core.sys with wipedRec := w }, nv := { s.core.nv with lc := to_, cert := [] }, recd := u } } := by
    rw [he]
    split
    · unfold fuseAuth
      dsimp only
      generalize sha256 _ = h
      obtain ⟨u2, e⟩ := event_only 0x0C5 0x0F [field h 0 4, field h 4 4] { s.core with
        sys := { s.core.sys with wipedRec := w }, nv := { s.core.nv with lc := to_, cert := [] }, recd := u }
      rw [e]
      exact ⟨_, u2, rfl⟩
    · exact ⟨s.fuse, u, rfl⟩
  obtain ⟨f, u2, hf⟩ := fused
  unfold lifeTurn
  dsimp only
  rw [hf]
  by_cases hi : inUse to_ = true
  · rw [if_pos hi]
    unfold generate drawNoise
    dsimp only
    generalize (beNat (sha256 _) % (p256N - 1) + 1) = key
    unfold takeIdentity keyEntry
    dsimp only
    refine ⟨rfl, rfl, rfl, fun _ => ⟨toLe_length _ _, rfl, _, rfl⟩, fun h1 h2 => ?_, rfl⟩
    exfalso
    cases to_
    · exact absurd hi (by decide)
    · exact h1 rfl
    · exact h2 rfl
    · exact absurd hi (by decide)
    · exact absurd hi (by decide)
  · rw [if_neg hi]
    refine ⟨rfl, rfl, rfl, fun h => ?_, fun _ _ => ⟨rfl, rfl, rfl⟩, rfl⟩
    exfalso
    rcases h with h | h <;> rw [h] at hi <;> exact hi rfl

end Sys2Proof.Machine
end

