-- ==== Sys2Proof/Laws/Loads.lean ====
section
/-! SUPPORT. The three loads: what their checks read, what is stored, and how a load ends (R119, R154, R185, R486). -/

namespace Sys2Proof.Machine

theorem ends_unread (k : Nat) (x : SlotSt) (c : Core) (hk : k < 512) (hd : x.done = none) :
    EndsOp k x 0x32 0 0 0 (hpCount 36 c) (finish k 0x32 0 0 0 (hpCount 36 (begun k x c))) := by
  refine ends_op k x _ _ _ _ (hpCount 36 c) _ hk hd ?_
  unfold hpCount
  rw [begun_eq, carryOp_congr x.desc { c with host := { c.host with counters := tmod 0 c.host.counters 36 (· + 1) } } c rfl]

theorem signedBy_congr (c e : Core) (h : c.nv = e.nv) (m : Image) (a b : Nat) : signedBy c m a b = signedBy e m a b := by
  unfold signedBy; rw [h]

theorem cfgCheck_congr (c e : Core) (h : c.nv = e.nv) (m : Image) : cfgCheck c m = cfgCheck e m := by
  unfold cfgCheck cfgForm progsFit
  rw [h, signedBy_congr c e h]

theorem progCheck_congr (c e : Core) (h : c.nv = e.nv) (n : Nat) (m : Image) : progCheck c n m = progCheck e n m := by
  unfold progCheck progBody storedOf
  rw [h, signedBy_congr c e h]

theorem dirCheck_congr (c e : Core) (h : c.nv = e.nv) (m : Image) : dirCheck c m = dirCheck e m := by
  unfold dirCheck
  rw [h, signedBy_congr c e h]

/-- The end of a load. -/
theorem loadDone_facts (k kind chan : Nat) (b : Bytes) (r0 r1 : Nat) (c : Core) (y : SlotSt) (h : slotAt c k = some y) (hd : y.done = none) (hk : k < 512) :
    let e := loadDone k kind chan b r0 r1 c
    (paired c = false ∨ standbySynced c = true → Ended k 0x00 0 r0 r1 e) ∧
    (paired c = true → standbySynced c = false → Ended k 0x01 0x01 r0 r1 e) ∧
    (∀ j, j ≠ k → slotAt e j = slotAt c j) ∧
    (paired c = false ∨ standbySynced c = false → e.twin = c.twin) ∧
    e = { c with host := { c.host with slots := e.host.slots, finished := e.host.finished }, twin := { c.twin with txSeq := e.twin.txSeq, txPieces := e.twin.txPieces } } := by
  dsimp only
  unfold loadDone
  cases hp : paired c with
  | false =>
    rw [if_pos (by decide)]
    obtain ⟨l, n, e⟩ := finish_host k 0x00 0 r0 r1 c
    refine ⟨fun _ => finish_ends k _ _ _ _ c y h hd hk, (fun h => by cases h), fun j hj => finish_other _ _ _ _ _ _ _ hj, fun _ => by rw [e], by rw [e]⟩
  | true =>
    rw [if_neg (by decide)]
    cases hs : standbySynced c with
    | true =>
      rw [if_pos rfl]
      obtain ⟨q, o, e2⟩ := sendImage_only kind chan b c
      have hsl : ∀ j, slotAt (sendImage kind chan b c) j = slotAt c j := by intro j; rw [e2]; rfl
      obtain ⟨l, n, e⟩ := finish_host k 0x00 0 r0 r1 (sendImage kind chan b c)
      refine ⟨fun _ => finish_ends k _ _ _ _ _ y ((hsl k).trans h) hd hk, (fun _ h => by cases h), fun j hj => (finish_other _ _ _ _ _ _ _ hj).trans (hsl j), ?_, by rw [e, e2]⟩
      intro h
      rcases h with h | h <;> cases h
    | false =>
      rw [if_neg (by decide)]
      obtain ⟨l, n, e⟩ := finish_host k 0x01 0x01 r0 r1 c
      refine ⟨?_, fun _ _ => finish_ends k _ _ _ _ c y h hd hk, fun j hj => finish_other _ _ _ _ _ _ _ hj, fun _ => by rw [e], by rw [e]⟩
      intro h
      rcases h with h | h <;> cases h

/-- A load in a pair whose standby is synchronised sends its image (R119). -/
theorem loadDone_sends (k kind chan : Nat) (b : Bytes) (r0 r1 : Nat) (c : Core) (h : twinUp c = true) (hs : standbySynced c = true) :
    (loadDone k kind chan b r0 r1 c).twin.txPieces.map (fun e => (e.1, e.2.2)) = c.twin.txPieces.map (fun e => (e.1, e.2.2)) ++
      (pieces b).map fun e => (0x13, toLe 1 kind ++ toLe 1 chan ++ [0, 0] ++ toLe 4 b.length ++ toLe 4 e.1 ++ e.2) := by
  have hp : paired c = true := by unfold twinUp at h; simp only [Bool.and_eq_true] at h; exact h.1.1.1
  unfold loadDone
  rw [if_neg (by rw [hp]; decide), if_pos hs]
  obtain ⟨l, n, e⟩ := finish_host k 0x00 0 r0 r1 (sendImage kind chan b c)
  rw [e]
  exact sendImage_pieces kind chan b c h

theorem storeConfig_facts (m : Image) (s : State) :
    let t := storeConfig m s
    t.core.nv.cfg = some m ∧ t.core.nv.svcAddr = img8 m secSys ∧
      t.core.run = { s.core.run with cfg := if s.core.run.cfg = none then some m else s.core.run.cfg } ∧
      (s.core.run.cfg ≠ none → t.core.nv.valid = s.core.nv.valid ∧ t.die = s.die ∧ t.core.fld = s.core.fld) ∧
      (s.core.run.cfg = none → t.core.fld = { s.core.fld with loaded := true } ∧
            t.die = loadSection (fieldSec m) (stopContacts (imgPart m secSafe 2240)) s.die) ∧
      t = { s with
        die := t.die
        core := { s.core with
          nv := { s.core.nv with cfg := t.core.nv.cfg, svcAddr := t.core.nv.svcAddr, valid := t.core.nv.valid }
          run := t.core.run, recd := t.core.recd, fld := t.core.fld } } := by
  dsimp only
  unfold storeConfig
  dsimp only
  cases hr : s.core.run.cfg with
  | some o =>
    obtain ⟨u, e⟩ := event_only 0x021 0x02 [field (sha256 (imgBytes m)) 0 4, field (sha256 (imgBytes m)) 4 4]
      { s.core with nv := { s.core.nv with cfg := some m, svcAddr := img8 m secSys } }
    rw [if_pos (by rfl)]
    dsimp only
    rw [e]
    dsimp only
    refine ⟨rfl, rfl, ?_, fun _ => ⟨rfl, rfl, rfl⟩, (fun h => by cases h), rfl⟩
    rw [if_neg (by simp), ← hr]
  | none =>
    rw [if_neg (by decide)]
    unfold loadField keepBaselines rebaseBuckets
    dsimp only
    generalize (tmake 0 1024 _ : Table Nat) = tk
    generalize (s.core.nv.valid.filter _) = vl
    obtain ⟨u, e⟩ := event_only 0x021 0x02 [field (sha256 (imgBytes m)) 0 4, field (sha256 (imgBytes m)) 4 4]
      { s.core with
        nv := { s.core.nv with cfg := some m, svcAddr := img8 m secSys, valid := vl }, run := { s.core.run with cfg := some m }
        recd := { s.core.recd with used := tk }, fld := { s.core.fld with loaded := true } }
    rw [e]
    exact ⟨rfl, rfl, rfl, fun h => absurd rfl h, fun _ => ⟨rfl, rfl⟩, rfl⟩


/-- A load that passes: the core after the load's own effects, which are not in the slots. -/
theorem load_slot (k : Nat) (x : SlotSt) (c e : Core) (h : e.host.slots = (begun k x c).host.slots) :
    slotAt e k = some { x with started := true, visible := c.seq.now + 1 } ∧ ∀ j, j ≠ k → slotAt e j = slotAt c j := by
  have : ∀ j, slotAt e j = slotAt (begun k x c) j := by intro j; unfold slotAt; rw [h]
  exact ⟨(this k).trans (begun_slot k x c), fun j hj => (this j).trans (begun_other k j x c hj)⟩

theorem storeProgram_facts (n : Nat) (g : Image) (c : Core) :
    let e := storeProgram n g c
    (∀ j, tget {} e.nv.progs j = if j = n then g else tget {} c.nv.progs j) ∧
    (∀ j, progOf e j = if j = n ∧ (progOf c n).len = 0 ∧ c.nv.cfg = c.run.cfg then g else progOf c j) ∧
    e = { c with nv := { c.nv with progs := e.nv.progs }, run := { c.run with progs := e.run.progs }, recd := e.recd } := by
  dsimp only
  unfold storeProgram
  dsimp only
  by_cases h : ((progOf c n).len = 0 && c.nv.cfg == c.run.cfg) = true
  · rw [if_pos h]
    obtain ⟨u, e⟩ := event_only 0x020 0x02 [n, img32 g 20, img32 g 24] { c with nv := { c.nv with progs := tset {} c.nv.progs n g }, run := { c.run with progs := tset {} c.run.progs n g } }
    rw [e]
    dsimp only
    simp only [Bool.and_eq_true, decide_eq_true_eq, beq_iff_eq] at h
    refine ⟨fun j => ?_, fun j => ?_, rfl⟩
    · rw [tget_tset]
      by_cases q : n = j
      · rw [if_pos q, if_pos q.symm]
      · rw [if_neg q, if_neg (Ne.symm q)]
    · unfold progOf
      dsimp only
      rw [tget_tset]
      by_cases q : n = j
      · rw [if_pos q, if_pos ⟨q.symm, h⟩]
      · rw [if_neg q, if_neg (fun r => q r.1.symm)]
  · rw [if_neg h]
    obtain ⟨u, e⟩ := event_only 0x020 0x02 [n, img32 g 20, img32 g 24] { c with nv := { c.nv with progs := tset {} c.nv.progs n g } }
    rw [e]
    dsimp only
    simp only [Bool.and_eq_true, decide_eq_true_eq, beq_iff_eq] at h
    refine ⟨fun j => ?_, fun j => ?_, rfl⟩
    · rw [tget_tset]
      by_cases q : n = j
      · rw [if_pos q, if_pos q.symm]
      · rw [if_neg q, if_neg (Ne.symm q)]
    · rw [if_neg (fun r => h r.2)]
      rfl

/-- Host reads that failed, counted one by one (R102). -/
theorem reads_counted {α : Type} (l : List α) (c : Core) : ∃ ct, l.foldl (fun c _ => hpCount 36 c) c =
    { c with host := { c.host with counters := ct } } ∧
    ∀ n, tget 0 ct n = if n = 36 then tget 0 c.host.counters 36 + BitVec.ofNat 32 l.length else tget 0 c.host.counters n := by
  induction l generalizing c with
  | nil => exact ⟨c.host.counters, rfl, fun n => by split <;> simp_all⟩
  | cons a l ih =>
    obtain ⟨ct, e, h⟩ := ih (hpCount 36 c)
    refine ⟨ct, e, fun n => ?_⟩
    have hn : ∀ m, tget 0 (hpCount 36 c).host.counters m = if m = 36 then tget 0 c.host.counters 36 + 1 else tget 0 c.host.counters m := by
      intro m
      unfold hpCount tmod
      dsimp only
      rw [tget_tset]
      by_cases q : m = 36
      · rw [if_pos q.symm, if_pos q]
      · rw [if_neg (Ne.symm q), if_neg q]
    rw [h, hn, hn, if_pos rfl]
    split
    · rw [List.length_cons, BitVec.add_assoc]
      congr 1
      rw [Nat.add_comm l.length 1]
      exact (BitVec.ofNat_add 1 l.length).symm
    · rfl

theorem dirStore_facts (m : Image) (r : Table Image) (c : Core) :
    let e := dirStore m r c
    e.nv.dir = some m ∧ e.nv.resident = r ∧ (c.nv.dir ≠ none → e.run.dir = c.run.dir ∧ e.cam.pages = c.cam.pages) ∧
    (c.nv.dir = none → e.run.dir = some m ∧ e.cam.pages = residentPages r) ∧
    e = { c with nv := { c.nv with dir := e.nv.dir, resident := e.nv.resident }, run := { c.run with dir := e.run.dir }, cam := { c.cam with pages := e.cam.pages } } := by
  dsimp only
  unfold dirStore
  dsimp only
  cases h : c.nv.dir with
  | none =>
    rw [if_pos (by rfl)]
    exact ⟨rfl, rfl, fun q => absurd rfl q, fun _ => ⟨rfl, rfl⟩, rfl⟩
  | some o =>
    rw [if_neg (by simp)]
    exact ⟨rfl, rfl, fun _ => ⟨rfl, rfl⟩, (fun q => by cases q), rfl⟩

end Sys2Proof.Machine
end

