-- ==== Sys2Proof/Laws/Memory.lean ====
section
/-! SUPPORT. Bank words: reading a bank or a word after one was written. -/

namespace Sys2Proof.Machine

theorem bankAt_set (n k : Nat) (b : BankSt) (c : Core) : bankAt (setBank n b c) k = if n = k then b else bankAt c k := tget_tset ..

theorem bankRead_clean (b : BankSt) (w : Nat) (h : tget 0 b.checks w = 0) : bankRead b w = (tget 0 b.words w, .clean) := by
  unfold bankRead eccRead
  rw [if_pos h]

theorem bankWrite_words (w x : Nat) (v : U32) (b : BankSt) : tget 0 (bankWrite w v b).words x = if w = x then v else tget 0 b.words x := tget_tset ..
theorem bankWrite_checks (w x : Nat) (v : U32) (b : BankSt) : tget 0 (bankWrite w v b).checks x = if w = x then 0 else tget 0 b.checks x := by
  unfold bankWrite
  exact tget_tset (0 : Nat) b.checks w x 0

end Sys2Proof.Machine
end

