-- ==== Sys2Proof/Laws/SafeTalk.lean ====
section
/-! SUPPORT. The entry into SAFE_TALK: all that it does, and when it does nothing (R52). -/

namespace Sys2Proof.Machine

/-- The entry, from any mode but SAFE_TALK, outside a reset (R52, R54). -/
theorem safeTalk_of (cause : Nat) (s u : State) (hu : u.core.sys.mode ≠ .safeTalk) (hr : u.core.sys.inReset = false) (hf : resetting u.core = false)
    (hk : u.fuse = s.fuse ∧ u.onyx = s.onyx ∧ u.store = s.store ∧ u.core.nv = s.core.nv ∧ u.core.run = s.core.run ∧
    u.core.bar = s.core.bar ∧ u.pending = s.pending) : SafeTalk cause s (enterSafeTalk cause u) ∧
    (enterSafeTalk cause u).core.sys.fbosc = u.core.sys.fbosc ∧ (enterSafeTalk cause u).core.sys.stFail = u.core.sys.stFail ∧
    (enterSafeTalk cause u).core.sys.stLast = u.core.sys.stLast ∧
    (u.core.sys.mode = .selftest → (enterSafeTalk cause u).core.sys.hostLost = true) ∧
    (enterSafeTalk cause u).isa = islSafeTalk u.isa ∧ (enterSafeTalk cause u).isb = islSafeTalk u.isb := by
  unfold enterSafeTalk
  rw [if_neg (by simp [hu, hr, hf])]
  obtain ⟨q, o, e⟩ := relinquish_only u.core
  obtain ⟨d, r, b, h, x, w, e2, hw⟩ := safeTalkCore_only cause (relinquish u.core)
  rw [e2, e]
  dsimp only
  generalize hc : ({ u.core with
      sys := { u.core.sys with
        mode := .safeTalk, cause, wantLockout := none, svcWait := none, stStep := 0, deferred := false
        txOff := u.core.sys.txOff && u.core.sys.flush.isSome }
      twin := { { u.core.twin with txSeq := q } with synced := false, role := .none }
      out := o
      recd := r, mem.banks := b, host := h, cam := x
      seq := { (axesAllOff { u.core with twin.txSeq := q, out := o, seq := d }).seq with out := 0, forces := [] }
      tb := w } : Core) = c
  have key : ∀ c' : Core, c'.sys.mode = .safeTalk → c'.sys.cause = cause → c'.sys.fbosc = u.core.sys.fbosc → c'.sys.stFail = u.core.sys.stFail →
      c'.sys.stLast = u.core.sys.stLast → (u.core.sys.mode = .selftest → c'.sys.hostLost = true) → c'.seq = c.seq → c'.nv = c.nv → c'.run = c.run → c'.bar = c.bar →
      SafeTalk cause s { u with isa := islSafeTalk u.isa, isb := islSafeTalk u.isb, die := dieRunOff { u.die with parked := false }, core := c' } ∧
      c'.sys.fbosc = u.core.sys.fbosc ∧ c'.sys.stFail = u.core.sys.stFail ∧ c'.sys.stLast = u.core.sys.stLast ∧ (u.core.sys.mode = .selftest → c'.sys.hostLost = true) ∧
      islSafeTalk u.isa = islSafeTalk u.isa ∧ islSafeTalk u.isb = islSafeTalk u.isb := by
    intro c' h1 h2 h3 h4 h5 h9 h6 h7 h8 h10
    refine ⟨⟨⟨h1, h2⟩, ⟨rfl, rfl⟩, ⟨?_, ?_, ?_⟩, ?_, ?_⟩, h3, h4, h5, h9, rfl, rfl⟩
    · show c'.seq.out = 0
      rw [h6, ← hc]
    · show c'.seq.forces = []
      rw [h6, ← hc]
    · obtain ⟨p, e3⟩ := dieRunOff_only { u.die with parked := false }
      dsimp only
      rw [e3]
    · intro x hx
      have g : ∀ c : Core, tget {} (axesAllOff c).seq.axes x = { axAt c x with st := .off, dutyU := 32768, dutyV := 32768, dutyW := 32768 } := fun c => allOff_at c x hx
      unfold axAt
      dsimp only
      rw [h6, ← hc]
      dsimp only
      rw [g]
      exact ⟨rfl, rfl, rfl, rfl⟩
    · obtain ⟨a1, a2, a3, a4, a5, a6, a7⟩ := hk
      refine ⟨a1, a2, a3, ?_, ?_, ?_, a7⟩
      · rw [← a4]; exact h7.trans (by rw [← hc])
      · rw [← a5]; exact h8.trans (by rw [← hc])
      · rw [← a6]; exact h10.trans (by rw [← hc])
  split
  · obtain ⟨h', o', u', e4⟩ := modeEntry_only c
    rw [e4]
    exact key _ (by rw [← hc]) (by rw [← hc]) (by rw [← hc]) (by rw [← hc]) (by rw [← hc]) (fun _ => rfl) rfl rfl rfl rfl
  · rename_i hns
    exact key _ (by rw [← hc]) (by rw [← hc]) (by rw [← hc]) (by rw [← hc]) (by rw [← hc]) (fun h => absurd h hns) rfl rfl rfl rfl

/-- In SAFE_TALK, in reset and while a reset is under way there is no entry (R40, R54). -/
theorem safeTalk_not (cause : Nat) (u : State) (h : ¬(u.core.sys.inReset = false ∧ u.core.sys.mode ≠ .safeTalk ∧ resetting u.core = false)) : enterSafeTalk cause u = u := by
  unfold enterSafeTalk
  rw [if_pos]
  cases h1 : u.core.sys.inReset <;> cases h2 : resetting u.core <;> simp_all

end Sys2Proof.Machine
end

