-- ==== Sys2Proof/Laws/Service.lean ====
section
/-! SUPPORT. When a service-port query is refused, and for what reason (R58). -/

namespace Sys2Proof.Machine

/-- A query in its range is not refused; any other is, with the reason of R58. -/
theorem nak_spec (st : Stores) (b : Bytes) :
    let n := svcLen b
    let type := byteAt b 2
    let x := byteAt b 6
    let index := field b 6 4
    let count := byteAt b 10
    let good := (type ∈ [2, 3, 4] ∧ n = 0) ∨ (type = 5 ∧ n = 1 ∧ 1 ≤ x ∧ x ≤ 7 ∧ st.wE ≠ 0) ∨
      (type = 6 ∧ n = 5 ∧ 1 ≤ count ∧ count ≤ 7 ∧ index < st.wJ) ∨ (type = 7 ∧ n = 1 ∧ (x ≤ 11 ∨ x = 255)) ∨ (type = 8 ∧ n = 1 ∧ x ≤ 4)
    (nakReason st b = none ↔ good) ∧ ∀ reason, nakReason st b = some reason →
      (type < 2 ∨ 8 < type → reason = 2) ∧ (type ∈ [2, 3, 4] → reason = 1) ∧ (type ∈ [5, 7, 8] → n ≠ 1 → reason = 1) ∧
      (type = 6 → n ≠ 5 → reason = 1) ∧ (type ∈ [7, 8] → n = 1 → reason = 3) ∧
      (type = 5 → n = 1 → reason = if 1 ≤ x ∧ x ≤ 7 then 4 else 3) ∧
      (type = 6 → n = 5 → reason = if 1 ≤ count ∧ count ≤ 7 ∧ st.wJ = 0 then 4 else 3) := by
  dsimp only
  unfold nakReason operand1
  generalize svcLen b = n
  generalize byteAt b 6 = x
  generalize byteAt b 10 = cnt
  generalize field b 6 4 = ix
  generalize byteAt b 2 = ty
  by_cases h : 2 ≤ ty ∧ ty ≤ 8
  · obtain rfl | rfl | rfl | rfl | rfl | rfl | rfl : ty = 2 ∨ ty = 3 ∨ ty = 4 ∨ ty = 5 ∨ ty = 6 ∨ ty = 7 ∨ ty = 8 := by omega
    all_goals
      dsimp only [queryLen]
      by_cases hn : n = 0 <;> by_cases hn1 : n = 1 <;> by_cases hn5 : n = 5 <;> simp [hn, hn1, hn5]
    all_goals first
      | omega
      | (split <;> simp <;> omega)
      | (split <;> (try split) <;> (try split) <;> simp <;> omega)
  · have hq : queryLen ty = none := by
      unfold queryLen
      split <;> first | (exfalso; omega) | rfl
    rw [hq]
    dsimp only
    refine ⟨⟨(fun q => by cases q), fun q => ?_⟩, fun reason hr => ?_⟩
    · simp only [List.mem_cons, List.not_mem_nil, or_false] at q
      omega
    · cases hr
      simp only [List.mem_cons, List.not_mem_nil, or_false]
      refine ⟨fun _ => by trivial, ?_, ?_, ?_, ?_, ?_, ?_⟩ <;> intros <;> omega

end Sys2Proof.Machine
end

