-- ==== Sys2Proof/Laws/Topaz.lean ====
section
/-! SUPPORT. What ends a tick, the evaluation of Topaz and the sending to the twin and the train, leaves every axis link as it
was. -/

namespace Sys2Proof.Machine


theorem links_fold {α : Type} (f : Core → α → Core) (h : ∀ c a, (f c a).links = c.links) (l : List α) (c : Core) :
    (l.foldl f c).links = c.links := by
  induction l generalizing c with
  | nil => rfl
  | cons a r ih => rw [List.foldl_cons, ih, h]

theorem ite_links {p : Prop} [Decidable p] {a b c : Core} (ha : a.links = c.links) (hb : b.links = c.links) :
    (if p then a else b).links = c.links := by split <;> assumption

theorem endAll_links (k st d : Nat) (c : Core) : (endAll k st d c).links = c.links := by
  obtain ⟨u, e⟩ := endAll_only k st d c; rw [e]

theorem twinSend_links (n : Nat) (b : Bytes) (c : Core) : (twinSend n b c).links = c.links := by
  obtain ⟨q, o, e⟩ := twinSend_only n b c; rw [e]

theorem axMax_links (x k : Nat) (v : Int) (c : Core) : (axMax x k v c).links = c.links := by
  have h (p e s : Nat) (v : Int) : (entryMax p e v s c).links = c.links := ite_links (by unfold entrySet; rfl) rfl
  exact h ..

theorem thermAxis_links (x : Nat) (c : Core) : (thermAxis x c).links = c.links := by
  unfold thermAxis
  exact ite_links rfl ((axMax_links ..).trans rfl)

theorem thermalTick_links (c : Core) : (thermalTick c).links = c.links := by
  unfold thermalTick
  rw [links_fold, links_fold _ fun c x => thermAxis_links x c]
  intro c p
  have h (e : Nat) (f : Core → BitVec 12) (o : Option Nat) (d : Core) (hd : d.links = c.links) : (match o with
      | some x => if pbit (f d) p then d else event e 0x07 [p, x] d
      | none => d : Core).links = c.links := by
    cases o
    · exact hd
    · exact ite_links hd ((event_links ..).trans hd)
  exact h 0x063 (fun d => d.seq.topaz.heatCrit) _ _ (h 0x062 (fun d => d.seq.topaz.heatWarn) _ c rfl)

theorem supplyFeedback_links (c : Core) : (supplyFeedback c).links = c.links := by
  unfold supplyFeedback
  rw [links_fold]
  · exact ite_links rfl rfl
  · intro c p
    exact ite_links rfl rfl

theorem withdraw_links (p : Nat) (c : Core) : (withdraw p c).links = c.links := by
  unfold withdraw
  refine ite_links rfl ?_
  cases (msAt c p).waiting.bind MoveReq.slot with
  | none => rfl
  | some k => exact ite_links (endAll_links ..) (endAll_links ..)

theorem firstLook_links (p : Nat) (c : Core) : (firstLook p c).links = c.links := by
  unfold firstLook
  split
  · rfl
  · refine ite_links rfl ?_
    split
    · rfl
    · exact ite_links rfl (ite_links (event_links ..) rfl)

theorem closeGroup_links (p : Nat) (c : Core) : (closeGroup p c).links = c.links := by
  unfold closeGroup
  split
  · split
    · split <;> rfl
    · rfl
  · rfl

theorem grantTo_links (p : Nat) (r : MoveReq) (t : Nat) (b : Bool) (k : Nat) (c : Core) : (grantTo p r t b k c).links = c.links := by
  unfold grantTo
  exact ite_links rfl rfl

theorem grantReversals_links (c : Core) : (grantReversals c).1.links = c.links := by
  have h : ∀ (l : List Nat) (f : Core × List (Nat × Nat) → Nat → Core × List (Nat × Nat)) (r : Core × List (Nat × Nat)),
      (∀ r p, (f r p).1.links = r.1.links) → (l.foldl f r).1.links = r.1.links := by
    intro l f r hf
    induction l generalizing r with
    | nil => rfl
    | cons a q ih => rw [List.foldl_cons, ih, hf]
  unfold grantReversals
  refine h _ _ (c, []) fun r p => ?_
  split
  · rename_i q _
    rw [apply_ite Prod.fst]
    refine ite_links ?_ rfl
    exact ite_links ((event_links ..).trans (grantTo_links ..)) (grantTo_links ..)
  · rfl

theorem grantOthers_links (l : List Entry) (c : Core) (d : List (Nat × Nat)) : (grantOthers l c d).links = c.links := by
  induction l generalizing c d with
  | nil => rfl
  | cons e r ih =>
    unfold grantOthers
    split
    · exact ih ..
    · split
      · rw [ih]; unfold grantEntry; rw [links_fold]; intro c m; exact grantTo_links ..
      · rfl

theorem waitOn_links (p : Nat) (c : Core) : (waitOn p c).links = c.links := by
  unfold waitOn
  split
  · rfl
  · exact ite_links rfl (ite_links rfl rfl)

theorem topazTick_links (c : Core) : (topazTick c).links = c.links := by
  have hf : ∀ d : Core, (forgetHolders d).links = d.links := fun _ => rfl
  unfold topazTick
  dsimp only
  rw [links_fold (fun (c : Core) g => if gatherOver c g then { c with seq.due := c.seq.due ++ [.gather g] } else c) fun c g => ite_links rfl rfl,
    links_fold _ fun c p => waitOn_links p c, grantOthers_links, grantReversals_links,
    links_fold _ fun c p => closeGroup_links p c, links_fold _ fun c p => firstLook_links p c, thermalTick_links, hf,
    supplyFeedback_links, links_fold _ fun c p => withdraw_links p c]

theorem sendTick_links (c : Core) : (sendTick c).links = c.links := by
  have hi : (sendInput c).links = c.links := by
    unfold sendInput
    split
    · exact twinSend_links ..
    · rfl
  have hs : ∀ c : Core, (sendSnapshot c).links = c.links := by
    intro c
    unfold sendSnapshot
    split
    · dsimp only; split <;> rfl
    · rfl
  have hp : ∀ c : Core, (sendPieces c).links = c.links := by
    intro c
    unfold sendPieces
    split
    · rw [links_fold]; intro c e; dsimp only; split <;> rfl
    · rfl
  have h := (hs (sendInput c)).trans hi
  unfold sendTick
  dsimp only
  split
  · unfold sendHello; exact (twinSend_links ..).trans h
  · split
    · split
      · exact h
      · exact (hp _).trans h
    · exact h

/-- Neither the evaluation of Topaz nor what the twin and the train are sent touches a link. -/
theorem finishTick_links (c : Core) : (finishTick c).links = c.links := by
  have hd : ∀ c : Core, (publishDue c).links = c.links := fun c => ite_links rfl rfl
  have ht : ∀ (b p : Bool) (d : Core), d.links = c.links → (if b then (if p then topazTick d else d) else c : Core).links = c.links :=
    fun b p d h => ite_links (ite_links ((topazTick_links d).trans h) h) rfl
  have hs : ∀ (b : Bool) (d e : Core), d.links = c.links → e.links = d.links → (if b then sendTick (publishDue e) else d : Core).links = c.links :=
    fun b d e h h2 => ite_links ((sendTick_links _).trans ((hd _).trans (h2.trans h))) h
  unfold finishTick
  exact hs _ _ _ (ht _ _ { c with seq.evalDue := false } rfl) rfl

end Sys2Proof.Machine
end

