-- ==== Sys2Proof/Laws/Train.lean ====
section
/-! SUPPORT. The train-line ports: reading a port after it was changed, and what one telegram does on each port. -/

namespace Sys2Proof.Machine

theorem portAt_mod (p q : Nat) (f : PortSt → PortSt) (c : Core) : portAt (modPort p f c) q = if p = q then f (portAt c p) else portAt c q :=
  tget_tmod ..

theorem portAt_count (p off q : Nat) (c : Core) : portAt (tlCount p off c) q =
    if p = q then { portAt c p with counters := tmod 0 (portAt c p).counters off (· + 1) } else portAt c q := portAt_mod ..

theorem portAt_emit (o : Output) (c : Core) (q : Nat) : portAt (emit o c) q = portAt c q := rfl

theorem subAt_mod (k j : Nat) (f : SubSt → SubSt) (c : Core) : subAt (modSub k f c) j = if k = j then f (subAt c k) else subAt c j :=
  tget_tmod ..

theorem sendOn_down (p comId dest pcp : Nat) (b : Bytes) (c : Core) (h : (portAt c p).linkUp = false) : sendOn p comId dest pcp b c = c := by
  unfold sendOn
  rw [if_pos (by rw [h]; rfl)]

theorem sendOn_multicast (p comId dest pcp : Nat) (b : Bytes) (c : Core) (h : (portAt c p).linkUp = true) (h2 : unicast dest = false) :
    sendOn p comId dest pcp b c = emit (.telegram p (tlVid (cfgOf c) p) comId dest pcp b) (tlCount p 4 c) := by
  unfold sendOn
  rw [if_neg (by rw [h]; decide), if_pos (by rw [h2]; rfl)]

theorem sendOn_unresolved (p comId dest pcp : Nat) (b : Bytes) (c : Core) (h : (portAt c p).linkUp = true) (h2 : unicast dest = true)
    (h3 : onLink (cfgOf c) p dest = true) (h4 : dest ∉ (portAt c p).arp) :
    sendOn p comId dest pcp b c = tlCount p 32 (emit (.arp p (tlVid (cfgOf c) p) dest) (tlCount p 4 c)) := by
  unfold sendOn
  rw [if_neg (by rw [h]; decide), if_neg (by rw [h2]; simpa using fun x => absurd x h4), if_pos h3]

theorem sendOn_only (p comId dest pcp : Nat) (b : Bytes) (c : Core) : ∃ q o, sendOn p comId dest pcp b c =
    { c with train := { c.train with ports := q }, out := o } := by
  unfold sendOn
  split
  · exact ⟨_, _, rfl⟩
  · split
    · exact ⟨_, _, rfl⟩
    · split <;> exact ⟨_, _, rfl⟩

/-- The same on both ports, each under its own condition and with its own counts. -/
theorem twoPorts (g : Nat → PortSt → Bool) (o : Nat → Output) (n : Nat → Core → Core) (f : PortSt → PortSt) (c d : Core)
    (ho : ∀ p x, (n p x).out = x.out) (hp : ∀ p q x, portAt (n p x) q = if p = q then f (portAt x p) else portAt x q)
    (h : d = (fun c => if g 1 (portAt c 1) = true then emit (o 1) (n 1 c) else c)
      ((fun c => if g 0 (portAt c 0) = true then emit (o 0) (n 0 c) else c) c)) :
    d.out = (if g 1 (portAt c 1) then [o 1] else []) ++ (if g 0 (portAt c 0) then [o 0] else []) ++ c.out ∧
    (∀ p, p < 2 → portAt d p = if g p (portAt c p) then f (portAt c p) else portAt c p) := by
  dsimp only at h
  have h1 : portAt (if g 0 (portAt c 0) = true then emit (o 0) (n 0 c) else c) 1 = portAt c 1 := by
    split
    · rw [portAt_emit, hp, if_neg (by decide)]
    · rfl
  rw [h1] at h
  have l2 : ∀ p, p < 2 → p = 0 ∨ p = 1 := by omega
  constructor
  · rw [h]
    cases g 0 (portAt c 0) <;> cases g 1 (portAt c 1) <;> simp [emit, ho]
  · intro p hp'
    rcases l2 p hp' with rfl | rfl
    · rw [h]
      cases hg1 : g 1 (portAt c 1) <;> cases hg0 : g 0 (portAt c 0) <;> simp [portAt_emit, hp]
    · rw [h]
      cases hg1 : g 1 (portAt c 1) <;> cases hg0 : g 0 (portAt c 0) <;> simp [portAt_emit, hp]

/-- Two counts of one port. -/
theorem portAt_count2 (a b p q : Nat) (c : Core) : portAt (tlCount p b (tlCount p a c)) q = if p = q then
    { portAt c p with counters := tmod 0 (tmod 0 (portAt c p).counters a (· + 1)) b (· + 1) } else portAt c q := by
  rw [portAt_count, portAt_count, portAt_count]
  by_cases h : p = q
  · rw [if_pos h, if_pos rfl, if_pos h]
  · rw [if_neg h, if_neg h, if_neg h]

/-- One telegram on the ports that it names (R386): what leaves, and what is counted. -/
theorem sendBoth (B : Nat → Bool) (comId dest pcp : Nat) (b : Bytes) (c : Core) :
    let d := (List.range 2).foldl (fun c p => if B p then sendOn p comId dest pcp b c else c) c
    (∃ q o, d = { c with train := { c.train with ports := q }, out := o }) ∧
    (unicast dest = false →
      d.out = (if B 1 && (portAt c 1).linkUp then [Output.telegram 1 (tlVid (cfgOf c) 1) comId dest pcp b] else []) ++
        (if B 0 && (portAt c 0).linkUp then [Output.telegram 0 (tlVid (cfgOf c) 0) comId dest pcp b] else []) ++ c.out ∧
      ∀ p, p < 2 → portAt d p = if B p && (portAt c p).linkUp then
        { portAt c p with counters := tmod 0 (portAt c p).counters 4 (· + 1) } else portAt c p) ∧
    (unicast dest = true → (∀ p, p < 2 → onLink (cfgOf c) p dest = true ∧ dest ∉ (portAt c p).arp) →
      d.out = (if B 1 && (portAt c 1).linkUp then [Output.arp 1 (tlVid (cfgOf c) 1) dest] else []) ++
        (if B 0 && (portAt c 0).linkUp then [Output.arp 0 (tlVid (cfgOf c) 0) dest] else []) ++ c.out ∧
      ∀ p, p < 2 → portAt d p = if B p && (portAt c p).linkUp then
        { portAt c p with counters := tmod 0 (tmod 0 (portAt c p).counters 4 (· + 1)) 32 (· + 1) } else portAt c p) := by
  intro d
  have hd : d = (fun c => if B 1 then sendOn 1 comId dest pcp b c else c) (if B 0 then sendOn 0 comId dest pcp b c else c) := rfl
  clear_value d
  refine ⟨?_, ?_, ?_⟩
  · rw [hd]
    obtain ⟨q, o, e⟩ : ∃ q o, (if B 0 then sendOn 0 comId dest pcp b c else c) = { c with train := { c.train with ports := q }, out := o } := by
      split
      · exact sendOn_only _ _ _ _ _ _
      · exact ⟨_, _, rfl⟩
    rw [e]
    split
    · obtain ⟨q2, o2, e2⟩ := sendOn_only 1 comId dest pcp b { c with train := { c.train with ports := q }, out := o }
      exact ⟨q2, o2, e2⟩
    · exact ⟨_, _, rfl⟩
  · intro h
    have one : ∀ (p : Nat) (x : Core), cfgOf x = cfgOf c → (if B p then sendOn p comId dest pcp b x else x) =
        if B p && (portAt x p).linkUp then emit (.telegram p (tlVid (cfgOf c) p) comId dest pcp b) (tlCount p 4 x) else x := by
      intro p x hx
      cases hB : B p with
      | false => rfl
      | true =>
        cases hl : (portAt x p).linkUp with
        | false => rw [if_pos rfl, sendOn_down _ _ _ _ _ _ hl]; rfl
        | true => rw [if_pos rfl, sendOn_multicast _ _ _ _ _ _ hl h, hx]; rfl
    rw [one 0 c rfl] at hd
    have hd := hd.trans (one 1 _ (by split <;> rfl))
    exact twoPorts (fun p x => B p && x.linkUp) (fun p => .telegram p (tlVid (cfgOf c) p) comId dest pcp b)
      (fun p => tlCount p 4) (fun x => { x with counters := tmod 0 x.counters 4 (· + 1) }) c d (fun _ _ => rfl) (fun p q x => portAt_count p 4 q x) hd
  · intro h hr
    have one : ∀ (p : Nat) (x : Core), cfgOf x = cfgOf c → onLink (cfgOf c) p dest = true → dest ∉ (portAt x p).arp →
        (if B p then sendOn p comId dest pcp b x else x) =
        if B p && (portAt x p).linkUp then emit (.arp p (tlVid (cfgOf c) p) dest)
          (tlCount p 32 (tlCount p 4 x)) else x := by
      intro p x hx q1 q2
      cases hB : B p with
      | false => rfl
      | true =>
        cases hl : (portAt x p).linkUp with
        | false => rw [if_pos rfl, sendOn_down _ _ _ _ _ _ hl]; rfl
        | true => rw [if_pos rfl, sendOn_unresolved _ _ _ _ _ _ hl h (by rw [hx]; exact q1) q2, hx]; rfl
    rw [one 0 c rfl (hr 0 (by decide)).1 (hr 0 (by decide)).2] at hd
    have hd := hd.trans (one 1 _ (by split <;> rfl) (hr 1 (by decide)).1 ?_)
    · exact twoPorts (fun p x => B p && x.linkUp) (fun p => .arp p (tlVid (cfgOf c) p) dest)
        (fun p x => tlCount p 32 (tlCount p 4 x))
        (fun x => { x with counters := tmod 0 (tmod 0 x.counters 4 (· + 1)) 32 (· + 1) }) c d (fun _ _ => rfl) (fun p q x => portAt_count2 4 32 p q x) hd
    · have : ∀ x : Core, x = (if (B 0 && (portAt c 0).linkUp) = true then emit (.arp 0 (tlVid (cfgOf c) 0) dest)
            (tlCount 0 32 (tlCount 0 4 c)) else c) → portAt x 1 = portAt c 1 := by
        rintro x rfl
        split
        · rw [portAt_emit, portAt_count2, if_neg (by decide)]
        · rfl
      rw [this _ rfl]
      exact (hr 1 (by decide)).2

end Sys2Proof.Machine
end

