-- ==== Sys2Proof/Tests/Slice0.lean ====
section
/-! SUPPORT. Tests of the model: ill-formed terms that `WellFormed` refuses, states and operands that meet the hypotheses of the
statements (`witness_<Statement>…`, each conjunct the hypotheses of one clause), and single steps whose expected results are
worked out from the spec's words. -/

open Sys2Proof Sys2Proof.Machine

namespace Sys2Proof.Tests

-- One theorem at a time: the threads that wait for each other's results take memory.
set_option Elab.async false

/-- A unit out of reset in mode `m` with its time base running, changed by `f`; all else as after reset. -/
def unit (m : Mode) (f : Core → Core := id) : State :=
  { State.reset with core := f { State.reset.core with
      sys := { State.reset.core.sys with inReset := false, mode := m }
      tb := { State.reset.core.tb with running := true } } }

/-- Slot `k` alone holds the operation `x`. -/
def holding (k : Nat) (x : SlotSt) (c : Core) : Core := { c with host := { c.host with slots := [(k, some x)] } }

/-- A descriptor: opcode, then operands from offset 8; all else 0. -/
def desc (op : Nat) (args : List Nat) : Bytes :=
  padTo 64 (BitVec.ofNat 8 op :: List.replicate 7 0 ++ args.map (BitVec.ofNat 8))

/-- A descriptor with a data transfer of `len` bytes at address 0x40. -/
def descData (op : Nat) (args : List Nat) (len : Nat) : Bytes :=
  padTo 64 (padTo 40 (desc op args |>.take 40) ++ toLe 8 0x40 ++ toLe 4 len)

/-- A detection waits in the sequencer. -/
def dueSeq (d : Due) (c : Core) : Core := { c with seq := { c.seq with due := [d] } }

/-- A detection waits in island A of a unit in SERVICE. -/
def dueA (d : IslDue) (f : IslSt → IslSt := id) : State := { unit .service with isa := f { (unit .service).isa with due := [d] } }

/-- A detection waits in the field die, which runs. -/
def dueDie (l : List DieDue) (f : DieSt → DieSt := id) : State :=
  { unit .service with die := f { (unit .service).die with held := false, due := l } }

/-- An image of a configuration of these bytes (offset, value). -/
def image (l : List (Nat × Nat)) : Image := { len := 27456, mem := l.map fun e => (e.1, BitVec.ofNat 8 e.2) }

/-- A configuration image is in effect. -/
def with_ (m : Image) (c : Core) : Core := { c with run := { c.run with cfg := some m }, nv := { c.nv with cfg := some m } }

/-- Portal 11 is configured, with axis 33, and moves, in a unit that claims. -/
def moving (c : Core) : Core :=
  { c with
    run := { c.run with cfg := some (image [(2402, 1)]), progs := [(11, { len := 1 })] }
    twin := { c.twin with role := .solo }
    seq := { c.seq with channels := [(11, { motion := 4 })] } }

/-! ### Ill-formed terms -/

/-- An up frame has 22 bytes (R204). -/
theorem test_wf_upFrame : Instr.wf (.upFrame 0 { bytes := List.replicate 21 0 }) = false ∧
    Instr.wf (.upFrame 35 { bytes := List.replicate 22 0 }) = true := by decide
/-- A nonce has 16 bytes, an answer 8 (R365). -/
theorem test_wf_auth : Instr.wf (.auth {} (List.replicate 15 0) (List.replicate 8 0)) = false ∧
    Instr.wf (.auth {} (List.replicate 16 0) (List.replicate 9 0)) = false ∧
    Instr.wf (.auth {} (List.replicate 16 0) (List.replicate 8 0)) = true := by decide
/-- An INPUT payload has 2 224 bytes (R369). -/
theorem test_wf_input : Instr.wf (.input {} (List.replicate 2223 0)) = false ∧ Instr.wf (.input {} (List.replicate 2224 0)) = true := by
  simp only [Instr.wf, List.length_replicate]; decide
/-- A flow-table entry has 64 bytes; a failed read carries none (R77, R75). -/
theorem test_wf_flowEntryRead : Instr.wf (.flowEntryRead 0 (some (List.replicate 63 0)) none) = false ∧
    Instr.wf (.flowEntryRead 0 (some (List.replicate 64 0)) none) = true ∧ Instr.wf (.flowEntryRead 255 none none) = true := by decide
/-- A doorbell block has 64 bytes (R88). -/
theorem test_wf_doorbellData : Instr.wf (.doorbellData 0 (some (List.replicate 65 0))) = false ∧
    Instr.wf (.doorbellData 15 (some (List.replicate 64 0))) = true := by decide
/-- A descriptor has 64 bytes, an authorisation block 128 (R105, R108). -/
theorem test_wf_descriptorFetch : Instr.wf (.descriptorFetch (some [{ desc := List.replicate 63 0 }])) = false ∧
    Instr.wf (.descriptorFetch (some [{ desc := List.replicate 64 0, auth := some [] }])) = false ∧
    Instr.wf (.descriptorFetch (some [{ desc := List.replicate 64 0 }])) = true := by decide
/-- A page-in reads at most 32 752 bytes (R184). -/
theorem test_wf_pageIn : Instr.wf (.pageIn (some (List.replicate 32753 0))) = false ∧
    Instr.wf (.pageIn (some (List.replicate 32752 0))) = true := by
  simp only [Instr.wf, List.length_replicate]; decide
/-- A row of the march lies in the 24 banks of 1 024 rows (R437). -/
theorem test_wf_selftestStep : Instr.wf (.selftestStep 0 [24576] 0) = false ∧ Instr.wf (.selftestStep 0 [0, 24575] 0) = true := by
  decide
/-- A piece of a page or image holds a byte at least and lies within its whole (R367). -/
theorem test_wf_pieces : Instr.wf (.page {} ⟨0, 0, 0, [], false⟩) = false ∧ Instr.wf (.page {} ⟨0, 0, 32768, [0], true⟩) = false ∧
    Instr.wf (.page {} ⟨0, 0, 32767, [0], true⟩) = true ∧ Instr.wf (.image {} ⟨1, 0, 4, 0, [], []⟩) = false ∧
    Instr.wf (.image {} ⟨1, 0, 4, 4, [0], []⟩) = false ∧ Instr.wf (.image {} ⟨1, 0, 4, 3, [0], []⟩) = true := by decide

/-! ### The step, the stores, the switches and the keys -/

theorem witness_StepRunsFront : State.reset.pending = [] := rfl
theorem witness_ExecKeepsQueue : Runs .vsoRecovery State.reset State.reset := rfl
theorem witness_EveryCommandCompletes : Runs (.upFrame 0 { bytes := [] }) State.reset State.reset := rfl
theorem witness_StoreInvKept : StoreInv State.reset.store ∧ step State.reset = .next State.reset :=
  ⟨⟨rfl, rfl, rfl, by decide, by decide, by decide, by decide, by decide, by decide⟩, rfl⟩
theorem witness_WrittenSlotsStay : step State.reset = .next State.reset ∧
    ∃ (k : Fin 512) (x : SlotSt) (s : State), Ready k 0x32 x s.core ∧ s.core.recd.stoppedE = true :=
  ⟨rfl, 511, { desc := desc 0x32 [] },
    unit .service fun c => holding 511 { desc := desc 0x32 [] } { c with recd := { c.recd with stoppedE := true } },
    by constructor <;> decide, rfl⟩
theorem witness_SwitchClosesOnOwnEvaluation : ∃ (c : Instr) (s t : State) (k : Isl) (n : Nat),
    Runs c s t ∧ (islAt k t).closed.getLsbD n = true :=
  ⟨.vholdCharged, { State.reset with isb := { State.reset.isb with closed := 0x8000 } }, _, .b, 15, rfl, by decide⟩
/-- LIFECYCLE_ADVANCE from BLANK to PROVISIONED, the command that the two statements allow (R457). -/
def advancing : State := unit .provision fun c =>
  holding 0 { desc := desc 0x61 [1] } { c with nv := { c.nv with authKeys := [(0, [1])] } }
theorem witness_FuseOnlyFromBlank : ∃ t, Runs (.lifecycleAdvance 0) advancing t ∧ t.fuse ≠ advancing.fuse :=
  ⟨_, rfl, fun h => absurd (congrArg Fuses.fused h) (by decide)⟩
theorem witness_IdentityOnlyByAdvance : ∃ t, Runs (.lifecycleAdvance 0) advancing t := ⟨_, rfl⟩

/-! ### Resets, self-test and modes -/

theorem witness_FlushStarts :
    (∃ s : State, s.core.sys.inReset = false ∧ s.core.sys.flush = none ∧ barOpen (atPort s).core = true ∧
      (claiming s.core && anyMoving s.core) = false ∧ s.core.sys.deferred = true ∧ s.core.sys.mode ≠ .safeTalk ∧
      ∀ e ∈ s.core.host.slots, ∀ x ∈ e.2, slotOp x ≠ 0x61 ∧ slotOp x ≠ 0x70) ∧
    ∃ (s : State) (f : FlushSt), s.core.sys.inReset = false ∧ s.core.sys.flush = some f ∧ f.toParked = false :=
  ⟨⟨unit .service fun c => { c with sys := { c.sys with deferred := true } }, by decide⟩,
    unit .service fun c => { c with sys := { c.sys with flush := some { kind := .pin } } }, { kind := .pin }, by decide⟩
theorem witness_SoftResetWrite :
    ((0x5AA4 : U32) ≠ 0x5AA5 ∧ barOpen (atPort State.reset).core = false ∧ State.reset.core.sys.inReset = true ∧
      (unit .safeTalk).core.sys.mode = .safeTalk) ∧
    (let c := (unit .selftest fun c => { c with sys := { c.sys with stStep := 1, early := true } }).core
     c.sys.early = true ∧ c.sys.stStep = 1) ∧
    (∃ s : State, barOpen (atPort s).core = true ∧ (claiming s.core && anyMoving s.core) = true) ∧
    ∃ s : State, barOpen (atPort s).core = true ∧ (claiming s.core && anyMoving s.core) = false ∧ s.core.sys.flush = none :=
  ⟨by decide, by decide, ⟨unit .service moving, by decide⟩, unit .service, by decide⟩
theorem witness_FlushEnds :
    State.reset.core.sys.flush = none ∧
    (∃ (s : State) (f : FlushSt), s.core.sys.flush = some f ∧ f.toParked = false) ∧
    (∀ wake : Bool, ∃ (s : State) (f : FlushSt), s.core.sys.flush = some f ∧ f.toParked = true ∧ s.core.sys.mode = .parked ∧
      s.core.sys.wake = wake ∧ s.core.sys.inReset = false) ∧
    ∃ (s : State) (f : FlushSt), s.core.sys.flush = some f ∧ f.toParked = true ∧ s.core.sys.mode ≠ .parked :=
  ⟨rfl, ⟨unit .service fun c => { c with sys := { c.sys with flush := some { kind := .bor } } }, { kind := .bor }, by decide⟩,
    fun wake => ⟨unit .parked fun c => { c with sys := { c.sys with flush := some { kind := .soft, toParked := true }, wake := wake } },
      { kind := .soft, toParked := true }, rfl, rfl, rfl, rfl, rfl⟩,
    unit .safeTalk fun c => { c with sys := { c.sys with flush := some { kind := .soft, toParked := true } } },
    { kind := .soft, toParked := true }, by decide⟩
theorem witness_ReleaseStartsSelftest : State.reset.core.sys.inReset = true ∧ State.reset.onyx.wipePending = false ∧
    ({ State.reset with onyx := { wipePending := true } } : State).onyx.wipePending = true ∧
    (unit .service).core.sys.inReset = false := by decide
/-- A unit in self-test step `n`. -/
def inStep (n : Nat) : State := unit .selftest fun c => { c with sys := { c.sys with stStep := n } }
theorem witness_SelftestSteps : testing (unit .service).core = false ∧ testing (inStep 8).core = true ∧
    (stepCodes (inStep 1).core.sys.stStep).contains 0x01 = true ∧ (stepCodes (inStep 8).core.sys.stStep).contains 0x70 = true ∧
    testing (inStep 1).core = true ∧ (inStep 4).core.sys.stStep = 4 ∧ (inStep 7).core.sys.stStep = 7 ∧ (inStep 8).core.sys.stStep = 8 := by
  decide
theorem witness_ModeDecision : testing (inStep 9).core = true ∧ (inStep 9).core.sys.stStep = 9 := by decide
theorem witness_SafeTalkEntries :
    (∀ d ∈ [IslDue.linkLost, .disagree], let s := dueA d
      s.core.sys.inReset = false ∧ s.core.sys.mode ≠ .safeTalk ∧ resetting s.core = false ∧ (islAt .a s).due.contains d = true) ∧
    State.reset.core.sys.inReset = true ∧ (islAt .b (unit .service)).due.contains .linkLost = false ∧
    (unit .service).isa.due.contains .disagree = false ∧ (unit .service).isb.due.contains .disagree = false ∧
    (unit .safeTalk).core.sys.inReset = false ∧ ¬ ((unit .safeTalk).core.sys.mode ≠ .safeTalk) := by decide
theorem witness_SupplyEvents : (unit .service).core.sys.inReset = false ∧ (unit .parked).core.sys.mode = .parked ∧
    (unit .parked).core.sys.inReset = false := by decide
/-- A paired unit in PARKED whose port issues requests, with a wake frame and `v` kept of the doorbell. -/
def parkedUnit (v : Option Nat) (f : Option FlushSt := none) : State :=
  { unit .parked (fun c => with_ (image [(23105, 1)])
      { c with bar := { c.bar with bme := true, linkUp := true }, sys := { c.sys with parkDb := v, flush := f } }) with
    die := { State.reset.die with wake := some [0] } }
theorem witness_WakeEvents :
    ((unit .service).core.sys.mode ≠ .parked ∧ paired (unit .parked).core = false) ∧
    ∀ v ∈ [some 0, none], ∀ f ∈ [none, some { kind := .soft, toParked := true }], let s := parkedUnit v f
      s.core.sys.mode = .parked ∧ s.core.sys.inReset = false ∧ s.core.sys.flush = f ∧ paired s.core = true ∧ s.die.wake.isSome = true ∧
      portUp s.core = true ∧ s.core.sys.parkDb = v ∧ (0xFFFF : U32).toNat % 65536 ≠ 0 ∧ (0x10000 : U32).toNat % 65536 = 0 := by decide

/-! ### Sapphire -/

/-- A safety section in which pair 71 is used, with UIO 142 and 143, DISC 1 and levels 1. -/
def section71 : Image := { len := 2240, mem := [(1200, 142), (1201, 143), (1202, 3), (1204, 1)] }
/-- An island with that section and the pair in state `p`, in a frame that shows its contacts as `a` and `b`. -/
def island (a b : Nat) (p : PairSt) : IslSt :=
  { params := some section71, frame := some { states := [(142, a), (143, b)] }, pairs := [(71, p)] }
theorem witness_PairEvaluation :
    (∀ i ∈ [island 0 0 { st := .fault }, island 1 1 { st := .partialSt }, island 1 0 { st := .partialSt, n := 1 }, island 1 1 {},
        island 1 0 { st := .safe }],
      pairUsed (islSec i) 71 = true ∧ i.blind = false) ∧
    (tget {} (island 0 0 { st := .fault }).pairs 71).st = .fault ∧ (tget {} (island 1 1 { st := .partialSt }).pairs 71).n + 1 ≤ 1 ∧
    1 < (tget {} (island 1 0 { st := .partialSt, n := 1 }).pairs 71).n + 1 ∧ img16 section71 (sfPair 71 + 4) = 1 ∧
    contactSafe (island 1 1 {}) 142 1 = contactSafe (island 1 1 {}) 143 1 ∧
    contactSafe (island 1 0 {}) 142 1 ≠ contactSafe (island 1 0 {}) 143 1 ∧
    ({ island 1 1 {} with blind := true } : IslSt).blind = true := by decide
theorem witness_IslandDetections :
    (∀ d ∈ [IslDue.framesMissing, .pairDisc 71, .overspeed 35, .xchk 35], (islAt .a (unit .service)).due.contains d = false ∧
      (islAt .a (dueA d)).due.contains d = true) ∧
    tget 0 (dueA (.xchk 35)).isb.xchk 35 < 40 ∧ 40 ≤ tget 0 ({ dueA (.xchk 35) with isb := { State.reset.isb with xchk := [(35, 40)] } } : State).isb.xchk 35 ∧
    (let s : State := { unit .service with isb := { State.reset.isb with due := [.xchk 35] } }
     s.isa.due.contains (.xchk 35) = false ∧ s.isb.due.contains (.xchk 35) = true ∧ tget 0 s.isa.xchk 35 < 40) := by decide
theorem witness_TorqueRemoved : ∀ d ∈ [IslDue.torque 11, .tmax 11],
    (islAt .a (unit .service)).due.contains d = false ∧
    (let s := dueA d fun i => { i with stops := [(11, { active := true })] }
     (tget {} (islAt .a s).stops (11 : Fin 12)).active = true ∧ (tget {} (islAt .a s).stops (11 : Fin 12)).removed = false ∧
      (islAt .a s).due.contains d = true) ∧
    (let s := dueA d
     (tget {} (islAt .a s).stops (11 : Fin 12)).active = false ∧ (islAt .a s).due.contains d = true) := by decide
theorem witness_OutputFaults :
    ((islAt .b (unit .service)).closed.getLsbD 15 = false ∧ (islAt .a (unit .service)).due.contains (.ext (15 : Fin 16)) = false ∧
      (unit .service).isa.due.contains (.lsStuck (15 : Fin 16)) = false) ∧
    ∃ s : State, ∃ n : Fin 16, (islAt .a s).closed.getLsbD n = true ∧ (islAt .a s).vsoLow = false ∧ (islAt .a s).darkDue.getLsbD n = true ∧
    (islAt .a s).due.contains (.ext n) = true ∧ s.isa.due.contains (.lsStuck n) = true ∧
    (∃ rd : DarkRead, rd.waited = false) ∧
    (∃ rd : DarkRead, rd.waited = true ∧ rd.left = true ∧ rd.others = [] ∧ rd.back = true) ∧
    (∃ rd : DarkRead, rd.waited = true ∧ rd.left = true ∧ rd.others = [] ∧ rd.back = false) ∧
    (∃ rd : DarkRead, rd.waited = true ∧ rd.left = false ∧ rd.others = []) ∧
    ∃ (rd : DarkRead) (o : Fin 16), rd.waited = true ∧ o ∈ rd.others ∧ o ≠ n ∧ (islAt .a s).closed.getLsbD o = true ∧
      outTwinPar (islSec (islAt .a s)) n = false :=
  ⟨by decide, dueA (.ext 15) fun i => { i with closed := 0x8001, darkDue := 0x8000, due := [.ext 15, .lsStuck 15] }, 15, by decide, by decide,
    by decide, by decide, by decide, ⟨⟨false, true, [], true, []⟩, rfl⟩,
    ⟨⟨true, true, [], true, []⟩, by decide⟩, ⟨⟨true, true, [], false, []⟩, by decide⟩, ⟨⟨true, false, [], true, []⟩, by decide⟩,
    ⟨true, true, [0], true, []⟩, 0, by decide⟩
theorem witness_VsoSupply : (unit .service).isa.vsoLow = false ∧
    ({ unit .service with isa := { State.reset.isa with vsoLow := true } } : State).isa.vsoLow = true := by decide
theorem witness_SafetyTickRuns : State.reset.core.sys.inReset = true ∧ (unit .service).core.sys.inReset = false ∧
    (islAt .b (unit .service)).due = [] ∧ (islAt .b (unit .service)).params = none := by decide
theorem witness_IslandDuties : (islAt .a (dueA .resetStuck)).due.contains .resetStuck = true ∧
    ((islAt .a (unit .service)).due.contains .resetStuck = false ∧ (islAt .a (unit .service)).due.contains .lockoutTimeout = false) ∧
    (∃ (s : State) (r : ClearSt) (x : SlotSt), (islAt .a s).due.contains .lockoutTimeout = true ∧ s.core.seq.clearReq = some r ∧
      slotAt s.core r.slot = some x ∧ x.done = none ∧ r.slot < 512) ∧
    (∃ s : State, claiming s.core = true ∧ (islAt .b s).seqAge ≤ 2 ∧ s.core.sys.txOff = false ∧ s.core.sys.inReset = false) ∧
    claiming (unit .service).core = false ∧
    (paired (unit .service).core = false ∧
      ∃ s : State, paired s.core = true ∧ 8 ≤ s.core.twin.lineFault ∧ s.core.twin.lineRec = false) :=
  ⟨by decide, by decide,
    ⟨{ dueA .lockoutTimeout with core := holding 511 {} { State.reset.core with seq := { State.reset.core.seq with
        clearReq := some ⟨1, 0, 511, 0, true, 0⟩ } } }, ⟨1, 0, 511, 0, true, 0⟩, {}, by decide⟩,
    ⟨unit .service fun c => { c with twin := { c.twin with role := .active } }, by decide⟩, by decide, by decide,
    unit .service fun c => with_ (image [(23105, 1)]) { c with twin := { c.twin with lineFault := 8 } }, by decide⟩
theorem witness_WorkshopEnds :
    ((unit .workshop).core.sys.wsRelease = false ∧ (unit .service).core.sys.mode ≠ .workshop) ∧
    (∃ s : State, s.core.sys.wsRelease = true ∧ s.core.sys.mode = .workshop ∧ resetting s.core = false ∧
      ∀ p, p < 12 → ¬((msAt s.core p).kind = .manual ∧ (msAt s.core p).run = true)) ∧
    ∃ s : State, ∃ p, p < 12 ∧ (msAt s.core p).kind = .manual ∧ (msAt s.core p).run = true :=
  ⟨by decide, ⟨unit .workshop fun c => { c with sys := { c.sys with wsRelease := true } }, by decide⟩,
    unit .workshop fun c => { c with
      sys := { c.sys with wsRelease := true }, seq := { c.seq with masters := [(11, { kind := .manual, run := true })] } },
    11, by decide⟩

/-! ### Ticks, links and detections -/

theorem witness_TicksAndFrames : (unit .service).core.sys.inReset = false ∧ (unit .service).core.tb.running = true ∧
    (unit .service).core.sys.mode ≠ .parked ∧ foulWords 0 16 (unit .service).core = [] ∧ State.reset.core.sys.inReset = true ∧
    (unit .parked).core.sys.mode = .parked := by decide
/-- An up frame that is all zero but for its CRC (R202, R204). -/
def goodUp : UpRx := { bytes := List.replicate 20 0 ++ toLe 2 (crc16 (List.replicate 20 0)) }
/-- Axis 35 configured, its link enabled and locked. -/
def linked35 : State := unit .service fun c => with_ (image [(2402, 4)])
  { c with twin := { c.twin with role := .solo }, links := [(35, { en := true, locked := true, sent := some (0, []), rx := some goodUp })], tb := { c.tb with cp := 1 } }
theorem witness_CurrentPeriods :
    (∃ s : State, s.core.sys.inReset = false ∧ s.core.sys.mode ≠ .parked ∧ s.core.tb.running = true ∧
      carries s.core 35 = .frames ∧ (linkAt s.core 35).unmute = false ∧ (linkAt s.core 35).en = true ∧
      carries s.core 0 = .idle ∧ (linkAt s.core 0).unmute = false ∧
      s.core.tb.count.toNat < cpAt s.core.tb.cp ∧ cpAt s.core.tb.cp < 2 ^ 64) ∧
    carries (unit .safeTalk).core 35 = .nothing ∧ cpAt (unit .service).core.tb.cp ≤ (unit .service).core.tb.count.toNat ∧
    rxOk goodUp = true ∧ (linkAt linked35.core 35).locked = true ∧ (linkAt (unit .service).core 35).locked = false ∧
    rxOk { goodUp with codeOk := false } = false ∧ (tget {} (islAt .a (unit .service)).axes 35).frames = [] :=
  ⟨⟨linked35, by decide⟩, by decide +kernel⟩
theorem witness_UpFrameClasses : State.reset.core.sys.inReset = true ∧ linked35.core.sys.inReset = false ∧ linked35.core.tb.running = true ∧
    linked35.core.tb.cp ≠ 0 ∧ axisConf (cfgOf linked35.core) 35 = true ∧ (linkAt linked35.core 35).sent = some (0, []) := by decide
theorem witness_AxisDetections :
    (∀ code ∈ [1, 4, 5, 6, 7], (unit .service (dueSeq (.axisFault code 35))).core.seq.due.contains (.axisFault code (35 : Fin 36)) = true ∧
      (unit .service).core.seq.due.contains (.axisFault code (35 : Fin 36)) = false) ∧
    ∀ d ∈ [Due.stall 35, .inPos 35], (unit .service (dueSeq d)).core.seq.due.contains d = true ∧
      (unit .service).core.seq.due.contains d = false := by decide
/-- A request that waits since tick 0 as member 0 of group 7. -/
def waitingReq : MoveReq := { cls := 2, table := 0, slow := 0, entry := 0, pset := 0, execAt := 0, age := some 0, group := some (7, 0) }
theorem witness_SupplyDetections :
    (∀ d ∈ [Due.supplyOver 5, .supplyLow 11, .overdue 11, .gather 7], (unit .service).core.seq.due.contains d = false ∧
      (unit .service (dueSeq d)).core.seq.due.contains d = true) ∧
    (∀ i, (unit .service).core.seq.due.contains (.supplyOver i) = false) ∧
    (let c := (unit .service fun c => dueSeq (.overdue 11) (with_ (image [(secTopaz + 9, 1)])
        { c with seq := { c.seq with masters := [(11, { waiting := some { waitingReq with waited := 256 } })] } })).core
     c.seq.due.contains (.overdue (11 : Fin 12)) = true ∧ (msAt c 11).waiting = some { waitingReq with waited := 256 } ∧
      waitingReq.manual = none ∧ maxWait c 2 ≠ 0 ∧ maxWait c 2 ≤ 256 ∧ (msAt c 0).waiting = none) ∧
    ∃ (s : State) (g : Fin 8), s.core.seq.due.contains (.gather g) = true ∧
      (∃ p k r, p < 12 ∧ waitingAt s.core p = some r ∧ r.group = some (g.val, k) ∧
        r.age.getD s.core.seq.now + tz16 s.core 16 ≤ s.core.seq.now + 1) ∧
      ∃ p, ∀ r k, waitingAt s.core p = some r → r.group ≠ some (g.val, k) :=
  ⟨by decide, fun _ => rfl, by decide,
    unit .service fun c => { c with seq := { c.seq with due := [.gather 7], masters := [(11, { waiting := some waitingReq })] } }, 7, by decide,
    ⟨11, 0, waitingReq, by decide⟩, 0, fun r k h => by simp [unit, waitingAt, msAt, tget] at h⟩
/-- Learning of both directions of portal 11 is armed for slot 511. -/
def learning (d : Due) : State := unit .service fun c => holding 511 { desc := desc 0x40 [] } { c with
  seq := { c.seq with due := [d], obst := [(11, { armed := 3, opSlot := some 511 })] } }
theorem witness_ObstacleDetections :
    (∃ x e, (unit .service (dueSeq (.force 11 35 9))).core.seq.due.contains (.force (11 : Fin 12) x e) = true) ∧
    (∃ e, (unit .service (dueSeq (.energy 11 9))).core.seq.due.contains (.energy (11 : Fin 12) e) = true) ∧
    (∃ x n, (unit .service (dueSeq (.drawn 11 35 9))).core.seq.due.contains (.drawn (11 : Fin 12) x n) = true) ∧
    ((∀ x e, (unit .service).core.seq.due.contains (.force 11 x e) = false) ∧ (∀ e, (unit .service).core.seq.due.contains (.energy 11 e) = false) ∧
      ∀ x n, (unit .service).core.seq.due.contains (.drawn 11 x n) = false) ∧
    (∀ close : Bool, (unit .service).core.seq.due.contains (.baseline 11 close) = false ∧
      (unit .service).core.seq.due.contains (.learnAbort 11 close) = false ∧ armedFor (unit .service).core 11 (b2n close) = false ∧
      (unit .service (dueSeq (.baseline 11 close))).core.seq.due.contains (.baseline (11 : Fin 12) close) = true ∧
      armedFor (unit .service (dueSeq (.baseline 11 close))).core 11 (b2n close) = false) ∧
    ∀ close : Bool, armedFor (learning (.baseline 11 close)).core 11 (b2n close) = true ∧
      (learning (.baseline 11 close)).core.seq.due.contains (.baseline (11 : Fin 12) close) = true ∧
      armedFor (learning (.learnAbort 11 close)).core 11 (b2n close) = true ∧
      (learning (.learnAbort 11 close)).core.seq.due.contains (.learnAbort (11 : Fin 12) close) = true ∧
      (obAt (learning (.learnAbort 11 close)).core 11).opSlot = some 511 ∧ slotAt (learning (.learnAbort 11 close)).core 511 = some { desc := desc 0x40 [] } :=
  ⟨⟨35, 9, by decide⟩, ⟨9, by decide⟩, ⟨35, 9, by decide⟩, ⟨fun _ _ => rfl, fun _ => rfl, fun _ _ => rfl⟩, by decide, by decide⟩
theorem witness_TimedDetections_not :
    (∀ d ∈ [Due.timer 12 3, .degraded 11, .isolateFail 11, .forceEnd 143, .requestTimeout 511, .subTimeout 47, .hostLost],
      (unit .service).core.seq.due.contains d = false) ∧
    ((unit .service (dueSeq (.forceEnd 143))).core.seq.due.contains (.forceEnd (143 : Fin 144)) = true ∧
      ∀ f, tget none (unit .service (dueSeq (.forceEnd 143))).core.seq.forces 143 = some f → f.ticks ≠ 0) ∧
    ((unit .service (dueSeq (.requestTimeout 511))).core.seq.due.contains (.requestTimeout (511 : Fin 512)) = true ∧
      ∀ x d, slotAt (unit .service (dueSeq (.requestTimeout 511))).core 511 = some x → x.deadline = some d →
        (unit .service (dueSeq (.requestTimeout 511))).core.seq.now < d) :=
  ⟨by decide, ⟨by decide, fun _ h => nomatch h⟩, by decide, fun _ _ h => nomatch h⟩
theorem witness_TimedDetections :
    (unit .service (dueSeq (.timer 12 3))).core.seq.due.contains (.timer (12 : Fin 13) (3 : Fin 4)) = true ∧
    (unit .service (dueSeq (.degraded 11))).core.seq.due.contains (.degraded (11 : Fin 12)) = true ∧
    (unit .service (dueSeq (.isolateFail 11))).core.seq.due.contains (.isolateFail (11 : Fin 12)) = true ∧
    (∃ (s : State) (u : Fin 144) (f : ForceSt) (x : SlotSt), s.core.seq.due.contains (.forceEnd u) = true ∧
      tget none s.core.seq.forces u = some f ∧ f.ticks = 0 ∧ slotAt s.core f.slot = some x ∧ x.done = none ∧ f.slot < 512) ∧
    (∃ (s : State) (k : Fin 512) (x : SlotSt), s.core.seq.due.contains (.requestTimeout k) = true ∧ slotAt s.core k = some x ∧
      x.done = none ∧ (∃ d, x.deadline = some d ∧ d ≤ s.core.seq.now) ∧ slotOp x = 0x10 ∧ x.started = true ∧ partOpen x 11 = true) ∧
    (∃ (s : State) (k : Fin 512) (x : SlotSt), s.core.seq.due.contains (.requestTimeout k) = true ∧ slotAt s.core k = some x ∧
      x.done = none ∧ (∃ d, x.deadline = some d ∧ d ≤ s.core.seq.now) ∧ slotOp x = 0x12 ∧ s.core.seq.carSlot = some k.val) ∧
    (unit .service (dueSeq (.subTimeout 47))).core.seq.due.contains (.subTimeout (47 : Fin 48)) = true ∧
    (unit .service (dueSeq .hostLost)).core.seq.due.contains .hostLost = true ∧ (unit .service).core.sys.hostLost = true :=
  ⟨by decide, by decide, by decide,
    ⟨unit .service fun c => holding 511 {} { c with seq := { c.seq with due := [.forceEnd 143], forces := [(143, some ⟨true, 0, 511⟩)] } },
      143, ⟨true, 0, 511⟩, {}, by decide⟩,
    ⟨unit .service fun c => holding 511 { desc := desc 0x10 [], deadline := some 0, started := true, mask := 0x800 }
        (dueSeq (.requestTimeout 511) c), 511,
      { desc := desc 0x10 [], deadline := some 0, started := true, mask := 0x800 }, by decide, by decide, by decide, ⟨0, by decide⟩, by decide⟩,
    ⟨unit .service fun c => holding 511 { desc := desc 0x12 [], deadline := some 0 }
        { c with seq := { c.seq with due := [.requestTimeout 511], carSlot := some 511 } }, 511,
      { desc := desc 0x12 [], deadline := some 0 }, by decide, by decide, by decide, ⟨0, by decide⟩, by decide⟩,
    by decide⟩

/-! ### The twin -/

/-- A paired unit in mode `m` whose lanes are up and whose twin is authenticated. -/
def pairedUnit (m : Mode) (f : Core → Core := id) : State := unit m fun c => f (with_ (image [(23105, 1)])
  { c with twin := { c.twin with lanes := 3, authed := true, nonce := [1] } })
theorem witness_TwinDiscards :
    (∀ c ∈ [Instr.resyncReq {}, .hello {} {}, .auth {} (List.replicate 16 0) (List.replicate 8 0)], twinType c ≠ none ∧ twinFits c = true) ∧
    twinFits (.auth {} [] []) = false ∧
    listens (unit .service).core = false ∧ listens (pairedUnit .service).core = true ∧ pbit (pairedUnit .service).core.twin.lanes 1 = true ∧
    pbit (pairedUnit .service fun c => { c with twin := { c.twin with lanes := 1 } }).core.twin.lanes 1 = false ∧
    (pairedUnit .service).core.twin.authed = true ∧ (unit .service).core.twin.authed = false ∧
    (5 : U32) ∈ tget [] [(0x14, [5])] 0x14 ∧ (5 : U32) ∉ tget [] (pairedUnit .service).core.twin.rxSeq 0x14 ∧
    epochLower 0xFFFF 0 = true ∧ epochLower 0 0 = false := by decide
/-- A message of any TYPE is heard by a unit like this. -/
theorem heard_any (m : Mode) (hm : linkServed (unit m).core = true) (type : Nat) (f : TwinSt → TwinSt) (h : TwinHdr)
    (ha : h.ok = true ∧ h.epoch = 0) (hf : (f (pairedUnit m).core.twin).lanes = 3 ∧ (f (pairedUnit m).core.twin).authed = true ∧
      (f (pairedUnit m).core.twin).rxSeq = []) :
    Heard type h (pairedUnit m fun c => { c with twin := f c.twin }).core := by
  refine ⟨hm, ?_, ha.1, ?_, fun _ => hf.2.1, by rw [ha.2]; show epochLower 0 (0 : U16) = false; decide⟩
  · show (f (pairedUnit m).core.twin).lanes.getLsbD h.lane = true
    rw [hf.1]; match h.lane with
    | 0 => rfl
    | 1 => rfl
  · show _ ∉ tget [] (f (pairedUnit m).core.twin).rxSeq type
    rw [hf.2.2]; simp [tget]
theorem witness_TwinSession :
    (List.replicate 16 (0 : Byte)).length = 16 ∧ (List.replicate 8 (0 : Byte)).length = 8 ∧
    (∃ (h : TwinHdr) (s : State), Heard 0 h s.core ∧ s.core.twin.serialT = none ∧ h.mseq ≠ 0) ∧
    (∃ (h : TwinHdr) (s : State) (sn : U64), Heard 0 h s.core ∧ s.core.twin.serialT = some sn ∧ s.core.twin.nonce ≠ [] ∧ s.onyx.twin ≠ [] ∧
      h.mseq ≠ 0) ∧
    (∃ (h : TwinHdr) (s : State), Heard 1 h s.core) ∧
    (∃ (h : TwinHdr) (s : State), Heard 2 h s.core ∧ s.core.sys.mode = .shadow) ∧
    (∃ (h : TwinHdr) (s : State), Heard 2 h s.core ∧ s.core.sys.mode ≠ .shadow) ∧
    (∃ (h : TwinHdr) (s : State), Heard 3 h s.core ∧ Heard 0x14 h s.core ∧ claiming s.core = true) ∧
    (∃ (h : TwinHdr) (s : State), Heard 3 h s.core ∧ Heard 0x14 h s.core ∧ claiming s.core = false) ∧
    (∃ (h : TwinHdr) (s : State), Heard 0x15 h s.core ∧ s.core.sys.mode = .shadow) ∧
    (∃ (h : TwinHdr) (s : State), Heard 0x15 h s.core ∧ s.core.sys.mode ≠ .shadow) ∧
    ((unit .service).core.sys.mode ≠ .selftest ∧ State.reset.core.sys.inReset = true ∧ twinUp (unit .selftest).core = false) ∧
    (∃ s : State, s.core.sys.mode = .selftest ∧ s.core.sys.inReset = false ∧ s.core.sys.stStep = 7 ∧ twinUp s.core = true) ∧
    ∃ s : State, s.core.sys.mode = .selftest ∧ s.core.sys.inReset = false ∧ s.core.sys.stStep = 8 ∧ s.core.tb.running = false ∧
      twinUp s.core = true :=
  ⟨rfl, rfl, ⟨{ mseq := 1 }, pairedUnit .service, heard_any _ rfl _ id _ ⟨rfl, rfl⟩ ⟨rfl, rfl, rfl⟩, rfl, by decide⟩,
    ⟨{ mseq := 1 }, { pairedUnit .service (fun c => { c with twin := { c.twin with serialT := some 9 } }) with onyx := { twin := [1] } }, 9,
      heard_any .service rfl _ (fun t => { t with serialT := some 9 }) _ ⟨rfl, rfl⟩ ⟨rfl, rfl, rfl⟩, rfl, by decide, by decide, by decide⟩,
    ⟨{}, pairedUnit .service, heard_any _ rfl _ id _ ⟨rfl, rfl⟩ ⟨rfl, rfl, rfl⟩⟩,
    ⟨{}, pairedUnit .shadow, heard_any _ rfl _ id _ ⟨rfl, rfl⟩ ⟨rfl, rfl, rfl⟩, rfl⟩,
    ⟨{}, pairedUnit .service, heard_any _ rfl _ id _ ⟨rfl, rfl⟩ ⟨rfl, rfl, rfl⟩, by decide⟩,
    ⟨{}, pairedUnit .service fun c => { c with twin := { c.twin with role := .active } },
      heard_any .service rfl _ (fun t => { t with role := .active }) _ ⟨rfl, rfl⟩ ⟨rfl, rfl, rfl⟩,
      heard_any .service rfl _ (fun t => { t with role := .active }) _ ⟨rfl, rfl⟩ ⟨rfl, rfl, rfl⟩, by decide⟩,
    ⟨{}, pairedUnit .shadow, heard_any _ rfl _ id _ ⟨rfl, rfl⟩ ⟨rfl, rfl, rfl⟩, heard_any _ rfl _ id _ ⟨rfl, rfl⟩ ⟨rfl, rfl, rfl⟩, by decide⟩,
    ⟨{}, pairedUnit .shadow, heard_any _ rfl _ id _ ⟨rfl, rfl⟩ ⟨rfl, rfl, rfl⟩, rfl⟩,
    ⟨{}, pairedUnit .service, heard_any _ rfl _ id _ ⟨rfl, rfl⟩ ⟨rfl, rfl, rfl⟩, by decide⟩, by decide,
    ⟨pairedUnit .selftest fun c => { c with sys := { c.sys with stStep := 7 } }, by decide⟩,
    pairedUnit .selftest fun c => { c with sys := { c.sys with stStep := 8 }, tb := { c.tb with running := false } }, by decide⟩
/-- A directory that holds table 4095 with the SHA-256 of one zero byte (R184). -/
def dirZero : Image := { len := 196736, mem := (64 + 48 * 4095 + 6, 1) :: ((sha256 [0]).zipIdx (64 + 48 * 4095 + 8)).map fun e => (e.2, e.1) }
theorem witness_StandbyFollows :
    (∀ type ∈ [0x10, 0x11, 0x12, 0x13], Heard type {} (pairedUnit .shadow).core ∧
      Heard type {} (pairedUnit .shadow fun c => { c with twin := { c.twin with synced := true } }).core) ∧
    (pairedUnit .shadow).core.sys.mode = .shadow ∧
    standbyIn (pairedUnit .shadow fun c => { c with twin := { c.twin with synced := true } }).core = true ∧
    standbyIn (pairedUnit .shadow).core = false ∧ snapAgrees 0 { carFlags := 1 } {} = false ∧ axisConf (image [(2402, 4)]) 35 = true ∧
    (∃ d : Bytes, d.length ≤ 4096 ∧ joinPiece none 0 0 0 d = some d ∧ joinPiece none 0 0 1 d = none) ∧
    ((∀ d, (pairedUnit .shadow).core.nv.dir = some d → dirPresent d 0 = true → sha256 [0] ≠ dirHash d 0)) ∧
    joinPiece none 2 5 0 [0] = some [0] ∧ ([0] : Bytes).length ≠ 2 :=
  ⟨fun type _ => ⟨heard_any _ rfl _ id _ ⟨rfl, rfl⟩ ⟨rfl, rfl, rfl⟩,
      heard_any .shadow rfl _ (fun t => { t with synced := true }) _ ⟨rfl, rfl⟩ ⟨rfl, rfl, rfl⟩⟩,
    rfl, by decide, by decide, by decide, by decide, ⟨[0], by decide⟩, fun d h => by simp [pairedUnit, unit, with_, State.reset] at h, by decide⟩
/-- An INPUT payload of zeros but for AXIS_NONVALID of axis 35. -/
def inputBytes : Bytes := List.replicate 152 0 ++ [8] ++ List.replicate 2071 0
theorem witness_StandbyFollows_input : inputBytes.length = inputLen ∧ (inputFrom inputBytes).ops = [] ∧
    (inputFrom inputBytes).nonvalid.getLsbD 35 = true ∧ (inputFrom (List.replicate 2224 0)).nonvalid = 0 := by decide +kernel
/-- A snapshot waits for its tick in a standby in this state of the procedure. -/
def snapped (m : Snapshot) (resync : Nat) (own : Option Snapshot) : Core :=
  (pairedUnit .shadow fun c => { c with
    tb := { c.tb with tick := 9 }, twin := { c.twin with snapIn := some { m with tick := 8 }, resync := resync, image := own } }).core
theorem witness_StandbyFollows_snapshot :
    (∀ m r own, (snapped m r own).twin.snapIn = some { m with tick := 8 } ∧ ({ m with tick := 8 } : Snapshot).tick < (snapped m r own).tb.tick ∧
      (snapped m r own).twin.snapBad = false ∧ (snapped m r own).twin.resync = r ∧ (snapped m r own).twin.image = own) ∧
    (∃ m : Snapshot, m.base = true ∧ m.dieRev = Config.dieRev) ∧
    (∃ m own : Snapshot, m.tick = 8 ∧ own.tick = 8 ∧ m.dieRev = Config.dieRev ∧ snapAgrees 0 m own = true) ∧
    snapAgrees 0 { carFlags := 1, tick := 8 } { tick := 8 } = false ∧ (snapped {} 2 none).twin.badSnaps < 2 :=
  ⟨fun m r own => ⟨rfl, by show 8 < 9; decide, rfl, rfl, rfl⟩, ⟨{ base := true, dieRev := Config.dieRev }, rfl, rfl⟩,
    ⟨{ dieRev := Config.dieRev, tick := 8 }, { dieRev := Config.dieRev, tick := 8 }, rfl, rfl, rfl, by simp [snapAgrees, plainCarry]; exact ⟨rfl, rfl⟩⟩, by decide, by decide⟩
theorem witness_TwinLinkAndRoles :
    (linkServed (unit .parked).core = false ∧ (pairedUnit .service).core.twin.lanes ≠ 0) ∧
    (linkServed (unit .service).core = true ∧ (unit .service).core.twin.lanes = 0 ∧ pbit (unit .service).core.twin.lanes 1 = false) ∧
    linkServed (pairedUnit .service).core = true ∧ pbit (pairedUnit .service).core.twin.lanes 1 = true ∧
    (pairedUnit .service fun c => { c with twin := { c.twin with lanes := 1 } }).core.twin.lanes ≠ 0 ∧
    pbit (pairedUnit .service fun c => { c with twin := { c.twin with lanes := 1 } }).core.twin.lanes 1 = false ∧
    (State.reset.core.sys.inReset = true ∧ (unit .shadow fun c => { c with twin := { c.twin with age := 7 } }).core.twin.age < 8 ∧
      (unit .service).core.sys.mode ≠ .shadow ∧ (unit .service).core.seq.due.contains .hashDiverge = false ∧
      inputMissing (unit .service).core = false ∧ swapDue (unit .service).core = false) ∧
    (∀ synced : Bool, ∃ s : State, s.core.sys.mode = .shadow ∧ s.core.twin.synced = synced ∧ s.core.sys.inReset = false ∧ 8 ≤ s.core.twin.age) ∧
    (∃ s : State, s.core.sys.mode = .shadow ∧ s.core.twin.synced = true ∧ s.core.sys.inReset = false ∧
      s.core.seq.due.contains .hashDiverge = true ∧ s.core.tb.running = true ∧ inputMissing s.core = true) ∧
    (∃ (s : State) (n : Nat), s.core.sys.mode = .shadow ∧ s.core.twin.synced = true ∧ s.core.sys.inReset = false ∧ resetting s.core = false ∧
      s.core.twin.swap = none ∧ s.core.twin.relinq = some n ∧ s.core.tb.tick = n + 1 ∧ s.core.twin.helloAge < 16) ∧
    ∃ (s : State) (k : Nat) (x : SlotSt), s.core.sys.mode = .service ∧ s.core.sys.inReset = false ∧ resetting s.core = false ∧
      s.core.twin.swap = some (0, k) ∧ slotAt s.core k = some x ∧ x.done = none ∧ k < 512 :=
  ⟨by decide, by decide, by decide, by decide, by decide, by decide, by decide,
    fun b => ⟨unit .shadow fun c => { c with twin := { c.twin with synced := b, age := 8 } }, rfl, rfl, rfl, by show 8 ≤ 8; decide⟩,
    ⟨unit .shadow fun c => dueSeq .hashDiverge { c with twin := { c.twin with synced := true, age := 8 } }, by decide⟩,
    ⟨unit .shadow fun c => { c with tb := { c.tb with tick := 1 }, twin := { c.twin with synced := true, relinq := some 0, helloAge := 15 } }, 0,
      by decide⟩,
    unit .service fun c => holding 511 {} { c with twin := { c.twin with swap := some (0, 511) } }, 511, {}, by decide⟩

/-! ### The field die and the train line -/

theorem witness_FieldSupplies :
    (∀ d ∈ [DieDue.low 8, .missing 8, .ok 8], (dueDie [d]).die.due.contains d = true ∧ (dueDie []).die.due.contains d = false) ∧
    143 / 16 = groupOf 143 ∧ 143 ∈ setsOf (dieSec (dueDie [] fun d => { d with section_ := some { len := 1216, mem := [(fEntry 143, 2)] } }).die) ∧
    dieRuns (dueDie []).die = true := by decide
/-- A field die that runs, UIO 143 an output and UIO 0 an input with the WAKE attribute. -/
def dieUnit (f : DieSt → DieSt := id) : State := dueDie [] fun d =>
  f { d with section_ := some { len := 1216, mem := [(fEntry 0, 1), (fEntry 0 + 1, 4), (fEntry 143, 2)] } }
theorem witness_FieldOutputs :
    (∀ d ∈ [DieDue.shortGnd 143, .clear 143, .ext 143, .silence], (dueDie [d]).die.due.contains d = true ∧
      (dueDie []).die.due.contains d = false) ∧ dieRuns dieUnit.die = true ∧
    dieUnit.die.due = [] ∧ (∀ r : Bool, (dieUnit fun d => { d with cmd := some (r, 0) }).die.cmd = some (r, 0)) ∧
    143 ∈ setsOf (dieSec dieUnit.die) ∧ dieRuns State.reset.die = false ∧ (unit .service).core.sys.inReset = false := by decide
theorem witness_FieldSampling :
    (dieRuns State.reset.die = false ∧ State.reset.die.due = [] ∧ State.reset.die.stopW = none ∧ State.reset.die.sampleF = none) ∧
    dieUnit.die.due = [] ∧ dieRuns dieUnit.die = true ∧ dieUnit.die.parked = false ∧ fMode (dieSec dieUnit.die) 0 = 1 ∧
    fMode (dieSec dieUnit.die) 143 ≠ 1 ∧ (dieUnit fun d => { d with parked := true }).die.parked = true ∧
    fAttr (dieSec dieUnit.die) 0 2 = true ∧ (dieUnit fun d => { d with instants := 1 }).die.instants % 2 = 1 ∧
    (dieUnit fun d => { d with stopW := some {} }).die.stopW = some {} ∧
    (let s := dieUnit fun d => { d with sampleF := some {} }
     s.die.sampleF = some {} ∧ s.core.sys.inReset = false ∧ s.core.fld.loaded = false ∧ s.core.sys.mode ≠ .safeTalk ∧ resetting s.core = false ∧
      ¬ 2 ≤ s.isa.offTime ∧ 2 ≤ ({ s.isa with offTime := 1 } : IslSt).offTime + 1) := by decide

/-- Configuration bytes of the train-line section (R388 to R391), from its offset. -/
def train (l : List (Nat × Nat)) : Image := image (l.map fun e => (secTrain + e.1, e.2))
/-- A unit with that image and both links up. -/
def trainUnit (m : Mode) (l : List (Nat × Nat)) (f : Core → Core := id) : State := unit m fun c => f (with_ (train l)
  { c with train := { c.train with ports := [(0, { linkUp := true, arp := [5] }), (1, { linkUp := true })] } })
/-- Publish entry 15 as the only one: comId 1, on port 0, to 224.0.0.0 or to 1.0.0.0. -/
def pub15 (dest : Nat) : List (Nat × Nat) := [(544, 1), (548, dest), (561, 1)]
theorem witness_TrainTransmission :
    (unit .provision).core.sys.inReset = false ∧ publishes (unit .provision).core = false ∧
    (∀ dest ∈ [224, 1], let s := (trainUnit .service ((0, 1) :: (4, 1) :: (8, 8) :: (9, 8) :: pub15 dest)
          fun c => { c with train := { c.train with due := [(15, 0, [])] } })
      s.core.sys.inReset = false ∧ publishes s.core = true ∧ s.core.train.due = [(15, 0, [])] ∧
        unicast (tlIp (cfgOf s.core) (pubE 15 + 4)) = decide (dest = 1) ∧
        (dest = 1 → ∀ p, p < 2 → onLink (cfgOf s.core) p (tlIp (cfgOf s.core) (pubE 15 + 4)) = true ∧
          tlIp (cfgOf s.core) (pubE 15 + 4) ∉ (portAt s.core p).arp)) ∧
    (State.reset.core.sys.inReset = true ∧ (unit .service).core.sys.mode ≠ .safeTalk ∧ (unit .safeTalk).core.train.ufMs < 1000) ∧
    (let s := trainUnit .safeTalk [(20, 1), (24, 224)] fun c => { c with train := { c.train with ufMs := 1000 } }
     s.core.sys.mode = .safeTalk ∧ s.core.sys.inReset = false ∧ s.core.sys.txOff = false ∧ 1000 ≤ s.core.train.ufMs ∧ tlN (cfgOf s.core) 20 4 ≠ 0 ∧
      unicast (tlIp (cfgOf s.core) 24) = false) ∧
    (State.reset.core.sys.inReset = true ∧ (unit .parked).core.sys.mode = .parked) := by decide
theorem witness_TrainTransmission_ports : trainOn (unit .parked).core = false ∧
    ∀ p : Fin 2, let s := trainUnit .service [(0, 1), (4, 2), (8, 8), (9, 8), (18, 1)]
      trainOn s.core = true ∧ (portAt s.core p).linkUp = true ∧ s.core.run.cfg.isSome = true ∧ vidOk (cfgOf s.core) p (some 1) = false ∧
        vidOk (cfgOf s.core) p none = true ∧ (portAt s.core p).spent + 1000 ≤ tlN (cfgOf s.core) 18 1 * 1000 ∧ (portAt s.core p).norm.length < 16 ∧
        onLink (cfgOf s.core) p (16777216 * (p.val + 1)) = true ∧
        (16777216 * (p.val + 1) = tlIp (cfgOf s.core) (4 * p)) ∧ 0 ≠ tlIp (cfgOf s.core) (4 * p) ∧ 0 < (portAt s.core p).icmp ∧ (unit .service).core.sys.mode ≠ .parked := by decide
/-- A frame for subscription 47, comId 7, with payload `b`. -/
def frame7 (b : Bytes) : TrainFrame := { dstMac := 0xFFFFFFFFFFFF, vid := none, supported := true, udpPd := true, srcIp := 0, dstIp := 0, payload := b }
/-- A unit that subscribes to comId 7 in entry 47 with any source and 1 408 bytes at most, burst `n`. -/
def sub7 (n : Nat) (f : Core → Core := id) : State :=
  { trainUnit .service [(18, n), (2080, 7), (2095, 5)] f with onyx := { train := [(0, [1])] } }
theorem witness_TrainReception_frames :
    trainOn (unit .selftest).core = false ∧ (portAt (unit .service).core 0).linkUp = false ∧ ({ frame7 [] with supported := false } : TrainFrame).supported = false ∧
    (let f := frame7 (toBe 6 0 ++ toBe 2 0x5064 ++ toBe 4 7)
     let s := sub7 1
     trainOn s.core = true ∧ (portAt s.core 1).linkUp = true ∧ f.supported = true ∧ vidOk (cfgOf s.core) 1 f.vid = true ∧
      vidOk (cfgOf s.core) 1 (some 0) = false ∧ f.udpPd = true ∧ beNat (slice f.payload 6 2) = 0x5064 ∧ ipOk (cfgOf s.core) 1 f.dstIp = true ∧
      ipOk (cfgOf s.core) 1 9 = false ∧ s.core.sys.mode ≠ .safeTalk ∧
      subFor (cfgOf s.core) (beNat (slice f.payload 8 4)) = some 47 ∧ 0 < (subAt s.core 47).budget ∧ (portAt s.core 1).prio.length < 32 ∧
      (portAt s.core 1).spent + 1000 ≤ tlN (cfgOf s.core) 18 1 * 1000 ∧ (portAt s.core 1).norm.length < 16 ∧
      subFor (cfgOf s.core) 0 = none) ∧
    (subAt (sub7 1 fun c => { c with train := { c.train with subs := [(47, { budget := 0 })] } }).core 47).budget = 0 ∧
    (let s := sub7 1 fun c => { c with train := { c.train with ports :=
        [(1, { linkUp := true, prio := List.replicate 32 (frame7 []), norm := List.replicate 16 (frame7 []) })] } }
     32 ≤ (portAt s.core 1).prio.length ∧ 16 ≤ (portAt s.core 1).norm.length) := by decide
theorem witness_TrainReception_broadcast (m : Image) (p : Nat) : macOk m p (frame7 []).dstMac = true := by simp [macOk, frame7]
/-- A MAC address that is not the port's, not broadcast, and of no group. -/
theorem witness_TrainReception_mac : ∃ mac, macOk (cfgOf (unit .service).core) 0 mac = false := by
  have e : ∀ mac, macOk (cfgOf (unit .service).core) 0 mac = (mac == Config.mac 0 || mac == 0xFFFFFFFFFFFF || false) := fun _ => by
    unfold macOk
    rw [show groupsOf (cfgOf (unit .service).core) = [] from by decide]
    rfl
  by_cases h : Config.mac 0 = 0
  · exact ⟨1, by rw [e, h]; decide⟩
  · exact ⟨0, by rw [e, beq_false_of_ne (Ne.symm h)]; decide⟩
/-- The telegram of comId 7 under the key in slot 0, without data (R387, R392). -/
def telegram7 : Bytes := telegram [1] 0 0 0 0 3 9 7 []
theorem witness_TrainReception_verify :
    (∀ b ∈ [telegram7, []], let s := sub7 1 fun c => { c with train := { c.train with ports := [(0, { linkUp := true, prio := [frame7 b] })] } }
      trainOn s.core = true ∧ s.core.sys.mode ≠ .safeTalk ∧ (portAt s.core 0).prio = frame7 b :: []) ∧
    subFor (cfgOf (sub7 1).core) (beNat (slice telegram7 8 4)) = some 47 ∧
    pdOk [] = false ∧ pdOk telegram7 = true ∧ entryOk (cfgOf (sub7 1).core) 47 (frame7 telegram7) = true ∧
    trainKey (sub7 1) (byteAt telegram7 43) = [1] ∧ trainKey (unit .service) (byteAt telegram7 43) = [] ∧
    slice telegram7 56 8 = (hmac [1] (slice telegram7 40 16)).take 8 ∧
    (∃ w, window (subAt (sub7 1).core 47) 3 9 = .accept w) ∧
    window { empty := false, wEpoch := 4 } 3 9 = .stale ∧ window { empty := false, wEpoch := 3, high := 9, seen := [9] } 3 9 = .duplicate :=
  ⟨by decide +kernel, by decide +kernel, by decide +kernel, by decide +kernel, by decide +kernel, by decide +kernel, by decide +kernel,
    by decide +kernel, ⟨_, rfl⟩, by decide +kernel, by decide +kernel⟩
theorem witness_TrainReception_tag : ¬ slice (telegram7.take 56 ++ List.replicate 8 0) 56 8 = (hmac [1] (slice telegram7 40 16)).take 8 := by
  decide +kernel

/-! ### The recorder, the banks, tamper -/

/-- The recorder admits events of code 0x001. -/
def recCore : Core := (unit .service).core
theorem witness_EventRecordLayout : ∀ code ∈ [0x001, 0x002, 0x0B0, 0x0B1], code < 0x400 ∧ sevOf recCore code ≤ 4 ∧ recCore.nv.cycles ≤ 0x3FFFFE ∧
    recCore.recd.failed = false ∧ recCore.recd.stoppedE = false ∧ recCore.recd.powerFail = false ∧ recCore.recd.fifo.length < 248 ∧
    codeFree code = true := by decide
theorem witness_EventRecordLayout_level : 0x3FF < 0x400 ∧ (255 : Nat) < 256 ∧ ([1, 2, 3, 4294967295] : List Nat).length ≤ 4 ∧
    (∀ p ∈ [1, 2, 3, 4294967295], p < 2 ^ 32) ∧ sevOf recCore 0x3FF ≤ 4 ∧ 60000 ≤ levelOf recCore 0x3FF := by decide
/-- A unit whose FIFO holds one record and whose write indices are these. -/
def recording (r : Staged) (wJ wE : Nat) (failed : Bool := false) : State :=
  { unit .service (fun c => { c with recd := { c.recd with fifo := [r], failed := failed } }) with store := { wJ := wJ, wE := wE } }
def cycleRec : Staged := { cycle := true, sev := 0, code := 0, bytes := [] }
def eventRec : Staged := { cycle := false, sev := 2, code := 0x010, bytes := [] }
theorem witness_RecordsStored :
    (unit .service).core.recd.fifo = [] ∧ (recording cycleRec 0 0 true).core.recd.failed = true ∧
    (∀ w ∈ [0, 125, 134217600], let s := recording cycleRec w 0
      s.core.recd.fifo = [cycleRec] ∧ s.core.recd.failed = false ∧ cycleRec.cycle = true ∧ s.store.wJ < journalSlots ∧ (s.store.wJ + 1) % 128 ≠ 127) ∧
    (let s := recording cycleRec 126 0
     s.store.wJ + 2 < journalSlots ∧ (s.store.wJ + 1) % 128 = 127 ∧ s.store.wJ / 128 % 256 ≠ 255) ∧
    journalSlots ≤ (recording cycleRec 134217728 0).store.wJ ∧
    (∀ w ∈ [0, 16777212], let s := recording eventRec 0 w
      s.core.recd.fifo = [eventRec] ∧ s.core.recd.failed = false ∧ eventRec.cycle = false ∧ s.store.wE + 1 < eventLast ∧
        (s.store.wE + 1) % 128 ≠ 127 ∧ isTimeSet eventRec = false) ∧
    (recording eventRec 0 16777213).store.wE + 1 = eventLast ∧
    (let s := unit .service fun c => { c with recd := { c.recd with fifo := List.replicate 129 eventRec } }
     128 < s.core.recd.fifo.length) ∧ (unit .service fun c => { c with recd := { c.recd with powerFail := true } }).core.recd.powerFail = true ∧
    (let s := unit .service fun c => { c with recd := { c.recd with drops := [(0x010, { count := 1 })] } }
     s.core.recd.fifo.length ≤ 128 ∧ s.core.recd.powerFail = false ∧ s.core.recd.failed = false ∧ s.core.recd.stoppedE = false ∧
      s.core.recd.drops = [(0x010, { count := 1 })]) := by decide +kernel
theorem witness_BankWords :
    bar2Open (unit .service).core = false ∧
    (∀ off, bar2Open (unit .workshop).core = true ∧
      tget 0 (bankAt (unit .workshop).core (bar2Word (unit .workshop).core off).1).checks (bar2Word (unit .workshop).core off).2 = 0) ∧
    (0x3FFFC : BitVec 18).toNat / 65536 = 3 ∧ (0x2FFFC : BitVec 18).toNat / 65536 = 2 ∧
    (∃ (s : State) (k : Fin 24), (∀ e ∈ (bankAt s.core k).wb, e.2 ≠ true) ∧ (bankAt s.core k).wb ≠ []) ∧
    (∃ (s : State) (k : Fin 24), (bankAt s.core k).power ≠ .on) ∧
    (∃ (s : State) (k : Fin 24) (x : Nat) (older rest : List (Nat × Bool)), (bankAt s.core k).wb = older ++ (x, true) :: rest ∧
      (∀ e ∈ older, e.2 ≠ true) ∧ older ≠ [] ∧ (bankAt s.core k).power = .on ∧ (bankRead (bankAt s.core k) x).2 ≠ .bad) ∧
    opalRuns (unit .parked).core.sys.mode = false ∧
    ∃ (s : State) (m r : Nat) (rest : List (Nat × Nat)), opalRuns s.core.sys.mode = true ∧ s.core.sys.inReset = false ∧
      s.core.mem.forward = (m, r) :: rest ∧ r < 1024 ∧ (bankAt s.core m).power = .on ∧ (bankAt s.core m).checks = [] :=
  ⟨by decide +kernel, fun off => ⟨by decide, rfl⟩, by decide +kernel, by decide +kernel,
    ⟨unit .service fun c => { c with mem := { c.mem with banks := [(23, { wb := [(0, false)] })] } }, 23, by decide +kernel⟩,
    ⟨unit .service fun c => { c with mem := { c.mem with banks := [(23, { power := .off })] } }, 23, by decide +kernel⟩,
    ⟨unit .service fun c => { c with mem := { c.mem with banks := [(23, { wb := [(0, false), (32767, true)] })] } }, 23, 32767, [(0, false)], [],
      by decide +kernel⟩, by decide +kernel,
    unit .service fun c => { c with mem := { c.mem with forward := [(23, 1023)] } }, 23, 1023, [], by decide +kernel⟩
theorem witness_TamperAndWipe :
    (∀ src ∈ [TamperSource.temperature, .vsup, .clock, .light], tamperErase (unit .service (with_ (image []))).core src = false ∧
      tamperErase (unit .service).core src = true) ∧
    (unit .service).core.sys.mode ≠ .parked ∧ inUse .provisioned = true ∧ inUse .blank = false ∧ stepsIn .shadow = true ∧
    ({ unit .service with onyx := { wipePending := true } } : State).onyx.wipePending = true ∧ (unit .service).core.sys.inReset = false ∧
    (unit .service).onyx.wipePending = false ∧
    ((unit .parked).core.sys.mode = .parked ∧ (unit .parked).core.sys.inReset = false ∧ (unit .parked).core.sys.flush = none ∧
      tamperErase (unit .parked).core .mesh = true) ∧
    (∃ s : State, s.core.sys.erased = true ∧ stepsIn s.core.sys.mode = true ∧ s.core.sys.inReset = false ∧ resetting s.core = false ∧
      anyMoving s.core = false) ∧
    (∃ s : State, s.core.sys.erased = true ∧ stepsIn s.core.sys.mode = true ∧ s.core.sys.inReset = false ∧ resetting s.core = false ∧
      anyMoving s.core = true ∧ 80000 ≤ s.core.sys.eraseAge) ∧
    (unit .service).core.sys.erased = false ∧ anyMoving (unit .service moving).core = true ∧ (unit .service moving).core.sys.eraseAge < 80000 :=
  ⟨by decide, by decide, by decide, by decide, by decide, by decide, by decide, by decide, by decide,
    ⟨unit .service fun c => { c with sys := { c.sys with erased := true } }, by decide⟩,
    ⟨unit .service fun c => moving { c with sys := { c.sys with erased := true, eraseAge := 80000 } }, by decide⟩, by decide, by decide, by decide⟩

/-! ### BAR0, flows, doorbells, descriptors -/

/-- A unit whose port issues requests. -/
def ported (m : Mode) (f : Core → Core := id) : State := unit m fun c => f { c with bar := { c.bar with bme := true, linkUp := true } }
theorem witness_SetupRegisters :
    (let s := atPort (unit .service fun c => { c with bar := { c.bar with lock := true } }); s.core.bar.lock = true) ∧
    barOpen (atPort (unit .safeTalk)).core = false ∧
    (atPort (unit .service)).core.bar.lock = false ∧ barOpen (atPort (unit .service)).core = true ∧
    (flowAt (unit .service).core 255).state = .disabled ∧ (0x108 : Nat) < 0x110 ∧
    1 ≤ (1 : U32).toNat % 1024 ∧ (1000 : U32).toNat % 1024 ≤ 1000 ∧ ¬ (1001 : U32).toNat % 1024 ≤ 1000 ∧
    10 ≤ (10 : U32).toNat % 16384 ∧ (10000 : U32).toNat % 16384 ≤ 10000 ∧ ¬ 10 ≤ (9 : U32).toNat % 16384 := by decide
theorem witness_BarAccess :
    (0xE : BitVec 4) ≠ 0xF ∧
    (0x12C : BitVec 16).toNat ∉ [0x40, 0x44, 0x100, 0x104, 0x108, 0x10C, 0x110, 0x114, 0x118, 0x11C, 0x120,
      0x124, 0x128, 0x130, 0x134, 0x140] ∧
    State.reset.core.sys.inReset = true ∧ (unit .service).core.sys.inReset = false ∧ (atPort (unit .service)).core.sys.early = false ∧
    (let s := unit .selftest fun c => { c with sys := { c.sys with early := true, stStep := 1 } }
     s.core.sys.inReset = false ∧ (atPort s).core.sys.early = true) ∧ roReg (atPort (unit .service)).core 0x10 = none ∧
    roReg (unit .service).core 0x18 = some (stampOf (unit .service).core) ∧ roReg (unit .service).core 0x30 = some (imageHash none) :=
  ⟨by decide, by decide, by decide, by decide, by decide, by decide, rfl, rfl, rfl⟩
/-- A flow-table entry of R77: bases, sizes, class, quota, with its CRC. -/
def entryOf (sq cq sqSize cqSize cls quota : Nat) : Bytes :=
  let b := padTo 60 (toLe 8 sq ++ toLe 8 cq ++ toLe 2 sqSize ++ toLe 2 cqSize ++ toLe 1 cls ++ toLe 1 quota ++ [7])
  b ++ toLe 4 (crc32c b)
/-- Flow 255 with these contents. -/
def flow255 (f : FlowSt) (m : Mode := .service) : State := ported m fun c => { c with host := { c.host with flows := [(255, f)] } }
theorem witness_FlowCommands :
    cmdStarts (unit .selftest).core 255 1 = false ∧ cmdStarts (unit .service).core 255 2 = false ∧
    cmdStarts (flow255 { cmd := 2 }).core 255 2 = true ∧ cmdStarts (flow255 { cmd := 1 }).core 255 1 = true ∧
    (flow255 { cmd := 1 }).core.bar.flowTable = 0 ∧
    (unit .service fun c => { c with bar := { c.bar with flowTable := 1, db := 64 } }).core.bar.flowTable ≠ 0 ∧
    (unit .service fun c => { c with bar := { c.bar with flowTable := 1, db := 64 } }).core.bar.db ≠ 0 ∧
    (flowAt (flow255 { cmd := 3 }).core 255).cmd < 4 ∧ 4 ≤ (flowAt (flow255 { cmd := 4 }).core 255).cmd ∧
    ([] : Bytes).length ≠ 64 ∧ (List.replicate 64 0 : Bytes).length = 64 ∧ (List.replicate 65 0 : Bytes).length ≠ 64 := by decide +kernel
theorem witness_FlowCommands_entry :
    let intact (e : Bytes) : Bool := field e 60 4 == crc32c (slice e 0 60) && allZero (slice e 23 37)
    let sized (e : Bytes) : Bool := ringSize (field e 16 2) && ringSize (field e 18 2)
    let classed (n : Nat) (e : Bytes) : Bool := ((n < 8 && byteAt e 20 == 0) || (8 ≤ n && byteAt e 20 != 0)) && byteAt e 20 ≤ 3
    let aligned (e : Bytes) : Bool := field e 0 8 % 64 == 0 && field e 8 8 % 32 == 0
    intact (List.replicate 64 0) = false ∧ (intact (entryOf 0 0 8 16 1 0) = true ∧ sized (entryOf 0 0 8 16 1 0) = false) ∧
    (intact (entryOf 0 0 16 4096 0 0) = true ∧ sized (entryOf 0 0 16 4096 0 0) = true ∧ classed 255 (entryOf 0 0 16 4096 0 0) = false ∧
      classed 7 (entryOf 0 0 16 4096 0 0) = true) ∧
    (classed 255 (entryOf 32 0 16 16 3 0) = true ∧ aligned (entryOf 32 0 16 16 3 0) = false) ∧
    (intact (entryOf 64 32 16 4096 3 1) = true ∧ sized (entryOf 64 32 16 4096 3 1) = true ∧ classed 8 (entryOf 64 32 16 4096 3 1) = true ∧
      aligned (entryOf 64 32 16 4096 3 1) = true ∧ field (entryOf 64 32 16 4096 3 1) 16 2 ≠ 0 ∧ field (entryOf 64 32 16 4096 3 1) 18 2 ≠ 0) ∧
    (intact (entryOf 64 32 0 16 3 1) = true ∧ sized (entryOf 64 32 0 16 3 1) = true ∧ field (entryOf 64 32 0 16 3 1) 16 2 = 0) := by
  decide +kernel
theorem witness_HostLink_master :
    (unit .service fun c => { c with bar := { c.bar with bme := true } }).core.bar.bme = true ∧
    (let s := unit .service fun c => { c with bar := { c.bar with linkUp := true }, host := { c.host with flows := [(255, { cmd := 4 })] } }
     s.core.sys.inReset = false ∧ s.core.bar.bme = false ∧ s.core.bar.linkUp = true ∧ 4 ≤ (flowAt s.core 255).cmd) ∧
    ((unit .service).core.bar.bme = false ∧ (unit .service).core.bar.linkUp = false ∧
      ∀ n, n < 256 → (flowAt (unit .service).core n).cmd < 4) :=
  ⟨by decide, by decide, by decide, by decide, by decide +kernel⟩
theorem witness_HostLink :
    State.reset.core.sys.inReset = true ∧ (unit .selftest).core.sys.mode = .selftest ∧ (unit .service).core.bar.hb = 0 ∧
    (∃ s : State, s.core.sys.inReset = false ∧ s.core.sys.mode ≠ .selftest ∧ s.core.sys.mode ≠ .parked ∧ s.core.bar.hb ≠ 0 ∧
      s.core.host.hbRef = none) ∧
    (∃ (s : State) (v : U32), s.core.sys.inReset = false ∧ s.core.sys.mode ≠ .selftest ∧ s.core.sys.mode ≠ .parked ∧ s.core.bar.hb ≠ 0 ∧
      s.core.host.hbRef = some v) ∧
    ∃ (s : State) (r v : U32), s.core.sys.inReset = false ∧ s.core.sys.mode ≠ .selftest ∧ s.core.sys.mode ≠ .parked ∧ s.core.bar.hb ≠ 0 ∧
      s.core.host.hbRef = some r ∧ v ≠ r :=
  ⟨by decide, by decide, by decide, ⟨unit .service fun c => { c with bar := { c.bar with hb := 4 } }, by decide⟩,
    ⟨unit .service fun c => { c with bar := { c.bar with hb := 4 }, host := { c.host with hbRef := some 7 } }, 7, by decide⟩,
    unit .service fun c => { c with bar := { c.bar with hb := 4 }, host := { c.host with hbRef := some 0 } }, 0, 0xFFFFFFFF, by decide⟩
/-- Flow 255 enabled, with rings of 16 and one descriptor waiting once the doorbell word 15 shows tail 1. -/
def bell : State := flow255 { state := .enabled, sqSize := 16, cqSize := 16, cls := 3, quota := 8 }
def bellWord : Bytes := padTo 60 [] ++ toLe 4 1
theorem witness_Doorbells :
    (∃ s : State, blockOn s.core 0 = true ∧ portUp s.core = true ∧ serves s.core.sys.mode = true) ∧
    blockOn bell.core 0 = false ∧ serves (unit .parked).core.sys.mode = false ∧ serves bell.core.sys.mode = true ∧
    bell.core.sys.inReset = false ∧ bellWord.length = 64 ∧ 255 / 16 = (15 : Fin 16).val ∧ flowOn (flowAt bell.core 255) = true ∧
    bell.core.host.fetchQ = [] ∧ portUp bell.core = true ∧ bell.core.sys.flush = none :=
  ⟨⟨ported .service fun c => { c with host := { c.host with flows := [(0, { state := .enabled })] } }, by decide⟩, by decide⟩
theorem witness_Doorbells_served : bellWord.length = 64 ∧ ([] : Bytes).length ≠ 64 ∧ ∃ t, Runs (.doorbellData 15 (some bellWord)) bell t ∧
    0 < mayTake t.core 255 ∧ (flowAt t.core 255).cls = 3 ∧ urgentWaits t.core = false :=
  ⟨by decide, by decide, _, rfl, by decide +kernel⟩
/-- As `bell`, with a finished operation of flow 7, whose ring has a free entry. -/
def bellUrgent : State := ported .service fun c => { c with host := { c.host with
  flows := [(7, { state := .enabled, cqSize := 16 }), (255, { state := .enabled, sqSize := 16, cqSize := 16, cls := 3, quota := 8 })]
  slots := [(0, some { flow := 7, started := true, done := some { status := 0 } })] } }
theorem witness_Doorbells_urgent : bellUrgent.core.host.fetchQ = [] ∧ portUp bellUrgent.core = true ∧ bellUrgent.core.sys.flush = none ∧
    ∃ t, Runs (.doorbellData 15 (some bellWord)) bellUrgent t ∧ (∀ n, n < 8 → mayTake t.core n = 0) ∧ urgentWaits t.core = true :=
  ⟨by decide, by decide, by decide, _, rfl, by decide +kernel⟩
theorem witness_Doorbells_none : ∃ t, Runs (.doorbellData 0 (some (List.replicate 64 0))) (ported .service) t ∧
    ∀ n, n < 256 → mayTake t.core n = 0 := ⟨_, rfl, by decide +kernel⟩
/-- ECHO with its CRC (R105, R115). -/
def echoDesc : Bytes := let b := (desc 0x01 [1, 2]).take 60; b ++ toLe 4 (crc32c b)
/-- A fetch of one descriptor of flow 255 is under way. -/
def fetching : State := { bell with core := { bell.core with host := { bell.core.host with fetchQ := [(255, 0, 1)] } } }
theorem witness_DescriptorsAndCompletions_fetch :
    State.reset.core.sys.inReset = true ∧ bell.core.host.fetchQ = [] ∧ fetching.core.sys.inReset = false ∧
    fetching.core.host.fetchQ = (255, 0, 1) :: [] ∧ echoDesc.length = 64 ∧ freeSlot fetching.core 255 = some 32 ∧
    (checkDesc fetching.core 255 { desc := echoDesc }).1 = .accept ∧
    (checkDesc fetching.core 255 { desc := List.replicate 64 0 }).1 = .reject 0x10 0 ∧
    field (List.replicate 64 0) 60 4 ≠ crc32c (slice (List.replicate 64 0) 0 60) ∧
    (∃ x ∈ [({ desc := [] } : Fetched)], x.desc.length ≠ 64) ∧
    ((∀ x ∈ ([] : List Fetched), x.desc.length = 64) ∧ ([] : List Fetched).length ≠ 1) ∧
    (∀ b, ({ desc := echoDesc, auth := some (List.replicate 128 0) } : Fetched).auth = some b → b.length = 128) := by
  and_intros <;> first | (intro b h; cases h; rfl) | decide +kernel
/-- A finished operation of flow 255 in slot 511. -/
def done511 (gen : Nat) : SlotSt := { flow := 255, gen := gen, desc := echoDesc, started := true, done := some { status := 0 } }
theorem witness_DescriptorsAndCompletions_completion :
    (∃ (s : State) (k : Nat) (x : SlotSt) (e : DoneSt), s.core.sys.inReset = false ∧ slotAt s.core k = some x ∧ x.done = some e ∧
      (flowAt s.core x.flow).gen ≠ x.gen) ∧
    (∃ (s : State) (k : Nat) (x : SlotSt) (e : DoneSt), s.core.sys.inReset = false ∧ (∀ y, y ∈ finished s.core → stale s.core y.2.1 = false) ∧
      nextCompletion s.core = some (k, x, e) ∧ portUp s.core = true ∧ s.core.sys.flush = none) ∧
    (portUp (unit .service).core = false ∧ (∀ y, y ∈ finished (unit .service).core → stale (unit .service).core y.2.1 = false)) ∧
    State.reset.core.sys.inReset = true ∧ nextCompletion (ported .service).core = none ∧ (ported .service).core.host.fetchDue = false ∧
    (unit .service fun c => { c with sys := { c.sys with flush := some { kind := .soft } } }).core.sys.flush ≠ none :=
  ⟨⟨{ bell with core := holding 511 (done511 1) bell.core }, 511, done511 1, { status := 0 }, by decide +kernel⟩,
    ⟨{ bell with core := { bell.core with host := { bell.core.host with slots := [(511, some (done511 0))] } } }, 511, done511 0, { status := 0 },
      by decide +kernel⟩, by decide⟩

/-! ### Operations -/

/-- `Ready`, from conditions that can be decided, beside what else a clause asks. -/
theorem readyAnd {k op : Nat} {x : SlotSt} {c : Core} {P : Prop}
    (h : (slotAt c k = some x ∧ x.done = none ∧ byteAt x.desc 0 = op ∧ x.started = false ∧ earlierWaits c x = false ∧
      heldBack c op = false) ∧ P) : Ready k op x c ∧ P :=
  ⟨⟨h.1.1, h.1.2.1, h.1.2.2.1, h.1.2.2.2.1, h.1.2.2.2.2.1, h.1.2.2.2.2.2⟩, h.2⟩

/-- An empty slot is ready for nothing. -/
theorem notReady {k op : Nat} {c : Core} (h : slotAt c k = none) : ∀ x, ¬ Ready k op x c :=
  fun _ r => nomatch h.symm.trans r.slot

/-- The core of a unit in SERVICE, changed by `f`, in which slot 511 alone holds `x`, just accepted. -/
def on511 (x : SlotSt) (f : Core → Core := id) : Core := holding 511 x (unit .service f).core
/-- An accepted operation with these operand bytes and, with `n`, a transfer of `n` bytes. -/
def op (o : Nat) (args : List Nat) (n : Nat := 0) (data : HostRead := none) : SlotSt := { desc := descData o args n, data := data }

theorem witness_ReadOperations_notReady : ∀ x, ¬ Ready 511 0x01 x (unit .service).core := notReady (by decide)
theorem witness_ReadOperations_time : Ready 511 0x32 (op 0x32 [7]) (on511 (op 0x32 [7])) ∧
    (on511 (op 0x32 [7])).recd.stoppedE = false ∧ (on511 (op 0x32 [7])).recd.failed = false ∧
    (on511 (op 0x32 [7])).recd.powerFail = false ∧ (on511 (op 0x32 [7])).recd.fifo.length < 248 := readyAnd (by decide)
theorem witness_ReadOperations_timeStopped :
    let f : Core → Core := fun c => { c with recd := { c.recd with stoppedE := true } }
    Ready 511 0x32 (op 0x32 [7]) (on511 (op 0x32 [7]) f) ∧ (on511 (op 0x32 [7]) f).recd.stoppedE = true := readyAnd (by decide)
theorem witness_ReadOperations_echo : Ready 511 0x01 (op 0x01 [1, 2]) (on511 (op 0x01 [1, 2])) ∧ True := readyAnd (by decide)
/-- JOURNAL_READ of the event store from index 2, of 255 records. -/
def journal (count len : Nat) : SlotSt := op 0x30 [1, 0, 0, 0, 2, 0, 0, 0, count] len
theorem witness_ReadOperations_journal :
    (Ready 511 0x30 (journal 0 0) (on511 (journal 0 0)) ∧ field (journal 0 0).desc 16 4 = 0 ∧ opLen (journal 0 0).desc = 0) ∧
    (Ready 511 0x30 (journal 255 32) (on511 (journal 255 32)) ∧
      field (journal 255 32).desc 16 4 ≠ 0 ∧ opLen (journal 255 32).desc ≠ 0 ∧ byteAt (journal 255 32).desc 8 = 1 ∧
      field (journal 255 32).desc 12 4 = 2 ∧ storeW { State.reset.store with wE := 2 } 1 ≤ 2 ∧
      2 < storeW { State.reset.store with wE := 3 } 1) :=
  ⟨readyAnd (by decide), readyAnd (by decide)⟩
theorem witness_ReadOperations_sized :
    (Ready 511 0x31 (op 0x31 [1, 0]) (on511 (op 0x31 [1, 0])) ∧ opLen (op 0x31 [1, 0]).desc = 0) ∧
    (Ready 511 0x31 (op 0x31 [1, 1] 1024) (on511 (op 0x31 [1, 1] 1024)) ∧ opLen (op 0x31 [1, 1] 1024).desc ≠ 0) ∧
    (Ready 511 0x62 (op 0x62 []) (on511 (op 0x62 [])) ∧ opLen (op 0x62 []).desc = 0) ∧
    (Ready 511 0x62 (op 0x62 [] 960) (on511 (op 0x62 [] 960)) ∧
      opLen (op 0x62 [] 960).desc ≠ 0 ∧ (unit .service).onyx.identity = [] ∧
      ({ unit .service with onyx := { identity := List.replicate 32 1 } } : State).onyx.identity ≠ []) ∧
    (Ready 511 0x7F (op 0x7F [1]) (on511 (op 0x7F [1])) ∧ opLen (op 0x7F [1]).desc = 0) ∧
    (Ready 511 0x7F (op 0x7F [1] 64) (on511 (op 0x7F [1] 64)) ∧ opLen (op 0x7F [1] 64).desc ≠ 0) ∧
    (Ready 511 0x7F (op 0x7F [2] 64) (on511 (op 0x7F [2] 64)) ∧ opLen (op 0x7F [2] 64).desc ≠ 0 ∧ byteAt (op 0x7F [2] 64).desc 8 ≠ 1) :=
  ⟨readyAnd (by decide), readyAnd (by decide), readyAnd (by decide), readyAnd (by decide), readyAnd (by decide), readyAnd (by decide), readyAnd (by decide)⟩
theorem witness_ReadOperations_selftest :
    (Ready 511 0x70 (op 0x70 [1]) (on511 (op 0x70 [1]) moving) ∧ byteAt (op 0x70 [1]).desc 8 ≠ 0 ∧
      claiming (on511 (op 0x70 [1]) moving) = true ∧ anyMoving (on511 (op 0x70 [1]) moving) = true) ∧
    (Ready 511 0x70 (op 0x70 [1]) (on511 (op 0x70 [1])) ∧ byteAt (op 0x70 [1]).desc 8 ≠ 0 ∧ claiming (on511 (op 0x70 [1])) = false) ∧
    (let f : Core → Core := fun c => { moving c with seq := { c.seq with channels := [] } }
     Ready 511 0x70 (op 0x70 [1]) (on511 (op 0x70 [1]) f) ∧ claiming (on511 (op 0x70 [1]) f) = true ∧ anyMoving (on511 (op 0x70 [1]) f) = false) ∧
    (Ready 511 0x70 (op 0x70 [0]) (on511 (op 0x70 [0])) ∧ byteAt (op 0x70 [0]).desc 8 = 0) :=
  ⟨readyAnd (by decide), readyAnd (by decide), readyAnd (by decide), readyAnd (by decide)⟩

/-- An operation on portals, with the parts it holds. -/
def portalOp (o cls : Nat) : SlotSt := { op o [1, 0x08, cls] with mask := heldMask (op o [1, 0x08, cls]).desc }
theorem witness_ChannelOperations_portals :
    (Ready 511 0x10 (portalOp 0x10 1) (on511 (portalOp 0x10 1)) ∧ (portalOp 0x10 1).mask = heldMask (portalOp 0x10 1).desc ∧
      (portalOp 0x10 1).ended = [] ∧ (portalOp 0x10 1).reached = 0 ∧ 1 ≤ byteAt (portalOp 0x10 1).desc 10 ∧
      byteAt (portalOp 0x10 1).desc 10 ≤ 4 ∧ 11 < 12 ∧ bitOf (field (portalOp 0x10 1).desc 8 2) 11 = true ∧
      ¬ bitOf (field (portalOp 0x10 1).desc 8 2) 1 = true ∧
      (chAt (on511 (portalOp 0x10 1)) 11).stopAt ≠ some (on511 (portalOp 0x10 1)).seq.now) ∧
    (let f := fun c : Core => { c with seq := { c.seq with channels := [(0, { stopAt := some c.seq.now })] } }
     Ready 511 0x10 (portalOp 0x10 4) (on511 (portalOp 0x10 4) f) ∧ (portalOp 0x10 4).mask = heldMask (portalOp 0x10 4).desc ∧
      byteAt (portalOp 0x10 4).desc 10 ≤ 4 ∧ 0 < 12 ∧ bitOf (field (portalOp 0x10 4).desc 8 2) 0 = true ∧
      (chAt (on511 (portalOp 0x10 4) f) 0).stopAt = some (on511 (portalOp 0x10 4) f).seq.now) ∧
    (Ready 511 0x11 (portalOp 0x11 2) (on511 (portalOp 0x11 2)) ∧ (portalOp 0x11 2).mask = heldMask (portalOp 0x11 2).desc ∧
      (portalOp 0x11 2).ended = [] ∧ (portalOp 0x11 2).reached = 0) :=
  ⟨readyAnd (by decide), readyAnd (by decide), readyAnd (by decide)⟩
/-- An open request on all of portal 11 stands in slot 0 behind the operation of slot 511. -/
theorem witness_ChannelOperations_others :
    let y : SlotSt := { portalOp 0x10 1 with started := true }
    let c := { on511 (portalOp 0x11 2) with host := { slots := [(0, some y), (511, some (portalOp 0x11 2))] } }
    Ready 511 0x11 (portalOp 0x11 2) c ∧ slotAt c 0 = some y ∧ slotOp y = 0x10 ∧ partOpen y 11 = true := readyAnd (by decide)
theorem witness_ChannelOperations_car :
    (Ready 511 0x12 (op 0x12 [3]) (on511 (op 0x12 [3])) ∧ (on511 (op 0x12 [3])).seq.carSlot ≠ some 511 ∧
      (on511 (op 0x12 [3])).seq.carSlot = none) ∧
    (let y : SlotSt := { op 0x12 [4] with started := true }
     let c := { on511 (op 0x12 [3]) with
       host := { slots := [(510, some y), (511, some (op 0x12 [3]))] }, seq := { (unit .service).core.seq with carSlot := some 510 } }
     Ready 511 0x12 (op 0x12 [3]) c ∧ c.seq.carSlot ≠ some 511 ∧ c.seq.carSlot = some 510 ∧ slotAt c 510 = some y ∧ y.done = none) ∧
    (Ready 511 0x18 (op 0x18 [1, 0x10, 0x10]) (on511 (op 0x18 [1, 0x10, 0x10])) ∧
      12 < 13 ∧ bitOf (field (op 0x18 [1, 0x10, 0x10]).desc 8 2) 12 = true ∧ bitOf (field (op 0x18 [1, 0x10, 0x10]).desc 8 2) 11 = false) :=
  ⟨readyAnd (by decide), readyAnd (by decide), readyAnd (by decide)⟩
/-- Slots 510 and 511 hold `y`, which goes on, and `x`, just accepted, in a unit in mode `m`. -/
def two (y x : SlotSt) (f : Core → Core := id) : Core :=
  { f (unit .service).core with host := { slots := [(510, some y), (511, some x)] } }
/-- Portal 11 is configured with axis 33 and rests. -/
def still (c : Core) : Core :=
  { moving c with seq := { c.seq with channels := [] } }
/-- MANUAL_MOVE of axis 35, and an earlier one that moves. -/
def manual : SlotSt := op 0x38 [35, 1]
theorem witness_UnitOperations_manual :
    (Ready 511 0x38 manual (two { manual with started := true } manual fun c => { c with seq := { c.seq with masters := [(11, { slot := some 510 })] } }) ∧
      510 ≠ 511 ∧ 510 < 512 ∧ slotOp { manual with started := true } = 0x38 ∧ ({ manual with started := true } : SlotSt).done = none ∧
      byteAt manual.desc 8 / 3 = 11) ∧
    (msAt { (unit .service).core with seq := { (unit .service).core.seq with masters := [(11, { slot := some 510 })] } } 11).slot = some 510 ∧
    (msAt (unit .service).core 11).slot ≠ some 0 ∧
    (let r : MoveReq := { cls := 3, table := 0, slow := 0, entry := 0, pset := 0, execAt := 0, slot := some 510, manual := some (35, 0, 1) }
     (∃ q, ({ waiting := some r } : MasterSt).waiting = some q ∧ q.slot = some 510) ∧
     ∃ g, ({ granted := some { req := r, table := 0, slow := false, k := 16384 } } : MasterSt).granted = some g ∧ g.req.slot = some 510) :=
  ⟨readyAnd (by decide), by decide, by decide, ⟨_, rfl, rfl⟩, _, rfl, rfl⟩
theorem witness_UnitOperations_learn :
    (Ready 511 0x40 (op 0x40 [35, 0]) (on511 (op 0x40 [35, 0])) ∧ byteAt (op 0x40 [35, 0]).desc 9 % 4 = 0) ∧
    (Ready 511 0x40 (op 0x40 [35, 3, 10]) (on511 (op 0x40 [35, 3, 10])) ∧ byteAt (op 0x40 [35, 3, 10]).desc 9 % 4 ≠ 0) :=
  ⟨readyAnd (by decide), readyAnd (by decide)⟩
/-- The image makes UIO 143 an output. -/
def out143 (c : Core) : Core := with_ (image [(secField + fEntry 143, 2)]) c
/-- As `out143`, with UIO 143 forced by the operation of slot 510. -/
def forced (c : Core) : Core := out143 { c with seq := { c.seq with forces := [(143, some ⟨true, 0, 510⟩)] } }
def force (v : Nat) : SlotSt := op 0x48 [143, v]
theorem witness_UnitOperations_force :
    (Ready 511 0x48 (force 2) (on511 (force 2)) ∧ fMode (imgPart (cfgOf (on511 (force 2))) secField 1216) 143 ≠ 2) ∧
    (Ready 511 0x48 (force 2) (two { force 1 with started := true } (force 2) forced) ∧ byteAt (force 2).desc 9 = 2 ∧
      byteAt (force 2).desc 8 = 143) ∧
    (Ready 511 0x48 (force 1) (two { force 1 with started := true } (force 1) forced) ∧ byteAt (force 1).desc 9 ≠ 2 ∧
      fMode (imgPart (cfgOf (forced (unit .service).core)) secField 1216) 143 = 2 ∧
      tget none (forced (unit .service).core).seq.forces 143 = some ⟨true, 0, 510⟩ ∧
      slotAt (two { force 1 with started := true } (force 1) forced) 510 = some { force 1 with started := true }) ∧
    (Ready 511 0x48 (force 0) (on511 (force 0) out143) ∧ byteAt (force 0).desc 9 ≠ 2 ∧
      ∀ f, tget none (on511 (force 0) out143).seq.forces 143 = some f → f.slot ≠ 511) :=
  ⟨readyAnd (by decide +kernel), readyAnd (by decide +kernel), readyAnd (by decide +kernel), readyAnd ⟨by decide +kernel, by decide +kernel, fun f h => nomatch h⟩⟩
/-- LOCKOUT_RESET of portal 11 and its ISOLATED. -/
def unlock : SlotSt := op 0x50 [0, 8, 0, 8]
theorem witness_UnitOperations_lockout :
    let bad8 (c : Core) (pm im : Nat) := ∃ p, p < 12 ∧ (bitOf pm p = true ∨ bitOf im p = true) ∧
      (chanConf c p = false ∨ movingCode (motionOf c p) = true ∨ manualAt c p = true)
    let bad10 (c : Core) (im : Nat) := ∃ p, p < 12 ∧ bitOf im p = true ∧ ((∃ a ∈ portalAxes (cfgOf c) p, (linkAt c a).fault ≠ 0) ∨
      ∃ q ∈ pairsOf (imgPart (cfgOf c) secSafe 2240), p ∈ pairPortals c q ∧ (c.crossA.faulted.getLsbD q = true ∨ c.crossB.faulted.getLsbD q = true))
    let linkBad : Core → Core := fun c => still { c with links := [(33, { fault := 1 })] }
    (Ready 511 0x50 unlock (on511 unlock moving) ∧ bad8 (on511 unlock moving) (field unlock.desc 8 2) (field unlock.desc 10 2)) ∧
    (Ready 511 0x50 unlock (on511 unlock linkBad) ∧ ¬ bad8 (on511 unlock linkBad) (field unlock.desc 8 2) (field unlock.desc 10 2) ∧
      bad10 (on511 unlock linkBad) (field unlock.desc 10 2)) ∧
    (Ready 511 0x50 unlock (on511 unlock still) ∧ ¬ bad8 (on511 unlock still) (field unlock.desc 8 2) (field unlock.desc 10 2) ∧
      ¬ bad10 (on511 unlock still) (field unlock.desc 10 2)) := by
  refine ⟨readyAnd ⟨by decide, 11, by decide +kernel⟩, readyAnd ⟨by decide, by decide +kernel, 11, by decide, by decide, .inl ⟨33, by decide +kernel⟩⟩,
    readyAnd ⟨by decide, by decide +kernel, ?_⟩⟩
  rintro ⟨p, hp, -, h | ⟨q, -, -, h⟩⟩
  · have : ∀ a, (linkAt (on511 unlock still) a).fault = 0 := fun a => rfl
    obtain ⟨a, -, h⟩ := h
    exact h (this a)
  · have a : (on511 unlock still).crossA.faulted = 0 := rfl
    have b : (on511 unlock still).crossB.faulted = 0 := rfl
    simp [a, b] at h
/-- As `on511`, in mode `m`. -/
def in511 (m : Mode) (x : SlotSt) (f : Core → Core := id) : Core := holding 511 x (unit m f).core
def role (n : Nat) : SlotSt := op 0x58 [n]
theorem witness_UnitOperations_role :
    (Ready 511 0x58 (role 1) (in511 .workshop (role 1)) ∧ (in511 .workshop (role 1)).sys.mode = .workshop ∧
      ∀ e ∈ (in511 .workshop (role 1)).host.slots, ∀ y, e.2 = some y → slotOp y = 0x58) ∧
    (Ready 511 0x58 (role 1) (on511 (role 1)) ∧ (on511 (role 1)).sys.mode ≠ .workshop) ∧
    (let keys : Core → Core := fun c => { c with crossA := { c.crossA with wskey := true }, crossB := { c.crossB with wskey := true } }
     Ready 511 0x58 (role 2) (on511 (role 2) keys) ∧ (on511 (role 2) keys).sys.mode = .service ∧
      ((on511 (role 2) keys).crossA.wskey = true ∧ (on511 (role 2) keys).crossB.wskey = true) ∧
      ∀ p, p < 12 → movingCode (motionOf (on511 (role 2) keys) p) = false) ∧
    (Ready 511 0x58 (role 2) (on511 (role 2)) ∧ (on511 (role 2)).crossA.wskey = false) ∧
    (let f : Core → Core := fun c => { c with twin := { c.twin with role := .active, lanes := 3, peer := some ({ role := .standby }, {}) } }
     Ready 511 0x58 (role 3) (on511 (role 3) fun c => with_ (image [(23105, 1)]) (f c)) ∧ byteAt (role 3).desc 8 ≠ 1 ∧ byteAt (role 3).desc 8 ≠ 2 ∧
      standbySynced (on511 (role 3) f) = true ∧ twinUp (on511 (role 3) fun c => with_ (image [(23105, 1)]) (f c)) = true) ∧
    (Ready 511 0x58 (role 3) (on511 (role 3)) ∧ standbySynced (on511 (role 3)) = false) ∧
    (let f : Core → Core := fun c => { c with sys := { c.sys with flush := some { kind := .soft } } }
     Ready 511 0x58 (role 1) (on511 (role 1) f) ∧ resetting (on511 (role 1) f) = true) ∧ resetting (on511 (role 1)) = false :=
  ⟨readyAnd ⟨by decide, by decide, fun e he y hy => by simp [in511, holding] at he; subst he; cases hy; rfl⟩, readyAnd (by decide),
    readyAnd (by decide), readyAnd (by decide), readyAnd (by decide), readyAnd (by decide), readyAnd (by decide), by decide⟩
/-- KEY_INSTALL to a slot; the data are its key block's. -/
def key (u : Nat) (b : HostRead) : SlotSt := op 0x60 [u] 64 b
/-- A certificate: the 65-byte string of the unit's public key (R460), which is all 0 here. -/
def marked : Bytes := 4 :: List.replicate 64 0
/-- A unit with an identity, in which slot 511 holds `x`. -/
def ident511 (x : SlotSt) : State := { unit .service with core := on511 x, onyx := { identity := List.replicate 32 1 } }
/-- The base point of P-256 (FIPS 186-4), X then Y, little-endian. -/
def basePoint : Bytes :=
  toLe 32 0x6B17D1F2E12C4247F8BCE6E563A440F277037D812DEB33A0F4A13945D898C296 ++
  toLe 32 0x4FE342E2FE1A7F9B8EE7EB4A7C0F9E162BCE33576B315ECECBB6406837BF51F5
theorem witness_UnitOperations_key :
    (Ready 511 0x60 (key 16 none) (on511 (key 16 none)) ∧ (key 16 none).data = none) ∧
    (Ready 511 0x60 (key 1 (some marked)) (ident511 (key 1 (some marked))).core ∧ (ident511 {}).onyx.identity ≠ [] ∧
      hasPart (certMark (ident511 {}).core.nv.pub) marked = true) ∧
    (Ready 511 0x60 (key 16 (some [1])) (on511 (key 16 (some [1]))) ∧ byteAt (key 16 (some [1])).desc 8 = 16 ∧ ∃ y ∈ ([1] : Bytes), y ≠ 0) ∧
    (Ready 511 0x60 (key 31 (some [1])) (on511 (key 31 (some [1]))) ∧ byteAt (key 31 (some [1])).desc 8 = 31) ∧
    (Ready 511 0x60 (key 31 (some [0])) (on511 (key 31 (some [0]))) ∧ byteAt (key 31 (some [0])).desc 8 < 32 ∧ ¬ ∃ y ∈ ([0] : Bytes), y ≠ 0) ∧
    (Ready 511 0x60 (key 48 (some [1])) (on511 (key 48 (some [1]))) ∧ byteAt (key 48 (some [1])).desc 8 = 48) ∧
    (Ready 511 0x60 (key 32 (some basePoint)) (on511 (key 32 (some basePoint))) ∧ byteAt (key 32 (some basePoint)).desc 8 = 32 ∧
      (unit .service).fuse.fused = false ∧ onCurve (field basePoint 0 32) (field basePoint 32 32) = true) ∧
    (Ready 511 0x60 (key 35 (some basePoint)) (on511 (key 35 (some basePoint))) ∧ byteAt (key 35 (some basePoint)).desc 8 = 35) :=
  ⟨readyAnd (by decide), readyAnd (by decide), readyAnd (by decide), readyAnd (by decide), readyAnd (by decide), readyAnd (by decide),
    readyAnd (by decide +kernel), readyAnd (by decide)⟩
def lcTo (n : Nat) : SlotSt := op 0x61 [n]
theorem witness_UnitOperations_lifecycle :
    let keyed : Core → Core := fun c => { c with nv := { c.nv with authKeys := [(0, basePoint)] } }
    let lc (l : LifeCycle) (f : Core → Core) : Core → Core := fun c => { f c with nv := { (f c).nv with lc := l } }
    (Ready 511 0x61 (lcTo 1) (in511 .provision (lcTo 1) keyed) ∧ (in511 .provision (lcTo 1) keyed).nv.lc = .blank ∧
      lcOf (byteAt (lcTo 1).desc 8) = .provisioned ∧ (in511 .provision (lcTo 1) keyed).sys.mode = .provision ∧
      (in511 .provision (lcTo 1) keyed).nv.authKeys ≠ [] ∧ claiming (in511 .provision (lcTo 1) keyed) = false) ∧
    (Ready 511 0x61 (lcTo 2) (in511 .workshop (lcTo 2) (lc .provisioned id)) ∧ lcOf (byteAt (lcTo 2).desc 8) = .field ∧
      (in511 .workshop (lcTo 2) (lc .provisioned id)).nv.lc = .provisioned ∧ claiming (in511 .workshop (lcTo 2) (lc .provisioned id)) = false) ∧
    (Ready 511 0x61 (lcTo 3) (in511 .workshop (lcTo 3) (lc .field moving)) ∧ lcOf (byteAt (lcTo 3).desc 8) = .returned ∧
      (in511 .workshop (lcTo 3) (lc .field moving)).nv.lc = .field ∧ claiming (in511 .workshop (lcTo 3) (lc .field moving)) = true ∧
      anyMoving (in511 .workshop (lcTo 3) (lc .field moving)) = true) ∧
    (Ready 511 0x61 (lcTo 4) (in511 .provision (lcTo 4) (lc .returned id)) ∧ lcOf (byteAt (lcTo 4).desc 8) = .scrapped ∧
      (in511 .provision (lcTo 4) (lc .returned id)).nv.lc = .returned ∧ claiming (in511 .provision (lcTo 4) (lc .returned id)) = false) ∧
    (Ready 511 0x61 (lcTo 4) (on511 (lcTo 4)) ∧ (on511 (lcTo 4)).nv.lc = .blank ∧ lcOf (byteAt (lcTo 4).desc 8) ≠ .provisioned) :=
  ⟨readyAnd (by decide), readyAnd (by decide), readyAnd (by decide), readyAnd (by decide), readyAnd (by decide)⟩

theorem witness_LoadOperations_stops :
    (Ready 511 0x20 (op 0x20 []) (on511 (op 0x20 [])) ∧ opLen (op 0x20 []).desc = 0) ∧
    (Ready 511 0x20 (op 0x20 [] 27456) (on511 (op 0x20 [] 27456)) ∧ opLen (op 0x20 [] 27456).desc ≠ 0 ∧ (op 0x20 [] 27456).data = none) ∧
    (Ready 511 0x20 (op 0x20 [] 1 (some [0])) (on511 (op 0x20 [] 1 (some [0]))) ∧ opLen (op 0x20 [] 1 (some [0])).desc ≠ 0 ∧
      cfgCheck (on511 (op 0x20 [] 1 (some [0]))) (imgOf [0]) = some (0x12, 0x88)) ∧
    (Ready 511 0x21 (op 0x21 [12]) (on511 (op 0x21 [12])) ∧ opLen (op 0x21 [12]).desc = 0) ∧
    (Ready 511 0x21 (op 0x21 [12] 208) (on511 (op 0x21 [12] 208)) ∧ opLen (op 0x21 [12] 208).desc ≠ 0 ∧ (op 0x21 [12] 208).data = none) ∧
    (Ready 511 0x21 (op 0x21 [12] 1 (some [0])) (on511 (op 0x21 [12] 1 (some [0]))) ∧ opLen (op 0x21 [12] 1 (some [0])).desc ≠ 0 ∧
      progCheck (on511 (op 0x21 [12] 1 (some [0]))) 12 (imgOf [0]) = some (0x12, 0x01)) ∧
    (Ready 511 0x22 (op 0x22 []) (on511 (op 0x22 [])) ∧ opLen (op 0x22 []).desc = 0) ∧
    (Ready 511 0x22 (op 0x22 [] 196736) (on511 (op 0x22 [] 196736)) ∧ opLen (op 0x22 [] 196736).desc ≠ 0 ∧ (op 0x22 [] 196736).data = none) ∧
    (Ready 511 0x22 (op 0x22 [] 1 (some [0])) (on511 (op 0x22 [] 1 (some [0]))) ∧ opLen (op 0x22 [] 1 (some [0])).desc ≠ 0 ∧
      dirCheck (on511 (op 0x22 [] 1 (some [0]))) (imgOf [0]) = some (0x12, 0x20)) :=
  ⟨readyAnd (by decide), readyAnd (by decide), readyAnd (by decide +kernel), readyAnd (by decide), readyAnd (by decide),
    readyAnd (by decide +kernel), readyAnd (by decide), readyAnd (by decide), readyAnd (by decide +kernel)⟩
/-- The smallest program (R143 to R146) of channel 0: one state with MOTION IDLE that may stay, no transition and no action, signed with
the authority key of slot 0. Its signature is r = s = e, e its SHA-256, and the key is the one under which both scalars of the check are 1. -/
def progHash : Nat := 0x96d7bdb13db4fa2de74a6ba58138b17365756ab24fcd5f4338911593f69bf95d
def progBytes : Bytes :=
  toLe 4 0x5051534A ++ [1, 0, 0, 0, 1, 0, 0, 0, 0, 0, 0, 0] ++ toLe 4 144 ++ toLe 4 5 ++ List.replicate 8 0 ++ toLe 4 64 ++ toLe 4 80 ++
  toLe 4 80 ++ toLe 4 80 ++ List.replicate 12 0 ++ toLe 4 0x8c589878 ++
  [0, 0, 0, 1, 0, 0, 0, 1, 0, 0, 0, 0, 0, 0, 0, 0] ++ toLe 32 progHash ++ toLe 32 progHash
def progKey : Bytes :=
  toLe 32 0x58f3455953d25d38f715f134929c61802808231d25c337582c78b9698ebcc069 ++
  toLe 32 0x4ac8d24d8b23086525c97f7bfdf831b64fb36bc9a4bad53d956c2a4a4c781700
def loadP : SlotSt := op 0x21 [0] 144 (some progBytes)
def keyed0 (c : Core) : Core := { c with nv := { c.nv with authKeys := [(0, progKey)], cfg := some (image []) } }
theorem witness_LoadOperations_program :
    Ready 511 0x21 loadP (on511 loadP keyed0) ∧ opLen loadP.desc ≠ 0 ∧ byteAt loadP.desc 8 = 0 ∧
      progCheck (on511 loadP keyed0) 0 (imgOf progBytes) = none ∧ paired (on511 loadP keyed0) = false :=
  readyAnd (by decide +kernel)
theorem witness_StandbyFollows_image : standbyIn (pairedUnit .shadow keyed0).core = false ∧
    joinPiece none 2 0 0 progBytes = some progBytes ∧ (progCheck (pairedUnit .shadow keyed0).core 0 (imgOf progBytes)).isNone = true := by
  decide +kernel
theorem witness_LoadOperations_program_pair :
    let pair : Core → Core := fun c => keyed0 { c with run := { c.run with cfg := some (image [(23105, 1)]) } }
    Ready 511 0x21 loadP (on511 loadP pair) ∧ paired (on511 loadP pair) = true ∧ standbySynced (on511 loadP pair) = false :=
  readyAnd (by decide +kernel)

/-- A unit whose port issues requests, with a library at 0x1000, this cam cache, and `x` accepted in slot 511. -/
def cams (x : SlotSt) (cam : CamSt) (f : Core → Core := id) : Core :=
  holding 511 x (f { (ported .service).core with cam := cam, bar := { (ported .service).core.bar with lib := 0x1000 } })
/-- The directory in effect holds table 4095, of 112 bytes. -/
def dir4095 : Image :=
  { len := 196736
    mem := [(64 + 48 * 4095 + 4, 112), (64 + 48 * 4095 + 6, 1)] ++
      ((toBe 32 0x42c554f522ece2ba333f19b8b1e54538ff0b54a70f1f361d4bacc2a73b988085).zipIdx (64 + 48 * 4095 + 8)).map fun e => (e.2, e.1) }
def listed (c : Core) : Core := { c with run := { c.run with dir := some dir4095 } }
/-- CAM_PREFETCH, CAM_PIN and CAM_UNPIN of table 4095. -/
def fetch : SlotSt := op 0x23 [0xFF, 0x0F]
def pin : SlotSt := op 0x24 [0xFF, 0x0F]
def unpin : SlotSt := op 0x25 [0xFF, 0x0F]
/-- Page 63 holds table 4095 in this state. -/
def held (state : Nat) (pinned : Bool) : CamSt := { pages := [(63, { state := state, table := 4095, pinned := pinned })] }
/-- As `held 2 false`, and seven other tables are pinned. -/
def seven : CamSt :=
  { pages := ((List.range 7).map fun g => (g, { state := 2, table := g, pinned := true })) ++ [(63, { state := 2, table := 4095 })] }
/-- Every page holds a resident table. -/
def full : CamSt := { pages := (List.range 64).map fun g => (g, { state := 3, table := g }) }
theorem witness_CamOperations_page :
    (Ready 511 0x24 pin (cams pin seven) ∧ field pin.desc 8 2 = 4095 ∧ 7 ≤ pins (cams pin seven) ∧
      pageOf (cams pin seven) 4095 = some 63 ∧ (tget {} (cams pin seven).cam.pages 63).pinned = false ∧
      (tget {} (cams pin seven).cam.pages 63).state ≠ 3) ∧
    (Ready 511 0x23 fetch (cams fetch (held 2 false)) ∧ pageOf (cams fetch (held 2 false)) 4095 = some 63 ∧ pins (cams fetch (held 2 false)) < 7 ∧
      ∀ e ∈ (cams fetch (held 2 false)).cam.waits, e.2 ≠ 4095) ∧
    (Ready 511 0x24 pin (cams pin (held 2 true)) ∧ pageOf (cams pin (held 2 true)) 4095 = some 63 ∧
      (tget {} (cams pin (held 2 true)).cam.pages 63).pinned = true) ∧
    (Ready 511 0x24 pin (cams pin (held 3 false)) ∧ pageOf (cams pin (held 3 false)) 4095 = some 63 ∧
      (tget {} (cams pin (held 3 false)).cam.pages 63).state = 3) ∧
    (Ready 511 0x24 pin (cams pin (held 2 false)) ∧ pageOf (cams pin (held 2 false)) 4095 = some 63 ∧
      (tget {} (cams pin (held 2 false)).cam.pages 63).pinned = false ∧ (tget {} (cams pin (held 2 false)).cam.pages 63).state ≠ 3) ∧
    (Ready 511 0x25 unpin (cams unpin (held 2 true)) ∧ pageOf (cams unpin (held 2 true)) (field unpin.desc 8 2) = some 63) ∧
    (Ready 511 0x25 unpin (cams unpin {}) ∧ pageOf (cams unpin {}) (field unpin.desc 8 2) = none) :=
  ⟨readyAnd (by decide), readyAnd (by decide), readyAnd (by decide), readyAnd (by decide), readyAnd (by decide), readyAnd (by decide),
    readyAnd (by decide)⟩
theorem witness_CamOperations_waits :
    (let c := holding 511 fetch (unit .shadow fun c => { c with twin := { c.twin with synced := true } }).core
     Ready 511 0x23 fetch c ∧ pageOf c 4095 = none ∧ standbyIn c = true) ∧
    (Ready 511 0x24 pin (cams pin { cur := some (4095, 0, 1, 0) }) ∧ pageOf (cams pin { cur := some (4095, 0, 1, 0) }) 4095 = none ∧
      (4095, 0, 1, 0).1 = 4095) ∧
    (Ready 511 0x23 fetch (cams fetch { cur := some (1, 0, 1, 0), queue := [(4095, some 511)] }) ∧
      (4095, some 511) ∈ (cams fetch { cur := some (1, 0, 1, 0), queue := [(4095, some 511)] }).cam.queue) ∧
    (Ready 511 0x23 fetch (cams fetch { cur := some (1, 0, 1, 0) }) ∧ standbyIn (cams fetch { cur := some (1, 0, 1, 0) }) = false ∧
      (4095, some 511) ∉ (cams fetch { cur := some (1, 0, 1, 0) }).cam.queue ∧ (1, 0, 1, 0).1 ≠ 4095) :=
  ⟨readyAnd (by decide), readyAnd (by decide), readyAnd (by decide), readyAnd (by decide)⟩
theorem witness_CamOperations_idle :
    (Ready 511 0x23 fetch (cams fetch {}) ∧ (cams fetch {}).cam.cur = none ∧ (cams fetch {}).cam.queue = [] ∧ standbyIn (cams fetch {}) = false ∧
      (∀ dir, ¬ ((cams fetch {}).run.dir = some dir ∧ dirPresent dir 4095 = true)) ∧ (cams fetch {}).cam.waits = []) ∧
    (let c := cams fetch {} fun c => listed { c with bar := { c.bar with linkUp := false } }
     Ready 511 0x23 fetch c ∧ dirPresent dir4095 4095 = true ∧ portUp c = false) ∧
    (let c := cams fetch {} fun c => listed { c with bar := { c.bar with lib := 0 } }
     Ready 511 0x23 fetch c ∧ c.bar.lib = 0) ∧
    (Ready 511 0x24 pin (cams pin full listed) ∧ portUp (cams pin full listed) = true ∧ (cams pin full listed).bar.lib ≠ 0 ∧
      pageOf (cams pin full listed) 4095 = none ∧ victim (cams pin full listed) = none) ∧
    (Ready 511 0x24 pin (cams pin {} listed) ∧ portUp (cams pin {} listed) = true ∧ (cams pin {} listed).bar.lib ≠ 0 ∧
      (cams pin {} listed).run.dir = some dir4095 ∧ victim (cams pin {} listed) = some 0) :=
  ⟨readyAnd ⟨by decide, by decide, by decide, by decide, fun d h => (nomatch h.1), by decide⟩, readyAnd (by decide +kernel), readyAnd (by decide),
    readyAnd (by decide +kernel), readyAnd (by decide +kernel)⟩
/-- Page 63 is read with table 4095, on attempt `n`, for the operation `x` of slot 511. -/
def reading (x : SlotSt) (n : Nat) (retry : Bool := false) (f : Core → Core := id) : Core :=
  cams { x with started := true } { pages := [(63, { state := 1, table := 4095 })], cur := some (4095, 63, n, 0x1000), retry := retry, waits := [(511, 4095)] } fun c => f (listed c)
/-- A table (R180 to R182) of two points, 0 and 1, with no track; the directory has its SHA-256. -/
def table4095 : Bytes :=
  padTo 64 (toLe 4 0x4D41434A ++ toLe 2 1 ++ toLe 2 4095 ++ toLe 2 2 ++ [0, 0, 0, 255, 0, 0] ++ toLe 4 1) ++ padTo 24 [] ++ padTo 24 [1]
theorem witness_CamOperations_pageIn :
    (reading fetch 1 true).cam.retry = true ∧ (unit .service).core.cam.cur = none ∧
    ((reading fetch 2).cam.retry = false ∧ (reading fetch 2).cam.cur = some (4095, 63, 2, 0x1000)) ∧
    ((reading fetch 3).cam.cur = some (4095, 63, 3, 0x1000) ∧ (reading fetch 3).cam.queue = [] ∧ (511, 4095) ∈ (reading fetch 3).cam.waits ∧
      slotAt (reading fetch 3) 511 = some { fetch with started := true }) ∧
    (reading fetch 1).run.dir = some dir4095 ∧ ([0] : Bytes).length ≠ dirLen dir4095 4095 ∧ table4095.length = dirLen dir4095 4095 ∧
    (List.replicate 112 0 : Bytes).length = dirLen dir4095 4095 ∧ table4095.length ≤ 32752 ∧
    (reading pin 1).cam.waits.filter (fun e => e.2 == 4095) = [(511, 4095)] ∧ slotOp { pin with started := true } = 0x24 ∧
    slotOp { fetch with started := true } ≠ 0x24 := by decide
theorem witness_CamOperations_pageIn_data :
    pageReason dir4095 4095 (List.replicate 112 0) = some 3 ∧ pageReason dir4095 4095 table4095 = none := by decide +kernel
theorem witness_CamOperations_failed :
    let r : MoveReq := { cls := 2, table := 4095, slow := 0, entry := 0, pset := 0, execAt := 0, age := none }
    let c := (unit .service fun c => { c with
      cam := { failed := [4095] }, seq := { c.seq with masters := [(11, { waiting := some r })] } }).core
    c.cam.failed = [4095] ∧ pageOf c 4095 = none ∧ (msAt c 11).waiting = some r ∧ r.manual = none ∧ r.age = none ∧ r.table = 4095 := by
  decide
theorem witness_CamOperations_served :
    (let c := reading fetch 1
     ∀ e ∈ c.cam.waits, e.2 = 4095 → ∀ y, slotAt c e.1 = some y → slotOp y ≠ 0x24) ∧
    (reading fetch 1 false fun c => { c with run := { c.run with dir := none } }).run.dir = none := by
  refine ⟨fun e he _ y hy => ?_, by decide⟩
  rcases List.mem_singleton.1 he with rfl
  cases hy; decide
theorem witness_CamOperations_retry :
    (unit .service).core.cam.retry = false ∧
    ((reading fetch 1 true).cam.retry = true ∧ (reading fetch 1 true).cam.cur = some (4095, 63, 1, 0x1000) ∧ portUp (reading fetch 1 true) = true) ∧
    (portUp (reading fetch 1 true fun c => { c with bar := { c.bar with bme := false } }) = false ∧
      portUp (reading fetch 2 true fun c => { c with bar := { c.bar with bme := false } }) = false ∧
      (reading fetch 2 true fun c => { c with bar := { c.bar with bme := false } }).cam.cur = some (4095, 63, 2, 0x1000) ∧
      (reading fetch 2 true fun c => { c with bar := { c.bar with bme := false } }).cam.queue = []) := by decide

/-! ### The service port -/

/-- A unit in SERVICE with service address 1, changed by `f`. -/
def served (f : Core → Core := id) : Core := (unit .service fun c => f { c with nv := { c.nv with svcAddr := 1 } }).core
/-- What a frame needs to be taken (R57). -/
abbrev Taken (c : Core) (b : Bytes) : Prop :=
  c.sys.inReset = false ∧ byteAt b 0 = 0xA5 ∧ svcLen b ≤ 240 ∧ b.length = 8 + svcLen b ∧
    field b (6 + svcLen b) 2 = crc16 (slice b 1 (5 + svcLen b)) ∧ (byteAt b 1 = c.nv.svcAddr ∨ byteAt b 1 = 0)
/-- GET_STATUS to address 1 with sequence 0x20; its CRC-16 (R56) is that of the bytes after 0xA5. -/
def getStatus : Bytes := [0xA5, 1, 2, 0x20, 0, 0, 0xf3, 0xd0]
theorem witness_ServicePort_taken : Taken served getStatus ∧ byteAt getStatus 2 = 2 ∧ svcLen getStatus = 0 ∧
    ¬ Taken served (getStatus.take 7) ∧ Taken served (svcFrame 0 3 1 []) ∧ Taken served (svcFrame 1 4 1 []) ∧
    (Taken served (svcFrame 1 5 1 [7]) ∧ byteAt (svcFrame 1 5 1 [7]) 6 = 7 ∧ ({ State.reset.store with wE := 1 } : Stores).wE ≠ 0) ∧
    (Taken served (svcFrame 1 6 1 [0, 0, 0, 0, 7]) ∧ byteAt (svcFrame 1 6 1 [0, 0, 0, 0, 7]) 10 = 7 ∧
      field (svcFrame 1 6 1 [0, 0, 0, 0, 7]) 6 4 < ({ State.reset.store with wJ := 1 } : Stores).wJ) ∧
    (Taken served (svcFrame 1 7 1 [11]) ∧ byteAt (svcFrame 1 7 1 [11]) 6 = 11) ∧ (Taken served (svcFrame 1 7 1 [255]) ∧ byteAt (svcFrame 1 7 1 [255]) 6 = 255) ∧
    (Taken served (svcFrame 1 8 1 [4]) ∧ byteAt (svcFrame 1 8 1 [4]) 6 = 4) := by and_intros <;> decide +kernel
/-- Frames that are taken and not answered with what they ask. -/
theorem witness_ServicePort_refused :
    (Taken served (svcFrame 1 2 1 [0]) ∧ svcLen (svcFrame 1 2 1 [0]) ≠ 0) ∧ (Taken served (svcFrame 1 3 1 [0])) ∧ (Taken served (svcFrame 1 4 1 [0])) ∧
    (Taken served (svcFrame 1 5 1 [7]) ∧ State.reset.store.wE = 0) ∧ (Taken served (svcFrame 1 5 1 [8]) ∧ byteAt (svcFrame 1 5 1 [8]) 6 = 8) ∧
    (Taken served (svcFrame 1 5 1 []) ∧ svcLen (svcFrame 1 5 1 []) ≠ 1) ∧
    (Taken served (svcFrame 1 6 1 [0, 0, 0, 0, 1]) ∧ State.reset.store.wJ = 0) ∧ (Taken served (svcFrame 1 6 1 [0, 0, 0, 0, 8])) ∧
    (Taken served (svcFrame 1 7 1 [12]) ∧ ¬ byteAt (svcFrame 1 7 1 [12]) 6 ≤ 11) ∧ (Taken served (svcFrame 1 8 1 [5]) ∧ ¬ byteAt (svcFrame 1 8 1 [5]) 6 ≤ 4) ∧
    (Taken served (svcFrame 1 9 1 []) ∧ 8 < byteAt (svcFrame 1 9 1 []) 2) ∧ (Taken served (svcFrame 1 1 1 []) ∧ byteAt (svcFrame 1 1 1 []) 2 < 2) := by
  and_intros <;> decide +kernel
theorem witness_ServicePort_unsolicited :
    (unit .service).core.sys.mode ≠ .safeTalk ∧ (unit .safeTalk).core.sys.mode = .safeTalk ∧ (unit .safeTalk).core.sys.inReset = false ∧
    (none : Option Nat) ≠ some 0 ∧ (some 1 : Option Nat) ≠ some 0 := by decide

/-! ### Single steps and check values -/

/-- What `f` reads of the state after a step on command `i`, if the step answers one. -/
def after {α : Type} (i : Instr) (s : State) (f : State → α) : Option α :=
  match step { s with pending := [i] } with
  | .next t => some (f t)
  | _ => none
/-- The completion of the operation of slot 511: status, detail, results. -/
def answer (t : State) : Option (Nat × Nat × Nat × Nat) :=
  (slotAt t.core 511).bind fun x => x.done.map fun e => (e.status, e.detail, e.r0, e.r1)
/-- The catalogued check value of the CRC-16 of R56, over the digits 1 to 9. -/
theorem test_crc16 : crc16 [0x31, 0x32, 0x33, 0x34, 0x35, 0x36, 0x37, 0x38, 0x39] = 0x29B1 := by decide +kernel
/-- The catalogued check value of CRC-32C, over the digits 1 to 9. -/
theorem test_crc32c : crc32c [0x31, 0x32, 0x33, 0x34, 0x35, 0x36, 0x37, 0x38, 0x39] = 0xE3069283 := by decide +kernel
/-- The hash of "abc" in FIPS 180-4. -/
theorem test_sha256 : (sha256 [0x61, 0x62, 0x63]).take 4 = [0xBA, 0x78, 0x16, 0xBF] := by decide +kernel
/-- On an empty queue the block idles. -/
theorem test_idle : after (.setRate []) (unit .service) (·.pending) = some [] := by decide
/-- ECHO returns its two arguments (R115). -/
theorem test_echo : after (.echo 511) { unit .service with core := on511 (op 0x01 [4, 3, 2, 1, 8, 7, 6, 5]) } answer =
    some (some (0, 0, 0x01020304, 0x05060708)) := by decide +kernel
/-- SET_FLAGS sets, then clears (R118): HF5 set and HF4 cleared, on channel 12, where HF4 and HF14 stood. -/
theorem test_setFlags : after (.setFlags 511) { unit .service with
      core := on511 (op 0x18 [0, 0x10, 0x20, 0, 0x10, 0]) fun c => { c with seq := { c.seq with channels := [(12, { hf := 0x4010 })] } } }
    (fun t => (chAt t.core 12).hf) = some 0x4020 := by decide +kernel
/-- ROLE_REQUEST to WORKSHOP without the two keys is turned away. -/
theorem test_roleRequest : after (.roleRequest 511) { unit .service with core := on511 (role 2) }
    (fun t => ((answer t).map (·.1), t.core.sys.mode)) = some (some 0x22, .service) := by decide +kernel
/-- SET_RATE 4 takes effect (R58). -/
theorem test_setRate : after (.setRate (svcFrame 1 8 0 [4])) { unit .service with core := served } (·.core.sys.svcRate) = some 4 := by
  decide +kernel
/-- The answer to GET_STATUS has type 0x82 and the query's SEQ (R56, R58). -/
theorem test_getStatus : after (.getStatus getStatus) { unit .service with core := served }
    (fun t => match t.core.out with | .service b :: _ => some (byteAt b 0, byteAt b 1, byteAt b 2, byteAt b 3) | _ => none) =
    some (some (0xA5, 1, 0x82, 0x20)) := by decide +kernel

end Sys2Proof.Tests
end

section
/-! SUPPORT. Supplies, clocks and the run-time causes of SAFE_TALK (R17, R18, R34, R53, R64, R67). -/

namespace Sys2Proof.Machine

/-! ### Supplies and clocks that change no mode -/

/-- VHOLD_LOW is recorded once the hold-up capacitor has charged, out of reset (R34). -/
theorem runs_vholdLow (v : Nat) (s : State) : Runs (.vholdLow v) s
    (if s.core.sys.inReset = false ∧ s.core.sys.vholdCharged = true then { s with core := event 0x005 0x00 [v] s.core } else s) := by
  show Host.Outcome.next _ = _
  cases hr : s.core.sys.inReset <;> cases hv : s.core.sys.vholdCharged <;> simp

theorem runs_aonClock (hz : Nat) (s : State) (hr : s.core.sys.inReset = false) :
    Runs (.aonClock hz) s { s with core := event 0x006 0x00 [hz] s.core } := by
  show Host.Outcome.next _ = _
  rw [hr]
  rfl

theorem runs_aonMsAdvance (s : State) (hm : s.core.sys.mode = .parked) (hr : s.core.sys.inReset = false) :
    Runs .aonMsAdvance s { s with core := { s.core with nv := { s.core.nv with opMs := s.core.nv.opMs + 1000 } } } := by
  show Host.Outcome.next _ = _
  rw [hm, hr]
  rfl

/-- Settles O19, event by event. -/
theorem supplyEvents : Obligations.SupplyEvents :=
  fun s => ⟨fun v => runs_vholdLow v s, rfl, fun hz => runs_aonClock hz s, runs_aonMsAdvance s⟩

/-! ### The run-time causes of SAFE_TALK -/

/-- The unit takes a run-time cause of SAFE_TALK (R38, R40, R53). -/
def Enters (s : State) : Prop := s.core.sys.inReset = false ∧ s.core.sys.mode ≠ .safeTalk ∧ resetting s.core = false

/-- What a cause does before the entry: at most the islands and the clock source of the PLLs have changed. -/
def Prepared (s u : State) : Prop :=
  u = { s with isa := u.isa, isb := u.isb, core := { s.core with sys := { s.core.sys with fbosc := u.core.sys.fbosc } } }

theorem prepared_enters {s u : State} (h : Prepared s u) : Enters u ↔ Enters s := by
  rw [h]; exact Iff.rfl

/-- The entry into SAFE_TALK after such a preparation. -/
theorem prepared_safeTalk (cause : Nat) {s u : State} (h : Prepared s u) (he : Enters s) :
    SafeTalk cause s (enterSafeTalk cause u) ∧ (enterSafeTalk cause u).core.sys.fbosc = u.core.sys.fbosc ∧
      (enterSafeTalk cause u).isa = islSafeTalk u.isa ∧ (enterSafeTalk cause u).isb = islSafeTalk u.isb := by
  obtain ⟨hr, hm, hf⟩ := (prepared_enters h).mpr he
  have hk : u.fuse = s.fuse ∧ u.onyx = s.onyx ∧ u.store = s.store ∧ u.core.nv = s.core.nv ∧ u.core.run = s.core.run ∧
      u.core.bar = s.core.bar ∧ u.pending = s.pending := by
    rw [h]; exact ⟨rfl, rfl, rfl, rfl, rfl, rfl, rfl⟩
  obtain ⟨ht, hb, -, -, -, ha, hb'⟩ := safeTalk_of cause s u hm hr hf hk
  exact ⟨ht, hb, ha, hb'⟩

theorem prepared_stays (cause : Nat) {s u : State} (h : Prepared s u) (he : ¬ Enters s) : enterSafeTalk cause u = u :=
  safeTalk_not cause u fun hu => he ((prepared_enters h).mp hu)

theorem prepared_clockAct (src : ClockSource) (s : State) : Prepared s (clockAct src s) := by cases src <;> rfl

theorem prepared_setIsl (k : Isl) (i : IslSt) (s : State) : Prepared s (setIsl k i s) := by cases k <;> rfl

/-- A lost reference clock: FBOSC first, then the entry (R17, R18). -/
theorem refclkFail_spec (s : State) : ∃ t, Runs .refclkFail s t ∧ (Enters s → SafeTalk 0x80 s t ∧ t.core.sys.fbosc = true) ∧
    (s.core.sys.inReset = true → t = s) ∧
    (s.core.sys.inReset = false → ¬ Enters s → t = { s with core := { s.core with sys := { s.core.sys with fbosc := true } } }) := by
  refine ⟨_, rfl, fun he => ?_, fun hr => if_pos hr, fun hr he => ?_⟩
  · rw [if_neg (by simp [he.1])]
    obtain ⟨ht, hb, -, -⟩ := prepared_safeTalk 0x80 (prepared_clockAct .refclk s) he
    exact ⟨ht, hb⟩
  · rw [if_neg (by simp [hr])]
    exact prepared_stays 0x80 (prepared_clockAct .refclk s) he

/-- A clock monitor: what its source asks for, then the entry (R18). -/
theorem clockFault_spec (src : ClockSource) (s : State) : ∃ t, Runs (.clockFault src) s t ∧
    (Enters s → SafeTalk 0x80 s t ∧ (src = .field → t.isa.blind = true ∧ t.isb.blind = true)) ∧
    (s.core.sys.inReset = true → t = s) ∧ (s.core.sys.inReset = false → ¬ Enters s → t = clockAct src s) := by
  refine ⟨_, rfl, fun he => ?_, fun hr => if_pos hr, fun hr he => ?_⟩
  · rw [if_neg (by simp [he.1])]
    obtain ⟨ht, -, ha, hb⟩ := prepared_safeTalk 0x80 (prepared_clockAct src s) he
    refine ⟨ht, fun hsrc => ?_⟩
    rw [ha, hb, hsrc]
    exact ⟨rfl, rfl⟩
  · rw [if_neg (by simp [hr])]
    exact prepared_stays 0x80 (prepared_clockAct src s) he

/-- A detection of an island whose effect is the entry into SAFE_TALK, taken when it is due (log 3). -/
theorem takeIslDue_safeTalk (k : Isl) (d : IslDue) (cause : Nat) (s : State) (hd : ∀ u, takeIsl k d u = enterSafeTalk cause u)
    (h : (islAt k s).due.contains d = true) (he : Enters s) : SafeTalk cause s (takeIslDue k d s) := by
  rw [dueTaken k d s h, hd]
  exact (prepared_safeTalk cause (prepared_setIsl k _ s) he).1

/-- A detection that is not due changes nothing (log 3). -/
theorem takeIslDue_not (k : Isl) (d : IslDue) (s : State) (h : (islAt k s).due.contains d = false) : takeIslDue k d s = s := by
  unfold takeIslDue
  rw [if_neg (by rw [h]; decide)]

/-- SAFE_DISAGREE, found by either island (R276, R53). -/
theorem safeDisagree_spec (s : State) : ∃ t, Runs .safeDisagree s t ∧
    (s.isa.due.contains .disagree = true ∨ s.isb.due.contains .disagree = true → Enters s → SafeTalk 0x82 s t) ∧
    (s.isa.due.contains .disagree = false → s.isb.due.contains .disagree = false → t = s) := by
  refine ⟨_, rfl, fun h he => ?_, fun ha hb => ?_⟩
  · by_cases ha : s.isa.due.contains .disagree = true
    · rw [if_pos ha]
      exact takeIslDue_safeTalk .a .disagree 0x82 s (fun _ => rfl) ha he
    · rw [if_neg ha]
      exact takeIslDue_safeTalk .b .disagree 0x82 s (fun _ => rfl) (h.resolve_left ha) he
  · rw [if_neg (by rw [ha]; decide)]
    exact takeIslDue_not .b .disagree s hb

/-- Settles O18, cause by cause: each prepares at most the islands and the PLLs before the entry. -/
theorem safeTalkEntries : Obligations.SafeTalkEntries := by
  intro s
  refine ⟨refclkFail_spec s, fun src => ?_, ⟨_, rfl, fun he => ?_, safeTalk_not 0x84 s⟩, fun k => ⟨_, rfl, ?_, ?_⟩, safeDisagree_spec s⟩
  · obtain ⟨t, hrun, henter, hreset, hstay⟩ := clockFault_spec src s
    exact ⟨t, hrun, henter, hreset, fun hr he => (hstay hr he).trans (by cases src <;> rfl)⟩
  · exact (prepared_safeTalk 0x84 (prepared_clockAct .pll s) he).1
  · exact fun h he => takeIslDue_safeTalk k .linkLost 0x83 s (fun _ => rfl) h he
  · exact takeIslDue_not k .linkLost s

end Sys2Proof.Machine
end

section
/-! SUPPORT. Self-test steps: how one fails, and how the steps without tests of their own pass (R46 to R48). -/

namespace Sys2Proof.Machine

/-- A self-test that runs meets the conditions of the entry into SAFE_TALK (R40, R47). -/
theorem testing_enters {c : Core} (h : testing c = true) :
    c.sys.mode = .selftest ∧ c.sys.inReset = false ∧ resetting c = false := by
  simp only [testing, Bool.and_eq_true, Bool.not_eq_true', beq_iff_eq] at h
  exact ⟨h.1.1.1, h.1.1.2, h.2⟩

/-- A step that fails ends the self-test in SAFE_TALK; the last step passed stands (R47, R48). -/
theorem failSelftest_spec (n code us v : Nat) (s : State) (h : testing s.core = true) :
    SafeTalk code (countStep v s) (failSelftest n code us (countStep v s)) ∧
      (failSelftest n code us (countStep v s)).core.sys.stFail = code ∧
      (failSelftest n code us (countStep v s)).core.sys.stLast = s.core.sys.stLast := by
  obtain ⟨hm, hr, hf⟩ := testing_enters h
  unfold failSelftest
  dsimp only
  generalize hu : ({ countStep v s with core := _ } : State) = u
  have hmode : u.core.sys.mode ≠ .safeTalk := by
    rw [← hu]; show s.core.sys.mode ≠ _; rw [hm]; decide
  have hreset : u.core.sys.inReset = false := by rw [← hu]; exact hr
  have hflush : resetting u.core = false := by rw [← hu]; exact hf
  obtain ⟨ht, -, hfail, hlast, -⟩ := safeTalk_of code (countStep v s) u hmode hreset hflush
    (by rw [← hu]; exact ⟨rfl, rfl, rfl, rfl, rfl, rfl, rfl⟩)
  refine ⟨ht, hfail.trans ?_, hlast.trans ?_⟩
  · rw [← hu]; rfl
  · rw [← hu]; rfl

/-- A failure code of the step ends the self-test (R46, R47). -/
theorem selftestStep_fails (code : Nat) (rows : List Nat) (us : Nat) (s : State) (h : testing s.core = true)
    (hc : (stepCodes s.core.sys.stStep).contains code = true) :
    ∃ t, Runs (.selftestStep code rows us) s t ∧ SafeTalk code (countStep us s) t ∧ t.core.sys.stFail = code ∧
      t.core.sys.stLast = s.core.sys.stLast := by
  refine ⟨failSelftest s.core.sys.stStep code us (countStep us s), ?_, failSelftest_spec _ _ _ _ s h⟩
  show Host.Outcome.next _ = _
  rw [if_pos h]
  unfold selftestStep
  rw [if_pos hc]

/-- The state after a step of the self-test other than the last has passed (R46, R48). -/
theorem passStep_next (n us : Nat) (s : State) (hn : n < 9) : passStep n us s = { s with core := { s.core with
    sys := { s.core.sys with
      stStep := n + 1, stLast := n, stRes := tset (0, 0, 0) s.core.sys.stRes n (1, 0, us / 1000 % 65536) } } } := by
  unfold passStep
  dsimp only
  rw [if_pos hn]
  rfl

/-- A step that neither fails its physical tests nor finds a fault of its own passes. -/
theorem runs_selftestStep_pass (rows : List Nat) (us : Nat) (s t : State) (h : testing s.core = true)
    (hc : (stepCodes s.core.sys.stStep).contains 0 = false)
    (hb : ∀ l, stepBody s.core.sys.stStep l (countStep us s) = (0, t)) :
    Runs (.selftestStep 0 rows us) s (passStep s.core.sys.stStep us t) := by
  show Host.Outcome.next _ = _
  rw [if_pos h]
  unfold selftestStep
  dsimp only
  rw [if_neg (by rw [hc]; decide), hb, if_pos rfl]

/-- What the start of the time base writes (R24, R25). -/
theorem startCount_only (c : Core) : ∃ w, startCount c = { c with tb := w } ∧ w.running = true := by
  unfold startCount
  split
  · exact ⟨c.tb, rfl, ‹_›⟩
  · exact ⟨_, rfl, rfl⟩

/-- Steps 1, 4 and 7 do nothing themselves; step 8 starts the time base (R24, R46). -/
theorem stepBody_plain (n : Nat) (s : State) (h : n = 1 ∨ n = 4 ∨ n = 7 ∨ n = 8) :
    (stepCodes n).contains 0 = false ∧ ∃ w, (∀ l, stepBody n l s = (0, { s with core := { s.core with tb := w } })) ∧
      (n = 8 → w.running = true) ∧ (n ≠ 8 → w = s.core.tb) := by
  obtain rfl | rfl | rfl | rfl := h
  · exact ⟨rfl, s.core.tb, fun _ => rfl, nofun, fun _ => rfl⟩
  · exact ⟨rfl, s.core.tb, fun _ => rfl, nofun, fun _ => rfl⟩
  · exact ⟨rfl, s.core.tb, fun _ => rfl, nofun, fun _ => rfl⟩
  · obtain ⟨w, hw, hrun⟩ := startCount_only s.core
    exact ⟨rfl, w, fun _ => by rw [← hw]; rfl, fun _ => hrun, fun h => absurd rfl h⟩

/-- Steps 1, 4, 7 and 8 pass when their tests give no failure code. -/
theorem selftestStep_passes (rows : List Nat) (us : Nat) (s : State) (h : testing s.core = true)
    (hn : s.core.sys.stStep = 1 ∨ s.core.sys.stStep = 4 ∨ s.core.sys.stStep = 7 ∨ s.core.sys.stStep = 8) :
    ∃ t, Runs (.selftestStep 0 rows us) s t ∧ t.core.sys.mode = .selftest ∧
      t.core.sys.stStep = s.core.sys.stStep + 1 ∧ t.core.sys.stLast = s.core.sys.stStep ∧
      tget (0, 0, 0) t.core.sys.stRes s.core.sys.stStep = (1, 0, us / 1000 % 65536) ∧
      (s.core.sys.stStep = 8 → t.core.tb.running = true) ∧ (s.core.sys.stStep ≠ 8 → t.core.tb = s.core.tb) ∧
      t = { s with core := { s.core with
        sys := { s.core.sys with
          stStep := t.core.sys.stStep, stLast := t.core.sys.stLast, stRes := t.core.sys.stRes, stUs := s.core.sys.stUs + us }
        nv.opMs := t.core.nv.opMs, tb := t.core.tb } } := by
  obtain ⟨hc, w, hbody, hrun, hsame⟩ := stepBody_plain s.core.sys.stStep (countStep us s) hn
  have hlt : s.core.sys.stStep < 9 := by omega
  refine ⟨_, runs_selftestStep_pass rows us s _ h hc hbody, ?_⟩
  rw [passStep_next _ _ _ hlt]
  exact ⟨(testing_enters h).1, rfl, rfl, tget_tset_same (0, 0, 0) s.core.sys.stRes s.core.sys.stStep (1, 0, us / 1000 % 65536), hrun, hsame, rfl⟩

/-- Settles O16: outside the self-test nothing happens; within it a step fails, times out or passes. -/
theorem selftestSteps : Obligations.SelftestSteps := by
  intro s rows us
  refine ⟨fun h => ⟨?_, fun code => ?_⟩, fun h => ⟨fun code => selftestStep_fails code rows us s h, ?_, selftestStep_passes rows us s h⟩⟩
  · exact congrArg Host.Outcome.next (if_neg (by rw [h]; decide))
  · exact congrArg Host.Outcome.next (if_neg (by rw [h]; decide))
  · obtain ⟨ht, hfail, -⟩ := failSelftest_spec s.core.sys.stStep 0x7F (1800000 - s.core.sys.stUs) (1800000 - s.core.sys.stUs) s h
    exact ⟨_, congrArg Host.Outcome.next (if_pos h), ht, hfail⟩

end Sys2Proof.Machine
end

section
/-! SUPPORT. One evaluation of the safety pairs of an island (R18, R277, R278). -/

namespace Sys2Proof.Machine

/-- What a pair evaluates to rests on its own entry, whatever the pairs before it came to. -/
theorem pairNext_pairEval (i : IslSt) (a q : Nat) (h : a ≠ q) : pairNext (pairEval i a) q = pairNext i q := by
  show (if i.blind then _ else pairStep _ _ _ (tget {} (tset {} i.pairs a _) q)) = _
  rw [tget_tset_other _ _ _ _ _ h]
  rfl

/-- The pairs of a list evaluated in turn: each from the island as it was, and those beyond DISC are due to fault. -/
theorem pairEvals_spec (l : List Nat) (i : IslSt) (hn : l.Nodup) :
    (∀ q, tget {} (l.foldl pairEval i).pairs q = if q ∈ l then (pairNext i q).1 else tget {} i.pairs q) ∧
      (l.foldl pairEval i).due = i.due ++ (l.filter fun q => (pairNext i q).2).map .pairDisc := by
  induction l generalizing i with
  | nil => exact ⟨fun _ => rfl, (List.append_nil _).symm⟩
  | cons a r ih =>
    obtain ⟨ha, hr⟩ := List.nodup_cons.mp hn
    obtain ⟨hpairs, hdue⟩ := ih (pairEval i a) hr
    have hother : ∀ q, q ∈ r → pairNext (pairEval i a) q = pairNext i q :=
      fun q hq => pairNext_pairEval i a q fun e => ha (e ▸ hq)
    refine ⟨fun q => ?_, ?_⟩
    · rw [List.foldl_cons, hpairs q]
      by_cases hq : q ∈ r
      · rw [if_pos hq, if_pos (List.mem_cons_of_mem _ hq), hother q hq]
      · rw [if_neg hq]
        show tget {} (tset {} i.pairs a (pairNext i a).1) q = _
        rw [tget_tset]
        by_cases e : a = q
        · rw [if_pos e, if_pos (by simp [e]), e]
        · rw [if_neg e, if_neg (by simp [hq, Ne.symm e])]
    · rw [List.foldl_cons, hdue, List.filter_congr fun q hq => by rw [hother q hq]]
      show (if (pairNext i a).2 then i.due ++ [.pairDisc a] else i.due) ++ _ = _
      rw [List.filter_cons]
      split <;> simp

/-- A configured pair after a safety tick's evaluation. -/
theorem pairsStep_pair (i : IslSt) (q : Nat) (hu : pairUsed (islSec i) q = true) (hq : q < 72) :
    tget {} (pairsStep i).pairs q = (pairNext i q).1 ∧
      ((pairNext i q).2 = true → (pairsStep i).due.contains (.pairDisc q) = true) := by
  have hmem : q ∈ pairsOf (islSec i) := List.mem_filter.mpr ⟨List.mem_range.mpr hq, hu⟩
  obtain ⟨hpairs, hdue⟩ := pairEvals_spec (pairsOf (islSec i)) i (List.Pairwise.filter _ List.nodup_range)
  refine ⟨(hpairs q).trans (if_pos hmem), fun hd => ?_⟩
  unfold pairsStep
  rw [hdue, List.contains_iff_mem]
  exact List.mem_append_right _ (List.mem_map_of_mem (List.mem_filter.mpr ⟨hmem, hd⟩))

/-- A fault leaves with a demand on both contacts only. -/
theorem pairStep_fault (a b : Bool) (disc : Nat) (p : PairSt) (h : p.st = .fault) :
    (pairStep a b disc p).1.st = if a = false ∧ b = false then .unsafeSt else .fault := by
  unfold pairStep
  rw [h]
  cases a <;> cases b <;> simp [h]

/-- A partial pair counts, and beyond DISC it is due to fault. -/
theorem pairStep_partial_over (a b : Bool) (disc : Nat) (p : PairSt) (h : p.st = .partialSt) (hd : disc < p.n + 1) :
    pairStep a b disc p = ({ p with n := p.n + 1 }, true) := by
  unfold pairStep
  rw [h]
  exact if_pos hd

/-- Within DISC a partial pair follows its contacts once they agree. -/
theorem pairStep_partial_within (a b : Bool) (disc : Nat) (p : PairSt) (h : p.st = .partialSt) (hd : p.n + 1 ≤ disc) :
    (pairStep a b disc p).1.n = p.n + 1 ∧ (pairStep a b disc p).1.st =
      if a = true ∧ b = true then .safe else if a = false ∧ b = false then .unsafeSt else .partialSt := by
  unfold pairStep
  rw [h]
  dsimp only
  rw [if_neg (Nat.not_lt.mpr hd)]
  cases a <;> cases b <;> simp

/-- A pair that is safe or unsafe follows its contacts: they decide where they agree, and where they do not it becomes partial. -/
theorem pairStep_settled (a b : Bool) (disc : Nat) (p : PairSt) (h : p.st = .safe ∨ p.st = .unsafeSt) :
    (a = b → (pairStep a b disc p).1.st = if a = true then .safe else .unsafeSt) ∧
      (a ≠ b → (pairStep a b disc p).1.st = .partialSt ∧ (pairStep a b disc p).1.n = 0) := by
  unfold pairStep
  rcases h with h | h
  · rw [h]; cases a <;> cases b <;> simp
  · rw [h]; cases a <;> cases b <;> simp

/-- Outside blindness a pair takes its step from its two contacts (R277, R278). -/
theorem pairNext_seen (i : IslSt) (q : Nat) (hb : i.blind = false) : pairNext i q =
    pairStep (contactSafe i (img8 (islSec i) (sfPair q)) (img8 (islSec i) (sfPair q + 2) % 2))
      (contactSafe i (img8 (islSec i) (sfPair q + 1)) (img8 (islSec i) (sfPair q + 2) / 2 % 2))
      (img16 (islSec i) (sfPair q + 4)) (tget {} i.pairs q) :=
  if_neg (by rw [hb]; decide)

/-- Settles O21: each configured pair takes one step of the table, by its state and its contacts. -/
theorem pairEvaluation : Obligations.PairEvaluation := by
  refine ⟨fun i q hu hq hb => ?_, fun i q hu hq hb => ?_, fun i q => rfl⟩
  · obtain ⟨hpair, hdue⟩ := pairsStep_pair i q hu hq
    have hres : pairResult (pairsStep i) q = true ↔ (tget {} (pairsStep i).pairs q).st = .safe := beq_iff_eq
    rw [pairNext_seen i q hb] at hpair hdue
    intro a b disc p p'
    have hp' : p' = (pairStep a b disc p).1 := hpair
    refine ⟨fun h => ?_, fun h => ?_, fun h hd => ?_, fun h hd => ?_, fun h => ?_, fun h => ?_, hres⟩
    · rw [hp']; exact pairStep_fault a b disc p h
    · rw [hp']
      by_cases hd : disc < p.n + 1
      · rw [pairStep_partial_over a b disc p h hd]
      · exact (pairStep_partial_within a b disc p h (Nat.not_lt.mp hd)).1
    · have hover : pairStep a b disc p = _ := pairStep_partial_over a b disc p h hd
      refine ⟨?_, hdue (congrArg Prod.snd hover)⟩
      rw [hp', hover]
      exact h
    · rw [hp']; exact (pairStep_partial_within a b disc p h hd).2
    · rw [hp']; exact (pairStep_settled a b disc p h).1
    · rw [hp']; exact (pairStep_settled a b disc p h).2
  · rw [(pairsStep_pair i q hu hq).1]
    unfold pairNext
    rw [if_pos hb]

end Sys2Proof.Machine
end

section
/-! SUPPORT. The detections of an island that open switches, fault pairs or are reported (R18, R278, R293, R302, R317). -/

namespace Sys2Proof.Machine

/-- A detection whose effect is another island and some reports: the island replaces the old one, and the reports are added. -/
theorem setIsl_report_at (k : Isl) (i : IslSt) (l : List FaultRec) (s : State) : report l (setIsl k i s) =
    setIsl k i { s with core := { s.core with seq.faultQ := (report l (setIsl k i s)).core.seq.faultQ } } := by
  cases k <;> rfl

/-- Missing sample frames make the island blind, and every switch opens (R18). -/
theorem framesMissing_taken (k : Isl) (s : State) (h : (islAt k s).due.contains .framesMissing = true) :
    takeIslDue k .framesMissing s = setIsl k { islAt k s with
      due := (islAt k s).due.erase .framesMissing, now := islNow k s.core, blind := true, closed := 0, closing := [], pairs := [] } s := by
  rw [dueTaken k _ s h]
  unfold takeIsl
  dsimp only
  rw [islAt_setIsl, setIsl_setIsl]

/-- A discrepancy faults its pair and is reported for each portal of the pair, unless the other island has reported it (R278, R317). -/
theorem pairDisc_taken (k : Isl) (q : Nat) (s : State) (h : (islAt k s).due.contains (.pairDisc q) = true) :
    takeIslDue k (.pairDisc q) s =
      report (if (tget {} (islAt (otherIsl k) s).pairs q).st = .fault then []
        else if pairPortals s.core q = [] then [⟨0x201, 255, q⟩] else (pairPortals s.core q).map fun p => ⟨0x201, p, q⟩)
        (setIsl k { islAt k s with
          due := (islAt k s).due.erase (.pairDisc q), now := islNow k s.core
          pairs := tmod {} (islAt k s).pairs q fun x => { x with st := .fault } } s) := by
  rw [dueTaken k _ s h]
  show takePairDisc k q _ = _
  rw [takePairDisc_eq, islAt_setIsl, islAt_setIsl_other, setIsl_core, setIsl_setIsl]

/-- A latch copy of an island: only the copies change, and the portal's is set (R318, R319). -/
theorem islLatch_spec (p code : Nat) (i : IslSt) :
    islLatch p code i = { i with latches := (islLatch p code i).latches } ∧ (tget {} (islLatch p code i).latches p).set = true := by
  unfold islLatch islCopy
  split
  · exact ⟨rfl, ‹_›⟩
  · refine ⟨rfl, ?_⟩
    dsimp only
    rw [tget_tset_same]

/-- The island after an overspeed of axis `x` (R293, R302). -/
def overspeedIsl (x : Nat) (i : IslSt) : IslSt :=
  islLatch (x / 3) 0x205 (openSwitch (4 + x / 3) { i with overspd := setBit i.overspd (x / 3) true })

/-- An overspeed opens the torque-enable output of its portal and sets the portal's latch copy. -/
theorem overspeedIsl_spec (x : Fin 36) (i : IslSt) :
    (overspeedIsl x i).closed.getLsbD (4 + x.val / 3) = false ∧ pbit (overspeedIsl x i).overspd (x.val / 3) = true ∧
      (tget {} (overspeedIsl x i).latches (x.val / 3)).set = true ∧
      overspeedIsl x i = { i with
        closed := setBit i.closed (4 + x.val / 3) false, closing := tset 0 i.closing (4 + x.val / 3) 0
        overspd := (overspeedIsl x i).overspd, latches := (overspeedIsl x i).latches } := by
  have hx := x.isLt
  unfold overspeedIsl
  obtain ⟨hlatch, hset⟩ := islLatch_spec (x.val / 3) 0x205
    (openSwitch (4 + x.val / 3) { i with overspd := setBit i.overspd (x.val / 3) true })
  refine ⟨?_, ?_, hset, ?_⟩
  · rw [islLatch_closed]
    exact setBit_same _ _ _ (by omega)
  · rw [hlatch]
    exact setBit_same _ _ _ (by omega)
  · rw [hlatch]
    rfl

/-- An overspeed is reported once for both islands (R293, R317). -/
theorem overspeed_taken (k : Isl) (x : Nat) (s : State) (h : (islAt k s).due.contains (.overspeed x) = true) :
    takeIslDue k (.overspeed x) s =
      report (if pbit (islAt (otherIsl k) s).overspd (x / 3) then [] else [⟨0x205, x / 3, x⟩])
        (setIsl k (overspeedIsl x { islAt k s with due := (islAt k s).due.erase (.overspeed x), now := islNow k s.core }) s) := by
  rw [dueTaken k _ s h]
  unfold takeIsl
  dsimp only
  rw [islAt_setIsl, setIsl_setIsl, islAt_setIsl_other]
  split
  · rw [report_nil]; rfl
  · rfl

/-- A speed cross-check is reported by the island that finds it first (R293). -/
theorem xchk_first (k : Isl) (x : Nat) (s : State) (h : (islAt k s).due.contains (.xchk x) = true)
    (hx : tget 0 (islAt (otherIsl k) s).xchk x < 40) : takeIslDue k (.xchk x) s =
      report [⟨0x206, x / 3, x⟩] (setIsl k { islAt k s with due := (islAt k s).due.erase (.xchk x), now := islNow k s.core } s) := by
  rw [dueTaken k _ s h]
  unfold takeIsl
  dsimp only
  rw [islAt_setIsl_other, if_neg (Nat.not_le.mpr hx)]
  rfl

/-- What the other island has found is not reported again. -/
theorem xchk_second (k : Isl) (x : Nat) (s : State) (h : (islAt k s).due.contains (.xchk x) = true)
    (hx : 40 ≤ tget 0 (islAt (otherIsl k) s).xchk x) : takeIslDue k (.xchk x) s =
      setIsl k { islAt k s with due := (islAt k s).due.erase (.xchk x), now := islNow k s.core } s := by
  rw [dueTaken k _ s h]
  unfold takeIsl
  dsimp only
  rw [islAt_setIsl_other, if_pos hx]

/-! ### The commands that take them -/

/-- A detection that is not due has no effect, whichever command takes it (log 3). -/
theorem detection_notDue (k : Isl) (s : State) (d : IslDue) (c : Instr)
    (h : (d, c) ∈ [(IslDue.framesMissing, Instr.fieldFramesMissing k)] ++
      (List.finRange 72).map (fun q => (.pairDisc q.val, .pairDisc k q)) ++ (List.finRange 36).map (fun x => (.overspeed x.val, .overspeed k x)))
    (hdue : (islAt k s).due.contains d = false) : Runs c s s := by
  have hrun : exec c s = .next (takeIslDue k d s) := by
    simp only [List.mem_append, List.mem_cons, List.not_mem_nil, or_false, List.mem_map, List.mem_finRange, true_and, Prod.mk.injEq] at h
    obtain (⟨rfl, rfl⟩ | ⟨q, rfl, rfl⟩) | ⟨x, rfl, rfl⟩ := h
    · rfl
    · rfl
    · rfl
  exact hrun.trans (congrArg _ (takeIslDue_not k d s hdue))

/-- PAIR_DISC: the pair faults, and no other (R278). -/
theorem pairDisc_spec (k : Isl) (q : Fin 72) (s : State) (h : (islAt k s).due.contains (.pairDisc q) = true) :
    ∃ t, Runs (.pairDisc k q) s t ∧ (tget {} (islAt k t).pairs q).st = .fault ∧
      (∀ j, j ≠ q.val → tget {} (islAt k t).pairs j = tget {} (islAt k s).pairs j) ∧
      t.core.seq.faultQ = s.core.seq.faultQ ++ (if (tget {} (islAt (otherIsl k) s).pairs q).st = .fault then []
        else if pairPortals s.core q = [] then [⟨0x201, 255, q⟩] else (pairPortals s.core q).map fun p => ⟨0x201, p, q⟩) ∧
      t = setIsl k { islAt k s with
          due := (islAt k s).due.erase (.pairDisc q), now := islNow k s.core, pairs := (islAt k t).pairs }
        { s with core := { s.core with seq.faultQ := t.core.seq.faultQ } } := by
  refine ⟨_, rfl, ?_⟩
  rw [pairDisc_taken k q s h, islAt_report, islAt_setIsl]
  refine ⟨?_, fun j hj => ?_, by rw [report_faultQ, setIsl_core], setIsl_report_at k _ _ s⟩
  · dsimp only
    rw [tget_tmod, if_pos rfl]
  · dsimp only
    rw [tget_tmod, if_neg (Ne.symm hj)]

/-- OVERSPEED: the torque-enable output opens, the latch copy is set, and one report goes out for both islands (R293, R302). -/
theorem overspeed_spec (k : Isl) (x : Fin 36) (s : State) (h : (islAt k s).due.contains (.overspeed x) = true) :
    ∃ t, Runs (.overspeed k x) s t ∧ (islAt k t).closed.getLsbD (4 + x.val / 3) = false ∧ pbit (islAt k t).overspd (x.val / 3) = true ∧
      (tget {} (islAt k t).latches (x.val / 3)).set = true ∧
      t.core.seq.faultQ = s.core.seq.faultQ ++ (if pbit (islAt (otherIsl k) s).overspd (x.val / 3) then [] else [⟨0x205, x.val / 3, x⟩]) ∧
      t = setIsl k { islAt k s with
          due := (islAt k s).due.erase (.overspeed x), now := islNow k s.core
          closed := setBit (islAt k s).closed (4 + x.val / 3) false, closing := tset 0 (islAt k s).closing (4 + x.val / 3) 0
          overspd := (islAt k t).overspd, latches := (islAt k t).latches }
        { s with core := { s.core with seq.faultQ := t.core.seq.faultQ } } := by
  refine ⟨_, rfl, ?_⟩
  obtain ⟨hopen, hover, hlatch, hrest⟩ := overspeedIsl_spec x
    { islAt k s with due := (islAt k s).due.erase (.overspeed x), now := islNow k s.core }
  rw [overspeed_taken k x s h, islAt_report, islAt_setIsl]
  exact ⟨hopen, hover, hlatch, by rw [report_faultQ, setIsl_core],
    (setIsl_report_at k _ _ s).trans (congrArg (fun i => setIsl k i _) hrest)⟩

/-- SPEED_XCHK is taken by SAFE_A where it is due there, and else by SAFE_B. -/
theorem runs_speedXchk_a (x : Fin 36) (s : State) (h : s.isa.due.contains (.xchk x) = true) :
    Runs (.speedXchk x) s (takeIslDue .a (.xchk x) s) := congrArg Host.Outcome.next (if_pos h)

theorem runs_speedXchk_b (x : Fin 36) (s : State) (h : s.isa.due.contains (.xchk x) = false) :
    Runs (.speedXchk x) s (takeIslDue .b (.xchk x) s) := congrArg Host.Outcome.next (if_neg (by rw [h]; decide))

/-- SPEED_XCHK of an island that finds it first: the island takes note, and one report goes out (R293). -/
theorem xchk_reports (k : Isl) (x : Nat) (s : State) (h : (islAt k s).due.contains (.xchk x) = true)
    (hx : tget 0 (islAt (otherIsl k) s).xchk x < 40) : takeIslDue k (.xchk x) s =
      setIsl k { islAt k s with due := (islAt k s).due.erase (.xchk x), now := islNow k s.core }
        { s with core := { s.core with seq.faultQ := s.core.seq.faultQ ++ [⟨0x206, x / 3, x⟩] } } := by
  rw [xchk_first k x s h hx, setIsl_report_at, report_faultQ, setIsl_core]

/-- Settles O22, detection by detection. -/
theorem islandDetections : Obligations.IslandDetections := fun k s =>
  ⟨detection_notDue k s, fun h => ⟨_, rfl, framesMissing_taken k s h⟩, fun q => pairDisc_spec k q s, fun x => overspeed_spec k x s,
    fun x h hx => ⟨_, runs_speedXchk_a x s h, xchk_reports .a x s h hx⟩,
    fun x h hx => (runs_speedXchk_a x s h).trans (congrArg _ (xchk_second .a x s h hx)),
    fun x ha h hx => (runs_speedXchk_b x s ha).trans (congrArg _ (xchk_reports .b x s h hx)),
    fun x ha hb => (runs_speedXchk_b x s ha).trans (congrArg _ (takeIslDue_not .b _ s hb))⟩

end Sys2Proof.Machine
end

section
/-! SUPPORT. The samples of the field die and the frames that carry them (R18, R286, R337, R340, R341, R343, R354). -/

namespace Sys2Proof.Machine

/-! ### A raw sample (R337, R340) -/

/-- A raw sample of a set writes the output states only. -/
theorem setSample_only (m : RawIn) (d : DieSt) (u : Nat) : ∃ o, setSample m d u = { d with outs := o } := by
  have hchans : ∀ (g : Nat → OutSt → OutSt) (l : List Nat) (e : DieSt), ∃ o,
      l.foldl (fun d v => { d with outs := tmod {} d.outs v (g v) }) e = { e with outs := o } := by
    intro g l
    induction l with
    | nil => exact fun e => ⟨e.outs, rfl⟩
    | cons a r ih => exact fun e => ih { e with outs := tmod {} e.outs a (g a) }
  unfold setSample
  dsimp only
  obtain ⟨o, h⟩ := hchans (fun v => outSample m (tget {} d.outs u) v) (setChans (dieSec d) u) d
  rw [h]
  exact ⟨_, rfl⟩

theorem setSamples_only (m : RawIn) (l : List Nat) (d : DieSt) : ∃ o, l.foldl (setSample m) d = { d with outs := o } := by
  induction l generalizing d with
  | nil => exact ⟨d.outs, rfl⟩
  | cons a r ih =>
    obtain ⟨o, h⟩ := setSample_only m d a
    obtain ⟨o', h'⟩ := ih (setSample m d a)
    exact ⟨o', by rw [List.foldl_cons, h', h]⟩

/-- The inputs of the die after a raw sample: each configured input through its filter (R340). -/
def sampledInputs (m : RawIn) (d : DieSt) : Table InputSt :=
  (List.range 144).foldl (fun t u =>
    if fMode (dieSec d) u = 1 then
      tmod {} t u (filterStep (10 * fFilter (dieSec d) u) (bandOf (fAttr (dieSec d) u 0) (fAttr (dieSec d) u 1) (tget 0 m.ua u)))
    else t) d.inputs

theorem sampledInputs_at (m : RawIn) (d : DieSt) (u : Nat) : tget {} (sampledInputs m d) u =
    if u < 144 ∧ fMode (dieSec d) u = 1 then
      filterStep (10 * fFilter (dieSec d) u) (bandOf (fAttr (dieSec d) u 0) (fAttr (dieSec d) u 1) (tget 0 m.ua u)) (tget {} d.inputs u)
    else tget {} d.inputs u := by
  unfold sampledInputs
  rw [tget_rangeIf]

/-- The die with its inputs and supplies sampled, before its outputs are (R340, R348). -/
def sampledDie (m : RawIn) (d : DieSt) : DieSt :=
  { d with
    inputs := sampledInputs m d
    groups := (List.range 9).foldl (fun t g =>
      tmod {} t g (groupSample (fUsed (dieSec d) g) (tget 0 m.vfMv g) (tget 0 m.groupMa g))) d.groups
    silence := d.silence + 1 }

/-- A raw sample is that of the inputs and supplies, then that of the sets, and what they complete is due. -/
theorem rawStep_sampled (m : RawIn) (d : DieSt) : ∃ (p : Bool) (l : List DieDue), rawStep m d =
    { (setsOf (dieSec d)).foldl (setSample m) (if p then drive (sampledDie m d) else sampledDie m d) with due := l } :=
  ⟨_, _, rfl⟩

/-- What a raw sample writes of the die. -/
theorem rawStep_only (m : RawIn) (d : DieSt) : ∃ g o l, rawStep m d =
    { d with inputs := sampledInputs m d, groups := g, outs := o, silence := d.silence + 1, due := l } := by
  obtain ⟨p, l, h⟩ := rawStep_sampled m d
  have hdrive : ∃ o, (if p then drive (sampledDie m d) else sampledDie m d) = { sampledDie m d with outs := o } := by
    split
    · exact drive_only _
    · exact ⟨(sampledDie m d).outs, rfl⟩
  obtain ⟨o, ho⟩ := hdrive
  obtain ⟨o', ho'⟩ := setSamples_only m (setsOf (dieSec d)) { sampledDie m d with outs := o }
  rw [h, ho, ho']
  exact ⟨_, _, _, rfl⟩

theorem runs_rawSample (m : RawIn) (s : State) (h : s.die.due = []) : Runs (.rawSample m) s
    (if dieRuns s.die && !s.die.parked then { s with die := rawStep m s.die } else s) := by
  show execRawSample m s = _
  unfold execRawSample
  rw [settleDie_none s h]

/-! ### A sample instant (R341) -/

theorem runs_sampleInstant (s : State) (h : s.die.due = []) : Runs .sampleInstant s
    (if dieRuns s.die && !s.die.parked then { s with die := instantDie s.die } else s) := by
  show execSampleInstant s = _
  unfold execSampleInstant
  rw [settleDie_none s h]

/-- What a frame says rests on the sequence count, the section, the groups, the inputs and the outputs alone. -/
theorem dieFrame_congr (d : DieSt) (n : Nat) (w : Option DieFrame) (q : Nat) (l : List Nat) :
    dieFrame { d with instants := n, stopW := w, seq := q } l = dieFrame { d with seq := q } l := rfl

/-- An instant of even number: the stop word alone. -/
theorem instantDie_even (d : DieSt) (h : d.instants % 2 = 0) : instantDie d =
    { d with instants := d.instants + 1, stopW := some (dieFrame d d.stopList), seq := (d.seq + 1) % 256 } := by
  unfold instantDie
  dsimp only
  rw [if_neg (by omega)]

/-- An instant of odd number: the stop word, then a sample frame with the next sequence count. -/
theorem instantDie_odd (d : DieSt) (h : d.instants % 2 = 1) : instantDie d =
    { d with
      instants := d.instants + 1, stopW := some (dieFrame d d.stopList)
      sampleF := some (dieFrame { d with seq := (d.seq + 1) % 256 } (List.range 144)), seq := (d.seq + 2) % 256 } := by
  unfold instantDie
  dsimp only
  rw [if_pos (by omega), dieFrame_congr d (d.instants + 1) (some (dieFrame d d.stopList)), show ((d.seq + 1) % 256 + 1) % 256 = (d.seq + 2) % 256 by omega]

theorem instantDie_spec (d : DieSt) :
    (instantDie d).stopW = some (dieFrame d d.stopList) ∧
      (d.instants % 2 = 0 → (instantDie d).sampleF = d.sampleF ∧ (instantDie d).seq = (d.seq + 1) % 256) ∧
      (d.instants % 2 = 1 → (instantDie d).sampleF = some (dieFrame { d with seq := (d.seq + 1) % 256 } (List.range 144)) ∧
        (instantDie d).seq = (d.seq + 2) % 256) ∧
      instantDie d = { d with
        instants := d.instants + 1, stopW := (instantDie d).stopW, sampleF := (instantDie d).sampleF, seq := (instantDie d).seq } := by
  rcases Nat.mod_two_eq_zero_or_one d.instants with h | h
  · rw [instantDie_even d h]
    exact ⟨rfl, fun _ => ⟨rfl, rfl⟩, fun h1 => by omega, rfl⟩
  · rw [instantDie_odd d h]
    exact ⟨rfl, fun h0 => by omega, fun _ => ⟨rfl, rfl⟩, rfl⟩

/-! ### Frames at their receivers (R18, R286, R354) -/

theorem runs_stopWord (ok : Bool) (f : DieFrame) (s : State) (h : s.die.stopW = some f) (hr : s.core.sys.inReset = false) :
    Runs (.stopWord ok) s { s with die := { s.die with stopW := none }, core := takeStopWord ok f s.core } := by
  show execStopWord ok s = _
  unfold execStopWord
  rw [h]
  dsimp only
  unfold fromDie
  rw [if_neg (by rw [hr]; decide)]

/-- An island takes a sample frame as valid (R18, R341). -/
def takesFrame (f : DieFrame) (loaded ok : Bool) : Bool := ok && (f.configured || !loaded)

/-- The intervals out of ±2 % that an island has timed in a row, with this frame (R18). -/
def timedOff (takes off : Bool) (i : IslSt) : Nat := if takes then (if off then i.offTime + 1 else 0) else i.offTime

theorem islFrame_taken (ok off loaded : Bool) (f : DieFrame) (i : IslSt) (h : takesFrame f loaded ok = true) :
    islFrame ok off loaded f i = { i with
      frame := some f, fresh := true, offTime := timedOff true off i, blind := i.blind || decide (2 ≤ timedOff true off i) } :=
  if_pos h

theorem islFrame_missed (ok off loaded : Bool) (f : DieFrame) (i : IslSt) (h : takesFrame f loaded ok = false) :
    islFrame ok off loaded f i = i := if_neg (by rw [show (ok && (f.configured || !loaded)) = false from h]; decide)

theorem islFrame_offTime (ok off loaded : Bool) (f : DieFrame) (i : IslSt) :
    (islFrame ok off loaded f i).offTime = timedOff (takesFrame f loaded ok) off i := by
  cases h : takesFrame f loaded ok
  · rw [islFrame_missed ok off loaded f i h]; rfl
  · rw [islFrame_taken ok off loaded f i h]

/-- A frame in time, at one island: it is kept where it counts, and nothing changes where it does not. -/
theorem islFrame_inTime (ok off loaded : Bool) (f : DieFrame) (i : IslSt) (h : ¬ 2 ≤ timedOff (takesFrame f loaded ok) off i) :
    (takesFrame f loaded ok = true → islFrame ok off loaded f i =
      { i with frame := some f, fresh := true, offTime := timedOff (takesFrame f loaded ok) off i }) ∧
    (takesFrame f loaded ok = false → islFrame ok off loaded f i = i) := by
  refine ⟨fun ht => ?_, islFrame_missed ok off loaded f i⟩
  rw [ht] at h ⊢
  rw [islFrame_taken ok off loaded f i ht, decide_eq_false h, Bool.or_false]

/-- The second interval out of range makes the island blind (R18). -/
theorem islFrame_blind (ok off loaded : Bool) (f : DieFrame) (i : IslSt) (ht : takesFrame f loaded ok = true)
    (h : 2 ≤ timedOff (takesFrame f loaded ok) off i) : (islFrame ok off loaded f i).blind = true := by
  rw [ht] at h
  rw [islFrame_taken ok off loaded f i ht, decide_eq_true h, Bool.or_true]

/-- What a sample frame does at the logic die. -/
theorem takeSampleFrame_spec (ok : Bool) (f : DieFrame) (c : Core) :
    (ok = true → (takeSampleFrame ok f c).fld.frame = some f ∧ (takeSampleFrame ok f c).fld.bad = c.fld.bad) ∧
    (ok = false → (takeSampleFrame ok f c).fld.frame = c.fld.frame ∧ (takeSampleFrame ok f c).fld.bad = c.fld.bad + 1) ∧
    takeSampleFrame ok f c = { c with fld := { c.fld with
      frame := (takeSampleFrame ok f c).fld.frame, bad := (takeSampleFrame ok f c).fld.bad } } := by
  cases ok
  · exact ⟨nofun, fun _ => ⟨rfl, rfl⟩, rfl⟩
  · exact ⟨fun _ => ⟨rfl, rfl⟩, nofun, rfl⟩

/-- The state in which every receiver has taken its sample frame. -/
def frameTaken (a b l : Bool) (o : OffTimes) (f : DieFrame) (s : State) : State :=
  { s with
    die := { s.die with sampleF := none }
    isa := islFrame a o.a s.core.fld.loaded f s.isa
    isb := islFrame b o.b s.core.fld.loaded f s.isb
    core := takeSampleFrame l f s.core }

theorem runs_sampleFrame (a b l : Bool) (o : OffTimes) (f : DieFrame) (s : State) (h : s.die.sampleF = some f)
    (hr : s.core.sys.inReset = false) : Runs (.sampleFrame a b l o) s (fieldClock (frameTaken a b l o f s)) := by
  show execSampleFrame a b l o s = _
  unfold execSampleFrame
  rw [h]
  dsimp only
  rw [if_neg (by rw [hr]; decide)]
  rfl

/-- While the FIELD oscillator is in range a sample frame reaches its receivers and no more. -/
theorem fieldClock_inTime (s : State) (h : ¬ (2 ≤ s.isa.offTime ∨ 2 ≤ s.isb.offTime)) : fieldClock s = s :=
  if_neg (by simpa using h)

theorem fieldClock_fault (s : State) (h : 2 ≤ s.isa.offTime ∨ 2 ≤ s.isb.offTime) : fieldClock s = enterSafeTalk 0x80 s :=
  if_pos (by simpa using h)

/-- A FIELD oscillator out of range leads to SAFE_TALK, with the islands as they have taken the frame (R18). -/
theorem frameTaken_safeTalk (a b l : Bool) (o : OffTimes) (f : DieFrame) (s : State) (hr : s.core.sys.inReset = false)
    (hm : s.core.sys.mode ≠ .safeTalk) (hf : resetting s.core = false) :
    SafeTalk 0x80 s (enterSafeTalk 0x80 (frameTaken a b l o f s)) ∧
      (enterSafeTalk 0x80 (frameTaken a b l o f s)).isa.blind = (islFrame a o.a s.core.fld.loaded f s.isa).blind ∧
      (enterSafeTalk 0x80 (frameTaken a b l o f s)).isb.blind = (islFrame b o.b s.core.fld.loaded f s.isb).blind := by
  have hcore := (takeSampleFrame_spec l f s.core).2.2
  have hkept : (takeSampleFrame l f s.core).sys = s.core.sys ∧ (takeSampleFrame l f s.core).nv = s.core.nv ∧
      (takeSampleFrame l f s.core).run = s.core.run ∧ (takeSampleFrame l f s.core).bar = s.core.bar := by
    rw [hcore]; exact ⟨rfl, rfl, rfl, rfl⟩
  obtain ⟨hsys, hnv, hrun, hbar⟩ : (frameTaken a b l o f s).core.sys = s.core.sys ∧ _ := hkept
  obtain ⟨ht, -, -, -, -, ha, hb⟩ := safeTalk_of 0x80 s (frameTaken a b l o f s) (by rw [hsys]; exact hm) (by rw [hsys]; exact hr)
    (by unfold resetting; rw [hsys]; exact hf)
    ⟨rfl, rfl, rfl, hnv, hrun, hbar, rfl⟩
  exact ⟨ht, by rw [ha]; rfl, by rw [hb]; rfl⟩

/-! ### PARKED (R343) -/

theorem runs_wakeInputSample (ua : Table Nat) (s : State) (h : s.die.due = []) : Runs (.wakeInputSample ua) s
    (if dieRuns s.die && s.die.parked then { s with die := wakeStep ua s.die } else s) := by
  show execWakeInputSample ua s = _
  unfold execWakeInputSample
  rw [settleDie_none s h]

/-- A WAKE input of the die: its sample is kept, and two in a row at 1 send a wake frame that names it (R343). -/
theorem wakeStep_at (ua : Table Nat) (d : DieSt) (u : Nat) (hu : u < 144) (hm : fMode (dieSec d) u = 1)
    (hw : fAttr (dieSec d) u 2 = true) :
    tget 0 (wakeStep ua d).wakePrev u =
        (bandOf (fAttr (dieSec d) u 0) (fAttr (dieSec d) u 1) (tget 0 ua u)).getD (tget 0 d.wakePrev u) ∧
      (tget 0 d.wakePrev u = 1 → tget 0 (wakeStep ua d).wakePrev u = 1 → ∃ l, (wakeStep ua d).wake = some l ∧ u ∈ l) := by
  have hmem : u ∈ (List.range 144).filter fun u => fMode (dieSec d) u == 1 && fAttr (dieSec d) u 2 :=
    List.mem_filter.mpr ⟨List.mem_range.mpr hu, by rw [hm, hw]; rfl⟩
  have hprev : tget 0 (wakeStep ua d).wakePrev u =
      (bandOf (fAttr (dieSec d) u 0) (fAttr (dieSec d) u 1) (tget 0 ua u)).getD (tget 0 d.wakePrev u) :=
    (tget_tsets 0 _ _ _ u).trans (if_pos hmem)
  refine ⟨hprev, fun h1 h2 => ?_⟩
  rw [hprev] at h2
  unfold wakeStep
  dsimp only
  generalize hup : (List.filter _ (List.filter _ (List.range 144))) = up
  have hin : u ∈ up := by
    rw [← hup]
    exact List.mem_filter.mpr ⟨hmem, Bool.and_eq_true_iff.mpr ⟨beq_iff_eq.mpr h2, beq_iff_eq.mpr h1⟩⟩
  rw [if_neg (by simp [List.ne_nil_of_mem hin])]
  exact ⟨up, rfl, hin⟩

/-! ### The commands -/

/-- A die that does not sample leaves raw samples and sample instants without effect (R343, R352). -/
theorem sampling_idle (s : State) (hd : s.die.due = []) (hp : dieRuns s.die = false ∨ s.die.parked = true) :
    (∀ m, Runs (.rawSample m) s s) ∧ Runs .sampleInstant s s := by
  have hidle : ¬ (dieRuns s.die && !s.die.parked) = true := by rcases hp with hp | hp <;> simp [hp]
  refine ⟨fun m => ?_, ?_⟩
  · have hrun := runs_rawSample m s hd
    rwa [if_neg hidle] at hrun
  · have hrun := runs_sampleInstant s hd
    rwa [if_neg hidle] at hrun

/-- Outside PARKED no WAKE input is sampled (R343). -/
theorem wakeInputSample_idle (ua : Table Nat) (s : State) (hd : s.die.due = []) (hp : dieRuns s.die = false ∨ s.die.parked = false) :
    Runs (.wakeInputSample ua) s s := by
  have hrun := runs_wakeInputSample ua s hd
  rwa [if_neg (by rcases hp with hp | hp <;> simp [hp])] at hrun

/-- Without a stop word or a sample frame on its way nothing arrives. -/
theorem stopWord_idle (s : State) (h : s.die.stopW = none) (ok : Bool) : Runs (.stopWord ok) s s := by
  show execStopWord ok s = _
  unfold execStopWord
  rw [h]

theorem sampleFrame_idle (s : State) (h : s.die.sampleF = none) (a b l : Bool) (o : OffTimes) : Runs (.sampleFrame a b l o) s s := by
  show execSampleFrame a b l o s = _
  unfold execSampleFrame
  rw [h]

/-- A raw sample takes each configured input through its filter (R340). -/
theorem rawSample_spec (m : RawIn) (s : State) (hd : s.die.due = []) (hr : dieRuns s.die = true) (hp : s.die.parked = false) :
    ∃ t, Runs (.rawSample m) s t ∧
      (∀ u, u < 144 → fMode (dieSec s.die) u = 1 → tget {} t.die.inputs u = filterStep (10 * fFilter (dieSec s.die) u)
        (bandOf (fAttr (dieSec s.die) u 0) (fAttr (dieSec s.die) u 1) (tget 0 m.ua u)) (tget {} s.die.inputs u)) ∧
      (∀ u, fMode (dieSec s.die) u ≠ 1 → tget {} t.die.inputs u = tget {} s.die.inputs u) ∧
      t.die.silence = s.die.silence + 1 ∧
      t = { s with die := { s.die with
        inputs := t.die.inputs, groups := t.die.groups, outs := t.die.outs, silence := t.die.silence, due := t.die.due } } := by
  refine ⟨_, runs_rawSample m s hd, ?_⟩
  rw [if_pos (by simp [hr, hp])]
  obtain ⟨g, o, l, h⟩ := rawStep_only m s.die
  rw [h]
  exact ⟨fun u hu hm => (sampledInputs_at m s.die u).trans (if_pos ⟨hu, hm⟩),
    fun u hm => (sampledInputs_at m s.die u).trans (if_neg fun h => hm h.2), rfl, rfl⟩

/-- A sample instant sends its frames, and nothing else of the die changes (R341). -/
theorem sampleInstant_spec (s : State) (hd : s.die.due = []) (hr : dieRuns s.die = true) (hp : s.die.parked = false) :
    ∃ t, Runs .sampleInstant s t ∧ t.die.stopW = some (dieFrame s.die s.die.stopList) ∧
      (s.die.instants % 2 = 0 → t.die.sampleF = s.die.sampleF ∧ t.die.seq = (s.die.seq + 1) % 256) ∧
      (s.die.instants % 2 = 1 → t.die.sampleF = some (dieFrame { s.die with seq := (s.die.seq + 1) % 256 } (List.range 144)) ∧
        t.die.seq = (s.die.seq + 2) % 256) ∧
      t = { s with die := { s.die with
        instants := s.die.instants + 1, stopW := t.die.stopW, sampleF := t.die.sampleF, seq := t.die.seq } } := by
  refine ⟨_, runs_sampleInstant s hd, ?_⟩
  rw [if_pos (by simp [hr, hp])]
  obtain ⟨hstop, heven, hodd, hrest⟩ := instantDie_spec s.die
  exact ⟨hstop, heven, hodd, congrArg (fun d => { s with die := d }) hrest⟩

/-- A WAKE input in PARKED (R343). -/
theorem wakeInputSample_spec (ua : Table Nat) (u : Nat) (s : State) (hd : s.die.due = []) (hr : dieRuns s.die = true)
    (hp : s.die.parked = true) (hu : u < 144) (hm : fMode (dieSec s.die) u = 1) (hw : fAttr (dieSec s.die) u 2 = true) :
    ∃ t, Runs (.wakeInputSample ua) s t ∧
      tget 0 t.die.wakePrev u =
        (bandOf (fAttr (dieSec s.die) u 0) (fAttr (dieSec s.die) u 1) (tget 0 ua u)).getD (tget 0 s.die.wakePrev u) ∧
      (tget 0 s.die.wakePrev u = 1 → tget 0 t.die.wakePrev u = 1 → ∃ l, t.die.wake = some l ∧ u ∈ l) ∧
      t = { s with die := { s.die with
        wakePrev := t.die.wakePrev, wake := t.die.wake, silence := t.die.silence, due := t.die.due } } := by
  refine ⟨_, runs_wakeInputSample ua s hd, ?_⟩
  rw [if_pos (by simp [hr, hp])]
  obtain ⟨hprev, hwake⟩ := wakeStep_at ua s.die u hu hm hw
  exact ⟨hprev, hwake, rfl⟩

/-- Settles O42, command by command; a sample frame by whether an island has timed the FIELD oscillator out of range. -/
theorem fieldSampling : Obligations.FieldSampling := by
  intro s
  refine ⟨sampling_idle s, fun hd hp ua => wakeInputSample_idle ua s hd hp, stopWord_idle s, sampleFrame_idle s,
    fun m => rawSample_spec m s, sampleInstant_spec s,
    fun f hw hr => ⟨runs_stopWord true f s hw hr, runs_stopWord false f s hw hr⟩, ?_, fun ua u => wakeInputSample_spec ua u s⟩
  intro f a b l offA offB hw hr counts times clockBad
  have hrun := runs_sampleFrame a b l ⟨offA, offB⟩ f s hw hr
  have hA : (frameTaken a b l ⟨offA, offB⟩ f s).isa.offTime = times a offA s.isa := islFrame_offTime a offA s.core.fld.loaded f s.isa
  have hB : (frameTaken a b l ⟨offA, offB⟩ f s).isb.offTime = times b offB s.isb := islFrame_offTime b offB s.core.fld.loaded f s.isb
  refine ⟨fun hgood => ⟨_, hrun, ?_⟩, fun hbad hm hf => ⟨_, hrun, ?_⟩⟩
  · rw [fieldClock_inTime _ (by rw [hA, hB]; exact hgood)]
    obtain ⟨hokA, hmissA⟩ := islFrame_inTime a offA s.core.fld.loaded f s.isa fun h => hgood (.inl h)
    obtain ⟨hokB, hmissB⟩ := islFrame_inTime b offB s.core.fld.loaded f s.isb fun h => hgood (.inr h)
    obtain ⟨hokL, hmissL, hrest⟩ := takeSampleFrame_spec l f s.core
    exact ⟨hokA, hmissA, hokB, hmissB, hokL, hmissL, congrArg (fun c => { frameTaken a b l ⟨offA, offB⟩ f s with core := c }) hrest⟩
  · rw [fieldClock_fault _ (by rw [hA, hB]; exact hbad)]
    obtain ⟨ht, ha, hb⟩ := frameTaken_safeTalk a b l ⟨offA, offB⟩ f s hr hm hf
    exact ⟨ht, fun hc h2 => ha.trans (islFrame_blind a offA s.core.fld.loaded f s.isa hc h2),
      fun hc h2 => hb.trans (islFrame_blind b offB s.core.fld.loaded f s.isb hc h2)⟩

end Sys2Proof.Machine
end

section
/-! SUPPORT. Current periods, up frames and receiver lock (R26, R197, R199, R200, R203, R206, R211, R224, R289). -/

namespace Sys2Proof.Machine

/-! ### The strobe of a current period -/

/-- The count at a strobe: it is brought to the strobe's instant, and never back (R24, R26). -/
theorem countTo_spec (ns : Nat) (c : Core) : ∃ v r, countTo ns c = { c with tb := { c.tb with count := v, readers := r } } ∧
    (c.tb.count.toNat < ns → ns < 2 ^ 64 → v.toNat = ns) ∧ (ns ≤ c.tb.count.toNat → v = c.tb.count ∧ r = c.tb.readers) := by
  unfold countTo
  dsimp only
  split
  next h =>
    simp only [Bool.and_eq_true, decide_eq_true_eq] at h
    exact ⟨_, _, rfl, fun _ _ => BitVec.toNat_ofNat .. |>.trans (Nat.mod_eq_of_lt h.2), fun h' => absurd h.1 (Nat.not_lt.mpr h')⟩
  next h =>
    refine ⟨c.tb.count, c.tb.readers, rfl, fun h1 h2 => absurd ?_ h, fun _ => ⟨rfl, rfl⟩⟩
    rw [decide_eq_true h1, decide_eq_true h2]
    rfl

/-- The links are served with the number of the strobe, which serving them leaves alone. -/
theorem sendLinks_strobe (l : List Nat) (c : Core) :
    l.foldl (fun c x => sendLink (c.tb.cp % 4) (c.tb.cp % 65536) x c) c =
      l.foldl (fun d x => sendLink (c.tb.cp % 4) (c.tb.cp % 65536) x d) c := by
  induction l generalizing c with
  | nil => rfl
  | cons a r ih =>
    obtain ⟨t, o, h, -⟩ := sendLink_only (c.tb.cp % 4) (c.tb.cp % 65536) a c
    rw [List.foldl_cons, List.foldl_cons, ih, h]

/-- What a link carries does not rest on other links, on what has been sent or on the time base (R197). -/
theorem carries_congr (c : Core) (b : TbSt) (u : Table LinkSt) (w : List Output) (x : Nat)
    (h : linkAt { c with tb := b, links := u, out := w } x = linkAt c x) :
    carries { c with tb := b, links := u, out := w } x = carries c x := by
  unfold carries
  rw [h]
  rfl

/-- What each link shows after a strobe (R197, R199, R200, R203, R224). -/
structure LinkServed (c : Core) (x : Nat) (l : LinkSt) : Prop where
  nothing : carries c x = .nothing → l.en = false ∧ l.sent = none
  idle : (linkAt c x).unmute = false → carries c x = .idle → l.en = true ∧ l.sent = none
  frames : (linkAt c x).unmute = false → carries c x = .frames → (linkAt c x).en = true →
    l.sent = some (c.tb.cp % 65536, downFrame c x (c.tb.cp % 65536)) ∧ l.rx = none

/-- The strobe of a current period: the time base, every link, and what goes out. -/
theorem cpStrobe_spec (c : Core) : ∃ v r t o, cpStrobe c =
      { c with tb := { c.tb with count := v, readers := r, cp := c.tb.cp + 1 }, links := t, out := o } ∧
    (c.tb.count.toNat < cpAt c.tb.cp → cpAt c.tb.cp < 2 ^ 64 → v.toNat = cpAt c.tb.cp) ∧
    (cpAt c.tb.cp ≤ c.tb.count.toNat → v = c.tb.count ∧ r = c.tb.readers) ∧
    ∀ x, x < 36 → LinkServed c x (tget {} t x) := by
  obtain ⟨v, r, hcount, hreach, hpast⟩ := countTo_spec (cpAt c.tb.cp) c
  obtain ⟨t, o, hlinks, -, hat⟩ := sendLinks_at (c.tb.cp % 4) (c.tb.cp % 65536) (List.range 36)
    { c with tb := { c.tb with count := v, readers := r } } List.nodup_range
  refine ⟨v, r, t, o, ?_, hreach, hpast, fun x hx => ?_⟩
  · unfold cpStrobe
    rw [hcount]
    dsimp only
    rw [sendLinks_strobe, hlinks]
  · obtain ⟨u, w, hlink, hsent⟩ := hat x (List.mem_range.mpr hx)
    have hcarries := carries_congr c { c.tb with count := v, readers := r } u w x hlink
    have hown : linkAt { c with tb := { c.tb with count := v, readers := r }, links := u, out := w } x = linkAt c x := hlink
    rw [hsent]
    have hserved := sendLink_link (c.tb.cp % 4) (c.tb.cp % 65536) x
      { c with tb := { c.tb with count := v, readers := r }, links := u, out := w }
    rw [hcarries, hown] at hserved
    exact ⟨fun h => (hserved (.inr h)).1 h, fun hu h => (hserved (.inl hu)).2.1 h, fun hu h he => (hserved (.inl hu)).2.2 h he⟩

theorem runs_currentPeriod (s : State) (hr : s.core.sys.inReset = false) (hm : s.core.sys.mode ≠ .parked)
    (hrun : s.core.tb.running = true) : Runs .currentPeriod s
      { s with core := cpStrobe s.core, isa := ageDeframers s.isa, isb := ageDeframers s.isb } := by
  refine congrArg Host.Outcome.next (if_neg ?_)
  simp [hr, hm, hrun]

/-! ### Up frames -/

/-- An up frame at an island's deframer: its HALL, and its STATUS where no frame came before (R211, R289). -/
theorem deframe_at (x y : Nat) (b : Bytes) (n : Nat) (i : IslSt) : ∃ v : SpeedSt,
    tget {} (deframe x b n i).axes y = (if x = y then v else tget {} i.axes y) ∧ v.got = true ∧ v.hall = some (byteAt b 14 % 8) ∧
      ((tget {} i.axes x).frames = [] → v.status = (upData b).status) := by
  unfold deframe
  dsimp only
  rw [tget_tmod]
  refine ⟨_, rfl, rfl, rfl, fun h => ?_⟩
  rw [h]
  rfl

theorem runs_upFrame (x : Fin 36) (rx : UpRx) (s : State) (hr : s.core.sys.inReset = false) (hm : s.core.sys.mode ≠ .parked) :
    Runs (.upFrame x rx) s
      (if rxOk rx && (linkAt s.core x).locked then
        { s with
          isa := deframe x rx.bytes rx.cyclesB s.isa, isb := deframe x rx.bytes rx.cyclesB s.isb
          core := modLink x (fun l => { l with rx := some rx }) s.core }
      else { s with core := modLink x (fun l => { l with rx := some rx }) s.core }) := by
  refine congrArg Host.Outcome.next (if_neg ?_)
  simp [hr, hm]

/-- A change of one link: it reads back, and every other link stays. -/
theorem modLink_spec (x : Nat) (f : LinkSt → LinkSt) (c : Core) :
    linkAt (modLink x f c) x = f (linkAt c x) ∧ ∀ y, y ≠ x → linkAt (modLink x f c) y = linkAt c y :=
  ⟨by rw [linkAt_mod, if_pos rfl], fun y hy => by rw [linkAt_mod, if_neg (Ne.symm hy)]⟩

/-- An up frame waits at its link, and the islands take it where it counts. -/
theorem upFrame_spec (x : Fin 36) (rx : UpRx) (s : State) (hr : s.core.sys.inReset = false) (hm : s.core.sys.mode ≠ .parked) :
    ∃ t, Runs (.upFrame x rx) s t ∧
      linkAt t.core x = { linkAt s.core x with rx := some rx } ∧ (∀ y, y ≠ x.val → linkAt t.core y = linkAt s.core y) ∧
      ((rxOk rx = false ∨ (linkAt s.core x).locked = false) → t.isa = s.isa ∧ t.isb = s.isb) ∧
      (rxOk rx = true → (linkAt s.core x).locked = true → ∀ k,
        (tget {} (islAt k t).axes x).got = true ∧ (tget {} (islAt k t).axes x).hall = some (byteAt rx.bytes 14 % 8) ∧
        ((tget {} (islAt k s).axes x).frames = [] → (tget {} (islAt k t).axes x).status = (upData rx.bytes).status) ∧
        ∀ y, y ≠ x.val → tget {} (islAt k t).axes y = tget {} (islAt k s).axes y) ∧
      t = { s with isa := { s.isa with axes := t.isa.axes }, isb := { s.isb with axes := t.isb.axes }, core := { s.core with links := t.core.links } } := by
  refine ⟨_, runs_upFrame x rx s hr hm, ?_⟩
  obtain ⟨hown, hothers⟩ := modLink_spec x (fun l => { l with rx := some rx }) s.core
  by_cases hok : (rxOk rx && (linkAt s.core x).locked) = true
  · rw [if_pos hok]
    rw [Bool.and_eq_true] at hok
    refine ⟨hown, hothers, fun h => ?_, fun _ _ k => ?_, rfl⟩
    · simp [hok.1, hok.2] at h
    · have hk : islAt k ({ s with
          isa := deframe x rx.bytes rx.cyclesB s.isa, isb := deframe x rx.bytes rx.cyclesB s.isb
          core := modLink x (fun l => { l with rx := some rx }) s.core } : State) = deframe x rx.bytes rx.cyclesB (islAt k s) := by
        cases k <;> rfl
      rw [hk]
      obtain ⟨v, hv, hgot, hhall, hstatus⟩ := deframe_at x x rx.bytes rx.cyclesB (islAt k s)
      rw [hv, if_pos rfl]
      refine ⟨hgot, hhall, hstatus, fun y hy => ?_⟩
      obtain ⟨w, hw, -⟩ := deframe_at x y rx.bytes rx.cyclesB (islAt k s)
      rw [hw, if_neg (Ne.symm hy)]
  · rw [if_neg hok]
    refine ⟨hown, hothers, fun _ => ⟨rfl, rfl⟩, fun h1 h2 => ?_, rfl⟩
    exact absurd (by rw [h1, h2]; rfl) hok

/-- Settles O30: the strobe, then up frames, then lock. -/
theorem currentPeriods : Obligations.CurrentPeriods := by
  intro s hr hm
  refine ⟨fun hrun => ⟨_, runs_currentPeriod s hr hm hrun, ?_⟩, fun x => ⟨fun rx => upFrame_spec x rx s hr hm, ⟨_, congrArg Host.Outcome.next (if_neg (by rw [hr]; decide)), ?_⟩,
    ⟨_, congrArg Host.Outcome.next (if_neg (by rw [hr]; decide)), ?_⟩⟩⟩
  · obtain ⟨v, r, t, o, h, hreach, hpast, hlinks⟩ := cpStrobe_spec s.core
    rw [h]
    refine ⟨fun x hx => (hlinks x hx).nothing, fun x hx => (hlinks x hx).idle, fun x hx => (hlinks x hx).frames, hreach, fun hle => ?_, rfl⟩
    obtain ⟨hv, hreaders⟩ := hpast hle
    rw [hv, hreaders]
  · obtain ⟨hown, hothers⟩ := modLink_spec x (fun l => { l with locked := true }) s.core
    exact ⟨hown, hothers, rfl⟩
  · obtain ⟨hown, hothers⟩ := modLink_spec x (fun l => { l with locked := false }) s.core
    exact ⟨hown, hothers, rfl⟩

end Sys2Proof.Machine
end

section
/-! SUPPORT. The session with the twin, message by message (R28, R355, R362, R365, R367, R378, R382). -/

namespace Sys2Proof.Machine

/-- A message of the length that its TYPE asks for passes that check (R366). -/
theorem sized_true (h : TwinHdr) : sized true h = h := by
  unfold sized
  rw [Bool.and_true]

/-! ### AUTH (R365) -/

theorem runs_auth (h : TwinHdr) (nonce answer : Bytes) (s : State) (hn : nonce.length = 16) (ha : answer.length = 8)
    (hh : Heard 0 h s.core) :
    Runs (.auth h nonce answer) s { s with core := takeAuth s.onyx.twin h nonce answer (heard 0 h false s.core) } := by
  show execAuth h nonce answer s = _
  unfold execAuth
  rw [hn, ha]
  exact congrArg Host.Outcome.next ((congrArg (fun g => onMessage 0x00 g false _ s) (sized_true h)).trans (onMessage_heard 0 h false _ s hh))

/-- Without the twin's serial number an AUTH leaves its nonce and its answer, and no more (log 18). -/
theorem takeAuth_unknown (key : Bytes) (h : TwinHdr) (nonce answer : Bytes) (c : Core) (hs : c.twin.serialT = none) :
    takeAuth key h nonce answer c = { c with twin := { c.twin with
      nonceT := nonce, answerT := if h.mseq = 0 then c.twin.answerT else answer } } := by
  unfold takeAuth authAdvance
  dsimp only
  rw [hs]

/-- The answer that an AUTH must match rests on the nonces and the serial numbers alone. -/
theorem authAnswer_heard (key : Bytes) (sn : U64) (h : TwinHdr) (nonce answer : Bytes) (c : Core) :
    authAnswer key sn { heard 0 h false c with twin := { (heard 0 h false c).twin with nonceT := nonce, answerT := answer } } =
      authAnswer key sn { c with twin := { c.twin with nonceT := nonce } } := by
  unfold authAnswer
  rfl

theorem auth_known (h : TwinHdr) (nonce answer : Bytes) (s : State) (sn : U64) (hn : nonce.length = 16) (ha : answer.length = 8)
    (hh : Heard 0 h s.core) (hs : s.core.twin.serialT = some sn) (hown : s.core.twin.nonce ≠ []) (hkey : s.onyx.twin ≠ [])
    (hq : h.mseq ≠ 0) : ∃ t, Runs (.auth h nonce answer) s t ∧ t.core.twin.nonceT = nonce ∧ t.core.twin.answered = true ∧
      (t.core.twin.authed = true ↔ answer = authAnswer s.onyx.twin sn { s.core with twin := { s.core.twin with nonceT := nonce } } ∨
        s.core.twin.authed = true) ∧
      t = { s with core := { heard 0 h false s.core with twin := t.core.twin, recd := t.core.recd, out := t.core.out } } := by
  refine ⟨_, runs_auth h nonce answer s hn ha hh, ?_⟩
  have hnonce : nonce ≠ [] := by rintro rfl; simp at hn
  have hanswer : answer ≠ [] := by rintro rfl; simp at ha
  obtain ⟨u, q, o, b, hsent, hb⟩ := authSent s.onyx.twin sn
    { heard 0 h false s.core with twin := { (heard 0 h false s.core).twin with nonceT := nonce, answerT := answer } }
    hs hown hnonce hkey hanswer
  rw [authAnswer_heard] at hb
  unfold takeAuth
  rw [if_neg hq, hsent]
  exact ⟨rfl, rfl, hb, rfl⟩

theorem auth_unknown (h : TwinHdr) (nonce answer : Bytes) (s : State) (hn : nonce.length = 16) (ha : answer.length = 8)
    (hh : Heard 0 h s.core) (hs : s.core.twin.serialT = none) : ∃ t, Runs (.auth h nonce answer) s t ∧ t.core.twin.nonceT = nonce ∧
      (h.mseq ≠ 0 → t.core.twin.answerT = answer) ∧ t.core.twin.authed = s.core.twin.authed ∧
      t = { s with core := { heard 0 h false s.core with
        twin := { (heard 0 h false s.core).twin with nonceT := t.core.twin.nonceT, answerT := t.core.twin.answerT } } } := by
  refine ⟨_, runs_auth h nonce answer s hn ha hh, ?_⟩
  rw [takeAuth_unknown s.onyx.twin h nonce answer (heard 0 h false s.core) hs]
  exact ⟨rfl, fun hq => if_neg hq, rfl, rfl⟩

/-! ### HELLO (R355, R367) -/

theorem hello_spec (h : TwinHdr) (m : Hello) (s : State) (hh : Heard 1 h s.core) : ∃ t, Runs (.hello h m) s t ∧
    t.core.twin.peer = some (h, m) ∧ t.core.twin.anyHello = 0 ∧
    t.core.twin.helloAge = (if h.role = .standby then 0 else s.core.twin.helloAge) ∧
    t.core.twin.role = roleIn s.core.sys.mode (decide (t.core.twin.helloAge < 16)) ∧
    t = { s with core := { s.core with
      nv := t.core.nv, recd := t.core.recd, host := t.core.host, seq := t.core.seq, cam := t.core.cam, twin := t.core.twin
      out := t.core.out } } := by
  have hauthed : s.core.twin.authed = true := hh.authed (by decide)
  have hrun : Runs (.hello h m) s
      { s with core := takeHello h m (heard 1 h (h.role != .active && h.role != .solo) s.core) } := by
    show execHello h m s = _
    unfold execHello
    rw [noteSerial_not s.onyx.twin h m s.core (.inr (.inr (.inr hauthed)))]
    exact congrArg Host.Outcome.next (onMessage_heard 1 h _ _ s hh)
  refine ⟨_, hrun, ?_⟩
  obtain ⟨n, u, g, f, x, w, o, htake, hpeer, hany, hage, hrole⟩ := takeHello_spec h m
    (heard 1 h (h.role != .active && h.role != .solo) s.core)
  rw [htake]
  exact ⟨hpeer, hany, hage, hrole, rfl⟩

/-! ### SYNC and DELAY (R28) -/

theorem runs_sync (h : TwinHdr) (t1 t4 t2 : Nat) (s : State) (hh : Heard 2 h s.core) :
    Runs (.sync h t1 t4 t2) s { s with core := takeSync t1 t4 t2 (heard 2 h false s.core) } :=
  congrArg Host.Outcome.next (onMessage_heard 2 h false _ s hh)

theorem sync_standby (h : TwinHdr) (t1 t4 t2 : Nat) (s : State) (hh : Heard 2 h s.core) (hm : s.core.sys.mode = .shadow) :
    ∃ t, Runs (.sync h t1 t4 t2) s t ∧ t.core.tb.t12 = some (t1, t2) ∧ t.core.tb.t3 % 8 = 0 ∧
      (t2 < 2 ^ 64 → t2 % 8 = 0 → t2 ≤ t.core.tb.t3 ∧ t.core.tb.t3 < 2 ^ 64) ∧
      t = { s with core := { s.core with
        nv.epoch := t.core.nv.epoch, tb := t.core.tb, twin := t.core.twin, recd := t.core.recd, host := t.core.host
        seq := t.core.seq, cam := t.core.cam, out := t.core.out, free := s.core.free + 1 } } := by
  refine ⟨_, runs_sync h t1 t4 t2 s hh, ?_⟩
  obtain ⟨b, u, g, f, x, w, o, htake, h12, h8, h3⟩ := takeSync_spec t1 t4 t2 (heard 2 h false s.core) hm
  rw [htake]
  exact ⟨h12, h8, h3, rfl⟩

theorem sync_other (h : TwinHdr) (t1 t4 t2 : Nat) (s : State) (hh : Heard 2 h s.core) (hm : s.core.sys.mode ≠ .shadow) :
    Runs (.sync h t1 t4 t2) s { s with core := heard 2 h false s.core } := by
  have htake : takeSync t1 t4 t2 (heard 2 h false s.core) = heard 2 h false s.core := if_pos (bne_iff_ne.mpr hm)
  have hrun := runs_sync h t1 t4 t2 s hh
  rwa [htake] at hrun

theorem runs_delay (h : TwinHdr) (t3 t4 : Nat) (s : State) (hh : Heard 3 h s.core) : Runs (.delay h t3 t4) s { s with
    core := if claiming s.core && t3 < 2 ^ 64 then { heard 3 h false s.core with tb.t4 := t4 } else heard 3 h false s.core } :=
  congrArg Host.Outcome.next (onMessage_heard 3 h false _ s hh)

theorem delay_claiming (h : TwinHdr) (t3 t4 : Nat) (s : State) (hh : Heard 3 h s.core) (hc : claiming s.core = true) (h3 : t3 < 2 ^ 64) :
    Runs (.delay h t3 t4) s { s with core := { heard 3 h false s.core with tb.t4 := t4 } } := by
  have hrun := runs_delay h t3 t4 s hh
  rwa [if_pos (by rw [hc, decide_eq_true h3]; rfl)] at hrun

theorem delay_other (h : TwinHdr) (t3 t4 : Nat) (s : State) (hh : Heard 3 h s.core) (hc : claiming s.core = false ∨ 2 ^ 64 ≤ t3) :
    Runs (.delay h t3 t4) s { s with core := heard 3 h false s.core } := by
  have hrun := runs_delay h t3 t4 s hh
  rwa [if_neg (by
    rw [Bool.and_eq_true, decide_eq_true_eq]
    rintro ⟨h1, h2⟩
    rcases hc with hc | hc
    · rw [hc] at h1; cases h1
    · exact absurd h2 (Nat.not_lt.mpr hc))] at hrun

/-! ### RESYNC_REQ and RELINQUISH (R362, R378, R382) -/

theorem runs_resyncReq (h : TwinHdr) (s : State) (hh : Heard 0x14 h s.core) :
    Runs (.resyncReq h) s { s with core := takeResync (heard 0x14 h false s.core) } :=
  congrArg Host.Outcome.next (onMessage_heard 0x14 h false _ s hh)

/-- A claiming unit owes a base snapshot, and its pages wait for their turn (R378). -/
theorem takeResync_claiming (c : Core) (hc : claiming c = true) : ∃ q p,
    takeResync c = { c with twin := { c.twin with base := true, resync := 1, txSeq := q, txPieces := p } } := by
  unfold takeResync
  rw [if_neg (by rw [hc]; decide)]
  obtain ⟨q, p, h⟩ := foldQueue_only (fun c (e : Nat × PageSt) => if e.2.state = 2 then sendPage e.1 e.2.table (imgBytes e.2.data) c else c)
    (fun c e => by
      dsimp only
      split
      · exact sendPage_only _ _ _ c
      · exact ⟨c.twin.txSeq, c.twin.txPieces, rfl⟩) c.cam.pages c
  dsimp only
  rw [h]
  exact ⟨q, p, rfl⟩

theorem resyncReq_claiming (h : TwinHdr) (s : State) (hh : Heard 0x14 h s.core) (hc : claiming s.core = true) :
    ∃ t, Runs (.resyncReq h) s t ∧ t = { s with core := { heard 0x14 h false s.core with twin := { (heard 0x14 h false s.core).twin with
      base := true, resync := 1, txSeq := t.core.twin.txSeq, txPieces := t.core.twin.txPieces } } } := by
  refine ⟨_, runs_resyncReq h s hh, ?_⟩
  obtain ⟨q, p, htake⟩ := takeResync_claiming (heard 0x14 h false s.core) hc
  rw [htake]

theorem resyncReq_other (h : TwinHdr) (s : State) (hh : Heard 0x14 h s.core) (hc : claiming s.core = false) :
    Runs (.resyncReq h) s { s with core := heard 0x14 h false s.core } := by
  have htake : takeResync (heard 0x14 h false s.core) = heard 0x14 h false s.core :=
    if_pos (show (!claiming s.core) = true by rw [hc]; rfl)
  have hrun := runs_resyncReq h s hh
  rwa [htake] at hrun

theorem runs_relinquish (h : TwinHdr) (last : Nat) (s : State) (hh : Heard 0x15 h s.core) :
    Runs (.relinquish h last) s { s with core := takeRelinquish last (heard 0x15 h true s.core) } :=
  congrArg Host.Outcome.next (onMessage_heard 0x15 h true _ s hh)

theorem relinquish_standby (h : TwinHdr) (last : Nat) (s : State) (hh : Heard 0x15 h s.core) (hm : s.core.sys.mode = .shadow) :
    ∃ t, Runs (.relinquish h last) s t ∧
      t.core.twin.relinq = (if s.core.tb.tick ≤ last then some last else s.core.twin.relinq) ∧ t.core.twin.gone = true ∧
      t = { s with core := { heard 0x15 h true s.core with
        twin := { (heard 0x15 h true s.core).twin with relinq := t.core.twin.relinq } } } := by
  refine ⟨_, runs_relinquish h last s hh, ?_⟩
  have htake : takeRelinquish last (heard 0x15 h true s.core) = { heard 0x15 h true s.core with
      twin.relinq := if s.core.tb.tick ≤ last then some last else s.core.twin.relinq } := if_pos (beq_iff_eq.mpr hm)
  rw [htake]
  exact ⟨rfl, rfl, rfl⟩

theorem relinquish_other (h : TwinHdr) (last : Nat) (s : State) (hh : Heard 0x15 h s.core) (hm : s.core.sys.mode ≠ .shadow) :
    Runs (.relinquish h last) s { s with core := heard 0x15 h true s.core } := by
  have htake : takeRelinquish last (heard 0x15 h true s.core) = heard 0x15 h true s.core := if_neg fun e => hm (beq_iff_eq.mp e)
  have hrun := runs_relinquish h last s hh
  rwa [htake] at hrun

/-! ### HELLO in the self-test (R367) -/

/-- A link that is down sends no HELLO. -/
theorem sendHello_down (c : Core) (h : twinUp c = false) : sendHello c = c :=
  if_neg (by rw [h]; decide)

theorem selftestHello_silent (s : State)
    (h : s.core.sys.mode ≠ .selftest ∨ s.core.sys.inReset = true ∨
      (s.core.sys.stStep ≠ 7 ∧ (s.core.sys.stStep ≠ 8 ∨ s.core.tb.running = true)) ∨ twinUp s.core = false) :
    Runs .selftestHello s s := by
  refine congrArg Host.Outcome.next ?_
  split
  next hsend =>
    simp only [Bool.and_eq_true, Bool.or_eq_true, beq_iff_eq, Bool.not_eq_true'] at hsend
    obtain ⟨⟨hm, hr⟩, hstep⟩ := hsend
    have hdown : twinUp s.core = false := by
      rcases h with h | h | ⟨h7, h8⟩ | h
      · exact absurd hm h
      · rw [hr] at h; cases h
      · rcases hstep with e | ⟨e, er⟩
        · exact absurd e h7
        · rcases h8 with h8 | h8
          · exact absurd e h8
          · rw [er] at h8; cases h8
      · exact h
    rw [sendHello_down s.core hdown]
  next => rfl

theorem selftestHello_sends (s : State) (hm : s.core.sys.mode = .selftest) (hr : s.core.sys.inReset = false)
    (hstep : s.core.sys.stStep = 7 ∨ (s.core.sys.stStep = 8 ∧ s.core.tb.running = false)) (hup : twinUp s.core = true) :
    ∃ t b, Runs .selftestHello s t ∧ t.core.out = .twinBytes 1 b :: s.core.out ∧
      t = { s with core := { s.core with out := t.core.out, twin := { s.core.twin with txSeq := t.core.twin.txSeq } } } := by
  have hsend : Runs .selftestHello s { s with core := sendHello s.core } := by
    refine congrArg Host.Outcome.next (if_pos ?_)
    rcases hstep with h | ⟨h, hrun⟩
    · simp [hm, hr, h]
    · simp [hm, hr, h, hrun]
  obtain ⟨q, b, hsent⟩ : ∃ q b, sendHello s.core =
      { s.core with twin := { s.core.twin with txSeq := q }, out := .twinBytes 1 b :: s.core.out } := twinSend_up _ _ _ hup
  rw [hsent] at hsend
  exact ⟨_, b, hsend, rfl, rfl⟩

/-- Settles O37, message by message: a message that is heard takes its header, then its own effect. -/
theorem twinSession : Obligations.TwinSession := by
  intro h s
  exact ⟨fun nonce answer hn ha hh => ⟨auth_unknown h nonce answer s hn ha hh,
      fun sn hs hown hkey hq => auth_known h nonce answer s sn hn ha hh hs hown hkey hq⟩,
    fun m hh => hello_spec h m s hh,
    fun t1 t4 t2 hh => ⟨sync_standby h t1 t4 t2 s hh, sync_other h t1 t4 t2 s hh⟩,
    fun t3 t4 hh => delay_claiming h t3 t4 s hh, fun t3 t4 hh => delay_other h t3 t4 s hh,
    resyncReq_claiming h s, resyncReq_other h s,
    fun last hh => relinquish_other h last s hh, fun last hh => relinquish_standby h last s hh,
    selftestHello_silent s, selftestHello_sends s⟩

end Sys2Proof.Machine
end

section
/-! SUPPORT. SEQ_TICK and FRAME: what their reads, their deliveries and their ends leave alone (R26, R130, R272, R345, R429, R438). -/

namespace Sys2Proof.Machine

/-! ### What a tick and its reads leave alone -/

/-- At most the islands, the field die and the core differ: the queue, the fuses, Onyx and the record stores stay. -/
def StoresApart (s t : State) : Prop := t = { s with isa := t.isa, isb := t.isb, die := t.die, core := t.core }

theorem StoresApart.refl (s : State) : StoresApart s s := rfl

theorem StoresApart.trans {s t u : State} (a : StoresApart s t) (b : StoresApart t u) : StoresApart s u := by
  unfold StoresApart at *
  rw [b, a]

theorem StoresApart.kept {s t : State} (h : StoresApart s t) :
    t.store = s.store ∧ t.onyx = s.onyx ∧ t.fuse = s.fuse ∧ t.pending = s.pending := by
  unfold StoresApart at h
  rw [h]
  exact ⟨rfl, rfl, rfl, rfl⟩

theorem enterSafeTalk_apart (cause : Nat) (s : State) : StoresApart s (enterSafeTalk cause s) := by
  unfold enterSafeTalk
  split
  · rfl
  · rfl

theorem badEffect_apart (n : Nat) (s : State) : StoresApart s (badEffect n s) := by
  unfold badEffect
  split
  · exact enterSafeTalk_apart 0x81 s
  · rfl

theorem noteRead_apart (n w q : Nat) (b : Bool) (k : ReadKind) (s : State) : StoresApart s (noteRead n w q b k s) := by
  cases k with
  | clean => rfl
  | corrected => rfl
  | bad => exact StoresApart.trans (t := { s with core := noteBad n w q s.core }) rfl (badEffect_apart n _)

theorem userRead_apart (s : State) (e : Nat × Nat) : StoresApart s (userRead s e) := by
  unfold userRead
  dsimp only
  split
  · exact StoresApart.trans (t := { s with core := (draw s.core).2 }) rfl (noteRead_apart _ _ _ _ _ _)
  · rfl

/-- The reads of a period touch no store (R438, R440). -/
theorem userReads_apart (lo hi : Nat) (s : State) : StoresApart s (userReads lo hi s) := by
  unfold userReads
  generalize foulWords lo hi s.core = l
  induction l generalizing s with
  | nil => exact .refl s
  | cons e r ih => exact (userRead_apart s e).trans (ih (userRead s e))

/-- Where every word is clean, a period reads without effect. -/
theorem userReads_clean (lo hi : Nat) (s : State) (h : foulWords lo hi s.core = []) : userReads lo hi s = s := by
  unfold userReads
  rw [h]
  rfl

/-- A word beyond the configuration and state memory changes the core only (R440). -/
theorem userRead_core (s : State) (e : Nat × Nat) (h : 16 ≤ e.1) : ∃ c, userRead s e = { s with core := c } := by
  unfold userRead
  dsimp only
  split
  · generalize (bankRead _ _).2 = k
    cases k with
    | clean => exact ⟨_, rfl⟩
    | corrected => exact ⟨_, rfl⟩
    | bad => exact ⟨_, if_neg (Nat.not_lt.mpr h)⟩
  · exact ⟨_, rfl⟩

theorem foulWords_bank (lo hi : Nat) (c : Core) (e : Nat × Nat) (h : e ∈ foulWords lo hi c) : lo ≤ e.1 := by
  obtain ⟨b, hb, he⟩ := List.mem_flatMap.mp h
  obtain ⟨w, -, rfl⟩ := List.mem_map.mp he
  have hp := (List.mem_filter.mp hb).2
  rw [Bool.and_eq_true, decide_eq_true_eq] at hp
  exact hp.1.1

/-- The reads of a FRAME, in banks 16 to 23, change the core only (R438, R440). -/
theorem userReads_core (s : State) : ∃ c, userReads 16 24 s = { s with core := c } := by
  have hfold : ∀ (l : List (Nat × Nat)) (s : State), (∀ e ∈ l, 16 ≤ e.1) → ∃ c, l.foldl userRead s = { s with core := c } := by
    intro l
    induction l with
    | nil => exact fun s _ => ⟨s.core, rfl⟩
    | cons a r ih =>
      intro s h
      obtain ⟨c, hc⟩ := userRead_core s a (h a List.mem_cons_self)
      obtain ⟨c', hc'⟩ := ih (userRead s a) fun e he => h e (List.mem_cons_of_mem _ he)
      exact ⟨c', by rw [List.foldl_cons, hc', hc]⟩
  exact hfold _ s fun e he => foulWords_bank 16 24 s.core e he

/-! ### The hold-up flush -/

/-- A flush that starts changes the islands and the core, and one runs then (R66, R68). -/
theorem startFlush_spec (k : ResetKind) (p : Bool) (v : Option Nat) (s : State) : ∃ a b c,
    startFlush k p v s = { s with isa := a, isb := b, core := c } ∧ c.sys.flush ≠ none ∧
      (a = s.isa ∧ b = s.isb ∨ a = holdOpen s.isa ∧ b = holdOpen s.isb) := by
  unfold startFlush
  split
  · exact ⟨s.isa, s.isb, _, rfl, nofun, .inl ⟨rfl, rfl⟩⟩
  · refine ⟨_, _, _, rfl, ?_, .inr ⟨rfl, rfl⟩⟩
    dsimp only
    rw [event_sys]
    nofun

/-! ### What a tick delivers -/

/-- From `i` to `j` an island keeps what the crossing from SEQ has brought of motion and transmission (R272). -/
structure KeepsCrossing (i j : IslSt) : Prop where
  seqAge : j.seqAge = i.seqAge
  motion : j.motion = i.motion
  txOn : j.txOn = i.txOn

/-- The end of a tick: the islands keep the crossing, and the field die at most parks. -/
structure EndsTick (s t : State) : Prop where
  isa : KeepsCrossing s.isa t.isa
  isb : KeepsCrossing s.isb t.isb
  die : t.die = { s.die with parked := t.die.parked }
  apart : StoresApart s t

theorem EndsTick.core (s : State) (c : Core) : EndsTick s { s with core := c } := ⟨⟨rfl, rfl, rfl⟩, ⟨rfl, rfl, rfl⟩, rfl, rfl⟩

theorem enterLockout_endsTick (cause p : Nat) (s : State) : EndsTick s (enterLockout cause p s) := by
  unfold enterLockout
  split
  · exact EndsTick.core s s.core
  · exact ⟨⟨rfl, rfl, rfl⟩, ⟨rfl, rfl, rfl⟩, rfl, rfl⟩

theorem parkedEntry_endsTick (s : State) : EndsTick s (parkedEntry s) := by
  unfold parkedEntry
  dsimp only
  generalize hu : ({ s with isa := islParked s.isa, isb := _, die := _, core := _ } : State) = u
  obtain ⟨a, b, c, h, -, hab⟩ := startFlush_spec .parked true none u
  rw [h, ← hu]
  rw [← hu] at hab
  obtain ⟨rfl, rfl⟩ | ⟨rfl, rfl⟩ := hab
  · exact ⟨⟨rfl, rfl, rfl⟩, ⟨rfl, rfl, rfl⟩, rfl, rfl⟩
  · exact ⟨⟨rfl, rfl, rfl⟩, ⟨rfl, rfl, rfl⟩, rfl, rfl⟩

theorem EndsTick.trans {s t u : State} (a : EndsTick s t) (b : EndsTick t u) : EndsTick s u :=
  ⟨⟨b.isa.seqAge.trans a.isa.seqAge, b.isa.motion.trans a.isa.motion, b.isa.txOn.trans a.isa.txOn⟩,
    ⟨b.isb.seqAge.trans a.isb.seqAge, b.isb.motion.trans a.isb.motion, b.isb.txOn.trans a.isb.txOn⟩,
    by rw [b.die, a.die], a.apart.trans b.apart⟩

/-- The entries that end a tick (R40, R43, R44). -/
theorem tickEntries_endsTick (m : Mode) (s : State) : EndsTick s (tickEntries m s) := by
  unfold tickEntries
  dsimp only
  split
  · exact .core s _
  · split
    · exact .core s _
    · split
      · split
        · exact (EndsTick.core s _).trans (enterLockout_endsTick _ _ _)
        · exact .core s _
      · split
        · exact (EndsTick.core s _).trans (parkedEntry_endsTick _)
        · exact .core s _

/-- What a tick leaves of a state `s` in state `t`: both islands have the same fresh motion states, and the field die has its next
command image (R272, R345). -/
structure Ticked (s t : State) : Prop where
  fresh : t.isa.seqAge = 0 ∧ t.isb.seqAge = 0
  motion : t.isa.motion = t.isb.motion
  txOn : t.isa.txOn = t.isb.txOn
  cmd : ∃ f, t.die.cmd = some f
  die : t.die = { s.die with cmd := t.die.cmd, parked := t.die.parked }
  apart : StoresApart s t

theorem tickDeliver_ticked (b : Bool) (c : Core) (s : State) : Ticked s (tickDeliver b { s with core := c }) :=
  ⟨⟨rfl, rfl⟩, rfl, rfl, ⟨_, rfl⟩, rfl, rfl⟩

theorem Ticked.ends {s t u : State} (a : Ticked s t) (b : EndsTick t u) : Ticked s u where
  fresh := ⟨b.isa.seqAge.trans a.fresh.1, b.isb.seqAge.trans a.fresh.2⟩
  motion := b.isa.motion.trans (a.motion.trans b.isb.motion.symm)
  txOn := b.isa.txOn.trans (a.txOn.trans b.isb.txOn.symm)
  cmd := by rw [b.die]; exact a.cmd
  die := by rw [b.die, a.die]
  apart := a.apart.trans b.apart

theorem tickEnd_ticked (m : Mode) (b : Bool) (c : Core) (s : State) : Ticked s (tickEntries m (tickDeliver b { s with core := c })) :=
  (tickDeliver_ticked b c s).ends (tickEntries_endsTick m _)

theorem seqTick_ticked (s : State) : Ticked s (seqTick s) := by
  unfold seqTick
  exact tickEnd_ticked _ _ _ s

/-! ### When they run -/

theorem runs_seqTick (s : State) (hr : s.core.sys.inReset = false) (hrun : s.core.tb.running = true) (hm : s.core.sys.mode ≠ .parked) :
    Runs .seqTick s (seqTick (userReads 0 16 s)) :=
  congrArg Host.Outcome.next (if_neg (by simp [hr, hrun, hm]))

theorem runs_frame (s : State) (hr : s.core.sys.inReset = false) (hrun : s.core.tb.running = true) (hm : s.core.sys.mode ≠ .parked) :
    Runs .frame s (frameAll (userReads 16 24 s)) :=
  congrArg Host.Outcome.next (if_neg (by simp [hr, hrun, hm]))

/-- A FRAME at the stores and at the field die: the commit of R429, and nothing else. -/
theorem frameAll_spec (s : State) : ∃ a b c, frameAll s = { s with store := commit s.store, isa := a, isb := b, core := c } ∧
    (c.sys.flush = none → c.nv.stats = c.recd.stats) := by
  have hstats : (frameCore s.core).nv.stats = (frameCore s.core).recd.stats := by
    obtain ⟨d, hd⟩ : ∃ d : Core, frameCore s.core = { d with nv.stats := d.recd.stats } := ⟨_, rfl⟩
    rw [hd]
  unfold frameAll imageReset
  dsimp only
  generalize frameCore s.core = c at hstats ⊢
  split
  · obtain ⟨a, b, c', h, hflush, -⟩ := startFlush_spec .soft false none
      { s with store := commit s.store, core := { c with twin.imgSeen := false } }
    exact ⟨a, b, c', h, fun hnone => absurd hnone hflush⟩
  · exact ⟨s.isa, s.isb, c, rfl, fun _ => hstats⟩

/-- Settles O29: the tick after its reads, then the FRAME after its own. -/
theorem ticksAndFrames : Obligations.TicksAndFrames := by
  refine ⟨fun s hr hrun hm => ⟨⟨_, runs_seqTick s hr hrun hm, ?_⟩, ⟨_, runs_frame s hr hrun hm, ?_⟩⟩, fun s h => ?_⟩
  · have hheld := (userReads_held 0 16 s).trans (seqTick_held (userReads 0 16 s))
    have htick := seqTick_ticked (userReads 0 16 s)
    obtain ⟨hstore, honyx, hfuse, hpending⟩ := ((userReads_apart 0 16 s).trans htick.apart).kept
    refine ⟨htick.fresh.1, htick.fresh.2, hheld.isa, hheld.isb, htick.cmd, fun hclean => ?_, htick.motion, htick.txOn, hstore, honyx, hfuse, hpending⟩
    rw [userReads_clean 0 16 s hclean] at htick ⊢
    exact htick.die
  · obtain ⟨c, hc⟩ := userReads_core s
    obtain ⟨a, b, c', h, hstats⟩ := frameAll_spec (userReads 16 24 s)
    rw [h, hc]
    exact ⟨rfl, hstats, rfl, rfl, rfl, rfl⟩
  · have hidle : (s.core.sys.inReset || !s.core.tb.running || decide (s.core.sys.mode = .parked)) = true := by
      rcases h with h | h | h <;> simp [h]
    exact ⟨congrArg Host.Outcome.next (if_pos hidle), congrArg Host.Outcome.next (if_pos hidle), congrArg Host.Outcome.next (if_pos hidle)⟩

end Sys2Proof.Machine
end

section
/-! SUPPORT. The operations that reach the channels: their portals, how they open, and what one delivery does at all of its portals
(R115 to R118, R124, R125). -/

namespace Sys2Proof.Machine

/-! ### The portals of a mask, and the parts that an operation holds -/

theorem mem_portalsOf (m p : Nat) : p ∈ portalsOf m ↔ p < 12 ∧ bitOf m p = true := by
  simp [portalsOf]

theorem portalsOf_nodup (m : Nat) : (portalsOf m).Nodup := List.nodup_range.filter _

theorem heldMask_bit (d : Bytes) (p : Nat) (ho : byteAt d 0 = 0x10 ∨ byteAt d 0 = 0x11) (hp : p < 12) :
    pbit (heldMask d) p = bitOf (field d 8 2) p := by
  have hheld : heldMask d = BitVec.ofNat 13 (field d 8 2) := by
    unfold heldMask opPortals
    rcases ho with ho | ho <;> simp [ho]
  have hlt : p < 13 := by omega
  rw [hheld, pbit, BitVec.getLsbD_ofNat, decide_eq_true hlt, Bool.true_and, bitOf]

/-- A fresh operation holds an open part at every portal that it names (R116, R117). -/
theorem partOpen_fresh (y : SlotSt) (p : Nat) (ho : slotOp y = 0x10 ∨ slotOp y = 0x11) (hs : y.started = true) (hd : y.done = none)
    (hm : y.mask = heldMask y.desc) (he : y.ended = []) (hr : y.reached = 0) (hp : p ∈ portalsOf (field y.desc 8 2)) :
    partOpen y p = true := by
  obtain ⟨hlt, hbit⟩ := (mem_portalsOf _ p).mp hp
  have hheld : pbit y.mask p = true := by rw [hm, heldMask_bit _ _ ho hlt, hbit]
  have hnot : pbit y.reached p = false := by rw [hr]; simp [pbit]
  simp [partOpen, hs, hd, hheld, hnot, he]

theorem partsDone_of_partOpen {y : SlotSt} {p : Nat} (hp : p < 12) (ho : partOpen y p = true) : partsDone y = false := by
  simp only [partOpen, Bool.and_eq_true, Bool.not_eq_true'] at ho
  obtain ⟨⟨⟨-, hm⟩, hr⟩, he⟩ := ho
  exact List.all_eq_false.mpr ⟨p, List.mem_range.mpr hp, by simp [hm, hr, he]⟩

/-- Completing an operation whose parts have all ended closes no part that is open (R123). -/
theorem closeParts_slot (k : Nat) (c : Core) (y : SlotSt) (hk : k < 512) (h : slotAt c k = some y) :
    ∃ z, slotAt (closeParts k c) k = some z ∧ PartsEnded y z ∧ ∀ p, p < 12 → partOpen y p = true → partOpen z p = true := by
  by_cases hc : (y.done.isNone && y.started && partsDone y) = true
  · have hclose : closeParts k c = finish k (partsStatus y.ended).1 (partsStatus y.ended).2 y.reached.toNat
        (if slotOp y = 0x11 then 0 else endedMask y.ended) c := by
      simp only [closeParts, h, hc, if_true]
    simp only [Bool.and_eq_true, Option.isNone_iff_eq_none] at hc
    obtain ⟨⟨hd, -⟩, hdone⟩ := hc
    rw [hclose]
    refine ⟨_, finish_slot k _ _ _ _ c y h hd hk, ⟨rfl, fun q _ => ⟨by simp [partOpen], rfl⟩⟩, fun p hp ho => ?_⟩
    rw [partsDone_of_partOpen hp ho] at hdone
    cases hdone
  · have hclose : closeParts k c = c := by
      unfold closeParts
      rw [h]
      exact if_neg hc
    rw [hclose]
    exact ⟨y, h, .refl y, fun _ _ ho => ho⟩

/-! ### The start of an operation -/

/-- `e` is the core `c` in which slot `k` holds the operation `y` and the twin has perhaps been told of it (R94, R112). -/
structure Opened (k : Nat) (y : SlotSt) (c e : Core) : Prop where
  slot : slotAt e k = some y
  others : ∀ j, j ≠ k → slotAt e j = slotAt c j
  rest : e = { c with host := { c.host with slots := e.host.slots }, twin := { c.twin with carry := e.twin.carry } }

theorem Opened.begun (k : Nat) (x : SlotSt) (c : Core) :
    Opened k { x with started := true, visible := c.seq.now + 1 } c (begun k x c) :=
  ⟨begun_slot k x c, fun j hj => begun_other k j x c hj, by rw [begun_eq]⟩

theorem Opened.now {k : Nat} {y : SlotSt} {c e : Core} (h : Opened k y c e) : e.seq.now = c.seq.now := by rw [h.rest]

theorem Opened.chAt {k : Nat} {y : SlotSt} {c e : Core} (h : Opened k y c e) (n : Nat) : chAt e n = chAt c n := by rw [h.rest]; rfl

theorem setDeadline_slot (k t : Nat) (c : Core) (y : SlotSt) (h : slotAt c k = some y) :
    setDeadline k t c = setSlot k (some { y with deadline := deadlineOf c t }) c := by
  unfold setDeadline
  rw [h]

theorem Opened.setDeadline {k : Nat} {y : SlotSt} {c e : Core} (h : Opened k y c e) (t : Nat) :
    Opened k { y with deadline := deadlineOf c t } c (setDeadline k t e) := by
  have hd : deadlineOf e t = deadlineOf c t := by unfold deadlineOf; rw [h.now]
  rw [setDeadline_slot k t e y h.slot, hd]
  refine ⟨by simp, fun j hj => ?_, ?_⟩
  · rw [slotAt_setSlot, if_neg (Ne.symm hj), h.others j hj]
  · unfold setSlot
    rw [h.rest]

/-! ### One delivery at all of its portals -/

/-- What delivering the operation `y` of slot `k` at the portals of mask `m` does to `c`: each channel by `A`; the operation's own part
ends with `u` where `E` says so, and stays open otherwise; the parts of other PORTAL_REQUESTs there end with `v`; nothing else
(R116, R117, R124). -/
structure AtPortals (k m u v : Nat) (E : ChannelSt → Prop) (A : ChannelSt → ChannelSt → Prop) (y : SlotSt) (c e : Core) : Prop where
  rest : e = { c with
    host := { c.host with slots := e.host.slots, finished := e.host.finished }
    seq := { c.seq with channels := e.seq.channels }, twin := { c.twin with carry := e.twin.carry } }
  unnamed : ∀ p, ¬ (p < 12 ∧ bitOf m p = true) → chAt e p = chAt c p
  chan : ∀ p, p < 12 ∧ bitOf m p = true → A (chAt c p) (chAt e p)
  own : ∃ z, slotAt e k = some z ∧ z = { y with ended := z.ended, done := z.done } ∧ ∀ p, p < 12 ∧ bitOf m p = true →
    (E (chAt c p) → tget 0 z.ended p = u ∧ partOpen z p = false) ∧ (¬ E (chAt c p) → partOpen z p = true)
  others : ∀ j w, j < 512 → j ≠ k → slotAt c j = some w → ∃ z, slotAt e j = some z ∧ z = { w with ended := z.ended, done := z.done } ∧
    ∀ p, p < 12 ∧ bitOf m p = true → slotOp w = 0x10 → partOpen w p = true → tget 0 z.ended p = v ∧ partOpen z p = false

/-- A delivery that acts portal by portal acts at all portals of its mask, and may then complete. -/
theorem atPortals_closeParts {k m u v : Nat} {E : ChannelSt → Prop} {A : ChannelSt → ChannelSt → Prop} {F : Core → Nat → Core}
    {y : SlotSt} {c e : Core} (hk : k < 512) (hopened : Opened k y c e) (hopen : ∀ p, p ∈ portalsOf m → partOpen y p = true)
    (hF : ∀ p d z, p < 12 → d.seq.now = c.seq.now → slotAt d k = some z → PartsEnded y z → partOpen z p = true →
      AtPortal k p u v E A z d (F d p)) :
    AtPortals k m u v E A y c (closeParts k ((portalsOf m).foldl F e)) := by
  obtain ⟨⟨l, n, t, hfold⟩, hunnamed, hchan, ⟨z, hz, hyz, -, hparts⟩, hothers⟩ :=
    portals_fold k u v E A F y c.seq.now hF (portalsOf m) e y (portalsOf_nodup m) hopened.now hopened.slot (.refl y)
      fun p hp => ⟨((mem_portalsOf m p).mp hp).1, hopen p hp⟩
  generalize (portalsOf m).foldl F e = r at hfold hunnamed hchan hz hothers ⊢
  obtain ⟨l', n', hclose⟩ := closeParts_host k r
  obtain ⟨z', hz', hzz', hkeep⟩ := closeParts_slot k r z hk hz
  have hch : ∀ p, chAt (closeParts k r) p = chAt r p := fun p => by rw [hclose]; rfl
  refine ⟨?_, fun p hp => ?_, fun p hp => ?_, ⟨z', hz', (hyz.trans hzz').same, fun p hp => ?_⟩, fun j w hj hjk hw => ?_⟩
  · rw [hclose, hfold, hopened.rest]
  · rw [hch, hunnamed p (fun hm => hp ((mem_portalsOf m p).mp hm)), hopened.chAt]
  · rw [hch, ← hopened.chAt]
    exact hchan p ((mem_portalsOf m p).mpr hp)
  · rw [← hopened.chAt]
    obtain ⟨hends, hstays⟩ := hparts p ((mem_portalsOf m p).mpr hp)
    refine ⟨fun hE => ?_, fun hE => hkeep p hp.1 (hstays hE)⟩
    obtain ⟨hu, hclosed⟩ := hends hE
    obtain ⟨hclosed', hu'⟩ := hzz'.keep p hclosed
    exact ⟨hu'.trans hu, hclosed'⟩
  · obtain ⟨w', hw', hww', hv⟩ := hothers j w hj hjk ((hopened.others j hjk).trans hw)
    exact ⟨w', (closeParts_other k j r hjk).trans hw', hww'.same, fun p hp => hv p ((mem_portalsOf m p).mpr hp)⟩

/-- PORTAL_REQUEST at its portals (R116, R124, R125). -/
theorem requestDeliver_atPortals (k : Nat) (x : SlotSt) (c : Core) (hk : k < 512) (hx : Ready k 0x10 x c) (hm : x.mask = heldMask x.desc)
    (he : x.ended = []) (hr : x.reached = 0) (h1 : 1 ≤ byteAt x.desc 10) (h4 : byteAt x.desc 10 ≤ 4) :
    AtPortals k (field x.desc 8 2) 0x4101 0x4000 (fun a => a.stopAt = some c.seq.now) (requestChan c.seq.now (byteAt x.desc 10))
      { x with started := true, visible := c.seq.now + 1, deadline := deadlineOf c (field x.desc 12 2) } c
      (requestDeliver k x.desc (begun k x c)) := by
  refine atPortals_closeParts hk ((Opened.begun k x c).setDeadline _)
    (fun p hp => partOpen_fresh _ p (.inl hx.opcode) rfl hx.running hm he hr hp) fun p d z _ hnow hz hyz hopen => ?_
  have hop : slotOp z = 0x10 := by rw [hyz.same]; exact hx.opcode
  have hvisible : z.visible ≤ d.seq.now + 1 := Nat.le_of_eq (by rw [hyz.same, hnow])
  have hreq : byteAt z.desc 10 = byteAt x.desc 10 := by rw [hyz.same]
  rw [← hnow]
  exact atPortal_request k _ p d z hk hz hop hopen hvisible hreq h1 h4

/-- PORTAL_STOP at its portals (R117, R124, R125). -/
theorem stopDeliver_atPortals (k : Nat) (x : SlotSt) (c : Core) (hk : k < 512) (hx : Ready k 0x11 x c) (hm : x.mask = heldMask x.desc)
    (he : x.ended = []) (hr : x.reached = 0) :
    AtPortals k (field x.desc 8 2) 0 0x4101 (fun _ => False) (stopChan c.seq.now (byteAt x.desc 10 == 2))
      { x with started := true, visible := c.seq.now + 1 } c (stopDeliver k x.desc (begun k x c)) := by
  refine atPortals_closeParts hk (Opened.begun k x c)
    (fun p hp => partOpen_fresh _ p (.inr hx.opcode) rfl hx.running hm he hr hp) fun p d z _ hnow hz _ hopen => ?_
  rw [← hnow]
  exact atPortal_stop k p _ d z hz hopen

/-! ### CAR_REQUEST (R118) -/

theorem endCar_none (st d r0 : Nat) (c : Core) (h : c.seq.carSlot = none) : endCar st d r0 c = c := by
  unfold endCar
  rw [h]

theorem endCar_some (st d r0 : Nat) (c : Core) (j : Nat) (h : c.seq.carSlot = some j) : ∃ code,
    endCar st d r0 c = finish j st d r0 0 (setHf 12 code false { c with seq.carSlot := none }) ∧
      ∀ y, slotAt c j = some y → code = byteAt y.desc 8 := by
  unfold endCar
  rw [h]
  exact ⟨_, rfl, fun y hy => by rw [hy]⟩

/-- The end of the CAR_REQUEST in flight: its slot ends, its flag is cleared, and nothing else changes (R118, R124). -/
structure CarEnded (st d r0 : Nat) (c e : Core) : Prop where
  rest : e = { c with
    host := { c.host with slots := e.host.slots, finished := e.host.finished }
    seq := { c.seq with channels := e.seq.channels, carSlot := none } }
  ended : ∀ j y, c.seq.carSlot = some j → slotAt c j = some y → y.done = none → j < 512 → Ended j st d r0 0 e
  slots : ∀ j, c.seq.carSlot ≠ some j → slotAt e j = slotAt c j
  chans : ∀ p, p ≠ 12 → chAt e p = chAt c p
  chan : chAt e 12 = { chAt c 12 with hf := (chAt e 12).hf }
  idle : c.seq.carSlot = none → (chAt e 12).hf = (chAt c 12).hf
  flag : ∀ j y, c.seq.carSlot = some j → slotAt c j = some y → (chAt e 12).hf = setBit (chAt c 12).hf (byteAt y.desc 8) false

theorem endCar_spec (st d r0 : Nat) (c : Core) : CarEnded st d r0 c (endCar st d r0 c) := by
  cases h : c.seq.carSlot with
  | none =>
    rw [endCar_none st d r0 c h]
    exact ⟨by rw [← h], fun j _ hj => (by rw [h] at hj; cases hj), fun _ _ => rfl, fun _ _ => rfl, rfl, fun _ => rfl,
      fun j _ hj => (by rw [h] at hj; cases hj)⟩
  | some i =>
    obtain ⟨code, hend, hcode⟩ := endCar_some st d r0 c i h
    obtain ⟨l, n, hfin⟩ := finish_host i st d r0 0 (setHf 12 code false { c with seq.carSlot := none })
    have hch : ∀ p, chAt (endCar st d r0 c) p = if 12 = p then { chAt c 12 with hf := setBit (chAt c 12).hf code false } else chAt c p :=
      fun p => by rw [hend, hfin]; exact chAt_setHf 12 p code false { c with seq.carSlot := none }
    refine ⟨by rw [hend, hfin]; rfl, fun j y hj hy hd hlt => ?_, fun j hj => ?_, fun p hp => ?_, ?_, fun hn => ?_, fun j y hj hy => ?_⟩
    · rw [h] at hj
      cases hj
      rw [hend]
      exact finish_ends i st d r0 0 (setHf 12 code false { c with seq.carSlot := none }) y hy hd hlt
    · have hji : j ≠ i := fun e => hj (by rw [h, e])
      rw [hend, finish_other i st d r0 0 _ j hji]
      rfl
    · rw [hch, if_neg (Ne.symm hp)]
    · rw [hch, if_pos rfl]
    · rw [h] at hn
      cases hn
    · rw [h] at hj
      cases hj
      rw [hch, if_pos rfl, hcode y hy]

/-- CAR_REQUEST is delivered: the earlier one ends, then the slot takes its deadline and channel 12 its flag (R118, R124). -/
theorem carDeliver_spec (k : Nat) (x : SlotSt) (c : Core) (hne : c.seq.carSlot ≠ some k) : ∃ e, CarEnded 0x40 0 0 (begun k x c) e ∧
    (∀ j, slotAt (carDeliver k x.desc (begun k x c)) j = if k = j then
      some { x with started := true, visible := c.seq.now + 1, deadline := deadlineOf c (field x.desc 12 2) } else slotAt e j) ∧
    (∀ p, chAt (carDeliver k x.desc (begun k x c)) p = if 12 = p then
      { chAt e 12 with hf := setBit (chAt e 12).hf (byteAt x.desc 8) true } else chAt e p) ∧
    ∃ l n t w, carDeliver k x.desc (begun k x c) = { c with
      host := { c.host with slots := l, finished := n }, seq := { c.seq with channels := t, carSlot := some k }
      twin := { c.twin with carry := w } } := by
  have hbegun := Opened.begun k x c
  have hcar := endCar_spec 0x40 0 0 (begun k x c)
  generalize he : endCar 0x40 0 0 (begun k x c) = e at hcar
  have hslot : slotAt { e with seq.carSlot := some k } k = some { x with started := true, visible := c.seq.now + 1 } :=
    (hcar.slots k (by rw [hbegun.rest]; exact hne)).trans hbegun.slot
  have hdeadline : deadlineOf { e with seq.carSlot := some k } (field x.desc 12 2) = deadlineOf c (field x.desc 12 2) := by
    unfold deadlineOf
    rw [hcar.rest, hbegun.rest]
  have hdel : carDeliver k x.desc (begun k x c) = setHf 12 (byteAt x.desc 8) true (setSlot k
      (some { x with started := true, visible := c.seq.now + 1, deadline := deadlineOf c (field x.desc 12 2) })
      { e with seq.carSlot := some k }) := by
    unfold carDeliver
    rw [he]
    exact congrArg (setHf 12 (byteAt x.desc 8) true) ((setDeadline_slot k _ _ _ hslot).trans (by rw [hdeadline]))
  rw [hdel]
  refine ⟨e, hcar, fun j => slotAt_setSlot k j _ _, fun p => chAt_setHf 12 p _ true _, ?_⟩
  unfold setHf setSlot
  rw [hcar.rest, hbegun.rest]
  exact ⟨_, _, _, _, rfl⟩

/-! ### SET_FLAGS (R118) -/

theorem chAt_foldChan (g : ChannelSt → ChannelSt) (l : List Nat) (hl : l.Nodup) (c : Core) (n : Nat) :
    chAt (l.foldl (fun c n => setChan n (g (chAt c n)) c) c) n = if n ∈ l then g (chAt c n) else chAt c n := by
  induction l generalizing c with
  | nil => rfl
  | cons a r ih =>
    obtain ⟨ha, hr⟩ := List.nodup_cons.mp hl
    rw [List.foldl_cons, ih hr]
    simp only [chAt_setChan, List.mem_cons]
    by_cases hn : n = a
    · subst hn
      simp [ha]
    · simp [hn, Ne.symm hn]

/-- The channel after SET_FLAGS: what is in both masks is cleared (R118). -/
def writeFlags (on off : BitVec 16) (h : ChannelSt) : ChannelSt := { h with hf := (h.hf ||| on) &&& ~~~off }

/-- The channels that SET_FLAGS names, written one after the other. -/
def writeNamed (m : Nat) (on off : BitVec 16) (c : Core) : Core :=
  ((List.range 13).filter fun n => bitOf m n).foldl (fun c n => setChan n (writeFlags on off (chAt c n)) c) c

theorem flagsDeliver_eq (k : Nat) (d : Bytes) (c : Core) : flagsDeliver k d c = finish k 0x00 0 (field d 8 2) 0
    (writeNamed (field d 8 2) (BitVec.ofNat 16 (field d 10 2)) (BitVec.ofNat 16 (field d 12 2)) c) := rfl

theorem writeNamed_only (m : Nat) (on off : BitVec 16) (c : Core) : ∃ t, writeNamed m on off c = { c with seq.channels := t } :=
  foldCh_only _ (fun _ _ => ⟨_, rfl⟩) _ c

theorem chAt_writeNamed (m : Nat) (on off : BitVec 16) (c : Core) (n : Nat) : chAt (writeNamed m on off c) n =
    if n < 13 ∧ bitOf m n = true then writeFlags on off (chAt c n) else chAt c n := by
  have hmem : n ∈ (List.range 13).filter (fun n => bitOf m n) ↔ n < 13 ∧ bitOf m n = true := by simp
  rw [writeNamed, chAt_foldChan _ _ (List.nodup_range.filter _)]
  simp only [hmem]

/-- SET_FLAGS ends in its delivery, once the channels that it names are written (R118). -/
theorem flagsDeliver_spec (k : Nat) (x : SlotSt) (c : Core) (hk : k < 512) (hd : x.done = none) :
    EndsOp k x 0x00 0 (field x.desc 8 2) 0
      { c with seq := { c.seq with channels := (flagsDeliver k x.desc (begun k x c)).seq.channels } }
      (flagsDeliver k x.desc (begun k x c)) ∧
    ∀ n, chAt (flagsDeliver k x.desc (begun k x c)) n = if n < 13 ∧ bitOf (field x.desc 8 2) n = true then
      writeFlags (BitVec.ofNat 16 (field x.desc 10 2)) (BitVec.ofNat 16 (field x.desc 12 2)) (chAt c n) else chAt c n := by
  rw [flagsDeliver_eq]
  obtain ⟨t, hw⟩ := writeNamed_only (field x.desc 8 2) (BitVec.ofNat 16 (field x.desc 10 2)) (BitVec.ofNat 16 (field x.desc 12 2)) (begun k x c)
  have hch := chAt_writeNamed (field x.desc 8 2) (BitVec.ofNat 16 (field x.desc 10 2)) (BitVec.ofNat 16 (field x.desc 12 2)) (begun k x c)
  simp only [(Opened.begun k x c).chAt] at hch
  generalize writeNamed _ _ _ (begun k x c) = w at hw hch ⊢
  obtain ⟨g, hf⟩ := finish_only k 0x00 0 (field x.desc 8 2) 0 w
  have hchannels : (finish k 0x00 0 (field x.desc 8 2) 0 w).seq.channels = t := by rw [hf, hw]
  refine ⟨?_, fun n => ?_⟩
  · rw [hchannels]
    refine ends_op k x _ _ _ _ _ _ hk hd ?_
    rw [hw, begun_eq, carryOp_congr x.desc c { c with seq := { c.seq with channels := t } } rfl]
  · rw [hf]
    exact hch n

/-! ### The commands -/

/-- A command that starts an operation delivers it where it is ready (R94). -/
theorem runs_ready {i : Instr} {op : Nat} {f : Bytes → Core → Core} {k : Nat} {x : SlotSt} {s : State} (hx : Ready k op x s.core)
    (hi : Runs i s { s with core := startOp k op f s.core }) : Runs i s { s with core := f x.desc (begun k x s.core) } := by
  rw [← startOp_begun k op f s.core x hx]
  exact hi

/-- Settles O56: the two portal operations at all of their portals, CAR_REQUEST after the end of the earlier one, SET_FLAGS. -/
theorem channelOperations : Obligations.ChannelOperations := by
  intro s k x
  refine ⟨fun hx hm he hr h1 h4 => ⟨_, runs_ready hx rfl, ?_⟩, fun hx hm he hr => ⟨_, runs_ready hx rfl, ?_⟩,
    fun hx hne => ⟨_, runs_ready hx rfl, ?_⟩, fun hx => ⟨_, runs_ready hx rfl, rfl, flagsDeliver_spec k x s.core k.isLt hx.running⟩⟩
  · obtain ⟨hrest, hunnamed, hchan, ⟨z, hz, hsame, hparts⟩, hothers⟩ :=
      requestDeliver_atPortals k x s.core k.isLt hx hm he hr h1 h4
    exact ⟨congrArg (fun c => { s with core := c }) hrest, hothers, hunnamed, fun p hp => (hchan p hp).2,
      fun p hp hstop => ((hchan p hp).1 hstop).imp_right fun hkept b hb _ => hkept b hb, z, hz, hsame, hparts⟩
  · obtain ⟨hrest, hunnamed, hchan, ⟨z, hz, hsame, hparts⟩, hothers⟩ := stopDeliver_atPortals k x s.core k.isLt hx hm he hr
    exact ⟨congrArg (fun c => { s with core := c }) hrest, hothers, hunnamed, hchan, z, hz, hsame, fun p hp => (hparts p hp).2 id⟩
  · have hbegun := Opened.begun k x s.core
    have hcarSlot : (begun k x s.core).seq.carSlot = s.core.seq.carSlot := by rw [hbegun.rest]
    obtain ⟨e, hcar, hslot, hch, l, n, t, w, hrest⟩ := carDeliver_spec k x s.core hne
    have hother : ∀ {j}, s.core.seq.carSlot = some j → j ≠ k := fun hj hjk => hne (hjk ▸ hj)
    have hch12 := (hch 12).trans (if_pos rfl)
    have hearlier : ∀ {j y}, s.core.seq.carSlot = some j → slotAt s.core j = some y → slotAt (begun k x s.core) j = some y :=
      fun hj hy => (hbegun.others _ (hother hj)).trans hy
    refine ⟨(hslot k).trans (if_pos rfl), fun j y hj hy hd hlt => ?_, fun j hjk hj => ?_, fun p hp => ?_, ?_, fun hnone => ?_,
      fun j y hj hy => ?_, congrArg (fun c => { s with core := c }) (by rw [hrest])⟩
    · obtain ⟨z, r, hz, hends⟩ := hcar.ended j y (hcarSlot.trans hj) (hearlier hj hy) hd hlt
      exact ⟨z, r, ((hslot j).trans (if_neg (Ne.symm (hother hj)))).trans hz, hends⟩
    · rw [hslot, if_neg (Ne.symm hjk), hcar.slots j (by rw [hcarSlot]; exact hj), hbegun.others j hjk]
    · rw [hch, if_neg (Ne.symm hp), hcar.chans p hp, hbegun.chAt]
    · rw [hch12, hcar.chan, hbegun.chAt]
    · rw [hch12, hcar.idle (hcarSlot.trans hnone), hbegun.chAt]
    · rw [hch12, hcar.flag j y (hcarSlot.trans hj) (hearlier hj hy), hbegun.chAt]

end Sys2Proof.Machine
end

section
/-! SUPPORT. The cam cache as its commands meet it: what a request for a table finds, how a page-in starts, and how its data end it
(R136, R148, R187 to R194). -/

namespace Sys2Proof.Machine

/-- The page of number `g` (R187). -/
abbrev pageAt (c : Core) (g : Nat) : PageSt := tget {} c.cam.pages g

/-! ### The pager: what it finds waiting, and what it starts -/

theorem pageOf_congr {c e : Core} (h : e.cam = c.cam) (id : Nat) : pageOf e id = pageOf c id := by
  unfold pageOf
  rw [h]

theorem pins_congr {c e : Core} (h : e.cam = c.cam) : pins e = pins c := by
  unfold pins
  rw [h]

theorem pagerStep_empty (c : Core) (h : c.cam.queue = []) : pagerStep c = c := by
  unfold pagerStep nextPageIn
  rw [h]
  exact ite_self c

theorem pagerStep_busy (c : Core) (h : c.cam.cur ≠ none) : pagerStep c = c :=
  if_pos (Option.isSome_iff_ne_none.mpr h)

theorem touch_hit (id g : Nat) (c : Core) (h : pageOf c id = some g) :
    touch id c = setPage g { pageAt c g with lastUse := readTb islMot c } c := by
  unfold touch
  rw [h]

/-- An operation's request for a table that a page holds is served by that page (R188). -/
theorem pageRequest_hit (id k g : Nat) (c : Core) (h : pageOf c id = some g) :
    pageRequest id (some k) c = camServe id g (setPage g { pageAt c g with lastUse := readTb islMot c } c) := by
  unfold pageRequest
  rw [h, ← touch_hit id g c h]
  rfl

/-- A request joins the page-in of its table, and a request that waits already does not wait twice (R188). -/
theorem pageRequest_joins (id k : Nat) (c : Core) (h : pageOf c id = none)
    (hj : (∃ w, c.cam.cur = some w ∧ w.1 = id) ∨ (id, some k) ∈ c.cam.queue) : pageRequest id (some k) c = c := by
  unfold pageRequest
  rw [h]
  refine if_pos ?_
  obtain ⟨w, hw, hid⟩ | hq := hj
  · simp [hw, hid]
  · simp [hq]

/-- Any other request waits its turn (R188). -/
theorem pageRequest_queues (id k : Nat) (c : Core) (h : pageOf c id = none) (hq : (id, some k) ∉ c.cam.queue)
    (hc : ∀ w, c.cam.cur = some w → w.1 ≠ id) :
    pageRequest id (some k) c =
      if standbyIn c then { c with cam := { c.cam with queue := c.cam.queue ++ [(id, some k)] } }
      else pagerRun { c with cam := { c.cam with queue := c.cam.queue ++ [(id, some k)] } } := by
  have hother : (c.cam.cur.any fun e => e.1 == id) = false := by
    cases hcur : c.cam.cur with
    | none => rfl
    | some w => simpa using hc w hcur
  unfold pageRequest
  rw [h]
  exact if_neg (by simp [hother, hq])

/-- A synchronised standby keeps the request, and a pager at work takes it later (R188, R194). -/
theorem pageRequest_waits (id k : Nat) (c : Core) (h : pageOf c id = none) (hq : (id, some k) ∉ c.cam.queue)
    (hc : ∀ w, c.cam.cur = some w → w.1 ≠ id) (hw : standbyIn c = true ∨ c.cam.cur ≠ none) :
    pageRequest id (some k) c = { c with cam := { c.cam with queue := c.cam.queue ++ [(id, some k)] } } := by
  rw [pageRequest_queues id k c h hq hc]
  obtain hs | hb := hw
  · exact if_pos hs
  · rw [pagerRun_busy { c with cam := { c.cam with queue := c.cam.queue ++ [(id, some k)] } } hb]
    exact ite_self _

theorem startPageIn_absent (id : Nat) (c : Core) (h : ∀ dir, ¬ (c.run.dir = some dir ∧ dirPresent dir id = true)) :
    startPageIn id c = camFail id 1 c := by
  unfold startPageIn
  cases hd : c.run.dir with
  | none => rfl
  | some dir => exact if_pos (by simpa using fun hp => h dir ⟨hd, hp⟩)

theorem startPageIn_unreachable (id : Nat) (dir : Image) (c : Core) (hd : c.run.dir = some dir) (hp : dirPresent dir id = true)
    (h : portUp c = false ∨ c.bar.lib = 0) : startPageIn id c = camFail id 2 c := by
  unfold startPageIn
  rw [hd]
  dsimp only
  rw [if_neg (by simp [hp]), if_pos (by simpa using h)]

/-- The host answers, and no page can be given up: nothing starts (R189). -/
theorem startPageIn_full (id : Nat) (dir : Image) (c : Core) (hd : c.run.dir = some dir) (hp : dirPresent dir id = true)
    (hu : portUp c = true) (hl : c.bar.lib ≠ 0) (hv : victim c = none) : startPageIn id c = c := by
  have hl' : ¬ c.bar.lib = 0 := hl
  unfold startPageIn
  rw [hd]
  dsimp only
  rw [if_neg (by simp [hp]), if_neg (by simpa [hu] using hl'), hv]

/-- The table is read into the page that the pager gives up (R189, R190). -/
theorem startPageIn_reads (id g : Nat) (dir : Image) (c : Core) (hd : c.run.dir = some dir) (hp : dirPresent dir id = true)
    (hu : portUp c = true) (hl : c.bar.lib ≠ 0) (hv : victim c = some g) : startPageIn id c =
      hostReads (c.bar.lib.toNat + img32 dir (dirEntry id)) (dirLen dir id) { c with cam := { c.cam with
        pages := tset {} c.cam.pages g { state := 1, table := id }
        cur := some (id, g, 1, c.bar.lib.toNat + img32 dir (dirEntry id)) } } := by
  have hl' : ¬ c.bar.lib = 0 := hl
  unfold startPageIn
  rw [hd]
  dsimp only
  rw [if_neg (by simp [hp]), if_neg (by simpa [hu] using hl'), hv]
  rfl

theorem hostReads_cam (a n : Nat) (c : Core) : (hostReads a n c).cam = c.cam := by
  obtain ⟨o, h⟩ := hostReads_only a n c
  rw [h]

theorem camFail_queue (id reason : Nat) (c : Core) : (camFail id reason c).cam.queue = c.cam.queue.filter (fun e => e.1 != id) := by
  obtain ⟨-, -, -, -, hrest⟩ := camFail_facts id reason c
  rw [hrest]

/-- With nothing else waiting, the pager rests once a page-in has failed (R188, R191). -/
theorem pagerRun_camFail (id reason : Nat) (c : Core) (h : c.cam.queue = []) : pagerRun (camFail id reason c) = camFail id reason c :=
  pagerRun_empty _ (by rw [camFail_queue, h]; rfl)

/-- A page-in that starts leaves no other waiting where none waited (R188). -/
theorem startPageIn_queue (id : Nat) (c : Core) (h : c.cam.queue = []) : (startPageIn id c).cam.queue = [] := by
  have hfail : ∀ reason, (camFail id reason c).cam.queue = [] := fun reason => by rw [camFail_queue, h]; rfl
  by_cases hp : ∃ dir, c.run.dir = some dir ∧ dirPresent dir id = true
  · obtain ⟨dir, hd, hp⟩ := hp
    by_cases hr : portUp c = false ∨ c.bar.lib = 0
    · rw [startPageIn_unreachable id dir c hd hp hr]
      exact hfail 2
    · obtain ⟨hu, hl⟩ := not_or.mp hr
      have hup := eq_true_of_ne_false hu
      cases hv : victim c with
      | none => rwa [startPageIn_full id dir c hd hp hup hl hv]
      | some g =>
        rw [startPageIn_reads id g dir c hd hp hup hl hv, hostReads_cam]
        exact h
  · rw [startPageIn_absent id c (not_exists.mp hp)]
    exact hfail 1

/-- An idle pager takes the request that comes next, and starts its page-in (R188). -/
theorem pagerStep_starts (id : Nat) (k : Option Nat) (c : Core) (hc : c.cam.cur = none) (hn : nextPageIn c = some (id, k))
    (h : pageOf c id = none) :
    pagerStep c = startPageIn id { c with cam := { c.cam with queue := c.cam.queue.erase (id, k) } } := by
  have hpage : pageOf { c with cam := { c.cam with queue := c.cam.queue.erase (id, k) } } id = none := h
  unfold pagerStep
  rw [if_neg (by rw [hc]; decide), hn]
  dsimp only
  rw [hpage]

/-- An idle pager with nothing waiting starts a request's page-in at once (R188). -/
theorem pageRequest_starts (id k : Nat) (c : Core) (h : pageOf c id = none) (hq : c.cam.queue = []) (hc : c.cam.cur = none)
    (hs : standbyIn c = false) : pageRequest id (some k) c = startPageIn id c := by
  rw [pageRequest_queues id k c h (by rw [hq]; exact List.not_mem_nil) (by rw [hc]; nofun), if_neg (by rw [hs]; decide), hq]
  have hfirst := pagerStep_starts id (some k) { c with cam := { c.cam with queue := [(id, some k)] } } hc rfl h
  have hempty : ({ c with cam := { c.cam with queue := [(id, some k)].erase (id, some k) } } : Core) = c := by
    rw [List.erase_cons_head, ← hq]
  rw [hempty] at hfirst
  show pagerStep (pagerStep _) = _
  rw [List.nil_append, hfirst]
  exact pagerStep_empty _ (startPageIn_queue id c hq)

/-! ### A page-in that fails (R191) -/

/-- What a failed page-in of table `id` makes of `c`: the operations that wait for it end with the reason, no page-in is in progress, and
the channels are to learn of it (R191). What the host port counts and the twin is told is left to the command. -/
structure PageInFails (id reason : Nat) (c t : Core) : Prop where
  ends : ∀ j y, (j, id) ∈ c.cam.waits → j < 512 → slotAt c j = some y → y.done = none →
    Ended j (camStatus reason).1 (camStatus reason).2 0 (pins t) t
  retry : c.cam.cur ≠ none ∨ c.cam.retry = false → t.cam.retry = false
  rest : t = { c with
    recd := t.recd
    host := { c.host with slots := t.host.slots, finished := t.host.finished, counters := t.host.counters }
    twin := { c.twin with carry := t.twin.carry }
    cam := { c.cam with
      pages := t.cam.pages, queue := [], cur := none, retry := t.cam.retry, failed := c.cam.failed ++ [id]
      waits := c.cam.waits.filter (fun e => e.2 != id) } }

/-- A page-in that was in progress fails: its page is free again, and the slots of other operations stay (R191). -/
structure PageInDropped (id reason g : Nat) (c t : Core) : Prop extends PageInFails id reason c t where
  quiet : ∀ j, (j, id) ∉ c.cam.waits → slotAt t j = slotAt c j
  freed : pageAt t g = {}
  pages : ∀ q, q ≠ g → pageAt t q = pageAt c q

/-- The page-in in progress fails for good, in a core that has counted and perhaps tried again (R190, R191). -/
theorem camFail_drops {id reason g n a : Nat} {c d : Core} (hq : c.cam.queue = [])
    (hd : d = { c with
      host := { c.host with counters := d.host.counters }, cam := { c.cam with cur := some (id, g, n, a), retry := d.cam.retry } }) :
    PageInDropped id reason g c (pagerRun (camFail id reason d)) := by
  have hwaits : d.cam.waits = c.cam.waits := by rw [hd]
  have hpages : d.cam.pages = c.cam.pages := by rw [hd]
  have hqueue : d.cam.queue = [] := by rw [hd]; exact hq
  have hslot : ∀ j, slotAt d j = slotAt c j := fun j => by rw [hd]; rfl
  have hdcur : d.cam.cur = some (id, g, n, a) := by rw [hd]
  obtain ⟨hends, hquiet, hdrop, -, hrest⟩ := camFail_facts id reason d
  rw [pagerRun_camFail id reason d hqueue]
  generalize camFail id reason d = t at hends hquiet hdrop hrest ⊢
  obtain ⟨htpages, hretry⟩ := hdrop _ hdcur
  refine ⟨⟨fun j y hj hlt hy hdone => ?_, fun _ => hretry, ?_⟩, fun j hj => ?_, ?_, fun q hqg => ?_⟩
  · exact hends j y (hwaits ▸ hj) hlt ((hslot j).trans hy) hdone
  · rw [hrest, hqueue, hd]
    rfl
  · exact (hquiet j (hwaits ▸ hj)).trans (hslot j)
  · unfold pageAt
    rw [htpages, tget_tset, if_pos rfl]
  · unfold pageAt
    rw [htpages, tget_tset, if_neg (Ne.symm hqg), hpages]

/-! ### CAM_PREFETCH and CAM_PIN (R192) -/

/-- An eighth pin is refused: seven pages are pinned, and the page of table `id`, if one holds it, is neither pinned nor resident (R192). -/
def EighthPin (op id : Nat) (c : Core) : Prop :=
  op = 0x24 ∧ 7 ≤ pins c ∧ ∀ g, pageOf c id = some g → (pageAt c g).pinned = false ∧ (pageAt c g).state ≠ 3

/-- The core in which the operation `x` of slot `k` has started and waits for its table (R192). -/
def wanting (k : Nat) (x : SlotSt) (c : Core) : Core := { c with
  host := { c.host with slots := (begun k x c).host.slots }
  twin := { c.twin with carry := (begun k x c).twin.carry }
  cam := { c.cam with waits := c.cam.waits ++ [(k, field x.desc 8 2)] } }

theorem wanting_slot (k : Nat) (x : SlotSt) (c : Core) :
    slotAt (wanting k x c) k = some { x with started := true, visible := c.seq.now + 1 } := begun_slot k x c

theorem wanting_other (k j : Nat) (x : SlotSt) (c : Core) (h : j ≠ k) : slotAt (wanting k x c) j = slotAt c j := begun_other k j x c h

theorem eighthPin_iff (op id : Nat) (c : Core) : EighthPin op id c ↔
    (op = 0x24 && 7 ≤ pins c && !((pageOf c id).any fun g => (pageAt c g).pinned || (pageAt c g).state == 3)) = true := by
  unfold EighthPin
  cases pageOf c id <;> simp [and_assoc]

/-- An eighth pin ends at once (R192). -/
theorem camWant_eighth (k : Nat) (x : SlotSt) (c : Core) (h : EighthPin (byteAt x.desc 0) (field x.desc 8 2) c) :
    camWant k x.desc (begun k x c) = finish k 0x12 0x28 0 (pins c) (begun k x c) := by
  have hcond := (eighthPin_iff _ _ c).mp h
  rw [begun_eq]
  exact if_pos hcond

/-- Any other CAM_PREFETCH or CAM_PIN asks the pager for its table (R192). -/
theorem camWant_request (k : Nat) (x : SlotSt) (c : Core) (h : ¬ EighthPin (byteAt x.desc 0) (field x.desc 8 2) c) :
    camWant k x.desc (begun k x c) = pageRequest (field x.desc 8 2) (some k) (wanting k x c) := by
  have hcond := mt (eighthPin_iff _ _ c).mpr h
  unfold wanting
  rw [begun_eq]
  exact if_neg hcond

/-- Where no other operation waits for the table, this one is all that waits for it. -/
theorem wanting_alone (k : Nat) (x : SlotSt) (c : Core) (h : ∀ e ∈ c.cam.waits, e.2 ≠ field x.desc 8 2) :
    (wanting k x c).cam.waits.filter (fun e => e.2 == field x.desc 8 2) = [(k, field x.desc 8 2)] ∧
    (wanting k x c).cam.waits.filter (fun e => e.2 != field x.desc 8 2) = c.cam.waits ∧
    ∀ j, (j, field x.desc 8 2) ∈ (wanting k x c).cam.waits → j = k := by
  have hwaits : (wanting k x c).cam.waits = c.cam.waits ++ [(k, field x.desc 8 2)] := rfl
  rw [hwaits]
  refine ⟨?_, ?_, fun j hj => ?_⟩
  · simpa [List.filter_append] using h
  · simpa [List.filter_append, List.filter_eq_self] using h
  · obtain hj | hj := List.mem_append.mp hj
    · exact absurd rfl (h _ hj)
    · exact congrArg Prod.fst (List.mem_singleton.mp hj)

/-- The page of a table serves the operation that asks for it (R188, R189, R192). -/
structure ServedAt (op k g : Nat) (c t : Core) : Prop where
  others : ∀ j, j ≠ k → slotAt t j = slotAt c j
  pages : ∀ q, q ≠ g → pageAt t q = pageAt c q
  page : pageAt t g = { pageAt c g with lastUse := readTb islMot c, pinned := (pageAt t g).pinned }
  plain : op = 0x23 ∨ (pageAt c g).pinned = true ∨ (pageAt c g).state = 3 →
    (pageAt t g).pinned = (pageAt c g).pinned ∧ Ended k 0x00 0 g (pins t) t
  pinning : op = 0x24 → (pageAt c g).pinned = false → (pageAt c g).state ≠ 3 →
    ((pageAt t g).pinned = true ∧ Ended k 0x00 0 g (pins t) t) ∨
    ((pageAt t g).pinned = false ∧ 7 ≤ pins t ∧ Ended k 0x12 0x28 0 (pins t) t)
  rest : t = { c with
    host := { c.host with slots := t.host.slots, finished := t.host.finished }
    twin := { c.twin with carry := t.twin.carry }, cam := { c.cam with pages := t.cam.pages } }

theorem pageRequest_serves {op k g : Nat} {x : SlotSt} {c : Core} (hk : k < 512) (hx : Ready k op x c)
    (hg : pageOf c (field x.desc 8 2) = some g) (alone : ∀ e ∈ c.cam.waits, e.2 ≠ field x.desc 8 2) :
    ServedAt op k g c (pageRequest (field x.desc 8 2) (some k) (wanting k x c)) := by
  obtain ⟨hmine, hrest, hmem⟩ := wanting_alone k x c alone
  rw [pageRequest_hit _ k g (wanting k x c) hg]
  generalize hu : setPage g { pageAt (wanting k x c) g with lastUse := readTb islMot (wanting k x c) } (wanting k x c) = u
  have hslot : ∀ j, slotAt u j = slotAt (wanting k x c) j := fun j => by rw [← hu]; rfl
  have hwaits : u.cam.waits = (wanting k x c).cam.waits := by rw [← hu]; rfl
  have hpage : (tget {} u.cam.pages g : PageSt) = { pageAt c g with lastUse := readTb islMot c } := by
    rw [← hu]
    exact (tget_tset ..).trans (if_pos rfl)
  have hpages : ∀ q, q ≠ g → pageAt u q = pageAt c q := fun q hq => by
    rw [← hu]
    exact (tget_tset ..).trans (if_neg (Ne.symm hq))
  have hopk : ∀ y, slotAt u k = some y → slotOp y = op := fun y hy => by
    rw [hslot, wanting_slot] at hy
    cases hy
    exact hx.opcode
  have hk' : slotAt u k = some { x with started := true, visible := c.seq.now + 1 } := (hslot k).trans (wanting_slot k x c)
  obtain ⟨hquiet, hsame, hform, hplain, hpin, hframe⟩ := camServe_facts (field x.desc 8 2) g u
  generalize camServe (field x.desc 8 2) g u = t at hquiet hsame hform hplain hpin hframe ⊢
  rw [hwaits] at hquiet hplain hpin
  have hpinK := hpin k _ hmine hk hk' hx.running
  rw [hpage] at hform hplain hpinK
  refine ⟨fun j hj => ?_, fun q hq => (hsame q hq).trans (hpages q hq), hform, fun h => ?_, fun h => ?_, ?_⟩
  · rw [hquiet j (fun hm => hj (hmem j hm)), hslot, wanting_other k j x c hj]
  · by_cases hpre : op = 0x24
    · exact (hpinK ((hopk _ hk').trans hpre)).1 (h.resolve_left (by omega))
    · obtain ⟨hsamePin, hends⟩ := hplain fun e he hid y hy => by
        have hek : e.1 = k := hmem e.1 (by rw [← hid]; exact he)
        rw [hopk y (hek ▸ hy)]
        exact hpre
      exact ⟨hsamePin, hends k _ (List.mem_append_right _ (List.mem_singleton.mpr rfl)) hk hk' hx.running⟩
  · exact (hpinK ((hopk _ hk').trans h)).2
  · rw [hframe, hwaits, hrest, ← hu]
    rfl

/-- The page-in that the operation of slot `k` asks for fails at once: the operation ends with the reason, and no page changes (R191,
R192). -/
structure RequestFails (k id reason : Nat) (c t : Core) : Prop extends PageInFails id reason c t where
  own : Ended k (camStatus reason).1 (camStatus reason).2 0 (pins t) t
  others : ∀ j, j ≠ k → slotAt t j = slotAt c j
  pages : t.cam.pages = c.cam.pages

theorem camFail_wanting {k reason : Nat} {x : SlotSt} {c : Core} (hk : k < 512) (hd : x.done = none)
    (hq : c.cam.queue = []) (hc : c.cam.cur = none) (alone : ∀ e ∈ c.cam.waits, e.2 ≠ field x.desc 8 2) :
    RequestFails k (field x.desc 8 2) reason c (camFail (field x.desc 8 2) reason (wanting k x c)) := by
  obtain ⟨-, hothers, hmem⟩ := wanting_alone k x c alone
  obtain ⟨hends, hquiet, -, hidle, hrest⟩ := camFail_facts (field x.desc 8 2) reason (wanting k x c)
  obtain ⟨hpages, hretry⟩ := hidle hc
  have hqueue : (wanting k x c).cam.queue = [] := hq
  generalize camFail (field x.desc 8 2) reason (wanting k x c) = t at hends hquiet hpages hretry hrest ⊢
  refine ⟨⟨fun j y hj => absurd rfl (alone _ hj), fun h => hretry.trans (h.resolve_left (fun hn => hn hc)), ?_⟩, ?_, fun j hj => ?_, hpages⟩
  · have hall : c.cam.waits.filter (fun e => e.2 != field x.desc 8 2) = c.cam.waits := by
      simpa [List.filter_eq_self] using alone
    rw [hrest, hothers, hqueue, hall]
    rfl
  · exact hends k _ (List.mem_append_right _ (List.mem_singleton.mpr rfl)) hk (wanting_slot k x c) hd
  · exact (hquiet j fun hm => hj (hmem j hm)).trans (wanting_other k j x c hj)

/-- The page-in of the table that the operation waits for has started: its page is LOADING, and its data are read (R189, R190, R192). -/
structure ReadStarts (k id g from_ len : Nat) (x : SlotSt) (c t : Core) : Prop where
  slot : slotAt t k = some { x with started := true, visible := c.seq.now + 1 }
  others : ∀ j, j ≠ k → slotAt t j = slotAt c j
  page : pageAt t g = { state := 1, table := id }
  pages : ∀ q, q ≠ g → pageAt t q = pageAt c q
  rest : t = hostReads from_ len { c with
    host := { c.host with slots := t.host.slots }, twin := { c.twin with carry := t.twin.carry }
    cam := { c.cam with waits := c.cam.waits ++ [(k, id)], pages := t.cam.pages, cur := some (id, g, 1, from_) } }

theorem hostReads_starts (k g from_ len : Nat) (x : SlotSt) (c : Core) :
    ReadStarts k (field x.desc 8 2) g from_ len x c (hostReads from_ len { wanting k x c with cam := { (wanting k x c).cam with
      pages := tset {} c.cam.pages g { state := 1, table := field x.desc 8 2 }, cur := some (field x.desc 8 2, g, 1, from_) } }) := by
  generalize hu : ({ wanting k x c with cam := { (wanting k x c).cam with
    pages := tset {} c.cam.pages g { state := 1, table := field x.desc 8 2 }, cur := some (field x.desc 8 2, g, 1, from_) } } : Core) = u
  have hslot : ∀ j, slotAt u j = slotAt (wanting k x c) j := fun j => by rw [← hu]; rfl
  have hpages : u.cam.pages = tset {} c.cam.pages g { state := 1, table := field x.desc 8 2 } := by rw [← hu]
  obtain ⟨o, ho⟩ := hostReads_only from_ len u
  have hhost : (hostReads from_ len u).host = u.host := by rw [ho]
  have htwin : (hostReads from_ len u).twin = u.twin := by rw [ho]
  have hcam := hostReads_cam from_ len u
  have hsame : ∀ j, slotAt (hostReads from_ len u) j = slotAt u j := fun j => by unfold slotAt; rw [hhost]
  refine ⟨?_, fun j hj => ?_, ?_, fun q hq => ?_, ?_⟩
  · rw [hsame, hslot, wanting_slot]
  · rw [hsame, hslot, wanting_other k j x c hj]
  · rw [pageAt, hcam, hpages, tget_tset, if_pos rfl]
  · rw [pageAt, hcam, hpages, tget_tset, if_neg (Ne.symm hq)]
  · rw [hhost, htwin, hcam, ← hu]
    rfl

section
variable {k : Nat} {x : SlotSt} {c : Core} (hg : pageOf c (field x.desc 8 2) = none)
  (hidle : c.cam.cur = none ∧ c.cam.queue = [] ∧ standbyIn c = false)
include hg hidle

theorem wanting_starts : pageRequest (field x.desc 8 2) (some k) (wanting k x c) = startPageIn (field x.desc 8 2) (wanting k x c) :=
  pageRequest_starts _ k (wanting k x c) hg hidle.2.1 hidle.1 hidle.2.2

/-- An idle pager is asked for a table that the directory does not hold (R191). -/
theorem wanting_absent (hk : k < 512) (hd : x.done = none) (alone : ∀ e ∈ c.cam.waits, e.2 ≠ field x.desc 8 2)
    (h : ∀ dir, ¬ (c.run.dir = some dir ∧ dirPresent dir (field x.desc 8 2) = true)) :
    RequestFails k (field x.desc 8 2) 1 c (pageRequest (field x.desc 8 2) (some k) (wanting k x c)) := by
  rw [wanting_starts hg hidle, startPageIn_absent _ (wanting k x c) h]
  exact camFail_wanting hk hd hidle.2.1 hidle.1 alone

/-- An idle pager is asked for a table while the library cannot be read (R191). -/
theorem wanting_unreachable {dir : Image} (hk : k < 512) (hd : x.done = none) (alone : ∀ e ∈ c.cam.waits, e.2 ≠ field x.desc 8 2)
    (hdir : c.run.dir = some dir) (hp : dirPresent dir (field x.desc 8 2) = true) (h : portUp c = false ∨ c.bar.lib = 0) :
    RequestFails k (field x.desc 8 2) 2 c (pageRequest (field x.desc 8 2) (some k) (wanting k x c)) := by
  rw [wanting_starts hg hidle, startPageIn_unreachable _ dir (wanting k x c) hdir hp h]
  exact camFail_wanting hk hd hidle.2.1 hidle.1 alone

section
variable {dir : Image} (hdir : c.run.dir = some dir) (hp : dirPresent dir (field x.desc 8 2) = true) (hu : portUp c = true)
  (hl : c.bar.lib ≠ 0)
include hdir hp hu hl

/-- An idle pager is asked for a table while no page can be given up (R189). -/
theorem wanting_full (hv : victim c = none) : pageRequest (field x.desc 8 2) (some k) (wanting k x c) = wanting k x c := by
  rw [wanting_starts hg hidle, startPageIn_full _ dir (wanting k x c) hdir hp hu hl hv]

/-- An idle pager is asked for a table, and reads it (R189, R190). -/
theorem wanting_reads {g : Nat} (hv : victim c = some g) :
    ReadStarts k (field x.desc 8 2) g (c.bar.lib.toNat + img32 dir (dirEntry (field x.desc 8 2))) (dirLen dir (field x.desc 8 2)) x c
      (pageRequest (field x.desc 8 2) (some k) (wanting k x c)) := by
  rw [wanting_starts hg hidle, startPageIn_reads _ g dir (wanting k x c) hdir hp hu hl hv]
  exact hostReads_starts k g _ _ x c

end
end

/-- CAM_PREFETCH and CAM_PIN deliver the same way (R192). -/
theorem runs_camWant {k : Fin 512} {x : SlotSt} {s : State} : ∀ a ∈ [(Instr.camPrefetch k, 0x23), (.camPin k, 0x24)],
    Ready k a.2 x s.core → Runs a.1 s { s with core := camWant k x.desc (begun k x s.core) } := by
  intro a ha hx
  obtain rfl | ha := List.mem_cons.mp ha
  · exact runs_ready (op := 0x23) (f := camWant k) hx rfl
  · obtain rfl := List.mem_singleton.mp ha
    exact runs_ready (op := 0x24) (f := camWant k) hx rfl

/-! ### CAM_UNPIN (R192) -/

/-- The page of a table is pinned no longer (R192). -/
theorem camUnpin_held {k g : Nat} {x : SlotSt} {c : Core} (hk : k < 512) (hd : x.done = none) (hg : pageOf c (field x.desc 8 2) = some g) :
    let t := camUnpin k x.desc (begun k x c)
    Ended k 0x00 0 g (pins t) t ∧ (∀ j, j ≠ k → slotAt t j = slotAt c j) ∧
      pageAt t g = { pageAt c g with pinned := false } ∧ (∀ q, q ≠ g → pageAt t q = pageAt c q) ∧
      t = { c with
        host := { c.host with slots := t.host.slots, finished := t.host.finished }
        twin := { c.twin with carry := t.twin.carry }, cam := { c.cam with pages := t.cam.pages }, free := t.free } := by
  have hb := Opened.begun k x c
  have hcam : (begun k x c).cam = c.cam := by rw [hb.rest]
  generalize begun k x c = e at hb hcam
  have hge : pageOf e (field x.desc 8 2) = some g := (pageOf_congr hcam _).trans hg
  generalize hu : setPage g { pageAt e g with pinned := false } e = u
  have heq : camUnpin k x.desc e = finish k 0x00 0 g (pins u) u := by
    unfold camUnpin
    rw [hge, ← hu]
  have hslot : ∀ j, slotAt u j = slotAt e j := fun j => by rw [← hu]; rfl
  have hpages : u.cam.pages = tset {} c.cam.pages g { pageAt c g with pinned := false } := by
    rw [← hu]
    unfold setPage pageAt
    rw [hcam]
  obtain ⟨l, n, hfin⟩ := finish_host k 0x00 0 g (pins u) u
  have hends := finish_ends k 0x00 0 g (pins u) u _ ((hslot k).trans hb.slot) hd hk
  have hothers := finish_other k 0x00 0 g (pins u) u
  rw [heq]
  generalize finish k 0x00 0 g (pins u) u = t at hfin hends hothers ⊢
  have htcam : t.cam = u.cam := by rw [hfin]
  refine ⟨pins_congr htcam ▸ hends, fun j hj => ?_, ?_, fun q hq => ?_, ?_⟩
  · rw [hothers j hj, hslot, hb.others j hj]
  · unfold pageAt
    rw [htcam, hpages, tget_tset, if_pos rfl]
  · unfold pageAt
    rw [htcam, hpages, tget_tset, if_neg (Ne.symm hq)]
  · rw [hfin, ← hu]
    unfold setPage
    rw [hb.rest]

/-- The cache does not hold the table: nothing is unpinned, and RESULT0 is a free value (R192, log 5). -/
theorem camUnpin_absent {k : Nat} {x : SlotSt} {c : Core} (hk : k < 512) (hd : x.done = none) (hg : pageOf c (field x.desc 8 2) = none) :
    let t := camUnpin k x.desc (begun k x c)
    (∃ v, v < 2 ^ 32 ∧ Ended k 0x00 0 v (pins c) t) ∧ (∀ j, j ≠ k → slotAt t j = slotAt c j) ∧ t.cam = c.cam ∧
      t = { c with
        host := { c.host with slots := t.host.slots, finished := t.host.finished }
        twin := { c.twin with carry := t.twin.carry }, cam := { c.cam with pages := t.cam.pages }, free := t.free } := by
  have hb := Opened.begun k x c
  have hcam : (begun k x c).cam = c.cam := by rw [hb.rest]
  generalize begun k x c = e at hb hcam
  have hge : pageOf e (field x.desc 8 2) = none := (pageOf_congr hcam _).trans hg
  have heq : camUnpin k x.desc e =
      finish k 0x00 0 ((Config.freeValue e.free).toNat % 2 ^ 32) (pins c) { e with free := e.free + 1 } := by
    rw [← pins_congr hcam]
    unfold camUnpin
    rw [hge]
    rfl
  obtain ⟨l, n, hfin⟩ := finish_host k 0x00 0 ((Config.freeValue e.free).toNat % 2 ^ 32) (pins c) { e with free := e.free + 1 }
  have hends := finish_ends k 0x00 0 ((Config.freeValue e.free).toNat % 2 ^ 32) (pins c) { e with free := e.free + 1 } _ hb.slot hd hk
  have hothers := finish_other k 0x00 0 ((Config.freeValue e.free).toNat % 2 ^ 32) (pins c) { e with free := e.free + 1 }
  rw [heq]
  generalize finish k 0x00 0 _ (pins c) { e with free := e.free + 1 } = t at hfin hends hothers ⊢
  refine ⟨⟨_, Nat.mod_lt _ (by decide), hends⟩, fun j hj => (hothers j hj).trans (hb.others j hj), ?_, ?_⟩
  · rw [hfin]
    exact hcam
  · rw [hfin, hb.rest]

/-! ### PAGE_IN and PAGE_IN_RETRY (R190, R191, R194) -/

/-- A read of the page-in in progress fails: it is tried again up to three times (R190). -/
theorem readFailed_retries (id g n a : Nat) (c : Core) (hcur : c.cam.cur = some (id, g, n, a)) (hn : n < 3) :
    readFailed c = { hpCount 36 c with cam := { c.cam with retry := true } } := by
  unfold readFailed
  rw [hcur]
  dsimp only
  rw [if_neg (by omega), ← hcur]
  rfl

theorem readFailed_fails (id g n a : Nat) (c : Core) (hcur : c.cam.cur = some (id, g, n, a)) (hn : 3 ≤ n) :
    readFailed c = pagerRun (camFail id 2 (hpCount 36 c)) := by
  unfold readFailed
  rw [hcur]
  exact if_pos hn

theorem pageRetry_reads (id g n a : Nat) (c : Core) (hr : c.cam.retry = true) (hcur : c.cam.cur = some (id, g, n, a)) :
    pageRetry c = if portUp c then
        hostReads a (dirLen (c.run.dir.getD {}) id) { c with cam := { c.cam with cur := some (id, g, n + 1, a), retry := false } }
      else readFailed { c with cam := { c.cam with cur := some (id, g, n + 1, a), retry := false } } := by
  unfold pageRetry
  rw [hcur]
  dsimp only
  rw [if_neg (by rw [hr]; decide)]
  rfl

theorem pageRetry_idle (c : Core) (h : c.cam.retry = false ∨ c.cam.cur = none) : pageRetry c = c := by
  unfold pageRetry
  obtain hr | hc := h
  · cases c.cam.cur with
    | none => rfl
    | some w => exact if_pos (by rw [hr]; rfl)
  · rw [hc]

/-- The core after PAGE_IN (R190). -/
def pageInCore (data : HostRead) (c : Core) : Core :=
  if c.cam.retry || c.cam.cur.isNone then c
  else match data.filter (pageLen c) with
    | none => readFailed c
    | some b => pageData b c

theorem runs_pageIn (data : HostRead) (s : State) : Runs (.pageIn data) s { s with core := pageInCore data s.core } := by
  refine congrArg Host.Outcome.next ?_
  unfold pageInCore
  split
  · rfl
  · cases data.filter (pageLen s.core) <;> rfl

theorem pageInCore_idle (data : HostRead) (c : Core) (h : c.cam.retry = true ∨ c.cam.cur = none) : pageInCore data c = c :=
  if_pos (by simpa using h)

theorem pageInCore_busy (data : HostRead) (id g n a : Nat) (c : Core) (hr : c.cam.retry = false) (hcur : c.cam.cur = some (id, g, n, a)) :
    pageInCore data c = match data.filter (pageLen c) with
      | none => readFailed c
      | some b => pageData b c := if_neg (by simp [hr, hcur])

theorem pageLen_busy (id g n a : Nat) (dir : Image) (b : Bytes) (c : Core) (hcur : c.cam.cur = some (id, g, n, a))
    (hd : c.run.dir = some dir) : pageLen c b = (b.length == dirLen dir id) := by
  unfold pageLen
  rw [hcur, hd]

/-- No answer, or one of another length than the table's, is a failed read (R75, R190, log 9). -/
theorem pageInCore_unread (data : HostRead) (id g n a : Nat) (c : Core) (hr : c.cam.retry = false) (hcur : c.cam.cur = some (id, g, n, a))
    (h : data = none ∨ ∃ b dir, data = some b ∧ c.run.dir = some dir ∧ b.length ≠ dirLen dir id) : pageInCore data c = readFailed c := by
  rw [pageInCore_busy data id g n a c hr hcur]
  obtain rfl | ⟨b, dir, rfl, hd, hlen⟩ := h
  · rfl
  · rw [Option.filter_some, if_neg (by simpa [pageLen_busy id g n a dir b c hcur hd] using hlen)]

theorem pageInCore_read (id g n a : Nat) (dir : Image) (b : Bytes) (c : Core) (hr : c.cam.retry = false)
    (hcur : c.cam.cur = some (id, g, n, a)) (hd : c.run.dir = some dir) (hlen : b.length = dirLen dir id) :
    pageInCore (some b) c = pageData b c := by
  rw [pageInCore_busy (some b) id g n a c hr hcur, Option.filter_some,
    if_pos (by simpa [pageLen_busy id g n a dir b c hcur hd] using hlen)]

/-- The third failed read ends the page-in (R190, R191). -/
theorem pageInCore_gives_up (data : HostRead) (id g n a : Nat) (c : Core) (hr : c.cam.retry = false)
    (hcur : c.cam.cur = some (id, g, n, a)) (h : data = none ∨ ∃ b dir, data = some b ∧ c.run.dir = some dir ∧ b.length ≠ dirLen dir id)
    (hn : 3 ≤ n) (hq : c.cam.queue = []) : PageInDropped id 2 g c (pageInCore data c) := by
  rw [pageInCore_unread data id g n a c hr hcur h, readFailed_fails id g n a c hcur hn]
  exact camFail_drops (n := n) (a := a) hq (by rw [← hcur]; rfl)

/-- Without a directory in effect no data are asked for, and none are taken. -/
theorem pageInCore_noDirectory (data : HostRead) (id g n a : Nat) (c : Core) (hr : c.cam.retry = false)
    (hcur : c.cam.cur = some (id, g, n, a)) (hdata : data ≠ none) (hd : c.run.dir = none) : pageInCore data c = c := by
  obtain ⟨b, rfl⟩ := Option.ne_none_iff_exists'.mp hdata
  have hlen : pageLen c b = true := by
    unfold pageLen
    rw [hcur, hd]
  rw [pageInCore_busy (some b) id g n a c hr hcur, Option.filter_some, if_pos hlen]
  show pageData b c = c
  unfold pageData
  rw [hcur, hd]

/-- Data that the directory or the table's own form refuses end the page-in with the reason (R190, R191). -/
theorem pageData_refused (id g n a r : Nat) (dir : Image) (b : Bytes) (c : Core) (hcur : c.cam.cur = some (id, g, n, a))
    (hd : c.run.dir = some dir) (h : pageReason dir id b = some r) : pageData b c = pagerRun (camFail id r c) := by
  unfold pageData
  rw [hcur, hd]
  dsimp only
  rw [h]

/-- The page of table `id` as its data are verified (R189, R190). -/
def freshPage (id : Nat) (b : Bytes) (c : Core) : PageSt := { state := 2, table := id, lastUse := readTb islMot c, data := imgOf b }

/-- The core in which page `g` holds the verified data, the channels that name the table have it, and the standby is sent the page: what
waits for the table is served next (R190, R191, R194). -/
def pageVerified (id g : Nat) (b : Bytes) (c : Core) : Core :=
  let c := camSupplied id (setPage g (freshPage id b c) { c with cam.cur := none, cam.retry := false })
  if standbyFollows c then sendPage g id b c else c

theorem pageData_verified (id g n a : Nat) (dir : Image) (b : Bytes) (c : Core) (hcur : c.cam.cur = some (id, g, n, a))
    (hd : c.run.dir = some dir) (h : pageReason dir id b = none) : pageData b c = pagerRun (camServe id g (pageVerified id g b c)) := by
  unfold pageData
  rw [hcur, hd]
  dsimp only
  rw [h]
  rfl

theorem pageVerified_spec (id g : Nat) (b : Bytes) (c : Core) :
    (∃ h q p, pageVerified id g b c = { c with
      seq := { c.seq with channels := h }, twin := { c.twin with txSeq := q, txPieces := p }
      cam := { c.cam with pages := tset {} c.cam.pages g (freshPage id b c), cur := none, retry := false } }) ∧
    ∀ p, chAt (pageVerified id g b c) p = if p < 12 ∧ (chAt c p).camTable = some id ∧ (chAt c p).camRefused = false then
      { chAt c p with camFault := false } else chAt c p := by
  unfold pageVerified
  dsimp only
  obtain ⟨⟨h, hsup⟩, hch⟩ := camSupplied_spec id (setPage g (freshPage id b c) { c with cam := { c.cam with cur := none, retry := false } })
  generalize camSupplied id _ = e at hsup hch ⊢
  split
  · obtain ⟨q, p, hsend⟩ := sendPage_only g id b e
    rw [hsend]
    exact ⟨⟨h, q, p, by rw [hsup]; rfl⟩, hch⟩
  · exact ⟨⟨h, c.twin.txSeq, c.twin.txPieces, hsup⟩, hch⟩

/-- Verified data serve the operations that wait for their table, and end the CAM_FAULT of the channels that name it (R136, R190 to
R192, R194). -/
structure PageArrives (id g : Nat) (b : Bytes) (c t : Core) : Prop where
  pages : ∀ q, q ≠ g → pageAt t q = pageAt c q
  quiet : ∀ j, (j, id) ∉ c.cam.waits → slotAt t j = slotAt c j
  page : pageAt t g = { freshPage id b c with pinned := (pageAt t g).pinned }
  channels : ∀ p, chAt t p = if p < 12 ∧ (chAt c p).camTable = some id ∧ (chAt c p).camRefused = false then
    { chAt c p with camFault := false } else chAt c p
  plain : (∀ e ∈ c.cam.waits, e.2 = id → ∀ y, slotAt c e.1 = some y → slotOp y ≠ 0x24) → (pageAt t g).pinned = false ∧
    ∀ j y, (j, id) ∈ c.cam.waits → j < 512 → slotAt c j = some y → y.done = none → Ended j 0x00 0 g (pins t) t
  pinning : ∀ j y, c.cam.waits.filter (fun e => e.2 == id) = [(j, id)] → j < 512 → slotAt c j = some y → y.done = none → slotOp y = 0x24 →
    ((pageAt t g).pinned = true ∧ Ended j 0x00 0 g (pins t) t) ∨
    ((pageAt t g).pinned = false ∧ 7 ≤ pins t ∧ Ended j 0x12 0x28 0 (pins t) t)
  rest : t = { c with
    host := { c.host with slots := t.host.slots, finished := t.host.finished }
    seq := { c.seq with channels := t.seq.channels }
    twin := { c.twin with txSeq := t.twin.txSeq, txPieces := t.twin.txPieces }
    cam := { c.cam with
      pages := t.cam.pages, queue := [], cur := none, retry := false
      waits := c.cam.waits.filter (fun e => e.2 != id) } }

theorem pageVerified_arrives (id g : Nat) (b : Bytes) (c : Core) (hq : c.cam.queue = []) :
    PageArrives id g b c (pagerRun (camServe id g (pageVerified id g b c))) := by
  obtain ⟨⟨h, q, p, hv⟩, hch⟩ := pageVerified_spec id g b c
  generalize pageVerified id g b c = v at hv hch
  have hslot : ∀ j, slotAt v j = slotAt c j := fun j => by rw [hv]; rfl
  have hwaits : v.cam.waits = c.cam.waits := by rw [hv]
  have hpages : v.cam.pages = tset {} c.cam.pages g (freshPage id b c) := by rw [hv]
  have hpage : (tget {} v.cam.pages g : PageSt) = freshPage id b c := by rw [hpages, tget_tset, if_pos rfl]
  obtain ⟨hquiet, hsame, hform, hplain, hpin, hframe⟩ := camServe_facts id g v
  rw [pagerRun_empty _ (by rw [hframe, hv]; exact hq)]
  generalize camServe id g v = t at hquiet hsame hform hplain hpin hframe ⊢
  rw [hpage] at hform hplain hpin
  simp only [hslot, hwaits] at hquiet hplain hpin
  refine ⟨fun r hr => ?_, hquiet, hform, fun r => ?_, hplain, fun j y hw hlt hy hd hop => ?_, ?_⟩
  · rw [pageAt, hsame r hr, hpages, tget_tset, if_neg (Ne.symm hr)]
  · rw [← hch r, hframe]
    rfl
  · exact (hpin j y hw hlt hy hd hop).2 rfl (show 2 ≠ 3 by decide)
  · rw [← hq, hframe, hv]

section
variable {id g n a : Nat} {dir : Image} {b : Bytes} {c : Core} (hr : c.cam.retry = false) (hcur : c.cam.cur = some (id, g, n, a))
  (hd : c.run.dir = some dir) (hlen : b.length = dirLen dir id) (hq : c.cam.queue = [])
include hr hcur hd hlen hq

theorem pageInCore_refused {r : Nat} (h : pageReason dir id b = some r) : PageInDropped id r g c (pageInCore (some b) c) := by
  rw [pageInCore_read id g n a dir b c hr hcur hd hlen, pageData_refused id g n a r dir b c hcur hd h]
  exact camFail_drops (n := n) (a := a) hq (by rw [← hcur])

theorem pageInCore_arrives (h : pageReason dir id b = none) : PageArrives id g b c (pageInCore (some b) c) := by
  rw [pageInCore_read id g n a dir b c hr hcur hd hlen, pageData_verified id g n a dir b c hcur hd h]
  exact pageVerified_arrives id g b c hq

end

/-- A retry that the port cannot read, after two attempts, ends the page-in (R190, R191). -/
theorem pageRetry_gives_up (id g n a : Nat) (c : Core) (hr : c.cam.retry = true) (hcur : c.cam.cur = some (id, g, n, a))
    (hp : portUp c = false) (hn : 2 ≤ n) (hq : c.cam.queue = []) : PageInDropped id 2 g c (pageRetry c) := by
  rw [pageRetry_reads id g n a c hr hcur, if_neg (by rw [hp]; decide), readFailed_fails id g (n + 1) a _ rfl (by omega)]
  exact camFail_drops (n := n + 1) (a := a) hq rfl

/-! ### The verdict at the TICK (R148, R191) -/

/-- A START_MOVE that waits for the one table whose page-in has failed starts nothing (R148). -/
theorem camVerdicts_waiting (id p : Nat) (c : Core) (hf : c.cam.failed = [id]) (hn : pageOf c id = none) (hp : p < 12)
    (h : ∀ r, (msAt c p).waiting = some r → r.manual = none ∧ r.age = none ∧ r.table = id) :
    (msAt (camVerdicts c) p).waiting = none := by
  have hverdict : camVerdicts c = (List.range 12).foldl (fun c p => camRefuse p id c) { c with cam := { c.cam with failed := [] } } := by
    unfold camVerdicts
    rw [hf, List.filter_cons_of_pos (by rw [hn]; rfl), List.filter_nil, List.foldl_cons, List.foldl_nil]
  rw [hverdict]
  exact refuse_waiting id p _ _ (List.mem_range.mpr hp) h

/-! ### The commands -/

/-- A command that changes the core alone: an equation of cores is one of states. -/
theorem state_core {e f : Core} (s : State) (h : e = f) : ({ s with core := e } : State) = { s with core := f } := congrArg _ h

/-- Settles O59: the request by what it finds, the unpin, the answer to the pager's read, the verdict at the TICK, the retry. -/
theorem camOperations : Obligations.CamOperations := by
  intro s
  refine ⟨fun k x a ha hx => ⟨_, runs_camWant a ha hx, fun he => ⟨rfl, ?_⟩, fun hne g hg alone => ?_, fun hne hg => ?_⟩,
    fun k x hx => ⟨_, runs_ready hx rfl, ?_⟩, fun data => ⟨_, runs_pageIn data s, ?_⟩, fun id hf hn => ?_, ⟨_, rfl, ?_⟩⟩
  · rw [camWant_eighth k x s.core (hx.opcode ▸ he)]
    exact ends_begun k x _ _ _ _ s.core k.isLt hx.running
  · rw [camWant_request k x s.core (hx.opcode ▸ hne)]
    have h := pageRequest_serves k.isLt hx hg alone
    exact ⟨h.others, h.pages, h.page, h.plain, h.pinning, state_core s h.rest⟩
  · rw [camWant_request k x s.core (hx.opcode ▸ hne)]
    refine ⟨fun hj => ?_, fun hq hc hwait => ?_, fun hidle habsent alone => ?_, fun hidle hpresent hdown alone => ?_,
      fun hidle hup hlib dir hpresent => ⟨fun hv => ?_, fun g hv => ?_⟩⟩
    · rw [pageRequest_joins _ k (wanting k x s.core) hg hj]
      exact ⟨wanting_slot k x s.core, fun j hj => wanting_other k j x s.core hj, rfl⟩
    · rw [pageRequest_waits _ k (wanting k x s.core) hg hq hc hwait]
      exact ⟨wanting_slot k x s.core, fun j hj => wanting_other k j x s.core hj, rfl⟩
    · have h := wanting_absent hg hidle k.isLt hx.running alone habsent
      exact ⟨⟨h.ends, h.retry, state_core s h.rest⟩, h.own, h.others, h.pages⟩
    · obtain ⟨dir, hdir, hp⟩ := hpresent
      have h := wanting_unreachable hg hidle k.isLt hx.running alone hdir hp hdown
      exact ⟨⟨h.ends, h.retry, state_core s h.rest⟩, h.own, h.others, h.pages⟩
    · rw [wanting_full hg hidle hpresent.1 hpresent.2 hup hlib hv]
      exact ⟨wanting_slot k x s.core, fun j hj => wanting_other k j x s.core hj, rfl⟩
    · have h := wanting_reads (k := k) hg hidle hpresent.1 hpresent.2 hup hlib hv
      exact ⟨h.slot, h.others, h.page, h.pages, state_core s h.rest⟩
  · cases hg : pageOf s.core (field x.desc 8 2) with
    | some g =>
      obtain ⟨hends, hothers, hpage, hpages, hrest⟩ := camUnpin_held k.isLt hx.running hg
      refine ⟨hothers, fun g' hg' => ?_, nofun, state_core s hrest⟩
      cases hg'
      exact ⟨hpage, hpages, hends⟩
    | none =>
      obtain ⟨hends, hothers, hcam, hrest⟩ := camUnpin_absent k.isLt hx.running hg
      exact ⟨hothers, nofun, fun _ => ⟨hcam, hends⟩, state_core s hrest⟩
  · refine ⟨fun h => state_core s (pageInCore_idle data s.core h), fun id g n a hr hcur => ⟨⟨fun hu hn => ?_, fun hu hn hq => ?_⟩,
      fun hdata hd => ?_, fun b dir hb hd hlen hq => ⟨fun r hreason => ?_, fun hgood => ?_⟩⟩⟩
    · exact state_core s ((pageInCore_unread data id g n a s.core hr hcur hu).trans (readFailed_retries id g n a s.core hcur hn))
    · have h := pageInCore_gives_up data id g n a s.core hr hcur hu hn hq
      exact ⟨⟨h.ends, h.retry, state_core s h.rest⟩, h.quiet, h.freed, h.pages⟩
    · exact state_core s (pageInCore_noDirectory data id g n a s.core hr hcur hdata hd)
    · have h := pageInCore_refused hr hcur hd hlen hq hreason
      rw [hb]
      exact ⟨⟨h.ends, h.retry, state_core s h.rest⟩, h.quiet, h.freed, h.pages⟩
    · have h := pageInCore_arrives hr hcur hd hlen hq hgood
      have hcam := congrArg Core.cam h.rest
      rw [hb]
      exact ⟨h.pages, h.quiet, congrArg CamSt.cur hcam, congrArg CamSt.waits hcam, h.page, h.channels, h.plain, h.pinning,
        state_core s h.rest⟩
  · obtain ⟨hfault, hcam⟩ := camVerdicts_one id s.core hf hn
    refine ⟨hfault, fun p r hp hwait hmanual hage htable => camVerdicts_waiting id p s.core hf hn hp fun r' hr' => ?_, hcam⟩
    cases hwait.symm.trans hr'
    exact ⟨hmanual, hage, htable⟩
  · refine ⟨fun h => state_core s (pageRetry_idle s.core h), fun id g n a hr hcur => ?_⟩
    have hretry := pageRetry_reads id g n a s.core hr hcur
    refine ⟨fun hup => ⟨rfl, hretry.trans (if_pos hup)⟩, fun hdown hn => ?_, fun hdown hn hq => ?_⟩
    · rw [hretry, if_neg (by rw [hdown]; decide), readFailed_retries id g (n + 1) a _ rfl (by omega)]
      rfl
    · have h := pageRetry_gives_up id g n a s.core hr hcur hdown hn hq
      exact ⟨⟨h.ends, h.retry, state_core s h.rest⟩, h.quiet, h.freed, h.pages⟩

end Sys2Proof.Machine
end

section
/-! SUPPORT. The detections of an axis: its faults, STALL and IN_POS (R178, R209, R219). -/

namespace Sys2Proof.Machine

/-! ### Faults (R209) -/

/-- A command that detects a fault of axis `x`, with the fault's code. -/
theorem runs_axisFault (x : Fin 36) (s : State) {code : Nat} {c : Instr} (h : (code, c) ∈
    [(1, Instr.upLost x), (4, .hallInvalid x), (5, .hallEncDisagree x), (6, .following x), (7, .bridgeDrop x)]) :
    Runs c s (takeAxisFault code x s) := by
  simp only [List.mem_cons, Prod.mk.injEq, List.not_mem_nil, or_false] at h
  obtain ⟨rfl, rfl⟩ | ⟨rfl, rfl⟩ | ⟨rfl, rfl⟩ | ⟨rfl, rfl⟩ | ⟨rfl, rfl⟩ := h <;> rfl

/-- A fault of an axis that is due: its link, the record and the fault manager learn of it, and nothing else does (R209). -/
theorem takeAxisFault_due (code x : Nat) (s : State) (h : s.core.seq.due.contains (.axisFault code x) = true) : ∃ l u,
    takeAxisFault code x s = { s with core := { s.core with
      links := l, recd := u
      seq := { s.core.seq with
        due := s.core.seq.due.erase (.axisFault code x), faultQ := s.core.seq.faultQ ++ [⟨0x100 + code, x / 3, x⟩] } } } ∧
    tget {} l x = { linkAt s.core x with fault := if (linkAt s.core x).fault = 0 then code else (linkAt s.core x).fault } ∧
    ∀ y, y ≠ x → tget {} l y = linkAt s.core y := by
  unfold takeAxisFault
  rw [if_pos h]
  obtain ⟨u, hfault⟩ := axisFault_only code x { s.core with seq := { s.core.seq with due := s.core.seq.due.erase (.axisFault code x) } }
  rw [hfault]
  obtain ⟨hown, hothers⟩ := modLink_spec x (fun l => { l with fault := if l.fault = 0 then code else l.fault }) s.core
  exact ⟨_, u, rfl, hown, hothers⟩

/-- A fault of an axis that is not due is none (log 3). -/
theorem takeAxisFault_notDue (code x : Nat) (s : State) (h : s.core.seq.due.contains (.axisFault code x) = false) :
    takeAxisFault code x s = s :=
  if_neg (by rw [h]; decide)

/-! ### STALL and IN_POS (R178, R219) -/

/-- A detection `d` whose whole effect lies in axis `x`: taken if it is due (log 3). -/
def markAxis (d : Due) (x : Nat) (f : AxisSt → AxisSt) (c : Core) : Core :=
  if c.seq.due.contains d then modAx x f { c with seq := { c.seq with due := c.seq.due.erase d } } else c

theorem runs_stall (x : Fin 36) (s : State) :
    Runs (.stall x) s { s with core := markAxis (.stall x) x (fun a => { a with stall := true }) s.core } := rfl

theorem runs_inPosition (x : Fin 36) (s : State) :
    Runs (.inPosition x) s { s with core := markAxis (.inPos x) x (fun a => { a with inPos := true }) s.core } := rfl

theorem markAxis_due (d : Due) (x : Nat) (f : AxisSt → AxisSt) (c : Core) (h : c.seq.due.contains d = true) : ∃ a,
    markAxis d x f c = { c with seq := { c.seq with axes := a, due := c.seq.due.erase d } } ∧
    tget {} a x = f (axAt c x) ∧ ∀ y, y ≠ x → tget {} a y = axAt c y :=
  ⟨_, if_pos h, (axAt_mod x x f c).trans (if_pos rfl), fun y hy => (axAt_mod x y f c).trans (if_neg (Ne.symm hy))⟩

theorem markAxis_notDue (d : Due) (x : Nat) (f : AxisSt → AxisSt) (c : Core) (h : c.seq.due.contains d = false) :
    markAxis d x f c = c :=
  if_neg (by rw [h]; decide)

/-- Settles O32: the faults by their codes, then the two bits of an axis; each detection is due or is not. -/
theorem axisDetections : Obligations.AxisDetections := by
  intro x s
  refine ⟨fun code c hc => ⟨fun hdue => ?_, fun hnot => ?_⟩, fun hdue => ?_, fun hnot => ?_, fun hnot => ?_, fun hdue => ?_⟩
  · obtain ⟨l, u, hfault, hown, hothers⟩ := takeAxisFault_due code x s hdue
    refine ⟨_, runs_axisFault x s hc, ?_⟩
    rw [hfault]
    exact ⟨congrArg LinkSt.fault hown, hothers, rfl⟩
  · have hrun := runs_axisFault x s hc
    rwa [takeAxisFault_notDue code x s hnot] at hrun
  · obtain ⟨a, hmark, hown, hothers⟩ := markAxis_due (.stall x) x (fun a => { a with stall := true }) s.core hdue
    refine ⟨_, runs_stall x s, ?_⟩
    rw [hmark]
    exact ⟨hown, hothers, rfl⟩
  · have hrun := runs_stall x s
    rwa [markAxis_notDue _ x _ s.core hnot] at hrun
  · have hrun := runs_inPosition x s
    rwa [markAxis_notDue _ x _ s.core hnot] at hrun
  · obtain ⟨a, hmark, hown, hothers⟩ := markAxis_due (.inPos x) x (fun a => { a with inPos := true }) s.core hdue
    refine ⟨_, runs_inPosition x s, ?_⟩
    rw [hmark]
    exact ⟨hown, hothers, rfl⟩

end Sys2Proof.Machine
end

section
/-! SUPPORT. What a standby takes from its active: INPUT, snapshots, pages and images (R194, R213, R369, R373, R378, R379). -/

namespace Sys2Proof.Machine

/-! ### INPUT (R213, R369) -/

theorem runs_input (h : TwinHdr) (b : Bytes) (s : State) (hh : Heard 0x10 h s.core) (hlen : b.length = inputLen) :
    Runs (.input h b) s { s with core := takeInput h (inputFrom b) (heard 0x10 h false s.core) } := by
  show execInput h b s = _
  unfold execInput
  rw [hlen, beq_self_eq_true, sized_true]
  exact congrArg Host.Outcome.next (onMessage_heard 0x10 h false _ s hh)

/-- An INPUT that carries no operation: it is retained with its tick, and a standby that follows mutes the links that it reports. -/
theorem takeInput_spec (h : TwinHdr) (f : InputFrame) (c : Core) (hm : c.sys.mode = .shadow) (hops : f.ops = []) : ∃ l k n,
    takeInput h f c = { c with links := l, twin := { c.twin with input := some (h.tick, f), kept := k, counters := n } } ∧
    (h.tick, f) ∈ k ∧
    (standbyIn c = true → ∀ x, x < 36 → f.nonvalid.getLsbD x = true → (tget {} l x : LinkSt).muted = true) ∧
    (standbyIn c = false ∨ f.nonvalid = 0 → l = c.links) := by
  have hkept : ∀ l : List (Nat × InputFrame), (h.tick, f) ∈ ((h.tick, f) :: l).take 16 := fun l => List.mem_cons_self
  unfold takeInput
  rw [if_neg (by rw [hm]; decide), hops]
  dsimp only
  split
  next hs =>
    obtain ⟨l, hmutes, hmuted, -⟩ := mutes ((List.range 36).filter f.nonvalid.getLsbD) (twCount 0 { c with twin := { c.twin with
      input := some (h.tick, f), kept := ((h.tick, f) :: c.twin.kept.filter fun e => e.1 != h.tick).take 16 } })
    refine ⟨l, _, _, hmutes, hkept _, fun _ x hx hv => hmuted x (List.mem_filter.mpr ⟨List.mem_range.mpr hx, hv⟩), fun hquiet => ?_⟩
    have hnone : f.nonvalid = 0 := hquiet.resolve_left (by rw [show standbyIn c = true from hs]; decide)
    have hempty : (List.range 36).filter f.nonvalid.getLsbD = [] :=
      List.filter_eq_nil_iff.mpr fun x _ => by rw [hnone]; simp
    rw [hempty] at hmutes
    exact (congrArg Core.links hmutes).symm
  next hs => exact ⟨_, _, _, rfl, hkept _, fun hf => absurd hf hs, fun _ => rfl⟩

theorem input_spec (h : TwinHdr) (b : Bytes) (s : State) (hm : s.core.sys.mode = .shadow) (hh : Heard 0x10 h s.core)
    (hlen : b.length = inputLen) (hops : (inputFrom b).ops = []) : ∃ t, Runs (.input h b) s t ∧
      t.core.twin.input = some (h.tick, inputFrom b) ∧ (h.tick, inputFrom b) ∈ t.core.twin.kept ∧
      (standbyIn s.core = true → ∀ x, x < 36 → (inputFrom b).nonvalid.getLsbD x = true → (linkAt t.core x).muted = true) ∧
      ((standbyIn s.core = false ∨ (inputFrom b).nonvalid = 0) → t.core.links = s.core.links) ∧
      t = { s with core := { heard 0x10 h false s.core with
        links := t.core.links
        twin := { (heard 0x10 h false s.core).twin with
          input := t.core.twin.input, kept := t.core.twin.kept, counters := t.core.twin.counters } } } := by
  refine ⟨_, runs_input h b s hh hlen, ?_⟩
  obtain ⟨l, k, n, htake, hkept, hmuted, hquiet⟩ := takeInput_spec h (inputFrom b) (heard 0x10 h false s.core) hm hops
  rw [htake]
  exact ⟨rfl, hkept, hmuted, hquiet, rfl⟩

/-! ### Snapshots (R373, R378) -/

theorem runs_snapshot (h : TwinHdr) (m : Snapshot) (s : State) (hh : Heard 0x11 h s.core) :
    Runs (.snapshot h m) s { s with core := takeSnapshot m (heard 0x11 h false s.core) } :=
  congrArg Host.Outcome.next (onMessage_heard 0x11 h false _ s hh)

theorem takeSnapshot_standby (m : Snapshot) (c : Core) (hm : c.sys.mode = .shadow) :
    takeSnapshot m c = { c with twin := { c.twin with snapIn := some m } } :=
  if_pos (by rw [hm]; rfl)

/-- Without an own image no snapshot is missing. -/
theorem snapshotMissing_none (c : Core) (h : c.twin.image = none) : snapshotMissing c = c := by
  unfold snapshotMissing
  rw [h]

/-- A snapshot of an earlier tick is handled, and once the own image is spent none is missing (R373). -/
theorem snapshotTick_handles (m : Snapshot) (c : Core) (hin : c.twin.snapIn = some m) (ht : m.tick < c.tb.tick)
    (himage : (handleSnapshot m { c with twin := { c.twin with snapIn := none } }).twin.image = none) :
    snapshotTick c = handleSnapshot m { c with twin := { c.twin with snapIn := none } } := by
  unfold snapshotTick
  rw [hin]
  dsimp only
  rw [if_pos ht]
  exact snapshotMissing_none _ himage

section
variable {m : Snapshot} {c : Core} (hm : c.sys.mode = .shadow) (hbad : c.twin.snapBad = false)
include hm hbad

/-- The base that the standby has asked for (R378). -/
theorem handleSnapshot_base (hb : m.base = true) (hr : c.twin.resync = 1) (hd : m.dieRev = Config.dieRev) :
    handleSnapshot m c = applyBase m { c with twin := { c.twin with image := none } } := by
  unfold handleSnapshot
  rw [if_neg (by rw [hm]; decide), if_neg (by rw [hbad]; decide), if_pos (by rw [hb, hr, hd]; simp)]

/-- The snapshot of the own image's tick, after the base: it is compared (R373). -/
theorem handleSnapshot_compares {own : Snapshot} (hr : c.twin.resync = 2) (hown : c.twin.image = some own) (ht : m.tick = own.tick) :
    handleSnapshot m c = (if (m.dieRev == Config.dieRev && snapAgrees c.twin.leftOut m own) = true
      then goodSnapshot m { c with twin := { c.twin with image := none } }
      else badSnapshot { c with twin := { c.twin with image := none } }) := by
  have hstandby : standbyIn c = true := by
    unfold standbyIn
    rw [hm, hr]
    exact Bool.or_true _
  unfold handleSnapshot
  rw [if_neg (by rw [hm]; decide), if_neg (by rw [hbad]; decide), if_neg (by rw [hr]; simp), if_neg (by rw [hstandby]; decide), hown]
  exact if_neg (not_not_intro ht)

end

/-- A good snapshot after the base synchronises the standby (R373, R378). -/
theorem goodSnapshot_syncs (m : Snapshot) (c : Core) (hr : c.twin.resync = 2) : ∃ l u w,
    goodSnapshot m c = { c with links := l, recd := u, twin := w } ∧
    w.synced = true ∧ w.resync = 0 ∧ w.silent = false ∧ w.image = c.twin.image := by
  obtain ⟨l, u, hsync⟩ := becomeSynced_only (twCount 8 { c with twin := { c.twin with badSnaps := 0, silent := false, lastSnap := some m } })
  have hgood : goodSnapshot m c =
      becomeSynced (twCount 8 { c with twin := { c.twin with badSnaps := 0, silent := false, lastSnap := some m } }) := if_pos hr
  exact ⟨l, u, _, hgood.trans hsync, rfl, rfl, rfl, rfl⟩

theorem unsyncCause_image (n : Nat) (c : Core) : (unsyncCause n c).twin.image = c.twin.image := by
  unfold unsyncCause
  split
  · rfl
  · split
    · obtain ⟨u, h, q, x, hnow⟩ := unsyncNow_only n c
      rw [hnow]
    · rfl

/-- The own image stays as it is in a bad snapshot. -/
theorem badSnapshot_image (c : Core) : (badSnapshot c).twin.image = c.twin.image := by
  unfold badSnapshot
  dsimp only
  generalize (List.range 36).filter _ = l
  obtain ⟨t, hmutes, -, -⟩ := mutes l { c with twin := { c.twin with
    counters := tmod 0 c.twin.counters 12 (· + 1), badSnaps := c.twin.badSnaps + 1, silent := true } }
  rw [hmutes]
  split
  · exact unsyncCause_image 3 _
  · rfl

section
variable {m : Snapshot} {c : Core} (hm : c.sys.mode = .shadow) (hin : c.twin.snapIn = some m) (htick : m.tick < c.tb.tick)
  (hbad : c.twin.snapBad = false)
include hm hin htick hbad

theorem snapshotTick_base (hb : m.base = true) (hr : c.twin.resync = 1) (hd : m.dieRev = Config.dieRev) : ∃ n q x g w,
    snapshotTick c = { c with nv := n, seq := q, cam := x, host := g, twin := w } ∧ w.resync = 2 ∧ w.image = none := by
  obtain ⟨n, q, x, g, w, happly, hresync, himage⟩ := applyBase_only m { c with twin := { c.twin with snapIn := none, image := none } }
  have hhandle : handleSnapshot m { c with twin := { c.twin with snapIn := none } } = { c with nv := n, seq := q, cam := x, host := g, twin := w } :=
    (handleSnapshot_base (c := { c with twin := { c.twin with snapIn := none } }) hm hbad hb hr hd).trans happly
  refine ⟨n, q, x, g, w, ?_, hresync, himage⟩
  rw [snapshotTick_handles m c hin htick (by rw [hhandle]; exact himage), hhandle]

variable {own : Snapshot} (hr : c.twin.resync = 2) (hown : c.twin.image = some own) (ht : m.tick = own.tick)
include hr hown ht

theorem snapshotTick_good (hd : m.dieRev = Config.dieRev) (ha : snapAgrees c.twin.leftOut m own = true) : ∃ l u w,
    snapshotTick c = { c with links := l, recd := u, twin := w } ∧ w.synced = true ∧ w.resync = 0 ∧ w.silent = false := by
  obtain ⟨l, u, w, hgood, hsynced, hresync, hsilent, himage⟩ :=
    goodSnapshot_syncs m { c with twin := { c.twin with snapIn := none, image := none } } hr
  have hhandle : handleSnapshot m { c with twin := { c.twin with snapIn := none } } = { c with links := l, recd := u, twin := w } :=
    (handleSnapshot_compares (c := { c with twin := { c.twin with snapIn := none } }) hm hbad hr hown ht).trans
      ((if_pos (by rw [hd, ha]; simp)).trans hgood)
  refine ⟨l, u, w, ?_, hsynced, hresync, hsilent⟩
  rw [snapshotTick_handles m c hin htick (by rw [hhandle]; exact himage), hhandle]

theorem snapshotTick_bad (ha : snapAgrees c.twin.leftOut m own = false) : ∃ l u g q x w,
    snapshotTick c = { c with links := l, recd := u, host := g, seq := q, cam := x, twin := w } ∧
    (∀ x, x < 36 → axisConf (cfgOf c) x = true → (tget {} l x : LinkSt).muted = true) ∧
    (c.twin.badSnaps < 2 → w.silent = true ∧ w.badSnaps = c.twin.badSnaps + 1) := by
  have hhandle : handleSnapshot m { c with twin := { c.twin with snapIn := none } } =
      badSnapshot { c with twin := { c.twin with snapIn := none, image := none } } :=
    (handleSnapshot_compares (c := { c with twin := { c.twin with snapIn := none } }) hm hbad hr hown ht).trans
      (if_neg (by rw [ha]; simp))
  obtain ⟨l, u, g, q, x, w, hform, hmuted, hsilent⟩ := badSnapshot_only { c with twin := { c.twin with snapIn := none, image := none } }
  refine ⟨l, u, g, q, x, w, ?_, hmuted, hsilent⟩
  rw [snapshotTick_handles m c hin htick (by rw [hhandle]; exact badSnapshot_image _), hhandle, hform]

end

/-! ### Pages (R194) -/

theorem runs_page (h : TwinHdr) (m : PagePiece) (s : State) (hh : Heard 0x12 h s.core) (hlen : m.data.length ≤ 4096) :
    Runs (.page h m) s { s with core := takePage m (heard 0x12 h false s.core) } := by
  show execPage h m s = _
  unfold execPage
  rw [decide_eq_true hlen, sized_true]
  exact congrArg Host.Outcome.next (onMessage_heard 0x12 h false _ s hh)

/-- The core in which a piece of a page has been counted and leaves `buf` behind. -/
def pageHeld (buf : Option (Nat × Nat × Bytes)) (c : Core) : Core :=
  { twCount 24 c with twin := { (twCount 24 c).twin with pageBuf := buf } }

/-- A piece that is not the last joins those before it, where it follows them. -/
theorem takePage_piece (m : PagePiece) (c : Core) (hm : c.sys.mode = .shadow) (hl : m.last = false) : takePage m c =
    pageHeld ((joinPiece c.twin.pageBuf m.page m.table m.offset m.data).map fun b => (m.page, m.table, b)) c := by
  unfold takePage
  rw [if_neg (by rw [hm]; decide), hl]
  dsimp only
  rw [show (twCount 24 c).twin.pageBuf = c.twin.pageBuf from rfl]
  cases joinPiece c.twin.pageBuf m.page m.table m.offset m.data with
  | none => rfl
  | some b => rfl

/-- The last piece completes its page. -/
theorem takePage_last (m : PagePiece) (b : Bytes) (c : Core) (hm : c.sys.mode = .shadow) (hl : m.last = true)
    (hj : joinPiece c.twin.pageBuf m.page m.table m.offset m.data = some b) :
    takePage m c = pageComplete m.page m.table b (pageHeld none c) := by
  unfold takePage
  rw [if_neg (by rw [hm]; decide), hl]
  dsimp only
  rw [show (twCount 24 c).twin.pageBuf = c.twin.pageBuf from rfl, hj]
  rfl

/-- A page whose data the unit's stored directory does not bear out (R194, R375). -/
theorem pageComplete_rejects (page table : Nat) (b : Bytes) (c : Core)
    (h : ∀ d, c.nv.dir = some d → dirPresent d table = true → sha256 b ≠ dirHash d table) :
    pageComplete page table b c = unsyncCause 5 c := by
  unfold pageComplete
  cases hd : c.nv.dir with
  | none => rfl
  | some d =>
    refine if_neg fun hmatch => ?_
    rw [Bool.and_eq_true, beq_iff_eq] at hmatch
    exact h d hd hmatch.1 hmatch.2

/-- A page whose data match, for which no operation waits (R194). -/
theorem pageComplete_accepts (page table : Nat) (b : Bytes) (c : Core) (d : Image) (hd : c.nv.dir = some d)
    (hp : dirPresent d table = true) (hs : sha256 b = dirHash d table) (hw : c.cam.waits = []) :
    pageComplete page table b c = camSupplied table (setPage page (freshPage table b c) c) := by
  unfold pageComplete
  rw [hd]
  dsimp only
  rw [if_pos (by rw [hp, hs, beq_self_eq_true]; rfl)]
  exact camServe_none table page _ hw

section
variable {h : TwinHdr} {m : PagePiece} {s : State} (hm : s.core.sys.mode = .shadow) (hh : Heard 0x12 h s.core)
  (hlen : m.data.length ≤ 4096)
include hm hh hlen

theorem page_piece (hl : m.last = false) : ∃ t, Runs (.page h m) s t ∧
    t.core.twin.pageBuf = (joinPiece s.core.twin.pageBuf m.page m.table m.offset m.data).map (fun b => (m.page, m.table, b)) ∧
    t = { s with core := { heard 0x12 h false s.core with
      twin := { (heard 0x12 h false s.core).twin with pageBuf := t.core.twin.pageBuf, counters := t.core.twin.counters } } } := by
  refine ⟨_, runs_page h m s hh hlen, ?_⟩
  rw [takePage_piece m (heard 0x12 h false s.core) hm hl]
  exact ⟨rfl, rfl⟩

variable {b : Bytes} (hl : m.last = true) (hj : joinPiece s.core.twin.pageBuf m.page m.table m.offset m.data = some b)
include hl hj

theorem page_rejected (hsynced : s.core.twin.synced = true)
    (hhash : ∀ d, s.core.nv.dir = some d → dirPresent d m.table = true → sha256 b ≠ dirHash d m.table) :
    ∃ t, Runs (.page h m) s t ∧ t.core.twin.synced = false ∧ t.core.twin.cause = 5 ∧ t.core.cam.pages = s.core.cam.pages := by
  refine ⟨_, runs_page h m s hh hlen, ?_⟩
  rw [takePage_last m b (heard 0x12 h false s.core) hm hl hj,
    pageComplete_rejects m.page m.table b (pageHeld none (heard 0x12 h false s.core)) hhash,
    unsyncCause_synced 5 (pageHeld none (heard 0x12 h false s.core)) hm hsynced]
  obtain ⟨u, g, q, x, hnow⟩ := unsyncNow_only 5 (pageHeld none (heard 0x12 h false s.core))
  exact ⟨congrArg (fun c : Core => c.twin.synced) hnow, congrArg (fun c : Core => c.twin.cause) hnow, unsyncNow_pages 5 _⟩

theorem page_accepted {d : Image} (hd : s.core.nv.dir = some d) (hp : dirPresent d m.table = true)
    (hs : sha256 b = dirHash d m.table) (hw : s.core.cam.waits = []) : ∃ t, Runs (.page h m) s t ∧
      t.core.cam = { s.core.cam with
        pages := tset {} s.core.cam.pages m.page
          { state := 2, table := m.table, lastUse := readTb islMot s.core, data := imgOf b } } ∧
      t.core.twin.pageBuf = none ∧
      (∀ n, chAt t.core n = if n < 12 ∧ (chAt s.core n).camTable = some m.table ∧ (chAt s.core n).camRefused = false then
        { chAt s.core n with camFault := false } else chAt s.core n) ∧
      t = { s with core := { heard 0x12 h false s.core with
        cam := t.core.cam, twin := t.core.twin, seq := { s.core.seq with channels := t.core.seq.channels } } } := by
  refine ⟨_, runs_page h m s hh hlen, ?_⟩
  rw [takePage_last m b (heard 0x12 h false s.core) hm hl hj,
    pageComplete_accepts m.page m.table b (pageHeld none (heard 0x12 h false s.core)) d hd hp hs hw]
  obtain ⟨⟨t, hsupplied⟩, hchannels⟩ := camSupplied_spec m.table
    (setPage m.page (freshPage m.table b (pageHeld none (heard 0x12 h false s.core))) (pageHeld none (heard 0x12 h false s.core)))
  generalize camSupplied m.table _ = e at hsupplied hchannels ⊢
  refine ⟨congrArg Core.cam hsupplied, congrArg (fun c : Core => c.twin.pageBuf) hsupplied, hchannels, ?_⟩
  rw [hsupplied]
  rfl

end

/-! ### Images (R379) -/

theorem runs_image (h : TwinHdr) (m : ImagePiece) (s : State) (hh : Heard 0x13 h s.core) (hlen : m.data.length ≤ 4096) :
    Runs (.image h m) s (takeImage m { s with core := heard 0x13 h false s.core }) := by
  show execImage h m s = _
  unfold execImage
  rw [decide_eq_true hlen, sized_true]
  dsimp only
  rw [takeHdr_heard 0x13 h false s.core hh]
  rfl

/-- The core in which a piece of an image leaves `buf` behind; an UNSYNCED standby starts its waiting time again (R378). -/
def imageHeld (buf : Option (Nat × Nat × Bytes)) (c : Core) : Core :=
  { c with twin := { c.twin with quiet := if standbyIn c then c.twin.quiet else 0, imgBuf := buf } }

/-- A piece of an image: it does not follow those before it, it completes its image, or it waits for the next (R379). -/
theorem takeImage_eq (m : ImagePiece) (s : State) (hm : s.core.sys.mode = .shadow) : takeImage m s =
    (joinPiece s.core.twin.imgBuf m.kind m.channel m.offset m.data).elim { s with core := imageHeld none s.core } fun b =>
      if b.length = m.total then
        let t := storeImage m.kind m.channel m.tables b { s with core := imageHeld none s.core }
        { t with core := noteImage t.core }
      else { s with core := imageHeld (some (m.kind, m.channel, b)) s.core } := by
  unfold takeImage imageHeld
  dsimp only
  rw [if_neg (by rw [hm]; decide)]
  cases standbyIn s.core with
  | true =>
    rw [if_pos rfl, if_pos rfl]
    cases joinPiece s.core.twin.imgBuf m.kind m.channel m.offset m.data with
    | none => rfl
    | some b => rfl
  | false =>
    rw [if_neg (by decide), if_neg (by decide)]
    dsimp only
    cases joinPiece s.core.twin.imgBuf m.kind m.channel m.offset m.data with
    | none => rfl
    | some b => rfl

/-- The checks of a program read the keys and the stored configuration only, which no piece of an image changes (R154). -/
theorem progCheck_heard (type : Nat) (h : TwinHdr) (buf : Option (Nat × Nat × Bytes)) (n : Nat) (g : Image) (c : Core) :
    progCheck (imageHeld buf (heard type h false c)) n g = progCheck c n g := by
  unfold progCheck progBody signedBy storedOf
  rfl

/-- A program that passes its checks is stored (R379). -/
theorem storeImage_program (ch : Nat) (tables : Table Bytes) (b : Bytes) (s : State) (hch : ch < 13)
    (hok : (progCheck s.core ch (imgOf b)).isNone = true) :
    storeImage 2 ch tables b s = { s with core := storeProgram ch (imgOf b) s.core } :=
  if_pos (by rw [decide_eq_true hch, hok]; rfl)

/-- An UNSYNCED standby notes that it has stored an image (R379). -/
theorem noteImage_unsynced (c : Core) (h : standbyIn c = false) :
    noteImage c = { c with nv := { c.nv with hadImages := true }, twin := { c.twin with imgSeen := true } } :=
  if_neg (by rw [h]; decide)

section
variable {h : TwinHdr} {m : ImagePiece} {s : State} (hm : s.core.sys.mode = .shadow) (hh : Heard 0x13 h s.core)
  (hlen : m.data.length ≤ 4096)
include hm hh hlen

/-- IMAGE in a standby, by what joining its piece yields. -/
theorem runs_image_joined {r : Option Bytes} (hj : joinPiece s.core.twin.imgBuf m.kind m.channel m.offset m.data = r) :
    Runs (.image h m) s (r.elim { s with core := imageHeld none (heard 0x13 h false s.core) } fun b =>
      if b.length = m.total then
        let t := storeImage m.kind m.channel m.tables b { s with core := imageHeld none (heard 0x13 h false s.core) }
        { t with core := noteImage t.core }
      else { s with core := imageHeld (some (m.kind, m.channel, b)) (heard 0x13 h false s.core) }) := by
  rw [← hj]
  exact (runs_image h m s hh hlen).trans (congrArg Host.Outcome.next (takeImage_eq m { s with core := heard 0x13 h false s.core } hm))

theorem image_lost (hj : joinPiece s.core.twin.imgBuf m.kind m.channel m.offset m.data = none) :
    ∃ t, Runs (.image h m) s t ∧ t.core.twin.imgBuf = none ∧
      t = { s with core := { heard 0x13 h false s.core with twin := t.core.twin } } :=
  ⟨_, runs_image_joined hm hh hlen hj, rfl, rfl⟩

variable {b : Bytes} (hj : joinPiece s.core.twin.imgBuf m.kind m.channel m.offset m.data = some b)
include hj

theorem image_piece (ht : b.length ≠ m.total) : ∃ t, Runs (.image h m) s t ∧ t.core.twin.imgBuf = some (m.kind, m.channel, b) ∧
    t.core.nv.cfg = s.core.nv.cfg ∧ t.core.nv.progs = s.core.nv.progs ∧
    t = { s with core := { heard 0x13 h false s.core with twin := t.core.twin } } := by
  refine ⟨_, runs_image_joined hm hh hlen hj, ?_⟩
  rw [Option.elim_some, if_neg ht]
  exact ⟨rfl, rfl, rfl, rfl⟩

theorem image_program (ht : b.length = m.total) (hk : m.kind = 2) (hch : m.channel < 13)
    (hok : (progCheck s.core m.channel (imgOf b)).isNone = true) (hs : standbyIn s.core = false) :
    ∃ t, Runs (.image h m) s t ∧ tget {} t.core.nv.progs m.channel = imgOf b ∧ t.core.twin.imgSeen = true ∧
      t.core.twin.imgBuf = none ∧ t = { s with core := { heard 0x13 h false s.core with
        nv := t.core.nv, run := t.core.run, recd := t.core.recd, twin := t.core.twin } } := by
  refine ⟨_, runs_image_joined hm hh hlen hj, ?_⟩
  rw [Option.elim_some, if_pos ht, hk]
  dsimp only
  rw [storeImage_program m.channel m.tables b { s with core := imageHeld none (heard 0x13 h false s.core) } hch
    (by rw [progCheck_heard]; exact hok)]
  obtain ⟨hprogs, -, hstored⟩ := storeProgram_facts m.channel (imgOf b) (imageHeld none (heard 0x13 h false s.core))
  dsimp only at hstored ⊢
  generalize storeProgram m.channel (imgOf b) _ = e at hprogs hstored ⊢
  rw [noteImage_unsynced e (by rw [hstored]; exact hs)]
  refine ⟨(hprogs m.channel).trans (if_pos rfl), rfl, by rw [hstored]; rfl, ?_⟩
  rw [hstored]
  rfl

end

/-- Settles O38, message by message; a snapshot by what the tick after it makes of it. -/
theorem standbyFollowsActive : Obligations.StandbyFollows := by
  intro h s hm
  refine ⟨fun b hh hlen hops => input_spec h b s hm hh hlen hops, fun m hh => ?_, fun m hin htick hbad => ⟨fun hb hr hd => ?_,
    fun own hr hown ht => ⟨fun hd ha => ?_, fun ha => ?_⟩⟩, fun m hh hlen => ⟨page_piece hm hh hlen,
    fun b hl hj hsynced hhash => page_rejected hm hh hlen hl hj hsynced hhash,
    fun b d hl hj hd hp hs hw => page_accepted hm hh hlen hl hj hd hp hs hw⟩, fun m hh hlen => ⟨fun b hj ht => image_piece hm hh hlen hj ht,
    image_lost hm hh hlen, fun b hj ht hk hch hok hs => image_program hm hh hlen hj ht hk hch hok hs⟩⟩
  · exact ⟨_, runs_snapshot h m s hh, congrArg (fun c => { s with core := c }) (takeSnapshot_standby m (heard 0x11 h false s.core) hm)⟩
  · obtain ⟨n, q, x, g, w, htaken, hresync, himage⟩ := snapshotTick_base hm hin htick hbad hb hr hd
    rw [htaken]
    exact ⟨hresync, himage, rfl⟩
  · obtain ⟨l, u, w, htaken, hsynced, hresync, hsilent⟩ := snapshotTick_good hm hin htick hbad hr hown ht hd ha
    rw [htaken]
    exact ⟨hsynced, hresync, hsilent, rfl⟩
  · obtain ⟨l, u, g, q, x, w, htaken, hmuted, hsilent⟩ := snapshotTick_bad hm hin htick hbad hr hown ht ha
    rw [htaken]
    exact ⟨hmuted, hsilent, rfl⟩

end Sys2Proof.Machine
end

section
/-! SUPPORT. The cut-off of a period: the class of each up frame (R207, R224). -/

namespace Sys2Proof.Machine

/-! ### The class of one link's frame -/

/-- Validity of a received frame: by its own characters and CRC, from a locked receiver (R206, R224). -/
def ValidUp (l : LinkSt) (rx : UpRx) : Prop := l.locked = true ∧ rxOk rx = true

theorem classify_silent {l : LinkSt} (h : l.rx = none) : classify l = .absent := by
  unfold classify
  rw [h]

section
variable {l : LinkSt} {rx : UpRx} (hrx : l.rx = some rx)
include hrx

theorem classify_invalid (hv : ¬ ValidUp l rx) : classify l = .invalid := by
  unfold classify
  rw [hrx]
  refine if_pos ?_
  cases hl : l.locked
  · rfl
  · rw [Bool.eq_false_iff.mpr fun h => hv ⟨hl, h⟩]
    rfl

/-- A valid frame is judged by its SEQ first, then by its arrival. -/
theorem classify_validUp {q : Nat} {b : Bytes} (hs : l.sent = some (q, b)) (hv : ValidUp l rx) :
    classify l = if field rx.bytes 0 2 = q then (if rx.late then .late else .valid) else .seqErr := by
  obtain ⟨hlocked, hok⟩ := hv
  unfold classify
  rw [hrx, hs, hlocked]
  by_cases hq : field rx.bytes 0 2 = q
  · simp [hok, hq]
  · simp [hok, hq, Ne.symm hq]

end

/-- The five classes of the frame of a link on which the unit has sent `q`, in the order of R207. -/
theorem classify_iff {l : LinkSt} {q : Nat} {b : Bytes} (hs : l.sent = some (q, b)) :
    (classify l = .valid ↔ ∃ rx, l.rx = some rx ∧ ValidUp l rx ∧ field rx.bytes 0 2 = q ∧ rx.late = false) ∧
    (classify l = .invalid ↔ ∃ rx, l.rx = some rx ∧ ¬ ValidUp l rx) ∧
    (classify l = .seqErr ↔ ∃ rx, l.rx = some rx ∧ ValidUp l rx ∧ field rx.bytes 0 2 ≠ q) ∧
    (classify l = .late ↔ ∃ rx, l.rx = some rx ∧ ValidUp l rx ∧ field rx.bytes 0 2 = q ∧ rx.late = true) ∧
    (classify l = .absent ↔ l.rx = none) := by
  cases hrx : l.rx with
  | none => simp [classify_silent hrx]
  | some rx =>
    by_cases hv : ValidUp l rx
    · rw [classify_validUp hrx hs hv]
      by_cases hq : field rx.bytes 0 2 = q
      · cases hlate : rx.late <;> simp [hv, hq, hlate]
      · simp [hv, hq]
    · simp [classify_invalid hrx hv, hv]

/-! ### The command -/

theorem upFrameCutoff_idle (s : State) (h : s.core.sys.inReset = true ∨ s.core.tb.running = false ∨ s.core.tb.cp = 0) :
    Runs .upFrameCutoff s s :=
  congrArg Host.Outcome.next (if_pos (by simpa [or_assoc] using h))

/-- A cut-off changes the core alone; the one of period 0 also finishes the tick. -/
theorem runs_upFrameCutoff (s : State) (hr : s.core.sys.inReset = false) (hrun : s.core.tb.running = true) (hcp : s.core.tb.cp ≠ 0) :
    Runs .upFrameCutoff s { s with
      core := if (s.core.tb.cp + 3) % 4 = 0 then finishTick (cutoff s.core) else cutoff s.core } := by
  refine congrArg Host.Outcome.next ((if_neg (by simp [hr, hrun, hcp])).trans ?_)
  split <;> rfl

/-- Finishing the tick keeps what the cut-off found. -/
theorem linkAt_afterCutoff (p : Prop) [Decidable p] (c : Core) (x : Nat) :
    linkAt (if p then finishTick (cutoff c) else cutoff c) x = linkAt (cutoff c) x :=
  linkAt_links _ _ x (ite_links (finishTick_links (cutoff c)) rfl)

/-- Settles O31: every named axis is classified from what its link held, and the rest of the cut-off keeps the class. -/
theorem upFrameClasses : Obligations.UpFrameClasses := by
  refine fun s => ⟨upFrameCutoff_idle s, fun hr hrun hcp => ⟨_, runs_upFrameCutoff s hr hrun hcp, fun x q b hx ha hs => ?_, rfl⟩⟩
  rw [linkAt_afterCutoff, cutoff_class s.core x hx ha]
  exact classify_iff hs

end Sys2Proof.Machine
end

section
/-! SUPPORT. The detections of the obstacle estimator and the end of learning (R228, R230, R232, R236, R239, R240). -/

namespace Sys2Proof.Machine

/-! ### A detection and its command (log 3) -/

/-- The core without detection `d` on its due list. -/
def takenOff (d : Due) (c : Core) : Core := { c with seq.due := c.seq.due.erase d }

/-- The state in which detection `d` has been taken off the due list and carried out. -/
def detected (d : Due) (s : State) : State := { s with core := takeDue d (takenOff d s.core) }

theorem runs_due {i : Instr} {d : Due} {s : State} (hrun : Runs i s (if s.core.seq.due.contains d then detected d s else s))
    (hdue : s.core.seq.due.contains d = true) : Runs i s (detected d s) := by
  rwa [if_pos hdue] at hrun

theorem runs_notDue {i : Instr} {d : Due} {s : State} (hrun : Runs i s (if s.core.seq.due.contains d then detected d s else s))
    (hnot : s.core.seq.due.contains d = false) : Runs i s s := by
  rwa [if_neg (by rw [hnot]; decide)] at hrun

/-- What a command does that takes the first of the detections that `f` reads: `d a` is the one of operands `a`. -/
def firstDue {α : Type} (f : Due → Option α) (d : α → Due) (s : State) : State :=
  (s.core.seq.due.findSome? f).elim s fun a => detected (d a) s

section
variable {α : Type} {f : Due → Option α} {d : α → Due} {i : Instr} {s : State}

theorem runs_firstDue (hf : ∀ e a, f e = some a ↔ e = d a) (hrun : Runs i s (firstDue f d s))
    (hdue : ∃ a, s.core.seq.due.contains (d a) = true) : ∃ a, s.core.seq.due.contains (d a) = true ∧ Runs i s (detected (d a) s) := by
  obtain ⟨a, ha⟩ := hdue
  have hsome : (s.core.seq.due.findSome? f).isSome = true :=
    List.findSome?_isSome_iff.mpr ⟨d a, List.contains_iff_mem.mp ha, by rw [(hf (d a) a).mpr rfl]; rfl⟩
  obtain ⟨b, hb⟩ := Option.isSome_iff_exists.mp hsome
  obtain ⟨e, hmem, he⟩ := List.exists_of_findSome?_eq_some hb
  obtain rfl := (hf e b).mp he
  refine ⟨b, List.contains_iff_mem.mpr hmem, ?_⟩
  rwa [firstDue, hb] at hrun

theorem runs_firstDue_none (hf : ∀ e a, f e = some a ↔ e = d a) (hrun : Runs i s (firstDue f d s))
    (hnot : ∀ a, s.core.seq.due.contains (d a) = false) : Runs i s s := by
  have hnone : s.core.seq.due.findSome? f = none := by
    refine List.findSome?_eq_none_iff.mpr fun e hmem => Option.eq_none_iff_forall_ne_some.mpr fun a ha => ?_
    obtain rfl := (hf e a).mp ha
    exact absurd (List.contains_iff_mem.mpr hmem) (by rw [hnot a]; decide)
  rwa [firstDue, hnone] at hrun

end

/-! ### Force, energy and a drawn object (R228, R230, R232, R236) -/

/-- The operands of a force detection of portal `p`. -/
def forceOf (p : Nat) : Due → Option (Nat × Int)
  | .force q x e => if q = p then some (x, e) else none
  | _ => none

/-- The operand of an energy detection of portal `p`. -/
def energyOf (p : Nat) : Due → Option Int
  | .energy q e => if q = p then some e else none
  | _ => none

/-- The operands of a detection of a drawn object at portal `p`. -/
def drawnOf (p : Nat) : Due → Option (Nat × Nat)
  | .drawn q x n => if q = p then some (x, n) else none
  | _ => none

theorem forceOf_iff (p : Nat) (e : Due) (a : Nat × Int) : forceOf p e = some a ↔ e = .force p a.1 a.2 := by
  cases e <;> simp [forceOf, Prod.ext_iff]

theorem energyOf_iff (p : Nat) (e : Due) (a : Int) : energyOf p e = some a ↔ e = .energy p a := by
  cases e <;> simp [energyOf]

theorem drawnOf_iff (p : Nat) (e : Due) (a : Nat × Nat) : drawnOf p e = some a ↔ e = .drawn p a.1 a.2 := by
  cases e <;> simp [drawnOf, Prod.ext_iff]

theorem runs_obstForce (p : Fin 12) (s : State) :
    Runs (.obstForce p) s (firstDue (forceOf p) (fun a => .force p a.1 a.2) s) := by
  show Host.Outcome.next (match s.core.seq.due.findSome? (forceOf p) with
    | some (x, e) => detected (.force p x e) s
    | none => s) = _
  unfold firstDue
  cases s.core.seq.due.findSome? (forceOf p) <;> rfl

theorem runs_obstEnergy (p : Fin 12) (s : State) :
    Runs (.obstEnergy p) s (firstDue (energyOf p) (fun a => .energy p a) s) := by
  show Host.Outcome.next (match s.core.seq.due.findSome? (energyOf p) with
    | some e => detected (.energy p e) s
    | none => s) = _
  unfold firstDue
  cases s.core.seq.due.findSome? (energyOf p) <;> rfl

theorem runs_obstDrawn (p : Fin 12) (s : State) :
    Runs (.obstDrawn p) s (firstDue (drawnOf p) (fun a => .drawn p a.1 a.2) s) := by
  show Host.Outcome.next (match s.core.seq.due.findSome? (drawnOf p) with
    | some (x, n) => detected (.drawn p x n) s
    | none => s) = _
  unfold firstDue
  cases s.core.seq.due.findSome? (drawnOf p) <;> rfl

/-- Detection `d` leaves the estimator of portal `p` as `o`, and writes nothing else but records. -/
def Latches (p : Nat) (d : Due) (o : ObstSt) (s t : State) : Prop :=
  obAt t.core p = o ∧ (∀ q, q ≠ p → obAt t.core q = obAt s.core q) ∧
    t = { s with core := { s.core with
      recd := t.core.recd
      seq := { s.core.seq with due := s.core.seq.due.erase d, obst := t.core.seq.obst } } }

theorem detected_latches {p : Nat} {d : Due} {o : ObstSt} {s : State}
    (h : ∃ u t, takeDue d (takenOff d s.core) = { takenOff d s.core with recd := u, seq.obst := t } ∧ tget {} t p = o ∧
      ∀ q, q ≠ p → tget {} t q = obAt s.core q) : Latches p d o s (detected d s) := by
  obtain ⟨u, t, htake, hown, hothers⟩ := h
  unfold detected
  rw [htake]
  exact ⟨hown, hothers, rfl⟩

theorem detected_force (p x : Nat) (e : Int) (s : State) : Latches p (.force p x e)
    { obAt s.core p with force := (obAt s.core p).force || !blanked s.core p } s (detected (.force p x e) s) :=
  detected_latches (takeForce_spec p x e _)

theorem detected_energy (p : Nat) (e : Int) (s : State) : Latches p (.energy p e)
    { obAt s.core p with energy := (obAt s.core p).energy || !blanked s.core p } s (detected (.energy p e) s) :=
  detected_latches (takeEnergy_spec p e _)

theorem detected_drawn (p x n : Nat) (s : State) : Latches p (.drawn p x n)
    { obAt s.core p with drawn := (obAt s.core p).drawn || !blanked s.core p } s (detected (.drawn p x n) s) :=
  detected_latches (takeDrawn_spec p x n _)

/-! ### The end of learning (R239, R240) -/

theorem runs_baselineLearned (p : Fin 12) (close : Bool) (s : State) : Runs (.baselineLearned p close) s
    (if s.core.seq.due.contains (.baseline p close) then detected (.baseline p close) s else s) := rfl

theorem runs_learnAbort (p : Fin 12) (close : Bool) (s : State) : Runs (.learnAbort p close) s
    (if s.core.seq.due.contains (.learnAbort p close) then detected (.learnAbort p close) s else s) := rfl

theorem takeBaseline_unarmed {p d : Nat} {c : Core} (h : armedFor c p d = false) : takeBaseline p d c = c :=
  if_pos (by rw [h]; rfl)

theorem takeLearnAbort_unarmed {p d : Nat} {c : Core} (h : armedFor c p d = false) : takeLearnAbort p d c = c :=
  if_pos (by rw [h]; rfl)

/-- Learning that is no longer armed learns nothing. -/
theorem detected_baseline_unarmed {p : Nat} {close : Bool} {s : State} (h : armedFor s.core p (b2n close) = false) :
    detected (.baseline p close) s = { s with core := takenOff (.baseline p close) s.core } :=
  state_core s (takeBaseline_unarmed h)

/-- Learning that is no longer armed ends no operation. -/
theorem detected_learnAbort_unarmed {p : Nat} {close : Bool} {s : State} (h : armedFor s.core p (b2n close) = false) :
    detected (.learnAbort p close) s = { s with core := takenOff (.learnAbort p close) s.core } :=
  state_core s (takeLearnAbort_unarmed h)

/-- Settles O34: each detection latches for its portal; then the two ends of learning, not due, no longer armed, and armed. -/
theorem obstacleDetections : Obligations.ObstacleDetections := by
  intro p s
  refine ⟨fun ⟨x, e, h⟩ => ?_, fun hdue => ?_, fun ⟨x, n, h⟩ => ?_, fun hnot => ?_, fun hnot => ?_, fun hnot => ?_,
    fun close => ⟨?_, ?_, fun hoff => ⟨fun hdue => ?_, fun hdue => ?_⟩⟩,
    fun close harmed => ⟨fun hdue => ?_, fun hdue k x hk hl hx => ?_⟩⟩
  · obtain ⟨a, hdue, hrun⟩ := runs_firstDue (forceOf_iff p) (runs_obstForce p s) ⟨(x, e), h⟩
    exact ⟨a.1, a.2, _, hdue, hrun, detected_force p a.1 a.2 s⟩
  · obtain ⟨e, hdue, hrun⟩ := runs_firstDue (energyOf_iff p) (runs_obstEnergy p s) hdue
    exact ⟨e, _, hdue, hrun, detected_energy p e s⟩
  · obtain ⟨a, hdue, hrun⟩ := runs_firstDue (drawnOf_iff p) (runs_obstDrawn p s) ⟨(x, n), h⟩
    exact ⟨a.1, a.2, _, hdue, hrun, detected_drawn p a.1 a.2 s⟩
  · exact runs_firstDue_none (forceOf_iff p) (runs_obstForce p s) fun a => hnot a.1 a.2
  · exact runs_firstDue_none (energyOf_iff p) (runs_obstEnergy p s) hnot
  · exact runs_firstDue_none (drawnOf_iff p) (runs_obstDrawn p s) fun a => hnot a.1 a.2
  · exact runs_notDue (runs_baselineLearned p close s)
  · exact runs_notDue (runs_learnAbort p close s)
  · have hrun := runs_due (runs_baselineLearned p close s) hdue
    rwa [detected_baseline_unarmed hoff] at hrun
  · have hrun := runs_due (runs_learnAbort p close s) hdue
    rwa [detected_learnAbort_unarmed hoff] at hrun
  · refine ⟨_, runs_due (runs_baselineLearned p close s) hdue, ?_⟩
    obtain ⟨u, h, x, y, l, v, n, t, htake, hvalid, hcount, hothers, hopen, hdisarmed, hlast⟩ :=
      takeBaseline_spec p (b2n close) (Nat.lt_succ_of_le (b2n_le close)) (takenOff (.baseline p close) s.core) harmed
    rw [show detected (.baseline p close) s = _ from state_core s htake]
    exact ⟨hvalid, hcount, hothers, fun hc => hopen (by rw [hc]; rfl), hdisarmed, hlast, rfl⟩
  · refine ⟨_, runs_due (runs_learnAbort p close s) hdue, ?_⟩
    obtain ⟨h, t, htake, hended, hdisarmed, hfreed⟩ :=
      takeLearnAbort_spec p (b2n close) k (takenOff (.learnAbort p close) s.core) x harmed hk hl hx
    rw [show detected (.learnAbort p close) s = _ from state_core s htake]
    exact ⟨hended, hdisarmed, hfreed, rfl⟩

end Sys2Proof.Machine
end

section
/-! SUPPORT. The detections of the supply manager: the measured supply, overdue requests and the end of a gathering (R256, R258,
R260, R261). -/

namespace Sys2Proof.Machine

/-! ### The measured supply (R260, R261) -/

/-- The current of a detected overload. -/
def supplyOverOf : Due → Option Int
  | .supplyOver i => some i
  | _ => none

theorem supplyOverOf_iff (e : Due) (i : Int) : supplyOverOf e = some i ↔ e = .supplyOver i := by
  cases e <;> simp [supplyOverOf]

theorem runs_supplyOver (s : State) : Runs .supplyOver s (firstDue supplyOverOf .supplyOver s) := by
  show Host.Outcome.next (match s.core.seq.due.findSome? supplyOverOf with
    | some i => detected (.supplyOver i) s
    | none => s) = _
  unfold firstDue
  cases s.core.seq.due.findSome? supplyOverOf <;> rfl

/-- An overload holds, and leaves a record. -/
theorem takeSupplyOver_only (i : Int) (c : Core) :
    ∃ u, takeSupplyOver i c = { c with recd := u, seq.topaz.overload := true } :=
  event_only 0x061 0x07 [unsigned 32 i] (modTz (fun t => { t with overload := true }) c)

theorem runs_supplyLow (p : Fin 12) (s : State) : Runs (.supplyLow p) s
    (if s.core.seq.due.contains (.supplyLow p) then detected (.supplyLow p) s else s) := rfl

/-! ### Overdue requests (R256) -/

theorem runs_overdue (p : Fin 12) (s : State) : Runs (.overdue p) s
    (if s.core.seq.due.contains (.overdue p) then detected (.overdue p) s else s) := rfl

/-- The request of a master that waits is overdue if it was so, or if it is planned and has waited its class's maximum. -/
theorem takeOverdue_own (p : Nat) (c : Core) : msAt (takeOverdue p c) p = { msAt c p with waiting := (msAt c p).waiting.map fun r =>
    { r with overdue := r.overdue || (r.manual.isNone && maxWait c r.cls != 0 && decide (maxWait c r.cls ≤ r.waited)) } } :=
  (msAt_mod p p _ c).trans (if_pos rfl)

theorem takeOverdue_waited {p : Nat} {c : Core} {r : MoveReq} (hr : (msAt c p).waiting = some r) (hplanned : r.manual = none)
    (hmax : maxWait c r.cls ≠ 0) (hwaited : maxWait c r.cls ≤ r.waited) :
    msAt (takeOverdue p c) p = { msAt c p with waiting := some { r with overdue := true } } := by
  rw [takeOverdue_own, hr]
  simp [hplanned, hmax, hwaited]

theorem takeOverdue_idle {p : Nat} {c : Core} (h : (msAt c p).waiting = none) : msAt (takeOverdue p c) p = msAt c p := by
  rw [takeOverdue_own, h, Option.map_none, ← h]

theorem takeOverdue_other {p q : Nat} (c : Core) (h : q ≠ p) : msAt (takeOverdue p c) q = msAt c q :=
  (msAt_mod p q _ c).trans (if_neg (Ne.symm h))

/-! ### The end of a gathering (R258) -/

theorem runs_gatherExpiry (g : Fin 8) (s : State) : Runs (.gatherExpiry g) s
    (if s.core.seq.due.contains (.gather g) then detected (.gather g) s else s) := rfl

/-- The requests of group `g` whose gathering is over are marked; no other master is touched. -/
theorem takeGather_spec (g : Nat) (c : Core) : ∃ m, takeGather g c = { c with seq.masters := m } ∧
    (∀ p, (∀ r k, waitingAt c p = some r → r.group ≠ some (g, k)) → tget {} m p = msAt c p) ∧
    ∀ p k r, p < 12 → waitingAt c p = some r → r.group = some (g, k) →
      (groupOver g k r.cls c = true → waitingAt { c with seq.masters := m } p = some { r with gatherDone := true }) ∧
      (groupOver g k r.cls c = false → tget {} m p = msAt c p) := by
  obtain ⟨m, hfold, -, hothers, hmembers⟩ := gathers g (List.range 12) c List.nodup_range
  rw [hfold] at hmembers
  exact ⟨m, (takeGather_eq g c).trans hfold, hothers, fun p k r hp => hmembers p k r (List.mem_range.mpr hp)⟩

/-- Settles O33: an overload, the detections that are not due, then SUPPLY_LOW, an overdue request and the end of a gathering. -/
theorem supplyDetections : Obligations.SupplyDetections := by
  refine fun s => ⟨fun hdue => ?_, fun hnot => runs_firstDue_none supplyOverOf_iff (runs_supplyOver s) hnot,
    fun p => runs_notDue (runs_supplyLow p s), fun p => runs_notDue (runs_overdue p s),
    fun g => runs_notDue (runs_gatherExpiry g s), fun p hdue => ?_, fun p hdue => ?_, fun g hdue => ?_⟩
  · obtain ⟨i, hi, hrun⟩ := runs_firstDue supplyOverOf_iff (runs_supplyOver s) hdue
    obtain ⟨u, htake⟩ := takeSupplyOver_only i (takenOff (.supplyOver i) s.core)
    rw [show detected (.supplyOver i) s = _ from state_core s htake] at hrun
    exact ⟨i, _, hi, hrun, rfl⟩
  · exact ⟨_, runs_due (runs_supplyLow p s) hdue, setBit_same _ _ _ p.isLt,
      fun q hq => setBit_other _ _ _ _ (Ne.symm hq), rfl⟩
  · exact ⟨_, runs_due (runs_overdue p s) hdue, fun r => takeOverdue_waited (c := takenOff (.overdue p) s.core),
      takeOverdue_idle (c := takenOff (.overdue p) s.core), fun q => takeOverdue_other (takenOff (.overdue p) s.core), rfl⟩
  · obtain ⟨m, htake, hothers, hmembers⟩ := takeGather_spec g (takenOff (.gather g) s.core)
    refine ⟨_, runs_due (runs_gatherExpiry g s) hdue, ?_⟩
    rw [show detected (.gather g) s = _ from state_core s htake]
    refine ⟨fun p k r hp hw hg => ?_, hothers, rfl⟩
    obtain ⟨hover, hwaits⟩ := hmembers p k r hp hw hg
    have hpast := groupOver_iff g k r.cls (takenOff (.gather g) s.core)
    exact ⟨fun h => hover (hpast.mpr h), fun h => hwaits (Bool.eq_false_iff.mpr fun ho => h (hpast.mp ho))⟩

end Sys2Proof.Machine
end

section
/-! SUPPORT. What every command but SAFETY_TICK and LIFECYCLE_ADVANCE leaves alone (R275, R432, R454 to R457, log 1). -/

namespace Sys2Proof.Machine

/-! ### The meanings that no lemma above covers -/

@[simp] theorem ageDeframers_closed (i : IslSt) : (ageDeframers i).closed = i.closed := rfl

@[simp] theorem islFrame_closed (ok off loaded : Bool) (f : DieFrame) (i : IslSt) : (islFrame ok off loaded f i).closed = i.closed := by
  unfold islFrame
  split <;> rfl

/-- Two islands with the switches that they had, beside another field die and another core. -/
theorem held_sameAll {s : State} (a b : IslSt) (d : DieSt) (c : Core) (ha : a.closed = s.isa.closed) (hb : b.closed = s.isb.closed) :
    Held s { s with isa := a, isb := b, die := d, core := c } :=
  held_all a b d c (fun n h => by rwa [ha] at h) (fun n h => by rwa [hb] at h)

/-- Secrets other than the identity key, beside another core. -/
theorem held_onyx {s : State} (o : OnyxSt) (c : Core) (h : o.identity = s.onyx.identity) : Held s { s with onyx := o, core := c } :=
  ⟨⟨rfl, rfl, .inl h, fun _ => id, fun _ => id⟩, .refl _⟩

theorem fieldClock_held (s : State) : Held s (fieldClock s) := held_ite _ (enterSafeTalk_held _ s) (.refl s)

/-- A scrub notes words and may open every switch; it closes none (R451, R453). -/
theorem scrubbed_closed (l : List Nat) (i : IslSt) :
    (l.foldl (fun i w => { i with memCorr := i.memCorr + 1, memLast := BitVec.ofNat 32 w }) i).closed = i.closed := by
  induction l generalizing i with
  | nil => rfl
  | cons w r ih => exact ih _

theorem safeMemScrub_held (k : Isl) (corrected bad : List Nat) (s : State) :
    ∃ t, Runs (.safeMemScrub k corrected bad) s t ∧ Held s t := by
  refine ⟨_, rfl, (held_core _).trans (held_isl k _ fun n => ?_)⟩
  split
  · rw [scrubbed_closed]
    cases k <;> exact id
  · exact no_closed _ n

theorem sampleFrame_held (a b l : Bool) (o : OffTimes) (s : State) : ∃ t, Runs (.sampleFrame a b l o) s t ∧ Held s t := by
  refine ⟨_, rfl, ?_⟩
  split
  · exact held_ite _ (held_die _) ((held_sameAll _ _ _ _ (islFrame_closed ..) (islFrame_closed ..)).trans (fieldClock_held _))
  · exact .refl s

theorem upFrame_held (x : Fin 36) (rx : UpRx) (s : State) : ∃ t, Runs (.upFrame x rx) s t ∧ Held s t :=
  ⟨_, rfl, held_ite _ (.refl s) (held_ite _ (held_sameAll _ _ s.die _ rfl rfl) (held_core _))⟩

theorem commandFrame_held (ok : Bool) (s : State) : ∃ t, Runs (.commandFrame ok) s t ∧ Held s t := by
  refine ⟨_, rfl, (settleDie_held s).trans ?_⟩
  split
  · exact held_ite _ (held_die _) (.refl _)
  · exact .refl _

theorem flushComplete_held (s : State) : ∃ t, Runs .flushComplete s t ∧ Held s t := by
  refine ⟨_, rfl, ?_⟩
  split
  · exact .refl s
  · refine (flushStores_held s).trans (held_ite _ (resetTo_held _ _) (held_ite _ (held_ite _ ?_ (held_core _)) (held_core _)))
    exact (held_core _).trans (parkedExit_held _)

theorem internalResetRelease_held (s : State) : ∃ t, Runs .internalResetRelease s t ∧ Held s t :=
  ⟨_, rfl, held_ite _ (held_ite _ ((held_core _).trans (wipeOnyx_held _ _)) (held_core _)) (.refl s)⟩

theorem tamperDetect_held (src : TamperSource) (s : State) : ∃ t, Runs (.tamperDetect src) s t ∧ Held s t := by
  refine ⟨_, rfl, held_ite _ ?_ (held_core _)⟩
  have erased : Held s { s with onyx := { s.onyx with wipePending := true, wipeCause := 1 }, core := eraseCore src s.core } :=
    held_onyx _ _ rfl
  exact held_ite _ (erased.trans ((wipeOnyx_held 1 _).trans (parkedExit_held _))) erased

theorem completionTimeout_held (req : Fin 6) (arg : Nat) (s : State) : ∃ t, Runs (.completionTimeout req arg) s t ∧ Held s t := by
  match req with
  | 0 => exact ⟨_, rfl, held_ite _ (.refl s) (held_core _)⟩
  | 1 => exact ⟨_, rfl, held_ite _ (.refl s) (held_core _)⟩
  | 2 => exact ⟨_, rfl, held_ite _ (.refl s) (held_core _)⟩
  | 3 => exact ⟨_, rfl, held_ite _ (held_core _) (.refl s)⟩
  | 4 => exact ⟨_, rfl, held_ite _ (.refl s) (held_core _)⟩
  | 5 => exact ⟨s, rfl, .refl s⟩

/-! ### Every command -/

/-- A command that completes with a state that holds on to what it found. -/
theorem completes_sound {c : Instr} {s : State} (h : ∃ t, Runs c s t ∧ Held s t) : ∃ t, Runs c s t ∧ Sound s t :=
  let ⟨t, hrun, hheld⟩ := h
  ⟨t, hrun, hheld.sound⟩

/-- Every command but a safety tick and LIFECYCLE_ADVANCE completes, and is sound. -/
theorem runs_sound (c : Instr) (s : State) (tick : ∀ k pads role, c ≠ .safetyTick k pads role)
    (life : ∀ k, c ≠ .lifecycleAdvance k) : ∃ t, Runs c s t ∧ Sound s t := by
  cases c with
  | safetyTick k pads role => exact absurd rfl (tick k pads role)
  | lifecycleAdvance k => exact absurd rfl (life k)
  -- The core alone, whatever the command finds.
  | pageInRetry | camPrefetch | camPin | camUnpin | camDirectory | inPosition | stall | load | disable | hpFlowTableBase | hpDbBase
  | hpMirrorBase | hpHbAddr | cpLibBase | sysLock | hpPollNormal | hpHbTimeout | eccWriteBack | pcieLinkEvent | doorbellPollUrgent
  | doorbellPollNormal | fieldForce | learnBaseline | manualMove | workshopKeyReturn | roleLineFault | echo | portalRequest
  | portalStop | carRequest | setFlags | trainFrameReceived | arpRequest | icmpEcho | roleRequest | lockoutReset | loadProgram
  | fifoDrainSuppressed | statsRead | timeAnnotate | vholdCharged => exact ⟨_, rfl, (held_core _).sound⟩
  -- The core alone, on a condition.
  | receiverLock | receiverLockLoss | loReadLatch | busMasterEnable | doorbellData | descriptorFetch | completionWrite
  | heartbeatRead | phyLinkChange | linkLost | helloTimeout | vholdLow | aonClock =>
    exact ⟨_, rfl, (held_ite _ (.refl s) (held_core _)).sound⟩
  | flowEntryRead | hostLost | forceDurationEnd | baselineLearned | learnAbort | supplyLow | overdue | gatherExpiry | roleClaimPulse
  | requestTimeout | unitFailedTelegram | trainSubTimeout | arpRefresh | hashDiverge | plannedSwap | timerExpiry | degradedExpiry
  | isolateFail | inputLate | twinLinkUp | twinLaneUp | twinLaneDown | selftestHello | aonMsAdvance =>
    exact ⟨_, rfl, (held_ite _ (held_core _) (.refl s)).sound⟩
  | upFrameCutoff => exact ⟨_, rfl, (held_ite _ (.refl s) (held_ite _ (held_core _) (held_core _))).sound⟩
  | unsolicitedStatus => exact ⟨_, rfl, (held_ite _ (held_ite _ (held_core _) (held_core _)) (.refl s)).sound⟩
  -- The core alone, on what the due list or the data hold.
  | obstForce | obstEnergy | obstDrawn | supplyOver =>
    refine ⟨_, rfl, Held.sound ?_⟩
    split
    · exact held_core _
    · exact .refl s
  | pageIn =>
    refine ⟨_, rfl, (held_ite _ (.refl s) ?_).sound⟩
    split <;> exact held_core _
  | nak =>
    refine ⟨_, rfl, (held_ite _ ?_ (.refl s)).sound⟩
    split
    · exact held_core _
    · exact .refl s
  -- Detections of an axis, of the field die and of an island.
  | upLost | hallInvalid | hallEncDisagree | following | bridgeDrop => exact ⟨_, rfl, (takeAxisFault_held _ _ s).sound⟩
  | fieldLow | fieldMissing | fieldOk | shortGnd | shortGndClear | extDrive | logicSilence =>
    exact ⟨_, rfl, (takeDieDue_held _ s).sound⟩
  | pairDisc | torqueRemoval | stopTmax | overspeed | soLsStuck | soExt | resetStuck | lockoutResetTimeout | fieldFramesMissing
  | fieldLinkLost => exact ⟨_, rfl, (takeIslDue_held _ _ s).sound⟩
  | speedXchk | safeDisagree => exact ⟨_, rfl, (held_ite _ (takeIslDue_held .a _ s) (takeIslDue_held .b _ s)).sound⟩
  -- The field die.
  | rawSample | sampleInstant | wakeInputSample => exact ⟨_, rfl, ((settleDie_held s).trans (held_ite _ (held_die _) (.refl _))).sound⟩
  | stopWord =>
    refine ⟨_, rfl, Held.sound ?_⟩
    split
    · exact held_die_core _ _
    · exact .refl s
  | fieldDieReset | fieldDieSupplyLoss => exact ⟨_, rfl, (held_die _).sound⟩
  | fieldDieRestart => exact ⟨_, rfl, (held_ite _ (held_die _) (.refl s)).sound⟩
  | wakeFrame => exact ⟨_, rfl, (held_ite _ ((held_die _).trans (parkedExit_held _)) (.refl s)).sound⟩
  | sampleFrame a b l o => exact completes_sound (sampleFrame_held a b l o s)
  | commandFrame ok => exact completes_sound (commandFrame_held ok s)
  -- The islands.
  | currentPeriod =>
    exact ⟨_, rfl, (held_ite _ (.refl s)
      (held_sameAll _ _ s.die _ (ageDeframers_closed s.isa) (ageDeframers_closed s.isb))).sound⟩
  | upFrame x rx => exact completes_sound (upFrame_held x rx s)
  | darkTest k n rd => exact ⟨_, rfl, (darkTest_held k n rd s).sound⟩
  | vsoLow => exact ⟨_, rfl, (held_ite _ (.refl s) (held_isls _ _ _ (no_closed _) (no_closed _))).sound⟩
  | vsoRecovery =>
    exact ⟨_, rfl, (held_sameAll { s.isa with vsoLow := false } { s.isb with vsoLow := false } s.die s.core rfl rfl).sound⟩
  | soOverload k n =>
    exact ⟨_, rfl, (held_ite _ ((held_same k { islAt k s with now := islNow k s.core } rfl).trans (takeOutFault_held k n 0x20C _))
      (.refl s)).sound⟩
  | safeMemScrub k corrected bad => exact completes_sound (safeMemScrub_held k corrected bad s)
  -- The ticks of the core.
  | seqTick => exact ⟨_, rfl, (held_ite _ (.refl s) ((userReads_held 0 16 s).trans (seqTick_held _))).sound⟩
  | frame => exact ⟨_, rfl, (held_ite _ (.refl s) ((userReads_held 16 24 s).trans (frameAll_held _))).sound⟩
  -- BAR0, BAR2 and the banks.
  | sysReset value => exact ⟨_, rfl, ((held_core _).trans (writeReset_held value _)).sound⟩
  | bar0Write off value be => exact ⟨_, rfl, (held_ite _ ((held_core _).trans (barWrite_held _ value _)) (.refl s)).sound⟩
  | bar2Read off => exact ⟨_, rfl, (bar2Read_held off s).sound⟩
  | bar2Write off value be => exact ⟨_, rfl, (bar2Write_held off value be s).sound⟩
  | opalRegionTest bad => exact ⟨_, rfl, (opalTest_held bad s).sound⟩
  -- Operations that reach beyond the core.
  | loadConfig slot => exact ⟨_, rfl, (startOpS_held _ _ _ (cfgDeliver_held slot) s).sound⟩
  | journalRead slot => exact ⟨_, rfl, (startOpS_held _ _ _ (journalDeliver_held slot) s).sound⟩
  | keyInstall slot => exact ⟨_, rfl, (startOpS_held _ _ _ (keyDeliver_held slot) s).sound⟩
  | certRead slot => exact ⟨_, rfl, (startOpS_held _ _ _ (certDeliver_held slot) s).sound⟩
  | diagRead slot => exact ⟨_, rfl, (startOpS_held _ _ _ (diagDeliver_held slot) s).sound⟩
  | selftestRun slot => exact ⟨_, rfl, (startOpS_scanned _ _ _ (runDeliver_scanned slot) s).sound⟩
  -- The recorder, the train line, the twin and the service port.
  | recordWrite => exact ⟨_, rfl, (writeRecord_held s).sound⟩
  | telegramPublish =>
    exact ⟨_, rfl, (held_ite _ (.refl s) (held_ite _ ((held_core _).trans (held_fold _ sendDue_held _ _)) (held_core _))).sound⟩
  | telegramVerify => exact ⟨_, rfl, (held_ite _ (serveQueues_held s) (.refl s)).sound⟩
  | auth | sync | delay | input | snapshot | page | resyncReq | relinquish => exact ⟨_, rfl, (onMessage_held _ _ _ _ s).sound⟩
  | hello => exact ⟨_, rfl, ((held_core _).trans (onMessage_held _ _ _ _ _)).sound⟩
  | image h m => exact ⟨_, rfl, (held_ite _ ((held_core _).trans (takeImage_held m _)) (held_core _)).sound⟩
  | getStatus | getIdent | getSelftest | getEvents | getCycles | getPortal => exact ⟨_, rfl, (svcQuery_held _ _ _ s).sound⟩
  | setRate =>
    exact ⟨_, rfl, (held_ite _ ((svcQuery_held _ _ _ s).trans (held_core _)) (svcQuery_held _ _ _ s)).sound⟩
  | completionTimeout req arg => exact completes_sound (completionTimeout_held req arg s)
  -- Supplies, resets, the self-test and the changes of mode.
  | porReset =>
    exact ⟨_, rfl, ((porNow_held s).trans
      (held_ite _ (held_onyx { (porNow s).onyx with wipePending := true, wipeCause := 1 } _ rfl) (.refl _))).sound⟩
  | pfail => exact ⟨_, rfl, (held_ite _ (.refl s) (startFlush_held _ _ _ s)).sound⟩
  | borReset => exact ⟨_, rfl, (held_ite _ (resetAgain_held _ s) (startFlush_held _ _ _ s)).sound⟩
  | pinReset => exact ⟨_, rfl, ((held_die _).trans (held_ite _ (resetAgain_held _ _) (startFlush_held _ _ _ _))).sound⟩
  | deferredSoftReset => exact ⟨_, rfl, (held_ite _ ((held_core _).trans (startFlush_held _ _ _ _)) (.refl s)).sound⟩
  | flushComplete => exact completes_sound (flushComplete_held s)
  | internalResetRelease => exact completes_sound (internalResetRelease_held s)
  | selftestStep fail rows us =>
    exact ⟨_, rfl, iteInduction (motive := Sound s) (fun _ => (selftestStep_scanned _ _ _ s).sound) fun _ => (Held.refl s).sound⟩
  | stTimeout =>
    refine ⟨_, rfl, iteInduction (motive := Sound s) (fun _ => ?_) fun _ => (Held.refl s).sound⟩
    exact ((countStep_scanned _ s).trans (failSelftest_scanned _ _ _ _)).sound
  | refclkFail => exact ⟨_, rfl, (held_ite _ (.refl s) ((held_core _).trans (enterSafeTalk_held _ _))).sound⟩
  | clockFault src => exact ⟨_, rfl, (held_ite _ (.refl s) ((clockAct_held src s).trans (enterSafeTalk_held _ _))).sound⟩
  | mramFault => exact ⟨_, rfl, (enterSafeTalk_held _ s).sound⟩
  | parkedDoorbellPoll word => exact ⟨_, rfl, (held_ite _ ((held_core _).trans (parkedDoorbell_held word _)) (.refl s)).sound⟩
  | parkedRoleInChange => exact ⟨_, rfl, (held_ite _ (parkedExit_held s) (.refl s)).sound⟩
  -- Tamper.
  | tamperDetect src => exact completes_sound (tamperDetect_held src s)
  | onyxWiped => exact ⟨_, rfl, (held_ite _ (wipeOnyx_held _ s) (.refl s)).sound⟩
  | tamperLockout => exact ⟨_, rfl, (held_ite _ ((held_core _).trans (enterLockout_held _ _ _)) (.refl s)).sound⟩

/-! ### The switches -/

theorem Kept.onlyOpens {s t : State} (h : Kept s t) (k : Isl) : OnlyOpens k s t :=
  match k with
  | .a => h.isa
  | .b => h.isb

theorem lifeKept_core {s : State} (c : Core) : LifeKept s { s with core := c } := ⟨rfl, rfl, rfl, rfl, .refl _⟩

/-- LIFECYCLE_ADVANCE leaves both islands as they are. -/
theorem lifecycleAdvance_kept (slot : Fin 512) (s : State) : ∃ t, Runs (.lifecycleAdvance slot) s t ∧ LifeKept s t := by
  refine ⟨_, rfl, ?_⟩
  unfold startOpS
  split
  · exact (lifeKept_core _).trans (lifeDeliver_kept _ _ _)
  · exact .refl s

theorem LifeKept.onlyOpens {s t : State} (h : LifeKept s t) (k : Isl) : OnlyOpens k s t :=
  match k with
  | .a => fun n hn => by rwa [show islAt .a t = islAt .a s from h.isa] at hn
  | .b => fun n hn => by rwa [show islAt .b t = islAt .b s from h.isb] at hn

/-- A safety tick in reset has no effect; out of reset the island takes what is due, and evaluates (R278). -/
theorem runs_safetyTick_inReset (k : Isl) (pads : List PadIn) (role : RoleIn) {s : State} (h : s.core.sys.inReset = true) :
    Runs (.safetyTick k pads role) s s := congrArg Host.Outcome.next (if_pos h)

theorem runs_safetyTick (k : Isl) (pads : List PadIn) (role : RoleIn) {s : State} (h : s.core.sys.inReset = false) :
    Runs (.safetyTick k pads role) s (islTick k pads role (settleIsl k s)) :=
  congrArg Host.Outcome.next (if_neg (by rw [h]; decide))

/-- A safety tick of one island closes no switch of the other (R275). -/
theorem safetyTick_other (k : Isl) (pads : List PadIn) (role : RoleIn) (s : State) :
    ∃ t, Runs (.safetyTick k pads role) s t ∧ OnlyOpens (otherIsl k) s t := by
  cases h : s.core.sys.inReset with
  | true => exact ⟨s, runs_safetyTick_inReset k pads role h, fun _ => id⟩
  | false =>
    obtain ⟨-, -, -, hother, -⟩ := islTick_rest k pads role (settleIsl k s)
    exact ⟨_, runs_safetyTick k pads role h, fun n hn => (settleIsl_held k s).onlyOpens _ n (hother n hn)⟩

theorem eq_otherIsl : ∀ {j k : Isl}, k ≠ j → k = otherIsl j
  | .a, .b, _ => rfl
  | .b, .a, _ => rfl
  | .a, .a, h => absurd rfl h
  | .b, .b, h => absurd rfl h

/-- A command other than a safety tick of an island closes none of the island's switches (R275, R296). -/
theorem onlyOpens_of_not_own_tick (c : Instr) (s : State) (k : Isl) (own : ∀ pads role, c ≠ .safetyTick k pads role) :
    ∃ t, Runs c s t ∧ OnlyOpens k s t := by
  by_cases tick : ∃ j pads role, c = .safetyTick j pads role
  · obtain ⟨j, pads, role, rfl⟩ := tick
    have hk : k = otherIsl j := eq_otherIsl fun h => own pads role (h ▸ rfl)
    exact hk ▸ safetyTick_other j pads role s
  by_cases life : ∃ slot, c = .lifecycleAdvance slot
  · obtain ⟨slot, rfl⟩ := life
    obtain ⟨t, hrun, hkept⟩ := lifecycleAdvance_kept slot s
    exact ⟨t, hrun, hkept.onlyOpens k⟩
  · obtain ⟨t, hrun, hsound⟩ := runs_sound c s (fun j pads role h => tick ⟨j, pads, role, h⟩) fun slot h => life ⟨slot, h⟩
    exact ⟨t, hrun, hsound.onlyOpens k⟩

/-- What a command completes in is one state. -/
theorem Runs.unique {c : Instr} {s t u : State} (ht : Runs c s t) (hu : Runs c s u) : t = u :=
  Host.Outcome.next.inj (ht.symm.trans hu)

/-- Settles O8: every command but a safety tick of the island only opens, and after that tick what is closed is requested. -/
theorem switchClosesOnOwnEvaluation : Obligations.SwitchClosesOnOwnEvaluation := by
  intro c s t k n hrun hclosed
  by_cases own : ∃ pads role, c = .safetyTick k pads role
  · obtain ⟨pads, role, rfl⟩ := own
    cases h : s.core.sys.inReset with
    | true =>
      obtain rfl := hrun.unique (runs_safetyTick_inReset k pads role h)
      exact .inl hclosed
    | false =>
      obtain rfl := hrun.unique (runs_safetyTick k pads role h)
      exact .inr ⟨⟨pads, role, rfl⟩, islTick_requested k pads role _ n hclosed⟩
  · obtain ⟨u, hu, hopens⟩ := onlyOpens_of_not_own_tick c s k fun pads role h => own ⟨pads, role, h⟩
    obtain rfl := hrun.unique hu
    exact .inl (hopens n hclosed)

end Sys2Proof.Machine
end

section
/-! SUPPORT. Torque removal, the VSO supply and the safety tick (R275, R278, R292, R296, R301, R302). -/

namespace Sys2Proof.Machine

/-! ### Torque removal (R292, R302) -/

theorem removeTorque_eq (p : Nat) (i : IslSt) (h : (tget {} i.stops p).active = true) : removeTorque p i = { i with
    stops := tmod {} i.stops p fun x => { x with removed := true }
    closed := setBit i.closed (4 + p) false, closing := tset 0 i.closing (4 + p) 0 } := if_pos h

/-- Torque is removed from a stop in progress: the stop says so, no other stop changes, and the torque-enable output opens. -/
theorem removeTorque_active (p : Nat) (i : IslSt) (h : (tget {} i.stops p).active = true) :
    tget {} (removeTorque p i).stops p = { tget {} i.stops p with removed := true } ∧
      (∀ n, n ≠ p → tget {} (removeTorque p i).stops n = tget {} i.stops n) ∧
      removeTorque p i = { i with
        stops := (removeTorque p i).stops, closed := setBit i.closed (4 + p) false, closing := tset 0 i.closing (4 + p) 0 } := by
  rw [removeTorque_eq p i h]
  dsimp only
  exact ⟨by rw [tget_tmod, if_pos rfl], fun n hn => by rw [tget_tmod, if_neg (Ne.symm hn)], rfl⟩

/-- A portal without a stop has no torque to remove. -/
theorem removeTorque_idle (p : Nat) (i : IslSt) (h : (tget {} i.stops p).active = false) : removeTorque p i = i :=
  if_neg (by rw [h]; decide)

theorem wordOf_removed (p : Fin 12) (i : IslSt) : pbit (wordOf i).removed p = (tget {} i.stops p).removed := by
  unfold pbit wordOf
  rw [bitsBy_bit, decide_eq_true p.isLt, Bool.true_and]

/-- T_ZERO has passed (R292). -/
theorem torque_taken (k : Isl) (p : Nat) (s : State) (h : (islAt k s).due.contains (.torque p) = true) :
    takeIslDue k (.torque p) s =
      setIsl k (removeTorque p { islAt k s with due := (islAt k s).due.erase (.torque p), now := islNow k s.core }) s := by
  rw [dueTaken k _ s h]
  unfold takeIsl
  dsimp only
  rw [islAt_setIsl, setIsl_setIsl]

/-- T_MAX has passed over a stop that has torque: it is removed, and reported where the other island has not removed it (R292, R317). -/
theorem tmax_taken (k : Isl) (p : Fin 12) (s : State) (h : (islAt k s).due.contains (.tmax p) = true)
    (hactive : (tget {} (islAt k s).stops p).active = true) (hremoved : (tget {} (islAt k s).stops p).removed = false) :
    takeIslDue k (.tmax p) s = report (if (tget {} (islAt (otherIsl k) s).stops p).removed then [] else [⟨0x204, p, 255⟩])
      (setIsl k (removeTorque p { islAt k s with due := (islAt k s).due.erase (.tmax p), now := islNow k s.core }) s) := by
  rw [dueTaken k _ s h]
  unfold takeIsl
  dsimp only
  rw [islAt_setIsl, if_pos (by simp [hactive, hremoved]), setIsl_setIsl, islAt_setIsl_other, wordOf_removed]
  split
  · rw [report_nil]
  · rfl

/-- T_MAX finds no stop, or one that has removed torque (R292). -/
theorem tmax_idle (k : Isl) (p : Nat) (s : State) (h : (islAt k s).due.contains (.tmax p) = true)
    (hidle : (tget {} (islAt k s).stops p).active = false ∨ (tget {} (islAt k s).stops p).removed = true) :
    takeIslDue k (.tmax p) s = setIsl k { islAt k s with due := (islAt k s).due.erase (.tmax p), now := islNow k s.core } s := by
  rw [dueTaken k _ s h]
  unfold takeIsl
  dsimp only
  rw [islAt_setIsl, if_neg (by rcases hidle with h | h <;> simp [h])]

/-- Settles O23: T_ZERO, then T_MAX; each is due over a stop that has torque, due without one, or not due. -/
theorem torqueRemoved : Obligations.TorqueRemoved := by
  intro k p s
  refine ⟨fun h => congrArg Host.Outcome.next (takeIslDue_not k _ s h), fun h => congrArg Host.Outcome.next (takeIslDue_not k _ s h),
    fun h hactive => ⟨_, congrArg Host.Outcome.next (torque_taken k p s h), ?_, ?_⟩, fun h hidle => ?_,
    fun h hactive hremoved => ⟨_, congrArg Host.Outcome.next (tmax_taken k p s h hactive hremoved), ?_, ?_, ?_⟩,
    fun h hidle => congrArg Host.Outcome.next (tmax_idle k p s h hidle)⟩
  · rw [islAt_setIsl]
    exact removeTorque_active p _ hactive
  · rw [islAt_setIsl]
  · exact congrArg Host.Outcome.next ((torque_taken k p s h).trans (congrArg (setIsl k · s) (removeTorque_idle p _ hidle)))
  · rw [islAt_report, islAt_setIsl]
    exact removeTorque_active p _ hactive
  · rw [report_faultQ, setIsl_core]
  · rw [islAt_report, islAt_setIsl]
    exact setIsl_report_at k _ _ s

/-! ### The VSO supply (R301) -/

/-- Settles O25: VSO low while it is low already, VSO low, the recovery. -/
theorem vsoSupply : Obligations.VsoSupply := fun s =>
  ⟨fun h => congrArg Host.Outcome.next (if_pos h),
    fun h => ⟨_, congrArg Host.Outcome.next (if_neg (by rw [h]; decide)), ⟨rfl, rfl⟩, rfl⟩,
    ⟨_, rfl, rfl, rfl, rfl⟩⟩

/-! ### A safety tick (R275, R278, R296) -/

/-- With nothing due an island only takes note of the time before its tick (log 3). -/
theorem settleIsl_none (k : Isl) (s : State) (h : (islAt k s).due = []) :
    settleIsl k s = setIsl k { islAt k s with due := [], now := islNow k s.core } s := by
  unfold settleIsl
  rw [h]
  rfl

/-- Settles O26: in reset nothing, else the tick of an island that has taken note of the time. -/
theorem safetyTickRuns : Obligations.SafetyTickRuns := by
  intro k pads role s
  refine ⟨runs_safetyTick_inReset k pads role, fun hreset hdue => ⟨_, runs_safetyTick k pads role hreset, ?_⟩⟩
  have hstore := (settleIsl_held k s).store
  obtain ⟨hpending, hfuse, -, hother, hgrows⟩ := islTick_rest k pads role (settleIsl k s)
  have hcount := islTick_tick k pads role (settleIsl k s)
  have hshut := islTick_gated k pads role (settleIsl k s)
  rw [settleIsl_none k s hdue] at hstore hpending hfuse hother hgrows hcount hshut ⊢
  rw [islAt_setIsl] at hcount hshut
  refine ⟨hcount, islTick_requested k pads role _, hshut, fun n hn => ?_, (hstore.trans hgrows).kept, ?_, ?_⟩
  · have := hother n hn
    rwa [islAt_setIsl_other] at this
  · rw [hfuse, setIsl_fuse]
  · rw [hpending, setIsl_pending]

end Sys2Proof.Machine
end

section
/-! SUPPORT. Output faults: what opens a switch for good, and the dark tests (R297 to R302, R319). -/

namespace Sys2Proof.Machine

/-! ### One output fault (R302, R317, R319) -/

theorem outFault_only (n code : Nat) (i : IslSt) : ∃ f c g d l, outLatch n code (latchOut n code i) =
    { i with outFault := f, closed := c, closing := g, dev := d, latches := l } := ⟨_, _, _, _, _, (outFault_island n code i).1⟩

/-- An output fault that an island finds as `i`, which has the output faults of the state: `i` latches it, and it is reported (R302). -/
theorem takeOutFault_at (k : Isl) (n code : Nat) (i : IslSt) (s : State) (hfault : i.outFault = (islAt k s).outFault) :
    takeOutFault k n code (setIsl k i s) =
      report (if tget 0 s.isa.outFault n = 0 ∧ tget 0 s.isb.outFault n = 0 then [⟨code, if n < 4 then 255 else n - 4, n⟩] else [])
        (setIsl k (outLatch n code (latchOut n code i)) s) := by
  have hsame : (setIsl k i s).isa.outFault = s.isa.outFault ∧ (setIsl k i s).isb.outFault = s.isb.outFault := by
    cases k
    · exact ⟨hfault, rfl⟩
    · exact ⟨rfl, hfault⟩
  rw [takeOutFault_eq, hsame.1, hsame.2, islAt_setIsl, setIsl_setIsl]

/-- An output fault that island `k` finds in `i`, an island with the switches and the output faults of the state (R302, R319). -/
theorem takeOutFault_outputFault (k : Isl) {n : Nat} (code : Nat) (i : IslSt) (s : State) (hn : n < 16)
    (hclosed : i.closed = (islAt k s).closed) (hfault : i.outFault = (islAt k s).outFault) :
    OutputFault k n code i s (takeOutFault k n code (setIsl k i s)) := by
  obtain ⟨-, hfirst, -, hlatch⟩ := outFault_island n code i
  rw [takeOutFault_at k n code i s hfault]
  refine ⟨⟨?_, fun m hm => ?_⟩, ?_, ?_, ?_, ?_⟩
  · rw [islAt_report, islAt_setIsl, outLatch_closed, latchOut_closed]
    exact setBit_same _ _ _ hn
  · rw [islAt_report, islAt_setIsl, outLatch_closed, latchOut_closed, hclosed] at hm
    exact setBit_clears _ _ _ hm
  · rw [islAt_report, islAt_setIsl, hfirst, hfault]
  · rw [islAt_report, islAt_setIsl]
    exact hlatch
  · rw [report_faultQ, setIsl_core]
  · obtain ⟨f, c, g, d, l, honly⟩ := outFault_only n code i
    rw [islAt_report, islAt_setIsl, honly]
    exact setIsl_report_at k _ _ s

/-- A due detection of an output fault opens the switch and latches (R297, R299). -/
theorem outFault_taken (k : Isl) {n code : Nat} (d : IslDue) (s : State) (hn : n < 16) (h : (islAt k s).due.contains d = true)
    (hd : ∀ u, takeIsl k d u = takeOutFault k n code u) : OutputFault k n code
      { islAt k s with due := (islAt k s).due.erase d, now := islNow k s.core } s (takeIslDue k d s) := by
  rw [dueTaken k d s h, hd]
  exact takeOutFault_outputFault k code _ s hn rfl rfl

/-! ### Several output faults in a row -/

/-- The switch of output `n` is open, with its fault latched. -/
def FaultedOpen (k : Isl) (n : Nat) (s : State) : Prop := (islAt k s).closed.getLsbD n = false ∧ tget 0 (islAt k s).outFault n ≠ 0

theorem takeOutFault_faultedOpen (k : Isl) {n code : Nat} (s : State) (hn : n < 16) (hcode : code ≠ 0) :
    FaultedOpen k n (takeOutFault k n code s) := by
  obtain ⟨-, hfirst, -⟩ := outFault_island n code (islAt k s)
  unfold FaultedOpen
  rw [takeOutFault_eq, islAt_report, islAt_setIsl, outLatch_closed, latchOut_closed, hfirst]
  exact ⟨setBit_same _ _ _ hn, by split <;> assumption⟩

/-- A fault of any output leaves an open switch open and a latched fault latched. -/
theorem FaultedOpen.stays {k : Isl} {m : Nat} {s : State} (h : FaultedOpen k m s) (n code : Nat) :
    FaultedOpen k m (takeOutFault k n code s) := by
  obtain ⟨hopen, hlatched⟩ := h
  obtain ⟨-, hfirst, hothers, -⟩ := outFault_island n code (islAt k s)
  refine ⟨Bool.eq_false_iff.mpr fun hc => ?_, ?_⟩
  · have := (takeOutFault_held k n code s).onlyOpens k m hc
    rw [hopen] at this
    cases this
  · rw [takeOutFault_eq, islAt_report, islAt_setIsl]
    by_cases e : m = n
    · subst e
      rw [hfirst, if_neg hlatched]
      exact hlatched
    · rw [hothers m e]
      exact hlatched

theorem FaultedOpen.stays_fold {k : Isl} {m : Nat} {s : State} (h : FaultedOpen k m s) (code : Nat) (l : List Nat) :
    FaultedOpen k m (l.foldl (fun s o => takeOutFault k o code s) s) := by
  induction l generalizing s with
  | nil => exact h
  | cons a r ih => exact ih (h.stays a code)

/-- Every output of a list is open with its fault latched after the list's faults. -/
theorem fold_faultedOpen (k : Isl) {code : Nat} (hcode : code ≠ 0) (l : List Nat) (hl : ∀ o ∈ l, o < 16) (s : State) :
    ∀ o ∈ l, FaultedOpen k o (l.foldl (fun s o => takeOutFault k o code s) s) := by
  induction l generalizing s with
  | nil => exact fun o ho => absurd ho List.not_mem_nil
  | cons a r ih =>
    intro o ho
    rcases List.mem_cons.mp ho with rfl | ho
    · exact (takeOutFault_faultedOpen k s (hl o ho) hcode).stays_fold code r
    · exact ih (fun x hx => hl x (List.mem_cons_of_mem _ hx)) _ o ho

/-! ### A dark test (R298, R300, R301) -/

/-- A dark test of output `n` runs (R298, R301). -/
def DarkRuns (n : Nat) (rd : DarkRead) (i : IslSt) : Prop :=
  i.darkDue.getLsbD n = true ∧ i.closed.getLsbD n = true ∧ rd.waited = true ∧ i.vsoLow = false

/-- Output `o` is crossed with the tested output `n` (R298, R300). -/
def Crosses (n : Fin 16) (rd : DarkRead) (i : IslSt) (o : Fin 16) : Prop :=
  o ∈ rd.others ∧ o ≠ n ∧ i.closed.getLsbD o = true ∧
    (outTwinPar (islSec i) n = true → outTwinPar (islSec i) o = true → n ∉ rd.twinHolds ∧ o ∉ rd.twinHolds)

theorem mem_crossed (n : Fin 16) (rd : DarkRead) (i : IslSt) (o : Fin 16) : o.val ∈ crossed n rd i ↔ Crosses n rd i o := by
  have hheld : (rd.twinHolds.any fun h => h.val == n.val || h.val == o.val) = false ↔ n ∉ rd.twinHolds ∧ o ∉ rd.twinHolds := by
    simp only [List.any_eq_false, Bool.or_eq_true, beq_iff_eq, Fin.val_inj, not_or]
    exact ⟨fun h => ⟨fun hn => (h n hn).1 rfl, fun ho => (h o ho).2 rfl⟩,
      fun h x hx => ⟨fun e => h.1 (e ▸ hx), fun e => h.2 (e ▸ hx)⟩⟩
  have hothers : o.val ∈ rd.others.map Fin.val ↔ o ∈ rd.others :=
    List.mem_map.trans ⟨fun ⟨_, hx, hval⟩ => Fin.ext hval ▸ hx, fun ho => ⟨o, ho, rfl⟩⟩
  unfold crossed Crosses
  rw [List.mem_filter, hothers, ← hheld]
  simp only [Bool.and_eq_true, bne_iff_ne, ne_eq, Fin.val_inj, Bool.not_eq_true', Bool.and_eq_false_imp, and_assoc, and_imp]

theorem crossed_lt {n : Nat} {rd : DarkRead} {i : IslSt} {x : Nat} (h : x ∈ crossed n rd i) : x < 16 := by
  obtain ⟨o, -, rfl⟩ := List.mem_map.mp (List.mem_filter.mp h).1
  exact o.isLt

theorem crossed_nil {n : Fin 16} {rd : DarkRead} {i : IslSt} (h : ∀ o, ¬ Crosses n rd i o) : crossed n rd i = [] :=
  List.eq_nil_iff_forall_not_mem.mpr fun x hx => h ⟨x, crossed_lt hx⟩ ((mem_crossed n rd i ⟨x, crossed_lt hx⟩).mp hx)

/-- The guard of a dark test: whether it runs (R298, R301). -/
theorem darkRuns_iff (n : Nat) (rd : DarkRead) (i : IslSt) :
    DarkRuns n rd i ↔ (!i.darkDue.getLsbD n || !i.closed.getLsbD n || !rd.waited || i.vsoLow) = false := by
  unfold DarkRuns
  simp only [Bool.or_eq_false_iff, Bool.not_eq_false', and_assoc]

theorem darkTest_idle (k : Isl) (n : Nat) (rd : DarkRead) (s : State) (h : ¬ DarkRuns n rd (islAt k s)) : darkTest k n rd s = s :=
  if_pos (Bool.not_eq_false _ |>.mp fun hguard => h ((darkRuns_iff n rd _).mpr hguard))

/-- The state once a dark test of output `n` has been noted: it is done for this cycle, and counted (R298). -/
def darkNoted (k : Isl) (n : Nat) (s : State) : State :=
  setIsl k { islAt k s with
    darkDue := setBit (islAt k s).darkDue n false, dark := tset 0 (islAt k s).dark n (tget 0 (islAt k s).dark n + 1)
    now := islNow k s.core } s

/-- What a dark test finds of its own output: a switch that is stuck, or one that stays open (R298). -/
def darkOwn (k : Isl) (n : Nat) (rd : DarkRead) (s : State) : State :=
  if rd.left = false then takeOutFault k n (if k = .a then 0x207 else 0x208) s
  else if rd.back = false then takeOutFault k n 0x20B s else s

/-- A dark test that runs: its own output, then every output that it shows crossed (R298, R300). -/
theorem darkTest_runs (k : Isl) (n : Nat) (rd : DarkRead) (s : State) (h : DarkRuns n rd (islAt k s)) : darkTest k n rd s =
    if crossed n rd (islAt k s) = [] then darkOwn k n rd (darkNoted k n s)
    else (n :: crossed n rd (islAt k s)).foldl (fun s o => takeOutFault k o 0x209 s) (darkOwn k n rd (darkNoted k n s)) := by
  unfold darkTest darkOwn
  dsimp only
  rw [if_neg (Bool.eq_false_iff.mp ((darkRuns_iff n rd _).mp h))]
  simp only [Bool.not_eq_true', List.isEmpty_iff, beq_iff_eq, List.foldl_cons]
  rfl

theorem darkTest_alone {k : Isl} {n : Fin 16} {rd : DarkRead} {s : State} (h : DarkRuns n rd (islAt k s))
    (halone : ∀ o, ¬ Crosses n rd (islAt k s) o) : darkTest k n rd s = darkOwn k n rd (darkNoted k n s) :=
  (darkTest_runs k n rd s h).trans (if_pos (crossed_nil halone))

/-- A dark test that shows outputs crossed opens them all, its own too, and latches each (R298, R302). -/
theorem darkTest_crossed {k : Isl} {n : Fin 16} {rd : DarkRead} {s : State} (h : DarkRuns n rd (islAt k s))
    (hcrosses : ∃ o, Crosses n rd (islAt k s) o) (o : Fin 16) (ho : o = n ∨ Crosses n rd (islAt k s) o) :
    FaultedOpen k o (darkTest k n rd s) := by
  obtain ⟨x, hx⟩ := hcrosses
  rw [darkTest_runs k n rd s h, if_neg (List.ne_nil_of_mem ((mem_crossed n rd _ x).mpr hx))]
  refine fold_faultedOpen k (by decide) _ (fun y hy => ?_) _ o (List.mem_cons.mpr (ho.imp (congrArg Fin.val) (mem_crossed n rd _ o).mpr))
  rcases List.mem_cons.mp hy with rfl | hy
  · exact n.isLt
  · exact crossed_lt hy

theorem darkNoted_fault (k : Isl) (n : Fin 16) (code : Nat) (s : State) : OutputFault k n code
    { islAt k s with
      darkDue := setBit (islAt k s).darkDue n false, dark := tset 0 (islAt k s).dark n (tget 0 (islAt k s).dark n + 1)
      now := islNow k s.core } s (takeOutFault k n code (darkNoted k n s)) :=
  takeOutFault_outputFault k code _ s n.isLt rfl rfl

theorem darkOwn_passes {k : Isl} {n : Nat} {rd : DarkRead} {s : State} (hleft : rd.left = true) (hback : rd.back = true) :
    darkOwn k n rd s = s := by
  unfold darkOwn
  rw [if_neg (by rw [hleft]; decide), if_neg (by rw [hback]; decide)]

theorem darkOwn_stuck {k : Isl} {n : Nat} {rd : DarkRead} {s : State} (hleft : rd.left = false) :
    darkOwn k n rd s = takeOutFault k n (if k = .a then 0x207 else 0x208) s := if_pos hleft

theorem darkOwn_open {k : Isl} {n : Nat} {rd : DarkRead} {s : State} (hleft : rd.left = true) (hback : rd.back = false) :
    darkOwn k n rd s = takeOutFault k n 0x20B s := by
  unfold darkOwn
  rw [if_neg (by rw [hleft]; decide), if_pos hback]

/-! ### The commands -/

/-- A command that takes detection `d` of island `k` as an output fault (R297, R299). -/
theorem runs_outFault {k : Isl} {n : Fin 16} {code : Nat} {d : IslDue} {c : Instr} {s : State}
    (hrun : Runs c s (takeIslDue k d s)) (hd : ∀ u, takeIsl k d u = takeOutFault k n code u) :
    ((islAt k s).due.contains d = false → Runs c s s) ∧ ((islAt k s).due.contains d = true → ∃ t, Runs c s t ∧
      OutputFault k n code { islAt k s with due := (islAt k s).due.erase d, now := islNow k s.core } s t) :=
  ⟨fun h => hrun.trans (congrArg _ (takeIslDue_not k d s h)), fun h => ⟨_, hrun, outFault_taken k d s n.isLt h hd⟩⟩

/-- An overload of a closed switch is an output fault; an open one has none (R301). -/
theorem runs_soOverload (k : Isl) (n : Fin 16) (s : State) :
    ((islAt k s).closed.getLsbD n = false → Runs (.soOverload k n) s s) ∧ ((islAt k s).closed.getLsbD n = true →
      ∃ t, Runs (.soOverload k n) s t ∧ OutputFault k n 0x20C { islAt k s with now := islNow k s.core } s t) :=
  ⟨fun h => congrArg Host.Outcome.next (if_neg (by rw [h]; decide)),
    fun h => ⟨_, congrArg Host.Outcome.next (if_pos h), takeOutFault_outputFault k 0x20C _ s n.isLt rfl rfl⟩⟩

/-- Settles O24: the overload, the external drive, the stuck low side, then the outcomes of a dark test. -/
theorem outputFaults : Obligations.OutputFaults := by
  intro s n
  obtain ⟨hls, hlsDue⟩ := runs_outFault (k := .a) (d := .lsStuck n) (show Runs (.soLsStuck n) s _ from rfl) fun _ => rfl
  refine ⟨fun k => runs_soOverload k n s, fun k => runs_outFault (show Runs (.soExt k n) s _ from rfl) fun _ => rfl,
    hls, hlsDue, fun k rd => ?_⟩
  have alone (h : DarkRuns n rd (islAt k s)) (halone : ∀ o, ¬ Crosses n rd (islAt k s) o) :
      Runs (.darkTest k n rd) s (darkOwn k n rd (darkNoted k n s)) := congrArg Host.Outcome.next (darkTest_alone h halone)
  refine ⟨fun h => congrArg Host.Outcome.next (darkTest_idle k n rd s h), fun h halone hleft hback => ?_,
    fun h halone hleft => ⟨_, alone h halone, ?_⟩, fun h halone hleft hback => ⟨_, alone h halone, ?_⟩,
    fun h hcrosses => ⟨_, rfl, (darkTest_held k n rd s).onlyOpens k, darkTest_crossed h hcrosses⟩⟩
  · exact (alone h halone).trans (congrArg Host.Outcome.next (darkOwn_passes hleft hback))
  · rw [darkOwn_stuck hleft]
    exact darkNoted_fault k n _ s
  · rw [darkOwn_open hleft hback]
    exact darkNoted_fault k n 0x20B s

end Sys2Proof.Machine
end

section
/-! SUPPORT. The other duties of an island: button, clearing, scrub, role line (R326, R331, R356 to R358, R451, R453). -/

namespace Sys2Proof.Machine

/-- An island and a core are replaced in either order. -/
theorem setIsl_withCore (k : Isl) (i : IslSt) (c : Core) (s : State) :
    ({ setIsl k i s with core := c } : State) = setIsl k i { s with core := c } := by
  cases k <;> rfl

/-! ### The button and the clearing (R326, R331) -/

/-- A press that lasts too long is recorded (R326). -/
theorem resetStuck_taken (k : Isl) (s : State) (h : (islAt k s).due.contains .resetStuck = true) :
    takeIslDue k .resetStuck s =
      { setIsl k { islAt k s with due := (islAt k s).due.erase .resetStuck, now := islNow k s.core } s with
        core := event 0x071 (islSource k) [islNo k] s.core } := by
  rw [dueTaken k _ s h]
  unfold takeIsl
  rw [setIsl_core]

/-- A LOCKOUT_RESET that the island has not followed in time ends with PREEMPTED, and the island gives the clearing up (R331). -/
theorem lockoutTimeout_taken (k : Isl) (s : State) (r : ClearSt) (h : (islAt k s).due.contains .lockoutTimeout = true)
    (hreq : s.core.seq.clearReq = some r) : takeIslDue k .lockoutTimeout s =
      setIsl k { islAt k s with due := (islAt k s).due.erase .lockoutTimeout, now := islNow k s.core, clear := none }
        { s with core := finish r.slot 0x40 0 0 0 { s.core with seq.clearReq := none } } := by
  rw [dueTaken k _ s h]
  unfold takeIsl
  dsimp only
  rw [islAt_setIsl, setIsl_setIsl, setIsl_core, hreq]
  exact setIsl_withCore k _ _ s

/-- The operation ends, and neither the latches nor the stored data change (R331). -/
theorem lockoutTimeout_spec (k : Isl) (s : State) (r : ClearSt) (x : SlotSt) (h : (islAt k s).due.contains .lockoutTimeout = true)
    (hreq : s.core.seq.clearReq = some r) (hslot : slotAt s.core r.slot = some x) (hruns : x.done = none) (hlt : r.slot < 512) :
    ∃ t, Runs (.lockoutResetTimeout k) s t ∧ Ended r.slot 0x40 0 0 0 t.core ∧ t.core.seq.clearReq = none ∧
      (islAt k t).clear = none ∧ (islAt k t).latches = (islAt k s).latches ∧ t.core.nv = s.core.nv := by
  refine ⟨_, rfl, ?_⟩
  obtain ⟨g, hfinish, hended⟩ := finish_ended r.slot 0x40 0 0 0 { s.core with seq.clearReq := none } x hslot hruns hlt
  rw [lockoutTimeout_taken k s r h hreq, islAt_setIsl, setIsl_core, hfinish]
  exact ⟨hended, rfl, rfl, rfl, rfl⟩

/-! ### The scrub (R451, R453) -/

/-- A scrub that meets nothing changes nothing. -/
theorem scrub_clean (k : Isl) (s : State) : Runs (.safeMemScrub k [] []) s s :=
  congrArg Host.Outcome.next (setIsl_self k s)

/-- A corrected word is counted, kept as the last one, and recorded (R451). -/
theorem scrub_corrected (k : Isl) (w : Nat) (s : State) : Runs (.safeMemScrub k [w] []) s
    { setIsl k { islAt k s with memCorr := (islAt k s).memCorr + 1, memLast := BitVec.ofNat 32 w } s with
      core := event 0x0D4 (islSource k) [islNo k, w] s.core } := by
  cases k <;> rfl

/-- The island once its scrub has met `n` bad words: counted, mute, every switch open (R453). -/
def scrubbedBad (n : Nat) (i : IslSt) : IslSt :=
  { i with memBad := i.memBad + BitVec.ofNat 32 n, mute := true, closed := 0, closing := [] }

/-- Bad words open every switch and stop the cross-check words, and each is recorded (R453). -/
theorem scrub_bad (k : Isl) (w : Nat) (l : List Nat) (s : State) : ∃ u, Runs (.safeMemScrub k [] (w :: l)) s
    (setIsl k (scrubbedBad (l.length + 1) (islAt k s)) { s with core := { s.core with recd := u } }) := by
  obtain ⟨u, h⟩ := foldRecd_only (fun c w => event 0x0D5 (islSource k) [islNo k, w] c)
    (fun c w => event_only 0x0D5 (islSource k) [islNo k, w] c) (w :: l) s.core
  exact ⟨u, congrArg (fun c => Host.Outcome.next (setIsl k (scrubbedBad (l.length + 1) (islAt k s)) { s with core := c })) h⟩

/-! ### The role line (R356 to R358) -/

/-- A claiming island whose unit transmits pulses its role line, longer in LOCKOUT (R357). -/
theorem roleClaimPulse_sent (k : Isl) (s : State) (hclaim : claiming s.core = true) (hage : (islAt k s).seqAge ≤ 2)
    (htx : s.core.sys.txOff = false) (hreset : s.core.sys.inReset = false) : Runs (.roleClaimPulse k) s
      { s with core := { s.core with
        out := .rolePulse (islNo k + 1) (if s.core.sys.mode = .lockout then 200 else 100) :: s.core.out } } :=
  congrArg Host.Outcome.next (if_pos (by rw [hclaim, decide_eq_true hage, htx, hreset]; rfl))

/-- Any other island is silent on it. -/
theorem roleClaimPulse_idle (k : Isl) (s : State)
    (h : claiming s.core = false ∨ 2 < (islAt k s).seqAge ∨ s.core.sys.txOff = true ∨ s.core.sys.inReset = true) :
    Runs (.roleClaimPulse k) s s := by
  refine congrArg Host.Outcome.next (if_neg ?_)
  simp only [Bool.and_eq_true, Bool.not_eq_true', decide_eq_true_eq]
  rintro ⟨⟨⟨hclaim, hage⟩, htx⟩, hreset⟩
  simp [hclaim, Nat.not_lt.mpr hage, htx, hreset] at h

/-- A line fault is recorded while the unit is paired, and once (R358). -/
theorem roleLineFault_records (s : State) (hpair : paired s.core = true) (hcount : 8 ≤ s.core.twin.lineFault)
    (hnew : s.core.twin.lineRec = false) : Runs .roleLineFault s
      { s with core := event 0x090 0x0B [if s.core.crossA.lost then 1 else 2] { s.core with twin.lineRec := true } } :=
  congrArg Host.Outcome.next (state_core s (if_pos (by rw [hpair, decide_eq_true hcount, hnew]; rfl)))

/-- Of an unpaired unit, before 8 ticks, or once it is recorded, a line fault has no effect. -/
theorem roleLineFault_idle (s : State)
    (h : paired s.core = false ∨ s.core.twin.lineFault < 8 ∨ s.core.twin.lineRec = true) : Runs .roleLineFault s s := by
  refine congrArg Host.Outcome.next (state_core s (if_neg ?_))
  simp only [Bool.and_eq_true, Bool.not_eq_true', decide_eq_true_eq]
  rintro ⟨⟨hpair, hcount⟩, hnew⟩
  simp [hpair, Nat.not_lt.mpr hcount, hnew] at h

/-- Settles O27, duty by duty. -/
theorem islandDuties : Obligations.IslandDuties := by
  intro k s
  refine ⟨fun h => congrArg Host.Outcome.next (takeIslDue_not k _ s h), fun h => congrArg Host.Outcome.next (takeIslDue_not k _ s h),
    fun h => congrArg Host.Outcome.next (resetStuck_taken k s h), lockoutTimeout_spec k s, ⟨s, scrub_clean k s, rfl⟩,
    fun w => ⟨_, scrub_corrected k w s, rfl⟩, fun w l => ?_, roleClaimPulse_sent k s, roleClaimPulse_idle k s,
    roleLineFault_idle s, roleLineFault_records s⟩
  obtain ⟨u, hrun⟩ := scrub_bad k w l s
  refine ⟨_, hrun, ?_⟩
  rw [islAt_setIsl, setIsl_core]
  exact ⟨rfl, rfl, rfl, rfl⟩

end Sys2Proof.Machine
end

section
/-! SUPPORT. The detections of the field die: what each changes, and the supervision of the group supplies (R317, R348 to R350). -/

namespace Sys2Proof.Machine

/-! ### A detection of the die and its command (log 3) -/

/-- The state in which detection `x` of the die has been taken off its due list. -/
def dieTakenOff (x : DieDue) (s : State) : State := { s with die := { s.die with due := s.die.due.erase x } }

theorem runs_dieDue {c : Instr} {x : DieDue} {s : State} (hrun : Runs c s (takeDieDue x s)) (h : s.die.due.contains x = true) :
    Runs c s (takeDie x (dieTakenOff x s)) :=
  hrun.trans (congrArg Host.Outcome.next (if_pos h))

theorem runs_dieNotDue {c : Instr} {x : DieDue} {s : State} (hrun : Runs c s (takeDieDue x s)) (h : s.die.due.contains x = false) :
    Runs c s s :=
  hrun.trans (congrArg Host.Outcome.next (if_neg (by rw [h]; decide)))

/-- What the logic die makes of a declared fault, beside what the field die does: a record and a report, unless it is in reset (R317). -/
theorem declared_fault (code n : Nat) (ps : List Nat) (p o m : Nat) (d : DieSt) (s : State) : ∃ u,
    ({ s with die := d, core := fromDie (fun c => raise code p o (event n m ps c)) s.core } : State) =
      { s with
        die := d
        core := { s.core with
          recd := u, seq := { s.core.seq with faultQ := s.core.seq.faultQ ++ if s.core.sys.inReset then [] else [⟨code, p, o⟩] } } } := by
  obtain ⟨u, q, hcore, rfl⟩ := fromDie_low code n ps p o m s.core
  exact ⟨u, congrArg (fun c => { s with die := d, core := c }) hcore⟩

/-- A declared event is recorded, unless the logic die is in reset. -/
theorem declared_event (n : Nat) (ps : List Nat) (m : Nat) (d : DieSt) (s : State) : ∃ u,
    ({ s with die := d, core := fromDie (event n m ps) s.core } : State) = { s with die := d, core := { s.core with recd := u } } := by
  unfold fromDie
  split
  · exact ⟨s.core.recd, rfl⟩
  · obtain ⟨u, hcore⟩ := event_only n m ps s.core
    exact ⟨u, congrArg (fun c => { s with die := d, core := c }) hcore⟩

/-! ### The output sets (R345) -/

theorem setValue_missing (d : DieSt) (u : Nat) (h : (tget {} d.groups (groupOf u)).state = .missing) : setValue d u = false := by
  unfold setValue
  dsimp only
  rw [h]
  simp

theorem setValue_short (d : DieSt) (u : Nat) (h : (tget {} d.outs u).short = true) : setValue d u = false := by
  unfold setValue
  dsimp only
  rw [h]
  simp

/-- Driving writes the sets only: in a die that runs each set of the section applies its value and stays as live as it was, and a set
whose value is off is off in any die (R345, R352). -/
theorem drive_spec (d : DieSt) : ∃ o, drive d = { d with outs := o } ∧
    (∀ u, u ∈ setsOf (dieSec d) → setValue d u = false → (tget {} o u).on = false) ∧
    (dieRuns d = true → ∀ u, (tget {} o u).live = (tget {} d.outs u).live ∧
      (u ∈ setsOf (dieSec d) → (tget {} o u).on = setValue d u)) := by
  obtain ⟨o, ho⟩ := drive_only d
  have hon := drive_on d
  have hlive := drive_live d
  have hoff := drive_off d
  rw [ho] at hon hlive hoff
  refine ⟨o, ho, fun u hu hv => ?_, fun hr u => ⟨hlive hr u, hon hr u⟩⟩
  cases hr : dieRuns d
  · rw [hoff hr u]
  · rw [hon hr u hu, hv]

/-- A channel of a group in FIELD_MISSING is reported with state 3 (R350). -/
theorem chanState_missing (d : DieSt) (u : Nat) (h : (tget {} d.groups (groupOf u)).state = .missing) : chanState d u = 3 := by
  unfold chanState
  rw [h]
  simp

/-- A change of one entry of a table: it reads back, and every other entry stays. -/
theorem tmod_spec {α : Type} [DecidableEq α] (d : α) (t : Table α) (k : Nat) (f : α → α) :
    tget d (tmod d t k f) k = f (tget d t k) ∧ ∀ j, j ≠ k → tget d (tmod d t k f) j = tget d t j :=
  ⟨by rw [tget_tmod, if_pos rfl], fun j hj => by rw [tget_tmod, if_neg (Ne.symm hj)]⟩

/-! ### The group supplies (R348 to R350) -/

/-- The die with group `g` in state `x`. -/
def withGroup (g : Nat) (x : GroupState) (d : DieSt) : DieSt := { d with groups := tmod {} d.groups g fun e => { e with state := x } }

theorem withGroup_spec (g : Nat) (x : GroupState) (d : DieSt) :
    tget {} (withGroup g x d).groups g = { tget {} d.groups g with state := x } ∧
      ∀ j, j ≠ g → tget {} (withGroup g x d).groups j = tget {} d.groups j :=
  tmod_spec {} d.groups g fun e => { e with state := x }

/-- FIELD_LOW of a group. -/
theorem fieldLow_spec (g : Fin 9) (s : State) (h : s.die.due.contains (.low g) = true) : ∃ t, Runs (.fieldLow g) s t ∧
    tget {} t.die.groups g = { tget {} s.die.groups g with state := .low } ∧
    (∀ j, j ≠ g.val → tget {} t.die.groups j = tget {} s.die.groups j) ∧
    t.core.seq.faultQ = s.core.seq.faultQ ++ (if s.core.sys.inReset then [] else [⟨0x304, 255, 255⟩]) ∧
    t = { s with
      die := { s.die with due := s.die.due.erase (.low g), groups := t.die.groups }
      core := { s.core with recd := t.core.recd, seq := { s.core.seq with faultQ := t.core.seq.faultQ } } } := by
  refine ⟨_, runs_dieDue rfl h, ?_⟩
  obtain ⟨hgroup, hothers⟩ := withGroup_spec g .low (dieTakenOff (.low g) s).die
  obtain ⟨u, hstate⟩ := declared_fault 0x304 0x080 [g.val + 1] 255 255 0x0A (withGroup g .low (dieTakenOff (.low g) s).die) s
  rw [show takeDie (.low g) (dieTakenOff (.low g) s) = _ from hstate]
  exact ⟨hgroup, hothers, rfl, rfl⟩

/-- FIELD_MISSING of a group: its sets are off, and its channels are reported with state 3. -/
theorem fieldMissing_spec (g : Fin 9) (s : State) (h : s.die.due.contains (.missing g) = true) : ∃ t, Runs (.fieldMissing g) s t ∧
    tget {} t.die.groups g = { tget {} s.die.groups g with state := .missing } ∧
    (∀ j, j ≠ g.val → tget {} t.die.groups j = tget {} s.die.groups j) ∧
    (∀ u, u ∈ setsOf (dieSec s.die) → groupOf u = g → (tget {} t.die.outs u).on = false) ∧
    (∀ u, groupOf u = g → chanState t.die u = 3) ∧
    t.core.seq.faultQ = s.core.seq.faultQ ++ (if s.core.sys.inReset then [] else [⟨0x305, 255, 255⟩]) ∧
    t = { s with
      die := { s.die with due := s.die.due.erase (.missing g), groups := t.die.groups, outs := t.die.outs }
      core := { s.core with recd := t.core.recd, seq := { s.core.seq with faultQ := t.core.seq.faultQ } } } := by
  refine ⟨_, runs_dieDue rfl h, ?_⟩
  obtain ⟨hgroup, hothers⟩ := withGroup_spec g .missing (dieTakenOff (.missing g) s).die
  obtain ⟨o, hdrive, hoff, -⟩ := drive_spec (withGroup g .missing (dieTakenOff (.missing g) s).die)
  obtain ⟨u, hstate⟩ := declared_fault 0x305 0x081 [g.val + 1] 255 255 0x0A
    (drive (withGroup g .missing (dieTakenOff (.missing g) s).die)) s
  rw [show takeDie (.missing g) (dieTakenOff (.missing g) s) = _ from hstate, hdrive]
  have hmissing : ∀ u, groupOf u = g.val →
      (tget {} (withGroup g .missing (dieTakenOff (.missing g) s).die).groups (groupOf u)).state = .missing := fun u hu => by
    rw [hu, hgroup]
  exact ⟨hgroup, hothers, fun u hset hu => hoff u hset (setValue_missing _ u (hmissing u hu)),
    fun u hu => chanState_missing _ u (hmissing u hu), rfl, rfl⟩

/-- The inputs of the die once group `g` has its supply again: after FIELD_MISSING its filters restart (R350). -/
def inputsBack (g : Nat) (d : DieSt) : Table InputSt :=
  if (tget {} d.groups g).state == .missing then d.inputs.filter fun e => groupOf e.1 != g else d.inputs

theorem inputsBack_at (g : Nat) (d : DieSt) (u : Nat) : tget {} (inputsBack g d) u =
    if groupOf u = g ∧ (tget {} d.groups g).state = .missing then {} else tget {} d.inputs u := by
  unfold inputsBack
  by_cases hm : (tget {} d.groups g).state = .missing
  · rw [if_pos (beq_iff_eq.mpr hm)]
    refine (tget_filter {} (fun u => groupOf u != g) d.inputs u).trans ?_
    by_cases hu : groupOf u = g
    · rw [if_neg (by simp [hu]), if_pos ⟨hu, hm⟩]
    · rw [if_pos (by simp [hu]), if_neg fun h => hu h.1]
  · rw [if_neg fun h => hm (beq_iff_eq.mp h), if_neg fun h => hm h.2]

/-- The die with the supply of group `g` back, before its sets drive again (R350). -/
def suppliedDie (g : Nat) (d : DieSt) : DieSt := { withGroup g .normal d with inputs := inputsBack g d }

/-- FIELD_OK of a group: its sets drive again. -/
theorem fieldOk_spec (g : Fin 9) (s : State) (h : s.die.due.contains (.ok g) = true) : ∃ t, Runs (.fieldOk g) s t ∧
    tget {} t.die.groups g = { tget {} s.die.groups g with state := .normal } ∧
    (∀ j, j ≠ g.val → tget {} t.die.groups j = tget {} s.die.groups j) ∧
    (∀ u, tget {} t.die.inputs u =
      if groupOf u = g ∧ (tget {} s.die.groups g).state = .missing then {} else tget {} s.die.inputs u) ∧
    (dieRuns s.die = true → ∀ u, u ∈ setsOf (dieSec s.die) → (tget {} t.die.outs u).on =
      setValue { s.die with groups := t.die.groups } u) ∧
    t = { s with
      die := { s.die with due := s.die.due.erase (.ok g), groups := t.die.groups, outs := t.die.outs, inputs := t.die.inputs }
      core := { s.core with recd := t.core.recd } } := by
  refine ⟨_, runs_dieDue rfl h, ?_⟩
  obtain ⟨hgroup, hothers⟩ := withGroup_spec g .normal (dieTakenOff (.ok g) s).die
  obtain ⟨o, hdrive, -, hruns⟩ := drive_spec (suppliedDie g (dieTakenOff (.ok g) s).die)
  obtain ⟨u, hstate⟩ := declared_event 0x082 [g.val + 1] 0x0A (drive (suppliedDie g (dieTakenOff (.ok g) s).die)) s
  rw [show takeDie (.ok g) (dieTakenOff (.ok g) s) = _ from hstate, hdrive]
  exact ⟨hgroup, hothers, inputsBack_at g s.die, fun hr u => (hruns hr u).2, rfl⟩

/-- Settles O40, detection by detection. -/
theorem fieldSupplies : Obligations.FieldSupplies := by
  intro g s
  refine ⟨fun r hr h => ?_, fieldLow_spec g s, fieldMissing_spec g s, fieldOk_spec g s⟩
  simp only [List.mem_cons, List.not_mem_nil, or_false] at hr
  obtain rfl | rfl | rfl := hr
  · exact runs_dieNotDue rfl h
  · exact runs_dieNotDue rfl h
  · exact runs_dieNotDue rfl h

end Sys2Proof.Machine
end

section
/-! SUPPORT. The output sets of the field die: its detections, its silence, command frames, reset and restart (R317, R336, R345, R346,
R351, R352, R354). -/

namespace Sys2Proof.Machine

/-! ### One set (R346) -/

/-- Driving one set writes that set only, which takes its value and keeps its flags (R345). -/
theorem driveSet_spec (d : DieSt) (u : Nat) : ∃ o, driveSet d u = { d with outs := o } ∧
    (tget {} o u).on = setValue d u ∧ (tget {} o u).short = (tget {} d.outs u).short ∧
    ∀ v, v ≠ u → tget {} o v = tget {} d.outs v := by
  obtain ⟨o, ho⟩ := driveSet_only d u
  have hat := outs_driveSet d u
  rw [ho] at hat
  exact ⟨o, ho, by rw [hat, if_pos rfl], by rw [hat, if_pos rfl], fun v hv => (hat v).trans (if_neg (Ne.symm hv))⟩

/-- The die with the SHORT_GND latch of set `u` at `b`, before the set is driven (R346). -/
def withShort (u : Nat) (b : Bool) (d : DieSt) : DieSt :=
  { d with outs := tmod {} d.outs u fun o => { o with short := b, shortFor := 0 } }

/-- The set is driven with its latch at `b`: nothing but that set changes, and a latched set is off (R346). -/
theorem drive_withShort (u : Nat) (b : Bool) (d : DieSt) : ∃ o, driveSet (withShort u b d) u = { d with outs := o } ∧
    (tget {} o u).short = b ∧ (b = true → (tget {} o u).on = false) ∧ ∀ v, v ≠ u → tget {} o v = tget {} d.outs v := by
  obtain ⟨hset, hothers⟩ := tmod_spec {} d.outs u fun o => { o with short := b, shortFor := 0 }
  have hlatch : (tget {} (withShort u b d).outs u).short = b := congrArg OutSt.short hset
  obtain ⟨o, hdrive, hon, hshort, hrest⟩ := driveSet_spec (withShort u b d) u
  refine ⟨o, hdrive, hshort.trans hlatch, fun hb => ?_, fun v hv => (hrest v hv).trans (hothers v hv)⟩
  rw [hon]
  exact setValue_short _ u (hlatch.trans hb)

/-- SHORT_GND of a set. -/
theorem shortGnd_spec (u : Fin 144) (s : State) (h : s.die.due.contains (.shortGnd u) = true) : ∃ t, Runs (.shortGnd u) s t ∧
    (tget {} t.die.outs u).short = true ∧ (tget {} t.die.outs u).on = false ∧
    (∀ v, v ≠ u.val → tget {} t.die.outs v = tget {} s.die.outs v) ∧
    t.core.seq.faultQ = s.core.seq.faultQ ++ (if s.core.sys.inReset then [] else [⟨0x302, ownerPortal s.core u, u⟩]) ∧
    t = { s with
      die := { s.die with due := s.die.due.erase (.shortGnd u), outs := t.die.outs }
      core := { s.core with recd := t.core.recd, seq := { s.core.seq with faultQ := t.core.seq.faultQ } } } := by
  refine ⟨_, runs_dieDue rfl h, ?_⟩
  obtain ⟨o, hdrive, hshort, hoff, hothers⟩ := drive_withShort u true (dieTakenOff (.shortGnd u) s).die
  obtain ⟨w, hstate⟩ := declared_fault 0x302 0x083 [u.val] (ownerPortal s.core u) u 0x0A
    (driveSet (withShort u true (dieTakenOff (.shortGnd u) s).die) u) s
  rw [show takeDie (.shortGnd u) (dieTakenOff (.shortGnd u) s) = _ from hstate, hdrive]
  exact ⟨hshort, hoff rfl, hothers, rfl, rfl⟩

/-- The end of SHORT_GND. -/
theorem shortGndClear_spec (u : Fin 144) (s : State) (h : s.die.due.contains (.clear u) = true) : ∃ t, Runs (.shortGndClear u) s t ∧
    (tget {} t.die.outs u).short = false ∧ (∀ v, v ≠ u.val → tget {} t.die.outs v = tget {} s.die.outs v) ∧
    t = { s with die := { s.die with due := s.die.due.erase (.clear u), outs := t.die.outs } } := by
  refine ⟨_, runs_dieDue rfl h, ?_⟩
  obtain ⟨o, hdrive, hshort, -, hothers⟩ := drive_withShort u false (dieTakenOff (.clear u) s).die
  have hstate : takeDie (.clear u) (dieTakenOff (.clear u) s) = { s with die := { (dieTakenOff (.clear u) s).die with outs := o } } :=
    congrArg (fun d => { s with die := d }) hdrive
  rw [hstate]
  exact ⟨hshort, hothers, rfl⟩

/-- The die with EXT_DRIVE of set `u` flagged (R346). -/
def withExt (u : Nat) (d : DieSt) : DieSt := { d with outs := tmod {} d.outs u fun o => { o with ext := true, extClr := 0 } }

/-- EXT_DRIVE is flagged, and with CO_DRIVE nothing more is done; else it is a declared fault (R317, R346). -/
theorem flagExt_flags (u : Nat) (s : State) : ∃ w, flagExt u s = { s with
    die := withExt u s.die
    core := { s.core with recd := w, seq := { s.core.seq with faultQ := s.core.seq.faultQ ++
      (if fAttr (dieSec s.die) u 3 || s.core.sys.inReset then [] else [⟨0x303, ownerPortal s.core u, u⟩]) } } } := by
  unfold flagExt
  dsimp only
  cases fAttr (dieSec s.die) u 3
  case true =>
    refine ⟨s.core.recd, ?_⟩
    rw [if_pos rfl, Bool.true_or, if_pos rfl, List.append_nil]
    rfl
  case false => exact declared_fault 0x303 0x084 [u] (ownerPortal s.core u) u 0x0A (withExt u s.die) s

/-- EXT_DRIVE of a set. -/
theorem extDrive_spec (u : Fin 144) (s : State) (h : s.die.due.contains (.ext u) = true) : ∃ t, Runs (.extDrive u) s t ∧
    tget {} t.die.outs u = { tget {} s.die.outs u with ext := true, extClr := 0 } ∧
    (∀ v, v ≠ u.val → tget {} t.die.outs v = tget {} s.die.outs v) ∧
    t.core.seq.faultQ = s.core.seq.faultQ ++
      (if fAttr (dieSec s.die) u 3 || s.core.sys.inReset then [] else [⟨0x303, ownerPortal s.core u, u⟩]) ∧
    t = { s with
      die := { s.die with due := s.die.due.erase (.ext u), outs := t.die.outs }
      core := { s.core with recd := t.core.recd, seq := { s.core.seq with faultQ := t.core.seq.faultQ } } } := by
  refine ⟨_, runs_dieDue rfl h, ?_⟩
  obtain ⟨hset, hothers⟩ := tmod_spec {} s.die.outs u.val fun o => { o with ext := true, extClr := 0 }
  obtain ⟨w, hstate⟩ := flagExt_flags u (dieTakenOff (.ext u) s)
  rw [show takeDie (.ext u) (dieTakenOff (.ext u) s) = _ from hstate]
  exact ⟨hset, hothers, rfl, rfl⟩

/-! ### Silence and command frames (R336, R345, R351) -/

/-- The silence timeout: every set takes its safe value (R351). -/
theorem logicSilence_spec (s : State) (h : s.die.due.contains .silence = true) (hr : dieRuns s.die = true) :
    ∃ t, Runs .logicSilence s t ∧
      (∀ u, u ∈ setsOf (dieSec s.die) → (tget {} t.die.outs u).on = setValue { s.die with silent := true } u) ∧
      t = { s with die := { s.die with
        due := s.die.due.erase .silence, outs := t.die.outs, silent := true, expired := true, silences := s.die.silences + 1 } } := by
  refine ⟨_, runs_dieDue rfl h, ?_⟩
  obtain ⟨o, hdrive, -, hruns⟩ := drive_spec { s.die with
    due := s.die.due.erase .silence, silent := true, expired := true, silences := s.die.silences + 1 }
  rw [show takeDie .silence (dieTakenOff .silence s) = _ from congrArg (fun d => ({ s with die := d } : State)) hdrive]
  exact ⟨fun u => (hruns hr u).2, rfl⟩

theorem runs_commandFrame (ok : Bool) (f : Bool × BitVec 144) (s : State) (hd : s.die.due = []) (hr : dieRuns s.die = true)
    (hf : s.die.cmd = some f) : Runs (.commandFrame ok) s { s with die := dieCommand ok f { s.die with cmd := none } } := by
  show execCommandFrame ok s = _
  unfold execCommandFrame
  rw [settleDie_none s hd]
  dsimp only
  rw [hf]
  dsimp only
  rw [if_pos hr]

/-- The die with a valid command frame taken, before its sets are driven (R345, R351). -/
def commandedDie (r : Bool) (img : BitVec 144) (d : DieSt) : DieSt :=
  { d with
    outs := (if r then liveSets d else d).outs, cmd := none, run := r, image := img, silence := 0, silent := d.silent && !r, expired := false }

theorem dieCommand_valid (r : Bool) (img : BitVec 144) (d : DieSt) (hd : d.due = []) :
    dieCommand true (r, img) { d with cmd := none } = drive (commandedDie r img d) := by
  have hframe : dieCommand true (r, img) { d with cmd := none } =
      drive { commandedDie r img d with due := d.due.filter (· != .silence) } := by cases r <;> rfl
  have hdue : d.due.filter (· != .silence) = d.due := by rw [hd]; rfl
  rw [hframe, hdue]
  rfl

/-- A valid command frame: every set takes its value, and with RUN 1 each set of the section is live (R336, R345). -/
theorem commandFrame_valid (r : Bool) (img : BitVec 144) (s : State) (hd : s.die.due = []) (hr : dieRuns s.die = true)
    (hf : s.die.cmd = some (r, img)) : ∃ t, Runs (.commandFrame true) s t ∧
      (∀ u, u ∈ setsOf (dieSec s.die) → (r = true → (tget {} t.die.outs u).live = true) ∧ (tget {} t.die.outs u).on =
        setValue { s.die with outs := (if r then liveSets s.die else s.die).outs, run := r, image := img, silent := s.die.silent && !r } u) ∧
      t = { s with die := { s.die with
        outs := t.die.outs, cmd := none, run := r, image := img, silence := 0, silent := s.die.silent && !r, expired := false } } := by
  refine ⟨_, runs_commandFrame true (r, img) s hd hr hf, ?_⟩
  obtain ⟨o, hdrive, -, hruns⟩ := drive_spec (commandedDie r img s.die)
  rw [dieCommand_valid r img s.die hd, hdrive]
  refine ⟨fun u hu => ⟨fun hrun => (hruns hr u).1.trans ?_, (hruns hr u).2 hu⟩, rfl⟩
  subst hrun
  exact live_fold _ _ u hu

/-! ### Reset, supply loss and restart (R352) -/

/-- A die without a section and without sets drives nothing, and reports state 3 everywhere. -/
theorem bareDie_off (d : DieSt) (hsection : d.section_ = none) (houts : d.outs = []) (u : Nat) :
    (tget {} d.outs u).on = false ∧ chanState d u = 3 :=
  ⟨by rw [houts]; rfl, chanState_bare d hsection u⟩

theorem runs_fieldDieRestart (s : State) (hr : dieRuns s.die = false) (hreset : s.core.sys.inReset = false) :
    Runs .fieldDieRestart s { s with die := { held := false } } := by
  refine congrArg Host.Outcome.next ((if_pos ?_).trans ?_)
  · unfold dieRuns at hr
    simpa [← Bool.not_or] using hr
  · rw [hreset, Bool.and_false]

theorem fieldDieRestart_idle (s : State) (hr : dieRuns s.die = true) : Runs .fieldDieRestart s s := by
  refine congrArg Host.Outcome.next (if_neg ?_)
  unfold dieRuns at hr
  simpa [← Bool.not_or] using hr

/-- A detection of a set that is not due has no effect (log 3). -/
theorem setDetection_notDue (u : Fin 144) (s : State) (r : DieDue × Instr)
    (h : r ∈ [(DieDue.shortGnd u, Instr.shortGnd u), (.clear u, .shortGndClear u), (.ext u, .extDrive u)])
    (hdue : s.die.due.contains r.1 = false) : Runs r.2 s s := by
  simp only [List.mem_cons, List.not_mem_nil, or_false] at h
  obtain rfl | rfl | rfl := h
  · exact runs_dieNotDue rfl hdue
  · exact runs_dieNotDue rfl hdue
  · exact runs_dieNotDue rfl hdue

/-- Settles O41, detection by detection, then the frames, the reset input and the restart. -/
theorem fieldOutputs : Obligations.FieldOutputs := fun s =>
  ⟨runs_dieNotDue rfl,
    fun u => ⟨setDetection_notDue u s, shortGnd_spec u s, shortGndClear_spec u s, extDrive_spec u s⟩,
    logicSilence_spec s,
    fun r img hd hr hf => ⟨commandFrame_valid r img s hd hr hf, runs_commandFrame false (r, img) s hd hr hf⟩,
    ⟨_, rfl, rfl, rfl, rfl, bareDie_off _ rfl rfl⟩,
    ⟨_, rfl, rfl, Bool.and_false _, rfl, bareDie_off _ rfl rfl⟩,
    fieldDieRestart_idle s,
    fun hr hreset => ⟨_, runs_fieldDieRestart s hr hreset, rfl, rfl, rfl, rfl, bareDie_off _ rfl rfl⟩⟩

end Sys2Proof.Machine
end

section
/-! SUPPORT. What every command keeps: the queue, the written slots and the store invariant, and who writes the authority fuse and
gives an identity key (R404, R432, R455 to R457, log 1). -/

namespace Sys2Proof.Machine

/-! ### The commands -/

/-- What holds of every command: the queue and the written slots stay, and the store invariant is kept. -/
structure Orderly (s t : State) : Prop where
  pending : t.pending = s.pending
  slots : SlotsKept s.store t.store
  inv : StoreInv s.store → StoreInv t.store

theorem Sound.orderly {s t : State} (h : Sound s t) : Orderly s t := ⟨h.pending, h.slots, h.inv⟩

theorem LifeKept.orderly {s t : State} (h : LifeKept s t) : Orderly s t := ⟨h.pending, h.store.kept, h.store.inv⟩

/-- The fuse stays, and no identity key is given (R455 to R457). -/
structure KeysKept (s t : State) : Prop where
  fuse : t.fuse = s.fuse
  ident : NoNewIdentity s t

theorem Kept.keysKept {s t : State} (h : Kept s t) : KeysKept s t := ⟨h.fuse, h.ident⟩

/-- A safety tick closes switches of its own island; the queue, the stores, the fuse and the keys it keeps (R278). -/
theorem safetyTick_keeps (k : Isl) (pads : List PadIn) (role : RoleIn) (s : State) :
    ∃ t, Runs (.safetyTick k pads role) s t ∧ Orderly s t ∧ KeysKept s t := by
  cases h : s.core.sys.inReset with
  | true => exact ⟨s, runs_safetyTick_inReset k pads role h, (Held.refl s).sound.orderly, (Kept.refl s).keysKept⟩
  | false =>
    have settled := settleIsl_held k s
    obtain ⟨hpending, hfuse, hident, -, hgrows⟩ := islTick_rest k pads role (settleIsl k s)
    have grows := settled.store.trans hgrows
    exact ⟨_, runs_safetyTick k pads role h, ⟨hpending.trans settled.pending, grows.kept, grows.inv⟩,
      hfuse.trans settled.fuse, settled.ident.then hident⟩

/-- Every command but LIFECYCLE_ADVANCE completes, and keeps queue, stores, fuse and keys. -/
theorem runs_keeps (c : Instr) (s : State) (life : ∀ k, c ≠ .lifecycleAdvance k) :
    ∃ t, Runs c s t ∧ Orderly s t ∧ KeysKept s t := by
  by_cases tick : ∃ k pads role, c = .safetyTick k pads role
  · obtain ⟨k, pads, role, rfl⟩ := tick
    exact safetyTick_keeps k pads role s
  · obtain ⟨t, hrun, hsound⟩ := runs_sound c s (fun k pads role h => tick ⟨k, pads, role, h⟩) life
    exact ⟨t, hrun, hsound.orderly, hsound.keysKept⟩

/-- Every command completes, and keeps the queue and the stores. -/
theorem runs_orderly (c : Instr) (s : State) : ∃ t, Runs c s t ∧ Orderly s t := by
  by_cases life : ∃ k, c = .lifecycleAdvance k
  · obtain ⟨k, rfl⟩ := life
    obtain ⟨t, hrun, hkept⟩ := lifecycleAdvance_kept k s
    exact ⟨t, hrun, hkept.orderly⟩
  · obtain ⟨t, hrun, horderly, -⟩ := runs_keeps c s fun k h => life ⟨k, h⟩
    exact ⟨t, hrun, horderly⟩

theorem Runs.orderly {c : Instr} {s t : State} (h : Runs c s t) : Orderly s t := by
  obtain ⟨u, hu, horderly⟩ := runs_orderly c s
  rwa [h.unique hu]

theorem Runs.keysKept {c : Instr} {s t : State} (h : Runs c s t) (life : ∀ k, c ≠ .lifecycleAdvance k) : KeysKept s t := by
  obtain ⟨u, hu, -, hkeys⟩ := runs_keeps c s life
  rwa [h.unique hu]

/-! ### A step -/

/-- A step idles on an empty queue, and else runs the command at the queue's front (log 1). -/
theorem step_cases {s t : State} (h : step s = .next t) :
    (s.pending = [] ∧ t = s) ∨ ∃ c r, s.pending = c :: r ∧ Runs c { s with pending := r } t := by
  unfold step at h
  split at h
  next hempty => exact .inl ⟨hempty, (Host.Outcome.next.inj h).symm⟩
  next c r hfront => exact .inr ⟨c, r, hfront, h⟩

/-- A step keeps the written slots and the store invariant. -/
theorem step_stores {s t : State} (h : step s = .next t) : SlotsKept s.store t.store ∧ (StoreInv s.store → StoreInv t.store) := by
  obtain ⟨-, rfl⟩ | ⟨c, r, -, hrun⟩ := step_cases h
  · exact ⟨(Grows.refl _).kept, id⟩
  · exact ⟨hrun.orderly.slots, hrun.orderly.inv⟩

/-! ### LIFECYCLE_ADVANCE (R456) -/

/-- An operation on the whole state does not start, or finds a state whose core has changed in the host port and in what the standby is
told of only (R94). -/
theorem startOpS_cases (k op : Nat) (f : Bytes → State → State) (s : State) : startOpS k op f s = s ∨
    ∃ d g l, startOpS k op f s = f d { s with core := { s.core with host := g, twin.carry := l } } := by
  unfold startOpS
  split
  next d c hopen =>
    obtain ⟨g, l, e⟩ := opening_only k op s.core (d, c) hopen
    exact .inr ⟨d, g, l, by rw [show c = _ from e]⟩
  next => exact .inl rfl

/-- LIFECYCLE_ADVANCE writes the authority fuse only in the transition from BLANK to PROVISIONED (R456). -/
theorem lifecycleAdvance_fuse (k : Fin 512) (s t : State) (h : Runs (.lifecycleAdvance k) s t) : t.fuse = s.fuse ∨
    (s.core.nv.lc = .blank ∧ t.core.nv.lc = .provisioned ∧ t.fuse = { fused := true, hash := sha256 (authSlots s.core) }) := by
  have hrun : Runs (.lifecycleAdvance k) s (startOpS k 0x61 (lifeDeliver k) s) := rfl
  rw [h.unique hrun]
  obtain e | ⟨d, g, l, e⟩ := startOpS_cases k 0x61 (lifeDeliver k) s
  · rw [e]
    exact .inl rfl
  · rw [e]
    exact lifeDeliver_fuse k d { s with core := { s.core with host := g, twin.carry := l } }

/-! ### TIME_ANNOTATE with a stopped event log (R432) -/

theorem EndsOp.ended {k status detail r0 r1 : Nat} {x : SlotSt} {c e : Core} (h : EndsOp k x status detail r0 r1 c e) :
    Ended k status detail r0 r1 e := ⟨_, _, h.slot, rfl, rfl, rfl, rfl, rfl⟩

theorem EndsOp.nv {k status detail r0 r1 : Nat} {x : SlotSt} {c e : Core} (h : EndsOp k x status detail r0 r1 c e) : e.nv = c.nv := by
  rw [h.rest]

theorem EndsOp.recd {k status detail r0 r1 : Nat} {x : SlotSt} {c e : Core} (h : EndsOp k x status detail r0 r1 c e) :
    e.recd = c.recd := by
  rw [h.rest]

/-- Once the event log has stopped, TIME_ANNOTATE ends with STORE_FULL in its delivery (R432). -/
theorem timeDeliver_stopped (k : Nat) (x : SlotSt) (c : Core) (hk : k < 512) (hd : x.done = none) (hstopped : c.recd.stoppedE = true) :
    EndsOp k x 0x60 0 0 0 c (timeDeliver k x.desc (begun k x c)) := by
  have hend : timeDeliver k x.desc (begun k x c) = finish k 0x60 0 0 0 (begun k x c) := if_pos (by rw [begun_eq]; exact hstopped)
  rw [hend]
  exact ends_begun k x 0x60 0 0 0 c hk hd

theorem timeAnnotate_stopped (k : Fin 512) (x : SlotSt) (s : State) (h : Ready k 0x32 x s.core) (hstopped : s.core.recd.stoppedE = true) :
    ∃ t, Runs (.timeAnnotate k) s t ∧ Ended k 0x60 0 0 0 t.core ∧ t.core.nv.annot = s.core.nv.annot ∧ t.core.recd = s.core.recd := by
  have hrun : Runs (.timeAnnotate k) s { s with core := timeDeliver k x.desc (begun k x s.core) } := runs_ready h rfl
  have hends := timeDeliver_stopped k x s.core k.isLt h.running hstopped
  exact ⟨_, hrun, hends.ended, congrArg NvSt.annot hends.nv, hends.recd⟩

/-! ### The statements -/

/-- Settles O1, by the two cases of the queue. -/
theorem stepRunsFront : Obligations.StepRunsFront :=
  ⟨fun _ _ => rfl, fun s h => by unfold step; rw [h]⟩

/-- Settles O2. -/
theorem execKeepsQueue : Obligations.ExecKeepsQueue := fun _ _ _ h => h.orderly.pending

/-- Settles O3. -/
theorem everyCommandCompletes : Obligations.EveryCommandCompletes := fun c s =>
  let ⟨t, hrun, horderly⟩ := runs_orderly c s
  ⟨t, hrun, horderly.pending, horderly.slots⟩

/-- Settles O5: the tables are empty, and every pointer is 0. -/
theorem storeInvAtReset : Obligations.StoreInvAtReset :=
  ⟨rfl, rfl, rfl, Nat.zero_le _, Nat.zero_le _, Nat.zero_le _, Nat.zero_le _, Nat.zero_le _, Nat.zero_le _⟩

/-- Settles O6. -/
theorem storeInvKept : Obligations.StoreInvKept := fun _ _ hinv h => (step_stores h).2 hinv

/-- Settles O7. -/
theorem writtenSlotsStay : Obligations.WrittenSlotsStay :=
  ⟨fun _ _ h => (step_stores h).1, timeAnnotate_stopped⟩

/-- Settles O9: no other command writes the fuse, and LIFECYCLE_ADVANCE writes it in one transition only. -/
theorem fuseOnlyFromBlank : Obligations.FuseOnlyFromBlank := by
  intro c s t hrun hfuse
  by_cases life : ∃ k, c = .lifecycleAdvance k
  · obtain ⟨k, rfl⟩ := life
    obtain ⟨hblank, hprovisioned, hwritten⟩ := (lifecycleAdvance_fuse k s t hrun).resolve_left hfuse
    rw [hwritten]
    exact ⟨⟨k, rfl⟩, hblank, hprovisioned, rfl, rfl⟩
  · exact absurd (hrun.keysKept fun k h => life ⟨k, h⟩).fuse hfuse

/-- Settles O10. -/
theorem identityOnlyByAdvance : Obligations.IdentityOnlyByAdvance := by
  intro c s t hrun
  by_cases life : ∃ k, c = .lifecycleAdvance k
  · exact .inr life
  · exact .inl (hrun.keysKept fun k h => life ⟨k, h⟩).ident

end Sys2Proof.Machine
end

section
/-! SUPPORT. Messages of the twin that are discarded (R356, R364 to R366, R385). -/

namespace Sys2Proof.Machine

/-- A message whose header is not taken leaves what its header leaves. -/
theorem runs_header {c : Instr} {type : Nat} {h : TwinHdr} {gone : Bool} {f : Core → Core} {s : State} {d : Core}
    (hexec : exec c s = .next (onMessage type h gone f s)) (hd : takeHdr type h gone s.core = (false, d)) :
    Runs c s { s with core := d } :=
  hexec.trans (congrArg Host.Outcome.next (onMessage_not type h gone f s d hd))

/-- What the header of a message leaves is all that the message leaves, where the header is not taken; a HELLO must not serve the
authentication either (log 18). -/
theorem runs_discarded {c : Instr} {type : Nat} {h : TwinHdr} {s : State} {d : Core} (hc : twinType c = some (type, h))
    (hserial : type = 1 → listens s.core = false ∨ pbit s.core.twin.lanes h.lane = false ∨
      (sized (twinFits c) h).ok = false ∨ s.core.twin.authed = true)
    (hd : ∀ gone, takeHdr type (sized (twinFits c) h) gone s.core = (false, d)) : Runs c s { s with core := d } := by
  cases c with
  | auth | input | page =>
    cases hc
    exact runs_header rfl (hd _)
  | sync | delay | snapshot | resyncReq | relinquish =>
    cases hc
    simp only [twinFits, sized_true] at hd
    exact runs_header rfl (hd _)
  | hello g m =>
    cases hc
    simp only [twinFits, sized_true] at hd hserial
    refine runs_header (f := takeHello h m) ?_ (hd (h.role != .active && h.role != .solo))
    show execHello h m s = _
    unfold execHello
    rw [noteSerial_not s.onyx.twin h m s.core (hserial trivial)]
  | image g m =>
    cases hc
    have hrejected : takeHdr 0x13 (sized (decide (m.data.length ≤ 4096)) h) false s.core = (false, d) := hd false
    show execImage h m s = _
    unfold execImage
    rw [hrejected]
    rfl
  | _ => cases hc

/-- Settles O36, by the checks of a header in their order. -/
theorem twinDiscards : Obligations.TwinDiscards := by
  intro c type h s hc
  refine ⟨fun hdeaf => ?_, fun hserved hlane => ⟨fun hbad => ?_, fun hok hfits hserial => ?_⟩⟩
  · exact runs_discarded (d := s.core) hc (fun _ => hdeaf.elim .inl fun h => .inr (.inl h)) fun gone => takeHdr_deaf type _ gone s.core hdeaf
  · have hnot : (sized (twinFits c) h).ok = false := Bool.and_eq_false_iff.mpr hbad
    exact runs_discarded hc (fun _ => .inr (.inr (.inl hnot))) fun gone => takeHdr_bad type _ gone s.core hserved hlane hnot
  · have hsized : sized (twinFits c) h = h := by rw [hfits, sized_true]
    have discarded : ∀ d, (∀ gone, takeHdr type h gone s.core = (false, d)) → Runs c s { s with core := d } := fun d hd =>
      runs_discarded hc (fun h1 => .inr (.inr (.inr (hserial h1)))) (hsized.symm ▸ hd)
    exact ⟨fun hagain => discarded s.core fun gone => takeHdr_again type h gone s.core hserved hlane hok hagain,
      fun hfirst => ⟨fun hn hauth => discarded _ fun gone => takeHdr_early type h gone s.core hserved hlane hok hfirst hn hauth,
        fun hauth hlow => discarded _ fun gone =>
          takeHdr_stale type h gone s.core hserved hlane hok hfirst (fun hn => hauth.resolve_left hn) hlow⟩⟩

end Sys2Proof.Machine
end

section
/-! SUPPORT. The twin link, the causes of UNSYNCED that the link shows, and the planned swap (R355, R362, R363, R365, R368, R375 to
R378, R382). -/

namespace Sys2Proof.Machine

/-! ### Lanes (R365) -/

theorem padTo_length (n : Nat) (b : Bytes) : (padTo n b).length = n := by
  unfold padTo slice
  simp only [List.drop_zero, List.length_append, List.length_replicate, List.length_take]
  omega

/-- The link comes up: new lanes, a new nonce of 16 bytes, and no authentication (R365). -/
theorem linkUp_spec (l : BitVec 2) (c : Core) : ∃ w o, linkUp l c = { c with twin := w, out := o, free := c.free + 1 } ∧
    w.lanes = l ∧ w.authed = false ∧ w.nonce.length = 16 ∧ w.nonceT = [] := by
  unfold linkUp drawNoise
  dsimp only
  obtain ⟨q, o, e⟩ := twinSend_only 0x00 (padTo 24 (padTo 16 (Config.noise c.free))) { c with
    free := c.free + 1
    twin := { c.twin with
      lanes := l, nonce := padTo 16 (Config.noise c.free), nonceT := [], serialT := none, answerT := [], answered := false
      authed := false, txSeq := [], rxSeq := [], txSnap := none, snapBad := false, txPieces := [] } }
  exact ⟨_, o, e, rfl, rfl, padTo_length 16 _, rfl⟩

theorem twinLinkUp_spec (s : State) (hserved : linkServed s.core = true) (hdown : s.core.twin.lanes = 0) : ∃ t, Runs .twinLinkUp s t ∧
    t.core.twin.lanes = 3 ∧ t.core.twin.authed = false ∧ t.core.twin.nonce.length = 16 ∧ t.core.twin.nonceT = [] ∧
    t = { s with core := { s.core with twin := t.core.twin, out := t.core.out, free := s.core.free + 1 } } := by
  have hrun : Runs .twinLinkUp s { s with core := linkUp 3 s.core } :=
    congrArg Host.Outcome.next (if_pos (by rw [hserved, hdown]; rfl))
  obtain ⟨w, o, e, hlanes, hauthed, hnonce, hnonceT⟩ := linkUp_spec 3 s.core
  rw [e] at hrun
  exact ⟨_, hrun, hlanes, hauthed, hnonce, hnonceT, rfl⟩

theorem runs_twinLaneUp (l : Fin 2) (s : State) (hserved : linkServed s.core = true) (hdown : pbit s.core.twin.lanes l = false) :
    Runs (.twinLaneUp l) s { s with core := laneUp l s.core } :=
  congrArg Host.Outcome.next (if_pos (by rw [hserved, hdown]; rfl))

/-- The first lane brings the link up (R365). -/
theorem twinLaneUp_first (l : Fin 2) (s : State) (hserved : linkServed s.core = true) (hdown : s.core.twin.lanes = 0) :
    ∃ t, Runs (.twinLaneUp l) s t ∧ t.core.twin.lanes = setBit 0 l true ∧ t.core.twin.authed = false ∧
      t = { s with core := { s.core with twin := t.core.twin, out := t.core.out, free := s.core.free + 1 } } := by
  have hrun := runs_twinLaneUp l s hserved (by rw [hdown]; exact BitVec.getLsbD_zero)
  obtain ⟨w, o, e, hlanes, hauthed, -, -⟩ := linkUp_spec (setBit 0 l true) s.core
  rw [show laneUp l s.core = _ from (if_pos hdown).trans e] at hrun
  exact ⟨_, hrun, hlanes, hauthed, rfl⟩

theorem twinLaneUp_second (l : Fin 2) (s : State) (hserved : linkServed s.core = true) (hl : pbit s.core.twin.lanes l = false)
    (hup : s.core.twin.lanes ≠ 0) : Runs (.twinLaneUp l) s { s with core := { s.core with
      twin := { s.core.twin with lanes := setBit s.core.twin.lanes l true } } } := by
  have hrun := runs_twinLaneUp l s hserved hl
  rwa [show laneUp l s.core = _ from if_neg hup] at hrun

/-- A lane that goes down is recorded; the link goes down with its last lane (R365). -/
theorem twinLaneDown_spec (l : Fin 2) (s : State) (hserved : linkServed s.core = true) (hl : pbit s.core.twin.lanes l = true) :
    ∃ t, Runs (.twinLaneDown l) s t ∧ t = { s with core := { s.core with
      recd := t.core.recd
      twin := { s.core.twin with
        lanes := setBit s.core.twin.lanes l false, authed := s.core.twin.authed && setBit s.core.twin.lanes l false != 0 } } } := by
  have hrun : Runs (.twinLaneDown l) s { s with core := laneDown l s.core } :=
    congrArg Host.Outcome.next (if_pos (by rw [hserved, hl]; rfl))
  obtain ⟨u, e⟩ : ∃ u, laneDown l s.core = { s.core with
      recd := u
      twin := { s.core.twin with
        lanes := setBit s.core.twin.lanes l false, authed := s.core.twin.authed && setBit s.core.twin.lanes l false != 0 } } :=
    event_only 0x092 0x0B [l.val] _
  rw [e] at hrun
  exact ⟨_, hrun, rfl⟩

/-- A command of the link whose condition is not met has no effect. -/
theorem link_idle {c : Instr} {p q : Bool} {s t : State} (hexec : exec c s = .next (if p && q then t else s))
    (h : p = false ∨ q = false) : Runs c s s :=
  hexec.trans (congrArg Host.Outcome.next (if_neg (by rcases h with h | h <;> simp [h])))

theorem twinLinkUp_idle (s : State) (h : linkServed s.core = false ∨ s.core.twin.lanes ≠ 0) : Runs .twinLinkUp s s :=
  link_idle rfl (h.imp_right beq_eq_false_iff_ne.mpr)

theorem twinLane_idle (l : Fin 2) (s : State) :
    ((linkServed s.core = false ∨ pbit s.core.twin.lanes l = true) → Runs (.twinLaneUp l) s s) ∧
      ((linkServed s.core = false ∨ pbit s.core.twin.lanes l = false) → Runs (.twinLaneDown l) s s) :=
  ⟨fun h => link_idle rfl (h.imp_right fun hup => by rw [hup]; rfl), fun h => link_idle rfl h⟩

/-! ### Causes that the link shows (R375, R377) -/

/-- A cause has no effect on a unit that is no standby. -/
theorem unsyncCause_other (n : Nat) (c : Core) (h : c.sys.mode ≠ .shadow) : unsyncCause n c = c := if_pos (bne_iff_ne.mpr h)

/-- A standby that is UNSYNCED starts its waiting time and its procedure again (R377, R378). -/
theorem unsyncCause_again (n : Nat) (c : Core) (hm : c.sys.mode = .shadow) (hs : c.twin.synced = false) :
    unsyncCause n c = { c with twin := { c.twin with quiet := 0, resync := 0 } } :=
  (if_neg (by rw [hm]; decide)).trans (if_neg (by rw [hs]; decide))

/-- A cause in a synchronised standby: it is UNSYNCED with the cause, which is counted; no other counter of the link changes (R375). -/
theorem unsyncCause_spec (n : Nat) (c : Core) (hm : c.sys.mode = .shadow) (hs : c.twin.synced = true) :
    (unsyncCause n c).twin.synced = false ∧ (unsyncCause n c).twin.cause = n ∧
      (unsyncCause n c).twin.entries = satAdd 65535 c.twin.entries 1 ∧ (unsyncCause n c).twin.counters = c.twin.counters := by
  obtain ⟨u, h, q, x, e⟩ := unsyncNow_only n c
  rw [unsyncCause_synced n c hm hs, e]
  exact ⟨rfl, rfl, rfl, rfl⟩

theorem runs_linkLost (s : State) (hr : s.core.sys.inReset = false) : Runs .linkLost s { s with core := linkLost s.core } :=
  congrArg Host.Outcome.next (if_neg (by rw [hr]; decide))

theorem linkLost_idle (s : State) (h : s.core.sys.inReset = true ∨ s.core.twin.age < 8 ∨ s.core.sys.mode ≠ .shadow) :
    Runs .linkLost s s := by
  cases hr : s.core.sys.inReset with
  | true => exact congrArg Host.Outcome.next (if_pos hr)
  | false =>
    have hrun := runs_linkLost s hr
    have hidle : linkLost s.core = s.core := by
      unfold linkLost
      split
      next hage => exact unsyncCause_other 1 s.core ((h.resolve_left (by rw [hr]; decide)).resolve_left (Nat.not_lt.mpr hage))
      next => rfl
    rwa [hidle] at hrun

/-- Eight ticks without a message: the cause LINK_LOST (R375). -/
theorem linkLost_silent (s : State) (hr : s.core.sys.inReset = false) (hage : 8 ≤ s.core.twin.age) :
    Runs .linkLost s { s with core := unsyncCause 1 s.core } := by
  have hrun := runs_linkLost s hr
  rwa [show linkLost s.core = _ from if_pos hage] at hrun

theorem linkLost_again (s : State) (hr : s.core.sys.inReset = false) (hage : 8 ≤ s.core.twin.age) (hm : s.core.sys.mode = .shadow)
    (hs : s.core.twin.synced = false) :
    Runs .linkLost s { s with core := { s.core with twin := { s.core.twin with quiet := 0, resync := 0 } } } := by
  have hrun := linkLost_silent s hr hage
  rwa [unsyncCause_again 1 s.core hm hs] at hrun

theorem hashDiverge_idle (s : State) (h : s.core.seq.due.contains .hashDiverge = false) : Runs .hashDiverge s s :=
  congrArg Host.Outcome.next (if_neg (by rw [h]; decide))

theorem runs_hashDiverge (s : State) (h : s.core.seq.due.contains .hashDiverge = true) :
    Runs .hashDiverge s { s with core := unsyncCause 6 { s.core with seq.due := s.core.seq.due.erase .hashDiverge } } :=
  congrArg Host.Outcome.next (if_pos h)

theorem inputLate_idle (s : State) (h : s.core.sys.inReset = true ∨ s.core.tb.running = false ∨ inputMissing s.core = false) :
    Runs .inputLate s s :=
  congrArg Host.Outcome.next (if_neg (by rcases h with h | h | h <;> simp [h]))

theorem runs_inputLate (s : State) (hr : s.core.sys.inReset = false) (hrunning : s.core.tb.running = true)
    (hmissing : inputMissing s.core = true) : Runs .inputLate s { s with core := inputLate s.core } :=
  congrArg Host.Outcome.next (if_pos (by rw [hr, hrunning, hmissing]; rfl))

/-! ### The planned swap (R362, R363, R382) -/

theorem takeEpoch_eq (c : Core) : takeEpoch c = { c with nv := { c.nv with epoch := (takeEpoch c).nv.epoch } } := rfl

/-- A unit whose twin stands by takes over from SHADOW with a new epoch, ACTIVE (R355, R362, R363). -/
theorem takeOver_synced (cause : Nat) (c : Core) (hs : c.twin.synced = true) :
    (takeOver cause c).sys.mode = .service ∧ (takeOver cause c).twin.role = roleIn .service (twinStandby c) ∧
      (takeOver cause c).nv.epoch = (takeEpoch c).nv.epoch ∧ (takeOver cause c).twin.relinq = none ∧
      (takeOver cause c).twin.synced = false := by
  obtain ⟨u, b, h, q, x, hmode⟩ := changeMode_only .service cause 0 0 { c with twin := { c.twin with synced := false, resync := 0 } }
  unfold takeOver
  dsimp only
  rw [if_pos hs, hmode]
  generalize htaken : takeEpoch _ = e
  obtain ⟨q2, hflags⟩ := snapFlags_only e
  rw [hflags]
  obtain ⟨h3, q3, x3, hdropped⟩ := dropCarried_only { e with seq := q2 }
  rw [hdropped, ← htaken]
  exact ⟨rfl, rfl, rfl, rfl, rfl⟩

/-- The former active enters SHADOW, synchronised at once, with a new epoch (R363, R382). -/
theorem swapOut_spec (k : Nat) (c : Core) : (swapOut k c).sys.mode = .shadow ∧ (swapOut k c).twin.role = .standby ∧
    (swapOut k c).twin.synced = true ∧ (swapOut k c).nv.epoch = (takeEpoch c).nv.epoch ∧ (swapOut k c).twin.swap = none := by
  unfold swapOut
  dsimp only
  obtain ⟨g, hfinish⟩ := finish_only k 0x00 0 (takeEpoch c).nv.epoch.toNat 4 { takeEpoch c with twin := { (takeEpoch c).twin with swap := none } }
  rw [hfinish]
  obtain ⟨u, b, h, q, x, hmode⟩ := changeMode_only .shadow 0x93 0 0
    { takeEpoch c with host := g, twin := { (takeEpoch c).twin with swap := none, synced := true } }
  dsimp only at hmode ⊢
  rw [hmode]
  exact ⟨rfl, rfl, rfl, rfl, rfl⟩

theorem runs_plannedSwap (s : State) (hr : s.core.sys.inReset = false) (hreset : resetting s.core = false) (hdue : swapDue s.core = true) :
    Runs .plannedSwap s { s with core := swapNow s.core } :=
  congrArg Host.Outcome.next (if_pos (by rw [hr, hreset, hdue]; rfl))

theorem plannedSwap_idle (s : State) (h : s.core.sys.inReset = true ∨ resetting s.core = true ∨ swapDue s.core = false) :
    Runs .plannedSwap s s :=
  congrArg Host.Outcome.next (if_neg (by rcases h with h | h | h <;> simp [h]))

/-- The standby takes the claim at the tick after the one that RELINQUISH names (R382). -/
theorem plannedSwap_standby (s : State) (n : Nat) (hm : s.core.sys.mode = .shadow) (hs : s.core.twin.synced = true)
    (hr : s.core.sys.inReset = false) (hreset : resetting s.core = false) (hswap : s.core.twin.swap = none)
    (hrelinq : s.core.twin.relinq = some n) (htick : s.core.tb.tick = n + 1) (hage : s.core.twin.helloAge < 16) :
    ∃ t, Runs .plannedSwap s t ∧ t.core.sys.mode = .service ∧ t.core.twin.role = .active ∧
      t.core.nv.epoch = (takeEpoch s.core).nv.epoch ∧ t.core.twin.relinq = none ∧ t.core.twin.synced = false := by
  have hdue : swapDue s.core = true := by
    unfold swapDue
    rw [hswap, hm, hs, hrelinq, htick]
    simp
  have hrun := runs_plannedSwap s hr hreset hdue
  have hnow : swapNow s.core = takeOver 0x93 s.core := by
    unfold swapNow
    rw [hswap]
  rw [hnow] at hrun
  obtain ⟨hmode, hrole, hepoch, hnone, hsynced⟩ := takeOver_synced 0x93 s.core hs
  have hactive : roleIn .service (twinStandby s.core) = .active := if_pos (decide_eq_true hage)
  exact ⟨_, hrun, hmode, hrole.trans hactive, hepoch, hnone, hsynced⟩

/-- The active gives the claim up once its last claimed tick has passed (R382). -/
theorem plannedSwap_active (s : State) (k : Nat) (hm : s.core.sys.mode = .service) (hr : s.core.sys.inReset = false)
    (hreset : resetting s.core = false) (hswap : s.core.twin.swap = some (0, k)) : ∃ t, Runs .plannedSwap s t ∧
      t.core.sys.mode = .shadow ∧ t.core.twin.role = .standby ∧ t.core.twin.synced = true ∧
      t.core.nv.epoch = (takeEpoch s.core).nv.epoch ∧ t.core.twin.swap = none := by
  have hdue : swapDue s.core = true := by
    unfold swapDue
    rw [hswap, hm]
    rfl
  have hrun := runs_plannedSwap s hr hreset hdue
  have hnow : swapNow s.core = swapOut k s.core := by
    unfold swapNow
    rw [hswap]
  rw [hnow] at hrun
  exact ⟨_, hrun, swapOut_spec k s.core⟩

/-! ### The link and the roles -/

/-- A synchronised standby on each cause that the link shows (R375). -/
theorem standby_unsynced (s : State) (hm : s.core.sys.mode = .shadow) (hs : s.core.twin.synced = true) (hr : s.core.sys.inReset = false) :
    (8 ≤ s.core.twin.age → ∃ t, Runs .linkLost s t ∧ t.core.twin.synced = false ∧ t.core.twin.cause = 1 ∧
      t.core.twin.entries = satAdd 65535 s.core.twin.entries 1) ∧
    (s.core.seq.due.contains .hashDiverge = true → ∃ t, Runs .hashDiverge s t ∧ t.core.twin.synced = false ∧ t.core.twin.cause = 6 ∧
      t.core.twin.entries = satAdd 65535 s.core.twin.entries 1) ∧
    (s.core.tb.running = true → inputMissing s.core = true → ∃ t, Runs .inputLate s t ∧ t.core.twin.synced = false ∧
      t.core.twin.cause = 2 ∧ tget 0 t.core.twin.counters 4 = tget 0 s.core.twin.counters 4 + 1) := by
  refine ⟨fun hage => ?_, fun hdue => ?_, fun hrunning hmissing => ?_⟩
  · obtain ⟨hsynced, hcause, hentries, -⟩ := unsyncCause_spec 1 s.core hm hs
    exact ⟨_, linkLost_silent s hr hage, hsynced, hcause, hentries⟩
  · obtain ⟨hsynced, hcause, hentries, -⟩ := unsyncCause_spec 6 { s.core with seq.due := s.core.seq.due.erase .hashDiverge } hm hs
    exact ⟨_, runs_hashDiverge s hdue, hsynced, hcause, hentries⟩
  · obtain ⟨hsynced, hcause, -, hcounters⟩ :=
      unsyncCause_spec 2 { s.core with twin := { s.core.twin with counters := tmod 0 s.core.twin.counters 4 (· + 1) } } hm hs
    have hcount : tget 0 (tmod 0 s.core.twin.counters 4 (· + 1)) 4 = tget 0 s.core.twin.counters 4 + 1 :=
      (tget_tmod ..).trans (if_pos rfl)
    exact ⟨_, runs_inputLate s hr hrunning hmissing, hsynced, hcause, (congrArg (fun t : Table U32 => tget 0 t 4) hcounters).trans hcount⟩

/-- Settles O39: first the conditions that are not met, then each command's effect. -/
theorem twinLinkAndRoles : Obligations.TwinLinkAndRoles := by
  intro s
  refine ⟨twinLinkUp_idle s, fun l => twinLane_idle l s, linkLost_idle s, linkLost_again s, hashDiverge_idle s, inputLate_idle s,
    plannedSwap_idle s, fun hr => congrArg Host.Outcome.next (if_pos hr),
    fun hserved hdown => ⟨twinLinkUp_spec s hserved hdown, fun l => twinLaneUp_first l s hserved hdown⟩,
    fun l => twinLaneUp_second l s, fun l => twinLaneDown_spec l s, fun hm hs hr => ?_,
    fun k x hm hr hreset hswap _ _ _ => plannedSwap_active s k hm hr hreset hswap,
    fun hr => congrArg Host.Outcome.next (if_neg (by rw [hr]; decide))⟩
  obtain ⟨hlost, hdiverge, hlate⟩ := standby_unsynced s hm hs hr
  exact ⟨hlost, hdiverge, hlate, fun n => plannedSwap_standby s n hm hs hr⟩

end Sys2Proof.Machine
end

section
/-! SUPPORT. The layout of an event record (R409, R413). -/

namespace Sys2Proof.Machine

/-- A field past a part of a byte string. -/
theorem field_toLe_skip (k v o n : Nat) (b : Bytes) : field (toLe k v ++ b) (k + o) n = field b o n :=
  field_skip _ b k n o (toLe_length k v)

/-- The part of an event record that its CRC covers (R409, R413). -/
def eventHead (stamp code src sev : Nat) (ps : List Nat) : Bytes :=
  toLe 8 stamp ++ (toLe 2 code ++ (toLe 1 src ++ (toLe 1 sev ++
    (toLe 4 (ps.getD 0 0) ++ (toLe 4 (ps.getD 1 0) ++ (toLe 4 (ps.getD 2 0) ++ toLe 4 (ps.getD 3 0)))))))

theorem eventHead_length (stamp code src sev : Nat) (ps : List Nat) : (eventHead stamp code src sev ps).length = 28 := by
  simp [eventHead, toLe_length]

/-- An event record is the part that its CRC covers, and the CRC (R409). -/
theorem eventBytes_eq (stamp code src sev : Nat) (ps : List Nat) : eventBytes stamp code src sev ps =
    eventHead stamp code src sev ps ++ toLe 4 (crc32c (eventHead stamp code src sev ps)) := by
  simp only [eventBytes, eventHead, List.append_assoc]

theorem eventBytes_length (stamp code src sev : Nat) (ps : List Nat) : (eventBytes stamp code src sev ps).length = 32 := by
  rw [eventBytes_eq, List.length_append, eventHead_length, toLe_length]

section
variable (stamp code src sev : Nat) (ps : List Nat)

theorem eventBytes_stamp : field (eventBytes stamp code src sev ps) 0 8 = stamp % 256 ^ 8 := by
  rw [eventBytes_eq, eventHead, List.append_assoc, field_head]

theorem eventBytes_code : field (eventBytes stamp code src sev ps) 8 2 = code % 256 ^ 2 := by
  rw [eventBytes_eq, eventHead]
  simp only [List.append_assoc]
  rw [field_toLe_skip 8 stamp 0, field_head]

theorem eventBytes_src : field (eventBytes stamp code src sev ps) 10 1 = src % 256 ^ 1 := by
  rw [eventBytes_eq, eventHead]
  simp only [List.append_assoc]
  rw [field_toLe_skip 8 stamp 2, field_toLe_skip 2 code 0, field_head]

theorem eventBytes_sev : field (eventBytes stamp code src sev ps) 11 1 = sev % 256 ^ 1 := by
  rw [eventBytes_eq, eventHead]
  simp only [List.append_assoc]
  rw [field_toLe_skip 8 stamp 3, field_toLe_skip 2 code 1, field_toLe_skip 1 src 0, field_head]

/-- The parameters follow one another from byte 12 on. -/
theorem eventBytes_params (o n : Nat) : field (eventBytes stamp code src sev ps) (12 + o) n =
    field (toLe 4 (ps.getD 0 0) ++ (toLe 4 (ps.getD 1 0) ++ (toLe 4 (ps.getD 2 0) ++ (toLe 4 (ps.getD 3 0) ++
      toLe 4 (crc32c (eventHead stamp code src sev ps)))))) o n := by
  rw [eventBytes_eq]
  generalize crc32c _ = x
  rw [eventHead]
  simp only [List.append_assoc]
  rw [show 12 + o = 8 + (2 + (1 + (1 + o))) by omega, field_toLe_skip, field_toLe_skip, field_toLe_skip, field_toLe_skip]

theorem eventBytes_param (i : Nat) (h : i < 4) : field (eventBytes stamp code src sev ps) (12 + 4 * i) 4 = ps.getD i 0 % 256 ^ 4 := by
  rw [eventBytes_params]
  match i, h with
  | 0, _ => exact field_head ..
  | 1, _ => rw [field_toLe_skip 4 _ 0, field_head]
  | 2, _ => rw [field_toLe_skip 4 _ 4, field_toLe_skip 4 _ 0, field_head]
  | 3, _ => rw [field_toLe_skip 4 _ 8, field_toLe_skip 4 _ 4, field_toLe_skip 4 _ 0, field_head]

theorem eventBytes_crc : field (eventBytes stamp code src sev ps) 28 4 =
    crc32c (slice (eventBytes stamp code src sev ps) 0 28) % 256 ^ 4 := by
  have hlength := eventHead_length stamp code src sev ps
  rw [eventBytes_eq, slice_head _ _ 28 hlength]
  generalize crc32c _ = x
  have hcrc := field_head 4 x []
  rw [List.append_nil] at hcrc
  exact (field_skip _ (toLe 4 x) 28 4 0 hlength).trans hcrc

end

/-- A stamp is a power-cycle count of 22 bits and milliseconds of 42 (R407). -/
theorem stampOf_lt (c : Core) (h : c.nv.cycles ≤ 0x3FFFFE) : stampOf c < 2 ^ 64 := by
  unfold stampOf
  omega

/-- A parameter that is given has 32 bits, and one that is not is 0. -/
theorem getD_lt (ps : List Nat) (h : ∀ p, p ∈ ps → p < 2 ^ 32) (i : Nat) : ps.getD i 0 < 2 ^ 32 := by
  rw [List.getD_eq_getElem?_getD]
  cases hi : ps[i]? with
  | none => exact Nat.two_pow_pos 32
  | some p => exact h p (List.mem_of_getElem? hi)

/-- Settles O45: the record that an event stages, field by field. -/
theorem eventRecordLayout : Obligations.EventRecordLayout := by
  intro c code src ps hcode hsrc _ hps hcycles hsev hfailed hstopped hfail hroom hadmitted
  refine ⟨_, event_stages c code src ps hfailed hstopped hfail hroom hadmitted, eventBytes_length .., ?_, ?_, ?_, ?_, fun i hi => ?_,
    eventBytes_crc ..⟩
  · exact (eventBytes_stamp ..).trans (Nat.mod_eq_of_lt (stampOf_lt c hcycles))
  · exact (eventBytes_code ..).trans (Nat.mod_eq_of_lt (Nat.lt_trans hcode (by decide)))
  · exact (eventBytes_src ..).trans (Nat.mod_eq_of_lt hsrc)
  · exact (eventBytes_sev ..).trans (Nat.mod_eq_of_lt (Nat.lt_of_le_of_lt hsev (by decide)))
  · exact (eventBytes_param _ _ _ _ _ i hi).trans (Nat.mod_eq_of_lt (getD_lt ps hps i))

end Sys2Proof.Machine
end

section
/-! SUPPORT. Reception on the train-line ports, and the verification of a telegram (R386, R398 to R401). -/

namespace Sys2Proof.Machine

/-! ### A frame from a PHY (R386, R399) -/

/-- A frame that uses supported features only, also in its tag and in its message type (R386). -/
theorem frameOk_iff (m : Image) (p : Nat) (f : TrainFrame) : frameOk m p f = true ↔
    f.supported = true ∧ vidOk m p f.vid = true ∧ (f.udpPd = true → beNat (slice f.payload 6 2) = 0x5064) := by
  unfold frameOk
  cases f.udpPd <;> simp [and_assoc]

/-- A telegram of a used subscription to an address that the port receives on (R399). -/
def subscribed (m : Image) (p : Nat) (f : TrainFrame) (c : Core) : Option Nat :=
  if f.udpPd && ipOk m p f.dstIp && c.sys.mode != .safeTalk then subFor m (beNat (slice f.payload 8 4)) else none

theorem subscribed_some {m : Image} {p k : Nat} {f : TrainFrame} {c : Core} (hpd : f.udpPd = true) (hip : ipOk m p f.dstIp = true)
    (hmode : c.sys.mode ≠ .safeTalk) (hsub : subFor m (beNat (slice f.payload 8 4)) = some k) : subscribed m p f c = some k :=
  (if_pos (by rw [hpd, hip, bne_iff_ne.mpr hmode]; rfl)).trans hsub

theorem subscribed_none {m : Image} {p : Nat} {f : TrainFrame} {c : Core} (h : f.udpPd = false ∨ ipOk m p f.dstIp = false ∨
    c.sys.mode = .safeTalk ∨ subFor m (beNat (slice f.payload 8 4)) = none) : subscribed m p f c = none := by
  unfold subscribed
  rcases h with h | h | h | h
  · simp [h]
  · simp [h]
  · simp [h]
  · rw [h, ite_self]

theorem receiveFrame_deaf (p : Nat) (f : TrainFrame) (c : Core)
    (h : trainOn c = false ∨ (portAt c p).linkUp = false ∨ macOk (cfgOf c) p f.dstMac = false) : receiveFrame p f c = c :=
  if_pos (by rcases h with h | h | h <;> simp [h])

section
variable {p : Nat} {f : TrainFrame} {c : Core} (hon : trainOn c = true) (hup : (portAt c p).linkUp = true)
  (hmac : macOk (cfgOf c) p f.dstMac = true)
include hon hup hmac

/-- A frame that the port takes is counted; a format error is counted too, and any other goes to its queue (R386, R399). -/
theorem receiveFrame_taken : receiveFrame p f c = if frameOk (cfgOf c) p f = true then
    (subscribed (cfgOf c) p f c).elim (normalFrame p f (tlCount p 0 c)) fun k => priorityFrame p k f (tlCount p 0 c)
    else tlCount p 16 (tlCount p 0 c) := by
  unfold receiveFrame
  dsimp only
  rw [if_neg (by rw [hon, hup, hmac]; decide)]
  cases frameOk (cfgOf c) p f with
  | false => rfl
  | true =>
    rw [if_neg (by decide), if_pos rfl]
    change (match subscribed (cfgOf c) p f c with
      | some s => priorityFrame p s f (tlCount p 0 c)
      | none => normalFrame p f (tlCount p 0 c)) = _
    cases subscribed (cfgOf c) p f c <;> rfl

end

/-- Counting in a port's block leaves the port's queues and what storm control has spent (R402). -/
theorem portAt_counted (p off : Nat) (c : Core) :
    portAt (tlCount p off c) p = { portAt c p with counters := tmod 0 (portAt c p).counters off (· + 1) } :=
  (portAt_count p off p c).trans (if_pos rfl)

/-- A counter of a port after a count at its offset (R402). -/
theorem tlCount_counter (p off : Nat) (c : Core) :
    tget 0 (portAt (tlCount p off c) p).counters off = tget 0 (portAt c p).counters off + 1 := by
  rw [portAt_counted]
  dsimp only
  rw [tget_tmod, if_pos rfl]

/-- A counter of a port after a count at another offset (R402). -/
theorem tlCount_counter_other (p off j : Nat) (c : Core) (h : off ≠ j) :
    tget 0 (portAt (tlCount p off c) p).counters j = tget 0 (portAt c p).counters j := by
  rw [portAt_counted]
  dsimp only
  rw [tget_tmod, if_neg h]

/-- The budget of a subscription is used up (R399). -/
theorem priorityFrame_spent (p k : Nat) (f : TrainFrame) (c : Core) (h : (subAt c k).budget = 0) :
    priorityFrame p k f c = tlCount p 8 c := if_pos h

/-- A telegram within its budget uses one of it, and waits in the priority queue, or is dropped where the queue is full (R399). -/
theorem priorityFrame_spec (p k : Nat) (f : TrainFrame) (c : Core) (h : 0 < (subAt c k).budget) :
    (subAt (priorityFrame p k f c) k).budget = (subAt c k).budget - 1 ∧
    ((portAt c p).prio.length < 32 → (portAt (priorityFrame p k f c) p).prio = (portAt c p).prio ++ [f]) ∧
    (32 ≤ (portAt c p).prio.length → (portAt (priorityFrame p k f c) p).prio = (portAt c p).prio ∧
      tget 0 (portAt (priorityFrame p k f c) p).counters 12 = tget 0 (portAt c p).counters 12 + 1) ∧
    ∃ q u, priorityFrame p k f c = { c with train := { c.train with ports := q, subs := u } } := by
  have hbudget : (subAt (modSub k (fun x => { x with budget := x.budget - 1 }) c) k).budget = (subAt c k).budget - 1 := by
    rw [subAt_mod, if_pos rfl]
  unfold priorityFrame
  rw [if_neg (Nat.ne_of_gt h)]
  dsimp only
  by_cases hfull : 32 ≤ (portAt c p).prio.length
  · rw [if_pos (show 32 ≤ (portAt (modSub k _ c) p).prio.length from hfull)]
    refine ⟨hbudget, fun hroom => absurd hfull (Nat.not_le.mpr hroom), fun _ => ⟨?_, tlCount_counter ..⟩, _, _, rfl⟩
    rw [portAt_counted]
    rfl
  · rw [if_neg (show ¬ 32 ≤ (portAt (modSub k _ c) p).prio.length from hfull)]
    refine ⟨hbudget, fun _ => ?_, fun h => absurd h hfull, _, _, rfl⟩
    rw [portAt_mod, if_pos rfl]
    rfl

/-- A frame that storm control lets pass waits in the normal queue, or is dropped where the queue is full (R399). -/
theorem normalFrame_spec (p : Nat) (f : TrainFrame) (c : Core) (h : (portAt c p).spent + 1000 ≤ tlN (cfgOf c) 18 1 * 1000) :
    ((portAt c p).norm.length < 16 → (portAt (normalFrame p f c) p).norm = (portAt c p).norm ++ [f]) ∧
    (16 ≤ (portAt c p).norm.length → (portAt (normalFrame p f c) p).norm = (portAt c p).norm ∧
      tget 0 (portAt (normalFrame p f c) p).counters 12 = tget 0 (portAt c p).counters 12 + 1) ∧
    ∃ q, normalFrame p f c = { c with train := { c.train with ports := q } } := by
  have hpassed : portAt (modPort p (fun x => { x with spent := x.spent + 1000 }) c) p =
      { portAt c p with spent := (portAt c p).spent + 1000 } := (portAt_mod ..).trans (if_pos rfl)
  unfold normalFrame normalIn
  dsimp only
  rw [if_neg (Nat.not_lt.mpr h)]
  by_cases hfull : 16 ≤ (portAt c p).norm.length
  · rw [if_pos hfull]
    refine ⟨fun hroom => absurd hfull (Nat.not_le.mpr hroom), fun _ => ⟨?_, ?_⟩, _, rfl⟩
    · rw [portAt_counted, hpassed]
    · rw [tlCount_counter, hpassed]
  · rw [if_neg hfull]
    refine ⟨fun _ => ?_, fun h => absurd h hfull, _, rfl⟩
    rw [portAt_mod, if_pos rfl, hpassed]

theorem runs_trainFrame {port : Fin 2} {f : TrainFrame} {s : State} {c : Core} (h : receiveFrame port f s.core = c) :
    Runs (.trainFrameReceived port f) s { s with core := c } := h ▸ rfl

section
variable {port : Fin 2} {f : TrainFrame} {s : State} (hon : trainOn s.core = true) (hup : (portAt s.core port).linkUp = true)
  (hmac : macOk (cfgOf s.core) port f.dstMac = true)
include hon hup hmac

theorem runs_trainFrame_malformed (hbad : frameOk (cfgOf s.core) port f = false) :
    Runs (.trainFrameReceived port f) s { s with core := tlCount port 16 (tlCount port 0 s.core) } := by
  have e := receiveFrame_taken hon hup hmac
  rw [hbad, if_neg (by decide)] at e
  exact runs_trainFrame e

variable (hok : frameOk (cfgOf s.core) port f = true)
include hok

theorem runs_trainFrame_queued {r : Option Nat} (hr : subscribed (cfgOf s.core) port f s.core = r) :
    Runs (.trainFrameReceived port f) s { s with
      core := r.elim (normalFrame port f (tlCount port 0 s.core)) fun k => priorityFrame port k f (tlCount port 0 s.core) } := by
  have e := receiveFrame_taken hon hup hmac
  rw [hok, if_pos rfl, hr] at e
  exact runs_trainFrame e

/-- A telegram of a used subscription (R399). -/
theorem trainFrame_priority {k : Nat} (hr : subscribed (cfgOf s.core) port f s.core = some k) :
    ((subAt s.core k).budget = 0 → Runs (.trainFrameReceived port f) s { s with core := tlCount port 8 (tlCount port 0 s.core) }) ∧
    (0 < (subAt s.core k).budget → ∃ t, Runs (.trainFrameReceived port f) s t ∧
      (subAt t.core k).budget = (subAt s.core k).budget - 1 ∧
      ((portAt s.core port).prio.length < 32 → (portAt t.core port).prio = (portAt s.core port).prio ++ [f]) ∧
      (32 ≤ (portAt s.core port).prio.length → (portAt t.core port).prio = (portAt s.core port).prio ∧
        tget 0 (portAt t.core port).counters 12 = tget 0 (portAt s.core port).counters 12 + 1) ∧
      t = { s with core := { s.core with train := { s.core.train with ports := t.core.train.ports, subs := t.core.train.subs } } }) := by
  have hrun := runs_trainFrame_queued hon hup hmac hok hr
  refine ⟨fun hspent => ?_, fun hbudget => ?_⟩
  · rwa [Option.elim_some, priorityFrame_spent _ _ _ (tlCount port 0 s.core) hspent] at hrun
  · obtain ⟨hleft, hroom, hfull, q, u, e⟩ := priorityFrame_spec port k f (tlCount port 0 s.core) hbudget
    rw [portAt_counted] at hroom hfull
    refine ⟨_, hrun, hleft, hroom, fun h => ⟨(hfull h).1, (hfull h).2.trans ?_⟩, ?_⟩
    · rw [← tlCount_counter_other port 0 12 s.core (by decide), portAt_counted]
    · rw [Option.elim_some, e]
      rfl

/-- Any other frame that storm control lets pass (R399). -/
theorem trainFrame_normal (hr : subscribed (cfgOf s.core) port f s.core = none)
    (hstorm : (portAt s.core port).spent + 1000 ≤ tlN (cfgOf s.core) 18 1 * 1000) : ∃ t, Runs (.trainFrameReceived port f) s t ∧
      ((portAt s.core port).norm.length < 16 → (portAt t.core port).norm = (portAt s.core port).norm ++ [f]) ∧
      (16 ≤ (portAt s.core port).norm.length → (portAt t.core port).norm = (portAt s.core port).norm ∧
        tget 0 (portAt t.core port).counters 12 = tget 0 (portAt s.core port).counters 12 + 1) ∧
      t = { s with core := { s.core with train := { s.core.train with ports := t.core.train.ports } } } := by
  have hrun := runs_trainFrame_queued hon hup hmac hok hr
  have hspent : (portAt (tlCount port 0 s.core) port).spent + 1000 ≤ tlN (cfgOf (tlCount port 0 s.core)) 18 1 * 1000 := by
    rw [portAt_counted]
    exact hstorm
  obtain ⟨hroom, hfull, q, e⟩ := normalFrame_spec port f (tlCount port 0 s.core) hspent
  rw [portAt_counted] at hroom hfull
  refine ⟨_, hrun, hroom, fun h => ⟨(hfull h).1, (hfull h).2.trans ?_⟩, ?_⟩
  · rw [← tlCount_counter_other port 0 12 s.core (by decide), portAt_counted]
  · rw [Option.elim_none, e]
    rfl

end

/-! ### A telegram at the verifier (R398, R400, R401) -/

/-- The state in which `r` is what waits in the priority queue of port 0. -/
abbrev dequeued (r : List TrainFrame) (s : State) : State := { s with core := modPort 0 (fun x => { x with prio := r }) s.core }

/-- The priority queue of port 0 is served first (R399). -/
theorem serveQueues_first (s : State) (f : TrainFrame) (r : List TrainFrame) (h : (portAt s.core 0).prio = f :: r) :
    serveQueues s = verify 0 f (dequeued r s) := by
  unfold serveQueues
  dsimp only
  rw [h]

theorem runs_telegramVerify (s : State) (hon : trainOn s.core = true) (hmode : s.core.sys.mode ≠ .safeTalk) :
    Runs .telegramVerify s (serveQueues s) :=
  congrArg Host.Outcome.next (if_pos (by rw [hon, bne_iff_ne.mpr hmode]; rfl))

theorem telegramVerify_idle (s : State) (h : trainOn s.core = false ∨ s.core.sys.mode = .safeTalk) : Runs .telegramVerify s s :=
  congrArg Host.Outcome.next (if_neg (by rcases h with h | h <;> simp [h]))

/-- What the verdict of its window makes of a telegram (R398, R400). -/
def judged (p k : Nat) (b : Bytes) (s : State) : WinResult → State
  | .accept w => { s with core := acceptTelegram k w b s.core }
  | .stale => { s with core := tlCount p 24 s.core }
  | .duplicate => { s with core := tlCount p 28 s.core }

section
variable {p k : Nat} {f : TrainFrame} {s : State} (hsub : subFor (cfgOf s.core) (beNat (slice f.payload 8 4)) = some k)
include hsub

/-- The header or the entry's values do not fit (R400). -/
theorem verify_malformed (h : ¬ (pdOk f.payload = true ∧ entryOk (cfgOf s.core) k f = true)) :
    verify p f s = { s with core := tlCount p 16 s.core } := by
  unfold verify
  dsimp only
  rw [hsub]
  dsimp only
  rw [if_pos (by rw [← Bool.not_and, Bool.not_eq_true', ← Bool.not_eq_true, Bool.and_eq_true]; exact h)]

variable (hgood : pdOk f.payload = true ∧ entryOk (cfgOf s.core) k f = true)
include hgood

/-- A telegram that is well formed: its key, its authentication code, then its window (R398, R400). -/
theorem verify_good : verify p f s =
    if trainKey s (byteAt f.payload 43) = [] then s
    else if slice f.payload (56 + field f.payload 50 2) 8 =
        (hmac (trainKey s (byteAt f.payload 43)) (slice f.payload 40 (16 + field f.payload 50 2))).take 8 then
      judged p k f.payload s (window (subAt s.core k) (BitVec.ofNat 16 (field f.payload 48 2)) (BitVec.ofNat 32 (field f.payload 52 4)))
    else { s with core := tlCount p 20 s.core } := by
  unfold verify
  dsimp only
  rw [hsub]
  dsimp only
  rw [if_neg (by rw [hgood.1, hgood.2]; decide)]
  simp only [List.isEmpty_iff, ne_eq, ite_not]
  cases window _ _ _ <;> rfl

end

/-- The update of a subscription with a telegram that passes: its data, a record after a timeout only, and its timeout no longer due
(R398, R401). -/
theorem acceptTelegram_spec (k : Nat) (w : SubSt) (b : Bytes) (c : Core) :
    subAt (acceptTelegram k w b c) k = { w with
      state := 2, epoch := BitVec.ofNat 16 (field b 48 2), seq := BitVec.ofNat 32 (field b 52 4)
      stamp := BitVec.ofNat 64 (stampOf c), data := slice b 56 (field b 50 2), accepted := w.accepted + 1, age := 0 } ∧
    ((subAt c k).state ≠ 3 → (acceptTelegram k w b c).recd = c.recd) ∧
    ∃ q u d, acceptTelegram k w b c = { c with train := { c.train with subs := q }, recd := u, seq := { c.seq with due := d } } := by
  unfold acceptTelegram
  dsimp only
  by_cases hlate : (subAt c k).state = 3
  · rw [if_pos hlate]
    generalize hd : modSub k _ _ = d
    obtain ⟨u, e⟩ := event_only 0x0A1 0x0C [k] d
    rw [e, ← hd]
    exact ⟨(subAt_mod ..).trans (if_pos rfl), fun h => absurd hlate h, _, _, _, rfl⟩
  · rw [if_neg hlate]
    exact ⟨(subAt_mod ..).trans (if_pos rfl), fun _ => rfl, _, _, _, rfl⟩

section
variable {s : State} {f : TrainFrame} {r : List TrainFrame} {k : Nat} (hon : trainOn s.core = true)
  (hmode : s.core.sys.mode ≠ .safeTalk) (hprio : (portAt s.core 0).prio = f :: r)
  (hsub : subFor (cfgOf s.core) (beNat (slice f.payload 8 4)) = some k)
include hon hmode hprio

/-- The verifier takes the oldest telegram of port 0 (R399). -/
theorem telegramVerify_first : Runs .telegramVerify s (verify 0 f (dequeued r s)) :=
  (runs_telegramVerify s hon hmode).trans (congrArg Host.Outcome.next (serveQueues_first s f r hprio))

include hsub

theorem telegramVerify_malformed (h : ¬ (pdOk f.payload = true ∧ entryOk (cfgOf s.core) k f = true)) :
    Runs .telegramVerify s { s with core := tlCount 0 16 (dequeued r s).core } :=
  (telegramVerify_first hon hmode hprio).trans (congrArg Host.Outcome.next (verify_malformed (s := dequeued r s) hsub h))

variable (hgood : pdOk f.payload = true ∧ entryOk (cfgOf s.core) k f = true)
include hgood

theorem telegramVerify_keyless (hkey : trainKey s (byteAt f.payload 43) = []) : Runs .telegramVerify s (dequeued r s) :=
  (telegramVerify_first hon hmode hprio).trans
    (congrArg Host.Outcome.next ((verify_good (s := dequeued r s) hsub hgood).trans (if_pos hkey)))

variable (hkey : trainKey s (byteAt f.payload 43) ≠ [])
include hkey

theorem telegramVerify_false (h : slice f.payload (56 + field f.payload 50 2) 8 ≠
    (hmac (trainKey s (byteAt f.payload 43)) (slice f.payload 40 (16 + field f.payload 50 2))).take 8) :
    Runs .telegramVerify s { s with core := tlCount 0 20 (dequeued r s).core } :=
  (telegramVerify_first hon hmode hprio).trans
    (congrArg Host.Outcome.next ((verify_good (s := dequeued r s) hsub hgood).trans ((if_neg hkey).trans (if_neg h))))

/-- A telegram that is well formed and genuine is judged by its window (R398). -/
theorem telegramVerify_judged (h : slice f.payload (56 + field f.payload 50 2) 8 =
    (hmac (trainKey s (byteAt f.payload 43)) (slice f.payload 40 (16 + field f.payload 50 2))).take 8) {v : WinResult}
    (hv : window (subAt s.core k) (BitVec.ofNat 16 (field f.payload 48 2)) (BitVec.ofNat 32 (field f.payload 52 4)) = v) :
    Runs .telegramVerify s (judged 0 k f.payload (dequeued r s) v) := by
  rw [← hv]
  exact (telegramVerify_first hon hmode hprio).trans
    (congrArg Host.Outcome.next ((verify_good (s := dequeued r s) hsub hgood).trans ((if_neg hkey).trans (if_pos h))))

end

/-- Settles O44: the ports frame by frame, then the verifier's checks in their order. -/
theorem trainReception : Obligations.TrainReception := by
  refine ⟨fun port f s => ⟨fun hdeaf => ?_, fun hon hup hmac => ⟨fun hbad => ?_, fun hformed => ?_⟩⟩, telegramVerify_idle,
    fun s f r k hon hmode hprio hsub => ⟨telegramVerify_malformed hon hmode hprio hsub, telegramVerify_keyless hon hmode hprio hsub,
      telegramVerify_false hon hmode hprio hsub, fun hgood hkey h hv => telegramVerify_judged hon hmode hprio hsub hgood hkey h hv,
      fun hgood hkey h hv => telegramVerify_judged hon hmode hprio hsub hgood hkey h hv, fun w hgood hkey h hv => ?_⟩⟩
  · exact runs_trainFrame (receiveFrame_deaf port f s.core hdeaf)
  · exact runs_trainFrame_malformed hon hup hmac (Bool.eq_false_iff.mpr fun hok => hbad ((frameOk_iff ..).mp hok))
  · have hok := (frameOk_iff (cfgOf s.core) port f).mpr hformed
    exact ⟨fun k hpd hip hmode hsub => trainFrame_priority hon hup hmac hok (subscribed_some hpd hip hmode hsub),
      fun hother hstorm => trainFrame_normal hon hup hmac hok (subscribed_none hother) hstorm⟩
  · obtain ⟨hupdated, hsilent, q, u, d, e⟩ := acceptTelegram_spec k w f.payload (dequeued r s).core
    refine ⟨_, telegramVerify_judged hon hmode hprio hsub hgood hkey h hv, hupdated, hsilent, ?_⟩
    dsimp only [judged]
    rw [e]
    rfl

end Sys2Proof.Machine
end

section
/-! SUPPORT. Resets, the hold-up flush and its end, the internal reset release, and PARKED (R45, R60 to R70). -/

namespace Sys2Proof.Machine

/-- A command that replaces the core by `c` completes with the core `d` that `c` is. -/
theorem runs_core {i : Instr} {s : State} {c d : Core} (e : c = d) (h : Runs i s { s with core := c }) : Runs i s { s with core := d } := e ▸ h

/-- Settles O4: the fields of the reset state, read off. -/
theorem resetLeaves : Obligations.ResetLeaves :=
  ⟨rfl, rfl, rfl, rfl, rfl, rfl, rfl, rfl, rfl, rfl, rfl, rfl, rfl, rfl, rfl, rfl, rfl, rfl, rfl, rfl, rfl, rfl, rfl, rfl⟩

/-! ### What a reset leaves -/

/-- A reset, of a state that differs from `s` at most in its field die, its outputs and what is not kept anyway (R64). -/
theorem afterReset_resetTo (k : ResetKind) {s u : State} (d : DieSt) (o : List Output) (hu : u = { s with die := d, core := { s.core with out := o } }) :
    AfterReset k s (resetTo k u) := by
  subst hu
  refine ⟨⟨rfl, rfl, rfl⟩, ⟨rfl, rfl⟩, ⟨rfl, rfl, rfl, rfl⟩, rfl, rfl, fun h => ?_, ⟨rfl, rfl⟩, rfl, rfl, ⟨rfl, rfl, rfl, rfl, rfl⟩, rfl⟩
  show (if (s.core.nv.cfg == s.core.run.cfg) = true then _ else _) = _
  rw [if_pos (beq_iff_eq.mpr h)]

/-- A reset of the state itself. -/
theorem afterReset_self (k : ResetKind) (s : State) : AfterReset k s (resetTo k s) := afterReset_resetTo k s.die s.core.out rfl

/-- A power-on reset is a reset of kind POR that may note the cause of a wipe (R455). -/
theorem porNow_only (s : State) : ∃ w, porNow s = { resetTo .por s with onyx := { s.onyx with wipeCause := w } } := by
  unfold porNow
  dsimp only
  split
  · exact ⟨3, rfl⟩
  · exact ⟨s.onyx.wipeCause, rfl⟩

/-- Settles O11: the reset of kind POR, and over it the erase that the lid mesh asks for. -/
theorem powerOnReset : Obligations.PowerOnReset := by
  intro s
  obtain ⟨w, hp⟩ := porNow_only s
  obtain ⟨hheld, hopen, hkeys, hrec, hkept, hbase, hlatch, himg, hset, hlost, hq⟩ := afterReset_self .por s
  refine ⟨⟨porNow s, rfl, ?_, ?_⟩, ⟨_, rfl, ?_⟩⟩
  · rw [hp]
    exact ⟨hheld, hopen, hkeys, hrec, hkept, hbase, hlatch, himg, hset, hlost, hq⟩
  · rw [hp]
  · rw [hp]
    obtain ⟨h, u, d, q, b, n, he, hd⟩ := eraseCore_only .mesh (resetTo .por s).core
    dsimp only
    rw [if_pos rfl, he]
    refine ⟨⟨rfl, rfl⟩, rfl, rfl, rfl, rfl, fun hlc => hd ?_⟩
    show inUse s.core.nv.lc = true
    obtain h | h := hlc <;> rw [h] <;> rfl

/-! ### The start of the flush (R60, R66, R68) -/

/-- The core as a flush of kind `k` begins, with `n` noted as the hold-up voltage (R66, R68). -/
def flushCore (k : ResetKind) (n : Nat) (c : Core) : Core :=
  let c := event 0x002 0x00 [n] { relinquish c with sys.flush := some { kind := k }, sys.txOff := true }
  { c with recd.powerFail := true }

theorem flushCore_only (k : ResetKind) (n : Nat) (c : Core) : ∃ (u : RecSt) (q : Table U32) (o : List Output), flushCore k n c = { c with
    sys := { c.sys with flush := some { kind := k }, txOff := true }
    recd := { u with powerFail := true }, twin := { c.twin with txSeq := q }, out := o } := by
  unfold flushCore
  dsimp only
  obtain ⟨q, o, er⟩ := relinquish_only c
  rw [er]
  obtain ⟨u, ee⟩ := event_only 0x002 0x00 [n] { c with
    twin := { c.twin with txSeq := q }, out := o, sys := { c.sys with flush := some { kind := k }, txOff := true } }
  dsimp only
  rw [ee]
  exact ⟨u, q, o, rfl⟩

/-- With no flush under way, one begins: the islands open, and the core notes it (R66, R68). -/
theorem startFlush_eq (k : ResetKind) (v : Option Nat) (s : State) (hf : s.core.sys.flush = none) : ∃ n f, startFlush k false v s =
    { s with isa := holdOpen s.isa, isb := holdOpen s.isb, core := flushCore k n { s.core with free := f } } := by
  unfold startFlush
  rw [hf]
  cases v with
  | none => exact ⟨_, _, rfl⟩
  | some v => exact ⟨v, s.core.free, rfl⟩

/-- A flush of any kind begins; the field die and the deferred reset are left to the caller. -/
theorem startFlush_begins (k : ResetKind) (v : Option Nat) {s u : State} (d : DieSt) (b : Bool)
    (hu : u = { s with die := d, core := { s.core with sys := { s.core.sys with deferred := b } } }) (hf : s.core.sys.flush = none) :
    FlushBegun k s (startFlush k false v u) ∧ (startFlush k false v u).die = d ∧ (startFlush k false v u).core.sys.deferred = b := by
  subst hu
  obtain ⟨n, f, e⟩ := startFlush_eq k v { s with die := d, core := { s.core with sys := { s.core.sys with deferred := b } } } hf
  obtain ⟨u, q, o, ec⟩ := flushCore_only k n { s.core with sys := { s.core.sys with deferred := b }, free := f }
  rw [e]
  dsimp only
  rw [ec]
  exact ⟨⟨rfl, rfl, ⟨⟨rfl, rfl⟩, rfl, rfl⟩, rfl, rfl⟩, rfl, rfl⟩

/-- The same, where only the state itself is meant. -/
theorem startFlush_begins_self (k : ResetKind) (v : Option Nat) (s : State) (hf : s.core.sys.flush = none) :
    FlushBegun k s (startFlush k false v s) ∧ (startFlush k false v s).die = s.die :=
  have h := startFlush_begins k v s.die s.core.sys.deferred (s := s) rfl hf
  ⟨h.1, h.2.1⟩

/-- A flush that runs takes the higher-ranked kind and is not restarted (R62, R68). -/
theorem startFlush_again (k : ResetKind) (v : Option Nat) (f : FlushSt) (s : State) (hf : s.core.sys.flush = some f) (hp : f.toParked = false) :
    startFlush k false v s = { s with core := { s.core with sys := { s.core.sys with flush := some { kind := higherReset f.kind k } } } } := by
  unfold startFlush
  rw [hf]
  dsimp only
  rw [hp]
  rfl

/-! ### The soft-reset write (R61, R474) -/

/-- What an access to BAR0 settles about its port: whether it answers yet, and the draw that this may take (R51). -/
theorem portSettles_only (c : Core) : ∃ b f, portSettles c = { c with sys := { c.sys with early := b }, free := f } := by
  unfold portSettles
  split
  · exact ⟨c.sys.early, c.free, rfl⟩
  · split
    · exact ⟨false, c.free, rfl⟩
    · exact ⟨_, _, rfl⟩

/-- In step 1 of the self-test a port that does not answer yet stays so (R51). -/
theorem portSettles_step1 (c : Core) (h : c.sys.stStep = 1) : portSettles c = c := by
  unfold portSettles
  rw [if_pos (by simp [h])]

/-- Where BAR0 takes no writes (R51, R52). -/
theorem barOpen_shut (c : Core) (h : c.sys.inReset = true ∨ c.sys.mode = .safeTalk ∨ c.sys.early = true) : barOpen c = false := by
  unfold barOpen
  obtain h | h | h := h <;> simp [h]

theorem barOpen_modes {c : Core} (h : barOpen c = true) : c.sys.mode ≠ .safeTalk ∧ c.sys.inReset = false := by
  unfold barOpen at h
  simp only [Bool.and_eq_true, Bool.not_eq_true', bne_iff_ne] at h
  exact ⟨h.1.2, h.1.1⟩

theorem claiming_atPort (s : State) : (claiming (portSettles s.core) && anyMoving (portSettles s.core)) = (claiming s.core && anyMoving s.core) := by
  obtain ⟨b, f, e⟩ := portSettles_only s.core
  rw [e]
  rfl

/-- A value other than the key, or a write where BAR0 takes none, does nothing (R474). -/
theorem writeReset_ignored (v : U32) (s : State) (h : v ≠ 0x5AA5 ∨ barOpen s.core = false) : writeReset v s = s := by
  refine if_neg fun hb => ?_
  rw [Bool.and_eq_true, beq_iff_eq] at hb
  obtain h | h := h
  · exact h hb.2
  · exact absurd hb.1 (by rw [h]; decide)

/-- The key where BAR0 takes writes: a refusal with a portal in motion, or the flush (R61). -/
theorem writeReset_key (s : State) (ho : barOpen (atPort s).core = true) : writeReset 0x5AA5 (atPort s) =
    if (claiming s.core && anyMoving s.core) = true then { s with core := event 0x004 0x00 [] (atPort s).core } else startFlush .soft false none (atPort s) := by
  obtain ⟨hm, hr⟩ : (portSettles s.core).sys.mode ≠ .safeTalk ∧ (portSettles s.core).sys.inReset = false := barOpen_modes ho
  unfold writeReset softReset
  rw [if_pos (by rw [ho]; rfl), if_neg (by simp [hm, hr]), claiming_atPort]

theorem atPort_flush (s : State) : (atPort s).core.sys.flush = s.core.sys.flush := by
  obtain ⟨b, f, e⟩ := portSettles_only s.core
  show (portSettles s.core).sys.flush = _
  rw [e]

/-- The deferred reset waits for no operation that asked for one (R120). -/
theorem deferred_starts (s : State) (hr : s.core.sys.inReset = false) (hd : s.core.sys.deferred = true) (hm : s.core.sys.mode ≠ .safeTalk)
    (hw : ∀ e ∈ s.core.host.slots, ∀ x ∈ e.2, slotOp x ≠ 0x61 ∧ slotOp x ≠ 0x70) :
    Runs .deferredSoftReset s (startFlush .soft false none { s with core := { s.core with sys := { s.core.sys with deferred := false } } }) := by
  have hwaits : (s.core.host.slots.any fun e => e.2.any fun x => slotOp x == 0x61 || slotOp x == 0x70) = false := by
    rw [List.any_eq_false]
    intro e he
    cases hx : e.2 with
    | none => simp
    | some x => simpa using hw e he x (by simp [hx])
  refine congrArg Host.Outcome.next (if_pos ?_)
  rw [hwaits, hd, hr]
  simp [hm]

/-- The kind that a flush takes from a power failure, and from RST_N (R62). -/
theorem higherReset_bor (k : ResetKind) : higherReset k .bor = if k = .por then .por else .bor := by cases k <;> rfl

theorem higherReset_pin (k : ResetKind) : higherReset k .pin = if k = .por ∨ k = .bor then k else .pin := by cases k <;> rfl

/-- Settles O12: a flush begins, or the one that runs takes the higher kind. -/
theorem flushStarts : Obligations.FlushStarts := by
  intro s hr
  have notReset : ∀ u w : State, (if s.core.sys.inReset = true then u else w) = w := fun _ _ => if_neg (by rw [hr]; decide)
  refine ⟨fun hf => ⟨fun v => ⟨_, congrArg Host.Outcome.next (notReset _ _), (startFlush_begins_self .bor (some v) s hf).1⟩,
    ⟨_, congrArg Host.Outcome.next (notReset _ _), (startFlush_begins_self .bor none s hf).1⟩, ?_, fun ho hm => ?_, fun hd hm hw => ?_⟩,
    fun f hf hp => ⟨fun v => ?_, ?_⟩⟩
  · obtain ⟨hb, hdie, -⟩ := startFlush_begins .pin none (resetDie .pin s.die) s.core.sys.deferred (s := s) rfl hf
    exact ⟨_, congrArg Host.Outcome.next (notReset _ _), hb, hdie⟩
  · obtain ⟨hb, hdie⟩ := startFlush_begins_self .soft none (atPort s) ((atPort_flush s).trans hf)
    refine ⟨_, ?_, hb, hdie⟩
    exact congrArg Host.Outcome.next ((writeReset_key s ho).trans (if_neg (by rw [hm]; decide)))
  · obtain ⟨hb, -, hdef⟩ := startFlush_begins .soft none s.die false (s := s) rfl hf
    exact ⟨_, deferred_starts s hr hd hm hw, hb, hdef⟩
  · refine ⟨_, congrArg Host.Outcome.next ((notReset _ _).trans (startFlush_again .bor (some v) f s hf hp)), ?_, rfl⟩
    rw [← higherReset_bor]
  · refine ⟨_, congrArg Host.Outcome.next ((notReset _ _).trans (startFlush_again .pin none f _ hf hp)), ?_, rfl⟩
    rw [← higherReset_pin]

/-- Settles O13: an ignored value, a port that takes no writes, a refusal, a flush. -/
theorem softResetWrite : Obligations.SoftResetWrite := by
  intro v s
  refine ⟨writeReset v (atPort s), rfl, writeReset_ignored v (atPort s), fun h => ?_, ?_⟩
  · obtain ⟨b, f, e⟩ := portSettles_only s.core
    apply barOpen_shut
    show (portSettles s.core).sys.inReset = true ∨ (portSettles s.core).sys.mode = .safeTalk ∨ (portSettles s.core).sys.early = true
    obtain h | h | ⟨he, h1⟩ := h
    · rw [e]; exact .inl h
    · rw [e]; exact .inr (.inl h)
    · rw [portSettles_step1 s.core h1]; exact .inr (.inr he)
  · rintro rfl ho
    rw [writeReset_key s ho]
    refine ⟨fun hm => if_pos hm, fun hm hf => ?_⟩
    rw [if_neg (by rw [hm]; decide)]
    exact (startFlush_begins_self .soft none (atPort s) ((atPort_flush s).trans hf)).1

/-! ### The end of the flush (R68) -/

/-- A unit in PARKED, out of reset and with no flush, leaves it by a reset (R70). -/
theorem parkedExit_resets (s : State) (hm : s.core.sys.mode = .parked) (hr : s.core.sys.inReset = false) (hf : s.core.sys.flush = none) :
    parkedExit s = resetTo .parked s := by
  unfold parkedExit
  rw [if_pos (by simp [hm, hr]), if_pos (by rw [hf]; rfl)]

/-- While the flush of the entry runs, a wake event is kept (R70). -/
theorem parkedExit_keeps (s : State) (f : FlushSt) (hm : s.core.sys.mode = .parked) (hr : s.core.sys.inReset = false) (hf : s.core.sys.flush = some f) :
    parkedExit s = { s with core := { s.core with sys := { s.core.sys with wake := true } } } := by
  unfold parkedExit
  rw [if_pos (by simp [hm, hr]), if_neg (by rw [hf]; exact Bool.noConfusion)]

/-- Outside PARKED there is nothing to leave. -/
theorem parkedExit_idle (s : State) (hm : s.core.sys.mode ≠ .parked) : parkedExit s = s := by
  unfold parkedExit
  rw [if_neg (by simp [hm])]

/-- The end of a flush is said over the stores as it has left them (R68). -/
theorem runs_flushComplete (s : State) (f : FlushSt) (hf : s.core.sys.flush = some f) {t : State}
    (ht : (if (!f.toParked) = true then resetTo f.kind (flushStores s)
      else if (flushStores s).core.sys.mode = .parked then
        if (parkedDrop (flushStores s).core).sys.wake = true then parkedExit { flushStores s with core := parkedDrop (flushStores s).core }
        else { flushStores s with core := parkedDrop (flushStores s).core }
      else { flushStores s with core := flushOver (flushStores s).core }) = t) : Runs .flushComplete s t := by
  show execFlushComplete s = _
  unfold execFlushComplete
  rw [hf, ← ht]

/-- A flush changes neither the mode nor anything else of the system's group. -/
theorem flushStores_sys (s : State) : (flushStores s).core.sys = s.core.sys := by
  obtain ⟨t, u, a, h, n, e, -, -⟩ := flushStores_ends s
  rw [e]

theorem flushComplete_resets (s : State) (f : FlushSt) (hf : s.core.sys.flush = some f) (hp : f.toParked = false) :
    Runs .flushComplete s (resetTo f.kind (flushStores s)) :=
  runs_flushComplete s f hf (if_pos (by rw [hp]; rfl))

theorem flushComplete_parks (s : State) (f : FlushSt) (hf : s.core.sys.flush = some f) (hp : f.toParked = true) (hm : s.core.sys.mode = .parked)
    (hw : s.core.sys.wake = false) : Runs .flushComplete s { flushStores s with core := parkedDrop (flushStores s).core } := by
  refine runs_flushComplete s f hf ?_
  rw [if_neg (by rw [hp]; decide), if_pos ((congrArg SysSt.mode (flushStores_sys s)).trans hm), if_neg]
  rw [show (parkedDrop (flushStores s).core).sys.wake = false from (congrArg SysSt.wake (flushStores_sys s)).trans hw]
  decide

theorem flushComplete_wakes (s : State) (f : FlushSt) (hf : s.core.sys.flush = some f) (hp : f.toParked = true) (hm : s.core.sys.mode = .parked)
    (hw : s.core.sys.wake = true) (hr : s.core.sys.inReset = false) :
    Runs .flushComplete s (resetTo .parked { flushStores s with core := parkedDrop (flushStores s).core }) := by
  have hm' : (flushStores s).core.sys.mode = .parked := (congrArg SysSt.mode (flushStores_sys s)).trans hm
  refine runs_flushComplete s f hf ?_
  rw [if_neg (by rw [hp]; decide), if_pos hm']
  refine (if_pos ((congrArg SysSt.wake (flushStores_sys s)).trans hw)).trans ?_
  exact parkedExit_resets _ hm' ((congrArg SysSt.inReset (flushStores_sys s)).trans hr) rfl

theorem flushComplete_over (s : State) (f : FlushSt) (hf : s.core.sys.flush = some f) (hp : f.toParked = true) (hm : s.core.sys.mode ≠ .parked) :
    Runs .flushComplete s { flushStores s with core := flushOver (flushStores s).core } := by
  refine runs_flushComplete s f hf ?_
  rw [if_neg (by rw [hp]; decide), if_neg (fun h => hm ((congrArg SysSt.mode (flushStores_sys s)).symm.trans h))]

/-- Settles O14: the stores first, then the reset, PARKED, the wake that has been kept, or SAFE_TALK. -/
theorem flushEnds : Obligations.FlushEnds := by
  intro s
  refine ⟨fun hf => ?_, fun f hf => ?_⟩
  · show execFlushComplete s = _
    unfold execFlushComplete
    rw [hf]
  · have hslots := (flushStores_held s).store.kept
    have hresets := flushComplete_resets s f hf
    have hparks := flushComplete_parks s f hf
    have hwakes := flushComplete_wakes s f hf
    have hover := flushComplete_over s f hf
    obtain ⟨t, u, a, h, n, e, hu, ht⟩ := flushStores_ends s
    dsimp only
    rw [e] at hslots hresets hparks hwakes hover ⊢
    exact ⟨⟨hslots, ht, rfl, hu, rfl⟩, fun hp => ⟨_, hresets hp, afterReset_self f.kind _⟩,
      fun hp hm hw => ⟨_, hparks hp hm hw, rfl, rfl, rfl, rfl, rfl, rfl, rfl, rfl⟩,
      fun hp hm hw hr => ⟨_, _, hwakes hp hm hw hr, afterReset_self .parked _, rfl, rfl, rfl⟩, hover⟩

/-! ### The internal reset release (R45) -/

/-- What the release makes of the core (R45, R51, R55). -/
theorem releaseCore_only (c : Core) : ∃ u b h q x, releaseCore c = { c with
    sys := { c.sys with inReset := false, mode := .selftest, stStep := 1, early := true, svcRate := img8 (cfgOf c) (secSys + 1) }
    tb := (endDiscipline .selftest c).tb, twin := { (endDiscipline .selftest c).twin with role := .none }
    recd := u, mem.banks := b, host := h, seq := q, cam := x } := by
  unfold releaseCore
  dsimp only
  obtain ⟨u, b, h, q, x, e⟩ := changeMode_only .selftest (if c.sys.resetKind = .parked then 0x91 else 0) (resetCode c.sys.resetKind) 0
    { c with sys := { c.sys with inReset := false } }
  rw [e]
  exact ⟨u, b, h, q, x, rfl⟩

/-- Out of reset the record of a wipe is an event; the certificate goes with the keys (R454, R455). -/
theorem wipeOnyx_only (n : Nat) (s : State) (hr : s.core.sys.inReset = false) :
    ∃ u, wipeOnyx n s = { s with onyx := {}, core := { s.core with recd := u, nv := { s.core.nv with cert := [] } } } := by
  unfold wipeOnyx wipedRecord
  rw [if_neg (by rw [hr]; decide)]
  obtain ⟨u, e⟩ := event_only 0x0C2 0x0F [n] { s.core with nv := { s.core.nv with cert := [] } }
  exact ⟨u, by rw [e]⟩

/-- Settles O15: SELFTEST begins, and a pending wipe completes first. -/
theorem releaseStartsSelftest : Obligations.ReleaseStartsSelftest := by
  intro s
  refine ⟨fun hr => congrArg Host.Outcome.next (if_neg (by rw [hr]; decide)), fun hr => ?_⟩
  obtain ⟨u, b, h, q, x, e⟩ := releaseCore_only s.core
  refine ⟨_, congrArg Host.Outcome.next (if_pos hr), ?_⟩
  obtain ⟨v, ew⟩ := wipeOnyx_only s.onyx.wipeCause { s with core := releaseCore s.core } (by rw [e])
  rw [e] at ew ⊢
  dsimp only
  by_cases hw : s.onyx.wipePending = true
  · rw [if_pos hw, ew]
    exact ⟨rfl, fun _ => ⟨rfl, rfl⟩, fun hn => (by rw [hw] at hn; cases hn), rfl⟩
  · rw [if_neg hw]
    exact ⟨rfl, fun hp => absurd hp hw, fun _ => ⟨rfl, rfl⟩, rfl⟩

/-! ### PARKED (R69, R70) -/

/-- A doorbell poll that is answered in PARKED: the read, then what the word means (R69). -/
theorem runs_parkedDoorbellPoll (w : Option U32) (s : State) (hm : s.core.sys.mode = .parked) (hu : portUp s.core = true) (hf : s.core.sys.flush = none) :
    Runs (.parkedDoorbellPoll w) s (parkedDoorbell w { s with core := emit (.hostRead s.core.bar.db.toNat 4) s.core }) :=
  congrArg Host.Outcome.next (if_pos (by simp [hm, hu, hf]))

/-- Settles O20, event by event. -/
theorem wakeEvents : Obligations.WakeEvents := by
  intro s
  refine ⟨fun b h => ?_, rfl, fun hm hr => ⟨fun f hf hp b => ?_, fun hf => ⟨fun hp b => ?_, fun hd => ?_, fun hu => ⟨?_, fun w => ⟨fun v hv => ⟨fun hne => ?_, fun heq => ?_⟩, fun hv => ?_⟩⟩⟩⟩⟩
  · refine congrArg Host.Outcome.next ?_
    by_cases hp : paired s.core = true
    · exact (if_pos hp).trans (parkedExit_idle s (h.resolve_right (by rw [hp]; decide)))
    · exact if_neg hp
  · exact congrArg Host.Outcome.next ((if_pos hp).trans (parkedExit_keeps s f hm hr hf))
  · exact ⟨_, congrArg Host.Outcome.next ((if_pos hp).trans (parkedExit_resets s hm hr hf)), afterReset_self .parked s⟩
  · refine ⟨_, congrArg Host.Outcome.next ((if_pos (by rw [hd]; rfl)).trans (parkedExit_resets { s with die := { s.die with wake := none } } hm hr hf)),
      afterReset_resetTo .parked _ s.core.out rfl, rfl⟩
  · exact runs_parkedDoorbellPoll none s hm hu hf
  · refine ⟨_, (runs_parkedDoorbellPoll (some w) s hm hu hf).trans (congrArg _ ?_),
      afterReset_resetTo .parked s.die (.hostRead s.core.bar.db.toNat 4 :: s.core.out) rfl⟩
    unfold parkedDoorbell
    dsimp only
    rw [emit_sys, hv]
    exact (if_pos hne).trans (parkedExit_resets _ hm hr hf)
  · refine (runs_parkedDoorbellPoll (some w) s hm hu hf).trans (congrArg _ ?_)
    unfold parkedDoorbell
    dsimp only
    rw [emit_sys, hv]
    exact if_neg (by simp [heq])
  · refine (runs_parkedDoorbellPoll (some w) s hm hu hf).trans (congrArg _ ?_)
    unfold parkedDoorbell
    dsimp only
    rw [emit_sys, hv]

end Sys2Proof.Machine
end

section
/-! SUPPORT. The mode that the self-test ends in, the return from WORKSHOP, and tamper (R38, R40, R42, R44, R70, R360, R363, R462 to R466). -/

namespace Sys2Proof.Machine

/-! ### The mode decision of step 9 (R38, R360, R363) -/

/-- A new role epoch is not 0, and nothing else changes (R363). -/
theorem takeEpoch_only (c : Core) : ∃ e, takeEpoch c = { c with nv := { c.nv with epoch := e } } ∧ e ≠ 0 := by
  have notZero : ∀ m : U16, (if m = 0 then 1 else m) ≠ 0 := fun m => by
    split
    · decide
    · assumption
  exact ⟨_, rfl, notZero _⟩

/-- The entry into LOCKOUT, where no reset has been triggered (R44). -/
theorem enterLockout_mode (cause p1 : Nat) (s : State) (hf : resetting s.core = false) : (enterLockout cause p1 s).core.sys =
    { s.core.sys with mode := .lockout, cause, wsRelease := false, wantLockout := none, erased := false, eraseAge := 0 } := by
  unfold enterLockout
  rw [if_neg (by rw [hf]; decide)]
  exact lockoutCore_mode cause p1 s.core

/-- The mode that step 9 decides on (R38). -/
def decided (s : State) : Mode :=
  if s.core.nv.lc = .blank ∨ s.core.nv.lc = .returned then .provision
  else if s.core.nv.dev.set = true ∨ s.isa.dev.set = true ∨ s.isb.dev.set = true ∨ s.onyx.identity = [] then .lockout
  else if entersShadow s.core = true then .shadow else .service

/-- What holds of the core in the mode decided on: who claims, and with what epoch (R363). -/
structure Claims (c e : Core) : Prop where
  service : e.sys.mode = .service → e.nv.epoch ≠ 0 ∧ claiming e = true
  shadow : e.sys.mode = .shadow → claiming e = false ∧ e.nv.epoch = c.nv.epoch

/-- Another mode than those two says nothing. -/
theorem claims_other {c e : Core} (hv : e.sys.mode ≠ .service) (hs : e.sys.mode ≠ .shadow) : Claims c e :=
  ⟨fun h => absurd h hv, fun h => absurd h hs⟩

/-- A unit that enters SERVICE claims (R355). -/
theorem claiming_service (c : Core) (h : c.twin.role = roleIn .service b) : claiming c = true := by
  unfold claiming
  rw [h]
  cases b <;> rfl

theorem decideMode_enters (s : State) (hf : resetting s.core = false) :
    (decideMode s).core.sys.mode = decided s ∧ Claims s.core (decideMode s).core := by
  unfold decideMode decided latchFound
  dsimp only
  by_cases h1 : s.core.nv.lc = .blank ∨ s.core.nv.lc = .returned
  · rw [if_pos (by simpa using h1), if_pos h1]
    obtain ⟨u, b, h, q, x, e⟩ := changeMode_only .provision 0x90 0 0 s.core
    rw [e]
    exact ⟨rfl, claims_other nofun nofun⟩
  · rw [if_neg (by simpa using h1), if_neg h1]
    have locked : ∀ cause, (enterLockout cause 0 s).core.sys.mode = .lockout ∧ Claims s.core (enterLockout cause 0 s).core := fun cause => by
      have hm : (enterLockout cause 0 s).core.sys.mode = .lockout := by rw [enterLockout_mode cause 0 s hf]
      exact ⟨hm, claims_other (by rw [hm]; decide) (by rw [hm]; decide)⟩
    by_cases h2 : s.core.nv.dev.set = true ∨ s.isa.dev.set = true ∨ s.isb.dev.set = true ∨ s.onyx.identity = []
    · rw [if_pos h2]
      split
      · exact locked 0xA0
      · rename_i hl
        rw [if_pos (by simp only [Bool.or_eq_true, not_or] at hl; simpa using ((h2.resolve_left hl.1.1).resolve_left hl.1.2).resolve_left hl.2)]
        exact locked 0xA1
    · rw [if_neg h2]
      simp only [not_or] at h2
      obtain ⟨hd, ha, hb, hi⟩ := h2
      rw [if_neg (by simp [hd, ha, hb]), if_neg (by simpa using hi)]
      by_cases h3 : entersShadow s.core = true
      · rw [if_pos h3, if_pos h3]
        obtain ⟨u, b, h, q, x, e⟩ := changeMode_only .shadow 0x90 0 0 s.core
        rw [e]
        unfold enterUnsynced
        obtain ⟨u2, h2, q2, x2, e2⟩ := unsyncNow_only 9 _
        rw [e2]
        exact ⟨rfl, nofun, fun _ => ⟨rfl, rfl⟩⟩
      · rw [if_neg h3, if_neg h3]
        obtain ⟨u, b, h, q, x, e⟩ := changeMode_only .service 0x90 0 0 s.core
        rw [e]
        obtain ⟨n, en, hn⟩ := takeEpoch_only _
        rw [en]
        exact ⟨rfl, fun _ => ⟨hn, claiming_service _ rfl⟩, nofun⟩

/-- A failed self-test ends in SAFE_TALK through a mode entry, which takes the host for lost (R39, R104). -/
theorem failSelftest_hostLost (n code us v : Nat) (s : State) (h : testing s.core = true) :
    (failSelftest n code us (countStep v s)).core.sys.hostLost = true := by
  obtain ⟨hm, hr, hf⟩ := testing_enters h
  unfold failSelftest
  dsimp only
  generalize hu : ({ countStep v s with core := _ } : State) = u
  have hmode : u.core.sys.mode = .selftest := by rw [← hu]; exact hm
  obtain ⟨-, -, -, -, hlost, -, -⟩ := safeTalk_of code (countStep v s) u (by rw [hmode]; decide) (by rw [← hu]; exact hr) (by rw [← hu]; exact hf)
    (by rw [← hu]; exact ⟨rfl, rfl, rfl, rfl, rfl, rfl, rfl⟩)
  exact hlost hmode

/-- Step 9 of a scrapped unit fails; of any other it passes, and the mode decided on is entered (R46). -/
theorem selftestStep9 (s : State) (us : Nat) (h : testing s.core = true) (h9 : s.core.sys.stStep = 9) : Runs (.selftestStep 0 [] us) s
    (if s.core.nv.lc = .scrapped then failSelftest 9 0x7E us (countStep us s) else passStep 9 us (countStep us s)) := by
  refine congrArg Host.Outcome.next ((if_pos h).trans ?_)
  have hbody : ∀ l, stepBody 9 l (countStep us s) = (if s.core.nv.lc = .scrapped then 0x7E else 0, countStep us s) := fun _ => rfl
  unfold selftestStep
  dsimp only
  rw [h9, if_neg (by decide), hbody]
  split <;> rfl

/-- The end of the self-test: the mode decided on, its claim, and the host taken for lost (R38, R39, R104). -/
theorem passStep9 (s : State) (us : Nat) (h : testing s.core = true) :
    (passStep 9 us (countStep us s)).core.sys.mode = decided s ∧ Claims s.core (passStep 9 us (countStep us s)).core ∧
      (passStep 9 us (countStep us s)).core.sys.hostLost = true := by
  obtain ⟨-, -, hf⟩ := testing_enters h
  unfold passStep
  dsimp only
  rw [if_neg (by decide)]
  dsimp only
  obtain ⟨hm, hc⟩ := decideMode_enters { countStep us s with core := selftestOver { noteStep 9 1 0 us (countStep us s).core with sys := { (noteStep 9 1 0 us (countStep us s).core).sys with stLast := 9, stStep := 9 + 1 } } } hf
  generalize decideMode _ = d at hm hc ⊢
  obtain ⟨g, o, u, e⟩ := modeEntry_only d.core
  rw [e]
  exact ⟨hm, ⟨hc.service, hc.shadow⟩, rfl⟩

/-- Settles O17: a scrapped unit fails step 9, any other enters the mode decided on. -/
theorem modeDecision : Obligations.ModeDecision := by
  intro s us h h9
  refine ⟨_, selftestStep9 s us h h9, ?_⟩
  by_cases hl : s.core.nv.lc = .scrapped
  · obtain ⟨ht, -, -⟩ := failSelftest_spec 9 0x7E us us s h
    have hm := ht.mode.1
    rw [if_pos hl, if_pos hl]
    exact ⟨failSelftest_hostLost 9 0x7E us us s h, hm, fun _ => ht, fun hs => (by rw [hm] at hs; cases hs), fun hs => (by rw [hm] at hs; cases hs)⟩
  · obtain ⟨hm, hc, hlost⟩ := passStep9 s us h
    rw [if_neg hl, if_neg hl]
    exact ⟨hlost, hm, fun hs => absurd hs hl, hc.service, hc.shadow⟩

/-! ### The return from WORKSHOP (R40, R42) -/

/-- A manual move of portal `p` runs. -/
def ManualRuns (c : Core) (p : Nat) : Prop := (msAt c p).kind = .manual ∧ (msAt c p).run = true

/-- The conditions of the return (R42). -/
theorem keyReturn_cond (c : Core) : ((c.sys.wsRelease && c.sys.mode == .workshop && !resetting c && (List.range 12).all fun p =>
      !((tget {} c.seq.masters p).kind == .manual && (tget {} c.seq.masters p).run)) = true) ↔
    c.sys.wsRelease = true ∧ c.sys.mode = .workshop ∧ resetting c = false ∧ ∀ p, p < 12 → ¬ ManualRuns c p := by
  simp only [Bool.and_eq_true, beq_iff_eq, Bool.not_eq_true', List.all_eq_true, List.mem_range, and_assoc, ManualRuns, msAt, Bool.and_eq_false_iff,
    Classical.not_and_iff_not_or_not, Bool.not_eq_true, beq_eq_false_iff_ne, ne_eq]

/-- Settles O28: the conditions, then SERVICE. -/
theorem workshopEnds : Obligations.WorkshopEnds := by
  intro s
  have stays : ¬(s.core.sys.wsRelease = true ∧ s.core.sys.mode = .workshop ∧ resetting s.core = false ∧ ∀ p, p < 12 → ¬ ManualRuns s.core p) →
      Runs .workshopKeyReturn s s := fun hn => by
    refine congrArg Host.Outcome.next ?_
    unfold keyReturn
    rw [if_neg (fun h => hn ((keyReturn_cond s.core).mp h))]
  refine ⟨fun h => stays ?_, fun hw hm hf hp => ?_, fun ⟨p, hp, hk⟩ => stays fun h => h.2.2.2 p hp hk⟩
  · rintro ⟨hw, hm, hf, -⟩
    obtain h | h | h := h
    · rw [h] at hw; cases hw
    · exact h hm
    · rw [h] at hf; cases hf
  · have hrun : Runs .workshopKeyReturn s { s with core := changeMode .service 0x96 0 0 { s.core with sys := { s.core.sys with wsRelease := false } } } := by
      refine congrArg Host.Outcome.next ?_
      unfold keyReturn
      rw [if_pos ((keyReturn_cond s.core).mpr ⟨hw, hm, hf, hp⟩)]
    obtain ⟨u, b, h, q, x, e⟩ := changeMode_only .service 0x96 0 0 { s.core with sys := { s.core.sys with wsRelease := false } }
    refine ⟨_, hrun, ?_⟩
    rw [e]
    exact ⟨rfl, claiming_service _ rfl, rfl⟩

/-! ### Tamper (R462 to R466) -/

/-- An ALARM sets its flag and writes at most a record (R464). -/
theorem tamperAlarm_only (src : TamperSource) (c : Core) : ∃ u, tamperAlarm src c = { c with sys := { c.sys with tamperAlarm := true }, recd := u } := by
  unfold tamperAlarm
  dsimp only
  split
  · exact ⟨c.recd, rfl⟩
  · obtain ⟨u, e⟩ := event_only 0x0C0 0x0F [tamperCode src] { c with sys := { c.sys with tamperAlarm := true } }
    exact ⟨u, e⟩

/-- An ERASE outside PARKED: the wipe is under way, and the core takes its part (R465). -/
theorem runs_tamper_erase (src : TamperSource) (s : State) (he : tamperErase s.core src = true) (hm : s.core.sys.mode ≠ .parked) : Runs (.tamperDetect src) s
    { s with onyx := { s.onyx with wipePending := true, wipeCause := 1 }, core := eraseCore src s.core } := by
  obtain ⟨h, u, d, q, b, n, e, -⟩ := eraseCore_only src s.core
  refine congrArg Host.Outcome.next ((if_pos he).trans ?_)
  rw [e]
  exact if_neg (by simp [hm])

/-- An ERASE in PARKED: the wipe ends at once, and the unit wakes (R70, R465). -/
theorem runs_tamper_parked (src : TamperSource) (s : State) (he : tamperErase s.core src = true) (hm : s.core.sys.mode = .parked)
    (hr : s.core.sys.inReset = false) (hf : s.core.sys.flush = none) :
    ∃ u d, Runs (.tamperDetect src) s (resetTo .parked u) ∧ u = { s with onyx := {}, core := u.core } ∧
      u.core.nv = { s.core.nv with cert := [], dev := d } ∧ u.core.bar = s.core.bar ∧ (inUse s.core.nv.lc = true → d.set = true) := by
  obtain ⟨h, u, d, q, b, n, e, hd⟩ := eraseCore_only src s.core
  have hr' : (eraseCore src s.core).sys.inReset = false := by rw [e]; exact hr
  have hm' : (eraseCore src s.core).sys.mode = .parked := by rw [e]; exact hm
  obtain ⟨v, ew⟩ := wipeOnyx_only 1 { s with onyx := { s.onyx with wipePending := true, wipeCause := 1 }, core := eraseCore src s.core } hr'
  have hrun : Runs (.tamperDetect src) s
      (parkedExit (wipeOnyx 1 { s with onyx := { s.onyx with wipePending := true, wipeCause := 1 }, core := eraseCore src s.core })) :=
    congrArg Host.Outcome.next ((if_pos he).trans (if_pos (by simp [hm', hr'])))
  rw [ew, e] at hrun
  exact ⟨_, d, hrun.trans (congrArg _ (parkedExit_resets _ hm hr hf)), rfl, rfl, rfl, hd⟩

/-- LOCKOUT follows an erase once it is ripe, out of reset and while no reset has been triggered (R44, R466). -/
theorem lockoutTaken_iff (late : Bool) (c : Core) : (eraseRipe late c && !c.sys.inReset && !resetting c) = true ↔
    c.sys.erased = true ∧ stepsIn c.sys.mode = true ∧ (if late = true then 80000 ≤ c.sys.eraseAge else anyMoving c = false) ∧
      c.sys.inReset = false ∧ resetting c = false := by
  unfold eraseRipe
  cases late <;> simp [and_assoc]

theorem runs_tamperLockout (late : Bool) (s : State) : Runs (.tamperLockout late) s
    (if (eraseRipe late s.core && !s.core.sys.inReset && !resetting s.core) = true then
      enterLockout 0xA2 0x0405 { s with core := { s.core with sys := { s.core.sys with erased := false } } } else s) := rfl

/-- Settles O48: ALARM, ERASE outside and in PARKED, the end of the wipe, the lock-out. -/
theorem tamperAndWipe : Obligations.TamperAndWipe := by
  intro s
  refine ⟨fun c => by unfold tamperErase; rfl, fun src ha => ?_, fun src he hm => ?_, fun hw hr => ?_, fun src he hm hr hf => ?_, fun hw => ?_, fun late => ?_⟩
  · obtain ⟨u, e⟩ := tamperAlarm_only src s.core
    refine ⟨_, congrArg Host.Outcome.next (if_neg (by rw [ha]; decide)), ?_⟩
    rw [e]
    exact ⟨rfl, rfl⟩
  · have hflags := eraseCore_flags src s.core
    have hrest := eraseCore_rest src s.core
    obtain ⟨h, u, d, q, b, n, e, hd⟩ := eraseCore_only src s.core
    refine ⟨_, runs_tamper_erase src s he hm, ?_⟩
    rw [e] at hflags hrest ⊢
    exact ⟨rfl, hd, hflags, hrest, rfl⟩
  · obtain ⟨u, e⟩ := wipeOnyx_only s.onyx.wipeCause s hr
    refine ⟨_, congrArg Host.Outcome.next (if_pos hw), ?_⟩
    rw [e]
    exact ⟨rfl, rfl⟩
  · obtain ⟨u, d, hrun, hu, hnv, hbar, hd⟩ := runs_tamper_parked src s he hm hr hf
    refine ⟨_, u, hrun, afterReset_self .parked u, hu, ?_, fun hl => ?_, hbar⟩
    · rw [hnv]
    · rw [hnv]; exact hd hl
  · exact congrArg Host.Outcome.next (if_neg (by rw [hw]; decide))
  · have hrun := runs_tamperLockout late s
    refine ⟨fun he hm hr hf hripe => ?_, fun h => ?_⟩
    · rw [if_pos ((lockoutTaken_iff late s.core).mpr ⟨he, hm, hripe, hr, hf⟩)] at hrun
      refine ⟨_, hrun, ?_⟩
      rw [enterLockout_mode 0xA2 0x0405 _ (by exact hf)]
      exact ⟨rfl, rfl, rfl⟩
    · rw [if_neg] at hrun
      · exact hrun
      · intro hc
        obtain ⟨he, hm, hripe, hr, hf⟩ := (lockoutTaken_iff late s.core).mp hc
        obtain h | h | h | h | h := h
        · rw [h] at he; cases he
        · rw [h] at hm; cases hm
        · rw [h] at hr; cases hr
        · rw [h] at hf; cases hf
        · exact h hripe

end Sys2Proof.Machine
end

section
/-! SUPPORT. Bank words: what BAR2, the write-back and Opal make of them (R74, R439, R443, R444, R448). -/

namespace Sys2Proof.Machine

/-! ### Masks and banks -/

/-- All four byte enables cover the word (R443). -/
theorem beMask_all : beMask 0xF = BitVec.allOnes 32 := by decide

/-- Without a byte enable nothing is covered. -/
theorem beMask_none : beMask 0 = 0 := by decide

/-- A core with another bank `n` differs in its banks only. -/
theorem setBank_state (n : Nat) (b : BankSt) (s : State) : ({ s with core := setBank n b s.core } : State) =
    { s with core := { s.core with mem := { s.core.mem with banks := (setBank n b s.core).mem.banks } } } := rfl

/-- What a write of word `w` of bank `n` leaves of the other words and banks. -/
theorem bankWrite_rest (n w : Nat) (v : U32) (c : Core) :
    (∀ x, x ≠ w → tget 0 (bankWrite w v (bankAt c n)).words x = tget 0 (bankAt c n).words x ∧
      tget 0 (bankWrite w v (bankAt c n)).checks x = tget 0 (bankAt c n).checks x) ∧
    ∀ (b : BankSt) k, k ≠ n → bankAt (setBank n b c) k = bankAt c k :=
  ⟨fun x hx => ⟨by rw [bankWrite_words, if_neg hx.symm], by rw [bankWrite_checks, if_neg hx.symm]⟩,
    fun b k hk => by rw [bankAt_set, if_neg hk.symm]⟩

/-! ### BAR2 (R443) -/

/-- What a write through view `view` makes of a word: written, set, cleared, or left to the check bits (R443). -/
def viewed (view : Nat) (old v m : U32) : U32 :=
  match view with
  | 0 => (old &&& ~~~ m) ||| (v &&& m)
  | 1 => old ||| (v &&& m)
  | 2 => old &&& ~~~ (v &&& m)
  | _ => old

/-- The views of an 18-bit offset. -/
theorem view_cases (off : BitVec 18) : off.toNat / 65536 = 0 ∨ off.toNat / 65536 = 1 ∨ off.toNat / 65536 = 2 ∨ off.toNat / 65536 = 3 := by
  have := off.isLt
  omega

/-- A view of data is the read-modify-write of the model. -/
theorem viewWrite_viewed (view : Nat) (old v m : U32) (h : view = 0 ∨ view = 1 ∨ view = 2) : viewWrite view old v m = viewed view old v m := by
  obtain rfl | rfl | rfl := h <;> rfl

theorem viewed_all (old v : U32) : viewed 0 old v (BitVec.allOnes 32) = v := by
  simp only [viewed, BitVec.not_allOnes, BitVec.and_zero, BitVec.and_allOnes, BitVec.zero_or]

theorem viewed_none (old v : U32) : viewed 0 old v 0 = old := by
  show (old &&& ~~~ 0#32) ||| (v &&& 0#32) = old
  rw [BitVec.and_zero, BitVec.or_zero, BitVec.not_zero, BitVec.and_allOnes]

/-- A write of a clean word through a view of data: the word as the view says, with fresh check bits, or nothing where no byte of it is
enabled (R443). -/
theorem bar2Write_data (s : State) (off : BitVec 18) (v : U32) (be : BitVec 4) (ho : bar2Open s.core = true) (hv : off.toNat / 65536 ≠ 3)
    (hc : tget 0 (bankAt s.core (bar2Word s.core off).1).checks (bar2Word s.core off).2 = 0) :
    bar2Write off v be s = (if be = 0 ∧ off.toNat / 65536 = 0 then s else { s with core := (setBank (bar2Word s.core off).1
      (bankWrite (bar2Word s.core off).2 (viewed (off.toNat / 65536) (tget 0 (bankAt s.core (bar2Word s.core off).1).words (bar2Word s.core off).2) v (beMask be))
        (bankAt s.core (bar2Word s.core off).1)) s.core) }) := by
  have h012 := (view_cases off).imp_right (·.imp_right (·.resolve_right hv))
  unfold bar2Write
  rw [if_neg (by rw [ho]; decide)]
  dsimp only
  rw [if_neg hv, bankRead_clean _ _ hc]
  dsimp only [noteRead]
  rw [viewWrite_viewed _ _ _ _ h012]
  by_cases h0 : off.toNat / 65536 = 0
  · rw [h0]
    by_cases hF : be = 0xF
    · subst hF
      rw [beMask_all, viewed_all]
      rfl
    · by_cases hz : be = 0
      · subst hz; rfl
      · rw [if_neg (fun h => hF (by simpa using h)), if_neg (fun h => hz (by simpa using h)), if_neg (fun h => hz h.1)]
  · simp [h0]

/-- A write through view 3 injects check bits, and leaves the words (R443). -/
theorem bar2Write_checks (s : State) (off : BitVec 18) (v : U32) (be : BitVec 4) (ho : bar2Open s.core = true) (hv : off.toNat / 65536 = 3) :
    ∃ m, bar2Write off v be s = { s with core := setBank (bar2Word s.core off).1 { bankAt s.core (bar2Word s.core off).1 with
        checks := tset 0 (bankAt s.core (bar2Word s.core off).1).checks (bar2Word s.core off).2
          ((Config.eccEncode (tget 0 (bankAt s.core (bar2Word s.core off).1).words (bar2Word s.core off).2)).toNat ^^^ m) } s.core } ∧
      (be.getLsbD 0 = true → m = v.toNat % 128) := by
  unfold bar2Write
  rw [if_neg (by rw [ho]; decide)]
  dsimp only
  rw [if_pos hv]
  exact ⟨_, rfl, fun h => if_pos h⟩

/-- A read through BAR2 of a clean word changes nothing but what it answers (R443). -/
theorem bar2Read_clean (s : State) (off : BitVec 18) (ho : bar2Open s.core = true)
    (hc : tget 0 (bankAt s.core (bar2Word s.core off).1).checks (bar2Word s.core off).2 = 0) :
    bar2Read off s = { s with core := emit (.bar (if off.toNat / 65536 = 3
      then BitVec.ofNat 32 (Config.eccEncode (tget 0 (bankAt s.core (bar2Word s.core off).1).words (bar2Word s.core off).2)).toNat
      else tget 0 (bankAt s.core (bar2Word s.core off).1).words (bar2Word s.core off).2)) s.core } := by
  unfold bar2Read
  rw [if_neg (by rw [ho]; decide)]
  dsimp only
  split
  · rw [hc, Nat.xor_zero]
  · rw [bankRead_clean _ _ hc]
    rfl

/-! ### The write-back (R439) -/

/-- Nothing waits for the port, or the bank serves no accesses. -/
theorem writeBack_idle (n : Nat) (portB : Bool) (c : Core) (h : (∀ e ∈ (bankAt c n).wb, e.2 ≠ portB) ∨ (bankAt c n).power ≠ .on) :
    writeBack n portB c = c := by
  unfold writeBack
  dsimp only
  split
  · rename_i e he
    obtain h | h := h
    · exact absurd (by simpa using List.find?_some he) (h e (List.mem_of_find?_eq_some he))
    · rw [if_pos h]
  · rfl

/-- The oldest word of the port is the first in the list that waits for it. -/
theorem writeBack_oldest (n : Nat) (portB : Bool) (c : Core) (x : Nat) (older rest : List (Nat × Bool))
    (hw : (bankAt c n).wb = older ++ (x, portB) :: rest) (ho : ∀ e ∈ older, e.2 ≠ portB) (hp : (bankAt c n).power = .on) :
    writeBack n portB c = if (bankRead (bankAt c n) x).2 = .bad then setBank n { bankAt c n with wb := older ++ rest } c
      else setBank n (bankWrite x (bankRead (bankAt c n) x).1 { bankAt c n with wb := older ++ rest }) c := by
  have hfind : (bankAt c n).wb.find? (fun e => e.2 == portB) = some (x, portB) := by
    rw [hw, List.find?_append, List.find?_eq_none.mpr (fun e he => by simpa using ho e he)]
    simp
  have herase : (bankAt c n).wb.erase (x, portB) = older ++ rest := by
    rw [hw, List.erase_append_right _ (fun hm => ho _ hm rfl)]
    simp
  unfold writeBack
  dsimp only
  rw [hfind]
  dsimp only
  rw [if_neg (by simp [hp]), herase]

/-! ### Opal (R448) -/

/-- A region test of a row brought forward, in a bank whose words are all clean (R448, R450). -/
theorem opalTest_clean (s : State) (m r : Nat) (rest : List (Nat × Nat)) (hm : opalRuns s.core.sys.mode = true) (hr : s.core.sys.inReset = false)
    (hq : s.core.mem.forward = (m, r) :: rest) (hp : (bankAt s.core m).power = .on) (hc : (bankAt s.core m).checks = []) :
    opalTest false s = { s with core := (setBank m { bankAt s.core m with tested := (bankAt s.core m).tested + 1 }
      { s.core with mem := { s.core.mem with forward := rest } }) } := by
  have hrow : ∀ u : State, (bankAt u.core m).checks = [] → opalRow m r u = u := fun u hu => by
    unfold opalRow
    rw [hu]
    rfl
  unfold opalTest opalTake
  rw [if_neg (by simp [hm, hr]), hq]
  dsimp only
  rw [if_neg (by rw [show bankAt { s.core with mem := { s.core.mem with forward := rest } } m = bankAt s.core m from rfl, hp]; decide), if_neg (by decide)]
  split
  · refine hrow _ ?_
    show (bankAt (setBank m _ _) m).checks = []
    rw [bankAt_set, if_pos rfl]
    exact hc
  · rfl

/-- Settles O47: BAR2 shut and open, the write-back, the region test. -/
theorem bankWords : Obligations.BankWords := by
  intro s off
  dsimp only
  refine ⟨fun ho => ⟨congrArg Host.Outcome.next (if_pos (by rw [ho]; rfl)), fun v be => congrArg Host.Outcome.next (if_pos (by rw [ho]; rfl))⟩,
    fun ho hc => ⟨fun hv => ?_, fun hv => ?_, fun v be => ?_⟩, fun k portB h => ?_, fun k portB x older rest hw hold hp => ?_, fun h bad => ?_,
    fun m r rest hm hr hq _ hp hc => ?_⟩
  · have hread := bar2Read_clean s off ho hc
    rw [if_neg hv] at hread
    exact congrArg Host.Outcome.next hread
  · have hread := bar2Read_clean s off ho hc
    rw [if_pos hv] at hread
    exact congrArg Host.Outcome.next hread
  · refine ⟨bar2Write off v be s, rfl, ?_⟩
    by_cases hv : off.toNat / 65536 = 3
    · obtain ⟨m, e, hm⟩ := bar2Write_checks s off v be ho hv
      rw [e]
      dsimp only
      rw [bankAt_set, if_pos rfl, hv]
      refine ⟨rfl, fun h => absurd rfl h, fun _ hb => ?_, fun x hx => ⟨rfl, tget_tset_other 0 _ _ _ _ hx.symm⟩,
        fun k hk => by rw [bankAt_set, if_neg hk.symm], rfl⟩
      dsimp only
      rw [tget_tset_same, ← Nat.xor_assoc, Nat.xor_self, Nat.zero_xor, hm hb]
    · rw [bar2Write_data s off v be ho hv hc]
      obtain ⟨hwords, hbanks⟩ := bankWrite_rest (bar2Word s.core off).1 (bar2Word s.core off).2
        (viewed (off.toNat / 65536) (tget 0 (bankAt s.core (bar2Word s.core off).1).words (bar2Word s.core off).2) v (beMask be)) s.core
      by_cases h0 : be = 0 ∧ off.toNat / 65536 = 0
      · rw [if_pos h0, h0.1, h0.2, beMask_none]
        exact ⟨(viewed_none _ v).symm, fun _ => hc, nofun, fun _ _ => ⟨rfl, rfl⟩, fun _ _ => rfl, rfl⟩
      · rw [if_neg h0]
        dsimp only
        rw [bankAt_set, if_pos rfl, bankWrite_words, if_pos rfl, bankWrite_checks, if_pos rfl]
        exact ⟨rfl, fun _ => rfl, fun h => absurd h hv, hwords, hbanks _, rfl⟩
  · exact congrArg (fun c => Host.Outcome.next { s with core := c }) (writeBack_idle k portB s.core h)
  · refine ⟨{ s with core := writeBack k portB s.core }, rfl, ?_⟩
    rw [writeBack_oldest k portB s.core x older rest hw hold hp]
    by_cases hb : (bankRead (bankAt s.core k) x).2 = .bad
    · rw [if_pos hb]
      dsimp only
      rw [bankAt_set, if_pos rfl]
      exact ⟨rfl, fun h => absurd hb h, fun _ => rfl, fun j hj => by rw [bankAt_set, if_neg hj.symm], rfl⟩
    · rw [if_neg hb]
      dsimp only
      rw [bankAt_set, if_pos rfl, bankWrite_words, if_pos rfl, bankWrite_checks, if_pos rfl]
      exact ⟨rfl, fun _ => ⟨rfl, rfl⟩, fun h => absurd h hb, fun j hj => by rw [bankAt_set, if_neg hj.symm], rfl⟩
  · refine congrArg Host.Outcome.next (if_pos ?_)
    obtain h | h := h <;> simp [h]
  · refine ⟨_, congrArg Host.Outcome.next (opalTest_clean s m r rest hm hr hq hp hc), ?_⟩
    rw [bankAt_set, if_pos rfl]
    exact ⟨rfl, fun j hj => by rw [bankAt_set, if_neg hj.symm]; rfl, rfl⟩

end Sys2Proof.Machine
end

section
/-! SUPPORT. The set-up registers and the accesses to BAR0 (R51, R469 to R478). -/

namespace Sys2Proof.Machine

/-! ### Address registers (R470, R475, R476) -/

/-- Every flow that was in use is disabled and may be told from what it was (R80). -/
theorem disableAll_flows (c : Core) (n : Nat) (hn : n < 256) : (flowAt (disableAll c) n).state = .disabled ∧
    ((flowAt c n).state ≠ .disabled → (flowAt (disableAll c) n).gen = (flowAt c n).gen + 1) := by
  obtain ⟨-, h⟩ := disableAll_spec c
  exact ⟨(h n hn).1, fun hs => by rw [(h n hn).2 hs]; rfl⟩

/-- What the value `v` that an address register has taken does (R476). -/
structure Committed (off : Nat) (v : U64) (c e : Core) : Prop where
  reg : addrReg e.bar off = v
  others : ∀ o, o ≠ off → addrReg e.bar o = addrReg c.bar o
  flows : off < 0x110 → ∀ n, n < 256 → (flowAt e n).state = .disabled ∧
    ((flowAt c n).state ≠ .disabled → (flowAt e n).gen = (flowAt c n).gen + 1)
  rest : e = { c with
    bar := { c.bar with flowTable := e.bar.flowTable, db := e.bar.db, mirror := e.bar.mirror, hb := e.bar.hb, lib := e.bar.lib }
    host := { c.host with
      flows := if off < 0x110 then e.host.flows else c.host.flows
      fetchQ := if off < 0x110 then e.host.fetchQ else c.host.fetchQ
      hbRef := if off = 0x118 then none else c.host.hbRef } }

/-- Two sets of registers that differ at most in the one at `off`. -/
theorem addrReg_others {b d : BarSt} (off : Nat) (ht : off = 0x100 ∨ d.flowTable = b.flowTable) (hd : off = 0x108 ∨ d.db = b.db)
    (hm : off = 0x110 ∨ d.mirror = b.mirror) (hh : off = 0x118 ∨ d.hb = b.hb) (hl : off = 0x130 ∨ d.lib = b.lib) (o : Nat) (ho : o ≠ off) :
    addrReg d o = addrReg b o := by
  unfold addrReg
  split
  · exact ht.resolve_left ho.symm
  · exact hd.resolve_left ho.symm
  · exact hm.resolve_left ho.symm
  · exact hh.resolve_left ho.symm
  · exact hl.resolve_left ho.symm
  · rfl

theorem commitAddr_committed (off : Nat) (v : U64) (c : Core) (h : off ∈ [0x100, 0x108, 0x110, 0x118, 0x130]) : Committed off v c (commitAddr off v c) := by
  simp only [List.mem_cons, List.not_mem_nil, or_false] at h
  obtain rfl | rfl | rfl | rfl | rfl := h
  · have hflows := disableAll_flows { c with bar := { c.bar with flowTable := v } }
    obtain ⟨⟨f, q, e⟩, -⟩ := disableAll_spec { c with bar := { c.bar with flowTable := v } }
    show Committed _ v c (disableAll { c with bar := { c.bar with flowTable := v } })
    rw [e] at hflows ⊢
    exact ⟨rfl, addrReg_others _ (.inl rfl) (.inr rfl) (.inr rfl) (.inr rfl) (.inr rfl), fun _ => hflows, rfl⟩
  · have hflows := disableAll_flows { c with bar := { c.bar with db := v } }
    obtain ⟨⟨f, q, e⟩, -⟩ := disableAll_spec { c with bar := { c.bar with db := v } }
    show Committed _ v c (disableAll { c with bar := { c.bar with db := v } })
    rw [e] at hflows ⊢
    exact ⟨rfl, addrReg_others _ (.inr rfl) (.inl rfl) (.inr rfl) (.inr rfl) (.inr rfl), fun _ => hflows, rfl⟩
  · exact ⟨rfl, addrReg_others _ (.inr rfl) (.inr rfl) (.inl rfl) (.inr rfl) (.inr rfl), fun h => absurd h (by decide), rfl⟩
  · exact ⟨rfl, addrReg_others _ (.inr rfl) (.inr rfl) (.inr rfl) (.inl rfl) (.inr rfl), fun h => absurd h (by decide), rfl⟩
  · exact ⟨rfl, addrReg_others _ (.inr rfl) (.inr rfl) (.inr rfl) (.inr rfl) (.inl rfl), fun h => absurd h (by decide), rfl⟩

/-- The lock and a port that takes no writes refuse an address (R473). -/
theorem writeAddr_refused (off : Nat) (hi : Bool) (v : U32) (c : Core) (h : c.bar.lock = true ∨ barOpen c = false) : writeAddr off hi v c = c := by
  unfold writeAddr
  rw [if_pos]
  obtain h | h := h <;> simp [h]

/-- A write that is taken: the _LO half is held, and _HI commits both (R470). -/
theorem writeAddr_taken (off : Nat) (v : U32) (c : Core) (hl : c.bar.lock = false) (ho : barOpen c = true) :
    writeAddr off false v c = { c with bar := { c.bar with held := tset 0 c.bar.held off v } } ∧
    writeAddr off true v c = commitAddr off (BitVec.ofNat 64
      ((v.toNat * 2 ^ 32 + (tget 0 c.bar.held off).toNat) / 2 ^ addrAlign off * 2 ^ addrAlign off)) c := by
  unfold writeAddr
  have hc : ¬ (c.bar.lock || !barOpen c) = true := by simp [hl, ho]
  exact ⟨(if_neg hc).trans (if_neg (by decide)), (if_neg hc).trans (if_pos rfl)⟩

/-- Both halves, aligned, fit a register. -/
theorem aligned_toNat (v w : U32) (k : Nat) :
    (BitVec.ofNat 64 ((v.toNat * 2 ^ 32 + w.toNat) / 2 ^ k * 2 ^ k)).toNat = (v.toNat * 2 ^ 32 + w.toNat) / 2 ^ k * 2 ^ k := by
  rw [BitVec.toNat_ofNat]
  apply Nat.mod_eq_of_lt
  have h1 := Nat.div_mul_le_self (v.toNat * 2 ^ 32 + w.toNat) (2 ^ k)
  have hv := v.isLt
  have hw := w.isLt
  omega

/-- An address register and its two commands, over the state that the access finds. -/
theorem addr_register (i : Bool → U32 → Instr) (off align : Nat) (v : U32) (s₀ : State)
    (hrun : ∀ hi, Runs (i hi v) s₀ { atPort s₀ with core := writeAddr off hi v (atPort s₀).core })
    (hoff : off ∈ [0x100, 0x108, 0x110, 0x118, 0x130]) (halign : addrAlign off = align) :
    let s := atPort s₀
    ((s.core.bar.lock = true ∨ barOpen s.core = false) → ∀ hi, Runs (i hi v) s₀ s) ∧
    (s.core.bar.lock = false → barOpen s.core = true →
      (∃ t, Runs (i false v) s₀ t ∧ tget 0 t.core.bar.held off = v ∧
        (∀ o, o ≠ off → tget 0 t.core.bar.held o = tget 0 s.core.bar.held o) ∧
        t = { s with core := { s.core with bar := { s.core.bar with held := t.core.bar.held } } }) ∧
      ∃ t, Runs (i true v) s₀ t ∧ (addrReg t.core.bar off).toNat = (v.toNat * 2 ^ 32 + (tget 0 s.core.bar.held off).toNat) / 2 ^ align * 2 ^ align ∧
        (∀ o, o ≠ off → addrReg t.core.bar o = addrReg s.core.bar o) ∧
        (off < 0x110 → ∀ n, n < 256 → (flowAt t.core n).state = .disabled ∧
          ((flowAt s.core n).state ≠ .disabled → (flowAt t.core n).gen = (flowAt s.core n).gen + 1)) ∧
        t = { s with core := { s.core with
          bar := { s.core.bar with
            flowTable := t.core.bar.flowTable, db := t.core.bar.db, mirror := t.core.bar.mirror, hb := t.core.bar.hb
            lib := t.core.bar.lib }
          host := { s.core.host with
            flows := if off < 0x110 then t.core.host.flows else s.core.host.flows
            fetchQ := if off < 0x110 then t.core.host.fetchQ else s.core.host.fetchQ
            hbRef := if off = 0x118 then none else s.core.host.hbRef } } }) := by
  intro s
  refine ⟨fun h hi => (hrun hi).trans ?_, fun hl ho => ?_⟩
  · rw [writeAddr_refused off hi v _ h]
  · obtain ⟨hlo, hhi⟩ := writeAddr_taken off v s.core hl ho
    subst halign
    refine ⟨⟨_, hrun false, ?_⟩, ⟨_, hrun true, ?_⟩⟩
    · rw [show writeAddr off false v (atPort s₀).core = _ from hlo]
      exact ⟨tget_tset_same 0 s.core.bar.held off v, fun o h => tget_tset_other 0 s.core.bar.held off o v h.symm, rfl⟩
    · obtain ⟨hreg, hothers, hflows, hrest⟩ := commitAddr_committed off _ s.core hoff
      rw [show writeAddr off true v (atPort s₀).core = _ from hhi]
      refine ⟨?_, hothers, hflows, congrArg (fun c => ({ s with core := c } : State)) hrest⟩
      rw [hreg]
      exact aligned_toNat v _ _

/-! ### The other registers (R473, R477) -/

theorem writePoll_eq (v : U32) (c : Core) : writePoll v c = { c with bar := { c.bar with
    poll := if barOpen c = true ∧ 1 ≤ v.toNat % 1024 ∧ v.toNat % 1024 ≤ 1000 then v.toNat % 1024 else c.bar.poll } } := by
  unfold writePoll
  dsimp only
  by_cases h : barOpen c = true ∧ 1 ≤ v.toNat % 1024 ∧ v.toNat % 1024 ≤ 1000
  · rw [if_pos (by simpa [and_assoc] using h), if_pos h]
  · rw [if_neg (by simpa [and_assoc] using h), if_neg h]

theorem writeTimeout_eq (v : U32) (c : Core) : writeTimeout v c = { c with bar := { c.bar with
    timeout := if barOpen c = true ∧ c.bar.lock = false ∧ 10 ≤ v.toNat % 16384 ∧ v.toNat % 16384 ≤ 10000 then v.toNat % 16384 else c.bar.timeout } } := by
  unfold writeTimeout
  dsimp only
  by_cases h : barOpen c = true ∧ c.bar.lock = false ∧ 10 ≤ v.toNat % 16384 ∧ v.toNat % 16384 ≤ 10000
  · rw [if_pos (by simpa [and_assoc] using h), if_pos h]
  · rw [if_neg (by simpa [and_assoc] using h), if_neg h]

theorem writeLock_eq (v : U32) (c : Core) : writeLock v c = { c with bar := { c.bar with lock := c.bar.lock || (barOpen c && v.getLsbD 0) } } := by
  unfold writeLock
  by_cases h : (barOpen c && v.getLsbD 0) = true
  · rw [if_pos h, h, Bool.or_true]
  · rw [if_neg h, Bool.eq_false_iff.mpr h, Bool.or_false]

/-- Settles O49: the five address registers by one lemma, then the three others. -/
theorem setupRegisters : Obligations.SetupRegisters := by
  intro s₀ v s
  refine ⟨fun r hr => ?_, ⟨{ s with core := writePoll v s.core }, rfl, ?_⟩,
    ⟨{ s with core := writeTimeout v s.core }, rfl, ?_⟩, ⟨{ s with core := writeLock v s.core }, rfl, ?_⟩⟩
  case refine_2 => rw [writePoll_eq]; exact ⟨rfl, rfl⟩
  case refine_3 => rw [writeTimeout_eq]; exact ⟨rfl, rfl⟩
  case refine_4 => rw [writeLock_eq]; exact ⟨rfl, rfl⟩
  simp only [List.mem_cons, List.not_mem_nil, or_false] at hr
  obtain rfl | rfl | rfl | rfl | rfl := hr
  · exact addr_register .hpFlowTableBase 0x100 12 v s₀ (fun _ => rfl) (by decide) rfl
  · exact addr_register .hpDbBase 0x108 6 v s₀ (fun _ => rfl) (by decide) rfl
  · exact addr_register .hpMirrorBase 0x110 12 v s₀ (fun _ => rfl) (by decide) rfl
  · exact addr_register .hpHbAddr 0x118 2 v s₀ (fun _ => rfl) (by decide) rfl
  · exact addr_register .cpLibBase 0x130 12 v s₀ (fun _ => rfl) (by decide) rfl

/-! ### Accesses (R469 to R472, R478) -/

/-- An offset without a register ignores a write (R471). -/
theorem barWrite_none (off : Nat) (v : U32) (s : State) (h : off ∉ [0x40, 0x44, 0x100, 0x104, 0x108, 0x10C, 0x110, 0x114, 0x118, 0x11C, 0x120, 0x124,
    0x128, 0x130, 0x134, 0x140]) : barWrite off v s = s := by
  unfold barWrite
  dsimp only
  split
  case h_17 => rfl
  all_goals exact absurd (by decide) h

/-- A flow command that is one replaces the pending command of its flow (R478). -/
theorem flowCmd_spec (v : U32) (c : Core) : (∃ t, flowCmd v c = { c with host := { c.host with flows := t } }) ∧
    (∀ n, n ≠ v.toNat % 256 → flowAt (flowCmd v c) n = flowAt c n) ∧
    ∃ k, flowAt (flowCmd v c) (v.toNat % 256) = { flowAt c (v.toNat % 256) with cmd := k } ∧
      k % 4 = if v.toNat / 256 % 4 = 1 ∨ v.toNat / 256 % 4 = 2 then v.toNat / 256 % 4 else (flowAt c (v.toNat % 256)).cmd % 4 := by
  unfold flowCmd
  dsimp only
  by_cases h : v.toNat / 256 % 4 = 1 ∨ v.toNat / 256 % 4 = 2
  · rw [if_pos (by simpa using h), if_pos h]
    refine ⟨⟨_, rfl⟩, fun n hn => by rw [flowAt_setFlow, if_neg hn.symm], _, by rw [flowAt_setFlow, if_pos rfl], ?_⟩
    omega
  · rw [if_neg (by simpa using h), if_neg h]
    exact ⟨⟨_, rfl⟩, fun _ _ => rfl, _, rfl, rfl⟩

/-- The five read-only registers of 64 bits (R472). -/
theorem roReg_offsets (c : Core) (off w : Nat) (h : roReg c off = some w) : off = 0x08 ∨ off = 0x18 ∨ off = 0x20 ∨ off = 0x28 ∨ off = 0x30 := by
  unfold roReg at h
  split at h
  · exact .inl rfl
  · exact .inr (.inl rfl)
  · exact .inr (.inr (.inl rfl))
  · exact .inr (.inr (.inr (.inl rfl)))
  · exact .inr (.inr (.inr (.inr rfl)))
  · cases h

/-- The 64-bit value that the two halves at `base` show (R470). -/
def pairValue (c : Core) (base : Nat) : Nat :=
  match roReg c base with
  | some v => v
  | none => (addrReg c.bar base).toNat

/-- An offset outside the 32-bit registers reads half of a 64-bit one, or 0 (R470, R471). -/
theorem barRead_pair (c : Core) (off : Nat) (h : off ∉ [0x000, 0x004, 0x010, 0x014, 0x040, 0x120, 0x124, 0x140]) : barRead c off =
    if off % 8 = 0 then pairValue c (off / 8 * 8) % 2 ^ 32
    else if off % 8 = 4 then
      match tget none c.bar.latched off with
      | some x => x.toNat
      | none => pairValue c (off / 8 * 8) / 2 ^ 32
    else 0 := by
  unfold barRead
  split
  case h_9 => rfl
  all_goals exact absurd (by decide) h

/-- The _LO half of such a register, and its _HI half once that has latched it (R470). -/
theorem barRead_ro (c : Core) (off w : Nat) (h : roReg c off = some w) : barRead c off = w % 2 ^ 32 ∧
    ∀ (d : Core) (x : U32), tget none d.bar.latched (off + 4) = some x → barRead d (off + 4) = x.toNat := by
  have halves : off ∉ [0x000, 0x004, 0x010, 0x014, 0x040, 0x120, 0x124, 0x140] → off + 4 ∉ [0x000, 0x004, 0x010, 0x014, 0x040, 0x120, 0x124, 0x140] →
      off % 8 = 0 → barRead c off = w % 2 ^ 32 ∧
        ∀ (d : Core) (x : U32), tget none d.bar.latched (off + 4) = some x → barRead d (off + 4) = x.toNat := fun hlo hhi h8 => by
    refine ⟨?_, fun d x hx => ?_⟩
    · rw [barRead_pair c off hlo, if_pos h8, show off / 8 * 8 = off by omega, pairValue, h]
    · rw [barRead_pair d _ hhi, if_neg (by omega), if_pos (by omega), hx]
  obtain rfl | rfl | rfl | rfl | rfl := roReg_offsets c off w h <;> exact halves (by decide) (by decide) rfl

/-- A read of a _LO half latches the upper half (R470). -/
theorem loRead_ro (c : Core) (off w : Nat) (h : roReg c off = some w) : ∃ l x, loRead off c =
    { c with bar := { c.bar with latched := l }, out := .bar x :: c.out } ∧ x.toNat = w % 2 ^ 32 ∧
      ∀ d : Core, d.bar.latched = l → barRead d (off + 4) = w / 2 ^ 32 % 2 ^ 32 := by
  refine ⟨tset none c.bar.latched (off + 4) (some (BitVec.ofNat 32 (w / 2 ^ 32))), BitVec.ofNat 32 (w % 2 ^ 32), ?_, ?_, fun d hd => ?_⟩
  · have hr : roReg { c with bar := { c.bar with latched := tset none c.bar.latched (off + 4) (some (BitVec.ofNat 32 (w / 2 ^ 32))) } } off = some w := h
    unfold loRead
    rw [h]
    dsimp only
    rw [(barRead_ro _ off w hr).1]
    rfl
  · rw [BitVec.toNat_ofNat]
    omega
  · rw [(barRead_ro c off w h).2 d (BitVec.ofNat 32 (w / 2 ^ 32)) (by rw [hd, tget_tset_same]), BitVec.toNat_ofNat]

/-- Any other register is answered without a latch. -/
theorem loRead_other (c : Core) (off : Nat) (h : roReg c off = none) : loRead off c = emit (.bar (BitVec.ofNat 32 (barRead c off))) c := by
  unfold loRead
  rw [h]

/-- Settles O50: writes by their offset, then reads before and after the port answers. -/
theorem barAccess : Obligations.BarAccess := by
  intro s₀ v s
  have full : ∀ off : BitVec 16, Runs (.bar0Write off v 0xF) s₀ (barWrite off.toNat v s) := fun _ => rfl
  refine ⟨fun off be hbe => congrArg Host.Outcome.next (if_neg (by simpa using hbe)), fun off h => (full off).trans (by rw [barWrite_none _ v s h]), fun r hr t => ?_,
    ⟨if barOpen s.core = true then { s with core := flowCmd v s.core } else s, full 0x128, ?_⟩,
    ⟨if barOpen s.core = true then { s with core := { s.core with bar := { s.core.bar with diagSel := v.toNat % 128 } } } else s, full 0x140, ?_⟩,
    fun off => ⟨fun hr => congrArg Host.Outcome.next (if_pos hr), fun hr he => ?_, fun hr he => ⟨fun hn => ?_, fun w hw => ?_⟩⟩⟩
  · simp only [List.mem_cons, List.not_mem_nil, or_false] at hr
    obtain rfl | rfl | rfl | rfl | rfl | rfl | rfl | rfl | rfl | rfl | rfl | rfl | rfl | rfl := hr <;> exact Iff.rfl
  · obtain ⟨⟨t, ht⟩, hothers, k, hk, hmod⟩ := flowCmd_spec v s.core
    by_cases ho : barOpen s.core = true
    · rw [if_pos ho]
      dsimp only
      rw [hk]
      refine ⟨?_, hothers, rfl, by rw [ht]⟩
      simpa only [ho, true_and] using hmod
    · rw [if_neg ho, if_neg (fun h => ho h.1)]
      exact ⟨rfl, fun _ _ => rfl, rfl, rfl⟩
  · by_cases ho : barOpen s.core = true
    · rw [if_pos ho, if_pos ho]
      exact ⟨rfl, rfl⟩
    · rw [if_neg ho, if_neg ho]
      exact ⟨rfl, rfl⟩
  · refine congrArg Host.Outcome.next ((if_neg (by rw [hr]; decide)).trans ?_)
    rw [if_pos (by exact he)]
  · refine congrArg Host.Outcome.next ((if_neg (by rw [hr]; decide)).trans ?_)
    rw [if_neg (by rw [show (portSettles s₀.core).sys.early = false from he]; decide), loRead_other _ _ hn]
  · obtain ⟨l, x, e, hx, hd⟩ := loRead_ro s.core off.toNat w hw
    refine ⟨{ s with core := loRead off.toNat s.core }, congrArg Host.Outcome.next ((if_neg (by rw [hr]; decide)).trans ?_), ?_⟩
    · rw [if_neg (by rw [show (portSettles s₀.core).sys.early = false from he]; decide)]
    · rw [e]
      exact ⟨⟨x, rfl, hx⟩, hd, rfl⟩

end Sys2Proof.Machine
end

section
/-! SUPPORT. Flow commands, the host link, the heartbeat and completion timeouts (R72 to R80, R102 to R104, R476, R478, R479). -/

namespace Sys2Proof.Machine

/-! ### DISABLE and LOAD (R78, R80, R479) -/

/-- A command that does not start leaves the core (R478). -/
theorem disableCmd_waits (n : Nat) (c : Core) (h : cmdStarts c n 2 = false) : disableCmd n c = c := if_neg (by rw [h]; decide)

theorem loadFlow_waits (n : Nat) (c : Core) (h : cmdStarts c n 1 = false) : loadFlow n c = c := if_neg (by rw [h]; decide)

/-- The fetches scheduled but those of flow `n` (R80). -/
def fetchesBut (n : Nat) (c : Core) : List (Nat × U16 × Nat) := c.host.fetchQ.filter fun e => e.1 != n

/-- Flow `n` has been disabled and then set to `g`: no other flow, and no fetch of another flow, is touched (R80). -/
theorem setFlow_disabled (n : Nat) (g : FlowSt) (c : Core) : ∃ t, setFlow n g (disableFlow n c) =
    { c with host := { c.host with flows := t, fetchQ := fetchesBut n c } } ∧
    ∀ o, (flowAt { c with host := { c.host with flows := t, fetchQ := fetchesBut n c }, out := o } n = g ∧
      ∀ m, m ≠ n → flowAt { c with host := { c.host with flows := t, fetchQ := fetchesBut n c }, out := o } m = flowAt c m) := by
  have hn : flowAt (setFlow n g (disableFlow n c)) n = g := by rw [flowAt_setFlow, if_pos rfl]
  have hm : ∀ m, m ≠ n → flowAt (setFlow n g (disableFlow n c)) m = flowAt c m := fun m h => by
    rw [flowAt_setFlow, if_neg h.symm, disableFlow_flow, if_neg h.symm]
  exact ⟨_, rfl, fun o => ⟨hn, hm⟩⟩

/-- DISABLE (R78). -/
theorem disableCmd_starts (n : Nat) (c : Core) (h : cmdStarts c n 2 = true) :
    disableCmd n c = setFlow n { disabledFlow (flowAt c n) with cmd := 0 } (disableFlow n c) := by
  unfold disableCmd
  rw [if_pos h]
  dsimp only
  rw [disableFlow_flow, if_pos rfl]

/-- LOAD: without both bases an error, otherwise the flow waits for its reads, which go out over an open port (R78, R479). -/
theorem loadFlow_starts (n : Nat) (c : Core) (h : cmdStarts c n 1 = true) : loadFlow n c =
    if c.bar.flowTable = 0 ∨ c.bar.db = 0 then setFlow n { disabledFlow (flowAt c n) with state := .error, cause := 10, cmd := 0 } (disableFlow n c)
    else { setFlow n { disabledFlow (flowAt c n) with cmd := 4 } (disableFlow n c) with
      out := (if portUp c = true then [.hostRead (c.bar.db.toNat + 4 * n) 4, .hostRead (c.bar.flowTable.toNat + 64 * n) 64] else []) ++ c.out } := by
  unfold loadFlow
  rw [if_pos h]
  dsimp only
  rw [disableFlow_flow, if_pos rfl]
  have hb : ((decide ((disableFlow n c).bar.flowTable = 0) || decide ((disableFlow n c).bar.db = 0)) = true) ↔ (c.bar.flowTable = 0 ∨ c.bar.db = 0) := by
    show (decide (c.bar.flowTable = 0) || decide (c.bar.db = 0)) = true ↔ _
    simp
  by_cases h0 : c.bar.flowTable = 0 ∨ c.bar.db = 0
  · rw [if_pos (hb.mpr h0), if_pos h0]
  · rw [if_neg (fun k => h0 (hb.mp k)), if_neg h0]
    by_cases hp : portUp c = true
    · rw [if_pos hp]
      exact if_pos hp
    · rw [if_neg hp]
      exact if_neg hp

/-! ### The checks of a flow-table entry (R77, R78) -/

/-- The entry's CRC and its reserved bytes (R77). -/
def EntryIntact (e : Bytes) : Prop := field e 60 4 = crc32c (slice e 0 60) ∧ allZero (slice e 23 37) = true

/-- Both rings have a permitted size (R77). -/
def EntrySized (e : Bytes) : Prop := ringSize (field e 16 2) = true ∧ ringSize (field e 18 2) = true

/-- The class suits the number of the flow (R77). -/
def EntryClassed (n : Nat) (e : Bytes) : Prop := ((n < 8 ∧ byteAt e 20 = 0) ∨ (8 ≤ n ∧ byteAt e 20 ≠ 0)) ∧ byteAt e 20 ≤ 3

/-- Both rings are aligned (R77). -/
def EntryAligned (e : Bytes) : Prop := field e 0 8 % 64 = 0 ∧ field e 8 8 % 32 = 0

/-- The flow as its entry gives it, in state `st` (R78). -/
def enteredFlow (st : FlowState) (f : FlowSt) (e : Bytes) : FlowSt :=
  { f with
    state := st, sqBase := field e 0 8, cqBase := field e 8 8, sqSize := field e 16 2, cqSize := field e 18 2, cls := byteAt e 20
    quota := byteAt e 21, epoch := byteAt e 22, st := 0, sh := 0, ct := 0, ch := 0, cause := 0, fails := 0 }

/-- A flow that fails a check (R78). -/
def failedFlow (cause : Nat) (f : FlowSt) : FlowSt := { f with state := .error, cause, sqSize := 0, cqSize := 0 }

/-- The first check that fails decides (R78). -/
theorem flowFrom_checks (n : Nat) (f : FlowSt) (e : Bytes) (db : Option U32) :
    (¬ EntryIntact e → flowFrom n f (some e) db = failedFlow 1 f) ∧
    (EntryIntact e → ¬ EntrySized e → flowFrom n f (some e) db = failedFlow 2 f) ∧
    (EntryIntact e → EntrySized e → ¬ EntryClassed n e → flowFrom n f (some e) db = failedFlow 3 f) ∧
    (EntryIntact e → EntrySized e → EntryClassed n e → ¬ EntryAligned e → flowFrom n f (some e) db = failedFlow 4 f) ∧
    (EntryIntact e → EntrySized e → EntryClassed n e → EntryAligned e → flowFrom n f (some e) db =
      if field e 16 2 = 0 ∨ field e 18 2 = 0 then enteredFlow .disabled f e
      else if db = some 0 then enteredFlow (if byteAt e 21 = 0 then .suspended else .enabled) f e
      else failedFlow (if db = none then 6 else 5) f) := by
  have h1 : (decide (field e 60 4 ≠ crc32c (slice e 0 60)) || !allZero (slice e 23 37)) = true ↔ ¬ EntryIntact e := by
    rw [Bool.or_eq_true, decide_eq_true_eq, Bool.not_eq_true', EntryIntact, Classical.not_and_iff_not_or_not, Bool.not_eq_true]
  have h2 : (!ringSize (field e 16 2) || !ringSize (field e 18 2)) = true ↔ ¬ EntrySized e := by
    cases h : ringSize (field e 16 2) <;> simp [EntrySized, h]
  have h3 : ((decide (byteAt e 20 = 0) != decide (n < 8)) || decide (3 < byteAt e 20)) = true ↔ ¬ EntryClassed n e := by
    simp only [Bool.or_eq_true, bne_iff_ne, ne_eq, decide_eq_decide, decide_eq_true_eq, EntryClassed]
    omega
  have h4 : (decide (field e 0 8 % 64 ≠ 0) || decide (field e 8 8 % 32 ≠ 0)) = true ↔ ¬ EntryAligned e := by
    rw [Bool.or_eq_true, decide_eq_true_eq, decide_eq_true_eq, EntryAligned, Classical.not_and_iff_not_or_not]
  unfold flowFrom
  dsimp only
  refine ⟨fun k1 => if_pos (h1.mpr k1), fun k1 k2 => ?_, fun k1 k2 k3 => ?_, fun k1 k2 k3 k4 => ?_, fun k1 k2 k3 k4 => ?_⟩
  all_goals rw [if_neg (fun h => h1.mp h k1)]
  · exact if_pos (h2.mpr k2)
  all_goals rw [if_neg (fun h => h2.mp h k2)]
  · exact if_pos (h3.mpr k3)
  all_goals rw [if_neg (fun h => h3.mp h k3)]
  · exact if_pos (h4.mpr k4)
  rw [if_neg (fun h => h4.mp h k4)]
  by_cases hz : field e 16 2 = 0 ∨ field e 18 2 = 0
  · rw [if_pos (by simpa using hz), if_pos hz]
    rfl
  · rw [if_neg (by simpa using hz), if_neg hz]
    by_cases hd : db = some 0
    · rw [if_neg (by simp [hd]), if_pos hd]
      by_cases hq : byteAt e 21 = 0
      · rw [if_pos hq, if_pos hq]; rfl
      · rw [if_neg hq, if_neg hq]; rfl
    · rw [if_pos hd, if_neg hd]
      cases db <;> rfl

/-- The result of FLOW_ENTRY_READ for a flow that is being loaded (R78). -/
theorem runs_flowEntryRead (n : Fin 256) (e : HostRead) (db : Option U32) (s : State) (h : 4 ≤ (flowAt s.core n).cmd) :
    Runs (.flowEntryRead n e db) s
      { s with core := (setFlow n (flowFrom n { flowAt s.core n with cmd := (flowAt s.core n).cmd % 4 } (ofLength 64 e) db) s.core) } :=
  congrArg Host.Outcome.next (if_pos h)

/-- Data of another length are a failed read (log 9). -/
theorem ofLength_other (n : Nat) (b : Bytes) (h : b.length ≠ n) : ofLength n (some b) = none := by
  unfold ofLength
  simp [h]

theorem ofLength_same (n : Nat) (b : Bytes) (h : b.length = n) : ofLength n (some b) = some b := by
  unfold ofLength
  simp [h]

/-- Settles O51: DISABLE, LOAD, and the entry read by the first check that fails. -/
theorem flowCommands : Obligations.FlowCommands := by
  intro s n
  dsimp only
  refine ⟨fun h => runs_core (loadFlow_waits n s.core h) rfl,
    fun h => runs_core (disableCmd_waits n s.core h) rfl, fun h => ?_, fun h => ?_,
    fun e db h => congrArg Host.Outcome.next (if_neg (by omega)), fun e db t he => ?_, fun db h => ⟨_, runs_flowEntryRead n none db s h, ?_⟩,
    fun e db he h => ⟨_, runs_flowEntryRead n (some e) db s h, ?_⟩⟩
  · obtain ⟨t, e, hat⟩ := setFlow_disabled n { disabledFlow (flowAt s.core n) with cmd := 0 } s.core
    obtain ⟨hn, hm⟩ := hat s.core.out
    refine ⟨{ s with core := disableCmd n s.core }, rfl, ?_⟩
    rw [disableCmd_starts n s.core h, e]
    exact ⟨hn, hm, rfl, rfl⟩
  · refine ⟨{ s with core := loadFlow n s.core }, rfl, ?_⟩
    rw [loadFlow_starts n s.core h]
    by_cases h0 : s.core.bar.flowTable = 0 ∨ s.core.bar.db = 0
    · obtain ⟨t, e, hat⟩ := setFlow_disabled n { disabledFlow (flowAt s.core n) with state := .error, cause := 10, cmd := 0 } s.core
      obtain ⟨hn, hm⟩ := hat s.core.out
      rw [if_pos h0, e]
      exact ⟨fun _ => ⟨rfl, hn⟩, fun ht hd => (h0.elim ht hd).elim, hm, rfl, rfl⟩
    · obtain ⟨t, e, hat⟩ := setFlow_disabled n { disabledFlow (flowAt s.core n) with cmd := 4 } s.core
      obtain ⟨hn, hm⟩ := hat ((if portUp s.core = true then [.hostRead (s.core.bar.db.toNat + 4 * n) 4, .hostRead (s.core.bar.flowTable.toNat + 64 * n) 64] else []) ++ s.core.out)
      rw [if_neg h0, e]
      exact ⟨fun h => absurd h h0, fun _ _ => ⟨hn, rfl⟩, hm, rfl, rfl⟩
  · show execFlowEntryRead n (some e) db s = _ ↔ execFlowEntryRead n none db s = _
    unfold execFlowEntryRead
    rw [ofLength_other 64 e he]
    exact Iff.rfl
  · rw [flowAt_setFlow, if_pos rfl]
    exact ⟨rfl, rfl⟩
  · rw [ofLength_same 64 e he]
    obtain ⟨h1, h2, h3, h4, h5⟩ := flowFrom_checks n { flowAt s.core n with cmd := (flowAt s.core n).cmd % 4 } e db
    dsimp only
    rw [flowAt_setFlow, if_pos rfl]
    refine ⟨⟨fun k1 => ?_, fun k1 k2 => ?_, fun k1 k2 k3 => ?_, fun k1 k2 k3 k4 => ?_, fun k1 k2 k3 k4 => ?_, ?_⟩, fun m hm => ?_, rfl⟩
    · rw [h1 k1]; exact ⟨rfl, rfl⟩
    · rw [h2 k1 k2]; exact ⟨rfl, rfl⟩
    · rw [h3 k1 k2 k3]; exact ⟨rfl, rfl⟩
    · rw [h4 k1 k2 k3 k4]; exact ⟨rfl, rfl⟩
    · rw [h5 k1 k2 k3 k4]
      refine ⟨fun hz => by rw [if_pos hz]; rfl, fun hsq hcq => ?_⟩
      rw [if_neg (by simp [hsq, hcq])]
      refine ⟨fun hd => ?_, fun w hd hw => ?_, fun hd => ?_⟩
      · rw [if_neg (by simp [hd]), if_pos hd]; exact ⟨rfl, rfl⟩
      · rw [if_neg (fun h => hw (Option.some.inj (hd.symm.trans h))), if_neg (by simp [hd])]; exact ⟨rfl, rfl⟩
      · rw [if_pos hd]; rfl
    · by_cases k1 : EntryIntact e
      · by_cases k2 : EntrySized e
        · by_cases k3 : EntryClassed n e
          · by_cases k4 : EntryAligned e
            · rw [h5 k1 k2 k3 k4]
              split
              · rfl
              · split <;> rfl
            · rw [h4 k1 k2 k3 k4]; rfl
          · rw [h3 k1 k2 k3]; rfl
        · rw [h2 k1 k2]; rfl
      · rw [h1 k1]; rfl
    · rw [flowAt_setFlow, if_neg hm.symm]

/-! ### The host link (R72, R76) -/

/-- A link event: every flow is disabled, and Bus Master Enable is cleared (R76). -/
theorem linkEvent_spec (down : Bool) (c : Core) : ∃ t q, linkEvent down c = { c with
      bar := { c.bar with
        bme := false, linkUp := c.bar.linkUp && !down, speed := if down then 0 else c.bar.speed, width := if down then 0 else c.bar.width }
      host := { c.host with flows := t, fetchQ := q } } ∧
    ∀ n, n < 256 → (flowAt (linkEvent down c) n).state = .disabled ∧
      ((flowAt c n).state ≠ .disabled → (flowAt (linkEvent down c) n).gen = (flowAt c n).gen + 1) := by
  cases down
  · obtain ⟨⟨t, q, e⟩, -⟩ := disableAll_spec { c with bar := { c.bar with bme := false, linkUp := c.bar.linkUp && !false } }
    exact ⟨t, q, e, disableAll_flows { c with bar := { c.bar with bme := false, linkUp := c.bar.linkUp && !false } }⟩
  · obtain ⟨⟨t, q, e⟩, -⟩ := disableAll_spec { c with bar := { c.bar with bme := false, linkUp := c.bar.linkUp && !true, speed := 0, width := 0 } }
    exact ⟨t, q, e, disableAll_flows { c with bar := { c.bar with bme := false, linkUp := c.bar.linkUp && !true, speed := 0, width := 0 } }⟩

/-- The reads of the LOADs that waited: those, and nothing else, leave (R78). -/
theorem waitingLoads_spec (l : List Nat) (c : Core) : ∃ o,
    l.foldl (fun c n => if 4 ≤ (flowAt c n).cmd then loadReads n c else c) c = { c with out := o } ∧
    (∀ x, x ∈ c.out → x ∈ o) ∧
    (∀ n, n ∈ l → 4 ≤ (flowAt c n).cmd → Output.hostRead (c.bar.flowTable.toNat + 64 * n) 64 ∈ o ∧ Output.hostRead (c.bar.db.toNat + 4 * n) 4 ∈ o) ∧
    ((∀ n, n ∈ l → (flowAt c n).cmd < 4) → o = c.out) := by
  induction l generalizing c with
  | nil => exact ⟨c.out, rfl, fun _ h => h, nofun, fun _ => rfl⟩
  | cons a r ih =>
    rw [List.foldl_cons]
    by_cases ha : 4 ≤ (flowAt c a).cmd
    · rw [if_pos ha]
      obtain ⟨o, e, hkeep, hreads, -⟩ := ih (loadReads a c)
      refine ⟨o, e, fun x hx => hkeep x (.tail _ (.tail _ hx)), fun n hn h4 => ?_, fun h => absurd (h a (.head _)) (by omega)⟩
      obtain rfl | hn := List.mem_cons.mp hn
      · exact ⟨hkeep _ (.tail _ (.head _)), hkeep _ (.head _)⟩
      · exact hreads n hn h4
    · rw [if_neg ha]
      obtain ⟨o, e, hkeep, hreads, hnone⟩ := ih c
      refine ⟨o, e, hkeep, fun n hn h4 => ?_, fun h => hnone fun n hn => h n (.tail _ hn)⟩
      obtain rfl | hn := List.mem_cons.mp hn
      · exact absurd h4 ha
      · exact hreads n hn h4

/-- What Bus Master Enable finds of the link: as it was, or trained within what R72 permits (log 32). -/
theorem linkTrained_spec (c : Core) : ∃ b f, linkTrained c = { c with bar := b, free := f } ∧ 1 ≤ b.speed ∧ b.speed ≤ 3 ∧ 1 ≤ b.width ∧ b.width ≤ 2 ∧
    (b.mps = 128 ∨ b.mps = 256) ∧ (∃ k, k < 6 ∧ b.mrrs = 128 * 2 ^ k) ∧
    b = { c.bar with linkUp := true, speed := b.speed, width := b.width, mps := b.mps, mrrs := b.mrrs } := by
  refine ⟨_, _, rfl, ?_, ?_, ?_, ?_, ?_, ⟨(draw c).1.toNat / 16 % 6, ?_, rfl⟩, rfl⟩
  · show 1 ≤ 1 + (draw c).1.toNat % 3; omega
  · show 1 + (draw c).1.toNat % 3 ≤ 3; omega
  · show 1 ≤ 1 + (draw c).1.toNat / 4 % 2; omega
  · show 1 + (draw c).1.toNat / 4 % 2 ≤ 2; omega
  · show 128 * (1 + (draw c).1.toNat / 8 % 2) = 128 ∨ 128 * (1 + (draw c).1.toNat / 8 % 2) = 256; omega
  · omega

/-- Bus Master Enable over the link as it is found or trained: the waiting LOADs read (R76, R78). -/
theorem busMasterEnable_spec (c : Core) : ∃ b f o, busMasterEnable c = { c with bar := b, free := f, out := o } ∧
    (c.bar.linkUp = true → b = { c.bar with bme := true } ∧ f = c.free) ∧
    (c.bar.linkUp = false → 1 ≤ b.speed ∧ b.speed ≤ 3 ∧ 1 ≤ b.width ∧ b.width ≤ 2 ∧ (b.mps = 128 ∨ b.mps = 256) ∧
      (∃ k, k < 6 ∧ b.mrrs = 128 * 2 ^ k) ∧
      b = { c.bar with bme := true, linkUp := true, speed := b.speed, width := b.width, mps := b.mps, mrrs := b.mrrs }) ∧
    (∀ n, n < 256 → 4 ≤ (flowAt c n).cmd → Output.hostRead (c.bar.flowTable.toNat + 64 * n) 64 ∈ o ∧ Output.hostRead (c.bar.db.toNat + 4 * n) 4 ∈ o) ∧
    ((∀ n, n < 256 → (flowAt c n).cmd < 4) → o = c.out) := by
  unfold busMasterEnable
  dsimp only
  by_cases hl : c.bar.linkUp = true
  · rw [if_pos hl]
    obtain ⟨o, e, -, hreads, hnone⟩ := waitingLoads_spec (List.range 256) { c with bar := { c.bar with bme := true } }
    exact ⟨_, _, o, e, fun _ => ⟨rfl, rfl⟩, fun h => (by rw [hl] at h; cases h), fun n hn => hreads n (List.mem_range.mpr hn),
      fun h => hnone fun n hn => h n (List.mem_range.mp hn)⟩
  · rw [if_neg hl]
    obtain ⟨b, f, eb, hs1, hs3, hw1, hw2, hmps, hmrrs, hb⟩ := linkTrained_spec c
    rw [eb]
    obtain ⟨o, e, -, hreads, hnone⟩ := waitingLoads_spec (List.range 256) { c with bar := { b with bme := true }, free := f }
    have htable : b.flowTable = c.bar.flowTable ∧ b.db = c.bar.db := by rw [hb]; exact ⟨rfl, rfl⟩
    refine ⟨{ b with bme := true }, f, o, e, fun h => absurd h hl, fun _ => ⟨hs1, hs3, hw1, hw2, hmps, hmrrs, ?_⟩, fun n hn h4 => ?_,
      fun h => hnone fun n hn => h n (List.mem_range.mp hn)⟩
    · rw [hb]
    · rw [← htable.1, ← htable.2]
      exact hreads n (List.mem_range.mpr hn) h4

/-! ### The heartbeat (R103) -/

/-- A changed word ends HOST_LOST, with a record where the host had been lost (R103). -/
theorem heartbeat_changed (v r : U32) (c : Core) (hr : c.host.hbRef = some r) (hv : v ≠ r) : ∃ u, heartbeat (some v) c = { c with
      sys := { c.sys with hostLost := false }
      host := { c.host with hbRef := some v, hbSame := 0 }
      seq := { c.seq with due := c.seq.due.filter (· != Due.hostLost) }
      recd := u } ∧
    u = if c.sys.hostLost = true then (event 0x012 0x01 [] { c with sys := { c.sys with hostLost := false } }).recd else c.recd := by
  unfold heartbeat
  dsimp only
  rw [hr]
  dsimp only
  rw [if_neg hv]
  by_cases hl : c.sys.hostLost = true
  · rw [if_pos hl, if_pos hl]
    obtain ⟨u, e⟩ := event_only 0x012 0x01 [] { c with
      sys := { c.sys with hostLost := false }, host := { c.host with hbRef := some v, hbSame := 0 }
      seq := { c.seq with due := c.seq.due.filter (· != Due.hostLost) } }
    exact ⟨u, e, (congrArg Core.recd e).symm.trans (event_congr 0x012 0x01 [] _ { c with sys := { c.sys with hostLost := false } } rfl rfl rfl)⟩
  · rw [if_neg hl, if_neg hl]
    refine ⟨c.recd, ?_, rfl⟩
    rw [show ({ c.sys with hostLost := false } : SysSt) = c.sys by rw [← Bool.eq_false_iff.mpr hl]]

/-- The conditions under which a heartbeat read is taken (R103, R104). -/
theorem runs_heartbeatRead (w : Option U32) (s : State) (hr : s.core.sys.inReset = false) (ht : s.core.sys.mode ≠ .selftest)
    (hp : s.core.sys.mode ≠ .parked) (hb : s.core.bar.hb ≠ 0) : Runs (.heartbeatRead w) s { s with core := heartbeat w s.core } :=
  congrArg Host.Outcome.next (if_neg (by simpa [hr, ht, hp] using hb))

/-! ### Completion timeouts (R75, R102) -/

/-- Whatever read times out, only the core changes. -/
theorem completionTimeout_core (req : Fin 6) (arg : Nat) (s : State) : ∃ t, Runs (.completionTimeout req arg) s t ∧ t = { s with core := t.core } := by
  have ite_core (p : Prop) [Decidable p] (c d : Core) : (if p then ({ s with core := c } : State) else { s with core := d }) =
      { s with core := (if p then ({ s with core := c } : State) else { s with core := d }).core } := by split <;> rfl
  match req with
  | 0 | 1 | 2 | 3 => exact ⟨_, rfl, ite_core _ _ _⟩
  | 4 => exact ⟨_, rfl, ite_core _ s.core (readFailed s.core)⟩
  | 5 => exact ⟨_, rfl, rfl⟩

/-- Settles O52: the link event, Bus Master Enable, the heartbeat, the timeouts. -/
theorem hostLink : Obligations.HostLink := by
  intro s
  refine ⟨fun down => ?_, fun h => ?_, fun hr hb => ?_, fun w h => ?_, fun hr ht hp hb => ⟨runs_heartbeatRead none s hr ht hp hb, fun v => ⟨fun hn => ?_, fun hs => ?_, fun r hs hv => ?_⟩⟩,
    fun arg => ⟨fun t => Iff.rfl, fun t => Iff.rfl, fun t => Iff.rfl, fun t => Iff.rfl, fun t => Iff.rfl, rfl, fun req => completionTimeout_core req arg s⟩⟩
  · obtain ⟨t, q, e, hflows⟩ := linkEvent_spec down s.core
    rw [e] at hflows
    exact ⟨_, runs_core e rfl, rfl, hflows, rfl⟩
  · refine congrArg Host.Outcome.next (if_pos ?_)
    obtain h | h := h <;> simp [h]
  · obtain ⟨b, f, o, e, hup, hdown, hreads, hnone⟩ := busMasterEnable_spec s.core
    refine ⟨{ s with core := busMasterEnable s.core }, congrArg Host.Outcome.next (if_neg (by simp [hr, hb])), ?_⟩
    rw [e]
    exact ⟨hup, hdown, hreads, hnone, rfl⟩
  · refine congrArg Host.Outcome.next (if_pos ?_)
    obtain h | h | h | h := h <;> simp [h]
  · refine (runs_heartbeatRead (some v) s hr ht hp hb).trans ?_
    unfold heartbeat
    dsimp only
    rw [hn]
  · refine (runs_heartbeatRead (some v) s hr ht hp hb).trans ?_
    unfold heartbeat
    dsimp only
    rw [hs]
    dsimp only
    rw [if_pos rfl]
  · obtain ⟨u, e, hu⟩ := heartbeat_changed v r s.core hs hv
    refine ⟨_, runs_heartbeatRead (some v) s hr ht hp hb, ?_⟩
    rw [e]
    exact ⟨rfl, rfl, hu, rfl⟩

end Sys2Proof.Machine
end

section
/-! SUPPORT. Doorbell polls, doorbell data and the choice of the next fetch (R83, R88 to R97, R102). -/

namespace Sys2Proof.Machine

/-! ### The polls (R90, R102) -/

/-- The read of a doorbell block. -/
def blockRead (c : Core) (b : Nat) : Output := .hostRead (c.bar.db.toNat + 64 * b) 64

/-- The poll reads a block only where the port is up and the mode serves flows (R90). -/
theorem pollBlock_off (b : Nat) (c : Core) (h : ¬ (portUp c = true ∧ serves c.sys.mode = true)) : pollBlock b c = c :=
  if_neg fun k => h (by
    simp only [Bool.and_eq_true] at k
    exact ⟨k.1.2, k.2⟩)

/-- A block without a flow in use is not read (R90). -/
theorem pollBlock_idle (b : Nat) (c : Core) (h : blockOn c b = false) : pollBlock b c = c := if_neg (by simp [h])

theorem pollBlock_reads (b : Nat) (c : Core) (hb : blockOn c b = true) (hp : portUp c = true) (hm : serves c.sys.mode = true) :
    pollBlock b c = emit (blockRead c b) (hpCount 0 c) := if_pos (by simp [hb, hp, hm])

/-- A poll of a list of blocks reads those that hold a flow in use, and counts (R90). -/
theorem pollBlocks_spec (l : List Nat) (c : Core) : ∃ k, l.foldl (fun c b => pollBlock (b + 1) c) c =
    { c with
      host := { c.host with counters := k }
      out := (if portUp c = true ∧ serves c.sys.mode = true then
        (l.filter fun b => blockOn c (b + 1)).reverse.map fun b => blockRead c (b + 1) else []) ++ c.out } := by
  induction l generalizing c with
  | nil => exact ⟨c.host.counters, by simp⟩
  | cons b r ih =>
    rw [List.foldl_cons]
    by_cases h : portUp c = true ∧ serves c.sys.mode = true
    · rw [if_pos h]
      cases hb : blockOn c (b + 1) with
      | false =>
        obtain ⟨k, e⟩ := ih c
        rw [pollBlock_idle _ _ hb, e, if_pos h, List.filter_cons_of_neg (by simp [hb])]
        exact ⟨_, rfl⟩
      | true =>
        obtain ⟨k, e⟩ := ih (emit (blockRead c (b + 1)) (hpCount 0 c))
        rw [pollBlock_reads _ _ hb h.1 h.2, e, List.filter_cons_of_pos (by simp [hb]), List.reverse_cons, List.map_append,
          List.append_assoc]
        exact ⟨k, congrArg (fun o => { emit (blockRead c (b + 1)) (hpCount 0 c) with host := { c.host with counters := k }, out := o })
          (congrArg (· ++ _) (if_pos h))⟩
    · obtain ⟨k, e⟩ := ih c
      rw [pollBlock_off _ _ h, e, if_neg h, if_neg h]
      exact ⟨k, rfl⟩

/-! ### A failed doorbell read (R91) -/

/-- A failed read counts, and is recorded at most once a second (R91). -/
theorem doorbellFails_spec (b : Nat) (c : Core) :
    let late := tget 0 c.host.dbFail b = 0 ∨ tget 0 c.host.dbFail b + 999 ≤ c.nv.opMs
    ∃ t u, doorbellFails b c = { c with recd := u, host := { c.host with counters := tmod 0 c.host.counters 4 (· + 1), dbFail := t } } ∧
      tget 0 t b = (if late then c.nv.opMs + 1 else tget 0 c.host.dbFail b) ∧
      u = if late then (event 0x010 0x01 [b] c).recd else c.recd := by
  intro late
  have hl : (decide (tget 0 c.host.dbFail b = 0) || decide (tget 0 c.host.dbFail b + 999 ≤ c.nv.opMs)) = true ↔ late := by
    rw [Bool.or_eq_true, decide_eq_true_iff, decide_eq_true_iff]
  by_cases h : late
  · let d : Core := { hpCount 4 c with host.dbFail := tset 0 c.host.dbFail b (c.nv.opMs + 1) }
    have hd : doorbellFails b c = event 0x010 0x01 [b] d := if_pos (hl.mpr h)
    obtain ⟨u, e⟩ := event_only 0x010 0x01 [b] d
    refine ⟨tset 0 c.host.dbFail b (c.nv.opMs + 1), u, by rw [hd, e]; rfl, ?_, ?_⟩
    · rw [if_pos h, tget_tset_same]
    · rw [if_pos h, event_congr 0x010 0x01 [b] c d rfl rfl rfl, e]
  · exact ⟨_, _, if_neg (fun k => h (hl.mp k)), (if_neg h).symm, (if_neg h).symm⟩

/-! ### The choice of the next fetch (R92, R97) -/

section
variable (c : Core)

theorem mayTake_schedule (n : Nat) : mayTake (schedule c) n = mayTake c n := by
  obtain ⟨q, l, k, d, o, e⟩ := schedule_only c
  rw [e]
  exact mayTake_congr _ _ rfl rfl n

theorem flowAt_schedule (n : Nat) : flowAt (schedule c) n = flowAt c n := by
  obtain ⟨q, l, k, d, o, e⟩ := schedule_only c
  rw [e]
  rfl

theorem readMax_schedule : readMax (schedule c) = readMax c := by
  obtain ⟨q, l, k, d, o, e⟩ := schedule_only c
  rw [e]
  rfl

theorem urgentWaits_schedule : urgentWaits (schedule c) = urgentWaits c := by
  obtain ⟨q, l, k, d, o, e⟩ := schedule_only c
  rw [e]
  rfl

/-- Where no fetch has failed since the doorbell data, a flow is served where it may take a descriptor (R92). -/
theorem servable_iff (h : c.host.skip = []) (n : Nat) : servable c n = decide (0 < mayTake c n) := by
  unfold servable
  rw [h]
  exact Bool.and_true _

theorem servable_false (h : c.host.skip = []) (n : Nat) : servable c n = false ↔ mayTake c n = 0 := by
  rw [servable_iff c h, decide_eq_false_iff_not, Nat.not_lt, Nat.le_zero]

end

/-- Where no flow can be served, nothing is fetched (R92). -/
theorem schedule_idle (c : Core) (h : nextFlow c = none) : (schedule c).host.fetchQ = c.host.fetchQ ∧ (schedule c).out = c.out := by
  unfold schedule
  rw [h]
  split <;> exact ⟨rfl, rfl⟩

/-- One read ends at the ring's end, at a 4 KiB boundary or at the read limit of the link, and together they fetch what the flow may
take (R72, R92). -/
def ServesFlow (n : Nat) (out : List Output) (t : Core) : Prop :=
  let f := flowAt t n
  let room (i : U16) := fetchRoom f (readMax t) i
  (∀ e ∈ t.host.fetchQ, e.1 = n ∧ 1 ≤ e.2.2 ∧ e.2.2 ≤ room e.2.1) ∧
  (t.host.fetchQ.map (·.2.2)).sum = mayTake t n ∧
  t.out = .hostRead (f.sqBase + 64 * (f.sh.toNat % f.sqSize)) (64 * min (mayTake t n) (room f.sh)) :: out

/-- Flow `n` goes next: the lowest urgent flow, or else one of the best class (R92). -/
def GoesNext (n : Nat) (t : Core) : Prop :=
  n < 256 ∧ 0 < mayTake t n ∧
  (n < 8 → ∀ m, m < n → mayTake t m = 0) ∧
  (8 ≤ n → (∀ m, m < 8 → mayTake t m = 0) ∧
    ∀ m, 8 ≤ m → m < 256 → 1 ≤ (flowAt t m).cls → (flowAt t m).cls < (flowAt t n).cls → mayTake t m = 0)

theorem nextFlow_goes (c : Core) (n : Nat) (hs : c.host.skip = []) (h : nextFlow c = some n) : GoesNext n c := by
  have := nextFlow_some c n h
  simp only [servable_false c hs] at this
  obtain ⟨h1, h2, h3, h4⟩ := this
  exact ⟨h1, servable_takes h2, h3, h4⟩

theorem goesNext_schedule (c : Core) (n : Nat) : GoesNext n (schedule c) ↔ GoesNext n c := by
  simp only [GoesNext, mayTake_schedule, flowAt_schedule]

theorem servesFlow_schedule (c : Core) (n : Nat) (h1 : c.host.fetchQ = []) (h2 : portUp c = true) (h3 : serves c.sys.mode = true)
    (h4 : c.sys.flush = none) (h5 : n < 8 ∨ urgentWaits c = false) (h : nextFlow c = some n) : ServesFlow n c.out (schedule c) := by
  obtain ⟨hq, ho⟩ := schedule_some c n h1 h2 h3 h4 h5 h
  simp only [ServesFlow, mayTake_schedule, flowAt_schedule, readMax_schedule, hq]
  exact ⟨splitFetch_reads _ _ _ _ _ _, splitFetch_sum _ _ _ _ _ _ (mayTake_le c n), ho⟩

/-- What a round of fetches does, where none is in progress (R92, R97). -/
theorem schedule_serves (c : Core) (hs : c.host.skip = []) (h1 : c.host.fetchQ = []) (h2 : portUp c = true)
    (h3 : serves c.sys.mode = true) (h4 : c.sys.flush = none) :
    ((∀ n, n < 256 → mayTake c n = 0) → (schedule c).host.fetchQ = [] ∧ (schedule c).out = c.out) ∧
    ((∀ n, n < 8 → mayTake c n = 0) → urgentWaits c = true → (schedule c).host.fetchQ = [] ∧ (schedule c).out = c.out) ∧
    ((∃ n, n < 256 ∧ 0 < mayTake c n ∧ (n < 8 ∨ ((flowAt c n).cls = 1 ∨ (flowAt c n).cls = 2 ∨ (flowAt c n).cls = 3))) →
      ((∃ n, n < 8 ∧ 0 < mayTake c n) ∨ urgentWaits c = false) →
      ∃ n, GoesNext n c ∧ ServesFlow n c.out (schedule c)) := by
  cases h : nextFlow c with
  | none =>
    have hi := schedule_idle c h
    rw [h1] at hi
    refine ⟨fun _ => hi, fun _ _ => hi, ?_⟩
    rintro ⟨n, hn, hm, hk⟩ _
    have := (servable_false c hs n).mp (nextFlow_none c h n hn hk)
    omega
  | some n =>
    obtain ⟨g1, g2, g3, g4⟩ := nextFlow_goes c n hs h
    refine ⟨fun k => absurd (k n g1) (by omega), fun k hu => ?_, fun _ ho => ?_⟩
    · have h8 : 8 ≤ n := by
        refine Nat.le_of_not_lt fun hn => absurd (k n ?_) ?_ <;> omega
      have := schedule_held c n h h8 hu
      rwa [h1] at this
    · refine ⟨n, ⟨g1, g2, g3, g4⟩, servesFlow_schedule c n h1 h2 h3 h4 ?_ h⟩
      rcases ho with ⟨m, hm, hp⟩ | hu
      · left
        refine Nat.lt_of_not_le fun hn => absurd ((g4 ?_).1 m hm) ?_ <;> omega
      · exact .inr hu

/-! ### Doorbell data (R83, R88) -/

/-- The core once the words of a block have reached their flows (R83). -/
def blockTaken (b : Fin 16) (d : Bytes) (c : Core) : Core :=
  (List.range 16).foldl (fun c i => takeDoorbell (16 * b.val + i) (field d (4 * i) 4) c) c

/-- Flows whose fetch had failed are served again then (R93). -/
def wordsTaken (b : Fin 16) (d : Bytes) (c : Core) : Core := { blockTaken b d c with host.skip := [] }

theorem wordsTaken_only (b : Fin 16) (d : Bytes) (c : Core) : ∃ t q,
    wordsTaken b d c = { c with host := { c.host with flows := t, fetchQ := q, skip := [] } } ∧ (c.host.fetchQ = [] → q = []) := by
  obtain ⟨⟨t, q, e, hq⟩, _⟩ := takeDoorbells_spec b.val d (List.range 16) c List.nodup_range
  refine ⟨t, q, ?_, hq⟩
  unfold wordsTaken blockTaken
  rw [e]

theorem flowAt_skip (l : List Nat) (c : Core) (m : Nat) : flowAt { c with host.skip := l } m = flowAt c m := rfl

theorem wordsTaken_flow (b : Fin 16) (d : Bytes) (c : Core) (m : Nat) : flowAt (wordsTaken b d c) m =
    if m / 16 = b.val ∧ flowOn (flowAt c m) = true then doorbellFlow (field d (4 * (m % 16)) 4) (flowAt c m) else flowAt c m := by
  have h := (takeDoorbells_spec b.val d (List.range 16) c List.nodup_range).2 m
  have hb : (∃ i, i ∈ List.range 16 ∧ m = 16 * b.val + i) ↔ m / 16 = b.val := by
    simp only [List.mem_range]
    exact ⟨fun ⟨i, hi, e⟩ => by omega, fun e => ⟨m % 16, by omega, by omega⟩⟩
  rw [wordsTaken, flowAt_skip, blockTaken, h]
  by_cases hm : m / 16 = b.val
  · simp only [hb, show m - 16 * b.val = m % 16 by omega]
  · simp only [hb, hm, false_and, if_false]

/-- Doorbell data while flows are not served change nothing (R51). -/
theorem doorbellData_off (b : Fin 16) (d : HostRead) (s : State) (h : serves s.core.sys.mode = false ∨ s.core.sys.inReset = true) :
    Runs (.doorbellData b d) s s := congrArg Host.Outcome.next (if_pos (by rcases h with h | h <;> simp [h]))

theorem doorbellData_none (b : Fin 16) (s : State) (h : serves s.core.sys.mode = true) (hr : s.core.sys.inReset = false) :
    Runs (.doorbellData b none) s { s with core := doorbellFails b s.core } := congrArg Host.Outcome.next (if_neg (by simp [h, hr]))

theorem doorbellData_some (b : Fin 16) (d : Bytes) (s : State) (h : serves s.core.sys.mode = true) (hr : s.core.sys.inReset = false)
    (hd : d.length = 64) : Runs (.doorbellData b (some d)) s { s with core := schedule (wordsTaken b d s.core) } := by
  refine congrArg Host.Outcome.next (Eq.trans (if_neg (by simp [h, hr])) ?_)
  rw [ofLength_same 64 d hd, wordsTaken, blockTaken]

theorem doorbellData_other (b : Fin 16) (d : Bytes) (s t : State) (hd : d.length ≠ 64) :
    Runs (.doorbellData b (some d)) s t ↔ Runs (.doorbellData b none) s t := by
  show execDoorbellData b (some d) s = .next t ↔ execDoorbellData b none s = .next t
  unfold execDoorbellData
  rw [ofLength_other 64 d hd]
  rfl

/-- Settles O53. -/
theorem doorbells : Obligations.Doorbells := by
  unfold Obligations.Doorbells
  refine fun s => ⟨?_, ?_, fun b d => doorbellData_off b d s, fun b d t hd => doorbellData_other b d s t hd, fun hm hr => ⟨fun b => ?_, fun b d hd => ?_⟩⟩
  · refine ⟨{ s with core := pollBlock 0 s.core }, rfl, fun ⟨hb, hp, hm⟩ => ?_, fun h => ?_⟩
    · rw [pollBlock_reads 0 _ hb hp hm]
      rfl
    · cases hb : blockOn s.core 0 with
      | false => rw [pollBlock_idle 0 _ hb]
      | true => rw [pollBlock_off 0 _ fun k => h ⟨hb, k.1, k.2⟩]
  · obtain ⟨k, e⟩ := pollBlocks_spec (List.range 15) s.core
    exact ⟨_, runs_core e (show Runs .doorbellPollNormal s { s with core := (List.range 15).foldl (fun c b => pollBlock (b + 1) c) s.core } from rfl),
      rfl, rfl⟩
  · obtain ⟨t, u, e, ht, hu⟩ := doorbellFails_spec b.val s.core
    refine ⟨_, runs_core e (doorbellData_none b s hm hr), ?_, ⟨ht, hu⟩, rfl⟩
    exact tget_tset_same ..
  · obtain ⟨f, q, e, hq⟩ := wordsTaken_only b d s.core
    obtain ⟨q', l, k, u, o, e'⟩ := schedule_only (wordsTaken b d s.core)
    have hs : (wordsTaken b d s.core).host.skip = [] := rfl
    refine ⟨_, doorbellData_some b d s hm hr hd, ?_⟩
    simp only [mayTake_schedule, flowAt_schedule, readMax_schedule, urgentWaits_schedule]
    refine ⟨fun n hn => ?_, fun n hn hf => ?_, ?_, fun h1 h2 h4 => ?_, ?_⟩
    · rw [wordsTaken_flow, if_neg]
      rintro ⟨k1, k2⟩
      rcases hn with hn | hn
      · exact hn k1
      · rw [hn] at k2; cases k2
    · rw [wordsTaken_flow, if_pos ⟨hn, hf⟩]
      rfl
    · rw [e']
      exact hs
    · have := schedule_serves (wordsTaken b d s.core) hs (by rw [e]; exact hq h1) (by rw [e]; exact h2) (by rw [e]; exact hm) (by rw [e]; exact h4)
      simp only [ServesFlow, mayTake_schedule, flowAt_schedule, readMax_schedule] at this
      have ho : (wordsTaken b d s.core).out = s.core.out := by rw [e]
      rw [ho] at this
      obtain ⟨a1, a2, a3⟩ := this
      refine ⟨a1, a2, fun x y => ?_⟩
      obtain ⟨n, ⟨g1, g2, g3, g4⟩, hv⟩ := a3 x y
      exact ⟨n, g1, g2, g3, g4, hv⟩
    · rw [e', e]

end Sys2Proof.Machine
end

section
/-! SUPPORT. Answers to descriptor fetches, the checks of a descriptor and completion entries (R80 to R97, R106 to R111). -/

namespace Sys2Proof.Machine

/-! ### Answers to a fetch (R75, R93, R111) -/

theorem wholeFetch_none : wholeFetch none = none := rfl

/-- A descriptor of another length makes the fetch a failed one (log 9). -/
theorem wholeFetch_other (l : List Fetched) (h : ∃ x ∈ l, x.desc.length ≠ 64) : wholeFetch (some l) = none := by
  obtain ⟨x, hx, hl⟩ := h
  have : (l.all fun x => x.desc.length == 64) = false := List.all_eq_false.mpr ⟨x, hx, by simpa using hl⟩
  unfold wholeFetch
  rw [Option.filter_some, this]
  rfl

theorem wholeFetch_whole (l : List Fetched) (h : ∀ x ∈ l, x.desc.length = 64) :
    wholeFetch (some l) = some (l.map fun x => { x with auth := ofLength 128 x.auth }) := by
  have : (l.all fun x => x.desc.length == 64) = true := List.all_eq_true.mpr fun x hx => by simpa using h x hx
  unfold wholeFetch
  rw [Option.filter_some, this]
  rfl

/-- An authorisation block of 128 bytes is taken as it is (R108). -/
theorem wholeFetch_one (x : Fetched) (h : x.desc.length = 64) (ha : ∀ b, x.auth = some b → b.length = 128) :
    wholeFetch (some [x]) = some [x] := by
  have hx : ofLength 128 x.auth = x.auth := by
    cases hb : x.auth with
    | none => rfl
    | some b => exact ofLength_same 128 b (ha b hb)
  rw [wholeFetch_whole [x] (by simpa using h), List.map_singleton, hx]

theorem descriptorFetch_runs (items : Option (List Fetched)) (s : State) (h : s.core.sys.inReset = false) :
    Runs (.descriptorFetch items) s { s with core := takeFetch (wholeFetch items) s.core } :=
  congrArg Host.Outcome.next (if_neg (by simp [h]))

/-- Where no fetch is under way, an answer changes nothing (log 9). -/
theorem takeFetch_idle (items : Option (List Fetched)) (c : Core) (h : c.host.fetchQ = []) : takeFetch items c = c := by
  unfold takeFetch
  rw [h]

theorem takeFetch_short (l : List Fetched) (c : Core) (n k : Nat) (i : U16) (rest : List (Nat × U16 × Nat))
    (hq : c.host.fetchQ = (n, i, k) :: rest) (h : l.length ≠ k) : takeFetch (some l) c = c := by
  unfold takeFetch
  rw [hq]
  exact if_neg h

theorem takeFetch_fails (c : Core) (n k : Nat) (i : U16) (rest : List (Nat × U16 × Nat)) (hq : c.host.fetchQ = (n, i, k) :: rest) :
    takeFetch none c = fetchFails n c := by
  unfold takeFetch
  rw [hq]

theorem takeFetch_one (x : Fetched) (c : Core) (n : Nat) (i : U16) (hq : c.host.fetchQ = [(n, i, 1)]) :
    takeFetch (some [x]) c = schedule { takeDesc n x c with host.fetchQ := [] } := by
  unfold takeFetch
  rw [hq]
  rfl

/-! ### A failed fetch (R93) -/

/-- The flow after a failed fetch: the third failure is ERROR 8 (R93). -/
def failedFetch (f : FlowSt) : FlowSt :=
  if f.fails < 2 then { f with fails := f.fails + 1 } else { f with fails := 0, state := .error, cause := 8 }

/-- The core that the next service is chosen in (R93). -/
def fetchDropped (n : Nat) (c : Core) : Core :=
  setFlow n (failedFetch (flowAt c n)) (hpCount 12 { c with host.fetchQ := [], host.skip := n :: c.host.skip })

theorem setFlow_setFlow (n : Nat) (f g : FlowSt) (c : Core) (m : Nat) :
    flowAt (setFlow n g (setFlow n f c)) m = flowAt (setFlow n g c) m := by
  simp only [flowAt_setFlow]
  split <;> rfl

/-- A failed fetch leaves every index, counts, and lets the next service be chosen (R93). -/
theorem fetchFails_spec (n : Nat) (c : Core) : ∃ t, (∀ m, flowAt { c with host.flows := t } m = if n = m then failedFetch (flowAt c n) else flowAt c m) ∧
    fetchFails n c = schedule { c with host := { c.host with
      flows := t, fetchQ := [], skip := n :: c.host.skip, counters := tmod 0 c.host.counters 12 (· + 1) } } := by
  let d := hpCount 12 { c with host.fetchQ := [], host.skip := n :: c.host.skip }
  by_cases h : (flowAt c n).fails < 2
  · refine ⟨(setFlow n { flowAt c n with fails := (flowAt c n).fails + 1 } d).host.flows, fun m => ?_, ?_⟩
    · rw [failedFetch, if_pos h]
      exact flowAt_setFlow d n m _
    · exact congrArg schedule (if_neg (show ¬ 3 ≤ (flowAt c n).fails + 1 by omega))
  · have he : flowError n 8 (setFlow n { flowAt c n with fails := 0 } d) =
        setFlow n { flowAt c n with fails := 0, state := .error, cause := 8 } (setFlow n { flowAt c n with fails := 0 } d) := by
      rw [flowError, flowAt_setFlow, if_pos rfl]
    refine ⟨(flowError n 8 (setFlow n { flowAt c n with fails := 0 } d)).host.flows, fun m => ?_, ?_⟩
    · rw [failedFetch, if_neg h, he]
      exact (setFlow_setFlow n { flowAt c n with fails := 0 } { flowAt c n with fails := 0, state := .error, cause := 8 } d m).trans
        (flowAt_setFlow d n m { flowAt c n with fails := 0, state := .error, cause := 8 })
    · exact congrArg schedule (if_pos (show 3 ≤ (flowAt c n).fails + 1 by omega))

/-- A flow whose fetch has failed is not served again before the next doorbell data (log 32). -/
theorem servable_skip (c : Core) (n m : Nat) (hn : n ∈ c.host.skip) (h : servable c m = true) : m ≠ n := by
  rintro rfl
  unfold servable at h
  simp [hn] at h

/-! ### The checks (R106 to R111) -/

/-- A descriptor whose CRC fails is rejected with status 0x10 (R111). -/
theorem checkDesc_crc (c : Core) (n : Nat) (x : Fetched) (h : field x.desc 60 4 ≠ crc32c (slice x.desc 0 60)) :
    checkDesc c n x = (.reject 0x10 0, none) := by
  have : checkFirst c x.desc = .reject 0x10 0 := by
    unfold checkFirst
    dsimp only
    rw [firstFail.eq_2, if_neg (by simpa using h)]
  unfold checkDesc
  rw [this]

/-- What an accepted descriptor has passed before its authorisation (R111). -/
theorem checkFirst_accept (c : Core) (d : Bytes) (h : checkFirst c d = .accept) :
    (∃ i, opInfo (byteAt d 0) = some i ∧ i.modes.contains c.sys.mode = true ∧ (c.sys.mode = .shadow → i.kind = .read)) ∧
    (bitOf (byteAt d 1) 0 = true → field d 2 2 = c.nv.epoch.toNat) := by
  have all := firstFail_accept _ h
  simp only [List.mem_cons, List.not_mem_nil, or_false, forall_eq_or_imp, forall_eq] at all
  obtain ⟨_, _, hop, hep, hsh, hmd⟩ := all
  obtain ⟨i, hi⟩ := Option.isSome_iff_exists.mp hop
  rw [hi] at hsh hmd
  simp only [Bool.and_eq_true, Option.any_some, Option.map_some] at hmd hsh
  refine ⟨⟨i, hi, hmd.1, fun hm => ?_⟩, fun hb => ?_⟩
  · simpa [hm] using hsh
  · simpa [hb] using hep

/-- What an accepted descriptor has passed after its authorisation (R111). -/
theorem checkLast_accept (c : Core) (n : Nat) (d : Bytes) (h : checkLast c n d = .accept) :
    opRange d = none ∧ lockedPortal c d = none ∧ (flowAt c n).quota ≠ 0 ∧ conflicts c d = false := by
  unfold checkLast at h
  have ho : opRange d = none := by
    cases hr : opRange d with
    | none => rfl
    | some o => unfold operandCheck at h; rw [hr] at h; cases h
  cases hc : operandCheck c d with
  | reject a b => rw [hc] at h; cases h
  | accept =>
    rw [hc] at h
    cases hl : lockedPortal c d with
    | some p => rw [hl] at h; cases h
    | none =>
      rw [hl] at h
      have all := firstFail_accept _ h
      simp only [List.mem_cons, List.not_mem_nil, or_false, forall_eq_or_imp, forall_eq] at all
      obtain ⟨hq, hf⟩ := all
      exact ⟨ho, rfl, by simpa using hq, by simpa using hf⟩

/-! ### Completions (R80, R85, R86, R95, R97, R110) -/

theorem completionWrite_runs (s : State) (h : s.core.sys.inReset = false) :
    Runs .completionWrite s { s with core := resumeFetch (writeCompletion s.core) } := congrArg Host.Outcome.next (if_neg (by simp [h]))

/-- A slot that is free stays free when the fetches go on (R97). -/
theorem slotAt_resumeFetch (c : Core) (m : Nat) : slotAt (resumeFetch c) m = slotAt c m := by
  obtain ⟨q, l, k, d, o, e, -⟩ := resumeFetch_only c
  rw [e]
  rfl

/-- What can become of a completion that waits: it stays, or its slot is released (R85, R95). -/
theorem writeCompletion_slot (c : Core) (m : Nat) (h : slotAt (discardStale c) m = none) : slotAt (writeCompletion c) m = none := by
  unfold writeCompletion
  dsimp only
  generalize discardStale c = d at h
  split
  · exact h
  · cases nextCompletion d with
    | none => exact h
    | some y =>
      obtain ⟨k, x, e⟩ := y
      dsimp only
      rw [slotAt_setSlot]
      split
      · rfl
      · obtain ⟨o, ho⟩ := hostWrite_only ((flowAt d x.flow).cqBase + 32 * ((flowAt d x.flow).ct.toNat % (flowAt d x.flow).cqSize))
          (completionBytes x e (flowAt d x.flow).sh (flowAt d x.flow).ct (flowAt d x.flow).cqSize) (hpCount 16 d)
        rw [ho]
        exact h

/-- A completion of a flow that was disabled or loaded since is discarded (R80). -/
theorem discardStale_slot (c : Core) (k : Nat) (x : SlotSt) (e : DoneSt) (h : slotAt c k = some x) (hd : x.done = some e)
    (hg : (flowAt c x.flow).gen ≠ x.gen) : slotAt (discardStale c) k = none :=
  (discard_fold (finished c) c c rfl).2.2 (k, x, e) (mem_finished c k x e h hd) (by simpa [stale] using hg)

theorem discardStale_none (c : Core) (h : ∀ y, y ∈ finished c → stale c y.2.1 = false) : discardStale c = c := discard_none _ c h

theorem writeCompletion_waits (c : Core) (hs : ∀ y, y ∈ finished c → stale c y.2.1 = false)
    (h : portUp c = false ∨ c.sys.flush ≠ none ∨ nextCompletion c = none) : writeCompletion c = c := by
  unfold writeCompletion
  rw [discardStale_none c hs]
  rcases h with h | h | h
  · exact if_pos (by simp [h])
  · exact if_pos (by simp [Option.isSome_iff_ne_none.mpr h])
  · dsimp only
    rw [h]
    exact ite_self _

section
variable (x : SlotSt) (e : DoneSt) (sh ct : U16) (size : Nat)

theorem slice_length (b : Bytes) (o n : Nat) : (slice b o n).length = n := by
  unfold slice
  simp only [List.length_append, List.length_take, List.length_replicate, List.length_drop]
  omega

theorem completionBytes_length : (completionBytes x e sh ct size).length = 32 := by
  simp [completionBytes, slice_length, toLe_length]

/-- The fields of a completion in their order (R110). -/
theorem completionBytes_fields : completionBytes x e sh ct size =
    slice x.desc 4 4 ++ (toLe 2 x.sqIndex.toNat ++ (toLe 1 x.fEpoch ++ (toLe 1 e.status ++
      (toLe 1 (if x.crcBad then 0 else byteAt x.desc 0) ++ (toLe 1 e.detail ++ (toLe 2 e.epoch.toNat ++ (toLe 4 e.r0 ++ (toLe 4 e.r1 ++
        (toLe 8 e.stamp.toNat ++ (toLe 2 sh.toNat ++ (toLe 1 0 ++ (toLe 1 (if bitOf ct.toNat size.log2 then 0 else 128) ++ [])))))))))))) := by
  simp only [completionBytes, List.append_assoc, List.append_nil]
  rfl

theorem completion_skip (b : Bytes) (o n : Nat) : field (slice x.desc 4 4 ++ b) (4 + o) n = field b o n :=
  field_skip _ b 4 n o (slice_length ..)

/-- The layout of a completion (R86, R110). -/
def CompletionLaid (b : Bytes) : Prop :=
  slice b 0 4 = slice x.desc 4 4 ∧ field b 4 2 = x.sqIndex.toNat ∧ field b 6 1 = x.fEpoch % 256 ∧ field b 7 1 = e.status % 256 ∧
  field b 8 1 = (if x.crcBad then 0 else byteAt x.desc 0) ∧ field b 9 1 = e.detail % 256 ∧ field b 10 2 = e.epoch.toNat ∧
  field b 12 4 = e.r0 % 2 ^ 32 ∧ field b 16 4 = e.r1 % 2 ^ 32 ∧ field b 20 8 = e.stamp.toNat ∧
  field b 28 2 = sh.toNat ∧ field b 31 1 = (if bitOf ct.toNat size.log2 then 0 else 128)

theorem byteAt_lt (b : Bytes) (i : Nat) : byteAt b i < 256 := (b.getD i 0).isLt

theorem completionBytes_laid : CompletionLaid x e sh ct size (completionBytes x e sh ct size) := by
  have hop : (if x.crcBad then 0 else byteAt x.desc 0) < 256 := by
    split
    · decide
    · exact byteAt_lt ..
  have hph : (if bitOf ct.toNat size.log2 then 0 else 128) < 256 := by split <;> decide
  unfold CompletionLaid
  rw [completionBytes_fields]
  refine ⟨slice_head _ _ 4 (slice_length ..), ?_, ?_, ?_, ?_, ?_, ?_, ?_, ?_, ?_, ?_, ?_⟩
  · exact (completion_skip x _ 0 2).trans ((field_head 2 _ _).trans (Nat.mod_eq_of_lt x.sqIndex.isLt))
  · show field _ (4 + (2 + 0)) 1 = _
    rw [completion_skip, field_toLe_skip]
    exact field_head ..
  · show field _ (4 + (2 + (1 + 0))) 1 = _
    rw [completion_skip]
    repeat rw [field_toLe_skip]
    exact field_head ..
  · show field _ (4 + (2 + (1 + (1 + 0)))) 1 = _
    rw [completion_skip]
    repeat rw [field_toLe_skip]
    exact (field_head ..).trans (Nat.mod_eq_of_lt hop)
  · show field _ (4 + (2 + (1 + (1 + (1 + 0))))) 1 = _
    rw [completion_skip]
    repeat rw [field_toLe_skip]
    exact field_head ..
  · show field _ (4 + (2 + (1 + (1 + (1 + (1 + 0)))))) 2 = _
    rw [completion_skip]
    repeat rw [field_toLe_skip]
    exact (field_head ..).trans (Nat.mod_eq_of_lt e.epoch.isLt)
  · show field _ (4 + (2 + (1 + (1 + (1 + (1 + (2 + 0))))))) 4 = _
    rw [completion_skip]
    repeat rw [field_toLe_skip]
    exact field_head ..
  · show field _ (4 + (2 + (1 + (1 + (1 + (1 + (2 + (4 + 0)))))))) 4 = _
    rw [completion_skip]
    repeat rw [field_toLe_skip]
    exact field_head ..
  · show field _ (4 + (2 + (1 + (1 + (1 + (1 + (2 + (4 + (4 + 0))))))))) 8 = _
    rw [completion_skip]
    repeat rw [field_toLe_skip]
    exact (field_head ..).trans (Nat.mod_eq_of_lt e.stamp.isLt)
  · show field _ (4 + (2 + (1 + (1 + (1 + (1 + (2 + (4 + (4 + (8 + 0)))))))))) 2 = _
    rw [completion_skip]
    repeat rw [field_toLe_skip]
    exact (field_head ..).trans (Nat.mod_eq_of_lt sh.isLt)
  · show field _ (4 + (2 + (1 + (1 + (1 + (1 + (2 + (4 + (4 + (8 + (2 + (1 + 0)))))))))))) 1 = _
    rw [completion_skip]
    repeat rw [field_toLe_skip]
    exact (field_head ..).trans (Nat.mod_eq_of_lt hph)

end

/-- The completion that goes is written into the free entry at the tail, and its slot released (R85, R86, R95). -/
theorem writeCompletion_writes (c : Core) (k : Nat) (x : SlotSt) (e : DoneSt) (hs : ∀ y, y ∈ finished c → stale c y.2.1 = false)
    (hn : nextCompletion c = some (k, x, e)) (hp : portUp c = true) (hf : c.sys.flush = none) :
    let f := flowAt c x.flow
    ∃ fl sl n, writeCompletion c = { c with
      host := { c.host with flows := fl, slots := sl, counters := n }
      out := .hostWrite (f.cqBase + 32 * (f.ct.toNat % f.cqSize)) (completionBytes x e f.sh f.ct f.cqSize) :: c.out } ∧
    (∀ m, tget {} fl m = if x.flow = m then { f with ct := f.ct + 1 } else flowAt c m) ∧
    ∀ m, tget none sl m = if k = m then none else slotAt c m := by
  intro f
  have hl := completionBytes_length x e f.sh f.ct f.cqSize
  refine ⟨_, _, (hpCount 16 c).host.counters, ?_, fun m => flowAt_setFlow c x.flow m { f with ct := f.ct + 1 }, fun m => slotAt_setSlot k m none c⟩
  unfold writeCompletion
  rw [discardStale_none c hs]
  dsimp only
  rw [if_neg (by simp [hp, hf]), hn]
  dsimp only
  rw [hostWrite_one _ _ (hpCount 16 c) hp (fun h => by rw [h] at hl; cases hl) (Nat.le_trans (Nat.le_of_eq hl) (by decide))]
  rfl

/-- Settles O54. -/
theorem descriptorsAndCompletions : Obligations.DescriptorsAndCompletions := by
  unfold Obligations.DescriptorsAndCompletions
  refine fun s => ⟨fun h items => ?_, fun l t h => ?_, fun n i k rest hr hq => ⟨fun l hl hk => ?_, ?_, ?_⟩, fun n x => ⟨checkDesc_crc _ n x, ?_, ?_⟩,
    fun h => congrArg Host.Outcome.next (if_pos h), fun hr => ⟨fun k x e h hd hg => ?_, fun hs => ⟨fun h => ?_, ?_⟩⟩⟩
  · cases hr : s.core.sys.inReset with
    | true => exact congrArg Host.Outcome.next (if_pos hr)
    | false => exact runs_core (takeFetch_idle _ _ (h.resolve_left (by simp [hr]))) (descriptorFetch_runs items s hr)
  · show execDescriptorFetch (some l) s = .next t ↔ execDescriptorFetch none s = .next t
    unfold execDescriptorFetch
    rw [wholeFetch_other l h, wholeFetch_none]
  · have := descriptorFetch_runs (some l) s hr
    rw [wholeFetch_whole l hl] at this
    exact runs_core (takeFetch_short _ s.core n k i rest hq (by simpa using hk)) this
  · obtain ⟨t, ht, e⟩ := fetchFails_spec n s.core
    have hrun := runs_core ((takeFetch_fails s.core n k i rest hq).trans e) (descriptorFetch_runs none s hr)
    obtain ⟨q, l, k', d, o, e'⟩ := schedule_only { s.core with host := { s.core.host with
      flows := t, fetchQ := [], skip := n :: s.core.host.skip, counters := tmod 0 s.core.host.counters 12 (· + 1) } }
    have hsr := schedule_reads { s.core with host := { s.core.host with
      flows := t, fetchQ := [], skip := n :: s.core.host.skip, counters := tmod 0 s.core.host.counters 12 (· + 1) } } rfl
    rw [e'] at hrun hsr
    refine ⟨_, hrun, fun y hy => servable_skip _ n y.1 (List.mem_cons_self ..) (hsr y hy), rfl, ?_, fun m hm => ?_, rfl, rfl⟩
    · exact (ht n).trans (if_pos rfl)
    · exact (ht m).trans (if_neg (Ne.symm hm))
  · intro x j hk hrest hx ha hj
    subst hk hrest
    have hrun := descriptorFetch_runs (some [x]) s hr
    rw [wholeFetch_one x hx ha, takeFetch_one x s.core n i hq] at hrun
    obtain ⟨⟨g, e⟩, h1, h2, h3, y, h4, hy⟩ := takeDesc_spec n j x s.core hj
    obtain ⟨q, l, k', d, o, e'⟩ := schedule_only { takeDesc n x s.core with host.fetchQ := [] }
    rw [e'] at hrun
    refine ⟨_, hrun, h1, h2, h3, ?_, ⟨y, h4, hy⟩, ?_⟩
    · rw [e]
    · rw [e]
  · intro a hacc hsnd
    obtain ⟨-, hau, -, he⟩ := check_accept _ n x hacc
    exact (authCheck_accept _ x hau).2 a (he ▸ hsnd)
  · intro hacc
    obtain ⟨hfi, hau, hla, -⟩ := check_accept _ n x hacc
    obtain ⟨f1, f2⟩ := checkFirst_accept _ _ hfi
    exact ⟨f1, f2, (authCheck_accept _ x hau).1, checkLast_accept _ n _ hla⟩
  · exact ⟨_, completionWrite_runs s hr, (slotAt_resumeFetch _ k).trans (writeCompletion_slot _ k (discardStale_slot _ k x e h hd hg))⟩
  · have hrun := completionWrite_runs s hr
    rw [writeCompletion_waits _ hs h] at hrun
    obtain ⟨q, l, k, d, o, e, hdue⟩ := resumeFetch_only s.core
    refine ⟨_, hrun, fun hf => by rw [(hdue hf).1], ?_⟩
    rw [e]
  · intro k x e hn hp hf f
    obtain ⟨-, hfree, hord⟩ := next_spec _ k x e hs hn
    obtain ⟨fl, sl, cn, ew, hfl, hsl⟩ := writeCompletion_writes _ k x e hs hn hp hf
    have hrun := completionWrite_runs s hr
    rw [ew] at hrun
    have hb := completionBytes_length x e f.sh f.ct f.cqSize
    obtain ⟨b1, b2, b3, b4, b5, b6, b7, b8, b9, b10, b11, b12⟩ := completionBytes_laid x e f.sh f.ct f.cqSize
    change Runs .completionWrite s { s with core := resumeFetch { s.core with
      host := { s.core.host with flows := fl, slots := sl, counters := cn }
      out := .hostWrite (f.cqBase + 32 * (f.ct.toNat % f.cqSize)) (completionBytes x e f.sh f.ct f.cqSize) :: s.core.out } } at hrun
    generalize completionBytes x e f.sh f.ct f.cqSize = b at *
    obtain ⟨q, l, k', d, o, e', hdue⟩ := resumeFetch_only { s.core with
      host := { s.core.host with flows := fl, slots := sl, counters := cn }
      out := .hostWrite (f.cqBase + 32 * (f.ct.toNat % f.cqSize)) b :: s.core.out }
    rw [e'] at hrun
    refine ⟨of_decide_eq_true hfree, hord, _, b, o, hrun, fun h => (hdue h).2, rfl,
      hb, b1, b2, b3, b4, b5, b6, b7, b8, b9, b10, b11, b12, ?_, ?_, ?_, ?_, rfl⟩
    · exact (hfl x.flow).trans (if_pos rfl)
    · exact (hsl k).trans (if_pos rfl)
    · exact fun m hm => (hfl m).trans (if_neg (Ne.symm hm))
    · exact fun m hm => (hsl m).trans (if_neg (Ne.symm hm))

end Sys2Proof.Machine
end

section
/-! SUPPORT. Operations that only report (R48, R94, R107, R115, R120, R122, R408, R435, R436, R461). -/

namespace Sys2Proof.Machine

/-! ### Commands that start nothing, and those that deliver (R94) -/

theorem runs_idle {i : Instr} {k op : Nat} {f : Bytes → Core → Core} {s : State} (hi : Runs i s { s with core := startOp k op f s.core })
    (h : ∀ x, ¬ Ready k op x s.core) : Runs i s s := by
  rw [startOp_idle k op f s.core h] at hi
  exact hi

theorem runs_idleS {i : Instr} {k op : Nat} {f : Bytes → State → State} {s : State} (hi : Runs i s (startOpS k op f s))
    (h : ∀ x, ¬ Ready k op x s.core) : Runs i s s := by
  rw [startOpS_idle k op f s h] at hi
  exact hi

theorem runs_readyS {i : Instr} {k op : Nat} {f : Bytes → State → State} {s : State} {x : SlotSt} (hx : Ready k op x s.core)
    (hi : Runs i s (startOpS k op f s)) : Runs i s (f x.desc { s with core := begun k x s.core }) := by
  rw [startOpS_begun k op f s x hx] at hi
  exact hi

/-- The command starts the operation of opcode `op` in slot `k`, where that may start (R94). -/
def Starts (i : Instr) (k op : Nat) : Prop :=
  (∃ f, ∀ s, Runs i s { s with core := startOp k op f s.core }) ∨ ∃ f, ∀ s, Runs i s (startOpS k op f s)

/-- Nothing starts where nothing is ready (R94). -/
theorem Starts.idle {i : Instr} {k op : Nat} (hi : Starts i k op) (s : State) (h : ∀ x, ¬ Ready k op x s.core) : Runs i s s := by
  rcases hi with ⟨f, hf⟩ | ⟨f, hf⟩
  · exact runs_idle (hf s) h
  · exact runs_idleS (hf s) h

section
variable (k : Fin 512)

theorem starts_echo : Starts (.echo k) k 0x01 := .inl ⟨_, fun _ => rfl⟩
theorem starts_portalRequest : Starts (.portalRequest k) k 0x10 := .inl ⟨_, fun _ => rfl⟩
theorem starts_portalStop : Starts (.portalStop k) k 0x11 := .inl ⟨_, fun _ => rfl⟩
theorem starts_carRequest : Starts (.carRequest k) k 0x12 := .inl ⟨_, fun _ => rfl⟩
theorem starts_setFlags : Starts (.setFlags k) k 0x18 := .inl ⟨_, fun _ => rfl⟩
theorem starts_loadConfig : Starts (.loadConfig k) k 0x20 := .inr ⟨_, fun _ => rfl⟩
theorem starts_loadProgram : Starts (.loadProgram k) k 0x21 := .inl ⟨_, fun _ => rfl⟩
theorem starts_camDirectory : Starts (.camDirectory k []) k 0x22 := .inl ⟨_, fun _ => rfl⟩
theorem starts_camPrefetch : Starts (.camPrefetch k) k 0x23 := .inl ⟨_, fun _ => rfl⟩
theorem starts_camPin : Starts (.camPin k) k 0x24 := .inl ⟨_, fun _ => rfl⟩
theorem starts_camUnpin : Starts (.camUnpin k) k 0x25 := .inl ⟨_, fun _ => rfl⟩
theorem starts_journalRead : Starts (.journalRead k) k 0x30 := .inr ⟨_, fun _ => rfl⟩
theorem starts_statsRead : Starts (.statsRead k) k 0x31 := .inl ⟨_, fun _ => rfl⟩
theorem starts_timeAnnotate : Starts (.timeAnnotate k) k 0x32 := .inl ⟨_, fun _ => rfl⟩
theorem starts_manualMove : Starts (.manualMove k) k 0x38 := .inl ⟨_, fun _ => rfl⟩
theorem starts_learnBaseline : Starts (.learnBaseline k) k 0x40 := .inl ⟨_, fun _ => rfl⟩
theorem starts_fieldForce : Starts (.fieldForce k) k 0x48 := .inl ⟨_, fun _ => rfl⟩
theorem starts_lockoutReset : Starts (.lockoutReset k) k 0x50 := .inl ⟨_, fun _ => rfl⟩
theorem starts_roleRequest : Starts (.roleRequest k) k 0x58 := .inl ⟨_, fun _ => rfl⟩
theorem starts_keyInstall : Starts (.keyInstall k) k 0x60 := .inr ⟨_, fun _ => rfl⟩
theorem starts_lifecycleAdvance : Starts (.lifecycleAdvance k) k 0x61 := .inr ⟨_, fun _ => rfl⟩
theorem starts_certRead : Starts (.certRead k) k 0x62 := .inr ⟨_, fun _ => rfl⟩
theorem starts_selftestRun : Starts (.selftestRun k) k 0x70 := .inr ⟨_, fun _ => rfl⟩
theorem starts_diagRead : Starts (.diagRead k) k 0x7F := .inr ⟨_, fun _ => rfl⟩

end

/-! ### The end of a delivery that has written data -/

section
variable (k : Nat) (x : SlotSt) (st d r0 r1 : Nat) (c : Core)

/-- What is written over the port, and whether it is, rests on the port alone (R98). -/
theorem hostWrite_out (a : Nat) (b : Bytes) : hostWrite a b c = { c with
    out := (if portUp c = true then ((bulkPieces a b).map fun e => Output.hostWrite e.1 e.2).reverse else []) ++ c.out } := by
  have pieces : ∀ (l : List (Nat × Bytes)) (c : Core), l.foldl (fun c e => emit (.hostWrite e.1 e.2) c) c =
      { c with out := (l.map fun e => Output.hostWrite e.1 e.2).reverse ++ c.out } := by
    intro l
    induction l with
    | nil => exact fun c => rfl
    | cons e l ih => exact fun c => (ih _).trans (by simp [emit])
  unfold hostWrite
  split
  · exact pieces _ _
  · rfl

/-- A delivery that writes its data and then ends (R94, R115). -/
theorem endsOp_written (a : Nat) (b : Bytes) (hk : k < 512) (hd : x.done = none) :
    EndsOp k x st d r0 r1 (hostWrite a b c) (finish k st d r0 r1 (hostWrite a b (begun k x c))) := by
  refine ends_op k x st d r0 r1 _ _ hk hd ?_
  rw [carryOp_congr x.desc (hostWrite a b c) c (by rw [hostWrite_out]), hostWrite_out, hostWrite_out, begun_eq]
  rfl

theorem begun_free (u : Nat) : { begun k x c with free := u } = begun k x { c with free := u } := by
  rw [begun_eq, begun_eq, carryOp_congr x.desc { c with free := u } c rfl]

theorem begun_counted (u : Nat) (v : Table U32) :
    { begun k x c with free := u, host := { (begun k x c).host with counters := v } } =
      begun k x { c with free := u, host := { c.host with counters := v } } := by
  rw [begun_eq, begun_eq, carryOp_congr x.desc { c with free := u, host := { c.host with counters := v } } c rfl]

theorem begun_deferred : { begun k x c with sys.deferred := true } = begun k x { c with sys.deferred := true } := by
  rw [begun_eq, begun_eq, carryOp_congr x.desc { c with sys.deferred := true } c rfl]

/-- The end of an operation leaves the reset that is owed (R61). -/
theorem finish_deferred : { finish k st d r0 r1 c with sys.deferred := true } = finish k st d r0 r1 { c with sys.deferred := true } := by
  unfold finish
  have hs : slotAt { c with sys.deferred := true } k = slotAt c k := rfl
  rw [hs]
  cases slotAt c k with
  | none => rfl
  | some x =>
    dsimp only
    split
    · rfl
    · split <;> rfl

end

/-! ### Data that is read (R408, R435, R461) -/

theorem flatten_length {α : Type} (f : α → Bytes) (n : Nat) (h : ∀ a, (f a).length = n) (l : List α) :
    (l.map f).flatten.length = n * l.length := by
  induction l with
  | nil => rfl
  | cons a r ih => rw [List.map_cons, List.flatten_cons, List.length_append, h, ih, List.length_cons, Nat.mul_succ, Nat.add_comm]

theorem statBytes_length (c : Core) (p area : Nat) : (statBytes c p area).length = if area = 0 then 4096 else 1024 := by
  unfold statBytes
  rw [flatten_length _ 4 fun _ => toLe_length ..]
  split <;> simp

/-- The data of an item other than the host port's are read as they are (R102). -/
theorem diagItem_rest (n : Nat) (s : State) : ∃ u v, (diagItem n s).2 =
    { s with core := { s.core with free := u, host := { s.core.host with counters := v } } } ∧
    (n ≠ 1 → u = s.core.free ∧ v = s.core.host.counters) := by
  unfold diagItem
  split
  · exact ⟨_, _, rfl, fun h => absurd rfl h⟩
  all_goals exact ⟨_, _, rfl, fun _ => ⟨rfl, rfl⟩⟩

theorem journalDeliver_rest (k : Nat) (d : Bytes) (s : State) (c : Core) : journalDeliver k d { s with core := c } =
    { s with core := (journalDeliver k d { s with core := c }).core } := by
  unfold journalDeliver
  dsimp only
  split
  · rfl
  · split <;> rfl

section
variable (k : Nat) (d : Bytes) (s : State)

/-- A read of no records, or into no space, gives the pointer (R435). -/
theorem journalDeliver_pointers (h : field d 16 4 = 0 ∨ opLen d = 0) :
    journalDeliver k d s = { s with core := finish k 0x00 0 0 (storeW s.store (byteAt d 8)) s.core } :=
  if_pos (by simpa using h)

/-- A range beyond the pointer holds no record (R435). -/
theorem journalDeliver_notFound (hc : field d 16 4 ≠ 0) (hl : opLen d ≠ 0) (hw : storeW s.store (byteAt d 8) ≤ field d 12 4) :
    journalDeliver k d s = { s with core := finish k 0x61 0 0 (storeW s.store (byteAt d 8)) s.core } :=
  (if_neg (by simp [hc, hl])).trans (if_pos hw)

/-- The records of a range, as far as it is written (R435). -/
theorem journalDeliver_records (hc : field d 16 4 ≠ 0) (hl : opLen d ≠ 0) (hw : field d 12 4 < storeW s.store (byteAt d 8)) :
    let w := storeW s.store (byteAt d 8)
    let n := min (field d 12 4 + field d 16 4) w - field d 12 4
    journalDeliver k d s = { s with
      core := (finish k (if n < field d 16 4 then 0x01 else 0x00) (if n < field d 16 4 then 0x02 else 0) n w
        (hostWrite (opAddr d) ((List.range n).map fun i => storeSlot s.store (byteAt d 8) (field d 12 4 + i)).flatten s.core)) } := by
  intro w n
  refine (if_neg (by simp [hc, hl])).trans ((if_neg (Nat.not_le.mpr hw)).trans ?_)
  dsimp only
  by_cases hn : n < field d 16 4
  · rw [if_pos hn, if_pos hn, if_pos hn]
  · rw [if_neg hn, if_neg hn, if_neg hn]

end

theorem certDeliver_rest (k : Nat) (d : Bytes) (s : State) (c : Core) : certDeliver k d { s with core := c } =
    { s with core := (certDeliver k d { s with core := c }).core } := by
  unfold certDeliver
  split <;> rfl

/-- The signature of a certificate that is read, and zeros where the unit has no identity key (R461). -/
def certSig (s : State) : Bytes :=
  if s.onyx.identity.isEmpty then List.replicate 64 0 else ecdsaSign s.onyx.identity (sha256 (certHead s)) (drawNoise s.core).1

/-- CERT_READ writes the head, the signature and the certificate (R461). -/
theorem certDeliver_begun (k : Nat) (x : SlotSt) (s : State) (h : opLen x.desc ≠ 0) :
    (certDeliver k x.desc { s with core := begun k x s.core }).core =
      finish k 0x00 0 s.core.nv.cert.length 0 (hostWrite (opAddr x.desc) (certHead s ++ certSig s ++ padTo 832 s.core.nv.cert)
        (begun k x { s.core with free := if s.onyx.identity = [] then s.core.free else s.core.free + 1 })) := by
  have hh : certHead { s with core := begun k x s.core } = certHead s := by rw [begun_eq]; rfl
  have hn : (drawNoise (begun k x s.core)).1 = (drawNoise s.core).1 := by rw [begun_eq]; rfl
  unfold certDeliver certSig
  rw [if_neg h]
  dsimp only
  rw [hh, hn]
  by_cases hi : s.onyx.identity = []
  · simp only [hi, List.isEmpty_nil, if_true]
    rw [begun_eq]
  · have hi' : s.onyx.identity.isEmpty = false := by simpa using hi
    simp only [hi, hi', Bool.false_eq_true, if_false]
    rw [← begun_free k x s.core (s.core.free + 1), begun_eq]
    rfl

/-! ### TIME_ANNOTATE (R408, R436) -/

/-- The parameters of the TIME_SET record: the old and the new UTC (R408). -/
def timeParams (d : Bytes) (c : Core) : List Nat :=
  [oldUtc c % 2 ^ 32, oldUtc c / 2 ^ 32, field d 8 8 % 2 ^ 32, field d 8 8 / 2 ^ 32]

theorem timeDeliver_stages (k : Nat) (d : Bytes) (c : Core) (hk : k < 512) (h : c.recd.stoppedE = false) :
    timeDeliver k d c = eventAt 2 0x0B0 0x0D (timeParams d c) c (slot := some k) := by
  unfold timeDeliver
  rw [if_neg (by rw [h]; decide), if_pos hk]
  rfl

/-- A record that no limit holds back joins the FIFO (R427). -/
theorem eventAt_staged (sev code src : Nat) (ps : List Nat) (c : Core) (k : Option Nat) (h1 : c.recd.failed = false)
    (h2 : c.recd.stoppedE = false) (h3 : c.recd.powerFail = false) (h4 : c.recd.fifo.length < 248) (h5 : codeFree code = true) :
    (eventAt sev code src ps c k).recd.fifo = c.recd.fifo ++
      [{ cycle := false, sev, code, bytes := eventBytes (stampOf c) code src sev ps, slot := k }] := by
  unfold eventAt
  rw [if_neg (by rw [h1, h2]; decide), if_pos h5]
  unfold stageEvent stage
  dsimp only
  rw [if_neg (by rw [h3]; simp), if_pos (by split <;> omega)]

/-! ### SELFTEST_RUN (R48, R120) -/

/-- Step 5 on line reads the images and what they are checked against. -/
theorem imagesFail_begun (k : Nat) (x : SlotSt) (s : State) : imagesFail { s with core := begun k x s.core } = imagesFail s := by
  rw [begun_eq]
  rfl

/-- The core in which steps 5 and 6 have been noted (R48). -/
def onlineNoted (f : Nat) (ok : Bool) (c : Core) : Core :=
  let d := draw c
  let e := draw d.2
  let c := noteStep 5 (if f = 0 then 1 else 2) f d.1.toNat e.2
  let c := noteStep 6 (if ok then 1 else 2) (if ok then 0 else 0x50) e.1.toNat c
  { c with sys.stOnline := BitVec.ofNat 64 (stampOf c) }

theorem onlineRun_eq (k : Nat) (s : State) : onlineRun k s = { (recorderStep s).2 with
    core := finish k 0x00 0 (b2n ((imagesFail s).1 != 0) + 2 * b2n (!(recorderStep s).1)) 0
      (onlineNoted (imagesFail s).1 (recorderStep s).1 (recorderStep s).2.core) } := rfl

/-- RESULT0 of the on-line run: bit 0 for step 5, bit 1 for step 6 (R115, log 23). -/
theorem onlineMask (f : Nat) (ok : Bool) : b2n (f != 0) + 2 * b2n (!ok) =
    (if (if f = 0 then 1 else 2) = 1 then 0 else 1) + if (if ok then 1 else 2) = 1 then 0 else 2 := by
  by_cases hf : f = 0 <;> cases ok <;> simp [hf, b2n]

/-- The results that an on-line run leaves in the table of results (R48). -/
theorem onlineNoted_spec (f : Nat) (ok : Bool) (c : Core) : ∃ t g, onlineNoted f ok c =
    { c with sys := { c.sys with stRes := t, stOnline := BitVec.ofNat 64 (stampOf c) }, free := g } ∧
    (∃ us, tget (0, 0, 0) t 5 = (if f = 0 then 1 else 2, f, us)) ∧
    (∃ us, tget (0, 0, 0) t 6 = (if ok then 1 else 2, if ok then 0 else 0x50, us)) ∧
    ∀ n, n ≠ 5 → n ≠ 6 → tget (0, 0, 0) t n = tget (0, 0, 0) c.sys.stRes n := by
  refine ⟨_, _, rfl, ⟨(draw c).1.toNat / 1000 % 65536, ?_⟩, ⟨(draw (draw c).2).1.toNat / 1000 % 65536, ?_⟩, fun n h5 h6 => ?_⟩
  · exact (tget_tset_other _ _ _ _ _ (by decide)).trans (tget_tset_same ..)
  · exact tget_tset_same ..
  · exact (tget_tset_other _ _ _ _ _ (Ne.symm h6)).trans (tget_tset_other _ _ _ _ _ (Ne.symm h5))

/-- Settles O55. -/
theorem readOperations : Obligations.ReadOperations := by
  unfold Obligations.ReadOperations
  intro s k
  refine ⟨fun r hr hn => ?_, fun x hx hst => ?_, fun x hx hst => ?_, fun x hx => ?_, fun x hx => ?_, fun x hx => ?_, fun x hx => ?_,
    fun x hx => ?_, fun x hx => ?_⟩
  · have hs : Starts r.1 k r.2 := by
      clear hn
      revert r
      simp only [List.mem_cons, List.not_mem_nil, or_false, forall_eq_or_imp, forall_eq]
      exact ⟨starts_echo k, starts_portalRequest k, starts_portalStop k, starts_carRequest k, starts_setFlags k, starts_loadConfig k,
        starts_loadProgram k, starts_camDirectory k, starts_camPrefetch k, starts_camPin k, starts_camUnpin k, starts_journalRead k,
        starts_statsRead k, starts_timeAnnotate k, starts_manualMove k, starts_learnBaseline k, starts_fieldForce k,
        starts_lockoutReset k, starts_roleRequest k, starts_keyInstall k, starts_lifecycleAdvance k, starts_certRead k,
        starts_selftestRun k, starts_diagRead k⟩
    exact hs.idle s hn
  · have hrun := runs_ready hx (i := .timeAnnotate k) (f := timeDeliver k) rfl
    have hb : (begun k x s.core).recd = s.core.recd := by rw [begun_eq]
    rw [timeDeliver_stages k _ _ k.isLt (by rw [hb]; exact hst)] at hrun
    have hstage := eventAt_staged 2 0x0B0 0x0D (timeParams x.desc (begun k x s.core)) (begun k x s.core) (some k.val)
    obtain ⟨u, e⟩ := eventAt_only 2 0x0B0 0x0D (timeParams x.desc (begun k x s.core)) (begun k x s.core) (some k.val)
    rw [e] at hrun hstage
    have hslot := begun_slot k.val x s.core
    have hother := fun j hj => begun_other k.val j x s.core hj
    have hp : timeParams x.desc (begun k x s.core) = timeParams x.desc s.core := by rw [begun_eq]; rfl
    rw [hp, begun_eq] at hstage
    refine ⟨_, hrun, hslot, hother, fun h1 h2 h3 => ?_, ?_⟩
    · exact hstage h1 hst h2 h3 rfl
    · rw [begun_eq]
  · have hrun := runs_ready hx (i := .timeAnnotate k) (f := timeDeliver k) rfl
    exact ⟨_, hrun, timeDeliver_stopped k x s.core k.isLt hx.running hst, rfl⟩
  · exact ⟨_, runs_ready hx (f := echoDeliver k) rfl, ends_begun k x _ _ _ _ s.core k.isLt hx.running, rfl⟩
  · refine ⟨_, runs_readyS hx (f := journalDeliver k) rfl, journalDeliver_rest .., fun h => ?_, fun hc hl hw => ?_,
      fun hc hl hw => ⟨_, ?_, rfl⟩⟩
    · rw [journalDeliver_pointers k x.desc { s with core := begun k x s.core } h]
      exact ends_begun k x _ _ _ _ s.core k.isLt hx.running
    · rw [journalDeliver_notFound k x.desc { s with core := begun k x s.core } hc hl hw]
      exact ends_begun k x _ _ _ _ s.core k.isLt hx.running
    · rw [journalDeliver_records k x.desc { s with core := begun k x s.core } hc hl hw]
      exact endsOp_written k x _ _ _ _ s.core _ _ k.isLt hx.running
  · refine ⟨_, runs_ready hx (f := statsDeliver k) rfl, rfl, fun h => ?_, fun h => ⟨statBytes_length .., ?_⟩⟩
    · show EndsOp k x 0x00 0 0 0 s.core (statsDeliver k x.desc (begun k x s.core))
      rw [statsDeliver, if_pos h]
      exact ends_begun k x _ _ _ _ s.core k.isLt hx.running
    · have hb : statBytes (begun k x s.core) (byteAt x.desc 8) (byteAt x.desc 9) = statBytes s.core (byteAt x.desc 8) (byteAt x.desc 9) := by
        rw [begun_eq]
        rfl
      show EndsOp k x 0x00 0 _ 0 _ (statsDeliver k x.desc (begun k x s.core))
      rw [statsDeliver, if_neg h]
      dsimp only
      rw [hb]
      exact endsOp_written k x _ _ _ _ s.core _ _ k.isLt hx.running
  · refine ⟨_, runs_readyS hx (f := certDeliver k) rfl, certDeliver_rest .., fun h => ?_, fun h => ⟨certSig s, ?_, ?_, ?_⟩⟩
    · rw [certDeliver, if_pos h]
      exact ends_begun k x _ _ _ _ s.core k.isLt hx.running
    · exact fun hi => if_pos (by simp [hi])
    · exact fun hi => if_neg (by simpa using hi)
    · rw [certDeliver_begun k x s h]
      exact endsOp_written k x _ _ _ _ _ _ _ k.isLt hx.running
  · refine ⟨_, runs_readyS hx (f := diagDeliver k) rfl, ?_⟩
    by_cases h : opLen x.desc = 0
    · rw [diagDeliver, if_pos h]
      exact ⟨rfl, fun _ => ends_begun k x _ _ _ _ s.core k.isLt hx.running, fun hn => absurd h hn⟩
    · obtain ⟨u, v, e, hu⟩ := diagItem_rest (byteAt x.desc 8) { s with core := begun k x s.core }
      rw [diagDeliver, if_neg h]
      dsimp only
      generalize (diagItem (byteAt x.desc 8) { s with core := begun k x s.core }).1 = b
      rw [e]
      dsimp only
      rw [begun_counted]
      have he := endsOp_written k x 0x00 0 b.length 0 { s.core with free := u, host := { s.core.host with counters := v } } (opAddr x.desc) b
        k.isLt hx.running
      have hf : (finish k 0x00 0 b.length 0 (hostWrite (opAddr x.desc) b (begun k x
          { s.core with free := u, host := { s.core.host with counters := v } }))).free = u := by
        rw [he.rest, hostWrite_out]
      have hc : (finish k 0x00 0 b.length 0 (hostWrite (opAddr x.desc) b (begun k x
          { s.core with free := u, host := { s.core.host with counters := v } }))).host.counters = v := by
        rw [he.rest, hostWrite_out]
      refine ⟨rfl, fun hn => absurd hn h, fun _ => ⟨fun hn => ?_, ?_⟩⟩
      · obtain ⟨hu, hv⟩ := hu hn
        rw [begun_eq] at hu hv
        exact ⟨hf.trans hu, hc.trans hv⟩
      · rw [hf, hc]
        exact he
  · refine ⟨_, runs_readyS hx (f := runDeliver k) rfl, fun h0 hcl hmv => ?_, fun h0 hcl => ?_, fun h0 => ?_⟩
    · have hb : (claiming (begun k x s.core) && anyMoving (begun k x s.core)) = true := by
        rw [begun_eq]
        exact Bool.and_eq_true_iff.mpr ⟨hcl, hmv⟩
      rw [runDeliver, if_neg h0, if_pos hb]
      exact ⟨rfl, ends_begun k x _ _ _ _ s.core k.isLt hx.running⟩
    · have hb : (claiming (begun k x s.core) && anyMoving (begun k x s.core)) = false := by
        rw [begun_eq]
        exact Bool.and_eq_false_iff.mpr hcl
      rw [runDeliver, if_neg h0, if_neg (by rw [hb]; decide)]
      refine ⟨rfl, ?_⟩
      rw [finish_deferred, begun_deferred]
      exact ends_begun k x _ _ _ _ _ k.isLt hx.running
    · rw [runDeliver, if_pos h0, onlineRun_eq, imagesFail_begun]
      obtain ⟨u, v, f, e⟩ := recorderStep_only { s with core := begun k x s.core }
      generalize (recorderStep { s with core := begun k x s.core }).1 = ok at *
      rw [e]
      dsimp only
      generalize hc : ({ begun k x s.core with recd := v, free := f } : Core) = c
      have hslot : slotAt c k = some { x with started := true, visible := s.core.seq.now + 1 } := by
        rw [← hc]
        exact begun_slot k x s.core
      obtain ⟨t, g, en, ⟨us5, h5⟩, ⟨us6, h6⟩, hres⟩ := onlineNoted_spec (imagesFail s).1 ok c
      have hends := finish_ends k 0x00 0 (b2n ((imagesFail s).1 != 0) + 2 * b2n (!ok)) 0 (onlineNoted (imagesFail s).1 ok c)
        { x with started := true, visible := s.core.seq.now + 1 } (by rw [en]; exact hslot) hx.running k.isLt
      obtain ⟨l, n, ef⟩ := finish_host k 0x00 0 (b2n ((imagesFail s).1 != 0) + 2 * b2n (!ok)) 0 (onlineNoted (imagesFail s).1 ok c)
      rw [ef, en] at hends ⊢
      subst hc
      rw [begun_eq] at hends hres ⊢
      refine ⟨rfl, ⟨?_, ?_, ?_, ?_, ?_⟩, rfl⟩
      · exact congrArg (·.1) h5
      · exact congrArg (·.2.1) h5
      · show (tget (0, 0, 0) t 6).1 = 1 ∧ (tget (0, 0, 0) t 6).2.1 = 0 ∨ (tget (0, 0, 0) t 6).1 = 2 ∧ (tget (0, 0, 0) t 6).2.1 = 0x50
        rw [h6]
        cases ok
        · exact .inr ⟨rfl, rfl⟩
        · exact .inl ⟨rfl, rfl⟩
      · exact hres
      · show Ended k 0x00 0 ((if (tget (0, 0, 0) t 5).1 = 1 then 0 else 1) + if (tget (0, 0, 0) t 6).1 = 1 then 0 else 2) 0 _
        rw [h5, h6, ← onlineMask]
        exact hends

end Sys2Proof.Machine
end

section
/-! SUPPORT. The operations on the units: manual moves, learning, forces, lock-out reset, roles, keys, life cycle (R40, R42, R115,
R120, R179, R238, R330, R353, R382, R456, R457, R460). -/

namespace Sys2Proof.Machine

theorem Ended.of_slot {k st d r0 r1 : Nat} {c e : Core} (h : Ended k st d r0 r1 c) (hs : slotAt e k = slotAt c k) : Ended k st d r0 r1 e := by
  unfold Ended at h ⊢
  rwa [hs]

/-! ### MANUAL_MOVE (R124, R179, R246) -/

/-- The request that a MANUAL_MOVE of slot `k` hands the master (R179). -/
def manualReq (k : Nat) (d : Bytes) (c : Core) : MoveReq :=
  { cls := 3, table := 0, slow := 0, entry := 0, pset := 0
    manual := some (byteAt d 8, roundDiv (clampI (slMin (cfgOf c) (byteAt d 8)) (slMax (cfgOf c) (byteAt d 8))
      (if byteAt d 9 = 1 then 256 * signed 32 (field d 12 4) else posNow c (byteAt d 8) + 256 * signed 32 (field d 12 4))) 256, field d 16 2)
    execAt := c.seq.now, slot := some k }

/-- The core in which the portal's earlier manual moves have ended (R124). -/
def movesEnded (k p : Nat) (c : Core) : Core :=
  endMove k ((msAt c p).granted.bind fun g => g.req.slot) (endMove k ((msAt c p).waiting.bind MoveReq.slot) (endMove k (msAt c p).slot c))

/-- The master with the new request; a planned move that has its grant still starts (R148). -/
def manualAsked (r : MoveReq) (m : MasterSt) : MasterSt :=
  { m with waiting := some r, granted := m.granted.filter (fun g => g.req.manual.isNone), slot := none }

theorem manualDeliver_eq (k : Nat) (d : Bytes) (c : Core) : manualDeliver k d c =
    modMs (byteAt d 8 / 3) (manualAsked (manualReq k d c)) (movesEnded k (byteAt d 8 / 3) c) := by
  have hn : (movesEnded k (byteAt d 8 / 3) c).seq.now = c.seq.now := by
    obtain ⟨l, n, e⟩ := endMoves_host k (msAt c (byteAt d 8 / 3)).slot ((msAt c (byteAt d 8 / 3)).waiting.bind MoveReq.slot)
      ((msAt c (byteAt d 8 / 3)).granted.bind fun g => g.req.slot) c
    unfold movesEnded
    rw [e]
  unfold manualReq
  rw [← hn]
  rfl

/-- A slot of one of the portal's moves that came before (R124). -/
def EarlierMove (m : MasterSt) (j : Nat) : Prop :=
  m.slot = some j ∨ (∃ r, m.waiting = some r ∧ r.slot = some j) ∨ ∃ g, m.granted = some g ∧ g.req.slot = some j

theorem earlierMove_iff (m : MasterSt) (j : Nat) : EarlierMove m j ↔
    m.slot = some j ∨ m.waiting.bind MoveReq.slot = some j ∨ (m.granted.bind fun g => g.req.slot) = some j := by
  simp only [EarlierMove, Option.bind_eq_some_iff]

theorem movesEnded_ends (k p j : Nat) (c : Core) (y : SlotSt) (hk : j ≠ k) (hj : j < 512) (hs : slotAt c j = some y) (ho : slotOp y = 0x38)
    (hd : y.done = none) (he : EarlierMove (msAt c p) j) : Ended j 0x40 0 0 0 (movesEnded k p c) := by
  obtain ⟨a1, b1⟩ := endMove_step k j (msAt c p).slot c y hk hj ho hd (.inl hs)
  obtain ⟨a2, b2⟩ := endMove_step k j ((msAt c p).waiting.bind MoveReq.slot) _ y hk hj ho hd a1
  obtain ⟨-, b3⟩ := endMove_step k j ((msAt c p).granted.bind fun g => g.req.slot) _ y hk hj ho hd a2
  by_cases h3 : ((msAt c p).granted.bind fun g => g.req.slot) = some j
  · exact b3 h3
  · refine Ended.of_slot ?_ (endMove_other k j _ _ (.inl h3))
    by_cases h2 : (msAt c p).waiting.bind MoveReq.slot = some j
    · exact b2 h2
    · refine Ended.of_slot ?_ (endMove_other k j _ _ (.inl h2))
      exact b1 (((earlierMove_iff _ j).mp he).resolve_right fun h => h.elim h2 h3)

theorem movesEnded_other (k p j : Nat) (c : Core) (h : ¬ EarlierMove (msAt c p) j ∨ j = k) : slotAt (movesEnded k p c) j = slotAt c j := by
  rw [earlierMove_iff] at h
  unfold movesEnded
  rw [endMove_other, endMove_other, endMove_other]
  all_goals exact h.imp_left fun h e => h (by simp [e])

theorem manualReq_begun (k : Nat) (x : SlotSt) (c : Core) : manualReq k x.desc (begun k x c) = manualReq k x.desc c := by
  rw [begun_eq]
  rfl

theorem movesEnded_host (k p : Nat) (c : Core) : ∃ l n, movesEnded k p c = { c with host := { c.host with slots := l, finished := n } } :=
  endMoves_host ..

/-- MANUAL_MOVE pre-empts the portal's earlier moves and hands the master its target (R124, R179, R246). -/
theorem manualMove_delivers (k : Fin 512) (x : SlotSt) (c : Core) :
    let e := manualDeliver k x.desc (begun k x c)
    let p := byteAt x.desc 8 / 3
    slotAt e k = some { x with started := true, visible := c.seq.now + 1 } ∧
    (∀ j y, j ≠ k.val → j < 512 → EarlierMove (msAt c p) j → slotAt c j = some y → slotOp y = 0x38 → y.done = none → Ended j 0x40 0 0 0 e) ∧
    (∀ j, j ≠ k.val → ¬ EarlierMove (msAt c p) j → slotAt e j = slotAt c j) ∧
    (∀ q, msAt e q = if p = q then manualAsked (manualReq k x.desc c) (msAt c p) else msAt c q) ∧
    e = { c with
      host := { c.host with slots := e.host.slots, finished := e.host.finished }
      seq := { c.seq with masters := e.seq.masters }, twin := { c.twin with carry := e.twin.carry } } := by
  intro e p
  have hm : ∀ q, msAt (begun k x c) q = msAt c q := fun q => by rw [begun_eq]; rfl
  have he : e = modMs p (manualAsked (manualReq k x.desc c)) (movesEnded k p (begun k x c)) := by
    rw [← manualReq_begun]
    exact manualDeliver_eq k x.desc (begun k x c)
  obtain ⟨l, n, em⟩ := movesEnded_host k p (begun k x c)
  refine ⟨?_, fun j y hk hj hy hs ho hd => ?_, fun j hk hj => ?_, fun q => ?_, ?_⟩
  · rw [he]
    exact (movesEnded_other k p k (begun k x c) (.inr rfl)).trans (begun_slot k x c)
  · rw [he]
    exact movesEnded_ends k p j _ y hk hj ((begun_other k j x c hk).trans hs) ho hd (by rw [hm]; exact hy)
  · rw [he]
    exact (movesEnded_other k p j (begun k x c) (.inl (by rw [hm]; exact hj))).trans (begun_other k j x c hk)
  · have hq : ∀ q, msAt (movesEnded k p (begun k x c)) q = msAt c q := fun q => by rw [em]; exact hm q
    rw [he, ← hq p, ← hq q]
    exact tget_tmod ..
  · rw [he, em, begun_eq]
    rfl

/-- The target of MANUAL_MOVE: a relative one counts from the measured position (R179, log 32). -/
theorem manualReq_target (k : Nat) (d : Bytes) (c : Core) : (manualReq k d c).manual = some (byteAt d 8,
    roundDiv (clampI (slMin (cfgOf c) (byteAt d 8)) (slMax (cfgOf c) (byteAt d 8))
      ((if byteAt d 9 = 1 then 0 else posNow c (byteAt d 8)) + 256 * signed 32 (field d 12 4))) 256, field d 16 2) := by
  unfold manualReq
  by_cases h : byteAt d 9 = 1
  · simp only [if_pos h, Int.zero_add]
  · simp only [if_neg h]

/-! ### LEARN_BASELINE (R238) -/

theorem learnDeliver_none (k : Nat) (d : Bytes) (c : Core) (h : byteAt d 9 % 4 = 0) : learnDeliver k d c = finish k 0x00 0 0 0 c :=
  if_pos (BitVec.eq_of_toNat_eq (by simpa using h))

/-- The estimator of a portal that learns afresh (R238). -/
def learnArmed (k : Nat) (d : Bytes) (o : ObstSt) : ObstSt :=
  { o with
    armed := BitVec.ofNat 2 (byteAt d 9), cycles := byteAt d 10, opSlot := some k, learned := [], discarded := []
    accSum := [], accCnt := [], lockSum := 0, lockCnt := 0, mvDir := o.mvDir.filter fun e => !pbit (BitVec.ofNat 2 (byteAt d 9)) e }

theorem learnDeliver_arms (k : Nat) (d : Bytes) (c : Core) (h : byteAt d 9 % 4 ≠ 0) :
    learnDeliver k d c = modOb (byteAt d 8) (learnArmed k d) c :=
  if_neg fun e => h (by simpa using congrArg BitVec.toNat e)

theorem learnArmed_dir (k : Nat) (d : Bytes) (o : ObstSt) (e : Nat) : (learnArmed k d o).mvDir = some e ↔
    o.mvDir = some e ∧ (learnArmed k d o).armed.getLsbD e = false := by
  show o.mvDir.filter _ = some e ↔ o.mvDir = some e ∧ pbit (BitVec.ofNat 2 (byteAt d 9)) e = false
  rw [Option.filter_eq_some_iff, Bool.not_eq_true']

/-- Learning touches the estimator of its portal only (R238). -/
theorem learn_begun (k : Nat) (x : SlotSt) (c : Core) :
    let p := byteAt x.desc 8
    let e := modOb p (learnArmed k x.desc) (begun k x c)
    (∀ q, obAt e q = if p = q then learnArmed k x.desc (obAt c p) else obAt c q) ∧
    e = { c with
      host := { c.host with slots := e.host.slots, finished := e.host.finished }
      seq := { c.seq with obst := e.seq.obst }, twin := { c.twin with carry := e.twin.carry } } := by
  intro p e
  have hb : ∀ q, obAt (begun k x c) q = obAt c q := fun q => by rw [begun_eq]; rfl
  refine ⟨fun q => ?_, ?_⟩
  · rw [← hb p, ← hb q]
    exact tget_tmod ..
  · have he : e = modOb p (learnArmed k x.desc) (begun k x c) := rfl
    rw [he]
    unfold modOb
    rw [begun_eq]

/-! ### FIELD_FORCE (R353) -/

theorem forceDeliver_refused (k : Nat) (d : Bytes) (c : Core) (h : fMode (imgPart (cfgOf c) secField 1216) (byteAt d 8) ≠ 2) :
    forceDeliver k d c = finish k 0x12 8 0 0 c := if_pos h

theorem forceDeliver_ends (k : Nat) (d : Bytes) (c : Core) (h : fMode (imgPart (cfgOf c) secField 1216) (byteAt d 8) = 2)
    (hv : byteAt d 9 = 2) : forceDeliver k d c =
      finish k 0x00 0 (readBack c (byteAt d 8)) 0 (endForce (byteAt d 8) 0x00 0 (readBack c (byteAt d 8)) c) :=
  (if_neg (fun k => k h)).trans (if_pos hv)

theorem forceDeliver_forces (k : Nat) (d : Bytes) (c : Core) (h : fMode (imgPart (cfgOf c) secField 1216) (byteAt d 8) = 2)
    (hv : byteAt d 9 ≠ 2) : ∃ e, e = endForce (byteAt d 8) 0x40 0 0 c ∧ forceDeliver k d c =
      { e with seq.forces := tset none e.seq.forces (byteAt d 8) (some ⟨byteAt d 9 == 1, 800 * field d 10 2, k⟩) } :=
  ⟨_, rfl, (if_neg (fun k => k h)).trans (if_neg hv)⟩

/-- What became of the set's earlier force: its operation ended, and no other slot changed (R353). -/
def ForceEnded (k : Nat) (was : Option ForceSt) (st r0 : Nat) (c e : Core) : Prop :=
  (∀ j, j ≠ k → (∀ f, was = some f → f.slot ≠ j) → slotAt e j = slotAt c j) ∧
  ∀ f y, was = some f → f.slot ≠ k → f.slot < 512 → slotAt c f.slot = some y → y.done = none → Ended f.slot st 0 r0 0 e

theorem endForce_begun (k : Nat) (x : SlotSt) (u st r0 : Nat) (c : Core) :
    ForceEnded k (tget none c.seq.forces u) st r0 c (endForce u st 0 r0 (begun k x c)) := by
  have hf : (begun k x c).seq.forces = c.seq.forces := by rw [begun_eq]
  obtain ⟨-, -, h1, h2⟩ := endForce_facts u st r0 (begun k x c)
  rw [hf] at h1 h2
  exact ⟨fun j hj hn => (h1 j hn).trans (begun_other k j x c hj),
    fun f y hw hk hl hs hd => h2 f y hw hl ((begun_other k f.slot x c hk).trans hs) hd⟩

theorem ForceEnded.of_slots {k st r0 : Nat} {was : Option ForceSt} {c d e : Core} (h : ForceEnded k was st r0 c d)
    (hs : ∀ j, j ≠ k → slotAt e j = slotAt d j) : ForceEnded k was st r0 c e :=
  ⟨fun j hj hn => (hs j hj).trans (h.1 j hj hn), fun f y hw hk hl hy hd => (h.2 f y hw hk hl hy hd).of_slot (hs _ hk)⟩

/-- A force that its own operation ends: the operation ends OK with the read-back (R353). -/
theorem endForce_finish (k : Nat) (x : SlotSt) (u r0 : Nat) (c : Core) (hk : k < 512) (hd : x.done = none) :
    Ended k 0x00 0 r0 0 (finish k 0x00 0 r0 0 (endForce u 0x00 0 r0 (begun k x c))) := by
  have hf : (begun k x c).seq.forces = c.seq.forces := by rw [begun_eq]
  obtain ⟨-, -, h1, h2⟩ := endForce_facts u 0x00 r0 (begun k x c)
  rw [hf] at h1 h2
  by_cases h : ∃ f, tget none c.seq.forces u = some f ∧ f.slot = k
  · obtain ⟨f, hw, hs⟩ := h
    have he := h2 f { x with started := true, visible := c.seq.now + 1 } hw (by omega) (by rw [hs]; exact begun_slot k x c) hd
    rw [hs] at he
    obtain ⟨y, e, hy, hdone, -⟩ := id he
    rw [finish_done _ _ _ _ _ _ fun z hz => by rw [hy] at hz; cases hz; rw [hdone]; exact Option.some_ne_none e]
    exact he
  · refine finish_ends k _ _ _ _ _ { x with started := true, visible := c.seq.now + 1 } ?_ hd hk
    exact (h1 k fun f hw hs => h ⟨f, hw, hs⟩).trans (begun_slot k x c)

/-- What FIELD_FORCE changes: the force of its set, slots, and what the standby is told (R353). -/
def ForceOnly (c e : Core) : Prop := e = { c with
  host := { c.host with slots := e.host.slots, finished := e.host.finished }
  seq := { c.seq with forces := e.seq.forces }, twin := { c.twin with carry := e.twin.carry } }

theorem endForce_only (k : Nat) (x : SlotSt) (u st r0 : Nat) (c : Core) : ForceOnly c (endForce u st 0 r0 (begun k x c)) := by
  obtain ⟨⟨l, n, e⟩, -⟩ := endForce_facts u st r0 (begun k x c)
  unfold ForceOnly
  rw [e, begun_eq]

theorem forces_endForce (k : Nat) (x : SlotSt) (u st r0 q : Nat) (c : Core) :
    tget none (endForce u st 0 r0 (begun k x c)).seq.forces q = if q = u then none else tget none c.seq.forces q := by
  obtain ⟨-, h, -⟩ := endForce_facts u st r0 (begun k x c)
  rw [h, begun_eq]

/-- FIELD_FORCE ends the force of its set, and itself (R353). -/
theorem force_released (k : Nat) (x : SlotSt) (u r0 : Nat) (c : Core) (hk : k < 512) (hd : x.done = none) :
    let e := finish k 0x00 0 r0 0 (endForce u 0x00 0 r0 (begun k x c))
    (∀ q, tget none e.seq.forces q = if q = u then none else tget none c.seq.forces q) ∧
    ForceEnded k (tget none c.seq.forces u) 0x00 r0 c e ∧ Ended k 0x00 0 r0 0 e ∧ ForceOnly c e := by
  intro e
  have hf := fun q => forces_endForce k x u 0x00 r0 q c
  have ho := endForce_only k x u 0x00 r0 c
  have he := (endForce_begun k x u 0x00 r0 c).of_slots (e := e) fun j hj => finish_other _ _ _ _ _ _ j hj
  refine ⟨fun q => ?_, he, endForce_finish k x u r0 c hk hd, ?_⟩
  · obtain ⟨l, n, e2⟩ := finish_host k 0x00 0 r0 0 (endForce u 0x00 0 r0 (begun k x c))
    show tget none (finish k 0x00 0 r0 0 (endForce u 0x00 0 r0 (begun k x c))).seq.forces q = _
    rw [e2]
    exact hf q
  · show ForceOnly c (finish k 0x00 0 r0 0 (endForce u 0x00 0 r0 (begun k x c)))
    obtain ⟨l, n, e2⟩ := finish_host k 0x00 0 r0 0 (endForce u 0x00 0 r0 (begun k x c))
    unfold ForceOnly at ho ⊢
    rw [e2, ho]

/-- FIELD_FORCE supersedes the force of its set (R353). -/
theorem force_superseded (k : Nat) (x : SlotSt) (u : Nat) (f : ForceSt) (c : Core) :
    let d := endForce u 0x40 0 0 (begun k x c)
    let e : Core := { d with seq.forces := tset none d.seq.forces u (some f) }
    (∀ q, tget none e.seq.forces q = if q = u then some f else tget none c.seq.forces q) ∧
    ForceEnded k (tget none c.seq.forces u) 0x40 0 c e ∧
    ((∀ g, tget none c.seq.forces u = some g → g.slot ≠ k) →
      slotAt e k = some { x with started := true, visible := c.seq.now + 1 }) ∧ ForceOnly c e := by
  intro d e
  have hfr : (begun k x c).seq.forces = c.seq.forces := by rw [begun_eq]
  refine ⟨fun q => ?_, (endForce_begun k x u 0x40 0 c).of_slots fun _ _ => rfl, fun hn => ?_, ?_⟩
  · show tget none (tset none d.seq.forces u (some f)) q = _
    rw [tget_tset, forces_endForce]
    by_cases h : u = q
    · rw [if_pos h, if_pos h.symm]
    · rw [if_neg h, if_neg (Ne.symm h), if_neg (Ne.symm h)]
  · obtain ⟨-, -, h, -⟩ := endForce_facts u 0x40 0 (begun k x c)
    rw [hfr] at h
    exact (h k hn).trans (begun_slot k x c)
  · have ho : ForceOnly c d := endForce_only k x u 0x40 0 c
    unfold ForceOnly at ho ⊢
    show ({ d with seq.forces := tset none d.seq.forces u (some f) } : Core) = _
    rw [ho]

/-! ### LOCKOUT_RESET (R330) -/

/-- A named portal is not configured, moves, or is moved by hand (R330). -/
def ClearBusy (c : Core) (pm im : Nat) : Prop := ∃ p, p < 12 ∧ (bitOf pm p = true ∨ bitOf im p = true) ∧
  (chanConf c p = false ∨ movingCode (motionOf c p) = true ∨ manualAt c p = true)

/-- A portal to be taken from ISOLATED still has a faulted axis or pair (R330). -/
def ClearFaulted (c : Core) (im : Nat) : Prop := ∃ p, p < 12 ∧ bitOf im p = true ∧ ((∃ a ∈ portalAxes (cfgOf c) p, (linkAt c a).fault ≠ 0) ∨
  ∃ q ∈ pairsOf (imgPart (cfgOf c) secSafe 2240), p ∈ pairPortals c q ∧ (c.crossA.faulted.getLsbD q = true ∨ c.crossB.faulted.getLsbD q = true))

theorem clearBusy_iff (c : Core) (pm im : Nat) : (((List.range 12).filter fun p => bitOf pm p || bitOf im p).any fun p =>
    !chanConf c p || movingCode (motionOf c p) || manualAt c p) = true ↔ ClearBusy c pm im := by
  simp only [ClearBusy, List.any_filter, List.any_eq_true, List.mem_range, Bool.and_eq_true, Bool.or_eq_true, Bool.not_eq_true', or_assoc]

theorem clearFaulted_iff (c : Core) (im : Nat) : (((List.range 12).filter (bitOf im)).any fun p =>
    (portalAxes (cfgOf c) p).any (fun x => (linkAt c x).fault != 0) ||
      (pairsOf (imgPart (cfgOf c) secSafe 2240)).any fun q =>
        (pairPortals c q).contains p && (c.crossA.faulted.getLsbD q || c.crossB.faulted.getLsbD q)) = true ↔ ClearFaulted c im := by
  simp only [ClearFaulted, List.any_filter, List.any_eq_true, List.mem_range, Bool.and_eq_true, Bool.or_eq_true, bne_iff_ne, ne_eq,
    List.contains_iff_mem]

theorem clearBad_busy (c : Core) (pm im : Nat) (h : ClearBusy c pm im) : clearBad c pm im = some 8 := if_pos ((clearBusy_iff c pm im).mpr h)

theorem clearBad_faulted (c : Core) (pm im : Nat) (h : ¬ ClearBusy c pm im) (hf : ClearFaulted c im) : clearBad c pm im = some 10 :=
  (if_neg fun k => h ((clearBusy_iff c pm im).mp k)).trans (if_pos ((clearFaulted_iff c im).mpr hf))

theorem clearBad_none (c : Core) (pm im : Nat) (h : ¬ ClearBusy c pm im) (hf : ¬ ClearFaulted c im) : clearBad c pm im = none :=
  (if_neg fun k => h ((clearBusy_iff c pm im).mp k)).trans (if_neg fun k => hf ((clearFaulted_iff c im).mp k))

theorem clearBad_begun (k : Nat) (x : SlotSt) (c : Core) (pm im : Nat) : clearBad (begun k x c) pm im = clearBad c pm im := by
  rw [begun_eq]
  rfl

theorem clearDeliver_refused (k e : Nat) (d : Bytes) (c : Core) (h : clearBad c (field d 8 2) (field d 10 2) = some e) :
    clearDeliver k d c = finish k 0x12 e 0 0 c := by
  unfold clearDeliver
  dsimp only
  rw [h]

theorem clearDeliver_asks (k : Nat) (d : Bytes) (c : Core) (h : clearBad c (field d 8 2) (field d 10 2) = none) : clearDeliver k d c =
    { c with seq.clearReq := some { pm := BitVec.ofNat 12 (field d 8 2), im := BitVec.ofNat 12 (field d 10 2), slot := k } } := by
  unfold clearDeliver
  dsimp only
  rw [h]

theorem mask12_bit (m p : Nat) (h : p < 12) : (BitVec.ofNat 12 m).getLsbD p = m.testBit p := by
  rw [BitVec.getLsbD_ofNat, decide_eq_true h, Bool.true_and]

/-! ### ROLE_REQUEST (R40, R42, R382) -/

section
variable (k : Nat) (d : Bytes) (c : Core)

theorem roleDeliver_resetting (h : resetting c = true) : roleDeliver k d c = c := if_pos h

theorem roleDeliver_service (hr : resetting c = false) (hu : byteAt d 8 = 1) (hm : c.sys.mode ≠ .workshop) :
    roleDeliver k d c = finish k 0x00 0 c.nv.epoch.toNat (modeCode c.sys.mode) c := by
  unfold roleDeliver
  dsimp only
  rw [if_neg (by rw [hr]; decide), hu]
  exact congrArg (fun c => finish k 0x00 0 c.nv.epoch.toNat (modeCode c.sys.mode) c) (if_neg (show ¬ (c.sys.mode == .workshop) = true by simpa using hm))

theorem roleDeliver_leaves (hr : resetting c = false) (hu : byteAt d 8 = 1) (hm : c.sys.mode = .workshop) :
    let e := changeMode .service 0x97 0 0 { c with sys.wsRelease := false }
    roleDeliver k d c = finish k 0x00 0 e.nv.epoch.toNat (modeCode e.sys.mode) e := by
  unfold roleDeliver
  dsimp only
  rw [if_neg (by rw [hr]; decide), hu]
  exact congrArg (fun c => finish k 0x00 0 c.nv.epoch.toNat (modeCode c.sys.mode) c) (if_pos (show (c.sys.mode == .workshop) = true by simpa using hm))

/-- The unit may enter WORKSHOP (R42). -/
def ToWorkshop : Prop := c.sys.mode = .service ∧ (c.crossA.wskey = true ∧ c.crossB.wskey = true) ∧
  ∀ p, p < 12 → movingCode (motionOf c p) = false

theorem toWorkshop_iff : (c.sys.mode == .service && keyActive c && !anyMoving c) = true ↔ ToWorkshop c := by
  simp only [ToWorkshop, keyActive, anyMoving, Bool.and_eq_true, beq_iff_eq, Bool.not_eq_true', List.any_eq_false, List.mem_range,
    Bool.not_eq_true, and_assoc]

theorem roleDeliver_enters (hr : resetting c = false) (hu : byteAt d 8 = 2) (hw : ToWorkshop c) :
    let e := changeMode .workshop 0x95 0 0 c
    roleDeliver k d c = finish k 0x00 0 e.nv.epoch.toNat (modeCode e.sys.mode) e := by
  unfold roleDeliver
  dsimp only
  rw [if_neg (by rw [hr]; decide), hu]
  exact if_pos ((toWorkshop_iff c).mpr hw)

theorem roleDeliver_stays (hr : resetting c = false) (hu : byteAt d 8 = 2) (hw : ¬ ToWorkshop c) :
    roleDeliver k d c = finish k 0x22 (modeCode c.sys.mode) 0 0 c := by
  unfold roleDeliver
  dsimp only
  rw [if_neg (by rw [hr]; decide), hu]
  exact if_neg fun h => hw ((toWorkshop_iff c).mp h)

theorem roleDeliver_other (hr : resetting c = false) (h1 : byteAt d 8 ≠ 1) (h2 : byteAt d 8 ≠ 2) : roleDeliver k d c =
    if (c.sys.mode == .service && standbySynced c) = true then { twinSend 0x15 (toLe 8 (c.tb.tick + 7)) c with twin.swap := some (8, k) }
    else finish k 0x22 (modeCode c.sys.mode) 0 0 c := by
  unfold roleDeliver
  dsimp only
  rw [if_neg (by rw [hr]; decide)]
  split
  · exact absurd ‹_› h1
  · exact absurd ‹_› h2
  · rfl

/-- A message goes out where the link is up (R364). -/
theorem twinSend_out (n : Nat) (b : Bytes) (h : twinUp c = true) : ∃ w, (twinSend n b c).out = .twinBytes n w :: c.out := by
  unfold twinSend
  rw [if_pos h]
  exact ⟨_, rfl⟩

end

section
variable (k : Nat) (x : SlotSt) (c : Core)

theorem resetting_begun : resetting (begun k x c) = resetting c := by rw [begun_eq]; rfl

theorem mode_begun : (begun k x c).sys.mode = c.sys.mode := by rw [begun_eq]

theorem toWorkshop_begun : ToWorkshop (begun k x c) ↔ ToWorkshop c := by rw [begun_eq]; exact Iff.rfl

theorem canSwap_begun : ((begun k x c).sys.mode == .service && standbySynced (begun k x c)) = true ↔
    c.sys.mode = .service ∧ standbySynced c = true := by
  have hs : standbySynced (begun k x c) = standbySynced c := by rw [begun_eq]; rfl
  rw [mode_begun, hs, Bool.and_eq_true, beq_iff_eq]

end

/-- The end of an operation in a core that has changed since it began, but not in its slots. -/
theorem finish_begun (k : Nat) (x : SlotSt) (st d r0 r1 : Nat) (c e : Core) (hk : k < 512) (hd : x.done = none)
    (hs : e.host.slots = (begun k x c).host.slots) : Ended k st d r0 r1 (finish k st d r0 r1 e) ∧
    (∀ j, j ≠ k → slotAt (finish k st d r0 r1 e) j = slotAt c j) ∧
    ∃ l n, finish k st d r0 r1 e = { e with host := { e.host with slots := l, finished := n } } := by
  have hb : ∀ j, slotAt e j = slotAt (begun k x c) j := fun j => by rw [slotAt, slotAt, hs]
  exact ⟨finish_ends k st d r0 r1 e _ ((hb k).trans (begun_slot k x c)) hd hk,
    fun j hj => (finish_other k st d r0 r1 e j hj).trans ((hb j).trans (begun_other k j x c hj)), finish_host ..⟩

/-! ### KEY_INSTALL (R460) -/

/-- The condition of a key slot (R460). -/
def KeyFits (u : Nat) (b : Bytes) (s : State) : Prop := (u = 1 → s.onyx.identity ≠ [] ∧ hasPart (certMark s.core.nv.pub) b = true) ∧
  (u ≠ 1 → (u = 48 ∨ u < 32) → ∃ y ∈ b, y ≠ 0) ∧
  (u ≠ 1 → u ≠ 48 → 32 ≤ u → s.fuse.fused = false ∧ onCurve (field b 0 32) (field b 32 32) = true)

theorem keyOk_iff (u : Nat) (b : Bytes) (s : State) : keyOk u b s = true ↔ KeyFits u b s := by
  unfold keyOk KeyFits
  by_cases h1 : u = 1
  · simp [h1]
  · by_cases h2 : u = 48 ∨ u < 32
    · have h3 : ¬ (u ≠ 48 ∧ 32 ≤ u) := by omega
      rw [if_neg h1, if_pos (by simpa using h2), Bool.not_eq_true', allZero_iff]
      exact ⟨fun h => ⟨fun e => absurd e h1, fun _ _ => h, fun _ a b => absurd ⟨a, b⟩ h3⟩, fun h => h.2.1 h1 h2⟩
    · rw [if_neg h1, if_neg (by simpa using h2), Bool.and_eq_true, Bool.not_eq_true']
      exact ⟨fun h => ⟨fun e => absurd e h1, fun _ a => absurd a h2, fun _ _ _ => h⟩, fun h => h.2.2 h1 (by omega) (by omega)⟩

theorem keyOk_begun (k : Nat) (x : SlotSt) (u : Nat) (b : Bytes) (s : State) : keyOk u b { s with core := begun k x s.core } = keyOk u b s := by
  rw [begun_eq]
  rfl

theorem opRead_begun (k : Nat) (x : SlotSt) (c : Core) : opRead (begun k x c) k = x.data := by
  unfold opRead
  rw [begun_slot]

/-- What a key or a certificate changes: its slot (R454, R460). -/
theorem putKey_spec (u : Nat) (b : Bytes) (s : State) : ∃ o cert keys, putKey u b s = { s with
      onyx := o, core := { s.core with nv := { s.core.nv with cert := cert, authKeys := keys } } } ∧
    (u = 1 → cert = b ∧ o = s.onyx ∧ keys = s.core.nv.authKeys) ∧
    (u = 48 → o = { s.onyx with twin := b } ∧ cert = s.core.nv.cert ∧ keys = s.core.nv.authKeys) ∧
    (u ≠ 1 → u < 32 → cert = s.core.nv.cert ∧ keys = s.core.nv.authKeys ∧ o = { s.onyx with train := o.train } ∧
      ∀ j, tget [] o.train j = if j = u - 16 then b else tget [] s.onyx.train j) ∧
    (32 ≤ u → u ≠ 48 → o = s.onyx ∧ cert = s.core.nv.cert ∧
      ∀ j, tget [] keys j = if j = u - 32 then b else tget [] s.core.nv.authKeys j) := by
  unfold putKey
  by_cases h1 : u = 1
  · rw [if_pos h1]
    exact ⟨_, _, _, rfl, fun _ => ⟨rfl, rfl, rfl⟩, fun h => by omega, fun h => absurd h1 h, fun h => by omega⟩
  rw [if_neg h1]
  by_cases h2 : u = 48
  · rw [if_pos h2]
    exact ⟨_, _, _, rfl, fun h => absurd h h1, fun _ => ⟨rfl, rfl, rfl⟩, fun _ h => by omega, fun _ h => absurd h2 h⟩
  rw [if_neg h2]
  by_cases h3 : u < 32
  · rw [if_pos h3]
    refine ⟨_, _, _, rfl, fun h => absurd h h1, fun h => absurd h h2, fun _ _ => ⟨rfl, rfl, rfl, fun j => ?_⟩, fun h => by omega⟩
    exact (tget_tset ..).trans (by simp only [eq_comm])
  · rw [if_neg h3]
    refine ⟨_, _, _, rfl, fun h => absurd h h1, fun h => absurd h h2, fun _ h => absurd h h3, fun _ _ => ⟨rfl, rfl, fun j => ?_⟩⟩
    exact (tget_tset ..).trans (by simp only [eq_comm])

section
variable (k : Nat) (d : Bytes) (s : State)

theorem keyDeliver_unread (h : opRead s.core k = none) : keyDeliver k d s = { s with core := (finish k 0x32 0 0 0 (hpCount 36 s.core)) } := by
  unfold keyDeliver
  rw [h]

theorem keyDeliver_refused (b : Bytes) (h : opRead s.core k = some b) (hk : keyOk (byteAt d 8) b s = false) :
    keyDeliver k d s = { s with core := (finish k 0x12 8 0 0 s.core) } := by
  unfold keyDeliver
  rw [h]
  exact if_pos (by rw [hk]; rfl)

theorem keyDeliver_installs (b : Bytes) (h : opRead s.core k = some b) (hk : keyOk (byteAt d 8) b s = true) :
    let p := putKey (byteAt d 8) b s
    ∃ v, keyDeliver k d s = { p with core := { finish k 0x00 0 (byteAt d 8) 0 p.core with recd := v } } := by
  unfold keyDeliver
  rw [h]
  obtain ⟨v, e⟩ := event_only 0x0C3 0x0F [byteAt d 8, keyP1 (byteAt d 8) b (putKey (byteAt d 8) b s)]
    (finish k 0x00 0 (byteAt d 8) 0 (putKey (byteAt d 8) b s).core)
  refine ⟨v, (if_neg (by rw [hk]; decide)).trans ?_⟩
  exact congrArg (fun c => { putKey (byteAt d 8) b s with core := c }) e

end

/-! ### LIFECYCLE_ADVANCE (R456, R457) -/

/-- A transition of R457, in its mode. -/
def LifeAllowed (s : State) (to_ : LifeCycle) : Prop :=
  let old := s.core.nv.lc
  (old = .blank ∧ to_ = .provisioned ∧ s.core.sys.mode = .provision ∧ s.core.nv.authKeys ≠ []) ∨
  (old = .provisioned ∧ (to_ = .field ∨ to_ = .returned) ∧ s.core.sys.mode = .workshop) ∨
  (old = .field ∧ to_ = .returned ∧ s.core.sys.mode = .workshop) ∨
  (old = .returned ∧ (to_ = .provisioned ∨ to_ = .scrapped) ∧ s.core.sys.mode = .provision)

theorem lcAllowed_iff (s : State) (to_ : LifeCycle) : lcAllowed s to_ = true ↔ LifeAllowed s to_ := by
  unfold lcAllowed LifeAllowed
  cases s.core.nv.lc <;> cases to_ <;> simp

theorem lcAllowed_begun (k : Nat) (x : SlotSt) (s : State) (to_ : LifeCycle) :
    lcAllowed { s with core := begun k x s.core } to_ = lcAllowed s to_ := by
  rw [begun_eq]
  rfl

theorem moves_begun (k : Nat) (x : SlotSt) (c : Core) :
    (claiming (begun k x c) && anyMoving (begun k x c)) = true ↔ claiming c = true ∧ anyMoving c = true := by
  rw [begun_eq]
  exact Bool.and_eq_true_iff

section
variable (k : Nat) (d : Bytes) (s : State)

theorem lifeDeliver_refused (h : lcAllowed s (lcOf (byteAt d 8)) = false) :
    lifeDeliver k d s = { s with core := (finish k 0x12 8 0 0 s.core) } := if_pos (by rw [h]; rfl)

theorem lifeDeliver_moving (h : lcAllowed s (lcOf (byteAt d 8)) = true) (hm : (claiming s.core && anyMoving s.core) = true) :
    lifeDeliver k d s = { s with core := (finish k 0x50 0x03 0 0 s.core) } := (if_neg (by rw [h]; decide)).trans (if_pos hm)

theorem lifeDeliver_turns (h : lcAllowed s (lcOf (byteAt d 8)) = true) (hm : ¬ (claiming s.core && anyMoving s.core) = true) :
    lifeDeliver k d s = lifeEnd k s.core.nv.lc (lcOf (byteAt d 8)) (lifeTurn (lcOf (byteAt d 8)) s) :=
  (if_neg (by rw [h]; decide)).trans (if_neg hm)

/-- The end of a transition: its record, its completion, and the SOFT reset that is owed (R120). -/
theorem lifeEnd_spec (old to_ : LifeCycle) : ∃ v, lifeEnd k old to_ s = { s with
    core := { finish k 0x00 0 (lcCode to_) 0 { s.core with recd := v } with sys.deferred := true } } := by
  obtain ⟨v, e⟩ := event_only 0x0C4 0x0F [lcCode old, lcCode to_, 1] s.core
  refine ⟨v, ?_⟩
  unfold lifeEnd
  dsimp only
  rw [e]

end

/-! ### The commands -/

/-- Settles O57. -/
theorem unitOperations : Obligations.UnitOperations := by
  unfold Obligations.UnitOperations
  intro s k x d c u open_ book others
  refine ⟨fun hx => ?_, fun hx => ?_, fun hx => ?_, fun hx => ?_, fun hx => ?_, fun hx => ?_, fun hx => ?_⟩
  · obtain ⟨h1, h2, h3, h4, h5⟩ := manualMove_delivers k x c
    exact ⟨_, runs_ready hx (f := manualDeliver k) rfl, h1, fun j y hk hl he hs ho hd => h2 j y hk hl he hs ho hd, h3,
      fun q hq => (h4 q).trans (if_neg (Ne.symm hq)), ⟨manualReq k d c, (h4 _).trans (if_pos rfl), rfl, rfl, rfl, manualReq_target k d c⟩,
      congrArg (fun c => { s with core := c }) h5⟩
  · refine ⟨_, runs_ready hx (f := learnDeliver k) rfl, fun h => ?_, fun h => ?_⟩
    · rw [learnDeliver_none k x.desc _ h]
      exact ⟨rfl, ends_begun k x _ _ _ _ c k.isLt hx.running⟩
    · obtain ⟨ho, hf⟩ := learn_begun k x c
      rw [learnDeliver_arms k x.desc _ h]
      refine ⟨begun_slot k x c, fun j hj => begun_other k j x c hj, fun q hq => (ho q).trans (if_neg (Ne.symm hq)), ?_,
        congrArg (fun c => { s with core := c }) hf⟩
      have hu : obAt (modOb u (learnArmed k d) (begun k x c)) u = learnArmed k d (obAt c u) := (ho u).trans (if_pos rfl)
      dsimp only
      rw [hu]
      exact ⟨BitVec.toNat_ofNat .., rfl, rfl, rfl, rfl, rfl, rfl, rfl, rfl, learnArmed_dir k d _, rfl⟩
  · have hfr : (begun k x c).seq.forces = c.seq.forces := by rw [begun_eq]
    have hfm : fMode (imgPart (cfgOf (begun k x c)) secField 1216) u = fMode (imgPart (cfgOf c) secField 1216) u := by rw [begun_eq]; rfl
    have hrb : readBack (begun k x c) u = readBack c u := by rw [begun_eq]; rfl
    by_cases h : fMode (imgPart (cfgOf c) secField 1216) u ≠ 2
    · have e := forceDeliver_refused k x.desc (begun k x c) (by rw [hfm]; exact h)
      refine ⟨_, runs_core e (runs_ready hx (f := forceDeliver k) rfl), fun _ => ⟨rfl, ?_⟩, fun k => absurd k h⟩
      exact ends_begun k x _ _ _ _ c k.isLt hx.running
    have h2 := Classical.not_not.mp h
    by_cases hv : byteAt d 9 = 2
    · have e := forceDeliver_ends k x.desc (begun k x c) (by rw [hfm]; exact h2) hv
      rw [hrb] at e
      obtain ⟨f1, f2, f3, f4⟩ := force_released k x u (readBack c u) c k.isLt hx.running
      exact ⟨_, runs_core e (runs_ready hx (f := forceDeliver k) rfl), fun k => absurd k h, fun _ =>
        ⟨fun _ => ⟨(f1 u).trans (if_pos rfl), f2, f3⟩, fun k => absurd hv k, fun q hq => (f1 q).trans (if_neg hq),
          congrArg (fun c => { s with core := c }) f4⟩⟩
    · obtain ⟨d', hd', e⟩ := forceDeliver_forces k x.desc (begun k x c) (by rw [hfm]; exact h2) hv
      obtain ⟨f1, f2, f3, f4⟩ := force_superseded k x u ⟨byteAt d 9 == 1, 800 * field d 10 2, k⟩ c
      subst hd'
      exact ⟨_, runs_core e (runs_ready hx (f := forceDeliver k) rfl), fun k => absurd k h, fun _ =>
        ⟨fun k => absurd k hv, fun _ => ⟨(f1 u).trans (if_pos rfl), f2, f3⟩, fun q hq => (f1 q).trans (if_neg hq),
          congrArg (fun c => { s with core := c }) f4⟩⟩
  · refine ⟨_, runs_ready hx (f := clearDeliver k) rfl, fun h8 => ?_, fun h8 h10 => ?_, fun h8 h10 => ?_⟩
    · rw [clearDeliver_refused k 8 x.desc _ ((clearBad_begun ..).trans (clearBad_busy c _ _ h8))]
      exact ⟨rfl, ends_begun k x _ _ _ _ c k.isLt hx.running⟩
    · rw [clearDeliver_refused k 10 x.desc _ ((clearBad_begun ..).trans (clearBad_faulted c _ _ h8 h10))]
      exact ⟨rfl, ends_begun k x _ _ _ _ c k.isLt hx.running⟩
    · rw [clearDeliver_asks k x.desc _ ((clearBad_begun ..).trans (clearBad_none c _ _ h8 h10))]
      refine ⟨begun_slot k x c, fun j hj => begun_other k j x c hj, ⟨_, rfl, fun p hp => ⟨mask12_bit _ p hp, mask12_bit _ p hp⟩, rfl, rfl⟩, ?_⟩
      rw [begun_eq]
  · refine ⟨_, runs_ready hx (f := roleDeliver k) rfl, fun hr => ?_, fun hr hu => ⟨fun hm => ?_, fun hm => ?_⟩,
      fun hr hu => ⟨fun hw => ?_, fun hw => ?_⟩, fun hr h1 h2 => ⟨fun hw => ?_, fun hw => ?_⟩⟩
    · rw [roleDeliver_resetting k x.desc _ ((resetting_begun ..).trans hr)]
      refine ⟨begun_slot k x c, fun j hj => begun_other k j x c hj, ?_⟩
      rw [begun_eq]
    · rw [roleDeliver_leaves k x.desc _ ((resetting_begun ..).trans hr) hu ((mode_begun ..).trans hm)]
      exact moved_facts s k x .service 0x97 false _ hx (by decide) rfl rfl
    · rw [roleDeliver_service k x.desc _ ((resetting_begun ..).trans hr) hu (by rw [mode_begun]; exact hm)]
      refine ⟨rfl, ?_⟩
      have hb : (begun k x c).nv = c.nv := by rw [begun_eq]
      rw [mode_begun, hb]
      exact ends_begun k x _ _ _ _ c k.isLt hx.running
    · rw [roleDeliver_enters k x.desc _ ((resetting_begun ..).trans hr) hu ((toWorkshop_begun ..).mpr hw)]
      exact moved_facts s k x .workshop 0x95 c.sys.wsRelease _ hx (by decide) rfl (by rw [begun_eq])
    · rw [roleDeliver_stays k x.desc _ ((resetting_begun ..).trans hr) hu fun h => hw ((toWorkshop_begun ..).mp h), mode_begun]
      exact ⟨rfl, ends_begun k x _ _ _ _ c k.isLt hx.running⟩
    · rw [roleDeliver_other k x.desc _ ((resetting_begun ..).trans hr) h1 h2, if_pos ((canSwap_begun ..).mpr hw)]
      obtain ⟨q, o, e⟩ := twinSend_only 0x15 (toLe 8 ((begun k x c).tb.tick + 7)) (begun k x c)
      have hout := twinSend_out (begun k x c) 0x15 (toLe 8 ((begun k x c).tb.tick + 7))
      rw [e] at hout ⊢
      refine ⟨begun_slot k x c, fun j hj => begun_other k j x c hj, rfl, fun hu => ?_, ?_⟩
      · rw [begun_eq] at hout
        exact hout hu
      · rw [begun_eq]
    · rw [roleDeliver_other k x.desc _ ((resetting_begun ..).trans hr) h1 h2, if_neg fun h => hw ((canSwap_begun ..).mp h), mode_begun]
      exact ⟨rfl, ends_begun k x _ _ _ _ c k.isLt hx.running⟩
  · refine ⟨_, runs_readyS hx (f := keyDeliver k) rfl, fun hd => ?_, fun b hd => ⟨fun hh => ?_, fun hh => ?_⟩⟩
    · rw [keyDeliver_unread k x.desc { s with core := begun k x s.core } ((opRead_begun ..).trans hd)]
      exact ⟨rfl, ends_unread k x c k.isLt hx.running⟩
    · rw [keyDeliver_refused k x.desc { s with core := begun k x s.core } b ((opRead_begun ..).trans hd)
        ((keyOk_begun ..).trans (Bool.eq_false_iff.mpr fun h => hh ((keyOk_iff u b s).mp h)))]
      exact ⟨rfl, ends_begun k x _ _ _ _ c k.isLt hx.running⟩
    · obtain ⟨v, e⟩ := keyDeliver_installs k x.desc { s with core := begun k x s.core } b ((opRead_begun ..).trans hd)
        ((keyOk_begun ..).trans ((keyOk_iff u b s).mpr hh))
      obtain ⟨o, cert, keys, ep, p1, p2, p3, p4⟩ := putKey_spec u b { s with core := begun k x s.core }
      have hnv : (begun k x s.core).nv = c.nv := by rw [begun_eq]
      rw [e, ep]
      rw [hnv] at p1 p2 p3 p4 ⊢
      obtain ⟨hends, hothers, l, n, ef⟩ := finish_begun k x 0x00 0 u 0 c { begun k x c with nv := { c.nv with cert := cert, authKeys := keys } }
        k.isLt hx.running rfl
      dsimp only at hends hothers ⊢
      refine ⟨hends, hothers, fun h => ?_, fun h => ?_, fun h1 h => ?_, fun h h48 => ?_, ?_⟩
      · rw [ef]
        exact p1 h
      · obtain ⟨h1, h2, h3⟩ := p2 h
        rw [ef, h2, h3]
        exact ⟨h1, rfl⟩
      · obtain ⟨h2, h3, ht⟩ := p3 h1 h
        rw [ef, h2, h3]
        exact ⟨rfl, ht⟩
      · rw [ef]
        exact p4 h h48
      · rw [ef, begun_eq]
  · refine ⟨_, runs_readyS hx (f := lifeDeliver k) rfl, fun ha => ?_, fun ha hm => ?_, fun ha hm => ?_⟩
    · rw [lifeDeliver_refused k x.desc { s with core := begun k x s.core } ((lcAllowed_begun ..).trans
        (Bool.eq_false_iff.mpr fun h => ha ((lcAllowed_iff s _).mp h)))]
      exact ⟨rfl, ends_begun k x _ _ _ _ c k.isLt hx.running⟩
    · rw [lifeDeliver_moving k x.desc { s with core := begun k x s.core } ((lcAllowed_begun ..).trans ((lcAllowed_iff s _).mpr ha))
        ((moves_begun ..).mpr hm)]
      exact ⟨rfl, ends_begun k x _ _ _ _ c k.isLt hx.running⟩
    · rw [lifeDeliver_turns k x.desc { s with core := begun k x s.core } ((lcAllowed_begun ..).trans ((lcAllowed_iff s _).mpr ha))
        fun h => hm ((moves_begun ..).mp h)]
      obtain ⟨l1, l2, l3, l4, l5, l6⟩ := lifeTurn_spec (lcOf u) { s with core := begun k x s.core }
      have hfuse := lifeTurn_fuse (lcOf u) { s with core := begun k x s.core }
      have hnv : (begun k x s.core).nv = c.nv := by rw [begun_eq]
      generalize lifeTurn (lcOf u) { s with core := begun k x s.core } = T at *
      obtain ⟨v, el⟩ := lifeEnd_spec k T (begun k x s.core).nv.lc (lcOf u)
      obtain ⟨hends, hothers, l, n, ef⟩ := finish_begun k x 0x00 0 (lcCode (lcOf u)) 0 c { T.core with recd := v } k.isLt hx.running
        (by rw [l6])
      rw [el]
      dsimp only at hends hothers hfuse l1 l5 ⊢
      rw [hnv] at hfuse l5
      refine ⟨hends, hothers, rfl, ?_, ?_, l3, ?_, fun h => ?_, fun h => ?_, ?_⟩
      · rw [ef]
        exact l1
      · rw [ef]
        exact l2
      · rw [hfuse, begun_eq]
        rfl
      · obtain ⟨h1, h2, h3⟩ := l4 h
        rw [ef]
        exact ⟨h1, h2, h3⟩
      · obtain ⟨h1, h2, h3⟩ := l5 (by rcases h with h | h <;> rw [h] <;> decide) (by rcases h with h | h <;> rw [h] <;> decide)
        rw [ef]
        exact ⟨h1, h2, h3⟩
      · rw [ef, l6, begun_eq]

end Sys2Proof.Machine
end

section
/-! SUPPORT. LOAD_CONFIG, LOAD_PROGRAM and CAM_DIRECTORY (R102, R107, R115, R119, R154, R185, R186, R486, R487, R489). -/

namespace Sys2Proof.Machine

/-! ### The end of a load that passes (R115, R119) -/

section
variable (k : Nat) (x : SlotSt) (kind chan : Nat) (b : Bytes) (r0 r1 : Nat) (c e : Core)

/-- How a load that passes ends: in a pair whose standby is not synchronised it is OK_PARTIAL (R115). -/
def LoadEnds (t : Core) : Prop := (paired t = false ∨ standbySynced c = true → Ended k 0x00 0 r0 r1 t) ∧
  (paired t = true → standbySynced c = false → Ended k 0x01 0x01 r0 r1 t)

/-- What a load that passes sends to a synchronised standby (R119, R367). -/
def LoadSends (t : Core) : Prop :=
  (paired t = false ∨ standbySynced c = false → t.twin.txSeq = c.twin.txSeq ∧ t.twin.txPieces = c.twin.txPieces) ∧
  (twinUp t = true → standbySynced c = true →
    t.twin.txPieces.map (fun e => (e.1, e.2.2)) = c.twin.txPieces.map (fun e => (e.1, e.2.2)) ++
      (pieces b).map fun e => (0x13, toLe 1 kind ++ toLe 1 chan ++ [0, 0] ++ toLe 4 b.length ++ toLe 4 e.1 ++ e.2))

theorem loadDone_begun (hk : k < 512) (hd : x.done = none) (hs : e.host.slots = (begun k x c).host.slots) (ht : e.twin = (begun k x c).twin) :
    let t := loadDone k kind chan b r0 r1 e
    LoadEnds k r0 r1 c t ∧ (∀ j, j ≠ k → slotAt t j = slotAt c j) ∧ LoadSends kind chan b c t ∧
    t = { e with
      host := { e.host with slots := t.host.slots, finished := t.host.finished }
      twin := { c.twin with carry := t.twin.carry, txSeq := t.twin.txSeq, txPieces := t.twin.txPieces } } := by
  intro t
  obtain ⟨h1, h2⟩ := load_slot k x c e hs
  obtain ⟨f1, f2, f3, f4, f5⟩ := loadDone_facts k kind chan b r0 r1 e { x with started := true, visible := c.seq.now + 1 } h1 hd hk
  have f6 := loadDone_sends k kind chan b r0 r1 e
  have hb : e.twin = { c.twin with carry := (carryOp x.desc c).twin.carry } := by rw [ht, begun_eq]
  have hsy : standbySynced e = standbySynced c := by unfold standbySynced; rw [hb]
  have htt : loadDone k kind chan b r0 r1 e = t := rfl
  rw [htt] at f1 f2 f3 f4 f5 f6
  clear_value t
  have hp : paired t = paired e := by rw [f5]; rfl
  have hu : twinUp t = twinUp e := by rw [f5]; rfl
  rw [hsy] at f1 f2 f4 f6
  refine ⟨⟨by rw [hp]; exact f1, by rw [hp]; exact f2⟩, fun j hj => (f3 j hj).trans (h2 j hj), ⟨?_, ?_⟩, ?_⟩
  · rw [hp]
    intro h
    rw [f4 h, hb]
    exact ⟨rfl, rfl⟩
  · rw [hu]
    intro h1 h2
    rw [f6 h1 h2, hb]
  · rw [f5, hb]

end

/-! ### The deliveries -/

section
variable (k : Nat) (d : Bytes) (s : State) (c : Core)

theorem cfgDeliver_empty (h : opLen d = 0) : cfgDeliver k d s = { s with core := (finish k 0x00 0 0 0 s.core) } := if_pos h

theorem cfgDeliver_unread (h : opLen d ≠ 0) (hr : opRead s.core k = none) :
    cfgDeliver k d s = { s with core := (finish k 0x32 0 0 0 (hpCount 36 s.core)) } := by
  unfold cfgDeliver
  rw [if_neg h, hr]

theorem cfgDeliver_refused (b : Bytes) (st dt : Nat) (h : opLen d ≠ 0) (hr : opRead s.core k = some b) (hc : cfgCheck s.core (imgOf b) = some (st, dt)) :
    cfgDeliver k d s = { s with core := (finish k st dt 0 0 s.core) } := by
  unfold cfgDeliver
  rw [if_neg h, hr]
  dsimp only
  rw [hc]

theorem cfgDeliver_stores (b : Bytes) (h : opLen d ≠ 0) (hr : opRead s.core k = some b) (hc : cfgCheck s.core (imgOf b) = none) :
    cfgDeliver k d s = { storeConfig (imgOf b) s with
      core := loadDone k 1 0 b (field (sha256 b) 0 4) (field (sha256 b) 4 4) (storeConfig (imgOf b) s).core } := by
  unfold cfgDeliver
  rw [if_neg h, hr]
  dsimp only
  rw [hc]

theorem progDeliver_empty (h : opLen d = 0) : progDeliver k d c = finish k 0x00 0 0 0 c := if_pos h

theorem progDeliver_unread (h : opLen d ≠ 0) (hr : opRead c k = none) : progDeliver k d c = finish k 0x32 0 0 0 (hpCount 36 c) := by
  unfold progDeliver
  dsimp only
  rw [if_neg h, hr]

theorem progDeliver_refused (b : Bytes) (st dt : Nat) (h : opLen d ≠ 0) (hr : opRead c k = some b)
    (hc : progCheck c (byteAt d 8) (imgOf b) = some (st, dt)) : progDeliver k d c = finish k st dt 0 0 c := by
  unfold progDeliver
  dsimp only
  rw [if_neg h, hr]
  dsimp only
  rw [hc]

theorem progDeliver_stores (b : Bytes) (h : opLen d ≠ 0) (hr : opRead c k = some b) (hc : progCheck c (byteAt d 8) (imgOf b) = none) :
    progDeliver k d c = loadDone k 2 (byteAt d 8) b b.length (prStates (imgOf b)) (storeProgram (byteAt d 8) (imgOf b) c) := by
  unfold progDeliver
  dsimp only
  rw [if_neg h, hr]
  dsimp only
  rw [hc]
  rfl

variable (tables : Table Bytes)

theorem dirDeliver_empty (h : opLen d = 0) : dirDeliver k tables d c = finish k 0x00 0 0 0 c := if_pos h

theorem dirDeliver_unread (h : opLen d ≠ 0) (hr : opRead c k = none) : dirDeliver k tables d c = finish k 0x32 0 0 0 (hpCount 36 c) := by
  unfold dirDeliver
  rw [if_neg h, hr]

theorem dirDeliver_refused (b : Bytes) (st dt : Nat) (h : opLen d ≠ 0) (hr : opRead c k = some b) (hc : dirCheck c (imgOf b) = some (st, dt)) :
    dirDeliver k tables d c = finish k st dt 0 0 c := by
  unfold dirDeliver
  rw [if_neg h, hr]
  dsimp only
  rw [hc]

/-- The core in which the reads of the resident tables that failed have been counted (R102, R186). -/
def residentsRead (m : Image) : Core :=
  if c.bar.lib == 0 || !portUp c then c
  else ((dirResidents m).filter fun id => (tget [] tables id).length != dirLen m id).foldl (fun c _ => hpCount 36 c) c

/-- A resident table could not be read, or fails its check (R186). -/
def ResidentUnread (m : Image) : Prop := ∃ id ∈ dirResidents m, c.bar.lib = 0 ∨ portUp c = false ∨
  (tget [] tables id).length ≠ dirLen m id ∨ pageReason m id (tget [] tables id) ≠ none

theorem residentsRead_spec (m : Image) : ∃ ct, residentsRead c tables m = { c with host := { c.host with counters := ct } } ∧
    (c.bar.lib = 0 ∨ portUp c = false → ct = c.host.counters) ∧
    (c.bar.lib ≠ 0 → portUp c = true → ∀ n, tget 0 ct n = if n = 36 then tget 0 c.host.counters 36 +
      BitVec.ofNat 32 ((dirResidents m).filter fun id => (tget [] tables id).length != dirLen m id).length else tget 0 c.host.counters n) := by
  have hb : (c.bar.lib == 0 || !portUp c) = true ↔ (c.bar.lib = 0 ∨ portUp c = false) := by
    rw [Bool.or_eq_true, beq_iff_eq, Bool.not_eq_true']
  unfold residentsRead
  by_cases h : c.bar.lib = 0 ∨ portUp c = false
  · rw [if_pos (hb.mpr h)]
    exact ⟨_, rfl, fun _ => rfl, fun h1 h2 => h.elim (absurd · h1) fun h3 => by rw [h2] at h3; cases h3⟩
  · rw [if_neg fun k => h (hb.mp k)]
    obtain ⟨ct, e, hc⟩ := reads_counted ((dirResidents m).filter fun id => (tget [] tables id).length != dirLen m id) c
    exact ⟨ct, e, fun k => absurd k h, fun _ _ => hc⟩

theorem residentUnread_iff (m : Image) : ((dirResidents m).any fun id => (residentsRead c tables m).bar.lib == 0 ||
    !portUp (residentsRead c tables m) || (tget [] tables id).length != dirLen m id || (pageReason m id (tget [] tables id)).isSome) = true ↔
    ResidentUnread c tables m := by
  obtain ⟨ct, e, -⟩ := residentsRead_spec c tables m
  have h1 : (residentsRead c tables m).bar = c.bar := by rw [e]
  have h2 : portUp (residentsRead c tables m) = portUp c := by rw [e]; rfl
  simp only [ResidentUnread, h1, h2, List.any_eq_true, Bool.or_eq_true, beq_iff_eq, Bool.not_eq_true', bne_iff_ne, ne_eq,
    Option.isSome_iff_ne_none, or_assoc]

theorem dirDeliver_checked (b : Bytes) (h : opLen d ≠ 0) (hr : opRead c k = some b) (hc : dirCheck c (imgOf b) = none) :
    let m := imgOf b
    let e := residentsRead c tables m
    (ResidentUnread c tables m → dirDeliver k tables d c = finish k 0x12 0x25 0 0 e) ∧
    (¬ ResidentUnread c tables m → tablesIn e m = false → dirDeliver k tables d c = finish k 0x12 0x10 0 0 e) ∧
    (¬ ResidentUnread c tables m → tablesIn e m = true → dirDeliver k tables d c = loadDone k 3 0 b (img16 m 12) (img32 m 8)
      (dirStore m ((dirResidents m).map fun id => (id, imgOf (tget [] tables id))) e)) := by
  intro m e
  have hu := residentUnread_iff c tables m
  have hd : dirDeliver k tables d c = if ((dirResidents m).any fun id => e.bar.lib == 0 || !portUp e ||
      (tget [] tables id).length != dirLen m id || (pageReason m id (tget [] tables id)).isSome) = true then finish k 0x12 0x25 0 0 e
      else if (!tablesIn e m) = true then finish k 0x12 0x10 0 0 e
      else loadDone k 3 0 b (img16 m 12) (img32 m 8) (dirStore m ((dirResidents m).map fun id => (id, imgOf (tget [] tables id))) e) := by
    unfold dirDeliver
    rw [if_neg h, hr]
    dsimp only
    rw [hc]
    rfl
  rw [hd]
  refine ⟨fun k => if_pos (hu.mpr k), fun k ht => (if_neg fun q => k (hu.mp q)).trans (if_pos (by rw [ht]; rfl)),
    fun k ht => (if_neg fun q => k (hu.mp q)).trans (if_neg (by rw [ht]; decide))⟩

/-- Where every resident table has been read, no read has failed. -/
theorem residentsRead_same (m : Image) (h : ¬ ResidentUnread c tables m) : residentsRead c tables m = c := by
  unfold residentsRead
  split
  · rfl
  · have : ((dirResidents m).filter fun id => (tget [] tables id).length != dirLen m id) = [] := by
      rw [List.filter_eq_nil_iff]
      intro id hid hl
      exact h ⟨id, hid, .inr (.inr (.inl (by simpa using hl)))⟩
    rw [this]
    rfl

end

section
variable (k : Nat) (x : SlotSt) (c : Core) (tables : Table Bytes) (m : Image)

theorem residentUnread_begun : ResidentUnread (begun k x c) tables m ↔ ResidentUnread c tables m := by
  rw [begun_eq]
  exact Iff.rfl

theorem tablesIn_begun : tablesIn (begun k x c) m = tablesIn c m := by
  rw [begun_eq]
  rfl

theorem residentsRead_begun : ∃ ct, residentsRead (begun k x c) tables m = begun k x { c with host := { c.host with counters := ct } } ∧
    (c.bar.lib = 0 ∨ portUp c = false → ct = c.host.counters) ∧
    (c.bar.lib ≠ 0 → portUp c = true → ∀ n, tget 0 ct n = if n = 36 then tget 0 c.host.counters 36 +
      BitVec.ofNat 32 ((dirResidents m).filter fun id => (tget [] tables id).length != dirLen m id).length else tget 0 c.host.counters n) := by
  obtain ⟨ct, e, h1, h2⟩ := residentsRead_spec (begun k x c) tables m
  have hb := begun_counted k x c c.free ct
  have hf : (begun k x c).free = c.free := by rw [begun_eq]
  rw [← hf] at hb
  refine ⟨ct, e.trans (hb.trans (by rw [hf])), ?_, ?_⟩
  · rw [begun_eq] at h1
    exact h1
  · rw [begun_eq] at h2
    exact h2

end

/-- Settles O58. -/
theorem loadOperations : Obligations.LoadOperations := by
  unfold Obligations.LoadOperations
  intro s k x d c book others done linked sends
  have hnv : (begun k x c).nv = c.nv := by rw [begun_eq]
  refine ⟨fun hx => ?_, fun hx => ?_, fun tables hx => ?_⟩
  · refine ⟨_, runs_readyS hx (f := cfgDeliver k) rfl, fun h => ?_, fun h hd => ?_, fun b h hd => ⟨fun st dt hc => ?_, fun hc => ?_⟩⟩
    · rw [cfgDeliver_empty k x.desc _ h]
      exact ⟨rfl, ends_begun k x _ _ _ _ c k.isLt hx.running⟩
    · rw [cfgDeliver_unread k x.desc { s with core := begun k x s.core } h ((opRead_begun ..).trans hd)]
      exact ⟨rfl, ends_unread k x c k.isLt hx.running⟩
    · rw [cfgDeliver_refused k x.desc { s with core := begun k x s.core } b st dt h ((opRead_begun ..).trans hd)
        ((cfgCheck_congr _ c hnv _).trans hc)]
      exact ⟨rfl, ends_begun k x _ _ _ _ c k.isLt hx.running⟩
    · rw [cfgDeliver_stores k x.desc { s with core := begun k x s.core } b h ((opRead_begun ..).trans hd)
        ((cfgCheck_congr _ c hnv _).trans hc)]
      obtain ⟨f1, f2, f3, f4, f5, f6⟩ := storeConfig_facts (imgOf b) { s with core := begun k x s.core }
      generalize storeConfig (imgOf b) { s with core := begun k x s.core } = T at *
      obtain ⟨g1, g2, g3, g4⟩ := loadDone_begun k x 1 0 b (field (sha256 b) 0 4) (field (sha256 b) 4 4) c T.core k.isLt hx.running
        (by rw [f6]) (by rw [f6])
      dsimp only at f3 f4 f5 f6 ⊢
      rw [begun_eq] at f3 f4 f5 f6
      refine ⟨g1, g2, g3, ?_, ?_, ?_, fun hr => ?_, fun hr => ?_, ?_⟩
      · rw [g4]
        exact f1
      · rw [g4]
        exact f2
      · rw [g4]
        exact f3
      · rw [g4]
        exact f4 hr
      · rw [g4]
        exact f5 hr
      · rw [g4, f6]
  · refine ⟨_, runs_ready hx (f := progDeliver k) rfl, fun h => ?_, fun h hd => ?_, fun b h hd => ⟨fun st dt hc => ?_, fun hc => ?_⟩⟩
    · rw [progDeliver_empty k x.desc _ h]
      exact ⟨rfl, ends_begun k x _ _ _ _ c k.isLt hx.running⟩
    · rw [progDeliver_unread k x.desc _ h ((opRead_begun ..).trans hd)]
      exact ⟨rfl, ends_unread k x c k.isLt hx.running⟩
    · rw [progDeliver_refused k x.desc _ b st dt h ((opRead_begun ..).trans hd) ((progCheck_congr _ c hnv _ _).trans hc)]
      exact ⟨rfl, ends_begun k x _ _ _ _ c k.isLt hx.running⟩
    · rw [progDeliver_stores k x.desc _ b h ((opRead_begun ..).trans hd) ((progCheck_congr _ c hnv _ _).trans hc)]
      obtain ⟨f1, f2, f3⟩ := storeProgram_facts (byteAt x.desc 8) (imgOf b) (begun k x c)
      obtain ⟨g1, g2, g3, g4⟩ := loadDone_begun k x 2 (byteAt x.desc 8) b b.length (prStates (imgOf b)) c
        (storeProgram (byteAt x.desc 8) (imgOf b) (begun k x c)) k.isLt hx.running (by rw [f3]) (by rw [f3])
      generalize storeProgram (byteAt x.desc 8) (imgOf b) (begun k x c) = e at *
      rw [begun_eq] at f1 f2 f3
      refine ⟨g1, g2, g3, ?_, ?_, ?_⟩
      · rw [g4]
        exact f1
      · rw [g4]
        exact f2
      · rw [g4, f3]
  · refine ⟨_, runs_ready hx (f := dirDeliver k tables) rfl, fun h => ?_, fun h hd => ?_, fun b h hd => ?_⟩
    · rw [dirDeliver_empty k x.desc _ tables h]
      exact ⟨rfl, ends_begun k x _ _ _ _ c k.isLt hx.running⟩
    · rw [dirDeliver_unread k x.desc _ tables h ((opRead_begun ..).trans hd)]
      exact ⟨rfl, ends_unread k x c k.isLt hx.running⟩
    · have hread : opRead (begun k x c) k = some b := (opRead_begun ..).trans hd
      obtain ⟨ct, er, hc1, hc2⟩ := residentsRead_begun k x c tables (imgOf b)
      have hsame : ¬ ResidentUnread c tables (imgOf b) → residentsRead (begun k x c) tables (imgOf b) = begun k x c :=
        fun hu => residentsRead_same _ _ _ fun h => hu ((residentUnread_begun ..).mp h)
      have hcheck : dirCheck (begun k x c) (imgOf b) = dirCheck c (imgOf b) := dirCheck_congr _ c hnv _
      refine ⟨fun st dt hc => ?_, fun hc hu => ?_, fun hc hu ht => ?_, fun hc hu ht => ?_⟩
      · rw [dirDeliver_refused k x.desc _ tables b st dt h hread (hcheck.trans hc)]
        exact ⟨rfl, ends_begun k x _ _ _ _ c k.isLt hx.running⟩
      · rw [(dirDeliver_checked k x.desc _ tables b h hread (hcheck.trans hc)).1 ((residentUnread_begun ..).mpr hu), er]
        have he := ends_begun k x 0x12 0x25 0 0 { c with host := { c.host with counters := ct } } k.isLt hx.running
        have hct : (finish k 0x12 0x25 0 0 (begun k x { c with host := { c.host with counters := ct } })).host.counters = ct := by
          rw [he.rest]
        dsimp only
        rw [hct]
        exact ⟨rfl, he, hc1, hc2⟩
      · rw [(dirDeliver_checked k x.desc _ tables b h hread (hcheck.trans hc)).2.1 (fun q => hu ((residentUnread_begun ..).mp q))
          (by rw [hsame hu, tablesIn_begun]; exact ht), hsame hu]
        exact ⟨rfl, ends_begun k x _ _ _ _ c k.isLt hx.running⟩
      · rw [(dirDeliver_checked k x.desc _ tables b h hread (hcheck.trans hc)).2.2 (fun q => hu ((residentUnread_begun ..).mp q))
          (by rw [hsame hu, tablesIn_begun]; exact ht), hsame hu]
        obtain ⟨f1, f2, f3, f4, f5⟩ := dirStore_facts (imgOf b) ((dirResidents (imgOf b)).map fun id => (id, imgOf (tget [] tables id)))
          (begun k x c)
        obtain ⟨g1, g2, g3, g4⟩ := loadDone_begun k x 3 0 b (img16 (imgOf b) 12) (img32 (imgOf b) 8) c
          (dirStore (imgOf b) ((dirResidents (imgOf b)).map fun id => (id, imgOf (tget [] tables id))) (begun k x c)) k.isLt hx.running
          (by rw [f5]) (by rw [f5])
        generalize dirStore (imgOf b) ((dirResidents (imgOf b)).map fun id => (id, imgOf (tget [] tables id))) (begun k x c) = e at *
        rw [begun_eq] at f3 f4 f5
        refine ⟨g1, g2, g3, ?_, ?_, fun hn => ?_, fun hn => ?_, ?_⟩
        · rw [g4]
          exact f1
        · rw [g4]
          exact f2
        · rw [g4]
          exact f3 hn
        · rw [g4]
          refine (f4 hn).imp_right fun hp => hp.trans (congrArg residentPages f2.symm)
        · rw [g4, f5]

end Sys2Proof.Machine
end

section
/-! SUPPORT. The service port: which frames are queries, and how a query is answered or refused (R55 to R59). -/

namespace Sys2Proof.Machine

/-- The unit accepts the frame (R57). -/
def SvcTaken (b : Bytes) (c : Core) : Prop :=
  let n := svcLen b
  c.sys.inReset = false ∧ byteAt b 0 = 0xA5 ∧ n ≤ 240 ∧ b.length = 8 + n ∧ field b (6 + n) 2 = crc16 (slice b 1 (5 + n)) ∧
    (byteAt b 1 = c.nv.svcAddr ∨ byteAt b 1 = 0)

theorem svcTakes_iff (b : Bytes) (s : State) : svcTakes b s = true ↔ SvcTaken b s.core := by
  simp only [svcTakes, svcAccepts, SvcTaken, Bool.and_eq_true, Bool.or_eq_true, Bool.not_eq_true', beq_iff_eq, decide_eq_true_eq, and_assoc]

/-- The query is in its range (R58). -/
def SvcGood (t : Stores) (b : Bytes) : Prop :=
  let n := svcLen b
  let type := byteAt b 2
  let x := byteAt b 6
  let index := field b 6 4
  let count := byteAt b 10
  (type ∈ [2, 3, 4] ∧ n = 0) ∨ (type = 5 ∧ n = 1 ∧ 1 ≤ x ∧ x ≤ 7 ∧ t.wE ≠ 0) ∨
    (type = 6 ∧ n = 5 ∧ 1 ≤ count ∧ count ≤ 7 ∧ index < t.wJ) ∨ (type = 7 ∧ n = 1 ∧ (x ≤ 11 ∨ x = 255)) ∨ (type = 8 ∧ n = 1 ∧ x ≤ 4)

theorem nakReason_good {t : Stores} {b : Bytes} (h : SvcGood t b) : nakReason t b = none := (nak_spec t b).1.mpr h

/-- The reason is that of R58. -/
def NakFor (t : Stores) (b : Bytes) (reason : Nat) : Prop :=
  let n := svcLen b
  let type := byteAt b 2
  let x := byteAt b 6
  let count := byteAt b 10
  (type < 2 ∨ 8 < type → reason = 2) ∧ (type ∈ [2, 3, 4] → reason = 1) ∧ (type ∈ [5, 7, 8] → n ≠ 1 → reason = 1) ∧
    (type = 6 → n ≠ 5 → reason = 1) ∧ (type ∈ [7, 8] → n = 1 → reason = 3) ∧
    (type = 5 → n = 1 → reason = if 1 ≤ x ∧ x ≤ 7 then 4 else 3) ∧
    (type = 6 → n = 5 → reason = if 1 ≤ count ∧ count ≤ 7 ∧ t.wJ = 0 then 4 else 3)

theorem nakReason_bad {t : Stores} {b : Bytes} (h : ¬ SvcGood t b) : ∃ r, nakReason t b = some r ∧ NakFor t b r := by
  cases hr : nakReason t b with
  | none => exact absurd ((nak_spec t b).1.mp hr) h
  | some r => exact ⟨r, rfl, (nak_spec t b).2 r hr⟩

/-- An answer of one type has been sent, and nothing else has changed. -/
def SvcSent (b : Bytes) (kind : Nat) (payload : Bytes) (s t : State) : Prop :=
  t = { s with core := { s.core with out := .service (svcFrame s.core.nv.svcAddr kind (byteAt b 3) payload) :: s.core.out } }

/-- A NAK with its reason has been sent (R58). -/
def SvcRefused (b : Bytes) (s t : State) : Prop :=
  ∃ reason, SvcSent b 0xFF (toLe 1 (byteAt b 2) ++ toLe 1 reason) s t ∧ NakFor s.store b reason

section
variable (type : Nat) (b : Bytes) (answer : State → Bytes) (s : State)

theorem svcQuery_none (h : ¬ SvcTaken b s.core ∨ byteAt b 2 ≠ type) : svcQuery type b answer s = s := by
  refine if_neg fun k => ?_
  rw [Bool.and_eq_true, svcTakes_iff, beq_iff_eq] at k
  exact h.elim (absurd k.1) (absurd k.2)

theorem svcQuery_taken (ht : SvcTaken b s.core) (hty : byteAt b 2 = type) : svcQuery type b answer s =
    match nakReason s.store b with
    | some r => { s with core := svcNak b r s.core }
    | none => { s with core := svcAnswer b (type + 128) (answer s) s.core } :=
  if_pos (by rw [Bool.and_eq_true, svcTakes_iff, beq_iff_eq]; exact ⟨ht, hty⟩)

theorem svcQuery_answers (ht : SvcTaken b s.core) (hty : byteAt b 2 = type) (hg : SvcGood s.store b) :
    SvcSent b (type + 128) (answer s) s (svcQuery type b answer s) := by
  rw [svcQuery_taken type b answer s ht hty, nakReason_good hg]
  rfl

theorem svcQuery_refuses (ht : SvcTaken b s.core) (hty : byteAt b 2 = type) (hg : ¬ SvcGood s.store b) :
    SvcRefused b s (svcQuery type b answer s) := by
  obtain ⟨r, hr, hn⟩ := nakReason_bad hg
  rw [svcQuery_taken type b answer s ht hty, hr]
  exact ⟨r, rfl, hn⟩

/-- A command that carries a query (R58): no query where the frame is not accepted or of another type, else an answer or NAK. -/
theorem query_spec {i : Instr} (hi : Runs i s (svcQuery type b answer s)) :
    (¬ SvcTaken b s.core ∨ byteAt b 2 ≠ type → Runs i s s) ∧
    (SvcTaken b s.core → byteAt b 2 = type → SvcGood s.store b → ∃ t, Runs i s t ∧ SvcSent b (type + 128) (answer s) s t) ∧
    (SvcTaken b s.core → byteAt b 2 = type → ¬ SvcGood s.store b → ∃ t, Runs i s t ∧ SvcRefused b s t) := by
  refine ⟨fun h => ?_, fun ht hty hg => ⟨_, hi, svcQuery_answers type b answer s ht hty hg⟩,
    fun ht hty hg => ⟨_, hi, svcQuery_refuses type b answer s ht hty hg⟩⟩
  rwa [svcQuery_none type b answer s h] at hi

end

/-! ### SET_RATE (R59) -/

/-- The state after SET_RATE: its answer, and the new rate. -/
def rateSet (b : Bytes) (s : State) : State := { svcQuery 0x08 b (fun _ => []) s with
  core := { (svcQuery 0x08 b (fun _ => []) s).core with sys.svcRate := byteAt b 6 } }

theorem setRate_good (b : Bytes) (s : State) (ht : SvcTaken b s.core) (hty : byteAt b 2 = 8) (hg : SvcGood s.store b) :
    Runs (.setRate b) s (rateSet b s) :=
  congrArg Host.Outcome.next (if_pos (by rw [(svcTakes_iff b s).mpr ht, hty, nakReason_good hg]; rfl))

theorem setRate_other (b : Bytes) (s : State) (h : ¬ (SvcTaken b s.core ∧ byteAt b 2 = 8 ∧ SvcGood s.store b)) :
    Runs (.setRate b) s (svcQuery 0x08 b (fun _ => []) s) := by
  refine congrArg Host.Outcome.next (if_neg fun k => h ?_)
  rw [Bool.and_eq_true, Bool.and_eq_true, svcTakes_iff, beq_iff_eq, Option.isNone_iff_eq_none] at k
  exact ⟨k.1.1, k.1.2, (nak_spec s.store b).1.mp k.2⟩

/-! ### NAK (R58) -/

theorem nak_none (b : Bytes) (s : State) (h : ¬ SvcTaken b s.core ∨ SvcGood s.store b) : Runs (.nak b) s s := by
  show execNak b s = .next s
  unfold execNak
  by_cases ht : SvcTaken b s.core
  · rw [if_pos ((svcTakes_iff b s).mpr ht), nakReason_good (h.resolve_left (not_not_intro ht))]
  · rw [if_neg fun k => ht ((svcTakes_iff b s).mp k)]

theorem nak_refuses (b : Bytes) (s : State) (ht : SvcTaken b s.core) (hg : ¬ SvcGood s.store b) : ∃ t, Runs (.nak b) s t ∧ SvcRefused b s t := by
  obtain ⟨r, hr, hn⟩ := nakReason_bad hg
  refine ⟨{ s with core := svcNak b r s.core }, ?_, r, rfl, hn⟩
  show execNak b s = _
  unfold execNak
  rw [if_pos ((svcTakes_iff b s).mpr ht), hr]

/-! ### Unsolicited status (R56) -/

theorem unsolicitedStatus_idle (wait : Option Nat) (s : State) (h : s.core.sys.mode ≠ .safeTalk ∨ s.core.sys.inReset = true) :
    Runs (.unsolicitedStatus wait) s s := by
  refine congrArg Host.Outcome.next (if_neg fun k => ?_)
  rw [Bool.and_eq_true, decide_eq_true_eq, Bool.not_eq_true'] at k
  exact h.elim (absurd k.1) fun hr => by rw [k.2] at hr; cases hr

theorem unsolicitedStatus_runs (wait : Option Nat) (s : State) (h : s.core.sys.mode = .safeTalk) (hr : s.core.sys.inReset = false) :
    Runs (.unsolicitedStatus wait) s
      (if wait = some 0 then { s with core := sendStatus s.core } else { s with core.sys.svcWait := wait }) :=
  congrArg Host.Outcome.next (if_pos (by rw [h, hr]; rfl))

/-- Settles O60. -/
theorem servicePort : Obligations.ServicePort := by
  unfold Obligations.ServicePort
  intro s b c n type x taken index count good sent refused
  refine ⟨fun q hq => ?_, fun h => ?_, fun ht hty hg => ?_, fun ht hty hg => ?_, fun h => nak_none b s h,
    fun ht hg => nak_refuses b s ht hg, fun h wait => unsolicitedStatus_idle wait s h, fun hm hr => ⟨?_, fun wait hw => ?_⟩⟩
  · simp only [List.mem_cons, List.not_mem_nil, or_false] at hq
    obtain rfl | rfl | rfl | rfl | rfl | rfl := hq
    · exact query_spec 2 b (fun s => statusPayload s.core) s rfl
    · exact query_spec 3 b (fun s => identPayload s.core) s rfl
    · exact query_spec 4 b (fun s => stepEntries s.core) s rfl
    · exact query_spec 5 b (fun s => eventsPayload s.store (operand1 b)) s rfl
    · exact query_spec 6 b (fun s => cyclesPayload s.store (field b 6 4) (byteAt b 10)) s rfl
    · exact query_spec 7 b (fun s => portalPayload s.core (operand1 b)) s rfl
  · have hrun := setRate_other b s fun k => h.elim (absurd k.1) (absurd k.2.1)
    rwa [svcQuery_none 8 b _ s h] at hrun
  · exact ⟨_, _, setRate_good b s ht hty hg, svcQuery_answers 8 b (fun _ => []) s ht hty hg, rfl⟩
  · exact ⟨_, setRate_other b s fun k => hg k.2.2, svcQuery_refuses 8 b (fun _ => []) s ht hty hg⟩
  · exact ⟨{ s with core := sendStatus s.core }, unsolicitedStatus_runs (some 0) s hm hr, rfl⟩
  · have hrun := unsolicitedStatus_runs wait s hm hr
    rwa [if_neg hw] at hrun

end Sys2Proof.Machine
end

section
/-! SUPPORT. How records reach their stores: the journal, the event log, full stores, suppressed records (R36, R405, R416, R425 to
R432). -/

namespace Sys2Proof.Machine

/-! ### The front of the FIFO (R425) -/

/-- The state without the oldest record of its FIFO. -/
def unstaged (rest : List Staged) (s : State) : State := { s with core := { s.core with recd := { s.core.recd with fifo := rest } } }

theorem writeRecord_empty (s : State) (h : s.core.recd.fifo = []) : writeRecord s = s := by
  unfold writeRecord
  rw [h]

theorem writeRecord_front (s : State) (r : Staged) (rest : List Staged) (h : s.core.recd.fifo = r :: rest) : writeRecord s =
    if s.core.recd.failed = true then unstaged rest s
    else if r.cycle = true then writeCycle r (unstaged rest s) else writeEvent r (unstaged rest s) := by
  unfold writeRecord
  rw [h]
  rfl

theorem runs_writeRecord (s : State) : Runs .recordWrite s (writeRecord s) := rfl

/-! ### Cycle records (R405, R416, R431, R434) -/

/-- The record in its slot, before its block is closed (R405). -/
def cycleWritten (r : Staged) (s : State) : State := { s with
  store := { s.store with journal := tset emptySlot s.store.journal s.store.wJ r.bytes, wJ := s.store.wJ + 1 }
  core := markSlots (byteAt r.bytes 8) (field r.bytes 0 8) s.store.wJ s.core }

theorem writeCycle_full (r : Staged) (s : State) (h : journalSlots ≤ s.store.wJ) :
    writeCycle r s = { s with core := (totalAdd (byteAt r.bytes 8) 61 s.core) } := if_pos h

theorem writeCycle_plain (r : Staged) (s : State) (h : s.store.wJ < journalSlots) (hb : (s.store.wJ + 1) % 128 ≠ 127) :
    writeCycle r s = cycleWritten r s := (if_neg (Nat.not_le.mpr h)).trans (if_neg hb)

theorem writeCycle_block (r : Staged) (s : State) (h : s.store.wJ < journalSlots) (hb : (s.store.wJ + 1) % 128 = 127) :
    writeCycle r s = journalFull (closeBlock 0 (cycleWritten r s)) := (if_neg (Nat.not_le.mpr h)).trans (if_pos hb)

theorem journalFull_room (s : State) (h : s.store.wJ ≠ journalSlots) : journalFull s = s := if_neg h

/-- The 127th record of a block brings its trailer and its commit (R405, R416, R429). -/
theorem cycleWritten_closes (r : Staged) (s : State) (hb : (s.store.wJ + 1) % 128 = 127) (hc : s.store.wJ / 128 % 256 ≠ 255) :
    ∃ j ch st, closeBlock 0 (cycleWritten r s) = { s with
      store := { s.store with
        journal := j, wJ := s.store.wJ + 2, chainJ := ch, rstJ := false
        committed := (s.store.wJ + 2, s.store.wE, s.store.wC), older := s.store.committed, commits := s.store.commits + 1 }
      core := { s.core with recd := { s.core.recd with stats := st } } } ∧
    tget emptySlot j s.store.wJ = r.bytes ∧
    (∀ i, i ≠ s.store.wJ → i ≠ s.store.wJ + 1 → tget emptySlot j i = tget emptySlot s.store.journal i) ∧
    ∀ u : Stores, u.journal = j → tget emptySlot j (s.store.wJ + 1) = (trailerOf u 0 (s.store.wJ / 128) s.store.chainJ s.store.rstJ).1 := by
  have hw : (cycleWritten r s).store.wJ = s.store.wJ + 1 := rfl
  have hblock : (s.store.wJ + 1) / 128 = s.store.wJ / 128 := by omega
  obtain ⟨st, hst⟩ := markSlots_only (byteAt r.bytes 8) (field r.bytes 0 8) s.store.wJ s.core
  rw [closeJournal_eq (cycleWritten r s) (by rw [hw]; exact hb) (by rw [hw, hblock]; exact hc)]
  generalize htr : trailerOf (cycleWritten r s).store 0 ((cycleWritten r s).store.wJ / 128) (cycleWritten r s).store.chainJ (cycleWritten r s).store.rstJ = tr
  refine ⟨tset emptySlot (cycleWritten r s).store.journal (cycleWritten r s).store.wJ tr.1, tr.2, st, ?_, ?_, fun i h1 h2 => ?_, fun u hu => ?_⟩
  · unfold cycleWritten
    rw [hst]
    rfl
  · exact (tget_tset_other _ _ _ _ _ (by rw [hw]; omega)).trans (tget_tset_same ..)
  · exact (tget_tset_other _ _ _ _ _ (by rw [hw]; exact Ne.symm h2)).trans (tget_tset_other _ _ _ _ _ (Ne.symm h1))
  · refine (tget_tset_same ..).trans ?_
    rw [← htr, hw, hblock]
    refine congrArg Prod.fst (trailerOf_congr u (cycleWritten r s).store _ _ _ fun i hi => ?_)
    rw [storeSlot_journal, storeSlot_journal, hu]
    exact (tget_tset_other _ _ _ _ _ (by rw [hw]; omega)).symm

theorem statGet_statSet (t : Table Nat) (k j v : Nat) : statGet (statSet t k v) j = if k = j then v else statGet t j := by
  unfold statGet statSet
  rw [tget_tset]
  split
  · rename_i h
    rw [h, Nat.xor_assoc, Nat.xor_self, Nat.xor_zero]
  · rfl

/-- A total counts with its stamp (R433). -/
theorem totalAdd_counts (p e : Nat) (c : Core) : statGet (totalAdd p e c).recd.stats (p * 1280 + (1024 + 4 * e)) =
    satAdd 0xFFFFFFFF (statGet c.recd.stats (p * 1280 + (1024 + 4 * e))) 1 := by
  unfold totalAdd statInc
  dsimp only
  rw [statGet_statSet, if_neg (by omega), statGet_statSet, if_neg (by omega), statGet_statSet, if_pos rfl]

/-! ### Event records (R405, R431) -/

/-- The record in its slot, before the log is found full (R405). -/
def eventWritten (r : Staged) (s : State) : State := { s with
  store := { s.store with events := tset emptySlot s.store.events s.store.wE r.bytes, wE := s.store.wE + 1 }
  core := annotate r s.core }

theorem writeEvent_inBlock (r : Staged) (s : State) (h : s.store.wE < eventLast) (hb : (s.store.wE + 1) % 128 ≠ 127) :
    writeEvent r s = eventsFull (eventWritten r s) := (if_neg (Nat.not_le.mpr h)).trans (if_neg hb)

theorem eventsFull_room (s : State) (h : s.store.wE ≠ eventLast) : eventsFull s = s := if_neg h

theorem annotate_other (r : Staged) (c : Core) (h : isTimeSet r = false) : annotate r c = c := if_neg (by rw [h]; decide)

/-! ### Suppressed records (R427) -/

theorem drainSuppressed_full (c : Core) (h : 128 < c.recd.fifo.length ∨ c.recd.powerFail = true) : drainSuppressed c = c :=
  if_pos (by simpa only [Bool.or_eq_true, decide_eq_true_eq] using h)

theorem drainSuppressed_one (c : Core) (code : Nat) (x : SupprSt) (hl : c.recd.fifo.length ≤ 128) (hp : c.recd.powerFail = false)
    (hf : c.recd.failed = false) (hs : c.recd.stoppedE = false) (hd : c.recd.drops = [(code, x)]) : drainSuppressed c =
      { c with recd := { c.recd with
        drops := tset {} c.recd.drops code {}
        fifo := c.recd.fifo ++ [{
          cycle := false, sev := 2, code := 0x0B1, slot := none
          bytes := eventBytes (stampOf c) 0x0B1 0x0D 2 [code + 2 * 65536, x.count, x.firstMs % 2 ^ 32, x.lastMs % 2 ^ 32] }] } } := by
  unfold drainSuppressed
  rw [if_neg (by simp [hp]; omega)]
  rw [show c.recd.drops.foldl _ c = _ from congrArg (List.foldl _ c) hd, List.foldl_cons, List.foldl_nil]
  rw [if_pos (by simp [hf, hs]; omega)]
  exact event_staged { c with recd := { c.recd with drops := tset {} c.recd.drops code {} } } 0x0B1 0x0D _ hf hs hp
    (show c.recd.fifo.length < 248 by omega) rfl

/-- Settles O46. -/
theorem recordsStored : Obligations.RecordsStored := by
  unfold Obligations.RecordsStored
  refine fun s => ⟨fun h => ?_, fun r rest h => ⟨fun hf => ?_, fun hf hc => ⟨fun hw hb => ?_, fun hw hb h255 => ?_, fun hw => ?_⟩,
    fun hf hc => ⟨fun hw hb ht => ?_, fun hw => ?_⟩⟩, fun h => ?_, fun code x hl hp hf hs hd => ?_⟩
  · have := runs_writeRecord s
    rwa [writeRecord_empty s h] at this
  · have := runs_writeRecord s
    rwa [writeRecord_front s r rest h, if_pos hf] at this
  · have hrun := runs_writeRecord s
    rw [writeRecord_front s r rest h, if_neg (by rw [hf]; decide), if_pos hc, writeCycle_plain r (unstaged rest s) hw hb] at hrun
    obtain ⟨st, hst⟩ := markSlots_only (byteAt r.bytes 8) (field r.bytes 0 8) s.store.wJ (unstaged rest s).core
    refine ⟨_, hrun, tget_tset_same .., fun i hi => tget_tset_other _ _ _ _ _ (Ne.symm hi), ?_⟩
    unfold cycleWritten
    rw [show (unstaged rest s).store.wJ = s.store.wJ from rfl, hst]
    rfl
  · have hrun := runs_writeRecord s
    have hlt : s.store.wJ < journalSlots := by omega
    rw [writeRecord_front s r rest h, if_neg (by rw [hf]; decide), if_pos hc, writeCycle_block r (unstaged rest s) hlt hb] at hrun
    obtain ⟨j, ch, st, e, h1, h2, h3⟩ := cycleWritten_closes r (unstaged rest s) hb h255
    rw [e, journalFull_room _ (Nat.ne_of_lt hw)] at hrun
    exact ⟨_, hrun, h1, h3 _ rfl, h2, rfl⟩
  · have hrun := runs_writeRecord s
    rw [writeRecord_front s r rest h, if_neg (by rw [hf]; decide), if_pos hc, writeCycle_full r (unstaged rest s) hw] at hrun
    exact ⟨_, hrun, totalAdd_counts (byteAt r.bytes 8) 61 (unstaged rest s).core, rfl⟩
  · have hrun := runs_writeRecord s
    rw [writeRecord_front s r rest h, if_neg (by rw [hf]; decide), if_neg (by rw [hc]; decide),
      writeEvent_inBlock r (unstaged rest s) (show s.store.wE < eventLast by omega) hb, eventsFull_room _ (Nat.ne_of_lt hw)] at hrun
    refine ⟨_, hrun, tget_tset_same .., fun i hi => tget_tset_other _ _ _ _ _ (Ne.symm hi), ?_⟩
    unfold eventWritten
    rw [annotate_other r _ ht]
    rfl
  · have hrun := runs_writeRecord s
    rw [writeRecord_front s r rest h, if_neg (by rw [hf]; decide), if_neg (by rw [hc]; decide),
      writeEvent_inBlock r (unstaged rest s) (show s.store.wE < eventLast by omega) (show (s.store.wE + 1) % 128 ≠ 127 by rw [hw]; decide)] at hrun
    obtain ⟨b, w, st, hbytes, he, hj, hwj, hrecd⟩ := eventsFull_last (eventWritten r (unstaged rest s)) hw
    have hslot : ∀ i, storeSlot (eventsFull (eventWritten r (unstaged rest s))).store 1 i =
        tget emptySlot (tset emptySlot (tset emptySlot (tset emptySlot s.store.events s.store.wE r.bytes) eventLast b) (eventLast + 1) w) i :=
      fun i => by rw [storeSlot_events, he]; rfl
    have hlast : storeSlot (eventsFull (eventWritten r (unstaged rest s))).store 1 eventLast = b := by
      rw [hslot, tget_tset_other _ _ _ _ _ (by omega), tget_tset_same]
    have hfifo : (eventWritten r (unstaged rest s)).core.recd.fifo = rest := congrArg (·.fifo) (annotate_recd r _)
    rw [hfifo] at hrecd
    refine ⟨_, hrun, ?_, ?_, ?_, ?_, fun x => ?_, hj, hwj⟩
    · rw [hslot, tget_tset_other _ _ _ _ _ (by omega), tget_tset_other _ _ _ _ _ (by omega), tget_tset_same]
    · rw [hlast, hbytes]
      exact eventBytes_code ..
    · rw [hlast, hbytes]
      exact eventBytes_param st 0x0B2 0x0D 3 [1] 0 (by decide)
    · rw [hrecd]
    · rw [hrecd]
      exact List.mem_filter
  · exact congrArg (fun c => Host.Outcome.next { s with core := c }) (drainSuppressed_full s.core h)
  · have e := drainSuppressed_one s.core code x hl hp hf hs hd
    have hrun : Runs .fifoDrainSuppressed s { s with core := drainSuppressed s.core } := rfl
    exact ⟨_, _, runs_core e hrun, rfl, rfl, tget_tset_same ({} : SupprSt) s.core.recd.drops code {}, rfl, rfl⟩

end Sys2Proof.Machine
end

section
/-! SUPPORT. Timers, degraded portals, forces, request timeouts, subscriptions, host lost (R103, R116, R118, R142, R324, R353, R401). -/

namespace Sys2Proof.Machine

section
variable (c : Core)

/-! ### Timers and degraded portals (R142, R324) -/

/-- A timer that is due at the next tick expires (R142). -/
def expired (now : Nat) (t : TimerSt) : TimerSt := if t.due = some (now + 1) then { due := none, exp := true } else t

theorem timerExpires_chan (n k j : Nat) : chAt (timerExpires n k c) j =
    if n = j then { chAt c n with timers := tmod {} (chAt c n).timers k (expired c.seq.now) } else chAt c j := chAt_mod ..

theorem takeDegraded_at (p j : Nat) : tget {} (takeDegraded p c).nv.degraded j =
    if p = j then { tget {} c.nv.degraded p with isoReq := (tget {} c.nv.degraded p).on } else tget {} c.nv.degraded j :=
  tget_tmod {} c.nv.degraded p j fun d => { d with isoReq := d.on }

theorem takeIsolateFail_at (p j : Nat) : tget {} (takeIsolateFail p c).nv.degraded j =
    if p = j then { tget {} c.nv.degraded p with failed := true } else tget {} c.nv.degraded j :=
  tget_tmod {} c.nv.degraded p j fun d => { d with failed := true }

/-! ### Forces (R353) -/

theorem takeForceEnd_over (u : Nat) (f : ForceSt) (h : tget none c.seq.forces u = some f) (ht : f.ticks = 0) :
    takeForceEnd u c = endForce u 0x00 0 (readBack c u) c := by
  unfold takeForceEnd
  rw [h]
  exact if_pos ht

/-- A force that has ended meanwhile, or runs on, is left. -/
theorem takeForceEnd_keeps (u : Nat) (h : ∀ f, tget none c.seq.forces u = some f → f.ticks ≠ 0) : takeForceEnd u c = c := by
  unfold takeForceEnd
  cases hf : tget none c.seq.forces u with
  | none => rfl
  | some f => exact if_neg (h f hf)

/-! ### Requests (R116, R118) -/

/-- A request whose deadline has not passed is left. -/
theorem timeoutSlot_early (k : Nat) (h : ∀ x d, slotAt c k = some x → x.deadline = some d → c.seq.now < d) : timeoutSlot k c = c := by
  unfold timeoutSlot
  cases hx : slotAt c k with
  | none => rfl
  | some x =>
    refine if_pos ?_
    cases hd : x.deadline with
    | none => rfl
    | some d =>
      have := h x d hx hd
      simp only [Option.any_some, Bool.not_eq_true', decide_eq_false_iff_not]
      omega

/-- The core in which the request has no deadline any more. -/
def undated (k : Nat) (x : SlotSt) (c : Core) : Core := setSlot k (some { x with deadline := none }) c

/-- The open parts of the operation. -/
def openParts (x : SlotSt) : List Nat := (List.range 12).filter (partOpen x)

theorem timeoutSlot_late (k : Nat) (x : SlotSt) (hx : slotAt c k = some x) (hd : ∃ d, x.deadline = some d ∧ d ≤ c.seq.now) :
    timeoutSlot k c = if slotOp x = 0x12 then (if c.seq.carSlot = some k then endCar 0x01 0x03 0 (undated k x c) else undated k x c)
      else (openParts x).foldl (fun c p => dropFlags p c) ((openParts x).foldl (fun c p => endPart k p 0x01 0x03 c) (undated k x c)) := by
  obtain ⟨d, h1, h2⟩ := hd
  unfold timeoutSlot
  rw [hx]
  refine if_neg ?_
  rw [h1]
  simpa using h2

end

theorem dropAll_only (l : List Nat) (c : Core) : ∃ t, l.foldl (fun c p => dropFlags p c) c = { c with seq.channels := t } :=
  foldCh_only _ (fun c p => dropFlags_only p c) l c

/-- What a request timeout touches: slots, host flags, and the CAR_REQUEST in flight (R116, R118). -/
theorem timeoutSlot_only (k : Nat) (c : Core) : ∃ h t o, timeoutSlot k c =
    { c with host := h, seq := { c.seq with channels := t, carSlot := o } } := by
  unfold timeoutSlot
  cases slotAt c k with
  | none => exact ⟨_, _, _, rfl⟩
  | some x =>
    dsimp only
    split
    · exact ⟨_, _, _, rfl⟩
    · split
      · split
        · have h := (endCar_spec 0x01 0x03 0 (setSlot k (some { x with deadline := none }) c)).rest
          generalize endCar 0x01 0x03 0 (setSlot k (some { x with deadline := none }) c) = e at h
          rw [h]
          exact ⟨_, _, _, rfl⟩
        · exact ⟨_, _, _, rfl⟩
      · obtain ⟨l, n, e⟩ := endParts_host k 0x01 0x03 ((List.range 12).filter (partOpen x)) (setSlot k (some { x with deadline := none }) c)
        obtain ⟨t, e2⟩ := dropAll_only ((List.range 12).filter (partOpen x))
          (((List.range 12).filter (partOpen x)).foldl (fun c p => endPart k p 0x01 0x03 c) (setSlot k (some { x with deadline := none }) c))
        rw [e2, e]
        exact ⟨_, _, _, rfl⟩

/-- The open parts of a PORTAL_REQUEST end with the timeout (R116). -/
theorem timeoutSlot_portals (k : Nat) (x : SlotSt) (c : Core) (hx : slotAt c k = some x) (hd : ∃ d, x.deadline = some d ∧ d ≤ c.seq.now)
    (ho : slotOp x = 0x10) (hk : k < 512) : ∃ y, slotAt (timeoutSlot k c) k = some y ∧ y.deadline = none ∧ y.reached = x.reached ∧
      ∀ p, p < 12 → partOpen x p = true → tget 0 y.ended p = 0x103 ∧ partOpen y p = false := by
  have hs : slotAt (undated k x c) k = some { x with deadline := none } := (slotAt_setSlot k k _ c).trans (if_pos rfl)
  have hpart : ∀ p, partOpen { x with deadline := none } p = partOpen x p := fun _ => rfl
  have hmem : ∀ p, p ∈ openParts x ↔ p < 12 ∧ partOpen x p = true := fun p => by
    rw [openParts, List.mem_filter, List.mem_range]
  obtain ⟨y, hy, hsame, hended, -⟩ := endParts_slot k 0x01 0x03 (openParts x) (undated k x c) { x with deadline := none } hk hs
    (List.nodup_range.filter _) fun p hp => (hmem p).mp hp
  rw [timeoutSlot_late c k x hx hd, if_neg (by rw [ho]; decide)]
  obtain ⟨t, e⟩ := dropAll_only (openParts x) ((openParts x).foldl (fun c p => endPart k p 0x01 0x03 c) (undated k x c))
  rw [e]
  exact ⟨y, hy, by rw [hsame], by rw [hsame], fun p hp h => hended p ((hmem p).mpr ⟨hp, h⟩)⟩

/-- A CAR_REQUEST ends with the timeout, and its flag is cleared (R118). -/
theorem timeoutSlot_car (k : Nat) (x : SlotSt) (c : Core) (hx : slotAt c k = some x) (hd : ∃ d, x.deadline = some d ∧ d ≤ c.seq.now)
    (ho : slotOp x = 0x12) (hc : c.seq.carSlot = some k) (hk : k < 512) (hdone : x.done = none) :
    Ended k 1 3 0 0 (timeoutSlot k c) ∧ (timeoutSlot k c).seq.carSlot = none ∧
      (chAt (timeoutSlot k c) 12).hf = setBit (chAt c 12).hf (byteAt x.desc 8) false := by
  have hs : slotAt (undated k x c) k = some { x with deadline := none } := (slotAt_setSlot k k _ c).trans (if_pos rfl)
  have he := endCar_spec 0x01 0x03 0 (undated k x c)
  rw [timeoutSlot_late c k x hx hd, if_pos ho, if_pos hc]
  refine ⟨he.ended k _ hc hs hdone hk, ?_, ?_⟩
  · rw [he.rest]
  · exact he.flag k { x with deadline := none } hc hs

/-- Settles O35. -/
theorem timedDetections : Obligations.TimedDetections := by
  unfold Obligations.TimedDetections
  intro s
  refine ⟨fun n k h => runs_notDue (d := .timer n k) rfl h,
    fun p => ⟨fun h => runs_notDue (d := .degraded p) rfl h, fun h => runs_notDue (d := .isolateFail p) rfl h⟩,
    fun u => ⟨fun h => runs_notDue (d := .forceEnd u) rfl h, fun h hf => ?_⟩,
    fun k => ⟨fun h => runs_notDue (d := .requestTimeout k) rfl h, fun h hd => ?_⟩,
    fun u h => runs_notDue (d := .subTimeout u) rfl h, fun h => runs_notDue (d := .hostLost) rfl h,
    fun n k h => ?_, fun p h => ?_, fun p h => ?_, fun u f x h hf ht hx hd hk => ?_, fun k x h hx hdone hd => ?_, fun u h => ?_, fun h => ?_⟩
  · exact runs_core (takeForceEnd_keeps (takenOff (.forceEnd u) s.core) u hf) (runs_due (d := .forceEnd u) rfl h)
  · exact runs_core (timeoutSlot_early (takenOff (.requestTimeout k) s.core) k hd) (runs_due (d := .requestTimeout k) rfl h)
  · have hch := timerExpires_chan (takenOff (.timer n k) s.core) n k
    refine ⟨_, runs_due (d := .timer n k) rfl h, ?_, fun j hj => ?_, fun j hj => (hch j).trans (if_neg (Ne.symm hj)), rfl⟩
    · show tget {} (chAt (timerExpires n k (takenOff (.timer n k) s.core)) n).timers k = _
      rw [hch, if_pos rfl]
      exact (tget_tmod ..).trans (if_pos rfl)
    · show tget {} (chAt (timerExpires n k (takenOff (.timer n k) s.core)) n).timers j = _
      rw [hch, if_pos rfl]
      exact (tget_tmod ..).trans (if_neg (Ne.symm hj))
  · have hat := takeDegraded_at (takenOff (.degraded p) s.core) p
    exact ⟨_, runs_due (d := .degraded p) rfl h, (hat p).trans (if_pos rfl), fun j hj => (hat j).trans (if_neg (Ne.symm hj)), rfl⟩
  · have hat := takeIsolateFail_at (takenOff (.isolateFail p) s.core) p
    exact ⟨_, runs_due (d := .isolateFail p) rfl h, (hat p).trans (if_pos rfl), fun j hj => (hat j).trans (if_neg (Ne.symm hj)), rfl⟩
  · obtain ⟨⟨l, n, e⟩, h2, -, h4⟩ := endForce_facts u 0x00 (readBack (takenOff (.forceEnd u) s.core) u) (takenOff (.forceEnd u) s.core)
    have hrun := runs_due (d := .forceEnd u) (i := .forceDurationEnd u) rfl h
    refine ⟨_, runs_core (takeForceEnd_over (takenOff (.forceEnd u) s.core) u f hf ht) hrun, h4 f x hf hk hx hd, (h2 u).trans (if_pos rfl),
      fun j hj => (h2 j).trans (if_neg hj), ?_⟩
    rw [e]
    rfl
  · obtain ⟨g, t, o, e⟩ := timeoutSlot_only k (takenOff (.requestTimeout k) s.core)
    refine ⟨_, runs_due (d := .requestTimeout k) rfl h,
      fun ho _ => timeoutSlot_portals k x (takenOff (.requestTimeout k) s.core) hx hd ho k.isLt,
      fun ho hc => timeoutSlot_car k x (takenOff (.requestTimeout k) s.core) hx hd ho hc k.isLt hdone, ?_⟩
    have et : takeDue (.requestTimeout k) (takenOff (.requestTimeout k) s.core) = _ := e
    unfold detected
    rw [et]
    rfl
  · have hsub := fun j => subAt_mod u j (fun x => { x with state := 3 }) (takenOff (.subTimeout u) s.core)
    obtain ⟨v, e⟩ := event_only 0x0A0 0x0C [u] (modSub u (fun x => { x with state := 3 }) (takenOff (.subTimeout u) s.core))
    exact ⟨_, runs_core e (runs_due (d := .subTimeout u) (i := .trainSubTimeout u) rfl h), (hsub u).trans (if_pos rfl),
      fun j hj => (hsub j).trans (if_neg (Ne.symm hj)), rfl⟩
  · have hrun := runs_due (d := .hostLost) (i := .hostLost) rfl h
    cases hl : s.core.sys.hostLost with
    | true =>
      refine ⟨_, runs_core (if_pos hl : takeHostLost (takenOff .hostLost s.core) = _) hrun, hl, fun _ => rfl, ?_⟩
      rw [← hl]
      rfl
    | false =>
      obtain ⟨v, e⟩ := event_only 0x011 0x01 [] { takenOff .hostLost s.core with sys.hostLost := true }
      have et : takeHostLost (takenOff .hostLost s.core) = _ :=
        (if_neg (show ¬ s.core.sys.hostLost = true by rw [hl]; decide)).trans e
      exact ⟨_, runs_core et hrun, rfl, (fun k => by cases k), rfl⟩

end Sys2Proof.Machine
end

section
/-! SUPPORT. Transmission on the train-line ports: datasets, the unit-failed telegram, ARP, ICMP and the PHY (R386, R394 to R399). -/

namespace Sys2Proof.Machine

/-! ### What one telegram leaves on the ports (R386) -/

section
variable {B : Nat → Bool} {comId dest pcp : Nat} {b : Bytes} {c d : Core}
  (hd : d = (List.range 2).foldl (fun c p => if B p then sendOn p comId dest pcp b c else c) c)
include hd

theorem sentBoth_only : d = { c with train := { c.train with ports := d.train.ports }, out := d.out } := by
  obtain ⟨q, o, e⟩ := (sendBoth B comId dest pcp b c).1
  rw [hd, e]

/-- A multicast telegram leaves on the ports whose link is up, and is counted there. -/
theorem sentBoth_multicast (h : unicast dest = false) :
    d.out = (if B 1 && (portAt c 1).linkUp then [Output.telegram 1 (tlVid (cfgOf c) 1) comId dest pcp b] else []) ++
      (if B 0 && (portAt c 0).linkUp then [Output.telegram 0 (tlVid (cfgOf c) 0) comId dest pcp b] else []) ++ c.out ∧
    (∀ p, p < 2 → (B p && (portAt c p).linkUp) = true →
      tget 0 (portAt d p).counters 4 = tget 0 (portAt c p).counters 4 + 1) ∧
    (∀ p, p < 2 → (B p && (portAt c p).linkUp) = false → portAt d p = portAt c p) := by
  obtain ⟨hout, hports⟩ := (sendBoth B comId dest pcp b c).2.1 h
  rw [← hd] at hout hports
  refine ⟨hout, fun p hp hleaves => ?_, fun p hp hstays => ?_⟩
  · rw [hports p hp, if_pos hleaves]
    dsimp only
    rw [tget_tmod, if_pos rfl]
  · rw [hports p hp, if_neg (by rw [hstays]; decide)]

/-- A telegram to an address that did not answer is not sent: the port counts it, and asks for the address. -/
theorem sentBoth_unresolved (h : unicast dest = true)
    (hr : ∀ p, p < 2 → onLink (cfgOf c) p dest = true ∧ dest ∉ (portAt c p).arp) :
    (∀ p, p < 2 → (B p && (portAt c p).linkUp) = true →
      tget 0 (portAt d p).counters 32 = tget 0 (portAt c p).counters 32 + 1 ∧
      tget 0 (portAt d p).counters 4 = tget 0 (portAt c p).counters 4 + 1 ∧
      Output.arp p (tlVid (cfgOf c) p) dest ∈ d.out) ∧
    ∀ o, o ∈ d.out → o ∈ c.out ∨ ∃ p, o = Output.arp p (tlVid (cfgOf c) p) dest := by
  obtain ⟨hout, hports⟩ := (sendBoth B comId dest pcp b c).2.2 h hr
  rw [← hd] at hout hports
  refine ⟨fun p hp hleaves => ⟨?_, ?_, ?_⟩, fun o ho => ?_⟩
  · rw [hports p hp, if_pos hleaves]
    dsimp only
    rw [tget_tmod, if_pos rfl, tget_tmod, if_neg (by decide)]
  · rw [hports p hp, if_pos hleaves]
    dsimp only
    rw [tget_tmod, if_neg (by decide), tget_tmod, if_pos rfl]
  · rw [hout]
    obtain rfl | rfl : p = 0 ∨ p = 1 := by omega
    all_goals simp [hleaves]
  · rw [hout, List.mem_append, List.mem_append] at ho
    rcases ho with (ho | ho) | ho
    · exact .inr ⟨1, by simpa using (List.mem_ite_nil_right.mp ho).2⟩
    · exact .inr ⟨0, by simpa using (List.mem_ite_nil_right.mp ho).2⟩
    · exact .inl ho

end

/-! ### Datasets (R394, R396) -/

/-- No dataset waits any more. -/
def undue (c : Core) : Core := { c with train := { c.train with due := [] } }

theorem telegramPublish_held (s : State) (h : s.core.sys.inReset = true) : Runs .telegramPublish s s :=
  congrArg Host.Outcome.next (if_pos h)

theorem telegramPublish_silent (s : State) (hr : s.core.sys.inReset = false) (hp : publishes s.core = false) :
    Runs .telegramPublish s { s with core := undue s.core } :=
  congrArg Host.Outcome.next ((if_neg (by rw [hr]; decide)).trans (if_neg (show ¬ publishes (undue s.core) = true by
    rw [show publishes (undue s.core) = publishes s.core from rfl, hp]; decide)))

theorem telegramPublish_one (s : State) (x : Nat × Nat × Bytes) (hr : s.core.sys.inReset = false) (hp : publishes s.core = true)
    (hx : s.core.train.due = [x]) : Runs .telegramPublish s (sendDue { s with core := undue s.core } x) := by
  change execTelegramPublish s = _
  unfold execTelegramPublish
  rw [if_neg (by rw [hr]; decide), hx]
  exact congrArg Host.Outcome.next (if_pos hp)

/-! ### The unit-failed telegram (R397) -/

theorem unitFailedTelegram_silent (s : State) (h : s.core.sys.mode ≠ .safeTalk ∨ s.core.sys.inReset = true ∨ s.core.sys.txOff = true ∨
    s.core.train.ufMs < 1000 ∨ tlN (cfgOf s.core) 20 4 = 0) : Runs .unitFailedTelegram s s := by
  refine congrArg Host.Outcome.next (if_neg ?_)
  simp only [Bool.and_eq_true, Bool.not_eq_true', decide_eq_true_eq]
  rintro ⟨⟨⟨⟨hmode, hr⟩, hx⟩, hms⟩, hid⟩
  rcases h with h | h | h | h | h
  · exact h hmode
  · rw [hr] at h; cases h
  · rw [hx] at h; cases h
  · omega
  · exact hid h

theorem unitFailedTelegram_due (s : State) (hmode : s.core.sys.mode = .safeTalk) (hr : s.core.sys.inReset = false)
    (hx : s.core.sys.txOff = false) (hms : 1000 ≤ s.core.train.ufMs) (hid : tlN (cfgOf s.core) 20 4 ≠ 0) :
    Runs .unitFailedTelegram s (unitFailed s) :=
  congrArg Host.Outcome.next (if_pos (by simp [hmode, hr, hx, hms, hid]))

/-- The telegram that says that the unit has failed. -/
def failedTelegram (s : State) : Bytes :=
  telegram (trainKey s (tlN (cfgOf s.core) 28 1)) (tlN (cfgOf s.core) 28 1) 1 (tlN (cfgOf s.core) 14 2)
    (0xFFFE + unitId s.core) s.core.nv.epoch.toNat (s.core.nv.opMs / 1000) (tlN (cfgOf s.core) 20 4)
    (toLe 8 Config.serial.toNat ++ toLe 1 (modeCode s.core.sys.mode) ++ toLe 1 s.core.sys.cause ++ toLe 1 (unitId s.core) ++ [0]
      ++ toLe 8 (stampOf s.core))

/-- One period of the telegram has passed. -/
def failedTold (c : Core) : Core := { c with train := { c.train with ufMs := c.train.ufMs - 1000 } }

theorem failedTold_ufMs (c : Core) : (failedTold c).train.ufMs = c.train.ufMs - 1000 := rfl

theorem failedTold_port (p : Nat) (c : Core) : portAt (failedTold c) p = portAt c p := by
  unfold portAt failedTold
  rfl

theorem failedTold_cfg (c : Core) : cfgOf (failedTold c) = cfgOf c := by
  unfold cfgOf failedTold
  rfl

theorem unitFailed_sent (s : State) : ∃ d, unitFailed s = { s with core := d } ∧
    d = (List.range 2).foldl (fun c p => if (fun _ => true) p then
      sendOn p (tlN (cfgOf s.core) 20 4) (tlIp (cfgOf s.core) 24) (tlN (cfgOf s.core) 29 1) (failedTelegram s) c else c)
      (failedTold s.core) := ⟨_, rfl, rfl⟩

/-! ### Frames that a port answers (R386, R399) -/

section
variable {p : Nat} {vid : Option Nat} {c : Core} (f : Core → Core)

theorem answered_unserved (h : ¬ (trainOn c = true ∧ (portAt c p).linkUp = true)) : answered p vid f c = c :=
  if_pos (by
    rw [Bool.or_eq_true, Bool.not_eq_true', Bool.not_eq_true', ← Bool.not_eq_true, ← Bool.not_eq_true,
      ← Classical.not_and_iff_not_or_not]
    exact h)

variable (hserved : trainOn c = true ∧ (portAt c p).linkUp = true)
include hserved

theorem answered_mistagged (h : vidOk (cfgOf c) p vid = false) : answered p vid f c = tlCount p 16 (tlCount p 0 c) := by
  unfold answered
  rw [if_neg (by rw [hserved.1, hserved.2]; decide)]
  exact if_neg (by rw [h]; decide)

/-- The port has counted a frame, and storm control its cost. -/
def charged (p : Nat) (c : Core) : Core := modPort p (fun x => { x with spent := x.spent + 1000 }) (tlCount p 0 c)

theorem answered_passed (h : vidOk (cfgOf c) p vid = true) (hstorm : (portAt c p).spent + 1000 ≤ tlN (cfgOf c) 18 1 * 1000)
    (hroom : (portAt c p).norm.length < 16) : answered p vid f c = f (charged p c) := by
  have hport := portAt_counted p 0 c
  unfold answered
  rw [if_neg (by rw [hserved.1, hserved.2]; decide)]
  refine (if_pos h).trans ?_
  unfold normalIn
  dsimp only
  rw [hport]
  refine (if_neg (Nat.not_lt.mpr hstorm)).trans ?_
  exact if_neg (Nat.not_le.mpr hroom)

end

theorem charged_icmp (p : Nat) (c : Core) : (portAt (charged p c) p).icmp = (portAt c p).icmp := by
  unfold charged
  rw [portAt_mod, if_pos rfl, portAt_counted]

/-! ### ARP (R386) -/

theorem arpReply_spec (p ip asker : Nat) (c : Core) (hcfg : c.run.cfg.isSome = true) :
    (arpReply p ip asker c).out = (if ip = tlIp (cfgOf c) (4 * p) then [Output.arp p (tlVid (cfgOf c) p) asker] else []) ++ c.out ∧
    ∃ q o, arpReply p ip asker c = { c with train := { c.train with ports := q }, out := o } := by
  unfold arpReply
  rw [hcfg, Bool.true_and]
  by_cases h : ip = tlIp (cfgOf c) (4 * p)
  · rw [if_pos (beq_iff_eq.mpr h), if_pos h]
    exact ⟨rfl, _, _, rfl⟩
  · rw [if_neg (by rwa [beq_iff_eq]), if_neg h]
    exact ⟨rfl, _, _, rfl⟩

/-- The port has asked for an address. -/
def asked (p : Nat) (c : Core) (d : Nat) : Core := emit (.arp p (tlVid (cfgOf c) p) d) (tlCount p 4 c)

theorem asked_each (p : Nat) (l : List Nat) (c : Core) :
    (∀ q, q ≠ p → portAt (l.foldl (asked p) c) q = portAt c q) ∧
    ∃ q o, l.foldl (asked p) c = { c with train := { c.train with ports := q }, out := o } := by
  induction l generalizing c with
  | nil => exact ⟨fun _ _ => rfl, _, _, rfl⟩
  | cons d l ih =>
    obtain ⟨hother, q, o, e⟩ := ih (asked p c d)
    refine ⟨fun q hq => (hother q hq).trans ?_, q, o, e⟩
    exact (portAt_count p 4 q c).trans (if_neg (Ne.symm hq))

theorem arpRefresh_spec (p : Nat) (answers : List Nat) (c : Core) :
    (∀ d, d ∈ (portAt (arpRefresh p answers c) p).arp ↔ d ∈ destsOf (cfgOf c) p ∧ d ∈ answers) ∧
    (∀ q, q ≠ p → portAt (arpRefresh p answers c) q = portAt c q) ∧
    ∃ q o, arpRefresh p answers c = { c with train := { c.train with ports := q }, out := o } := by
  have hdef : arpRefresh p answers c = modPort p (fun x => { x with arp := (destsOf (cfgOf c) p).filter answers.contains })
    ((destsOf (cfgOf c) p).foldl (asked p) c) := rfl
  obtain ⟨hother, q, o, e⟩ := asked_each p (destsOf (cfgOf c) p) c
  refine ⟨fun d => ?_, fun q hq => ?_, ?_⟩
  · rw [hdef, portAt_mod, if_pos rfl]
    simp
  · rw [hdef, portAt_mod, if_neg (Ne.symm hq), hother q hq]
  · rw [hdef, e]
    exact ⟨_, _, rfl⟩

/-! ### ICMP (R386) -/

theorem echoBack_spec (p src dst : Nat) (data : Bytes) (c : Core) (hcfg : c.run.cfg.isSome = true) :
    (let answers := dst = tlIp (cfgOf c) (4 * p) ∧ onLink (cfgOf c) p src = true ∧ 0 < (portAt c p).icmp
     (answers → (echoBack p src dst data c).out = .echoReply p (tlVid (cfgOf c) p) src data :: c.out ∧
       (portAt (echoBack p src dst data c) p).icmp = (portAt c p).icmp - 1) ∧
     (¬ answers → (echoBack p src dst data c).out = c.out ∧ (portAt (echoBack p src dst data c) p).icmp = (portAt c p).icmp)) ∧
    ∃ q o, echoBack p src dst data c = { c with train := { c.train with ports := q }, out := o } := by
  have hguard : (c.run.cfg.isSome && dst == tlIp (cfgOf c) (4 * p) && onLink (cfgOf c) p src && (portAt c p).icmp != 0) = true ↔
      dst = tlIp (cfgOf c) (4 * p) ∧ onLink (cfgOf c) p src = true ∧ 0 < (portAt c p).icmp := by
    simp [hcfg, and_assoc, Nat.pos_iff_ne_zero]
  unfold echoBack
  dsimp only
  by_cases h : dst = tlIp (cfgOf c) (4 * p) ∧ onLink (cfgOf c) p src = true ∧ 0 < (portAt c p).icmp
  · rw [if_pos (hguard.mpr h)]
    refine ⟨⟨fun _ => ⟨rfl, ?_⟩, fun hn => absurd h hn⟩, _, _, rfl⟩
    rw [portAt_emit, portAt_counted, portAt_mod, if_pos rfl]
  · rw [if_neg (mt hguard.mp h)]
    exact ⟨⟨fun hn => absurd hn h, fun _ => ⟨rfl, rfl⟩⟩, _, _, rfl⟩

/-! ### The statement's clauses -/

theorem telegramPublish_spec (s : State) (e n : Nat) (d : Bytes) (hr : s.core.sys.inReset = false) (hp : publishes s.core = true)
    (hx : s.core.train.due = [(e, n, d)]) :
    ∃ t, Runs .telegramPublish s t ∧
      t.core = (List.range 2).foldl (fun c p => if bitOf (tlN (cfgOf s.core) (pubE e + 17) 1) p then
        sendOn p (tlN (cfgOf s.core) (pubE e) 4) (tlIp (cfgOf s.core) (pubE e + 4)) (tlN (cfgOf s.core) (pubE e + 16) 1)
          (telegram (trainKey s (tlN (cfgOf s.core) (pubE e + 15) 1)) (tlN (cfgOf s.core) (pubE e + 15) 1) 0
            (tlN (cfgOf s.core) 14 2) (tlN (cfgOf s.core) (pubE e + 8) 2) s.core.nv.epoch.toNat n
            (tlN (cfgOf s.core) (pubE e) 4) d) c else c) (undue s.core) ∧
      t = { s with core := { s.core with train := { s.core.train with due := [], ports := t.core.train.ports }, out := t.core.out } } := by
  refine ⟨_, telegramPublish_one s (e, n, d) hr hp hx, rfl, ?_⟩
  exact congrArg (fun c => { s with core := c }) (sentBoth_only rfl)

theorem unitFailedTelegram_spec (s : State) (hmode : s.core.sys.mode = .safeTalk) (hr : s.core.sys.inReset = false)
    (hx : s.core.sys.txOff = false) (hms : 1000 ≤ s.core.train.ufMs) (hid : tlN (cfgOf s.core) 20 4 ≠ 0)
    (hmulti : unicast (tlIp (cfgOf s.core) 24) = false) :
    ∃ t, Runs .unitFailedTelegram s t ∧ t.core.train.ufMs = s.core.train.ufMs - 1000 ∧
      (∀ p, p < 2 → (portAt s.core p).linkUp = true → Output.telegram p (tlVid (cfgOf s.core) p) (tlN (cfgOf s.core) 20 4)
        (tlIp (cfgOf s.core) 24) (tlN (cfgOf s.core) 29 1) (failedTelegram s) ∈ t.core.out) ∧
      t = { s with core := { s.core with
        train := { s.core.train with ufMs := t.core.train.ufMs, ports := t.core.train.ports }, out := t.core.out } } := by
  obtain ⟨d, hd, hcore⟩ := unitFailed_sent s
  have honly := sentBoth_only hcore
  obtain ⟨hout, -, -⟩ := sentBoth_multicast hcore hmulti
  have hperiod : d.train.ufMs = s.core.train.ufMs - 1000 := by
    rw [honly]
    exact failedTold_ufMs s.core
  refine ⟨{ s with core := d }, hd ▸ unitFailedTelegram_due s hmode hr hx hms hid, hperiod, fun p hp hup => ?_, ?_⟩
  · have hleaves : (true && (portAt (failedTold s.core) p).linkUp) = true := by
      rw [Bool.true_and, failedTold_port, hup]
    rw [hout, failedTold_cfg]
    obtain rfl | rfl : p = 0 ∨ p = 1 := by omega
    · rw [if_pos hleaves]
      exact List.mem_append_left _ (List.mem_append_right _ (List.mem_singleton_self _))
    · rw [if_pos hleaves]
      exact List.mem_append_left _ (List.mem_append_left _ (List.mem_singleton_self _))
  · dsimp only
    rw [hperiod]
    unfold failedTold at honly
    exact congrArg (fun c => { s with core := c }) honly

section
variable {port : Fin 2} {s : State} (hserved : trainOn s.core = true ∧ (portAt s.core port).linkUp = true)
  (hcfg : s.core.run.cfg.isSome = true)
include hserved hcfg

theorem arpRefresh_served (answers : List Nat) : ∃ t, Runs (.arpRefresh port answers) s t ∧
    (∀ d, d ∈ (portAt t.core port).arp ↔ d ∈ destsOf (cfgOf s.core) port ∧ d ∈ answers) ∧
    (∀ p, p ≠ port.val → portAt t.core p = portAt s.core p) ∧
    t = { s with core := { s.core with train := { s.core.train with ports := t.core.train.ports }, out := t.core.out } } := by
  obtain ⟨hkept, hother, q, o, e⟩ := arpRefresh_spec port answers s.core
  refine ⟨{ s with core := arpRefresh port answers s.core }, ?_, hkept, hother, ?_⟩
  · exact congrArg Host.Outcome.next (if_pos (by rw [hserved.1, hserved.2, hcfg]; rfl))
  · dsimp only
    rw [e]

variable (hstorm : (portAt s.core port).spent + 1000 ≤ tlN (cfgOf s.core) 18 1 * 1000)
  (hroom : (portAt s.core port).norm.length < 16) {vid : Option Nat} (hvid : vidOk (cfgOf s.core) port vid = true)
include hstorm hroom hvid

theorem arpRequest_passed (ip asker : Nat) : ∃ t, Runs (.arpRequest port ip ⟨vid, asker⟩) s t ∧
    t.core.out = (if ip = tlIp (cfgOf s.core) (4 * port) then [.arp port (tlVid (cfgOf s.core) port) asker] else []) ++ s.core.out ∧
    t = { s with core := { s.core with train := { s.core.train with ports := t.core.train.ports }, out := t.core.out } } := by
  obtain ⟨hout, q, o, e⟩ := arpReply_spec port ip asker (charged port s.core) hcfg
  refine ⟨{ s with core := arpReply port ip asker (charged port s.core) }, ?_, hout, ?_⟩
  · exact congrArg (fun c => Host.Outcome.next { s with core := c }) (answered_passed _ hserved hvid hstorm hroom)
  · dsimp only
    rw [e]
    rfl

theorem icmpEcho_passed (src dst : Nat) (data : Bytes) : ∃ t, Runs (.icmpEcho port ⟨vid, src⟩ ⟨dst, data⟩) s t ∧
    (let answers := dst = tlIp (cfgOf s.core) (4 * port) ∧ onLink (cfgOf s.core) port src = true ∧ 0 < (portAt s.core port).icmp
     (answers → t.core.out = .echoReply port (tlVid (cfgOf s.core) port) src data :: s.core.out ∧
       (portAt t.core port).icmp = (portAt s.core port).icmp - 1) ∧
     (¬ answers → t.core.out = s.core.out ∧ (portAt t.core port).icmp = (portAt s.core port).icmp)) ∧
    t = { s with core := { s.core with train := { s.core.train with ports := t.core.train.ports }, out := t.core.out } } := by
  obtain ⟨hanswer, q, o, e⟩ := echoBack_spec port src dst data (charged port s.core) hcfg
  rw [charged_icmp] at hanswer
  refine ⟨{ s with core := echoBack port src dst data (charged port s.core) }, ?_, hanswer, ?_⟩
  · exact congrArg (fun c => Host.Outcome.next { s with core := c }) (answered_passed _ hserved hvid hstorm hroom)
  · dsimp only
    rw [e]
    rfl

end

/-- R386; in PARKED the PHYs are powered down (R394). -/
theorem phyLinkChange_spec (port : Fin 2) (s : State) (up duplex : Bool) :
    ((s.core.sys.inReset = true ∨ s.core.sys.mode = .parked) → Runs (.phyLinkChange port up duplex) s s) ∧
    (s.core.sys.inReset = false → s.core.sys.mode ≠ .parked → ∃ t, Runs (.phyLinkChange port up duplex) s t ∧
      portAt t.core port = { portAt s.core port with linkUp := up, duplex := up && duplex } ∧
      (∀ p, p ≠ port.val → portAt t.core p = portAt s.core p) ∧
      t = { s with core := { s.core with train := { s.core.train with ports := t.core.train.ports } } }) := by
  refine ⟨fun h => congrArg Host.Outcome.next (if_pos (by simpa using h)), fun hr hm => ?_⟩
  refine ⟨{ s with core := modPort port (fun x => { x with linkUp := up, duplex := up && duplex }) s.core },
    congrArg Host.Outcome.next (if_neg (by simp [hr, hm])), ?_, fun p hp => ?_, rfl⟩
  · exact (portAt_mod ..).trans (if_pos rfl)
  · exact (portAt_mod ..).trans (if_neg (Ne.symm hp))

/-- Settles O43: the datasets, the unit-failed telegram, then each port's answers. -/
theorem trainTransmission : Obligations.TrainTransmission := by
  intro s
  refine ⟨telegramPublish_held s, telegramPublish_silent s, fun e n d hr hp hx => ?_, unitFailedTelegram_silent s,
    fun hmode hr hx hms hid hmulti => ?_, fun port => ⟨fun hun => ?_, fun hserved vid hvid => ?_,
      fun hserved hstorm hroom hcfg vid hvid => ⟨arpRequest_passed hserved hcfg hstorm hroom hvid,
        icmpEcho_passed hserved hcfg hstorm hroom hvid⟩, arpRefresh_served, phyLinkChange_spec port s⟩⟩
  · obtain ⟨t, hrun, hcore, hkeeps⟩ := telegramPublish_spec s e n d hr hp hx
    refine ⟨fun hmulti => ?_, fun huni hunresolved => ?_⟩
    · obtain ⟨hout, hcounts, hstays⟩ := sentBoth_multicast hcore hmulti
      exact ⟨t, hrun, hout, hcounts, hstays, hkeeps⟩
    · obtain ⟨hcounts, hasks⟩ := sentBoth_unresolved hcore huni hunresolved
      exact ⟨t, hrun, hcounts, hasks, hkeeps⟩
  · obtain ⟨t, hrun, hms', hsent, hkeeps⟩ := unitFailedTelegram_spec s hmode hr hx hms hid hmulti
    refine ⟨t, failedTelegram s, hrun, hms', ?_, hsent, hkeeps⟩
    unfold failedTelegram
    rw [hmode]
  · refine ⟨fun ip asker => ?_, fun src data => ?_, fun answers => ?_⟩
    · exact congrArg (fun c => Host.Outcome.next { s with core := c }) (answered_unserved _ hun)
    · exact congrArg (fun c => Host.Outcome.next { s with core := c }) (answered_unserved _ hun)
    · exact congrArg Host.Outcome.next (if_neg (by
        rw [Bool.and_eq_true, Bool.and_eq_true]
        exact fun h => hun h.1))
  · refine ⟨fun ip asker => ?_, fun src dst data => ?_⟩
    · exact congrArg (fun c => Host.Outcome.next { s with core := c }) (answered_mistagged _ hserved hvid)
    · exact congrArg (fun c => Host.Outcome.next { s with core := c }) (answered_mistagged _ hserved hvid)

end Sys2Proof.Machine
end
